-- ==== Sys2Proof/Word.lean ====
section
/-! DEFINITION. The words of the Flohus (R2): bytes, 32-bit lanes and 64-bit registers. -/
namespace Sys2Proof

/-- A byte of any memory space. -/
abbrev Byte := BitVec 8
/-- A 32-bit lane of a fetch line or of a vector register (R52, R362). -/
abbrev Lane := BitVec 32
/-- A 64-bit register (R78). -/
abbrev Word := BitVec 64

end Sys2Proof
end

