-- ==== Sys2Proof/Syntax.lean ====
section
/-! DEFINITION. The steps of the Flohus as syntax: one constructor of `Instr` per row of the opcode table.
Control-core lanes and engine instructions carry the fields of their encodings (R59-R68, and the
reference entries); the rows that are events of the package carry what the outside world or the
environment decides at that event. The core an event or a lane belongs to is the acting core of the
state, not a field here. -/
namespace Sys2Proof

/-- The six units of a core, in the numbering of R8. -/
inductive Eng | cc | me | ve | ce | ge | le
  deriving DecidableEq, Repr

/-- A source field (R59): a result-queue entry by age, or a named register. -/
inductive Opnd | q (i : Fin 16) | n (i : Fin 16)
  deriving DecidableEq, Repr

/-- A destination field (R59): a named register (and the queue), or the queue only. -/
inductive Dest | n (i : Fin 16) | push
  deriving DecidableEq, Repr

/-- Access widths (R60). -/
inductive Width | byte | half | word | dbl
  deriving DecidableEq, Repr

/-- The spaces of an X-format instruction (R60). -/
inductive XSpace | k | d | g
  deriving DecidableEq, Repr

/-- Scopes (R60, R141). -/
inductive Scope | core | cluster | die | pkg | sys
  deriving DecidableEq, Repr

/-- The compare conditions of CMP and CMPI (R63, R308). -/
inductive Cond | eq | ne | lt | ltu | ge | geu
  deriving DecidableEq, Repr

/-- The kinds of AMAX (R290). -/
inductive MaxKind | smax | umax | smin | umin
  deriving DecidableEq, Repr

/-- Copy spaces in the SSP coding: 0 K, 1 D, 2 G, 3 U (R134). -/
inductive CSpace | k | d | g | u
  deriving DecidableEq, Repr

/-- Clock divisors (R16). -/
inductive Divisor | d3 | d4 | d5 | d6 | d8
  deriving DecidableEq, Repr

/-- Vector element types (R65). -/
inductive VTy | f32 | bf16 | f16 | i32 | i16 | i8
  deriving DecidableEq, Repr

/-- Rounding modes (R99). -/
inductive Rnd | rne | rz | rd | ru
  deriving DecidableEq, Repr

/-- Matrix formats in the index order of R67. -/
inductive Fmt | f64 | f32 | bf16 | f16 | e4m3 | e5m2 | e4m3e5m2 | e2m1 | q8 | q8q4 | q4
  deriving DecidableEq, Repr

/-- The rung-0 formats a ladder instruction names (R67, R183). -/
inductive LadFmt | bf16 | e4m3 | e2m1
  deriving DecidableEq, Repr

/-- The formats GCSR builds (R172). -/
inductive CsrFmt | bf16 | f16 | e4m3 | e5m2
  deriving DecidableEq, Repr

/-- Group sizes of the Q formats (R170). -/
inductive QGroup | g32 | g64 | g128
  deriving DecidableEq, Repr

/-- The fields of a nest level (R166). -/
inductive NestField | count | astep | bstep | cstep | sstep | flags
  deriving DecidableEq, Repr

/-- The thresholds of MMON (R175). -/
inductive MonField | satmax | unfmax | canmax | nanmax | bsomax | topmax | cexp
  deriving DecidableEq, Repr

/-- The conditions of VCMP (R371). -/
inductive VCond | eq | ne | lt | le | gt | ge | un | ltu
  deriving DecidableEq, Repr

/-- The operations of VRED (R383). -/
inductive RedOp | sum | min | max
  deriving DecidableEq, Repr

/-- The fields every lane B shares (R64): pop and push masks (bit e is engine e) and the guard with
its invert bit, absent when guard enable is clear. -/
structure LaneB where
  pop : BitVec 6
  push : BitVec 6
  guard : Option (Fin 4 × Bool)
  deriving DecidableEq, Repr

/-- The Q fields of MGO (R170). -/
structure MgoQ where
  part : Fin 64
  g : QGroup
  p : Fin 16
  deriving DecidableEq, Repr

/-- The tag context named by an MSPEC that is not `off` (R203). -/
structure SpecTag where
  xbase : BitVec 12
  ebase : Fin 64
  conf : Bool
  p : Fin 16
  deriving DecidableEq, Repr

/-- Two-source vector fields (R65). -/
structure V3 where
  ty : VTy
  rnd : Rnd
  mask : Fin 8
  vd : Fin 256
  va : Fin 256
  vb : Fin 256
  deriving DecidableEq, Repr

/-- One-source vector fields (R65). -/
structure V2 where
  ty : VTy
  mask : Fin 8
  vd : Fin 256
  va : Fin 256
  deriving DecidableEq, Repr

/-- Three-source vector fields of VFMA and VSEL (R65): the destination is v0 to v127. -/
structure V4 where
  ty : VTy
  rnd : Rnd
  mask : Fin 8
  vd : Fin 128
  va : Fin 256
  vb : Fin 256
  vc : Fin 256
  deriving DecidableEq, Repr

/-- Vector load and store fields (R376). -/
structure VMem where
  ty : VTy
  mask : Fin 8
  v : Fin 256
  cls : Fin 16
  p : Fin 16
  deriving DecidableEq, Repr

/-- A message that a link command carries to its target (R266, R268). -/
structure LinkMsg where
  /-- `true` for an LRED -/
  isRed : Bool
  /-- source package and, for a command of this package, its core and its number there -/
  srcPkg : Nat
  core : Nat
  seq : Nat
  /-- where the payload stands in the sender's unit pad -/
  src : Nat
  dstPkg : Nat
  ctx : Fin 64
  wid : Word
  target : Word
  counter : Option Word
  /-- an LRED of type BF16 -/
  half : Bool
  /-- EXPECT of R271, 0 outside deterministic lines -/
  expect : Nat
  payload : List Byte
  /-- the words of an LRED's target whose adds are made (R270) -/
  added : List Nat
  /-- issued from a deterministic line: what a racing source gives must not differ between runs (R253) -/
  det : Bool
  /-- the link over which this package sent or forwarded it (R266) -/
  via : Option (Fin 16)
  deriving DecidableEq, Repr

/-- What a link delivers (R266, R267): a message, or the completion of one, for a package, with the sending core, the
message's number there, and success. -/
inductive Flit | msg (m : LinkMsg) | answer (pkg core seq : Nat) (ok : Bool)
  deriving DecidableEq, Repr

/-- What a debugger changes in a stopped core (R255): a named register, a result-queue position, a guard, a special
register, a lane of a vector register, a mask register, a byte of an operand slot or accumulator entry, a slot's zero
point or side record, its state with its binding (descriptor, role B, shadow, KLEN), an accumulator entry's tag, a shadow
level of the nest, a monitor threshold, a ladder descriptor, the vector allotment, the work identifier or CYC, a parameter
of an engine, a word of a template, the lane at which the control thread goes on, an active loop, the tokens of a queue, a
byte of memory (space, which pad, address), or the value of a dumped record. -/
inductive DebugAct
  | named (i : Fin 16) (v : Word)
  | result (i : Fin 16) (v : Word)
  | guard (k : Fin 4) (v : Bool)
  | special (reg : BitVec 16) (v : Word)
  | lane (r : Fin 256) (l : Fin 64) (v : BitVec 32)
  | operand (slot : Fin 64) (addr : Fin 16384) (b : Byte)
  | acc (entry : Fin 64) (addr : Fin 16384) (b : Byte)
  | byte (sp : CSpace) (unit addr : Nat) (b : Byte)
  | value (i : Nat) (bytes : List Byte)
  | mask (m : Fin 7) (v : Word)
  | zeroPoint (slot : Fin 64) (i : Fin 1024) (b : Byte)
  | record (slot : Fin 64) (sat unf nan : Nat) (poison : Option Nat) (skip : Bool)
  | param (e : Eng) (p : Fin 16) (v : Word)
  | template (t : Fin 64) (w : Fin 16) (v : Word)
  | pc (line : Word) (lane : Fin 8)
  | loop (i : Fin 4) (left first : Word) (len : Nat)
  | tokens (src dst : Eng) (n : Fin 16)
  | slot (slot : Fin 64) (st : Fin 3) (bind : Option (Fin 16 × Bool × Nat × Nat))
  | tag (entry : Fin 64) (mode : Fin 3) (id : Fin 4096) (poison : Option Nat) (map : List (BitVec 16))
  | nest (level : Fin 6) (count astep bstep cstep sstep flags : BitVec 16)
  | threshold (i : Fin 7) (v : BitVec 16)
  | ladder (i : Fin 16) (v : Word)
  | vallot (n : Fin 257)
  | wid (v : Word)
  | cyc (v : Word)
  deriving DecidableEq, Repr

/-- What a debugger reads (R255, R257): a special register or counter by its number, what it can write of the core, a record
of the dump, or bytes of a pad or of global memory. -/
inductive DebugView
  | special (reg : BitVec 16)
  | named (i : Fin 16)
  | result (i : Fin 16)
  | guard (k : Fin 4)
  | lane (r : Fin 256) (l : Fin 64)
  | mask (m : Fin 7)
  | operand (slot : Fin 64) (addr : Fin 16384)
  | acc (entry : Fin 64) (addr : Fin 16384)
  | zeroPoint (slot : Fin 64) (i : Fin 1024)
  | record (slot : Fin 64)
  | param (e : Eng) (p : Fin 16)
  | template (t : Fin 64) (w : Fin 16)
  | pc
  | loop (i : Fin 4)
  | tokens (src dst : Eng)
  | slot (slot : Fin 64)
  | tag (entry : Fin 64)
  | nest (level : Fin 6)
  | threshold (i : Fin 7)
  | ladder (i : Fin 16)
  | dump (i : Nat)
  | bytes (sp : CSpace) (unit addr n : Nat)
  deriving DecidableEq, Repr

/-- What the outside does that is no row of the opcode table: the host reads a register of BAR0 (R259, R260), sends an
AtomicOp other than a 64-bit FetchAdd (R258), or a debugger writes to or reads the acting core, which is stopped
(R255). -/
inductive Outside
  | bar0Read (off size : Nat)
  | atomicOp
  | debug (a : DebugAct)
  | view (v : DebugView)
  deriving DecidableEq, Repr

/-- How the links trained at bring-up (R25, R258): the PCI Express link, with the size of BAR2 as a power of two from
20 on, and the links to other packages. -/
structure Trained where
  pcie : Bool
  bar2 : Fin 21
  links : BitVec 16
  deriving DecidableEq, Repr

/-- The adds of a run that one turn applies (R252): the run, and how many of its adds, or all that are left. -/
structure AddPart where
  run : Nat
  count : Option Nat
  deriving DecidableEq, Repr

/-- A pod barrier that is open (R273): its number, and which of the nodes that use the number. -/
structure BarAt where
  b : Fin 16
  node : Nat
  deriving DecidableEq, Repr

/-- The adds of an arriving LRED that one turn makes (R270): its place in the inbox, and the 4-byte words of the target,
by physical address, or all. -/
structure RedPart where
  i : Nat
  elems : Option (List Nat)
  deriving DecidableEq, Repr

/-- What the loader finds in the sections of a kernel block whose records the spec does not lay out
bit by bit (R278): template and ladder declarations with their indices, data
records, buffer declarations (index, rights) and the ABS64 places (template and word; space, record
and byte offset). -/
structure KernelParts where
  sigOk : Bool
  tmpl : List (Nat × List Word)
  ladders : List (Nat × Word)
  dataU : List (Nat × List Byte)
  dataK : List (Nat × List Byte)
  dataD : List (Nat × List Byte)
  dataG : List (Word × List Byte)
  buffers : List (Nat × BitVec 5)
  tmplRel : List (Nat × Nat)
  dataRel : List (Nat × Nat × Nat)
  /-- the image fits the free global memory (L14) -/
  room : Bool
  deriving DecidableEq, Repr

/-- The steps of the machine, in the order of the opcode table. -/
inductive Instr
  -- the host port, the mailbox and the management core
  | deviceReset (sigOk : Bool) (stack bank : Option Nat) (links : Trained) (melt : BitVec 16)
  | launch (ptr : Word) (eight : Bool)
  | hostRegisterWrite (off : Nat) (size : Nat) (v : Word)
  | mbrspRead
  | load (parts : KernelParts)
  | ctxnew
  | ctxfree
  | qclear
  | watchdog
  | preempt
  | resume
  | token (verified : Bool)
  | stop
  | go
  | podcfg
  | pcap
  | spmax
  | logread
  | corereset
  | hostBar2Read (off : Nat) (len : Nat)
  | hostBar2Write (off : Nat) (bytes : List Byte)
  | hostFetchadd (off : Nat) (v : Word)
  -- graphs, nodes and invocations
  | graphFetch
  | nodeHeadCheck (q : Fin 4)
  | dependenceRead (q : Fin 4) (second : Bool)
  | predicateRead (q : Fin 4)
  | invocationStart
  | invocationEnd
  | nodePost
  | nodeWatchdog (q : Fin 4)
  -- the control thread and its copies
  | fetchLine
  | lineDrain
  | trapEntry
  | copyBegin (ch : Fin 9)
  | copyComplete (ch : Fin 9)
  | copyFreeze (e : Eng) (ch : Fin 9)
  | pageMigration (ctx : Fin 64) (entry : Nat) (page : Nat) (frame : Nat) (lpddr : Bool)
  | mmaCommit
  | ladderReplay
  | afaddRunApply (part : AddPart)
  -- links, pod barriers and power
  | flitReceive (link : Fin 16) (crcOk retrainOk : Bool) (flit : Option Flit)
  | lsendArrival (i : Nat)
  | lredArrival (part : RedPart)
  | leCompletion (k : Nat)
  | podBarrierComplete (b : BarAt)
  | podRelease (b : BarAt) (cluster : Option (Fin 32))
  | droopAlarm
  | droopStretchEnd
  | droopHalvingEnd
  | laneGroupGate (g : Fin 4)
  | governorInterval
  | powerCapWindow
  | meltUpdate (frac : BitVec 16)
  | leaseExpiry (id : Nat)
  | sprintSwitch
  | debugStop
  -- control-core lanes: the R group (R63)
  | add (d : Dest) (a b : Opnd)
  | sub (d : Dest) (a b : Opnd)
  | mul (d : Dest) (a b : Opnd)
  | mulh (d : Dest) (a b : Opnd)
  | div (d : Dest) (a b : Opnd)
  | rem (d : Dest) (a b : Opnd)
  | and (d : Dest) (a b : Opnd)
  | or (d : Dest) (a b : Opnd)
  | xor (d : Dest) (a b : Opnd)
  | shl (d : Dest) (a b : Opnd)
  | shr (d : Dest) (a b : Opnd)
  | sra (d : Dest) (a b : Opnd)
  | clz (d : Dest) (a : Opnd)
  | popc (d : Dest) (a : Opnd)
  | mov (d : Dest) (a : Opnd)
  | sel (d : Dest) (a b : Opnd) (k : Fin 4) (inv : Bool)
  | cmp (c : Cond) (d : Dest) (a b : Opnd)
  -- immediates and the control thread (R62)
  | addi (d : Dest) (a : Opnd) (imm : BitVec 16)
  | andi (d : Dest) (a : Opnd) (imm : BitVec 16)
  | ori (d : Dest) (a : Opnd) (imm : BitVec 16)
  | xori (d : Dest) (a : Opnd) (imm : BitVec 16)
  | cmpi (c : Cond) (d : Dest) (a : Opnd) (imm : BitVec 13)
  | shlImm (d : Dest) (a : Opnd) (amt : BitVec 6)
  | shrImm (d : Dest) (a : Opnd) (amt : BitVec 6)
  | sraImm (d : Dest) (a : Opnd) (amt : BitVec 6)
  | movi (d : Dest) (imm : BitVec 16)
  | movhi (d : Fin 16) (imm : BitVec 16) (pos : BitVec 2)
  | wid (d : Dest) (f : BitVec 3)
  | srd (d : Dest) (reg : BitVec 16)
  | swr (a : Opnd) (reg : BitVec 16)
  | time (d : Dest)
  | sprint (d : Dest) (mask micros : Opnd)
  | sprel (a : Opnd)
  | br (c : Opnd) (disp : BitVec 21)
  | jmp (disp : BitVec 21)
  | call (disp : BitVec 21)
  | ret
  | loop (count : Opnd) (len : BitVec 21)
  | guard (k : Fin 4) (a : Opnd)
  | fork (mask : BitVec 6)
  | join (mask : BitVec 6)
  | trap (code : BitVec 8)
  | eret
  | brk (num : BitVec 16)
  | clkdiv (e : Eng) (v : Divisor)
  | pset (e : Eng) (p : Fin 16) (a : Opnd)
  | btset (d : Dest) (entry value : Opnd) (w : BitVec 2)
  | btswap (d : Dest) (e1 e2 : Opnd)
  | dead (d : Dest) (addr len : Opnd)
  -- loads and stores (M format)
  | ldu (w : Width) (d : Dest) (base : Opnd) (off : BitVec 10) (cls : Fin 16)
  | stu (w : Width) (data base : Opnd) (off : BitVec 10) (cls : Fin 16)
  | ldk (w : Width) (d : Dest) (base : Opnd) (off : BitVec 10) (cls : Fin 16)
  | stk (w : Width) (data base : Opnd) (off : BitVec 10) (cls : Fin 16)
  | ldn (w : Width) (d : Dest) (base : Opnd) (off : BitVec 10) (cls : Fin 16)
  | stn (w : Width) (data base : Opnd) (off : BitVec 10) (cls : Fin 16)
  | ldd (w : Width) (d : Dest) (base : Opnd) (off : BitVec 10) (cls : Fin 16)
  | std (w : Width) (data base : Opnd) (off : BitVec 10) (cls : Fin 16)
  | ldg (w : Width) (d : Dest) (base : Opnd) (off : BitVec 10) (cls : Fin 16)
  | stg (w : Width) (data base : Opnd) (off : BitVec 10) (cls : Fin 16)
  -- atomics (X format): `dbl` is width 3
  | aadd (sp : XSpace) (dbl : Bool) (sc : Scope) (data base : Opnd) (cls : Fin 16)
  | acas (sp : XSpace) (dbl : Bool) (sc : Scope) (data base cmp : Opnd) (cls : Fin 16)
  | axch (sp : XSpace) (dbl : Bool) (sc : Scope) (data base : Opnd) (cls : Fin 16)
  | amax (kind : MaxKind) (sp : XSpace) (dbl : Bool) (sc : Scope) (data base : Opnd) (cls : Fin 16)
  | afadd (sp : XSpace) (dbl : Bool) (sc : Scope) (data base : Opnd) (cls : Fin 16)
  | scld (sp : XSpace) (w : Width) (d : Dest) (base : Opnd)
  | scst (sp : XSpace) (w : Width) (data base : Opnd)
  -- ordering, counters, queues, templates, predictor
  | cfence (sc : Scope) (mask : BitVec 16)
  | qfence (mask : BitVec 6)
  | drain (sp : CSpace)
  | cwait (addr target : Opnd)
  | ctrinit (addr value : Opnd)
  | arrive (die : Bool) (b : Fin 16) (mask : BitVec 16)
  | await (die : Bool) (b : Fin 16) (mask : BitVec 16)
  | qpush (q : BitVec 2) (core addr : Opnd)
  | sta (addr data : Opnd) (mask : BitVec 16)
  | ctset (t : Fin 64) (w : Fin 16) (a : Opnd)
  | xpred (d : Dest) (sig : Opnd) (k : BitVec 3)
  | xput (sig value : Opnd)
  | xget (d : Dest) (sig : Opnd)
  -- writes of the action registers (R93, R220)
  | tkpushWrite (a : Opnd)
  | tkpopWrite (a : Opnd)
  | rqrelRetry (a : Opnd)
  | rqrelRelease (a : Opnd)
  -- the matrix engine
  | mclaim (s : Fin 64) (n : Fin 64) (b : LaneB)
  | mrel (s : Fin 64) (n : Fin 64) (b : LaneB)
  | mzero (e : Fin 64) (n : Fin 64) (b : LaneB)
  | mfill (s : Fin 64) (p : Fin 16) (b : LaneB)
  | mwb (e : Fin 64) (p : Fin 16) (b : LaneB)
  | mnest (level : Fin 6) (f : NestField) (v : BitVec 16) (b : LaneB)
  | msca (dst part n : Fin 64) (g : QGroup) (p : Fin 16) (k : BitVec 16) (b : LaneB)
  | mma (f : Fmt) (e sa sb : Fin 64) (g : Option QGroup) (b : LaneB)
  | mgo (f : Fmt) (c sa sb : Fin 64) (q : Option MgoQ) (b : LaneB)
  | mmaLad (f : LadFmt) (e sa sb : Fin 64) (b : LaneB)
  | mladr (s : Fin 64) (lad : Fin 16) (roleB : Bool) (p : Fin 16) (klen : BitVec 16) (b : LaneB)
  | mmon (f : MonField) (v : BitVec 16) (b : LaneB)
  | mspec (t : Option SpecTag) (b : LaneB)
  | mresolve (f n o : Fin 64) (noTrain : Bool) (p : Fin 16) (b : LaneB)
  -- the vector engine
  | vadd (v : V3) (b : LaneB)
  | vsub (v : V3) (b : LaneB)
  | vmul (v : V3) (b : LaneB)
  | vfma (v : V4) (b : LaneB)
  | vmin (v : V3) (b : LaneB)
  | vmax (v : V3) (b : LaneB)
  | vabs (v : V2) (b : LaneB)
  | vneg (v : V2) (b : LaneB)
  | vrcp (v : V2) (b : LaneB)
  | vrsq (v : V2) (b : LaneB)
  | vexp2 (v : V2) (b : LaneB)
  | vlog2 (v : V2) (b : LaneB)
  | vcvt (dst : VTy) (rnd : Rnd) (v : V2) (b : LaneB)
  | vcmp (c : VCond) (ty : VTy) (mask : Fin 8) (md : Fin 7) (va vb : Fin 256) (b : LaneB)
  | vsel (v : V4) (b : LaneB)
  | vand (v : V3) (b : LaneB)
  | vor (v : V3) (b : LaneB)
  | vxor (v : V3) (b : LaneB)
  | vshl (v : V3) (b : LaneB)
  | vshr (arith : Bool) (v : V3) (b : LaneB)
  | vred (op : RedOp) (rnd : Rnd) (v : V2) (b : LaneB)
  | vperm (v : V3) (b : LaneB)
  | vbcast (lane : Fin 64) (v : V2) (b : LaneB)
  | viota (ty : VTy) (mask : Fin 8) (vd : Fin 256) (b : LaneB)
  | vmovi (ty : VTy) (mask : Fin 8) (vd : Fin 256) (imm : BitVec 16) (b : LaneB)
  | vldu (v : VMem) (b : LaneB)
  | vstu (v : VMem) (b : LaneB)
  | vldk (v : VMem) (b : LaneB)
  | vstk (v : VMem) (b : LaneB)
  | vldd (v : VMem) (b : LaneB)
  | vstd (v : VMem) (b : LaneB)
  | vstn (v : VMem) (b : LaneB)
  | vldg (vx : Fin 256) (v : VMem) (b : LaneB)
  | vgrow (n8 : BitVec 6) (b : LaneB)
  | vshrink (n8 : BitVec 6) (b : LaneB)
  | vrdacc (int : Bool) (mask : Fin 8) (vd : Fin 256) (e row : Fin 64) (b : LaneB)
  -- the copy engine
  | ccopy (t : Fin 64) (spec post : Bool) (p : Fin 16) (b : LaneB)
  | cfill (sp : CSpace) (len pat addr : Fin 16) (b : LaneB)
  | cpost (v c : Fin 16) (b : LaneB)
  | cqnt (s : Fin 64) (b : LaneB)
  | cmov (src dst : CSpace) (len s d : Fin 16) (b : LaneB)
  -- the gather engine
  | gcsr (s n : Fin 64) (f : CsrFmt) (p : Fin 16) (b : LaneB)
  | gmap (s : Fin 64) (i j : Fin 16) (b : LaneB)
  | grows (n : Fin 4096) (d s x : Fin 16) (len : BitVec 16) (b : LaneB)
  | gscat (n : Fin 4096) (d s x : Fin 16) (len : BitVec 16) (b : LaneB)
  -- the link engine
  | lsend (d s pk : Fin 16) (c : Option (Fin 16)) (len : Fin 4096) (b : LaneB)
  | lred (half : Bool) (d s pk c : Fin 16) (expect : Fin 16) (len : Fin 4096) (b : LaneB)
  | lbar (bar : Fin 16) (b : LaneB)
  -- events of the memory system and the supply
  | accessPerformed (i : Nat)
  | fillComplete (e : Eng)
  | droopRearm
  deriving DecidableEq, Repr

end Sys2Proof
end

