-- ==== Sys2Proof/WellFormed.lean ====
section
/-! DEFINITION. Which instructions have an encoding without a reserved value or a nonzero reserved bit
(R62-R68, R364). Everything the types of `Syntax` already rule out is not repeated here. -/
namespace Sys2Proof

/-- The number of an engine (R8). -/
def Eng.num : Eng → Nat
  | .cc => 0 | .me => 1 | .ve => 2 | .ce => 3 | .ge => 4 | .le => 5

/-- The system-register numbers of R90. -/
def sysRegListed (r : Nat) : Bool :=
  r ≤ 0x3 || (0x10 ≤ r && r ≤ 0x14) || (0x20 ≤ r && r ≤ 0x2F) || (0x30 ≤ r && r ≤ 0x35) ||
  (0x38 ≤ r && r ≤ 0x3D) || (0x40 ≤ r && r ≤ 0x48) || r == 0x50 || r == 0x51 ||
  (0x100 ≤ r && r ≤ 0x105) || (0x110 ≤ r && r ≤ 0x132) || (0x140 ≤ r && r ≤ 0x144) ||
  (0x150 ≤ r && r ≤ 0x152) || (0x160 ≤ r && r ≤ 0x163) || (0x168 ≤ r && r ≤ 0x16A) ||
  (0x170 ≤ r && r ≤ 0x172) || r == 0x178 || r == 0x179 || (0x200 ≤ r && r ≤ 0x3FF)

/-- The types that hold floating-point elements (R65). -/
def VTy.isFloat : VTy → Bool
  | .f32 | .bf16 | .f16 => true
  | .i32 | .i16 | .i8 => false

/-- The Q formats of R67. -/
def Fmt.isQ : Fmt → Bool
  | .q8 | .q8q4 | .q4 => true
  | .f64 | .f32 | .bf16 | .f16 | .e4m3 | .e5m2 | .e4m3e5m2 | .e2m1 => false

/-- Every value of `a` is a value of `b` (R100): the float conversions that round are the others. -/
def VTy.holds (b a : VTy) : Bool :=
  match a, b with
  | .f32, .f32 | .bf16, .bf16 | .f16, .f16 | .bf16, .f32 | .f16, .f32 => true
  | _, _ => false

/-- VCVT uses its rounding field for this pair of types (R372). -/
def vcvtRounds (dst src : VTy) : Bool :=
  if src.isFloat && dst.isFloat then !(dst.holds src) else src.isFloat || dst.isFloat

/-- A rounding field is zero unless the type rounds (R364). -/
def rndOk (rounds : Bool) (r : Rnd) : Bool := rounds || r == .rne

/-- A signed 16-bit step lies between −63 and 63 (R166). -/
def stepOk (v : BitVec 16) : Bool := -63 ≤ v.toInt && v.toInt ≤ 63

/-- The value range of a nest field (R166). -/
def nestValueOk (f : NestField) (v : BitVec 16) : Bool :=
  match f with
  | .count | .sstep => true
  | .astep | .bstep | .cstep => stepOk v
  | .flags => v.toNat < 4

/-- An engine does not name itself in its masks (R64). -/
def LaneB.ok (e : Eng) (b : LaneB) : Bool := !(b.pop.getLsbD e.num) && !(b.push.getLsbD e.num)

/-- The instruction has an encoding with no reserved value. Events have none and are well formed. -/
def Instr.wf : Instr → Bool
  | .movhi _ _ pos => pos != 0
  | .wid _ f => f != 6
  | .srd _ reg => sysRegListed reg.toNat
  | .swr _ reg => sysRegListed reg.toNat && reg != 0x50 && reg != 0x51
  | .loop _ len => len != 0
  | .fork m | .join m | .qfence m => !(m.getLsbD 0)
  | .pset e _ _ => e != .cc
  | .drain sp => sp != .g
  | .qpush q _ _ => q != 0
  | .xpred _ _ k => 1 ≤ k.toNat && k.toNat ≤ 4
  | .mclaim _ _ b | .mrel _ _ b | .mzero _ _ b | .mfill _ _ b | .mwb _ _ b => b.ok .me
  | .mnest _ f v b => nestValueOk f v && b.ok .me
  | .msca _ _ _ _ _ _ b | .mmaLad _ _ _ _ b | .mladr _ _ _ _ _ b | .mspec _ b
  | .mresolve _ _ _ _ _ b => b.ok .me
  | .mma f _ _ _ g b => g.isSome == f.isQ && b.ok .me
  | .mgo f _ _ _ q b => q.isSome == f.isQ && b.ok .me
  | .mmon f v b => (f != .cexp || v.toNat ≤ 63) && b.ok .me
  | .vadd v b | .vsub v b | .vmul v b => rndOk v.ty.isFloat v.rnd && b.ok .ve
  | .vfma v b => rndOk v.ty.isFloat v.rnd && b.ok .ve
  | .vmin v b | .vmax v b | .vand v b | .vor v b | .vxor v b | .vperm v b =>
      rndOk false v.rnd && b.ok .ve
  | .vabs _ b | .vneg _ b => b.ok .ve
  | .vrcp v b | .vrsq v b | .vexp2 v b | .vlog2 v b => v.ty.isFloat && b.ok .ve
  | .vcvt dst r v b => rndOk (vcvtRounds dst v.ty) r && b.ok .ve
  | .vcmp c ty _ _ _ _ b =>
      (match c with | .un => ty.isFloat | .ltu => !ty.isFloat | _ => true) && b.ok .ve
  | .vsel v b => rndOk false v.rnd && b.ok .ve
  | .vshl v b | .vshr _ v b => !v.ty.isFloat && rndOk false v.rnd && b.ok .ve
  | .vred op r v b => rndOk (op == .sum && v.ty.isFloat) r && b.ok .ve
  | .vbcast _ _ b | .viota _ _ _ b => b.ok .ve
  | .vmovi ty _ _ imm b => (ty != .i8 || imm.toNat < 256) && b.ok .ve
  | .vldu _ b | .vstu _ b | .vldk _ b | .vstk _ b | .vldd _ b | .vstd _ b | .vstn _ b
  | .vldg _ _ b | .vrdacc _ _ _ _ _ b => b.ok .ve
  | .vgrow n b | .vshrink n b => n.toNat ≤ 32 && b.ok .ve
  | .ccopy _ _ _ _ b | .cfill _ _ _ _ b | .cpost _ _ b | .cqnt _ b => b.ok .ce
  | .cmov src dst _ _ _ b => src != .g && dst != .g && b.ok .ce
  | .gcsr _ _ _ _ b | .gmap _ _ _ b => b.ok .ge
  | .grows _ _ _ _ len b | .gscat _ _ _ _ len b =>
      len != 0 && len.toNat % 4 == 0 && b.ok .ge
  | .lsend _ _ _ _ _ b | .lred _ _ _ _ _ _ _ b | .lbar _ b => b.ok .le
  | _ => true

end Sys2Proof
end

