-- ==== Sys2Proof/Decode.lean ====
section
/-! DEFINITION. Decoding of control-core lanes and engine lane pairs (R59-R69, R364 and the encodings of
the reference entries), total on any bits, refusing by the reason code of R69; and the encoder written
from the same tables. Words are natural numbers; `fld w hi lo` is the range w<hi:lo> of R2. -/
namespace Sys2Proof

/-- Bits hi to lo of a word (R2). -/
def fld (w hi lo : Nat) : Nat := w / 2 ^ lo % 2 ^ (hi + 1 - lo)

/-- A source field (R59). -/
def opndOf (x : Nat) : Opnd :=
  if x / 16 % 2 = 0 then .q (Fin.ofNat 16 x) else .n (Fin.ofNat 16 x)

/-- A destination field (R59): 16 to 30 are refused with reason 0x14. -/
def withDest (x : Nat) (k : Dest → Instr) : Except Nat Instr :=
  if x < 16 then .ok (k (.n (Fin.ofNat 16 x))) else if x = 31 then .ok (k .push) else .error 0x14

/-- The checks that precede the destination rule: reserved bits (0x12), then coded fields (0x13),
the lowest reason first (R69). -/
def checked (zeros : Nat) (coded : Bool) (r : Except Nat Instr) : Except Nat Instr :=
  if zeros ≠ 0 then .error 0x12 else if coded then r else .error 0x13

def widthOf (x : Nat) : Width :=
  match x % 4 with | 0 => .byte | 1 => .half | 2 => .word | _ => .dbl
def condOf (x : Nat) : Cond :=
  match x with | 0 => .eq | 1 => .ne | 2 => .lt | 3 => .ltu | 4 => .ge | _ => .geu
def xspaceOf (x : Nat) : XSpace := match x with | 0 => .k | 1 => .d | _ => .g
def scopeOf (x : Nat) : Scope :=
  match x with | 0 => .core | 1 => .cluster | 2 => .die | 3 => .pkg | _ => .sys
def maxKindOf (x : Nat) : MaxKind := match x with | 0 => .smax | 1 => .umax | 2 => .smin | _ => .umin
def cspaceOf (x : Nat) : CSpace := match x with | 0 => .k | 1 => .d | 2 => .g | _ => .u
def engOf (x : Nat) : Eng :=
  match x with | 0 => .cc | 1 => .me | 2 => .ve | 3 => .ce | 4 => .ge | _ => .le
def divOf (x : Nat) : Divisor := match x with | 3 => .d3 | 4 => .d4 | 5 => .d5 | 6 => .d6 | _ => .d8
def divLegal (x : Nat) : Bool := x == 3 || x == 4 || x == 5 || x == 6 || x == 8

/-- The R group (op 0x01, R63). -/
def decodeR (w : Nat) : Except Nat Instr :=
  let d := fld w 25 21; let a := opndOf (fld w 20 16); let bf := fld w 15 11; let b := opndOf bf
  let low := fld w 3 0
  let two (k : Dest → Opnd → Opnd → Instr) : Except Nat Instr :=
    checked low true (withDest d fun d => k d a b)
  let one (k : Dest → Opnd → Instr) : Except Nat Instr :=
    checked (low + bf) true (withDest d fun d => k d a)
  match fld w 10 4 with
  | 0x00 => two .add | 0x01 => two .sub | 0x02 => two .mul | 0x03 => two .mulh
  | 0x04 => two .div | 0x05 => two .rem | 0x08 => two .and | 0x09 => two .or | 0x0A => two .xor
  | 0x0C => two .shl | 0x0D => two .shr | 0x0E => two .sra
  | 0x10 => one .clz | 0x11 => one .popc | 0x12 => one .mov
  | 0x14 => checked (fld w 0 0) true
      (withDest d fun d => .sel d a b (Fin.ofNat 4 (fld w 3 2)) (fld w 1 1 = 1))
  | 0x18 => two (.cmp .eq) | 0x19 => two (.cmp .ne) | 0x1A => two (.cmp .lt)
  | 0x1B => two (.cmp .ltu) | 0x1C => two (.cmp .ge) | 0x1D => two (.cmp .geu)
  | _ => .error 0x10

/-- An X-format atomic (R290): data is a source, the compare field is zero but for ACAS and AMAX. -/
def decodeAtomic (w zeros : Nat) (k : XSpace → Bool → Scope → Opnd → Opnd → Fin 16 → Instr) :
    Except Nat Instr :=
  checked zeros (fld w 10 9 < 3 && 2 ≤ fld w 8 7 && fld w 6 4 < 5)
    (.ok (k (xspaceOf (fld w 10 9)) (fld w 8 7 = 3) (scopeOf (fld w 6 4)) (opndOf (fld w 25 21))
      (opndOf (fld w 20 16)) (Fin.ofNat 16 (fld w 3 0))))

/-- A control-core lane (R62). -/
def decodeCC (w : Nat) : Except Nat Instr :=
  let d := fld w 25 21; let a := opndOf (fld w 20 16); let b := opndOf (fld w 15 11)
  let x := opndOf (fld w 25 21)
  let imm := BitVec.ofNat 16 w
  let disp := BitVec.ofNat 21 w
  let wd := widthOf (fld w 15 14); let off := BitVec.ofNat 10 (fld w 13 4)
  let cls := Fin.ofNat 16 (fld w 3 0)
  let load (k : Width → Dest → Opnd → BitVec 10 → Fin 16 → Instr) : Except Nat Instr :=
    withDest d fun d => k wd d a off cls
  let store (k : Width → Opnd → Opnd → BitVec 10 → Fin 16 → Instr) : Except Nat Instr :=
    .ok (k wd x a off cls)
  match fld w 31 26 with
  | 0x01 => decodeR w
  | 0x02 => withDest d fun d => .addi d a imm
  | 0x03 => withDest d fun d => .andi d a imm
  | 0x04 => withDest d fun d => .ori d a imm
  | 0x05 => withDest d fun d => .xori d a imm
  | 0x06 => checked 0 (fld w 15 13 < 6)
      (withDest d fun d => .cmpi (condOf (fld w 15 13)) d a (BitVec.ofNat 13 w))
  | 0x07 => checked (fld w 13 6) (fld w 15 14 < 3)
      (withDest d fun d =>
        match fld w 15 14 with
        | 0 => .shlImm d a (BitVec.ofNat 6 w)
        | 1 => .shrImm d a (BitVec.ofNat 6 w)
        | _ => .sraImm d a (BitVec.ofNat 6 w))
  | 0x08 => checked (fld w 20 16) true (withDest d fun d => .movi d imm)
  | 0x09 => checked (fld w 20 18) (fld w 17 16 != 0)
      (if d < 16 then .ok (.movhi (Fin.ofNat 16 d) imm (BitVec.ofNat 2 (fld w 17 16)))
       else .error 0x14)
  | 0x0A => checked (fld w 20 3) (fld w 2 0 != 6)
      (withDest d fun d => .wid d (BitVec.ofNat 3 w))
  | 0x0B => checked (fld w 20 16) (sysRegListed (fld w 15 0)) (withDest d fun d => .srd d imm)
  | 0x0C => checked d (sysRegListed (fld w 15 0))
      (if fld w 15 0 = 0x50 then .ok (.tkpushWrite a)
       else if fld w 15 0 = 0x51 then .ok (.tkpopWrite a) else .ok (.swr a imm))
  | 0x0D => checked (fld w 20 0) true (withDest d fun d => .time d)
  | 0x0E => checked (fld w 7 0) (fld w 10 8 == 0) (withDest d fun d => .sprint d a b)
  | 0x0F => checked (d + fld w 15 0) true (.ok (.sprel a))
  | 0x10 => .ok (.br x disp)
  | 0x11 => checked d true (.ok (.jmp disp))
  | 0x12 => checked d true (.ok (.call disp))
  | 0x13 => checked (fld w 25 0) true (.ok .ret)
  | 0x14 => checked 0 (fld w 20 0 != 0) (.ok (.loop x disp))
  | 0x15 => checked (fld w 25 23 + fld w 15 0) true (.ok (.guard (Fin.ofNat 4 (fld w 22 21)) a))
  | 0x16 => checked (fld w 25 16 + fld w 9 0 + fld w 10 10) true
      (.ok (.fork (BitVec.ofNat 6 (fld w 15 10))))
  | 0x17 => checked (fld w 25 16 + fld w 9 0 + fld w 10 10) true
      (.ok (.join (BitVec.ofNat 6 (fld w 15 10))))
  | 0x18 => checked (fld w 25 8) true (.ok (.trap (BitVec.ofNat 8 w)))
  | 0x19 => checked (fld w 25 0) true (.ok .eret)
  | 0x1A => checked (fld w 25 16) true (.ok (.brk imm))
  | 0x1B => checked (fld w 22 4) (fld w 25 23 < 6 && divLegal (fld w 3 0))
      (.ok (.clkdiv (engOf (fld w 25 23)) (divOf (fld w 3 0))))
  | 0x1C => checked (fld w 22 21 + fld w 11 0) (1 ≤ fld w 25 23 && fld w 25 23 ≤ 5)
      (.ok (.pset (engOf (fld w 25 23)) (Fin.ofNat 16 (fld w 15 12)) a))
  | 0x1D => checked (fld w 8 0) true
      (withDest d fun d => .btset d a b (BitVec.ofNat 2 (fld w 10 9)))
  | 0x1E => checked (fld w 10 0) true (withDest d fun d => .btswap d a b)
  | 0x1F => checked (fld w 10 0) true (withDest d fun d => .dead d a b)
  | 0x20 => load .ldu | 0x21 => store .stu | 0x22 => load .ldk | 0x23 => store .stk
  | 0x24 => load .ldn | 0x25 => store .stn | 0x26 => load .ldd | 0x27 => store .std
  | 0x28 => load .ldg | 0x29 => store .stg
  | 0x2A => decodeAtomic w (fld w 15 11) .aadd
  | 0x2B => decodeAtomic w 0 fun sp dbl sc x a c => .acas sp dbl sc x a b c
  | 0x2C => decodeAtomic w (fld w 15 11) .axch
  | 0x2D => decodeAtomic w (fld w 15 13) (.amax (maxKindOf (fld w 12 11)))
  | 0x2E => decodeAtomic w (fld w 15 11) .afadd
  | 0x2F => checked (fld w 15 11 + fld w 6 0) (fld w 10 9 < 3)
      (withDest d fun d => .scld (xspaceOf (fld w 10 9)) (widthOf (fld w 8 7)) d a)
  | 0x30 => checked (fld w 15 11 + fld w 6 0) (fld w 10 9 < 3)
      (.ok (.scst (xspaceOf (fld w 10 9)) (widthOf (fld w 8 7)) x a))
  | 0x31 => checked (fld w 25 19) (fld w 18 16 < 5) (.ok (.cfence (scopeOf (fld w 18 16)) imm))
  | 0x32 => checked (fld w 25 16 + fld w 9 0 + fld w 10 10) true
      (.ok (.qfence (BitVec.ofNat 6 (fld w 15 10))))
  | 0x33 => checked (fld w 25 2) (fld w 1 0 < 3)
      (.ok (.drain (match fld w 1 0 with | 0 => .u | 1 => .k | _ => .d)))
  | 0x34 => checked (d + fld w 10 0) true (.ok (.cwait a b))
  | 0x35 => checked (d + fld w 10 0) true (.ok (.ctrinit a b))
  | 0x36 => checked (fld w 25 23) (fld w 18 16 == 1 || fld w 18 16 == 2)
      (.ok (.arrive (fld w 18 16 = 2) (Fin.ofNat 16 (fld w 22 19)) imm))
  | 0x37 => checked (fld w 25 23) (fld w 18 16 == 1 || fld w 18 16 == 2)
      (.ok (.await (fld w 18 16 = 2) (Fin.ofNat 16 (fld w 22 19)) imm))
  | 0x38 => checked (fld w 25 23 + fld w 10 0) (fld w 22 21 != 0)
      (.ok (.qpush (BitVec.ofNat 2 (fld w 22 21)) a b))
  | 0x39 => .ok (.sta a b (BitVec.ofNat 16 (d * 2048 + fld w 10 0)))
  | 0x3A => checked (d + fld w 5 0) true
      (.ok (.ctset (Fin.ofNat 64 (fld w 15 10)) (Fin.ofNat 16 (fld w 9 6)) a))
  | 0x3B => checked (fld w 15 3) (1 ≤ fld w 2 0 && fld w 2 0 ≤ 4)
      (withDest d fun d => .xpred d a (BitVec.ofNat 3 w))
  | 0x3C => checked (d + fld w 10 0) true (.ok (.xput a b))
  | 0x3D => checked (fld w 15 0) true (withDest d fun d => .xget d a)
  | _ => .error 0x10

/-- Lane B's shared fields (R64). -/
def laneBOf (b : Nat) : LaneB :=
  { pop := BitVec.ofNat 6 (fld b 31 26), push := BitVec.ofNat 6 (fld b 25 20),
    guard := if fld b 16 16 = 1 then some (Fin.ofNat 4 (fld b 19 18), fld b 17 17 = 1) else none }

/-- The checks of an engine lane pair after its opcode: reserved bits (the guard fields among them when
guard enable is clear), coded fields, then an engine naming itself (R64, R69). -/
def engChecked (e : Eng) (b zeros : Nat) (coded : Bool) (k : LaneB → Instr) : Except Nat Instr :=
  if zeros + (if fld b 16 16 = 0 then fld b 19 17 else 0) ≠ 0 then .error 0x12
  else if !coded then .error 0x13
  else if fld b (26 + e.num) (26 + e.num) + fld b (20 + e.num) (20 + e.num) ≠ 0 then .error 0x15
  else .ok (k (laneBOf b))

def fmtOf (x : Nat) : Fmt :=
  match x with
  | 0 => .f64 | 1 => .f32 | 2 => .bf16 | 3 => .f16 | 4 => .e4m3 | 5 => .e5m2 | 6 => .e4m3e5m2
  | 7 => .e2m1 | 8 => .q8 | 9 => .q8q4 | _ => .q4
def qgroupOf (x : Nat) : QGroup := match x with | 1 => .g32 | 2 => .g64 | _ => .g128
def nestFieldOf (x : Nat) : NestField :=
  match x with | 0 => .count | 1 => .astep | 2 => .bstep | 3 => .cstep | 4 => .sstep | _ => .flags
def monFieldOf (x : Nat) : MonField :=
  match x with
  | 0 => .satmax | 1 => .unfmax | 2 => .canmax | 3 => .nanmax | 4 => .bsomax | 5 => .topmax
  | _ => .cexp
def csrFmtOf (x : Nat) : CsrFmt := match x with | 2 => .bf16 | 3 => .f16 | 4 => .e4m3 | _ => .e5m2
def vtyOf (x : Nat) : VTy :=
  match x with | 0 => .f32 | 1 => .bf16 | 2 => .f16 | 3 => .i32 | 4 => .i16 | _ => .i8
def rndOf (x : Nat) : Rnd := match x with | 0 => .rne | 1 => .rz | 2 => .rd | _ => .ru
def vcondOf (x : Nat) : VCond :=
  match x with
  | 0 => .eq | 1 => .ne | 2 => .lt | 3 => .le | 4 => .gt | 5 => .ge | 6 => .un | _ => .ltu
def redOpOf (x : Nat) : RedOp := match x with | 0 => .sum | 1 => .min | _ => .max
def slotOf (x : Nat) : Fin 64 := Fin.ofNat 64 x
def vregOf (x : Nat) : Fin 256 := Fin.ofNat 256 x
def paramOf (x : Nat) : Fin 16 := Fin.ofNat 16 x

/-- A matrix-engine pair (R66-R68, R166-R206). -/
def decodeME (a b : Nat) : Except Nat Instr :=
  let f1 := slotOf (fld a 23 18); let f2 := slotOf (fld a 17 12); let f3 := slotOf (fld a 11 6)
  let p := paramOf (fld a 3 0); let lo := fld b 15 0; let op := fld a 31 24; let ix := fld a 27 24
  let chk := engChecked .me b
  match op with
  | 0x01 => chk (fld a 17 6 + lo) true (.mclaim f1 (slotOf (fld a 5 0)))
  | 0x02 => chk (fld a 17 6 + lo) true (.mrel f1 (slotOf (fld a 5 0)))
  | 0x03 => chk (fld a 17 4 + lo) true (.mfill f1 p)
  | 0x04 =>
      let f := nestFieldOf (fld a 20 18)
      chk (lo + fld a 17 16 + (if fld a 20 18 = 5 then fld a 15 2 else 0))
        (fld a 23 21 < 6 && fld a 20 18 < 6 && nestValueOk f (BitVec.ofNat 16 a))
        (.mnest (Fin.ofNat 6 (fld a 23 21)) f (BitVec.ofNat 16 a))
  | 0x05 => chk 0 (fld a 5 4 != 0)
      (.msca f1 f2 f3 (qgroupOf (fld a 5 4)) p (BitVec.ofNat 16 b))
  | 0x06 => chk (fld a 17 6 + lo) true (.mzero f1 (slotOf (fld a 5 0)))
  | 0x07 => chk (fld a 17 4 + lo) true (.mwb f1 p)
  | 0x32 => chk (fld a 5 0 + lo) true (.mmaLad .bf16 f1 f2 f3)
  | 0x34 => chk (fld a 5 0 + lo) true (.mmaLad .e4m3 f1 f2 f3)
  | 0x37 => chk (fld a 5 0 + lo) true (.mmaLad .e2m1 f1 f2 f3)
  | 0x40 => chk (fld a 12 4) true
      (.mladr f1 (Fin.ofNat 16 (fld a 17 14)) (fld a 13 13 = 1) p (BitVec.ofNat 16 b))
  | 0x41 => chk (fld a 19 16 + lo) (fld a 23 20 < 7 && (fld a 23 20 != 6 || fld a 15 0 ≤ 63))
      (.mmon (monFieldOf (fld a 23 20)) (BitVec.ofNat 16 a))
  | 0x42 =>
      if fld a 5 4 = 0 then chk (fld a 23 6 + fld a 3 0 + lo) true (.mspec none)
      else chk lo (fld a 5 4 != 3)
        (.mspec (some { xbase := BitVec.ofNat 12 (fld a 23 12), ebase := f3,
                        conf := fld a 5 4 = 2, p := p }))
  | 0x43 => chk (fld a 5 5 + lo) true (.mresolve f1 f2 f3 (fld a 4 4 = 1) p)
  | _ =>
    if fld a 31 28 = 1 && ix < 8 then chk (fld a 5 0 + lo) true (.mma (fmtOf ix) f1 f2 f3 none)
    else if fld a 31 28 = 1 && ix < 11 then
      chk (fld a 5 0 + fld b 15 10 + fld b 7 0) (fld b 9 8 != 0)
        (.mma (fmtOf ix) f1 f2 f3 (some (qgroupOf (fld b 9 8))))
    else if fld a 31 28 = 2 && ix < 8 then
      chk (fld a 5 0 + lo) true (.mgo (fmtOf ix) f1 f2 f3 none)
    else if fld a 31 28 = 2 && ix < 11 then
      chk (fld a 5 0 + fld b 3 0) (fld b 9 8 != 0)
        (.mgo (fmtOf ix) f1 f2 f3
          (some { part := slotOf (fld b 15 10), g := qgroupOf (fld b 9 8),
                  p := paramOf (fld b 7 4) }))
    else .error 0x11

/-- A vector-engine pair (R65, R364-R385). A reserved type with a nonzero rounding field is reported as a reserved
type, reason 0x13 (DEDUCED, log entry 57). -/
def decodeVE (a b : Nat) : Except Nat Instr :=
  let tc := fld b 15 12; let ty := vtyOf tc; let mask := Fin.ofNat 8 (fld b 11 9)
  let rc := fld b 8 7; let rnd := rndOf rc; let imm := fld b 6 0
  let vd := vregOf (fld a 23 16); let va := vregOf (fld a 15 8); let vb := vregOf (fld a 7 0)
  let v3 : V3 := { ty, rnd, mask, vd, va, vb }
  let v2 : V2 := { ty, mask, vd, va }
  let v4 : V4 := { ty, rnd, mask, vd := Fin.ofNat 128 (fld a 22 16), va, vb,
                   vc := vregOf (fld a 23 23 * 128 + imm) }
  let vm : VMem := { ty, mask, v := vd, cls := paramOf (fld a 7 4), p := paramOf (fld a 3 0) }
  let chk := engChecked .ve b
  -- the rounding field is zero where the type or the instruction does not round
  let rz (rounds : Bool) : Nat := if rounds then 0 else rc
  let fl := tc < 3
  let arith (k : V3 → LaneB → Instr) : Except Nat Instr :=
    chk (imm + rz (fl || 6 ≤ tc)) (tc < 6) (k v3)
  let plain (k : V3 → LaneB → Instr) : Except Nat Instr := chk (imm + rc) (tc < 6) (k v3)
  let fn (k : V2 → LaneB → Instr) : Except Nat Instr := chk (fld a 7 0 + imm + rc) (tc < 3) (k v2)
  let mem (k : VMem → LaneB → Instr) : Except Nat Instr :=
    chk (fld a 15 8 + fld b 8 0) (tc < 6) (k vm)
  match fld a 31 24 with
  | 0x01 => arith .vadd | 0x02 => arith .vsub | 0x03 => arith .vmul
  | 0x04 => chk (rz (fl || 6 ≤ tc)) (tc < 6) (.vfma v4)
  | 0x05 => plain .vmin | 0x06 => plain .vmax
  | 0x07 => chk (fld a 7 0 + imm + rc) (tc < 6) (.vabs v2)
  | 0x08 => chk (fld a 7 0 + imm + rc) (tc < 6) (.vneg v2)
  | 0x09 => fn .vrcp | 0x0A => fn .vrsq | 0x0B => fn .vexp2 | 0x0C => fn .vlog2
  | 0x0D => chk (fld a 7 0 + fld b 6 4 +
        rz (6 ≤ tc || 6 ≤ fld b 3 0 || vcvtRounds (vtyOf (fld b 3 0)) ty))
      (tc < 6 && fld b 3 0 < 6) (.vcvt (vtyOf (fld b 3 0)) rnd v2)
  | 0x0E => chk rc
      (tc < 6 && fld a 23 16 < 7 && imm < 8 && (imm != 6 || fl) && (imm != 7 || !fl))
      (.vcmp (vcondOf imm) ty mask (Fin.ofNat 7 (fld a 23 16)) va vb)
  | 0x0F => chk rc (tc < 6) (.vsel v4)
  | 0x10 => plain .vand | 0x11 => plain .vor | 0x12 => plain .vxor
  | 0x13 => chk (imm + rc) (3 ≤ tc && tc < 6) (.vshl v3)
  | 0x14 => chk (fld b 5 0 + rc) (3 ≤ tc && tc < 6) (.vshr (fld b 6 6 = 1) v3)
  | 0x15 => chk (fld a 7 0 + rz ((fl && imm = 0) || 6 ≤ tc)) (tc < 6 && imm < 3)
      (.vred (redOpOf imm) rnd v2)
  | 0x16 => plain .vperm
  | 0x17 => chk (fld a 7 0 + fld b 6 6 + rc) (tc < 6) (.vbcast (slotOf (fld b 5 0)) v2)
  | 0x18 => chk (fld a 15 0 + imm + rc) (tc < 6) (.viota ty mask vd)
  | 0x19 => chk (imm + rc + (if tc = 5 then fld a 15 8 else 0)) (tc < 6)
      (.vmovi ty mask vd (BitVec.ofNat 16 a))
  | 0x20 => mem .vldu | 0x21 => mem .vstu | 0x22 => mem .vldk | 0x23 => mem .vstk
  | 0x24 => mem .vldd | 0x25 => mem .vstd | 0x27 => mem .vstn
  | 0x26 => chk (fld b 8 0) (tc < 6) (.vldg va vm)
  | 0x30 => chk (fld a 23 6 + fld b 15 0) (fld a 5 0 ≤ 32) (.vgrow (BitVec.ofNat 6 a))
  | 0x31 => chk (fld a 23 6 + fld b 15 0) (fld a 5 0 ≤ 32) (.vshrink (BitVec.ofNat 6 a))
  | 0x32 => chk (fld a 3 0 + fld b 8 0) (tc == 0 || tc == 3)
      (.vrdacc (tc = 3) mask vd (slotOf (fld a 15 10)) (slotOf (fld a 9 4)))
  | _ => .error 0x11

/-- A copy-engine pair (R182, R300-R309). -/
def decodeCE (a b : Nat) : Except Nat Instr :=
  let lo := fld b 15 0
  let p2 := paramOf (fld a 11 8); let p1 := paramOf (fld a 7 4); let p0 := paramOf (fld a 3 0)
  let chk := engChecked .ce b
  match fld a 31 24 with
  | 0x01 => chk (fld a 15 4 + lo) true
      (.ccopy (slotOf (fld a 23 18)) (fld a 17 17 = 1) (fld a 16 16 = 1) p0)
  | 0x02 => chk (fld a 21 12 + lo) true (.cfill (cspaceOf (fld a 23 22)) p2 p1 p0)
  | 0x03 => chk (fld a 23 8 + lo) true (.cpost p1 p0)
  | 0x04 => chk (fld a 17 0 + lo) true (.cqnt (slotOf (fld a 23 18)))
  | 0x05 => chk (fld a 19 12 + lo) (fld a 23 22 != 2 && fld a 21 20 != 2)
      (.cmov (cspaceOf (fld a 23 22)) (cspaceOf (fld a 21 20)) p2 p1 p0)
  | _ => .error 0x11

/-- A gather-engine pair (R172, R194, R196). -/
def decodeGE (a b : Nat) : Except Nat Instr :=
  let lo := fld b 15 0
  let p2 := paramOf (fld a 11 8); let p1 := paramOf (fld a 7 4); let p0 := paramOf (fld a 3 0)
  let n := Fin.ofNat 4096 (fld a 23 12)
  let chk := engChecked .ge b
  match fld a 31 24 with
  | 0x01 => chk (fld a 7 4 + lo) (2 ≤ fld a 11 8 && fld a 11 8 ≤ 5)
      (.gcsr (slotOf (fld a 23 18)) (slotOf (fld a 17 12)) (csrFmtOf (fld a 11 8)) p0)
  | 0x02 => chk (fld a 17 8 + lo) true (.gmap (slotOf (fld a 23 18)) p1 p0)
  | 0x03 => chk 0 (lo != 0 && lo % 4 == 0) (.grows n p2 p1 p0 (BitVec.ofNat 16 b))
  | 0x04 => chk 0 (lo != 0 && lo % 4 == 0) (.gscat n p2 p1 p0 (BitVec.ofNat 16 b))
  | _ => .error 0x11

/-- A link-engine pair (R268). The rule on EXPECT and the line's mode is applied at routing. -/
def decodeLE (a b : Nat) : Except Nat Instr :=
  let pk := paramOf (fld a 15 12); let s := paramOf (fld a 11 8); let d := paramOf (fld a 7 4)
  let c := paramOf (fld a 3 0); let len := Fin.ofNat 4096 (fld b 11 0)
  let chk := engChecked .le b
  match fld a 31 24 with
  | 0x01 => chk (fld a 23 23 + fld a 21 16 + fld b 15 12 +
        (if fld a 22 22 = 0 then fld a 3 0 else 0)) true
      (.lsend d s pk (if fld a 22 22 = 1 then some c else none) len)
  | 0x02 => chk (fld a 22 16) true
      (.lred (fld a 23 23 = 1) d s pk c (paramOf (fld b 15 12)) len)
  | 0x03 => chk (fld a 23 4 + fld b 15 0) true (.lbar c)
  | _ => .error 0x11

/-- An engine lane pair, by the engine that the header's nibble names (R54). -/
def decodeEngine (e : Eng) (a b : Nat) : Except Nat Instr :=
  match e with
  | .cc => .error 0x11
  | .me => decodeME a b
  | .ve => decodeVE a b
  | .ce => decodeCE a b
  | .ge => decodeGE a b
  | .le => decodeLE a b

/-- An engine lane pair in a line (R69, R268): an LRED whose EXPECT does not go with the line's mode has reason 0x13,
which goes before 0x15. `det`: the line is exposed and deterministic. -/
def decodeInLine (det : Bool) (e : Eng) (a b : Nat) : Except Nat Instr :=
  let mismatch := e == .le && fld a 31 24 == 2 && (fld b 15 12 == 0) == det
  match decodeEngine e a b with
  | .error r => .error (if mismatch && r == 0x15 then 0x13 else r)
  | .ok i => if mismatch then .error 0x13 else .ok i

/-- The words of an instruction: one lane of the control core, or an engine's lane pair. -/
inductive Words | cc (w : Nat) | pair (e : Eng) (a b : Nat)
  deriving DecidableEq, Repr

/-- Decoding of either kind of words. -/
def decodeWords : Words → Except Nat Instr
  | .cc w => decodeCC w
  | .pair e a b => decodeEngine e a b

/-- The host's question (fixed name): the instruction of a word whose bits are `w`. A row of at most
32 bits is a control-core lane. A lane pair needs the engine that its line's header names (R54), which
the bits of the pair do not hold, so a longer word is answered none. -/
def decodeTableWord (nbits w : Nat) : Option Instr :=
  if nbits ≤ 32 then (decodeCC (w % 2 ^ 32)).toOption else none

-- The encoder, from the same tables.

def Opnd.code : Opnd → Nat
  | .q i => i.val | .n i => 16 + i.val
def Dest.code : Dest → Nat
  | .n i => i.val | .push => 31
def Width.code : Width → Nat
  | .byte => 0 | .half => 1 | .word => 2 | .dbl => 3
def Cond.code : Cond → Nat
  | .eq => 0 | .ne => 1 | .lt => 2 | .ltu => 3 | .ge => 4 | .geu => 5
def XSpace.code : XSpace → Nat
  | .k => 0 | .d => 1 | .g => 2
def Scope.code : Scope → Nat
  | .core => 0 | .cluster => 1 | .die => 2 | .pkg => 3 | .sys => 4
def MaxKind.code : MaxKind → Nat
  | .smax => 0 | .umax => 1 | .smin => 2 | .umin => 3
def CSpace.code : CSpace → Nat
  | .k => 0 | .d => 1 | .g => 2 | .u => 3
def Divisor.code : Divisor → Nat
  | .d3 => 3 | .d4 => 4 | .d5 => 5 | .d6 => 6 | .d8 => 8
def VTy.code : VTy → Nat
  | .f32 => 0 | .bf16 => 1 | .f16 => 2 | .i32 => 3 | .i16 => 4 | .i8 => 5
def Rnd.code : Rnd → Nat
  | .rne => 0 | .rz => 1 | .rd => 2 | .ru => 3
def Fmt.code : Fmt → Nat
  | .f64 => 0 | .f32 => 1 | .bf16 => 2 | .f16 => 3 | .e4m3 => 4 | .e5m2 => 5 | .e4m3e5m2 => 6
  | .e2m1 => 7 | .q8 => 8 | .q8q4 => 9 | .q4 => 10
def LadFmt.code : LadFmt → Nat
  | .bf16 => 2 | .e4m3 => 4 | .e2m1 => 7
def CsrFmt.code : CsrFmt → Nat
  | .bf16 => 2 | .f16 => 3 | .e4m3 => 4 | .e5m2 => 5
def QGroup.code : QGroup → Nat
  | .g32 => 1 | .g64 => 2 | .g128 => 3
def NestField.code : NestField → Nat
  | .count => 0 | .astep => 1 | .bstep => 2 | .cstep => 3 | .sstep => 4 | .flags => 5
def MonField.code : MonField → Nat
  | .satmax => 0 | .unfmax => 1 | .canmax => 2 | .nanmax => 3 | .bsomax => 4 | .topmax => 5
  | .cexp => 6
def VCond.code : VCond → Nat
  | .eq => 0 | .ne => 1 | .lt => 2 | .le => 3 | .gt => 4 | .ge => 5 | .un => 6 | .ltu => 7
def RedOp.code : RedOp → Nat
  | .sum => 0 | .min => 1 | .max => 2

/-- Bits 31:16 of lane B (R64). -/
def LaneB.code (b : LaneB) : Nat :=
  b.pop.toNat * 2 ^ 26 + b.push.toNat * 2 ^ 20 +
    match b.guard with
    | none => 0
    | some (k, inv) => k.val * 2 ^ 18 + inv.toNat * 2 ^ 17 + 2 ^ 16

/-- A CC word with an op, a destination or first field, opA and the low half. -/
def ccWord (op f1 f2 low : Nat) : Words := .cc (op * 2 ^ 26 + f1 * 2 ^ 21 + f2 * 2 ^ 16 + low)
/-- An R-group word (R60). -/
def rWord (func d a b low : Nat) : Words :=
  .cc (1 * 2 ^ 26 + d * 2 ^ 21 + a * 2 ^ 16 + b * 2 ^ 11 + func * 2 ^ 4 + low)
/-- An M-format word (R60). -/
def mWord (op f1 : Nat) (base : Opnd) (w : Width) (off : BitVec 10) (cls : Fin 16) : Words :=
  ccWord op f1 base.code (w.code * 2 ^ 14 + off.toNat * 2 ^ 4 + cls.val)
/-- An X-format word (R60). -/
def xWord (op : Nat) (sp : XSpace) (width scope : Nat) (f1 : Nat) (base : Opnd) (cmp cls : Nat) :
    Words :=
  ccWord op f1 base.code (cmp * 2 ^ 11 + sp.code * 2 ^ 9 + width * 2 ^ 7 + scope * 2 ^ 4 + cls)
def atomWidth (dbl : Bool) : Nat := if dbl then 3 else 2
/-- An engine pair: opcode, operand bits, shared lane B fields and extension bits (R64). -/
def pairOf (e : Eng) (op lowA : Nat) (b : LaneB) (lowB : Nat) : Words :=
  .pair e (op * 2 ^ 24 + lowA) (b.code + lowB)
def meWord (op f1 f2 f3 low : Nat) (b : LaneB) (lowB : Nat) : Words :=
  pairOf .me op (f1 * 2 ^ 18 + f2 * 2 ^ 12 + f3 * 2 ^ 6 + low) b lowB
def v3Word (op : Nat) (v : V3) (b : LaneB) (imm : Nat) : Words :=
  pairOf .ve op (v.vd.val * 2 ^ 16 + v.va.val * 2 ^ 8 + v.vb.val) b
    (v.ty.code * 2 ^ 12 + v.mask.val * 2 ^ 9 + v.rnd.code * 2 ^ 7 + imm)
def v2Word (op : Nat) (rnd : Rnd) (v : V2) (b : LaneB) (imm : Nat) : Words :=
  pairOf .ve op (v.vd.val * 2 ^ 16 + v.va.val * 2 ^ 8) b
    (v.ty.code * 2 ^ 12 + v.mask.val * 2 ^ 9 + rnd.code * 2 ^ 7 + imm)
def v4Word (op : Nat) (v : V4) (b : LaneB) : Words :=
  pairOf .ve op (v.vc.val / 128 * 2 ^ 23 + v.vd.val * 2 ^ 16 + v.va.val * 2 ^ 8 + v.vb.val) b
    (v.ty.code * 2 ^ 12 + v.mask.val * 2 ^ 9 + v.rnd.code * 2 ^ 7 + v.vc.val % 128)
def vmWord (op vx : Nat) (v : VMem) (b : LaneB) : Words :=
  pairOf .ve op (v.v.val * 2 ^ 16 + vx * 2 ^ 8 + v.cls.val * 2 ^ 4 + v.p.val) b
    (v.ty.code * 2 ^ 12 + v.mask.val * 2 ^ 9)
def p3 (x y z : Fin 16) : Nat := x.val * 2 ^ 8 + y.val * 2 ^ 4 + z.val

/-- The words of an instruction; none for the events, which have no encoding. -/
def encode : Instr → Option Words
  | .add d a b => some (rWord 0x00 d.code a.code b.code 0)
  | .sub d a b => some (rWord 0x01 d.code a.code b.code 0)
  | .mul d a b => some (rWord 0x02 d.code a.code b.code 0)
  | .mulh d a b => some (rWord 0x03 d.code a.code b.code 0)
  | .div d a b => some (rWord 0x04 d.code a.code b.code 0)
  | .rem d a b => some (rWord 0x05 d.code a.code b.code 0)
  | .and d a b => some (rWord 0x08 d.code a.code b.code 0)
  | .or d a b => some (rWord 0x09 d.code a.code b.code 0)
  | .xor d a b => some (rWord 0x0A d.code a.code b.code 0)
  | .shl d a b => some (rWord 0x0C d.code a.code b.code 0)
  | .shr d a b => some (rWord 0x0D d.code a.code b.code 0)
  | .sra d a b => some (rWord 0x0E d.code a.code b.code 0)
  | .clz d a => some (rWord 0x10 d.code a.code 0 0)
  | .popc d a => some (rWord 0x11 d.code a.code 0 0)
  | .mov d a => some (rWord 0x12 d.code a.code 0 0)
  | .sel d a b k inv => some (rWord 0x14 d.code a.code b.code (k.val * 4 + inv.toNat * 2))
  | .cmp c d a b => some (rWord (0x18 + c.code) d.code a.code b.code 0)
  | .addi d a imm => some (ccWord 0x02 d.code a.code imm.toNat)
  | .andi d a imm => some (ccWord 0x03 d.code a.code imm.toNat)
  | .ori d a imm => some (ccWord 0x04 d.code a.code imm.toNat)
  | .xori d a imm => some (ccWord 0x05 d.code a.code imm.toNat)
  | .cmpi c d a imm => some (ccWord 0x06 d.code a.code (c.code * 2 ^ 13 + imm.toNat))
  | .shlImm d a amt => some (ccWord 0x07 d.code a.code amt.toNat)
  | .shrImm d a amt => some (ccWord 0x07 d.code a.code (2 ^ 14 + amt.toNat))
  | .sraImm d a amt => some (ccWord 0x07 d.code a.code (2 * 2 ^ 14 + amt.toNat))
  | .movi d imm => some (ccWord 0x08 d.code 0 imm.toNat)
  | .movhi d imm pos => some (ccWord 0x09 d.val pos.toNat imm.toNat)
  | .wid d f => some (ccWord 0x0A d.code 0 f.toNat)
  | .srd d reg => some (ccWord 0x0B d.code 0 reg.toNat)
  | .swr a reg => some (ccWord 0x0C 0 a.code reg.toNat)
  | .tkpushWrite a => some (ccWord 0x0C 0 a.code 0x50)
  | .tkpopWrite a => some (ccWord 0x0C 0 a.code 0x51)
  | .time d => some (ccWord 0x0D d.code 0 0)
  | .sprint d m us => some (ccWord 0x0E d.code m.code (us.code * 2 ^ 11))
  | .sprel a => some (ccWord 0x0F 0 a.code 0)
  | .br c disp => some (.cc (0x10 * 2 ^ 26 + c.code * 2 ^ 21 + disp.toNat))
  | .jmp disp => some (.cc (0x11 * 2 ^ 26 + disp.toNat))
  | .call disp => some (.cc (0x12 * 2 ^ 26 + disp.toNat))
  | .ret => some (.cc (0x13 * 2 ^ 26))
  | .loop c len => some (.cc (0x14 * 2 ^ 26 + c.code * 2 ^ 21 + len.toNat))
  | .guard k a => some (ccWord 0x15 k.val a.code 0)
  | .fork m => some (ccWord 0x16 0 0 (m.toNat * 2 ^ 10))
  | .join m => some (ccWord 0x17 0 0 (m.toNat * 2 ^ 10))
  | .trap code => some (ccWord 0x18 0 0 code.toNat)
  | .eret => some (.cc (0x19 * 2 ^ 26))
  | .brk num => some (ccWord 0x1A 0 0 num.toNat)
  | .clkdiv e v => some (.cc (0x1B * 2 ^ 26 + e.num * 2 ^ 23 + v.code))
  | .pset e p a => some (.cc (0x1C * 2 ^ 26 + e.num * 2 ^ 23 + a.code * 2 ^ 16 + p.val * 2 ^ 12))
  | .btset d e v w => some (ccWord 0x1D d.code e.code (v.code * 2 ^ 11 + w.toNat * 2 ^ 9))
  | .btswap d e1 e2 => some (ccWord 0x1E d.code e1.code (e2.code * 2 ^ 11))
  | .dead d a l => some (ccWord 0x1F d.code a.code (l.code * 2 ^ 11))
  | .ldu w d base off cls => some (mWord 0x20 d.code base w off cls)
  | .stu w x base off cls => some (mWord 0x21 x.code base w off cls)
  | .ldk w d base off cls => some (mWord 0x22 d.code base w off cls)
  | .stk w x base off cls => some (mWord 0x23 x.code base w off cls)
  | .ldn w d base off cls => some (mWord 0x24 d.code base w off cls)
  | .stn w x base off cls => some (mWord 0x25 x.code base w off cls)
  | .ldd w d base off cls => some (mWord 0x26 d.code base w off cls)
  | .std w x base off cls => some (mWord 0x27 x.code base w off cls)
  | .ldg w d base off cls => some (mWord 0x28 d.code base w off cls)
  | .stg w x base off cls => some (mWord 0x29 x.code base w off cls)
  | .aadd sp dbl sc x base cls => some (xWord 0x2A sp (atomWidth dbl) sc.code x.code base 0 cls.val)
  | .acas sp dbl sc x base cmp cls =>
      some (xWord 0x2B sp (atomWidth dbl) sc.code x.code base cmp.code cls.val)
  | .axch sp dbl sc x base cls => some (xWord 0x2C sp (atomWidth dbl) sc.code x.code base 0 cls.val)
  | .amax k sp dbl sc x base cls =>
      some (xWord 0x2D sp (atomWidth dbl) sc.code x.code base k.code cls.val)
  | .afadd sp dbl sc x base cls =>
      some (xWord 0x2E sp (atomWidth dbl) sc.code x.code base 0 cls.val)
  | .scld sp w d base => some (xWord 0x2F sp w.code 0 d.code base 0 0)
  | .scst sp w x base => some (xWord 0x30 sp w.code 0 x.code base 0 0)
  | .cfence sc m => some (ccWord 0x31 0 sc.code m.toNat)
  | .qfence m => some (ccWord 0x32 0 0 (m.toNat * 2 ^ 10))
  | .drain sp => some (ccWord 0x33 0 0 (match sp with | .u => 0 | .k => 1 | .d => 2 | .g => 3))
  | .cwait a t => some (ccWord 0x34 0 a.code (t.code * 2 ^ 11))
  | .ctrinit a v => some (ccWord 0x35 0 a.code (v.code * 2 ^ 11))
  | .arrive die b m =>
      some (.cc (0x36 * 2 ^ 26 + b.val * 2 ^ 19 + (1 + die.toNat) * 2 ^ 16 + m.toNat))
  | .await die b m =>
      some (.cc (0x37 * 2 ^ 26 + b.val * 2 ^ 19 + (1 + die.toNat) * 2 ^ 16 + m.toNat))
  | .qpush q c a => some (ccWord 0x38 q.toNat c.code (a.code * 2 ^ 11))
  | .sta a x m =>
      some (ccWord 0x39 (m.toNat / 2048) a.code (x.code * 2 ^ 11 + m.toNat % 2048))
  | .ctset t w a => some (ccWord 0x3A 0 a.code (t.val * 2 ^ 10 + w.val * 2 ^ 6))
  | .xpred d s k => some (ccWord 0x3B d.code s.code k.toNat)
  | .xput s v => some (ccWord 0x3C 0 s.code (v.code * 2 ^ 11))
  | .xget d s => some (ccWord 0x3D d.code s.code 0)
  | .mclaim s n b => some (meWord 0x01 s.val 0 0 n.val b 0)
  | .mrel s n b => some (meWord 0x02 s.val 0 0 n.val b 0)
  | .mfill s p b => some (meWord 0x03 s.val 0 0 p.val b 0)
  | .mnest l f v b => some (pairOf .me 0x04 (l.val * 2 ^ 21 + f.code * 2 ^ 18 + v.toNat) b 0)
  | .msca d pt n g p k b =>
      some (meWord 0x05 d.val pt.val n.val (g.code * 2 ^ 4 + p.val) b k.toNat)
  | .mzero e n b => some (meWord 0x06 e.val 0 0 n.val b 0)
  | .mwb e p b => some (meWord 0x07 e.val 0 0 p.val b 0)
  | .mma f e sa sb g b =>
      some (meWord (0x10 + f.code) e.val sa.val sb.val 0 b
        (match g with | none => 0 | some g => g.code * 2 ^ 8))
  | .mgo f c sa sb q b =>
      some (meWord (0x20 + f.code) c.val sa.val sb.val 0 b
        (match q with
         | none => 0
         | some q => q.part.val * 2 ^ 10 + q.g.code * 2 ^ 8 + q.p.val * 2 ^ 4))
  | .mmaLad f e sa sb b => some (meWord (0x30 + f.code) e.val sa.val sb.val 0 b 0)
  | .mladr s lad role p k b =>
      some (pairOf .me 0x40 (s.val * 2 ^ 18 + lad.val * 2 ^ 14 + role.toNat * 2 ^ 13 + p.val) b
        k.toNat)
  | .mmon f v b => some (pairOf .me 0x41 (f.code * 2 ^ 20 + v.toNat) b 0)
  | .mspec none b => some (pairOf .me 0x42 0 b 0)
  | .mspec (some t) b =>
      some (pairOf .me 0x42
        (t.xbase.toNat * 2 ^ 12 + t.ebase.val * 2 ^ 6 + (1 + t.conf.toNat) * 2 ^ 4 + t.p.val) b 0)
  | .mresolve f n o rc p b =>
      some (meWord 0x43 f.val n.val o.val (rc.toNat * 2 ^ 4 + p.val) b 0)
  | .vadd v b => some (v3Word 0x01 v b 0)
  | .vsub v b => some (v3Word 0x02 v b 0)
  | .vmul v b => some (v3Word 0x03 v b 0)
  | .vfma v b => some (v4Word 0x04 v b)
  | .vmin v b => some (v3Word 0x05 v b 0)
  | .vmax v b => some (v3Word 0x06 v b 0)
  | .vabs v b => some (v2Word 0x07 .rne v b 0)
  | .vneg v b => some (v2Word 0x08 .rne v b 0)
  | .vrcp v b => some (v2Word 0x09 .rne v b 0)
  | .vrsq v b => some (v2Word 0x0A .rne v b 0)
  | .vexp2 v b => some (v2Word 0x0B .rne v b 0)
  | .vlog2 v b => some (v2Word 0x0C .rne v b 0)
  | .vcvt dst r v b => some (v2Word 0x0D r v b dst.code)
  | .vcmp c ty m md va vb b =>
      some (pairOf .ve 0x0E (md.val * 2 ^ 16 + va.val * 2 ^ 8 + vb.val) b
        (ty.code * 2 ^ 12 + m.val * 2 ^ 9 + c.code))
  | .vsel v b => some (v4Word 0x0F v b)
  | .vand v b => some (v3Word 0x10 v b 0)
  | .vor v b => some (v3Word 0x11 v b 0)
  | .vxor v b => some (v3Word 0x12 v b 0)
  | .vshl v b => some (v3Word 0x13 v b 0)
  | .vshr ar v b => some (v3Word 0x14 v b (ar.toNat * 2 ^ 6))
  | .vred op r v b => some (v2Word 0x15 r v b op.code)
  | .vperm v b => some (v3Word 0x16 v b 0)
  | .vbcast l v b => some (v2Word 0x17 .rne v b l.val)
  | .viota ty m vd b =>
      some (pairOf .ve 0x18 (vd.val * 2 ^ 16) b (ty.code * 2 ^ 12 + m.val * 2 ^ 9))
  | .vmovi ty m vd imm b =>
      some (pairOf .ve 0x19 (vd.val * 2 ^ 16 + imm.toNat) b (ty.code * 2 ^ 12 + m.val * 2 ^ 9))
  | .vldu v b => some (vmWord 0x20 0 v b)
  | .vstu v b => some (vmWord 0x21 0 v b)
  | .vldk v b => some (vmWord 0x22 0 v b)
  | .vstk v b => some (vmWord 0x23 0 v b)
  | .vldd v b => some (vmWord 0x24 0 v b)
  | .vstd v b => some (vmWord 0x25 0 v b)
  | .vldg vx v b => some (vmWord 0x26 vx.val v b)
  | .vstn v b => some (vmWord 0x27 0 v b)
  | .vgrow n b => some (pairOf .ve 0x30 n.toNat b 0)
  | .vshrink n b => some (pairOf .ve 0x31 n.toNat b 0)
  | .vrdacc int m vd e row b =>
      some (pairOf .ve 0x32 (vd.val * 2 ^ 16 + e.val * 2 ^ 10 + row.val * 2 ^ 4) b
        ((if int then 3 else 0) * 2 ^ 12 + m.val * 2 ^ 9))
  | .ccopy t sp po p b =>
      some (pairOf .ce 0x01 (t.val * 2 ^ 18 + sp.toNat * 2 ^ 17 + po.toNat * 2 ^ 16 + p.val) b 0)
  | .cfill sp l pt a b => some (pairOf .ce 0x02 (sp.code * 2 ^ 22 + p3 l pt a) b 0)
  | .cpost v c b => some (pairOf .ce 0x03 (v.val * 2 ^ 4 + c.val) b 0)
  | .cqnt s b => some (pairOf .ce 0x04 (s.val * 2 ^ 18) b 0)
  | .cmov src dst l s d b =>
      some (pairOf .ce 0x05 (src.code * 2 ^ 22 + dst.code * 2 ^ 20 + p3 l s d) b 0)
  | .gcsr s n f p b =>
      some (pairOf .ge 0x01 (s.val * 2 ^ 18 + n.val * 2 ^ 12 + f.code * 2 ^ 8 + p.val) b 0)
  | .gmap s i j b => some (pairOf .ge 0x02 (s.val * 2 ^ 18 + i.val * 2 ^ 4 + j.val) b 0)
  | .grows n d s x len b => some (pairOf .ge 0x03 (n.val * 2 ^ 12 + p3 d s x) b len.toNat)
  | .gscat n d s x len b => some (pairOf .ge 0x04 (n.val * 2 ^ 12 + p3 d s x) b len.toNat)
  | .lsend d s pk c len b =>
      some (pairOf .le 0x01
        ((if c.isSome then 1 else 0) * 2 ^ 22 + pk.val * 2 ^ 12 + p3 s d (c.getD 0)) b len.val)
  | .lred h d s pk c ex len b =>
      some (pairOf .le 0x02 (h.toNat * 2 ^ 23 + pk.val * 2 ^ 12 + p3 s d c) b
        (ex.val * 2 ^ 12 + len.val))
  | .lbar bar b => some (pairOf .le 0x03 bar.val b 0)
  | _ => none

end Sys2Proof
end

