-- ==== Sys2Proof/Config.lean ====
section
/-! DEFINITION. What a stepping fixes and what the manual leaves open: constants with no body, so that no
proof can see a value. Values that may differ from use to use are applied to a counter of the state. -/
namespace Sys2Proof.Config

/-- DEVID STEPMAJ and STEPMIN, "per stepping" (R23). Log entry 4. -/
opaque stepMaj : BitVec 4
opaque stepMin : BitVec 4
/-- TIME ticks and CC cycles that pass before a step (R393, R251). Log entry 6. -/
opaque elapsed : Nat → Nat
opaque cycles : Nat → Nat
/-- An access of an exposed region arrives after its slot (R85). Log entry 26. -/
opaque late : Nat → Bool
/-- The free lines the loader leaves before an image (R287 L14). Log entry 8. -/
opaque imageGap : Nat → Nat
/-- The choice between the values the rules allow a racing or overlapping copy (R136, R152), and
between old and new where two engines race. Log entry 10. -/
opaque copyChoice : Nat → Bool
/-- The value of one matrix sum in the order of the stepping (R105, R107): format, row, column, the
previous accumulator bits, the A row and the B column. Log entry 11. -/
opaque mmaSum : Nat → Nat → Nat → Nat → List Nat → List Nat → Nat
/-- The choice of VRCP (0), VRSQ (1), VEXP2 (2), VLOG2 (3) on an input, in ulps (R113, R373). Log
entry 12. -/
opaque vecFun : Nat → Nat → Int
/-- Bank conflicts since a counter was last looked at (R256). Log entry 20. -/
opaque bankWait : Nat → Nat
/-- The governor's restraint level and ballast, and the energy of a window, given the cap (R232, R233). Log entry 21. -/
opaque restraint : Nat → Nat → Nat
opaque ballast : Nat → Bool
opaque overCap : Nat → Nat → Nat
/-- The fraction of the store that a reading finds (R242). Log entry 22. -/
opaque melted : Nat → BitVec 16
/-- Which record slot a stage ring hands out or takes in (R45). Log entry 32. -/
opaque recordChoice : Nat → Nat

/-- The cycles left of a result that is in flight at a debug stop (R255). Log entry 27. -/
opaque dumpLeft : Nat → Nat

end Sys2Proof.Config
end

