-- ==== Sys2Proof/Machine/State.lean ====
section
/-! DEFINITION. The state of a package as plain data, and the state right after reset. Sparse storage is
a list of (key, value) pairs with rising keys; a byte or lane that is not listed reads zero. -/
namespace Sys2Proof.Machine

/-- Sparse storage by key, keys strictly rising. -/
abbrev SMap (V : Type) := List (Nat × V)

/-- Bytes by address; an unlisted address reads 0 and no entry is 0. -/
abbrev Memory := List Host.Cell

/-- The five spaces that order apart (R143). -/
inductive Space | u | n | k | d | g
  deriving DecidableEq, Repr

/-- Where bytes lie: a core's unit pad, a cluster pad, a die pad, or global memory. -/
inductive Loc | u (core : Nat) | k (cluster : Nat) | d (die : Nat) | g
  deriving DecidableEq, Repr

/-- The command-block image of a node with its context (R35). -/
structure Node where
  img : Vector Word 16
  ctx : Fin 64
  /-- which launch and which block of its walk; a node of QPUSH has launch 0 and its number among all pushes
  (R154) -/
  launch : Nat
  index : Nat
  /-- where the graph fetcher read it; 0 for a node of QPUSH -/
  addr : Word
  deriving DecidableEq, Repr

/-- What is known of the node at a queue's head (R31, R36, R38, R50). -/
structure Head where
  checked : Bool
  dep0 : Bool
  dep1 : Bool
  ready : Bool
  /-- node error 1-7, or 8 for an aborted invocation -/
  held : Option Nat
  since : Word
  readyAt : Word
  reported : Bool
  deriving DecidableEq, Repr

/-- One command queue (R35): its nodes oldest first, and the number of the head in the queue's order. -/
structure CmdQ where
  nodes : List Node
  seq : Nat
  head : Head
  deriving DecidableEq, Repr

/-- The graph fetcher of a core (R27): idle, reading blocks, past an END that stands in queue 0, or stopped
on a failed read. -/
inductive CpState | idle | running | ended | fetchError
  deriving DecidableEq, Repr

/-- The node a core is running (R34, R36, R41-R46). -/
structure Progress where
  q : Fin 4
  node : Node
  seq : Nat
  kernel : Nat
  j : Nat
  p : Nat
  next : Nat
  last : Nat
  carry : Vector Word 3
  stage : Nat
  /-- ring slots of the running invocation's input and output records -/
  inRec : Option Nat
  outRec : Option Nat
  /-- an invocation is running; the core waits for stage work otherwise -/
  running : Bool
  chosen : Bool
  deriving DecidableEq, Repr

/-- A node that has left its queue and has still to post or to retire (R37, R40). -/
structure Post where
  q : Fin 4
  seq : Nat
  node : Node
  det : Bool
  /-- LAUNCH nodes wait for the writes of their invocations -/
  writes : Bool
  since : Word
  reported : Bool
  /-- its post met a port error (R40) -/
  failed : Bool
  deriving DecidableEq, Repr

/-- What a core is doing. `doubleFault` and `debug` are the two stops (R214, R255). -/
inductive Run | idle | running | ending | doubleFault
  deriving DecidableEq, Repr

/-- An armed debug request (R254). -/
inductive DbgReq | cycle (line : Word) (n occ : Nat) | brk (mask : Word)
  deriving DecidableEq, Repr

/-- What a record of a debug dump names (R255). -/
inductive DumpTarget | queue (i : Nat) | named (i : Nat) | vreg (r : Nat) | entry (e : Nat) | slot (s : Nat) | tokens (i j : Nat)
  deriving DecidableEq, Repr

/-- A record of a debug dump (R255): the part of its value that has arrived, in bytes, and the cycles left. -/
structure DumpRec where
  target : DumpTarget
  value : List Byte
  left : Nat
  deriving DecidableEq, Repr

structure Work where
  cp : Word
  cpCtx : Fin 64
  cpState : CpState
  cpLaunch : Nat
  cpIndex : Nat
  /-- global memory as it was when the walk was launched: the old values of R28 -/
  cpOld : Memory
  queues : Vector CmdQ 4
  served : Fin 4
  cur : Option Progress
  posts : List Post
  run : Run
  preempt : Option (Fin 64 × Word)
  /-- the context of an executing pre-emption handler (R224) -/
  preempting : Option (Fin 64 × Word)
  dbg : Option DbgReq
  /-- a KIND 0 request: entries seen and the CYC at the entry in force -/
  dbgSeen : Nat
  dbgFrom : Option Word
  stopped : Bool
  dump : List DumpRec
  deriving DecidableEq, Repr

/-- One active hardware loop (R82): passes still to start after the one in progress. -/
structure LoopEnt where
  left : Word
  first : Word
  len : Nat
  deriving DecidableEq, Repr

/-- Registers of the control thread (R76-R79, R86, R91, R92). -/
structure Regs where
  n : Vector Word 16
  q : Vector Word 16
  k : Vector Bool 4
  sup : Bool
  sbtrap : Bool
  sbcnt : BitVec 32
  cyc : Word
  wid : Word
  deriving DecidableEq, Repr

/-- Where the control thread stands (R52-R58). -/
structure Fetch where
  line : Word
  /-- the next lane, 1 to 8; 8 is past the line's end -/
  lane : Nat
  /-- the header of the line has been checked -/
  opened : Bool
  /-- the next line is the first of an invocation or handler -/
  first : Bool
  /-- the line resumes after ERET: neither FIRST nor the drain applies -/
  resume : Bool
  /-- the line had been opened before the trap it resumes from: it is no new entry of its region -/
  entered : Bool
  /-- the line's mode: bit 0 EXP, bit 1 DET -/
  lmode : BitVec 2
  /-- the mode check found a change that drains (R56) -/
  draining : Bool
  loops : List LoopEnt
  /-- the line a LOOP of count 0 continues at after its own line -/
  skip : Option Word
  /-- the token moves of the lane in progress already made, by engine (R93) -/
  moved : BitVec 6
  /-- the lane in progress has already counted that it is late -/
  stalled : Bool
  /-- its wait for room, a token or an access has been counted (R85) -/
  waited : Bool
  /-- an SC access has issued since the region's entry, and the position it used (R146, R148) -/
  scDone : Bool
  scLast : Option Nat
  /-- a first SC access waits for its position: CYC does not count (R148) -/
  wheelWait : Bool
  deriving DecidableEq, Repr

/-- A trap to be taken: code and detail of R215, and the engine that raised it. -/
structure TrapReq where
  code : Nat
  info : Word
  eng : Eng
  deriving DecidableEq, Repr

/-- What the interrupted lane leaves to its resumption: its place, whether its line was open, the line a LOOP of
count 0 in it goes on at (R82), and the token moves it had made (R93). -/
structure MidLine where
  pc : Word
  opened : Bool
  skip : Option Word
  moved : BitVec 6
  deriving DecidableEq, Repr

/-- The trap registers (R216, R217, R394, R211). -/
structure TrapRegs where
  tvb : Word
  tcode : Word
  tinfo : Word
  tpc : Word
  inh : Bool
  abort : Bool
  eng : Eng
  frz : Bool
  psup : Bool
  tq : Vector Word 16
  tmpc : Vector Word 6
  nest : Vector Word 6
  tloop : Vector Word 4
  tlbody : Vector Word 4
  activeSaved : BitVec 6
  /-- `scDone` of the interrupted region -/
  scSaved : Bool
  mid : MidLine
  pending : List TrapReq
  deriving DecidableEq, Repr

/-- One page of a captured translation: page number and descriptor (R119). -/
structure Xlat where
  ctx : Fin 64
  word2 : Word
  len : Nat
  pages : List (Nat × Word)
  deriving DecidableEq, Repr

/-- An entry of a core's translation cache (R124): a page with what its table entry and descriptor held when they
were read. -/
structure Cached where
  ctx : Fin 64
  buf : Nat
  page : Nat
  word2 : Word
  len : Nat
  desc : Word
  deriving DecidableEq, Repr

/-- A copy as captured when it was started or routed (R135, R300, R304, R307). -/
structure Copy where
  ssp : CSpace
  dsp : CSpace
  src : Word
  dst : Word
  esize : Nat
  count : Nat
  /-- the tensor map of a MAP = 1 template: ten words -/
  map : Option (Vector Word 10)
  /-- the pattern of a CFILL -/
  fill : Option Lane
  /-- it moves elements to its destination; a CPOST only posts (R317) -/
  moves : Bool
  /-- counter address and amount, when post enable is set; its captured translation -/
  post : Option (Word × Word)
  spec : Bool
  fail : Option Nat
  srcX : Option Xlat
  dstX : Option Xlat
  ctrX : Option Xlat
  holds : List Nat
  cls : BitVec 16
  /-- the stores it must follow (R152) -/
  need : List Nat
  ctx : Fin 64
  seq : Nat
  /-- its number among the copies this core started with STA -/
  num : Nat
  /-- issued from a deterministic line: what R136 leaves open must not differ between runs (R253) -/
  det : Bool
  deriving DecidableEq, Repr

/-- A copy in progress: the elements it has read, how many bytes it has written, and the error response
that freezes the core (kind of R218, space code and address). -/
structure CopyRun where
  copy : Copy
  data : List (List Byte)
  written : Nat
  err : Option (Nat × Nat × Word)
  /-- TINFO of the COPY_FREEZE that the error has raised: it holds the element until that handler returns -/
  froze : Option Word
  /-- its element is issued again after a port violation: its buffers are translated anew (R218) -/
  again : Bool
  /-- elements whose write has been performed before the rest (R391) -/
  landed : List Nat
  deriving DecidableEq, Repr

structure Channel where
  cur : Option CopyRun
  waiting : List Copy
  deriving DecidableEq, Repr

/-- What an engine entry captured at routing (R57, R80, R123). -/
structure Capture where
  params : Vector Word 16
  guard : Bool
  line : Word
  lane : Nat
  lmode : BitVec 2
  ctx : Fin 64
  wid : Word
  seq : Nat
  copy : Option Copy
  deriving DecidableEq, Repr

/-- A QFENCE as its entries hold it (R150): its number, the queues it stands in, the number of STA copies before
it, and the lane that placed it with its line's mode. -/
structure FenceEnt where
  id : Nat
  mask : BitVec 6
  upto : Nat
  line : Word
  lane : Nat
  lmode : BitVec 2
  deriving DecidableEq, Repr

/-- An entry of an engine queue: an instruction or a fence. -/
inductive QEntry | instr (i : Instr) (c : Capture) | fence (f : FenceEnt)
  deriving DecidableEq, Repr

/-- The head entry: not started, started and awaiting its completion, or pushing its tokens. -/
inductive Phase | ready | busy | pushing (left : BitVec 6)
  deriving DecidableEq, Repr

structure EngQ where
  entries : List QEntry
  phase : Phase
  /-- the step a trap of the entry names and resumes at (R217) -/
  step : Nat
  /-- the head entry has counted that it is late (R223), and its push has counted a full token queue (R85) -/
  late : Bool
  full : Bool
  /-- the head entry stalls now (R223) -/
  stalls : Bool
  deriving DecidableEq, Repr

structure Engines where
  active : BitVec 6
  queues : Vector EngQ 6
  /-- tokens from engine i to engine j at index 6i + j -/
  tokens : Vector Nat 36
  params : Vector (Vector Word 16) 6
  div : Vector Divisor 6
  pace : Vector (BitVec 8) 6
  paceWritten : Vector (BitVec 8) 6
  /-- a divisor change that waits for a line with FIRST (R246, R275) -/
  divNext : Option Divisor
  fences : Nat
  deriving DecidableEq, Repr

/-- Operand slot states (R162). -/
inductive SlotSt | free | claimed | filled
  deriving DecidableEq, Repr

/-- A ladder binding (R180). -/
structure Bind where
  lad : Fin 16
  roleB : Bool
  shadow : Nat
  klen : Nat
  deriving DecidableEq, Repr

/-- A slot's state, side record and binding (R162, R163, R181). -/
structure Slot where
  st : SlotSt
  zp : Memory
  sat : Nat
  unf : Nat
  nan : Nat
  poison : Option Nat
  skip : Bool
  bind : Option Bind
  deriving DecidableEq, Repr

/-- An accumulator entry's tag (R204): mode 0 none, 1 speculative, 2 confirmed. -/
structure AccTag where
  mode : Nat
  id : Nat
  poison : Option Nat
  map : List (BitVec 16)
  deriving DecidableEq, Repr

/-- One nest level (R166). -/
structure NestLevel where
  count : BitVec 16
  astep : BitVec 16
  bstep : BitVec 16
  cstep : BitVec 16
  sstep : BitVec 16
  flags : BitVec 16
  deriving DecidableEq, Repr

/-- A tile whose decision has not fallen (R167, R184). `lad` is set for a ladder tile, with its bindings as
they were at the start. -/
structure Tile where
  fmt : Fmt
  e : Nat
  sa : Nat
  sb : Nat
  clr : Bool
  lad : Option (Bind × Bind)
  q : Option QGroup
  /-- the first partial entry of a Q tile, and the scale address of an MGO step -/
  part : Nat
  scale : Option Nat
  /-- exponent biases of the A and B slots (R96) -/
  biasA : Int
  biasB : Int
  /-- what a slot held when the tile started, where an unordered fill has replaced it since (R164) -/
  oldA : Option (List Byte)
  oldB : Option (List Byte)
  /-- the step within a nest (R176) -/
  step : Nat
  /-- the dumped values with which it was resumed after a debug stop: they are committed in place of the sums, entry by
  entry (R255) -/
  value : List (Nat × List Byte)
  deriving DecidableEq, Repr

/-- The monitor counts of a tile (R174), exact. -/
structure Counts where
  sat : Nat
  unf : Nat
  can : Nat
  nan : Nat
  bso : Nat
  deriving DecidableEq, Repr

/-- ME work in flight (R167, R184, R185): the tile awaiting its decision, whether a nest goes on after
it, squashed tiles in order, the rung of the replay in turn with the passes of it that have run and their
sums, windows used and reserved, the BSO count of an MSCA in progress, and the tokens an MRESOLVE has still to
train (R200): signature and chosen ids. -/
structure MeWork where
  tile : Option Tile
  nest : Bool
  replays : List Tile
  rung : Nat
  passes : Nat
  sums : Option (List (List Nat) × Counts)
  /-- the shadows at the start of the pass in progress (R188) -/
  seen : Option (List Byte × List Byte)
  windows : Nat
  budget : Nat
  bso : Nat
  train : List (Word × List Nat)
  pk : Nat
  deriving DecidableEq, Repr

/-- No work. -/
def MeWork.none : MeWork :=
  { tile := Option.none, nest := false, replays := [], rung := 1, passes := 0, sums := Option.none, seen := Option.none, windows := 0,
    budget := 0, bso := 0, train := [], pk := 0 }

structure Matrix where
  /-- operand memory O: byte b of slot s at 16384 s + b -/
  omem : Memory
  slots : Vector Slot 64
  /-- accumulator memory A: byte b of entry e at 16384 e + b -/
  amem : Memory
  tags : Vector AccTag 64
  shadow : Vector NestLevel 6
  act : Vector NestLevel 6
  idx : Vector (BitVec 16) 6
  /-- SATMAX .. TOPMAX and CEXP, by MMON code -/
  mon : Vector (BitVec 16) 7
  topcnt : Nat
  monstat : Word
  lrc : Vector (BitVec 32) 3
  spcnt : Vector (BitVec 32) 3
  spec : Option (SpecTag × Word)
  ladders : Vector Word 16
  work : Option MeWork
  /-- poisoned 8-byte granules of operand and of accumulator memory, by number (R130, R131) -/
  obad : List Nat
  abad : List Nat
  deriving DecidableEq, Repr

/-- A parked VLDG element (R219). -/
structure Parked where
  vd : Nat
  lane : Nat
  es : Nat
  ctx : Fin 64
  addr : Word
  /-- its offset passes 2^48, so that every retry fails -/
  beyond : Bool
  code : Nat
  hold : Option Nat
  /-- no later instruction has written the lane: a retry or a release still writes it -/
  live : Bool
  /-- the number and the class of the VLDG it is an element of -/
  id : Nat
  cls : Fin 16
  deriving DecidableEq, Repr

/-- A VLDG that has left its queue with elements parked: its number, its push mask, and the lane that routed it (R151,
R217, R219). -/
structure Owed where
  id : Nat
  push : BitVec 6
  line : Word
  lane : Nat
  deriving DecidableEq, Repr

/-- A VLDG of an exposed line that froze the core: the lanes that have been read with their values, and the hold of the
element that failed (R218, R379). -/
structure Gathered where
  got : List (Nat × Nat)
  hold : Option Nat
  deriving DecidableEq, Repr

structure Vec where
  /-- lane l of register r at 64 r + l -/
  regs : SMap Lane
  masks : Vector Word 7
  vallot : Nat
  parked : List Parked
  /-- VLDGs so far, and those that have elements parked or tokens of theirs to push (R151, R219) -/
  vldgs : Nat
  owed : List Owed
  gathered : Option Gathered
  gated : Vector Bool 4
  /-- poisoned 8-byte granules of the registers: 32 r + l / 2 for lane l of register r (R130, R131) -/
  vbad : List Nat
  deriving DecidableEq, Repr

/-- A GE or CE fill in progress (R162, R332): slot, bytes, zero points, counts, poison, skip. -/
structure Fill where
  slot : Nat
  bytes : List Byte
  zp : Option (List Byte)
  sat : Nat
  unf : Nat
  nan : Nat
  poison : Option Nat
  skip : Bool
  keepBind : Bool
  /-- bits of an element, for the choice of R164 -/
  ebits : Nat
  /-- the map, its place and origin, of a GMAP, whose source is read while the tile is filled (R195), and what its
  elements held at the start with their marks -/
  map : Option (Vector Word 10 × Loc × Nat × Nat × Nat)
  raw : List (Option (Nat × Option Nat))
  /-- what the slot held at the start, where another fill has replaced it since (R164) -/
  old : Option (List Byte)
  deriving DecidableEq, Repr

/-- What has become of a message: on its way, performed, answered with an error, held by the freeze that the
error caused, or to be issued again after its handler (R218, R267). -/
inductive LeSt | sent | ok | failed | held | again
  deriving DecidableEq, Repr

/-- A link-engine command begun and not completed (R272, R273, R324). -/
inductive LeCmd
  | msg (m : LinkMsg) (st : LeSt)
  /-- an LBAR, with the number of the barrier phase it waits for -/
  | bar (id : Nat) (released : Bool)
  /-- a nullified command (R80) -/
  | null
  deriving DecidableEq, Repr

/-- A begun command with its push mask and the lane that routed it (R217). -/
structure LeEnt where
  cmd : LeCmd
  push : BitVec 6
  line : Word
  lane : Nat
  lmode : BitVec 2
  /-- its push has counted a full token queue (R85) -/
  full : Bool
  deriving DecidableEq, Repr

structure Copies where
  /-- word w of template t at 16 t + w -/
  tmpl : SMap Word
  channels : Vector Channel 9
  hazCount : BitVec 32
  hazSpace : BitVec 2
  hazAddr : Word
  /-- fills in progress of the ME, CE and GE -/
  fills : List (Eng × Fill)
  /-- bytes of the unit pad that the GROWS or GSCAT in progress has overwritten, as they were (R136) -/
  overwritten : SMap Byte
  /-- bytes that a GMAP or a link command has begun to read: a map, or a payload (R195, R329) -/
  seen : List (Eng × List Byte)
  /-- error responses to GE, LE and VE commands that freeze the core: kind, space code, address (R218) -/
  errs : List (Eng × Nat × Nat × Word)
  /-- begun LE commands, in queue order -/
  le : List LeEnt
  leSeq : Nat
  /-- copies started with STA -/
  staSeq : Nat
  deriving DecidableEq, Repr

/-- A Garnet entry (R197). -/
structure Garnet where
  tag : BitVec 16
  cand : Vector (BitVec 12 × BitVec 4) 4
  deriving DecidableEq, Repr

/-- A posted store that is not performed (R141, R356, R377). -/
structure Pending where
  ve : Bool
  cls : Fin 16
  space : Space
  loc : Loc
  cells : List Host.Cell
  hold : Option Nat
  seq : Nat
  /-- its number among the core's stores -/
  num : Nat
  /-- the number of the access it is an element of: the elements of one vector store become visible in any
  order (R378) -/
  acc : Nat
  /-- posted from a deterministic line (R253) -/
  det : Bool
  deriving DecidableEq, Repr

/-- An access of the control thread that is not performed: its class and space, its address, its place, and its hold (R123,
R143). -/
structure Access where
  cls : Fin 16
  space : Space
  addr : Word
  loc : Loc
  bytes : List Nat
  hold : Option Nat
  deriving DecidableEq, Repr

/-- What an atomic makes of the old value (R291). -/
inductive AtomicOp | add | cas (cmp : Nat) | xch | max (kind : MaxKind) | fadd
  deriving DecidableEq, Repr

/-- What a lane has issued whose result has still to arrive: a load or an atomic (R143, R391), a read of a register outside
the core, with the count of the core's cycles by which it comes (R352), a sprint request, with the TIME by which it is
answered (R245), or a value that a debug stop holds back (R255). -/
inductive LateOp
  | load (x : Access)
  | atomic (x : Access) (op : AtomicOp) (data : Nat)
  | srd (reg by_ : Nat)
  | sprint (mask micros by_ : Word)
  | arrived (v : Word)
  deriving DecidableEq, Repr

/-- A result of the control thread that may still change, since nothing has used it (R391, R393): what it is the result
of, and the named register and the result-queue position that hold it. -/
structure Late where
  op : LateOp
  named : Option (Fin 16)
  pos : Nat
  /-- copies started with STA before it (R152) -/
  stas : Nat
  deriving DecidableEq, Repr

/-- The place of an SC access that waits, with its hold (R123, R347). -/
structure ScWait where
  loc : Loc
  bytes : List Nat
  hold : Option Nat
  deriving DecidableEq, Repr

/-- A write to a register outside the core that has still to take effect (R353): the register, the value, and the count of
the core's cycles by which it does. -/
structure OutWrite where
  reg : Nat
  value : Word
  by_ : Nat
  deriving DecidableEq, Repr

/-- A lease trap that is to be made pending (R248), and TIME by which it is. -/
structure OwedTrap where
  trap : TrapReq
  by_ : Word
  deriving DecidableEq, Repr

/-- One core. -/
structure Core where
  regs : Regs
  fetch : Fetch
  trap : TrapRegs
  eng : Engines
  me : Matrix
  vec : Vec
  cpy : Copies
  garnet : SMap Garnet
  work : Work
  pend : List Pending
  pendNum : Nat
  bcm : SMap (BitVec 32)
  bcmSnap : SMap (BitVec 32)
  /-- BCMSNAP was filled at a loop's end; counters not listed have not been looked at since -/
  snapOpen : Bool
  /-- that loop ended in the frozen handler in progress -/
  snapFrozen : Bool
  /-- counters looked at since the freeze of a handler, which count nothing more until it ends (R256) -/
  bcmFixed : List Nat
  /-- the translation cache, at most 64 entries, oldest first (R124) -/
  tlb : List Cached
  /-- results that may still change, oldest first (R391, R393) -/
  opened : List Late
  /-- the SC access of the lane in progress, which waits (R347) -/
  scWait : Option ScWait
  /-- CC cycles so far, and the writes on their way to registers outside the core, oldest first (R353) -/
  cycles : Nat
  outWrites : List OutWrite
  leaseTraps : List OwedTrap
  deriving DecidableEq, Repr

/-- A pad with its poisoned granules (by granule number; `none` lasting poison, `some code` a
speculative mark) (R131, R202). -/
structure Pad where
  mem : Memory
  bad : SMap (Option Nat)
  deriving DecidableEq, Repr

/-- A resident context (R117). -/
structure Ctx where
  table : Word
  size : Nat
  deriving DecidableEq, Repr

/-- A stage of an accepted kernel block (R43, R279). -/
structure StageInfo where
  entry : Word
  ring : Nat
  depth : Nat
  rsize : Nat
  allot : Nat
  deriving DecidableEq, Repr

/-- An accepted kernel block (R26, R279, R287). -/
structure Kernel where
  ctx : Fin 64
  addr : Word
  base : Word
  widths : List Nat
  stages : List StageInfo
  tmpl : List (Nat × List Word)
  ladders : List (Nat × Word)
  dataU : List (Nat × List Byte)
  pace : Vector (BitVec 8) 6
  super : Bool
  /-- header MODES: a deterministic region is present -/
  det : Bool
  pidx : Nat
  deriving DecidableEq, Repr

/-- A record slot of a stage ring (R45). -/
inductive RecSt | free | reserved | valid | inUse
  deriving DecidableEq, Repr

/-- A staged node on a die (R44, R45): kernel, rings and passed-over counts by stage. `owner` is the core of a
pushed node. -/
structure Staged where
  die : Nat
  kernel : Nat
  launch : Nat
  index : Nat
  owner : Option Nat
  img : Vector Word 16
  rings : List (List RecSt)
  passed : List Nat
  /-- participating cores of the die that have left the node -/
  left : List Nat
  /-- cores that have given up an invocation of it, with the slices that they had not begun (R46) -/
  cut : List (Nat × Nat)
  /-- R46: it has ended on the die -/
  ended : Bool
  deriving DecidableEq, Repr

/-- A barrier's counts for one node (R154): completed phases and per-core arrivals. -/
structure Barrier where
  /-- cluster (false) or die (true), which one, and the barrier number -/
  die : Bool
  unit : Nat
  b : Nat
  launch : Nat
  index : Nat
  img : Vector Word 16
  arrivals : SMap Nat
  /-- participants whose node has left its queue (R295) -/
  left : List Nat
  deriving DecidableEq, Repr

/-- Droop state of a cluster (R237, R240). -/
structure Droop where
  thresh : BitVec 6
  str : BitVec 4
  half : BitVec 10
  cnt : BitVec 32
  arm : Bool
  armed : Bool
  stretching : Bool
  halving : Bool
  deriving DecidableEq, Repr

/-- A live lease (R245). -/
structure Lease where
  id : Nat
  clusters : BitVec 32
  expiry : Word
  deriving DecidableEq, Repr

/-- An entry of the error log (R133). -/
structure LogEntry where
  kind : Nat
  space : Nat
  addr : Word
  phys : Nat
  ctx : Nat
  core : Nat
  eng : Eng
  time : Word
  deriving DecidableEq, Repr

/-- A BAR2 window (R262). -/
structure Window where
  gaddr : Word
  ctl : Word
  size : Word
  base : Word
  deriving DecidableEq, Repr

/-- One AFADD of a run (R252): address as issued, where it lies, WID, addend, hold. -/
structure AfaddItem where
  addr : Word
  loc : Loc
  bytes : List Nat
  wid : Word
  addend : Word
  hold : Option Nat
  /-- who issued it, for the log (R133) -/
  core : Nat
  ctx : Fin 64
  deriving DecidableEq, Repr

/-- The deterministic AFADD run of one node (R252): its participants, those that have ended their last
invocation, and its adds in the order of issue. `owner` is the core of a pushed node. -/
structure AfaddRun where
  launch : Nat
  index : Nat
  owner : Option Nat
  mask : BitVec 128
  ended : BitVec 128
  adds : List AfaddItem
  applied : Bool
  deriving DecidableEq, Repr

/-- A pod barrier in use by a node (R273): its number, its node (a pushed one by its image), the arrivals of this
package's cores for the phase, and its stages. -/
structure PodBar where
  /-- the number of the phase, among all of this package -/
  id : Nat
  b : Fin 16
  launch : Nat
  index : Nat
  img : Vector Word 16
  arrived : List Nat
  sent : Bool
  complete : Bool
  sentAt : Word
  /-- the PHASE index of the node's kernel (R229, R236) -/
  pidx : Nat
  /-- TIME when the barrier completed and when the release came to the package, and the clusters it has
  reached (R236) -/
  completeAt : Word
  received : Option Word
  reached : BitVec 32
  deriving DecidableEq, Repr

/-- What a save record does not hold of the work it saves (R224, log entry 31): the graph walk and the node's
place in it. -/
structure SaveInfo where
  ctx : Fin 64
  addr : Word
  cpCtx : Fin 64
  cpLaunch : Nat
  cpIndex : Nat
  launch : Nat
  index : Nat
  deriving DecidableEq, Repr

/-- The life-cycle fuses (R257). -/
inductive LifeCycle | blank | production | retired
  deriving DecidableEq, Repr

/-- The host port (R258-R264). -/
structure Port where
  step : BitVec 8
  failed : Bool
  recovery : Bool
  ready : Bool
  /-- BAR2's size as a power of two, 20 to 40 (R258) -/
  bar2 : Nat
  /-- the PCI Express link is usable: it is but where bring-up could not train it (R25) -/
  linked : Bool
  lctx : Fin 64
  lstat : BitVec 2
  mbstat : BitVec 2
  mbreq : Vector Word 32
  mbrsp : Vector Word 32
  win : Vector Window 16
  msix : BitVec 4
  msixTable : SMap Word
  /-- the last completion the host or an external endpoint received: success and data -/
  completion : Option (Bool × List Byte)
  /-- what a debugger read last (R255) -/
  debugSeen : List Byte
  launches : Nat
  features : BitVec 4
  /-- the life-cycle fuses, the hash of the device identity, and the token keys used on the device (R257) -/
  life : LifeCycle
  identity : List Byte
  keys : List Word
  saves : List SaveInfo
  deriving DecidableEq, Repr

/-- The power, droop and sprint controls (R229-R250, R274, R275). -/
structure Power where
  phase : Vector (BitVec 5) 32
  slew : BitVec 11
  capover : Word
  podSlot : BitVec 6
  podStep : BitVec 12
  droop : Vector Droop 32
  high : BitVec 32
  frac : BitVec 16
  /-- periods of 25,000 ticks whose reading of the store has been taken (R242) -/
  readings : Nat
  splim : BitVec 16
  refrz : BitVec 16
  spmax : Nat
  leases : List Lease
  nextLease : Nat
  /-- the last instant at which a lease expired (R250) -/
  expiredAt : Option Word
  refreeze : Option Word
  /-- switches granted and not yet made, and TIME by which each cluster's supply has risen (R246) -/
  switching : BitVec 32
  switchBy : Vector Word 32
  pcap : Nat
  pcapNext : Nat
  /-- windows of the cap that have closed (R233) -/
  windows : Nat
  /-- the governor's restraint level of each core (R232) -/
  restraint : Vector Nat 128
  /-- clusters in which ballast runs, and whether any has run since the last window closed (R232, R233, R237) -/
  ballast : BitVec 32
  ballastRan : Bool
  /-- the newest sprint request that was served: TIME and core (R250) -/
  lastReq : Option (Word × Nat)
  slkhi : BitVec 32
  slklo : BitVec 32
  slackDiv : Divisor
  slackSince : Word
  /-- a round since the last change had slack at or below SLKHI -/
  slackLow : Bool
  hotskip : Word
  deriving DecidableEq, Repr

/-- Links and the pod (R265-R273). -/
structure Links where
  up : BitVec 16
  fails : Vector Nat 16
  id : Nat
  pod : Nat
  routes : List (Nat × Fin 16)
  inbox : List LinkMsg
  outbox : List LinkMsg
  /-- completions on their way to other packages: package, core, number, success -/
  replies : List (Nat × Nat × Nat × Bool)
  /-- commands of other packages forwarded over a link and not answered (R266) -/
  relayed : List LinkMsg
  gathers : List LinkMsg
  /-- the pod barriers with arrivals, and how many phases have begun -/
  bars : List PodBar
  barSeq : Nat
  deriving DecidableEq, Repr

/-- A memory that cells fail in (R130): a pad, global memory by the address of a context that names it, global memory by
physical address where a table is read, or a core's operand memory, accumulator memory or vector registers by
granule. -/
inductive CellAt
  | mem (l : Loc) (a : Nat)
  | buf (ctx : Fin 64) (a : Word)
  | operand (core g : Nat) | acc (core g : Nat) | vreg (core g : Nat)
  deriving DecidableEq, Repr

/-- A cell error that a read of the turn meets (R130, R131): corrected, transient or lasting. -/
inductive CellKind | corrected | transient | lasting
  deriving DecidableEq, Repr

/-- What the next step does (log entry 5): an event, the acting core's control thread, an engine, an act from
outside, the write of one element of a copy in progress, before the rest of it, or another look of such a copy at its
source (R391). -/
inductive Act
  | event (i : Instr) | lane | engine (e : Eng) | outside (o : Outside) | land (ch : Fin 9) (i : Nat) | look (ch : Fin 9)
  deriving DecidableEq, Repr

structure Turn where
  core : Fin 128
  act : Act
  /-- the cell error that its reads meet -/
  cell : Option (CellKind × CellAt)
  /-- the page that the core's translation cache takes in: context, buffer, page (R124) -/
  fill : Option (Fin 64 × Nat × Nat)
  deriving DecidableEq, Repr

/-- The package. -/
structure State where
  cores : Vector Core 128
  upads : Vector Pad 128
  kpads : Vector Pad 32
  dpads : Vector Pad 2
  /-- global memory (R126-R131): unit u (0-15 a stack, 16 LPDDR-6), byte x at 2^44 u + x; its
  granules are 32 bytes -/
  gmem : Pad
  /-- units of 2 KiB of it that are dead and not rewritten (R129) -/
  dead : List Nat
  /-- accepted images, by the address the fetch unit uses -/
  code : Memory
  codeTop : Nat
  ctxs : Vector (Option Ctx) 64
  /-- holds in force: number, context, entry, will post (R123, R310) -/
  holds : List (Nat × Fin 64 × Nat × Bool)
  nextHold : Nat
  kernels : List Kernel
  staged : List Staged
  barriers : List Barrier
  runs : List AfaddRun
  host : Port
  power : Power
  links : Links
  log : List LogEntry
  watchdog : Nat
  time : Word
  -- the model's own fields
  turns : List Turn
  cur : Fin 128
  steps : Nat
  /-- nodes that QPUSH has pushed -/
  pushes : Nat
  /-- counter of the free values -/
  fresh : Nat
  deriving DecidableEq, Repr

/-- Why a step of the model stops: no definition answers a fault, since every instruction and every event has a next
state. -/
inductive Fault
  /-- Raised by no definition. Safe. -/
  | never
  deriving DecidableEq, Repr

/-- Why the model refuses a step. -/
inductive Refusal
  /-- Raised only by an arm of `exec` for an instruction without a meaning. Safe. -/
  | notModelled (mnemonic : String)
  deriving DecidableEq, Repr

-- The values at reset.

def Node.none : Node :=
  { img := Vector.replicate 16 0, ctx := 0, launch := 0, index := 0, addr := 0 }

def Head.fresh (t : Word) : Head :=
  { checked := false, dep0 := false, dep1 := false, ready := false, held := none, since := t,
    readyAt := 0, reported := false }

def Work.reset : Work :=
  { cp := 0, cpCtx := 0, cpState := .idle, cpLaunch := 0, cpIndex := 0, cpOld := [],
    queues := Vector.replicate 4 { nodes := [], seq := 0, head := Head.fresh 0 }, served := 3,
    cur := none, posts := [], run := .idle, preempt := none, preempting := none, dbg := none,
    dbgSeen := 0, dbgFrom := none, stopped := false, dump := [] }

def Regs.reset : Regs :=
  { n := Vector.replicate 16 0, q := Vector.replicate 16 0, k := Vector.replicate 4 false,
    sup := false, sbtrap := false, sbcnt := 0, cyc := 0, wid := 0 }

def Fetch.reset : Fetch :=
  { line := 0, lane := 1, opened := false, first := true, resume := false, entered := false, lmode := 0,
    draining := false, loops := [], skip := none, moved := 0, stalled := false, waited := false, scDone := false,
    scLast := none, wheelWait := false }

def TrapRegs.reset : TrapRegs :=
  { tvb := 0, tcode := 0, tinfo := 0, tpc := 0, inh := false, abort := false, eng := .cc,
    frz := false, psup := false, tq := Vector.replicate 16 0, tmpc := Vector.replicate 6 0,
    nest := Vector.replicate 6 0, tloop := Vector.replicate 4 0, tlbody := Vector.replicate 4 0,
    activeSaved := 0, scSaved := false,
    mid := { pc := 0, opened := false, skip := none, moved := 0 }, pending := [] }

def EngQ.empty : EngQ := { entries := [], phase := .ready, step := 0, late := false, full := false, stalls := false }

def Engines.reset : Engines :=
  { active := 0, queues := Vector.replicate 6 EngQ.empty, tokens := Vector.replicate 36 0,
    params := Vector.replicate 6 (Vector.replicate 16 0), div := Vector.replicate 6 .d4,
    pace := Vector.replicate 6 0, paceWritten := Vector.replicate 6 0, divNext := none,
    fences := 0 }

def Slot.reset : Slot :=
  { st := .free, zp := [], sat := 0, unf := 0, nan := 0, poison := none, skip := false,
    bind := none }

def AccTag.reset : AccTag := { mode := 0, id := 0, poison := none, map := [] }

/-- A level as every invocation finds its shadow (R166). -/
def NestLevel.initial : NestLevel :=
  { count := 1, astep := 0, bstep := 0, cstep := 0, sstep := 0, flags := 0 }

/-- An active level before any MGO (R169: NEST resets to 0). -/
def NestLevel.zero : NestLevel :=
  { count := 0, astep := 0, bstep := 0, cstep := 0, sstep := 0, flags := 0 }

/-- The defaults of R175. -/
def monDefaults : Vector (BitVec 16) 7 :=
  ⟨#[0xFFFF, 0xFFFF, 0xFFFF, 0xFFFF, 0xFFFF, 0xFFFF, 12], rfl⟩

def Matrix.reset : Matrix :=
  { omem := [], slots := Vector.replicate 64 Slot.reset, amem := [],
    tags := Vector.replicate 64 AccTag.reset, shadow := Vector.replicate 6 NestLevel.initial,
    act := Vector.replicate 6 NestLevel.zero, idx := Vector.replicate 6 0, mon := monDefaults,
    topcnt := 0, monstat := 0, lrc := Vector.replicate 3 0, spcnt := Vector.replicate 3 0,
    spec := none, ladders := Vector.replicate 16 0, work := none, obad := [], abad := [] }

def Vec.reset : Vec :=
  { regs := [], masks := Vector.replicate 7 0, vallot := 0, parked := [], vldgs := 0, owed := [],
    gathered := none, gated := Vector.replicate 4 true, vbad := [] }

def Copies.reset : Copies :=
  { tmpl := [], channels := Vector.replicate 9 { cur := none, waiting := [] }, hazCount := 0,
    hazSpace := 0, hazAddr := 0, fills := [], overwritten := [], seen := [], errs := [], le := [], leSeq := 0, staSeq := 0 }

def Core.reset : Core :=
  { regs := Regs.reset, fetch := Fetch.reset, trap := TrapRegs.reset, eng := Engines.reset,
    me := Matrix.reset, vec := Vec.reset, cpy := Copies.reset, garnet := [], work := Work.reset,
    pend := [], pendNum := 0, bcm := [], bcmSnap := [], snapOpen := false, snapFrozen := false, bcmFixed := [], tlb := [],
    opened := [], scWait := none, cycles := 0, outWrites := [], leaseTraps := [] }

def Droop.reset : Droop :=
  { thresh := 20, str := 4, half := 128, cnt := 0, arm := false, armed := true,
    stretching := false, halving := false }

def Port.reset : Port :=
  { step := 0, failed := false, recovery := false, ready := false, bar2 := 40, linked := true, lctx := 0, lstat := 0,
    mbstat := 0, mbreq := Vector.replicate 32 0, mbrsp := Vector.replicate 32 0,
    win := Vector.replicate 16 { gaddr := 0, ctl := 0, size := 0, base := 0 }, msix := 0,
    msixTable := [], completion := none, debugSeen := [], launches := 0, features := 0,
    life := .production, identity := List.replicate 32 0, keys := [], saves := [] }

def Power.reset : Power :=
  { phase := Vector.replicate 32 0, slew := 400, capover := 0, podSlot := 0, podStep := 64,
    droop := Vector.replicate 32 Droop.reset, high := 0, frac := 0, readings := 0, splim := 0xE000, refrz := 250,
    spmax := 32, leases := [], nextLease := 1, expiredAt := none, refreeze := none, switching := 0, switchBy := Vector.replicate 32 0, pcap := 3200,
    pcapNext := 3200, windows := 0, restraint := Vector.replicate 128 0, ballast := 0, ballastRan := false,
    lastReq := none, slkhi := 0xFFFFFFFF, slklo := 5000, slackDiv := .d4, slackSince := 0, slackLow := false, hotskip := 0 }

def PodBar.reset : PodBar :=
  { id := 0, b := 0, launch := 0, index := 0, img := Vector.replicate 16 0, arrived := [], sent := false, complete := false,
    sentAt := 0, pidx := 0, completeAt := 0, received := none, reached := 0 }

def Links.reset : Links :=
  { up := 0, fails := Vector.replicate 16 0, id := 0, pod := 1, routes := [], inbox := [],
    outbox := [], replies := [], relayed := [], gathers := [], bars := [], barSeq := 0 }

/-- The package right after a device reset, before bring-up (R25): nothing is loaded and no turn is
waiting. -/
def State.reset : State :=
  { cores := Vector.replicate 128 Core.reset, upads := Vector.replicate 128 { mem := [], bad := [] },
    kpads := Vector.replicate 32 { mem := [], bad := [] },
    dpads := Vector.replicate 2 { mem := [], bad := [] },
    gmem := { mem := [], bad := [] }, dead := [], code := [], codeTop := 0,
    ctxs := Vector.replicate 64 none, holds := [], nextHold := 0, kernels := [], staged := [],
    barriers := [], runs := [], host := Port.reset, power := Power.reset, links := Links.reset,
    log := [], watchdog := 50, time := 0, turns := [], cur := 0, steps := 0, pushes := 0,
    fresh := 0 }

end Sys2Proof.Machine
end

