-- ==== Sys2Proof/Machine/Base.lean ====
section
/-! DEFINITION. Sparse storage, bytes and words, and the bit-field helpers the meanings use (R2). -/
namespace Sys2Proof.Machine

-- Sparse storage: the one place where keys are inserted and removed.

def smapGet {V : Type} (m : SMap V) (k : Nat) : Option V := List.lookup k m

def smapDel {V : Type} : SMap V → Nat → SMap V
  | [], _ => []
  | (k', v) :: m, k => if k' = k then smapDel m k else (k', v) :: smapDel m k

/-- Put a value under a key, keeping keys strictly rising. -/
def smapPut {V : Type} : SMap V → Nat → V → SMap V
  | [], k, v => [(k, v)]
  | (k', v') :: m, k, v =>
    if k < k' then (k, v) :: (k', v') :: m
    else if k = k' then (k, v) :: m
    else (k', v') :: smapPut m k v

/-- Put, where the default is not listed. -/
def smapSet {V : Type} [DecidableEq V] (d : V) (m : SMap V) (k : Nat) (v : V) : SMap V :=
  if v = d then smapDel m k else smapPut m k v

/-- The canonical form of a memory: addresses strictly rising, no byte that an unlisted address reads. -/
abbrev Memory.wf (m : Memory) : Prop :=
  m.Pairwise (fun a b => a.1 < b.1) ∧ ∀ c ∈ m, c.2 ≠ 0

/-- What an unlisted address reads as (R25 for the pads; log entry 2 for global memory). -/
def unlisted : Byte := 0

def readByte (m : Memory) (a : Nat) : Byte := (smapGet m a).getD unlisted

def writeByte (m : Memory) (a : Nat) (b : Byte) : Memory := smapSet unlisted m a b

/-- Bytes written one after another from an address. -/
def writeBytes : Memory → Nat → List Byte → Memory
  | m, _, [] => m
  | m, a, b :: bs => writeBytes (writeByte m a b) (a + 1) bs

def writeCells (m : Memory) (cs : List Host.Cell) : Memory :=
  cs.foldl (fun m c => writeByte m c.1 c.2) m

def readBytes (m : Memory) (a n : Nat) : List Byte := (List.range n).map fun i => readByte m (a + i)

/-- The bytes of a run of addresses, read in one pass over a memory in canonical form. -/
def readRun (m : Memory) (a n : Nat) : List Byte := go (m.dropWhile fun c => c.1 < a) a n
where
  go : Memory → Nat → Nat → List Byte
    | _, _, 0 => []
    | [], a, n + 1 => unlisted :: go [] (a + 1) n
    | c :: m, a, n + 1 => if c.1 = a then c.2 :: go m (a + 1) n else unlisted :: go (c :: m) (a + 1) n

/-- Little-endian value of bytes (R2). -/
def leNat : List Byte → Nat
  | [] => 0
  | b :: bs => b.toNat + 256 * leNat bs

/-- The low w bytes of a number, little-endian (R2). -/
def leBytes : Nat → Nat → List Byte
  | 0, _ => []
  | w + 1, x => BitVec.ofNat 8 x :: leBytes w (x / 256)

/-- Pair bytes with rising addresses. -/
def cellsFrom : Nat → List Byte → List Host.Cell
  | _, [] => []
  | a, b :: bs => (a, b) :: cellsFrom (a + 1) bs

/-- A run of bytes written from an address in one pass over a memory in canonical form. -/
def writeRun (m : Memory) (a : Nat) (bs : List Byte) : Memory :=
  m.takeWhile (fun c => c.1 < a) ++ (cellsFrom a bs).filter (fun c => c.2 ≠ unlisted) ++
    m.dropWhile fun c => c.1 < a + bs.length

/-- A vector read and written at a number; out of range reads the default and writes nothing. -/
def vget {α : Type} {n : Nat} (v : Vector α n) (i : Nat) (d : α) : α := v.toList.getD i d

def vset {α : Type} {n : Nat} (v : Vector α n) (i : Nat) (x : α) : Vector α n :=
  v.setIfInBounds i x

/-- A vector from a function of its index. -/
def vgen {α : Type} (n : Nat) (f : Nat → α) : Vector α n :=
  ⟨⟨(List.range n).map f⟩, by simp⟩

/-- A vector of n values from a list, padded with a default. -/
def vofList {α : Type} (n : Nat) (l : List α) (d : α) : Vector α n := vgen n fun i => l.getD i d

/-- A 32-bit saturating count (R92, R139, R189, R209). -/
def satAdd32 (x : BitVec 32) (n : Nat) : BitVec 32 :=
  BitVec.ofNat 32 (min (x.toNat + n) 0xFFFFFFFF)

/-- Signed value of the low bits (R70 SExt). -/
def sext (n : Nat) (x : BitVec n) : Word := x.signExtend 64

def boolWord (b : Bool) : Word := if b then 1 else 0

/-- The number of set bits of a number below 2^n. -/
def popcount : Nat → Nat → Nat
  | 0, _ => 0
  | n + 1, x => x % 2 + popcount n (x / 2)

/-- The number of leading zeros among n bits. -/
def leadingZeros : Nat → Nat → Nat
  | 0, _ => 0
  | n + 1, x => if x / 2 ^ n % 2 = 1 then 0 else 1 + leadingZeros n (x % 2 ^ n)

/-- The k-th set bit of a mask, counted from bit 0 (R119). -/
def nthSet : List Nat → Nat → Nat → Nat
  | [], _, _ => 0
  | b :: bs, m, k =>
    if m / 2 ^ b % 2 = 1 then (match k with | 0 => b | k' + 1 => nthSet bs m k') else nthSet bs m k

def ceilDiv (a b : Nat) : Nat := (a + b - 1) / b

end Sys2Proof.Machine
end

