-- ==== Sys2Proof/Machine/Ops.lean ====
section
/-! DEFINITION. The named operations over the state: the acting core, its registers and result queue, the
places of memory, traps and the return from them (R76-R78, R114, R130-R132, R141, R210-R217). -/
namespace Sys2Proof.Machine

abbrev Out := Host.Outcome State Fault Refusal

-- The acting core.

def State.core (s : State) : Core := s.cores[s.cur]

def State.setCore (s : State) (c : Core) : State := { s with cores := s.cores.set s.cur c }

def State.upd (s : State) (f : Core → Core) : State := s.setCore (f s.core)

/-- Another core of the package. -/
def State.coreAt (s : State) (i : Nat) : Core := vget s.cores i Core.reset

def State.updAt (s : State) (i : Nat) (f : Core → Core) : State :=
  { s with cores := vset s.cores i (f (s.coreAt i)) }

def State.updFetch (s : State) (f : Fetch → Fetch) : State :=
  s.upd fun c => { c with fetch := f c.fetch }

def State.updRegs (s : State) (f : Regs → Regs) : State := s.upd fun c => { c with regs := f c.regs }

def State.updTrap (s : State) (f : TrapRegs → TrapRegs) : State :=
  s.upd fun c => { c with trap := f c.trap }

def State.updEng (s : State) (f : Engines → Engines) : State := s.upd fun c => { c with eng := f c.eng }

def State.updMe (s : State) (f : Matrix → Matrix) : State := s.upd fun c => { c with me := f c.me }

def State.updVec (s : State) (f : Vec → Vec) : State := s.upd fun c => { c with vec := f c.vec }

def State.updCpy (s : State) (f : Copies → Copies) : State := s.upd fun c => { c with cpy := f c.cpy }

def State.updWork (s : State) (f : Work → Work) : State := s.upd fun c => { c with work := f c.work }

/-- The acting core's cluster and die (R10). -/
def State.cluster (s : State) : Nat := s.cur.val / 4
def State.die (s : State) : Nat := s.cur.val / 64

def Core.exposed (c : Core) : Bool := c.fetch.lmode.getLsbD 0
def Core.deterministic (c : Core) : Bool := c.fetch.lmode.getLsbD 0 && c.fetch.lmode.getLsbD 1

/-- The context whose buffer table resolves the acting core's addresses (R224, R343). -/
def Core.ctx (c : Core) : Fin 64 :=
  match c.work.preempting with
  | some (x, _) => x
  | none => match c.work.cur with | some p => p.node.ctx | none => 0

/-- A node's number among those of a core: its place in its queue, and the queue (R40). -/
def nodeKey (q : Fin 4) (seq : Nat) : Nat := 4 * seq + q.val

def Progress.key (p : Progress) : Nat := nodeKey p.q p.seq

/-- The number under which the acting core's accesses count for its node's post (R40). -/
def Core.seq (c : Core) : Nat := match c.work.cur with | some p => p.key | none => 0

/-- The next free value's number. -/
def State.draw (s : State) : State := { s with fresh := s.fresh + 1 }

-- Registers and the result queue (R59, R76, R78).

/-- A value joins the queue as q0; every earlier entry ages by one. -/
def Regs.pushQ (r : Regs) (v : Word) : Regs :=
  { r with q := vgen 16 fun i => if i = 0 then v else vget r.q (i - 1) 0 }

/-- The destination rule of R59. -/
def Regs.setDest (r : Regs) (d : Dest) (v : Word) : Regs :=
  match d with
  | .n i => { (r.pushQ v) with n := r.n.set i v }
  | .push => r.pushQ v

def State.setDest (s : State) (d : Dest) (v : Word) : State := s.updRegs fun r => r.setDest d v

/-- On to the next lane of the line. -/
def State.advance (s : State) : State :=
  s.updFetch fun f => { f with lane := f.lane + 1, stalled := false, waited := false, moved := 0 }

-- Logs, signals and SCHED_BREAK.

/-- Error-log kinds: 0 corrected, 1 transient, 2 lasting, 3 store refused, 4 port violation (R133), and
the management core's own reports: 5 double fault, 6 bring-up, 7 fetch error, 8 link, 9 cap window, 10 node
error (log entry 37). The entry names the requester's core. -/
def State.logFor (s : State) (core : Nat) (kind space : Nat) (addr : Word) (phys ctx : Nat) (e : Eng) : State :=
  { s with
    log := s.log ++ [{ kind, space, addr, phys, ctx, core, eng := e, time := s.time }]
    host := { s.host with msix := s.host.msix ||| 2 } }

/-- An entry whose requester is the acting core. -/
def State.logEvent (s : State) (kind space : Nat) (addr : Word) (phys ctx : Nat) (e : Eng) : State :=
  s.logFor s.cur kind space addr phys ctx e

/-- A report to the host on MSI-X vector v (R264). -/
def State.signal (s : State) (v : Nat) : State :=
  { s with host := { s.host with msix := s.host.msix ||| BitVec.ofNat 4 (2 ^ v) } }

/-- A trap to be taken later by TRAP_ENTRY (R214). -/
def State.pendTrap (s : State) (t : TrapReq) : State :=
  s.updTrap fun r => { r with pending := r.pending ++ [t] }

/-- One SCHED_BREAK of engine e (R92, R215, R223): counted, and with SBTRAP set made pending unless one
is pending or being handled. -/
def State.schedBreak (s : State) (e : Eng) : State :=
  let s' := s.updRegs fun r => { r with sbcnt := satAdd32 r.sbcnt 1 }
  let c := s.core
  if c.regs.sbtrap && !c.trap.inh && !(c.trap.pending.any fun t => t.code == 0x19) then
    s'.pendTrap { code := 0x19, eng := e,
                  info := BitVec.ofNat 64 (c.regs.cyc.toNat % 2 ^ 32 * 2 ^ 32 + e.num) }
  else s'

/-- The lane waits for room, a token or an access: in an exposed region the wait counts one SCHED_BREAK, whether or not
the lane has been late as well (R77, R85). -/
def State.stallLane (s : State) : State :=
  if s.core.exposed && !s.core.fetch.waited then
    (s.schedBreak .cc).updFetch fun f => { f with waited := true }
  else s

/-- The lane in turn of an exposed region meets what comes after its slot: a value, a translation, an access before
it, or a raised GAP. Whether it does is a free choice, counted once for the lane (R77, R85, R124, R223, R228,
R251, R393; log entry 26). -/
def State.lateLane (s : State) : State :=
  if s.core.exposed && !s.core.fetch.stalled then
    (if Config.late s.fresh then (s.draw.schedBreak .cc).updFetch fun f => { f with stalled := true } else s.draw)
  else s

-- Taking a trap (R211).

/-- The LOOP state as TLOOP and TLBODY hold it (R394). -/
def loopRegs (l : List LoopEnt) : Vector Word 4 × Vector Word 4 :=
  (vgen 4 fun i => match l[i]? with | some e => e.left | none => 0,
   vgen 4 fun i => match l[i]? with
     | some e => BitVec.ofNat 64 (e.len % 2 ^ 21 * 2 ^ 43 + e.first.toNat / 32 % 2 ^ 43)
     | none => 0)

/-- The LOOP state read back (R394): a loop of length 0 and every later one is inactive. -/
def loopsOf (tpc : Word) (tl tb : Vector Word 4) : List LoopEnt :=
  (((List.range 4).map fun i => (vget tl i 0, vget tb i 0)).takeWhile
      fun x => x.2.toNat / 2 ^ 43 != 0).map
    fun x => { left := x.1, len := x.2.toNat / 2 ^ 43,
               first := BitVec.ofNat 64 (tpc.toNat / 2 ^ 48 * 2 ^ 48 + x.2.toNat % 2 ^ 43 * 32) }

/-- The step that TMPC shows of an entry (R217): 0xFFFF for a copy, and for a GCSR the tile in turn (R321). -/
def shownStep (i : Instr) (step : Nat) : Nat :=
  match i with
  | .ccopy .. | .cfill .. | .cmov .. => 0xFFFF
  | _ => step

/-- The layout of R217: STEP, bits 47:5 of the line, the lane, VALID. -/
def tmpcWord (step : Nat) (line : Word) (lane : Nat) : Word :=
  BitVec.ofNat 64 (step % 2 ^ 16 * 2 ^ 48 + line.toNat / 32 % 2 ^ 43 * 32 + lane % 8 * 4 + 2)

/-- TMPC of a queue from its head entry: a fence is an entry too. -/
def tmpcOf (q : EngQ) : Word :=
  match q.entries with
  | .instr i c :: _ => tmpcWord (shownStep i q.step) c.line c.lane
  | .fence f :: _ => tmpcWord 0 f.line f.lane
  | [] => 0

/-- A begun link command that an error response has frozen. -/
def LeEnt.isHeld (x : LeEnt) : Bool := match x.cmd with | .msg _ .held => true | _ => false

/-- The begun link command that TMPC5 names at a trap (R210): the faulting one of a freeze of the LE, which is none of
them where the entry at the queue's head is at fault; else the oldest. -/
def Core.leNamed (c : Core) (t : TrapReq) : Option LeEnt :=
  if t.code = 0x0F && t.eng == .le then c.cpy.le.find? LeEnt.isHeld else c.cpy.le.head?

/-- The VLDG with parked elements that TMPC2 names at a trap (R210, R219): it is older than the entries of the queue, of
which the head is named where it has raised the trap. -/
def Core.veNamed (c : Core) (t : TrapReq) : Option Owed :=
  if t.eng == .ve && t.code != 0x18 && !(vget c.eng.queues 2 EngQ.empty).entries.isEmpty then none
  else c.vec.owed.find? fun x => c.vec.parked.any fun p => p.id == x.id

/-- The queue of an engine as TMPC shows it: while the ME replays squashed tiles, its step is the rung (R217). -/
def Core.shownQueue (c : Core) (e : Nat) : EngQ :=
  let q := vget c.eng.queues e EngQ.empty
  match (if e = 1 then c.me.work else none) with
  | some w => if w.tile.isNone && !w.nest && !w.replays.isEmpty then { q with step := w.rung } else q
  | none => q

/-- TMPC of an engine at a trap, from its oldest uncompleted entry, or from its faulting one (R210, R217): a link
command, and a VLDG with parked elements, stay uncompleted after they have left the queue. -/
def Core.tmpc (c : Core) (t : TrapReq) (e : Nat) : Word :=
  match (if e = 5 then c.leNamed t else none), (if e = 2 then c.veNamed t else none) with
  | some x, _ => tmpcWord 0 x.line x.lane
  | none, some x => tmpcWord 0 x.line x.lane
  | none, none => tmpcOf (c.shownQueue e)

def pcOf (line : Word) (lane : Nat) : Word :=
  BitVec.ofNat 64 (line.toNat / 32 * 32 + lane % 8 * 4)

/-- The nest position as NEST0 to NEST5 read it (R169). -/
def nestRegs (m : Matrix) : Vector Word 6 :=
  vgen 6 fun i =>
    BitVec.ofNat 64 ((vget m.act i NestLevel.zero).count.toNat * 2 ^ 16 + (vget m.idx i 0).toNat)

/-- A response of the mailbox is ready: its words, the state of the mailbox, and MSI-X vector 0 (R263). -/
def State.respond (s : State) (ws : List Word) : State :=
  ({ s with host := { s.host with mbrsp := vofList 32 ws 0, mbstat := 2 } } : State).signal 0

/-- A double fault stops the core with its state frozen; it is logged and reported (R214). A PREEMPT that the core can
no longer finish is answered as refused, so that the mailbox is free for the restart (DESIGN CHOICE, log entry 31). -/
def State.doubleFault (s : State) : State :=
  let s' := (s.updWork fun w => { w with run := .doubleFault, preempt := none }).logEvent 5 0 s.core.fetch.line 0
    s.core.ctx .cc
  if s.core.work.preempt.isSome || s.core.work.preempting.isSome then s'.respond [1] else s'

/-- What the resumption of a lane needs to know of the line it left (R82, R93, R254). -/
def Fetch.midLine (f : Fetch) (line : Word) (lane : Nat) : MidLine :=
  if line = f.line then
    { pc := pcOf line lane, opened := f.opened, skip := f.skip, moved := if lane = f.lane then f.moved else 0 }
  else { pc := pcOf line lane, opened := false, skip := none, moved := 0 }

/-- Trap entry (R211): the saved registers, supervisor mode, and fetch at TVB. `line` and `lane` are the
first control-core lane not executed. A trap while INH is 1 or TVB is 0 is a double fault (R214). -/
def State.enterTrap (s : State) (t : TrapReq) (line : Word) (lane : Nat) : State :=
  if s.core.trap.tvb = 0 || s.core.trap.inh then s.doubleFault
  else s.upd fun c =>
    let lr := loopRegs c.fetch.loops
    { c with
      trap := { c.trap with
        tcode := BitVec.ofNat 64 t.code, tinfo := t.info, tpc := pcOf line lane, inh := true,
        abort := false, eng := t.eng, frz := t.code != 0x18, psup := c.regs.sup, tq := c.regs.q,
        tmpc := vgen 6 fun i =>
          if i = 0 then BitVec.ofNat 64 ((pcOf line lane).toNat % 2 ^ 48) else c.tmpc t i,
        nest := nestRegs c.me, tloop := lr.1, tlbody := lr.2, activeSaved := c.eng.active,
        scSaved := c.fetch.scDone, mid := c.fetch.midLine line lane }
      regs := { c.regs with sup := true }
      eng := { c.eng with active := 0 }
      fetch := { c.fetch with line := c.trap.tvb, lane := 1, opened := false, first := true,
                              resume := false, entered := false, draining := false, loops := [],
                              skip := none, stalled := false, waited := false, moved := 0 }
      opened := [], scWait := none, bcmFixed := [], snapFrozen := false }

/-- The lane number in TINFO bits 2:0. -/
def State.laneInfo (s : State) (info : Word) : Word := info ||| BitVec.ofNat 64 (s.core.fetch.lane % 8)

/-- A synchronous trap of the lane in progress: TPC names it. -/
def State.syncTrap (s : State) (code : Nat) (info : Word) : State :=
  s.enterTrap { code, info, eng := .cc } s.core.fetch.line s.core.fetch.lane

/-- How a control-core lane ends: completed, waiting, or trapped with a code and detail of R215 (the lane
number is added here, but for WHEEL_SLOT, whose detail has none). -/
inductive Res
  | done (s : State)
  | stall (s : State)
  /-- a wait that counts nothing -/
  | wait (s : State)
  /-- the lane ends in the state given, which says where control goes -/
  | goes (s : State)
  | trap (code : Nat) (info : Word) (s : State)

def finish : Res → Out
  | .done s => .next s.advance
  | .stall s => .next s.stallLane
  | .wait s => .next s
  | .goes s => .next s
  | .trap code info s =>
    .next (s.syncTrap code (if code = 0x14 then info else s.laneInfo info))

/-- ILLEGAL with a reason (R69). -/
def illegalInfo (reason : Nat) : Word := BitVec.ofNat 64 (reason * 256)

/-- A supervisor-only instruction in user mode raises PRIV (R86). -/
def privileged (s : State) (r : Res) : Res := if s.core.regs.sup then r else .trap 0x02 0 s

-- Places of memory (R114, R130).

def State.padAt (s : State) : Loc → Pad
  | .u c => vget s.upads c { mem := [], bad := [] }
  | .k c => vget s.kpads c { mem := [], bad := [] }
  | .d c => vget s.dpads c { mem := [], bad := [] }
  | .g => s.gmem

def State.setPad (s : State) (l : Loc) (p : Pad) : State :=
  match l with
  | .u c => { s with upads := vset s.upads c p }
  | .k c => { s with kpads := vset s.kpads c p }
  | .d c => { s with dpads := vset s.dpads c p }
  | .g => { s with gmem := p }

/-- ECC granules (R130). -/
def Loc.granule : Loc → Nat
  | .g => 32
  | _ => 8

/-- The performed value of a byte. -/
def State.byteAt (s : State) (l : Loc) (a : Nat) : Byte := readByte (s.padAt l).mem a

/-- HOLD of a buffer (R118): the commands that hold it. -/
def State.holdCount (s : State) (ctx : Fin 64) (entry : Nat) : Nat :=
  (s.holds.filter fun h => h.2.1 == ctx && h.2.2.1 == entry).length

/-- A byte of word 3 of a buffer-table entry, which hardware maintains: HOLD and reserved zeros (R118). -/
def State.holdByte (s : State) (a : Nat) : Option Byte :=
  (List.finRange 64).findSome? fun c => match s.ctxs[c] with
    | some x =>
      let o := a - x.table.toNat
      if x.table.toNat ≤ a && decide (o < 32 * x.size) && decide (24 ≤ o % 32) then
        some (BitVec.ofNat 8 (s.holdCount c (o / 32) % 2 ^ 32 / 256 ^ (o % 32 - 24)))
      else none
    | none => none

/-- What a read finds where nothing is pending: the performed value, or a table's HOLD (R118). -/
def State.seenByte (s : State) (l : Loc) (a : Nat) : Byte :=
  if l = .g then (s.holdByte a).getD (s.byteAt l a) else s.byteAt l a

/-- The newest pending byte of a core's thread at a place (R142). -/
def pendByte (pend : List Pending) (l : Loc) (a : Nat) : Option Byte :=
  pend.reverse.findSome? fun p => if p.loc = l then List.lookup a p.cells else none

/-- What the acting core's thread reads: its own newest store, or the performed value (R142). -/
def State.threadByte (s : State) (l : Loc) (a : Nat) : Byte :=
  (pendByte s.core.pend l a).getD (s.seenByte l a)

/-- The first of some addresses in a poisoned or marked granule, with the mark's code. -/
def State.firstBad (s : State) (l : Loc) (as : List Nat) : Option (Nat × Option Nat) :=
  as.findSome? fun a => (smapGet (s.padAt l).bad (a / l.granule)).map fun m => (a, m)

/-- As `firstBad`, for the acting core's thread: a granule its pending stores cover whole is clear. -/
def State.threadBad (s : State) (l : Loc) (as : List Nat) : Option (Nat × Option Nat) :=
  s.firstBad l (as.filter fun a =>
    !((List.range l.granule).all fun i =>
        (pendByte s.core.pend l (a / l.granule * l.granule + i)).isSome))

/-- The first address of a store in a bad granule that the store does not cover whole (R132). -/
def State.partialBad (s : State) (l : Loc) (as : List Nat) : Option (Nat × Option Nat) :=
  s.threadBad l (as.filter fun a =>
    !((List.range l.granule).all fun i => as.contains (a / l.granule * l.granule + i)))

/-- Bytes put into a memory with granules of a size; a granule they cover whole is clear afterwards (R131,
R202). -/
def Pad.put (p : Pad) (gran : Nat) (cells : List Host.Cell) : Pad :=
  { mem := writeCells p.mem cells
    bad := p.bad.filter fun g =>
      !((List.range gran).all fun i => cells.any fun c => c.1 == g.1 * gran + i) }

/-- A 2-KiB unit of global memory is dead no more once it is written: its other bytes are zeros already (R129). -/
def State.revive (s : State) (l : Loc) (as : List Nat) : State :=
  if l = .g then { s with dead := s.dead.filter fun u => !(as.any fun a => a / 2048 == u) } else s

/-- Bytes performed at a place. -/
def State.perform (s : State) (l : Loc) (cells : List Host.Cell) : State :=
  (s.setPad l ((s.padAt l).put l.granule cells)).revive l (cells.map Prod.fst)

/-- The VE's stores that are not performed everywhere. -/
def Core.vePend (c : Core) : List Pending := c.pend.filter fun p => p.ve

/-- A place as the acting core's engines find it: its VE's stores are performed at core scope in queue order
(R149). -/
def State.corePad (s : State) (l : Loc) : Pad :=
  (s.core.vePend.filter fun p => p.loc == l).foldl (fun q p => q.put l.granule p.cells) (s.padAt l)

def State.coreByte (s : State) (l : Loc) (a : Nat) : Byte :=
  (pendByte s.core.vePend l a).getD (s.seenByte l a)

/-- As `firstBad`, for the acting core's engines. -/
def State.coreBad (s : State) (l : Loc) (as : List Nat) : Option (Nat × Option Nat) :=
  as.findSome? fun a => (smapGet (s.corePad l).bad (a / l.granule)).map fun m => (a, m)

/-- A mark or lasting poison set on the granules of a range (R131, R201). -/
def State.setBad (s : State) (l : Loc) (as : List Nat) (m : Option Nat) : State :=
  let p := s.padAt l
  s.setPad l { p with bad := (as.map (· / l.granule)).foldl (fun b g => smapPut b g m) p.bad }

/-- A local address of w bytes, as a place and an offset; none outside the space (R114, R115). -/
def State.localAddr (s : State) (sp : Space) (a : Word) (n : Nat) : Option (Loc × Nat) :=
  match sp with
  | .u => if a.toNat + n ≤ 0x300000 then some (.u s.cur, a.toNat) else none
  | .n =>
    if a.toNat < 2 ^ 24 && a.toNat % 2 ^ 22 + n ≤ 0x300000 then
      some (.u (s.cluster * 4 + a.toNat / 2 ^ 22), a.toNat % 2 ^ 22)
    else none
  | .k => if a.toNat + n ≤ 0x1000000 then some (.k s.cluster, a.toNat) else none
  | .d => if a.toNat + n ≤ 0x8000000 then some (.d s.die, a.toNat) else none
  | .g => none

/-- TINFO's address field for a local space (R215). -/
def infoLocal (a : Word) : Word := a <<< 16
/-- TINFO's address field for G: bits 63:16 of the global address (R215). -/
def infoG (a : Word) : Word := BitVec.ofNat 64 (a.toNat / 2 ^ 16 * 2 ^ 16)

-- Holds (R123) and pending stores (R141, R143).

def State.addHold (s : State) (ctx : Fin 64) (entry : Nat) (post : Bool) : State :=
  { s with holds := s.holds ++ [(s.nextHold, ctx, entry, post)], nextHold := s.nextHold + 1 }

def State.dropHolds (s : State) (ids : List Nat) : State :=
  { s with holds := s.holds.filter fun h => !(ids.contains h.1) }

/-- A store of the acting core's thread is posted (R356): an access of its own. -/
def State.post (s : State) (p : Pending) : State :=
  s.upd fun c => { c with pend := c.pend ++ [{ p with num := c.pendNum, acc := c.pendNum }],
                          pendNum := c.pendNum + 1 }

/-- The elements of one access are posted (R378). -/
def State.postAll (s : State) (ps : List Pending) : State :=
  s.upd fun c =>
    { c with
      pend := c.pend ++ ps.zipIdx.map fun p => { p.1 with num := c.pendNum + p.2, acc := c.pendNum }
      pendNum := c.pendNum + ps.length }

/-- One pending store is performed. -/
def State.performOne (s : State) (p : Pending) : State :=
  (s.perform p.loc p.cells).dropHolds p.hold.toList

/-- Every pending store of core i that satisfies a test is performed, oldest first. -/
def State.performAt (s : State) (i : Nat) (test : Pending → Bool) : State :=
  let ps := (s.coreAt i).pend
  let s' := (ps.filter test).foldl State.performOne s
  s'.updAt i fun c => { c with pend := ps.filter fun p => !test p }

/-- The same for the acting core. -/
def State.performWhere (s : State) (test : Pending → Bool) : State := s.performAt s.cur test

/-- Classes of a mask (R144). -/
def inMask (m : BitVec 16) (p : Pending) : Bool := m.getLsbD p.cls.val

/-- Accesses that R143 keeps in program order with one of engine, class and space. -/
def sameOrder (ve : Bool) (cls : Fin 16) (sp : Space) (p : Pending) : Bool :=
  p.ve == ve && p.cls == cls && p.space == sp

/-- Two stores to a byte whose order is fixed, whatever their classes: those of the VE are performed in queue order
(R149), and those of deterministic lines in the order of every run (R253). -/
def Pending.meets (x y : Pending) : Bool :=
  ((x.ve && y.ve) || (x.det && y.det)) && x.loc == y.loc && x.cells.any fun c => y.cells.any fun d => d.1 == c.1

/-- Store x, older than y, is performed no later than y: R143's order, or that of two stores to one place (R149, R253). -/
def Pending.goesBefore (x y : Pending) : Bool := sameOrder y.ve y.cls y.space x || x.meets y

/-- The stores of a list that a test names, with all that go before them. -/
def withEarlier (test : Pending → Bool) : List Pending → List Pending
  | [] => []
  | x :: r =>
    let l := withEarlier test r
    if test x || l.any x.goesBefore then x :: l else l

/-- A store that a test names, or one that goes before such a store (R143, R149). -/
def Core.upTo (c : Core) (test : Pending → Bool) (p : Pending) : Bool :=
  (withEarlier test c.pend).contains p

/-- An engine of the core is about to write some bytes: the VE's stores to them are performed, with those that R143
puts before them (R149). -/
def State.settleVe (s : State) (l : Loc) (as : List Nat) : State :=
  let hit (p : Pending) : Bool := p.ve && p.loc == l && p.cells.any fun c => as.contains c.1
  if s.core.pend.any hit then s.performWhere (s.core.upTo hit) else s

/-- Bytes that an engine of the acting core writes. -/
def State.enginePerform (s : State) (l : Loc) (cells : List Host.Cell) : State :=
  (s.settleVe l (cells.map Prod.fst)).perform l cells

-- The end of an invocation, and the return from a trap (R42, R213).

def EngQ.seqs (q : EngQ) : List Nat :=
  (q.entries.map fun e => match e with
    | .instr _ c => (match c.copy with | some k => k.holds | none => [])
    | .fence _ => []).flatten

/-- All bank-conflict counters are copied when a loop ends (R256); a copied value is drawn when it is first
looked at (log entry 20), but for one that a frozen handler has looked at. -/
def Core.snapBcm (c : Core) : Core :=
  let still := c.trap.inh && c.trap.frz
  { c with
    bcmSnap := if still then c.bcm.filter fun x => c.bcmFixed.contains x.1 else []
    snapOpen := true, snapFrozen := still }

/-- What the end of an invocation does to its core (R42, R82): tokens and queues discarded, engines inactive, and no
loop; loops that end so fill BCMSNAP (R256). An armed debug stop waits for the next entry of its region (R254). A lease
trap on its way was for the control thread that ends (R248). -/
def Core.endInvocation (c : Core) : Core :=
  let c := if c.fetch.loops.isEmpty then c else c.snapBcm
  { c with
    eng := { c.eng with active := 0, queues := Vector.replicate 6 EngQ.empty,
                        tokens := Vector.replicate 36 0 }
    fetch := { c.fetch with loops := [], skip := none, opened := false }
    vec := { c.vec with owed := [], gathered := none }
    cpy := { c.cpy with seen := [] }
    me := { c.me with work := none }
    opened := [], scWait := none, leaseTraps := []
    work := { c.work with dbgFrom := none } }

/-- The hold of a result that may still change. -/
def Late.hold (o : Late) : Option Nat :=
  match o.op with
  | .load x | .atomic x _ _ => x.hold
  | .srd .. | .sprint .. | .arrived _ => none

/-- The holds of a core's queued and unfinished copies, of its parked elements, and of its accesses that are not
performed. -/
def Core.copyHolds (c : Core) : List Nat :=
  (c.eng.queues.toList.map EngQ.seqs).flatten ++
  (c.cpy.channels.toList.map fun ch =>
    (match ch.cur with | some r => r.copy.holds | none => []) ++
    (ch.waiting.map fun k => k.holds).flatten).flatten ++
  (c.vec.parked.map fun p => p.hold.toList).flatten ++
  (match c.vec.gathered with | some g => g.hold.toList | none => []) ++
  (c.opened.map fun o => o.hold.toList).flatten ++
  (match c.scWait with | some w => w.hold.toList | none => [])

/-- A core of a command block's core mask (R29). -/
def imgHas (img : Vector Word 16) (c : Nat) : Bool :=
  if c < 64 then img[4].getLsbD c else img[5].getLsbD (c - 64)

/-- The participating cores, in ascending order (R34). -/
def Node.parts (n : Node) : List Nat := (List.range 128).filter (imgHas n.img)

/-- A core's bit in a node's mask. -/
def imgMask (img : Vector Word 16) : BitVec 128 := BitVec.ofNat 128 (img[5].toNat * 2 ^ 64 + img[4].toNat)

/-- The run of a node: a pushed node has a number of its own, and its run is that of the core that holds it
(R252). -/
def AfaddRun.isFor (r : AfaddRun) (n : Node) : Bool := r.launch == n.launch && r.index == n.index

def AfaddRun.new (core : Nat) (n : Node) : AfaddRun :=
  { launch := n.launch, index := n.index,
    owner := if n.launch = 0 then some core else none,
    mask := if n.launch = 0 then BitVec.ofNat 128 (2 ^ core) else imgMask n.img,
    ended := 0, adds := [], applied := false }

/-- The run of deterministic AFADDs of a node, in which one more participant has ended (R252); the only one of a
pushed node is the core that holds it. A run without an add that has closed is dropped. -/
def State.endRun (s : State) (n : Node) (i asCore : Nat) : State :=
  let mark (x : AfaddRun) : AfaddRun :=
    { x with ended := if n.launch = 0 then x.mask else x.ended ||| BitVec.ofNat 128 (2 ^ asCore) }
  let runs := if s.runs.any fun x => x.isFor n then s.runs.map fun x => if x.isFor n then mark x else x
    else s.runs ++ [mark (AfaddRun.new i n)]
  { s with runs := runs.filter fun x => !(x.adds.isEmpty && x.mask &&& ~~~x.ended == 0) }

/-- A launch's node is known by its number in the walk; a pushed node by its image, which is one on every core that
it is pushed to (R154, R273, log entry 19). -/
def Node.same (n : Node) (launch index : Nat) (img : Vector Word 16) : Bool :=
  n.launch == launch && (if n.launch = 0 then n.img == img else n.index == index)

/-- An aborted invocation's link commands are not performed: what they have sent and has taken no effect yet is dropped,
and the core's arrivals at the pod barriers of its node that have not gone out are taken back (R213). -/
def State.recallLinks (s : State) : State :=
  let mine (m : LinkMsg) : Bool := m.srcPkg == s.links.id && m.core == s.cur.val &&
    s.core.cpy.le.any fun x => match x.cmd with | .msg k _ => k.seq == m.seq | _ => false
  let left (b : PodBar) : PodBar := match s.core.work.cur with
    | some p => if p.node.same b.launch b.index b.img && !b.sent then
        { b with arrived := b.arrived.filter fun c => c != s.cur.val } else b
    | none => b
  { s with links := { s.links with
      inbox := s.links.inbox.filter fun m => !(mine m)
      outbox := s.links.outbox.filter fun m => !(mine m)
      gathers := s.links.gathers.filter fun m => !(mine m)
      bars := (s.links.bars.map left).filter fun b => !b.arrived.isEmpty } }

/-- The record slots of an aborted invocation are free again (log entry 32). -/
def State.dropRecords (s : State) (p : Progress) : State :=
  let clear (r : List RecSt) : Option Nat → List RecSt
    | some i => r.set i .free
    | none => r
  { s with staged := s.staged.map fun x =>
      if x.die == s.die && x.launch == p.node.launch && x.index == p.node.index then
        { x with rings := x.rings.zipIdx.map fun r =>
            if r.2 = p.stage then clear r.1 p.inRec
            else if r.2 = p.stage + 1 then clear r.1 p.outRec else r.1 }
      else x }

/-- ERET with ABORT (R213): the invocation is given up, its copies, link commands and parked elements dropped and their
holds released, and its traps with it; the core has ended its last invocation for the node's run of AFADDs (R252); the
node stays at the head, held, and the abort is logged and reported as a node error is. -/
def State.abortInvocation (s : State) : State :=
  let hs := s.core.copyHolds
  let s := ((s.performWhere fun _ => true).dropHolds hs).recallLinks
  let s := match s.core.work.cur with
    | some p => s.endRun p.node s.cur (p.node.parts.getD p.j s.cur)
    | none => s
  let s := s.upd fun c =>
    { (c.endInvocation) with
      trap := { c.trap with pending := [] }
      vec := { c.vec with parked := [], owed := [], gathered := none }
      cpy := { c.cpy with channels := Vector.replicate 9 { cur := none, waiting := [] },
                          fills := [], overwritten := [], seen := [], errs := [], le := [] } }
  let ctx := s.core.ctx
  let s := match s.core.work.cur with | some p => s.dropRecords p | none => s
  let s := s.updWork fun w =>
    match w.cur with
    | some p =>
      { w with
        cur := none, run := .idle,
        queues := vset w.queues p.q
          (let q := vget w.queues p.q { nodes := [], seq := 0, head := Head.fresh 0 }
           { q with head := { q.head with held := some 8 } }) }
    | none => { w with run := .idle }
  (s.logEvent 10 2 8 0 ctx.val .cc).signal 2

/-- Where fetch resumes after a handler: TPC's lane of TPC's line. In the line that was interrupted, what its lanes
had left to come still holds (R82, R93, R254). -/
def Fetch.resumeAt (f : Fetch) (t : TrapRegs) : Fetch :=
  let same := t.tpc.toNat / 32 == t.mid.pc.toNat / 32
  { f with
    line := BitVec.ofNat 64 (t.tpc.toNat / 32 * 32), lane := t.tpc.toNat / 4 % 8,
    opened := false, first := false, resume := true, entered := same && t.mid.opened, draining := false,
    stalled := false, waited := false, skip := if same then t.mid.skip else none,
    moved := if t.tpc = t.mid.pc then t.mid.moved else 0, loops := loopsOf t.tpc t.tloop t.tlbody,
    -- an access that met WHEEL_SLOT waits as a first access of a region (R348)
    scDone := t.scSaved && t.tcode != 0x14, wheelWait := false }

/-- A message that an error response froze is to be issued again. -/
def LeCmd.released : LeCmd → LeCmd
  | .msg m .held => .msg m .again
  | .msg m st => .msg m st
  | .bar b r => .bar b r
  | .null => .null

/-- The handler of a COPY_FREEZE has returned: the command that its TINFO names issues its element again (R218). -/
def Copies.released (c : Copies) (t : TrapRegs) : Copies :=
  if t.tcode ≠ 0x0F then c
  else
    { c with
      channels := c.channels.map fun ch =>
        { ch with cur := ch.cur.map fun r =>
            if r.froze = some t.tinfo then
              { r with err := none, froze := none, again := match r.err with | some x => x.1 == 2 | none => false }
            else r }
      le := if t.eng = .le then c.le.map fun x => { x with cmd := x.cmd.released } else c.le }

/-- The return from a trap (R213, R318). -/
def State.returnFromTrap (s : State) : State :=
  let t := s.core.trap
  let s := s.performWhere fun _ => true
  let s := s.updTrap fun r => { r with inh := false, frz := false }
  if s.core.work.preempting.isSome then
    -- the pre-emption handler's ERET leaves the core idle, and the management core answers (R224)
    ((s.updRegs fun r => { r with sup := t.psup }).updWork fun w =>
      { w with preempting := none, run := .idle }).respond [0]
  else if t.abort then
    (s.updRegs fun r => { r with sup := t.psup }).abortInvocation
  else
    s.upd fun c =>
      { c with
        regs := { c.regs with q := t.tq, sup := t.psup }
        eng := { c.eng with active := if t.inh then t.activeSaved else c.eng.active }
        cpy := c.cpy.released t
        fetch := c.fetch.resumeAt t, snapFrozen := false, bcmFixed := [] }

-- Where the control thread goes next (R58, R82).

def LoopEnt.lastLine (l : LoopEnt) : Word := l.first + BitVec.ofNat 64 (32 * (l.len - 1))

/-- At the end of a line in sequence (R82, R328, R394): of the loops that end there, the innermost goes round or ends, and
when it ends the next one out is tested. A loop whose body ends elsewhere stays as it is. The list is outermost first.
Answers the remaining loops, the next line, and whether a loop ended. -/
def loopAdvance (line : Word) (ls : List LoopEnt) : List LoopEnt × Word × Bool :=
  let r := go ls.reverse
  (r.1, r.2.1.getD (line + 32), r.2.2)
where
  go : List LoopEnt → List LoopEnt × Option Word × Bool
    | [] => ([], none, false)
    | l :: outer =>
      if l.lastLine = line then
        if l.left = 0 then let r := go outer; (r.1, r.2.1, true)
        else (outer.reverse ++ [{ l with left := l.left - 1 }], some l.first, false)
      else let r := go outer; (r.1 ++ [l], r.2.1, r.2.2)

/-- The line after the one in progress, in sequence, with the loop state after it. A LOOP of count 0 goes on at the
line after its body and touches no loop around it, also where that body ends on the last line of the body around it
(DESIGN CHOICE, log entry 46). -/
def Core.nextLine (c : Core) : Core :=
  let c' : Core :=
    match c.fetch.skip with
    | some t => { c with fetch := { c.fetch with line := t, skip := none } }
    | none =>
      let r := loopAdvance c.fetch.line c.fetch.loops
      let c1 : Core := { c with fetch := { c.fetch with line := r.2.1, loops := r.1 } }
      if r.2.2 then c1.snapBcm else c1
  { c' with fetch := { c'.fetch with lane := 1, opened := false, stalled := false, waited := false,
                                     resume := false, entered := false } }

/-- A target inside a loop's body (R82). -/
def LoopEnt.covers (l : LoopEnt) (t : Word) : Bool :=
  l.first.toNat ≤ t.toNat && t.toNat ≤ l.lastLine.toNat

/-- A transfer of control within the program: JMP and a taken BR end the loops they leave, innermost
first (R82). -/
def Core.leaveLoops (c : Core) (t : Word) : Core :=
  let kept := (c.fetch.loops.reverse.dropWhile fun l => !(l.covers t)).reverse
  let c' : Core := { c with fetch := { c.fetch with loops := kept } }
  if kept.length = c.fetch.loops.length then c else c'.snapBcm

/-- Fetch continues at lane 1 of a line. What a LOOP of count 0 earlier in the line has skipped is dropped, a case that R82
does not name (DESIGN CHOICE, log entry 46). -/
def Core.goTo (c : Core) (t : Word) : Core :=
  { c with fetch := { c.fetch with line := t, lane := 1, opened := false, skip := none,
                                   stalled := false, waited := false, resume := false, entered := false } }

/-- The target of a displacement of R58. -/
def Core.target (c : Core) (disp : BitVec 21) : Word := c.fetch.line + sext 21 disp * 32

end Sys2Proof.Machine
end

