-- ==== Sys2Proof/Machine/Operands.lean ====
section
/-! DEFINITION. Operand values, widths, effective addresses (R59-R61, R325) and the translation of global
addresses (R117-R125). -/
namespace Sys2Proof.Machine

/-- The value of a source field (R59). -/
def Regs.operand (r : Regs) : Opnd → Word
  | .q i => r.q[i]
  | .n i => r.n[i]

def State.operand (s : State) (o : Opnd) : Word := s.core.regs.operand o

/-- Bytes of an access width (R60). -/
def widthBytes : Width → Nat
  | .byte => 1 | .half => 2 | .word => 4 | .dbl => 8

def xspace : XSpace → Space
  | .k => .k | .d => .d | .g => .g

def cspace : CSpace → Space
  | .k => .k | .d => .d | .g => .g | .u => .u

/-- Codes of a space in HAZ, COPY_FREEZE and the error log: those of SSP, and 4 for N (R134). -/
def spaceCode : Space → Nat
  | .k => 0 | .d => 1 | .g => 2 | .u => 3 | .n => 4

/-- The address field of TINFO (R215). -/
def infoAddr (sp : Space) (a : Word) : Word := if sp = .g then infoG a else infoLocal a

/-- The effective address of the M format (R61): for G the sum stays in bits 47:0, and a carry out of bit
47 or a borrow into it is reported. -/
def effective (sp : Space) (base : Word) (off : BitVec 10) (w : Width) : Word × Bool :=
  if sp = .g then
    let sum : Int := (base.toNat % 2 ^ 48 : Nat) + off.toInt * widthBytes w
    (BitVec.ofNat 64 (base.toNat / 2 ^ 48 * 2 ^ 48 + (sum % 2 ^ 48).toNat),
     decide (sum < 0) || decide (2 ^ 48 ≤ sum))
  else (base + sext 10 off * BitVec.ofNat 64 (widthBytes w), false)

-- Buffer tables (R117, R118).

/-- A 64-bit word of global memory by physical address. -/
def State.gWord (s : State) (pa : Nat) : Word := BitVec.ofNat 64 (leNat (readBytes s.gmem.mem pa 8))

/-- The physical address of word w of an entry of a context's table; none beyond the table. -/
def State.entryAddr (s : State) (ctx : Fin 64) (entry w : Nat) : Option Nat :=
  match s.ctxs[ctx] with
  | some c => if entry < c.size then some (c.table.toNat + 32 * entry + 8 * w) else none
  | none => none

/-- The kinds of access that the rights table of R120 tells apart. -/
inductive GKind
  | load | store
  /-- AADD, of width 3 or not -/
  | aadd (dbl : Bool)
  | rmw | counter | spec | extWrite | extPost
  /-- the loader's own path, which needs no right (R287) -/
  | loader
  deriving DecidableEq, Repr

/-- What R120 answers for the rights RWCSP (bits 0 to 4): a trap code, or none when the access is allowed.
For an access from outside the package every refusal is a port violation. -/
def rightsFault (k : GKind) (r : BitVec 5) : Option Nat :=
  let R := r.getLsbD 0; let W := r.getLsbD 1; let C := r.getLsbD 2
  let S := r.getLsbD 3; let P := r.getLsbD 4
  match k with
  | .load => if R || C then none else some 0x06
  | .store => if C then some 0x12 else if W then none else some 0x06
  | .aadd dbl =>
    if C then (if dbl then none else some 0x12) else if R && W then none else some 0x06
  | .rmw => if C then some 0x12 else if R && W then none else some 0x06
  | .counter => if C then none else some 0x06
  | .spec => if R && S then none else some 0x06
  | .extWrite => if !C && W && P then none else some 0x06
  | .extPost => if C && P then none else some 0x06
  | .loader => none

/-- What a failed access reports: code, TINFO's address field, and, where the port refused it, the physical
address. -/
structure Bad where
  code : Nat
  info : Word
  port : Option Nat
  deriving DecidableEq, Repr

def wordRights (w2 : Word) : BitVec 5 := w2.extractLsb' 0 5
def wordValid (w2 : Word) : Bool := w2.getLsbD 5
def wordOwner (w2 : Word) : Nat := w2.toNat / 2 ^ 36 % 64
def wordGran (w2 : Word) : Nat := w2.toNat / 2 ^ 44 % 16
def wordTier (w2 : Word) : Nat := w2.toNat / 2 ^ 42 % 4
def wordSmask (w2 : Word) : Nat := w2.toNat / 2 ^ 48

/-- What the buffer table and the frame map hold for a page of a buffer; none beyond the table. -/
def State.tablePage (s : State) (ctx : Fin 64) (buf page : Nat) : Option Cached :=
  (s.entryAddr ctx buf 0).map fun pa =>
    { ctx, buf, page, word2 := s.gWord (pa + 16), len := (s.gWord (pa + 8)).toNat % 2 ^ 48
      desc := s.gWord ((s.gWord pa).toNat / 8 * 8 + 8 * page) }

/-- The words of a buffer table and a frame map that translate a page stand in a poisoned granule: reading them gives an
error response (R131). -/
def State.tableBad (s : State) (ctx : Fin 64) (buf page : Nat) : Bool :=
  match s.entryAddr ctx buf 0 with
  | none => false
  | some pa =>
    let desc := (s.gWord pa).toNat / 8 * 8 + 8 * page
    (s.firstBad .g ((List.range 24).map (pa + ·))).isSome || (s.firstBad .g ((List.range 8).map (desc + ·))).isSome

/-- A page of a translation cache. -/
def cachedPage (cache : List Cached) (ctx : Fin 64) (buf page : Nat) : Option Cached :=
  cache.find? fun x => x.ctx == ctx && x.buf == buf && x.page == page

/-- The page in a translation cache, or else in memory (R124). -/
def State.pageOf (s : State) (cache : List Cached) (ctx : Fin 64) (buf page : Nat) : Option Cached :=
  match cachedPage cache ctx buf page with
  | some x => some x
  | none => s.tablePage ctx buf page

/-- The pages that byte ranges of a buffer touch. -/
def rangePages (ranges : List (Nat × Nat)) : List Nat :=
  (ranges.map fun r =>
    if r.2 = 0 then [] else
      (List.range ((r.1 + r.2 - 1) / 65536 - r.1 / 65536 + 1)).map (r.1 / 65536 + ·)).flatten.eraseDups

/-- A byte range passes the LEN of a page that it touches, or, when it is empty, that of the first page. -/
def passesLen (pages : List Cached) (r : Nat × Nat) : Option Nat :=
  (pages.find? fun x =>
    if r.2 = 0 then decide (x.len < r.1)
    else decide (r.1 / 65536 ≤ x.page) && decide (x.page ≤ (r.1 + r.2 - 1) / 65536) &&
      decide (x.len < min (r.1 + r.2) ((x.page + 1) * 65536))).map fun x => max r.1 x.len

/-- Translation of byte ranges of one buffer (R123), with a translation cache: entry, OWNER, rights and LEN, then
PRESENT of each page; COUNTER_RIGHTS comes after every other failure (R292). A page whose table words are poisoned is a
read of poison (R131): MEM_POISON, before every check of what they hold. `a` is an address of the buffer; the ranges are
offsets and lengths, and a failure names the first address that meets it. An empty range touches no page, yet the entry
of its buffer is checked, and a start beyond LEN fails: a copy of COUNT 0 is such a range (DESIGN CHOICE, log entry
70). -/
def State.translateIn (s : State) (cache : List Cached) (ctx : Fin 64) (k : GKind) (a : Word)
    (ranges : List (Nat × Nat)) : Except Bad Xlat :=
  let buf := a.toNat / 2 ^ 48
  let first := match ranges with | r :: _ => r.1 | [] => a.toNat % 2 ^ 48
  let bad (code : Nat) (off : Nat) : Except Bad Xlat :=
    .error ⟨code, infoG (BitVec.ofNat 64 (buf * 2 ^ 48 + off % 2 ^ 48)), none⟩
  let touched := rangePages ranges
  let asked := if touched.isEmpty then [first / 65536] else touched
  match asked.find? fun p => (cachedPage cache ctx buf p).isNone && s.tableBad ctx buf p with
  | some p => bad 0x0D (max first (p * 65536))
  | none =>
  match asked.mapM (s.pageOf cache ctx buf) with
  | none => bad 0x05 first
  | some ps =>
    let at_ (x : Cached) : Nat := max first (x.page * 65536)
    match ps.find? fun x => !(wordValid x.word2) with
    | some x => bad 0x05 (at_ x)
    | none =>
      match ps.find? fun x => decide (wordOwner x.word2 ≠ ctx.val) ||
          rightsFault k (wordRights x.word2) == some 0x06 with
      | some x => bad 0x06 (at_ x)
      | none =>
        match ranges.findSome? (passesLen ps) with
        | some off => bad 0x07 off
        | none =>
          match ps.find? fun x => touched.contains x.page && !(x.desc.getLsbD 63) with
          | some x => bad 0x05 (at_ x)
          | none =>
            match ps.findSome? fun x => rightsFault k (wordRights x.word2) with
            | some code => bad code first
            | none => .ok
                { ctx, word2 := (ps.head?.map Cached.word2).getD 0, len := (ps.head?.map Cached.len).getD 0
                  pages := (ps.filter fun x => touched.contains x.page).map fun x => (x.page, x.desc) }

/-- Translation from the table in memory: ports, links, the host and the management core have no cache. -/
def State.translate (s : State) (ctx : Fin 64) (k : GKind) (a : Word) (ranges : List (Nat × Nat)) :
    Except Bad Xlat :=
  s.translateIn [] ctx k a ranges

/-- Translation by the acting core's unit (R123, R124). -/
def State.ccTranslate (s : State) (ctx : Fin 64) (k : GKind) (a : Word) (ranges : List (Nat × Nat)) :
    Except Bad Xlat :=
  s.translateIn s.core.tlb ctx k a ranges

/-- A page enters the acting core's cache, which keeps the newest 64 (R124). -/
def State.fillCache (s : State) (f : Fin 64 × Nat × Nat) : State :=
  match (if s.tableBad f.1 f.2.1 f.2.2 then none else s.tablePage f.1 f.2.1 f.2.2) with
  | none => s
  | some x => s.upd fun c =>
      let l := (c.tlb.filter fun y => !(y.ctx == x.ctx && y.buf == x.buf && y.page == x.page)) ++ [x]
      { c with tlb := l.drop (l.length - 64) }

/-- Cached pages of some kind leave every core's cache (R121, R122, R124, R127). -/
def State.dropCached (s : State) (gone : Cached → Bool) : State :=
  { s with cores := s.cores.map fun c => { c with tlb := c.tlb.filter fun x => !(gone x) } }

/-- The bytes of one HBM4E stack and of the LPDDR-6 tier (R12). -/
def stackBytes : Nat := 48 * 10 ^ 9
def tierBytes : Nat := 2 * 10 ^ 12

/-- The unit and physical address that R119 gives a byte of a translated buffer; none for a page that was not
translated. -/
def Xlat.formula (x : Xlat) (off : Nat) : Option (Nat × Nat) :=
  match List.lookup (off / 65536) x.pages with
  | none => none
  | some d =>
    let f := d.toNat % 2 ^ 40
    let o := off % 65536
    if d.getLsbD 62 then some (16, f * 65536 + o)
    else
      let n := popcount 16 (wordSmask x.word2)
      let g := 256 * 2 ^ wordGran x.word2
      let i := o / g
      if n = 0 then none
      else some (nthSet (List.range 16) (wordSmask x.word2) (i % n),
        f * (65536 / n) + i / n * g + o % g)

/-- The physical address as the error log shows it (R133). -/
def Xlat.logged (x : Xlat) (off : Nat) : Nat :=
  match x.formula off with | some p => p.1 * 2 ^ 44 + p.2 | none => 0

/-- The physical address of a global address of a context as far as the table gives it, for the log (R133). -/
def State.physAt (s : State) (ctx : Fin 64) (a : Word) : Nat :=
  let off := a.toNat % 2 ^ 48
  match s.tablePage ctx (a.toNat / 2 ^ 48) (off / 65536) with
  | some x =>
    if x.desc.getLsbD 63 then
      ({ ctx, word2 := x.word2, len := x.len, pages := [(x.page, x.desc)] } : Xlat).logged off
    else 0
  | none => 0

/-- The physical place of a byte of a translated buffer (R119); none for a page that was not translated or
a frame that does not exist, which the port refuses (R125). -/
def Xlat.phys (x : Xlat) (off : Nat) : Option Nat :=
  match x.formula off with
  | some p => if p.2 < (if p.1 = 16 then tierBytes else stackBytes) then some (p.1 * 2 ^ 44 + p.2) else none
  | none => none

/-- The places of n bytes from an offset. -/
def Xlat.places (x : Xlat) (off n : Nat) : Option (List Nat) :=
  (List.range n).mapM fun i => x.phys (off + i)

/-- The place and byte addresses of an access of n bytes (R115, R123): SPACE_BOUNDS outside a local space,
the buffer faults for G, and BUF_RIGHTS where the port refuses it (R125). -/
def State.resolve (s : State) (sp : Space) (k : GKind) (a : Word) (n : Nat) :
    Except Bad (Loc × List Nat) :=
  if sp = .g then
    match s.ccTranslate s.core.ctx k a [(a.toNat % 2 ^ 48, n)] with
    | .error b => .error b
    | .ok x =>
      match x.places (a.toNat % 2 ^ 48) n with
      | some l => .ok (.g, l)
      | none => .error ⟨0x06, infoG a, some (x.logged (a.toNat % 2 ^ 48))⟩
  else
    match s.localAddr sp a n with
    | some (loc, o) => .ok (loc, (List.range n).map (o + ·))
    | none => .error ⟨0x04, infoLocal a, none⟩

/-- The trap of a failed access; a port violation is logged (R125, R133). -/
def trapBad (b : Bad) (sp : Space) (a : Word) (s : State) : Res :=
  .trap b.code b.info (match b.port with
    | some pa => s.logEvent 4 (spaceCode sp) a pa s.core.ctx .cc
    | none => s)

/-- Bytes of an access as cells of its place. -/
def cellsAt (as : List Nat) (v w : Nat) : List Host.Cell := as.zip (leBytes w v)

/-- Parameter register i of a captured set (R70 Param). -/
def Capture.param (c : Capture) (i : Fin 16) : Word := c.params[i]

end Sys2Proof.Machine
end

