-- ==== Sys2Proof/Machine/Flags.lean ====
section
/-! DEFINITION. The conditions, guards and counters that stand for flags on this machine: compares (R308),
guards (R79, R80), and the arithmetic whose corners the reference entries fix (R316, R344, R350). -/
namespace Sys2Proof.Machine

/-- The compare conditions (R308). -/
def condHolds (c : Cond) (a b : Word) : Bool :=
  match c with
  | .eq => a == b
  | .ne => a != b
  | .lt => a.slt b
  | .ltu => a.ult b
  | .ge => !(a.slt b)
  | .geu => !(a.ult b)

/-- A guard as an instruction sees it (R80, R349). -/
def Regs.guard (r : Regs) (k : Fin 4) (inv : Bool) : Bool := xor r.k[k] inv

/-- Whether an engine instruction runs: unguarded, or its guard true (R64, R80). -/
def guardValue (b : LaneB) (r : Regs) : Bool :=
  match b.guard with
  | none => true
  | some (k, inv) => r.guard k inv

/-- MULH: bits 127:64 of the signed product (R316). -/
def mulHigh (a b : Word) : Word := BitVec.ofInt 64 (a.toInt * b.toInt / 2 ^ 64)

/-- DIV: toward zero; all ones for a divisor of 0 (R316). -/
def divSigned (a b : Word) : Word :=
  if b = 0 then BitVec.ofNat 64 (2 ^ 64 - 1) else BitVec.ofInt 64 (a.toInt.tdiv b.toInt)

/-- REM (R344). -/
def remSigned (a b : Word) : Word := a - divSigned a b * b

/-- The result of AMAX (R290, R291), on values of w bytes. -/
def maxMin (kind : MaxKind) (w old v : Nat) : Nat :=
  let sgn (x : Nat) : Int := if 2 * x < 256 ^ w then (x : Int) else (x : Int) - 256 ^ w
  match kind with
  | .smax => if sgn old < sgn v then v else old
  | .umax => max old v
  | .smin => if sgn v < sgn old then v else old
  | .umin => min old v

end Sys2Proof.Machine
end

