-- ==== Sys2Proof/Machine/Alu.lean ====
section
/-! DEFINITION. The control core's arithmetic, logic and moves (R294, R306, R308, R316, R337, R339, R340,
R344, R349, R350, R359, R388). -/
namespace Sys2Proof.Machine

/-- A result goes to its destination and the lane completes. -/
def result (d : Dest) (v : Word) (s : State) : Out := finish (.done (s.setDest d v))

def execAdd (d : Dest) (a b : Opnd) (s : State) : Out := result d (s.operand a + s.operand b) s
def execSub (d : Dest) (a b : Opnd) (s : State) : Out := result d (s.operand a - s.operand b) s
def execMul (d : Dest) (a b : Opnd) (s : State) : Out := result d (s.operand a * s.operand b) s
def execMulh (d : Dest) (a b : Opnd) (s : State) : Out :=
  result d (mulHigh (s.operand a) (s.operand b)) s
def execDiv (d : Dest) (a b : Opnd) (s : State) : Out :=
  result d (divSigned (s.operand a) (s.operand b)) s
def execRem (d : Dest) (a b : Opnd) (s : State) : Out :=
  result d (remSigned (s.operand a) (s.operand b)) s
def execAnd (d : Dest) (a b : Opnd) (s : State) : Out := result d (s.operand a &&& s.operand b) s
def execOr (d : Dest) (a b : Opnd) (s : State) : Out := result d (s.operand a ||| s.operand b) s
def execXor (d : Dest) (a b : Opnd) (s : State) : Out := result d (s.operand a ^^^ s.operand b) s
def execShl (d : Dest) (a b : Opnd) (s : State) : Out :=
  result d (s.operand a <<< ((s.operand b).toNat % 64)) s
def execShr (d : Dest) (a b : Opnd) (s : State) : Out :=
  result d (s.operand a >>> ((s.operand b).toNat % 64)) s
def execSra (d : Dest) (a b : Opnd) (s : State) : Out :=
  result d ((s.operand a).sshiftRight ((s.operand b).toNat % 64)) s
def execClz (d : Dest) (a : Opnd) (s : State) : Out :=
  result d (BitVec.ofNat 64 (leadingZeros 64 (s.operand a).toNat)) s
def execPopc (d : Dest) (a : Opnd) (s : State) : Out :=
  result d (BitVec.ofNat 64 (popcount 64 (s.operand a).toNat)) s
def execMov (d : Dest) (a : Opnd) (s : State) : Out := result d (s.operand a) s
def execSel (d : Dest) (a b : Opnd) (k : Fin 4) (inv : Bool) (s : State) : Out :=
  result d (if s.core.regs.guard k inv then s.operand a else s.operand b) s
def execCmp (c : Cond) (d : Dest) (a b : Opnd) (s : State) : Out :=
  result d (boolWord (condHolds c (s.operand a) (s.operand b))) s

def execAddi (d : Dest) (a : Opnd) (imm : BitVec 16) (s : State) : Out :=
  result d (s.operand a + sext 16 imm) s
def execAndi (d : Dest) (a : Opnd) (imm : BitVec 16) (s : State) : Out :=
  result d (s.operand a &&& imm.setWidth 64) s
def execOri (d : Dest) (a : Opnd) (imm : BitVec 16) (s : State) : Out :=
  result d (s.operand a ||| imm.setWidth 64) s
def execXori (d : Dest) (a : Opnd) (imm : BitVec 16) (s : State) : Out :=
  result d (s.operand a ^^^ imm.setWidth 64) s
def execCmpi (c : Cond) (d : Dest) (a : Opnd) (imm : BitVec 13) (s : State) : Out :=
  result d (boolWord (condHolds c (s.operand a) (sext 13 imm))) s
def execShlImm (d : Dest) (a : Opnd) (amt : BitVec 6) (s : State) : Out :=
  result d (s.operand a <<< amt.toNat) s
def execShrImm (d : Dest) (a : Opnd) (amt : BitVec 6) (s : State) : Out :=
  result d (s.operand a >>> amt.toNat) s
def execSraImm (d : Dest) (a : Opnd) (amt : BitVec 6) (s : State) : Out :=
  result d ((s.operand a).sshiftRight amt.toNat) s
def execMovi (d : Dest) (imm : BitVec 16) (s : State) : Out := result d (imm.setWidth 64) s

/-- The named register with sixteen bits from bit 16 pos replaced (R337). -/
def movhiValue (v : Word) (imm : BitVec 16) (pos : BitVec 2) : Word :=
  (v &&& ~~~((0xFFFF : Word) <<< (16 * pos.toNat))) ||| (imm.setWidth 64 <<< (16 * pos.toNat))

def execMovhi (d : Fin 16) (imm : BitVec 16) (pos : BitVec 2) (s : State) : Out :=
  result (.n d) (movhiValue s.core.regs.n[d] imm pos) s

/-- TIME takes the older position and CYC the newer; the named register receives TIME (R360). -/
def execTime (d : Dest) (s : State) : Out :=
  finish (.done ((s.setDest d s.time).updRegs fun r => r.pushQ r.cyc))

end Sys2Proof.Machine
end

