-- ==== Sys2Proof/Machine/Float.lean ====
section
/-! DEFINITION. Number formats and exact arithmetic (R94-R103, R112): a finite value is a sign, a natural
mantissa and an exponent of two, and rounding happens once, at the end. -/
namespace Sys2Proof.Machine

/-- A floating-point format: exponent and fraction widths, bias, and the fate of the all-ones exponent
(R94, R95): 0 infinities and NaN, 1 E4M3, 2 E2M1. -/
structure FFmt where
  ew : Nat
  fw : Nat
  bias : Nat
  kind : Nat
  deriving DecidableEq, Repr

def fF64 : FFmt := ⟨11, 52, 1023, 0⟩
def fF32 : FFmt := ⟨8, 23, 127, 0⟩
def fF16 : FFmt := ⟨5, 10, 15, 0⟩
def fBF16 : FFmt := ⟨8, 7, 127, 0⟩
def fE5M2 : FFmt := ⟨5, 2, 15, 0⟩
def fE4M3 : FFmt := ⟨4, 3, 7, 1⟩
def fE2M1 : FFmt := ⟨2, 1, 1, 2⟩

/-- The narrow destinations of R100. -/
def FFmt.narrow (f : FFmt) : Bool := f.ew + f.fw < 8

def FFmt.width (f : FFmt) : Nat := 1 + f.ew + f.fw

/-- An extended value: mantissa times two to the exponent. -/
inductive FVal | nan | inf (neg : Bool) | fin (neg : Bool) (m : Nat) (e : Int)
  deriving DecidableEq, Repr

/-- The value of a code (R94, R95). -/
def FFmt.decode (f : FFmt) (x : Nat) : FVal :=
  let neg := x / 2 ^ (f.ew + f.fw) % 2 = 1
  let E := x / 2 ^ f.fw % 2 ^ f.ew
  let F := x % 2 ^ f.fw
  let top := E = 2 ^ f.ew - 1
  if top ∧ f.kind = 0 then (if F = 0 then .inf neg else .nan)
  else if top ∧ f.kind = 1 ∧ F = 2 ^ f.fw - 1 then .nan
  else if E = 0 then .fin neg F (1 - f.bias - f.fw)
  else .fin neg (2 ^ f.fw + F) (E - f.bias - f.fw)

/-- The largest finite code without its sign (R95). -/
def FFmt.maxCode (f : FFmt) : Nat :=
  match f.kind with
  | 0 => (2 ^ f.ew - 1) * 2 ^ f.fw - 1
  | 1 => 2 ^ (f.ew + f.fw) - 2
  | _ => 2 ^ (f.ew + f.fw) - 1

def FFmt.infCode (f : FFmt) : Nat := (2 ^ f.ew - 1) * 2 ^ f.fw

/-- The canonical NaN code, and what a NaN becomes in a format without one (R100). -/
def FFmt.nanCode (f : FFmt) : Nat :=
  match f.kind with
  | 0 => f.infCode + 2 ^ (f.fw - 1)
  | _ => 2 ^ (f.ew + f.fw) - 1

/-- What a conversion yields and counts (R100, R101). -/
structure Conv where
  code : Nat
  sat : Bool
  unf : Bool
  nan : Bool
  deriving DecidableEq, Repr

/-- Round a magnitude up, given the quotient, the remainder and the shift (R99). -/
def roundsUp (r : Rnd) (neg : Bool) (q rem d : Nat) : Bool :=
  match r with
  | .rne => decide (2 ^ d < 2 * rem) || (decide (2 * rem = 2 ^ d) && decide (q % 2 = 1))
  | .rz => false
  | .rd => neg && decide (rem ≠ 0)
  | .ru => !neg && decide (rem ≠ 0)

/-- The code of a nonzero magnitude m · 2^e before the overflow test: the codes of a format rise by one
per step of its grid, subnormals included. -/
def FFmt.grid (f : FFmt) (r : Rnd) (neg : Bool) (m : Nat) (e : Int) : Nat :=
  let emin : Int := 1 - (f.bias : Int) - f.fw
  let q : Int := max (e + Nat.log2 m - f.fw) emin
  let n := if q ≤ e then m * 2 ^ (e - q).toNat
    else
      let d := (q - e).toNat
      m / 2 ^ d + (if roundsUp r neg (m / 2 ^ d) (m % 2 ^ d) d then 1 else 0)
  (q - emin).toNat * 2 ^ f.fw + n

/-- Conversion of a value to a format (R100, R112). -/
def FFmt.encode (f : FFmt) (r : Rnd) (v : FVal) : Conv :=
  let sign (neg : Bool) := if neg then 2 ^ (f.ew + f.fw) else 0
  match v with
  | .nan => { code := f.nanCode, sat := f.kind == 2, unf := false, nan := true }
  | .inf neg =>
    { code := sign neg + (if f.kind = 0 then f.infCode else f.maxCode), sat := f.narrow,
      unf := false, nan := false }
  | .fin neg m e =>
    if m = 0 then { code := sign neg, sat := false, unf := false, nan := false }
    else
      let c := f.grid r neg m e
      if f.maxCode < c then
        let away := match r with | .rne => true | .rz => false | .rd => neg | .ru => !neg
        if !f.narrow && away then
          { code := sign neg + f.infCode, sat := false, unf := false, nan := false }
        else { code := sign neg + f.maxCode, sat := f.narrow, unf := false, nan := false }
      else { code := sign neg + c, sat := false, unf := f.narrow && c == 0, nan := false }

/-- The rounded code only. -/
def FFmt.round (f : FFmt) (r : Rnd) (v : FVal) : Nat := (f.encode r v).code

def FVal.neg : FVal → FVal
  | .nan => .nan
  | .inf s => .inf !s
  | .fin s m e => .fin (!s) m e

def FVal.abs : FVal → FVal
  | .nan => .nan
  | .inf _ => .inf false
  | .fin _ m e => .fin false m e

def FVal.isNan : FVal → Bool
  | .nan => true
  | _ => false

/-- A finite value as an integer multiple of 2^g, for g at most its exponent. -/
def FVal.scaled (g : Int) : FVal → Int
  | .fin s m e => (if s then -1 else 1) * (m : Int) * 2 ^ (e - g).toNat
  | _ => 0

/-- An exact integer multiple of 2^g as a value, with the sign of zero given. -/
def FVal.ofInt (x : Int) (g : Int) (negZero : Bool) : FVal :=
  .fin (if x = 0 then negZero else decide (x < 0)) x.natAbs g

/-- Exact sum; an exact zero from values of opposite sign is −0 when rounding down, else +0. -/
def FVal.add (r : Rnd) (a b : FVal) : FVal :=
  match a, b with
  | .nan, _ | _, .nan => .nan
  | .inf s, .inf t => if s = t then .inf s else .nan
  | .inf s, .fin .. | .fin .., .inf s => .inf s
  | .fin s m e, .fin t n f =>
    let g := min e f
    let z := if s = t then s else r == .rd
    FVal.ofInt ((FVal.fin s m e).scaled g + (FVal.fin t n f).scaled g) g z

/-- Exact product. -/
def FVal.mul (a b : FVal) : FVal :=
  match a, b with
  | .nan, _ | _, .nan => .nan
  | .inf s, .inf t => .inf (xor s t)
  | .inf s, .fin t m _ | .fin t m _, .inf s => if m = 0 then .nan else .inf (xor s t)
  | .fin s m e, .fin t n f => .fin (xor s t) (m * n) (e + f)

/-- Comparison of non-NaN values: less than, as exact values. -/
def FVal.lt (a b : FVal) : Bool :=
  match a, b with
  | .nan, _ | _, .nan => false
  | .inf s, .inf t => s && !t
  | .inf s, .fin .. => s
  | .fin .., .inf t => !t
  | .fin s m e, .fin t n f =>
    let g := min e f
    decide ((FVal.fin s m e).scaled g < (FVal.fin t n f).scaled g)

def FVal.isNeg : FVal → Bool
  | .nan => false
  | .inf s | .fin s _ _ => s

/-- VMIN and VMAX (R112): the operand that is not NaN, and −0 below +0. -/
def FVal.minOf (a b : FVal) : FVal :=
  if a.isNan then b else if b.isNan then a
  else if a.lt b then a else if b.lt a then b else if a.isNeg then a else b

def FVal.maxOf (a b : FVal) : FVal :=
  if a.isNan then b else if b.isNan then a
  else if a.lt b then b else if b.lt a then a else if a.isNeg then b else a

/-- A value rounded to an integer in a mode, for a finite value (R102). -/
def FVal.toInt (r : Rnd) : FVal → Int
  | .fin s m e =>
    let n : Nat := if 0 ≤ e then m * 2 ^ e.toNat
      else
        let d := (-e).toNat
        m / 2 ^ d + (if roundsUp r s (m / 2 ^ d) (m % 2 ^ d) d then 1 else 0)
    if s then -(n : Int) else n
  | _ => 0

/-- An integer held to a range (R102). -/
def clampInt (lo hi x : Int) : Int := if x < lo then lo else if hi < x then hi else x

/-- A float converted to a signed integer type of n bits (R102): NaN gives 0. -/
def FVal.toSigned (r : Rnd) (n : Nat) : FVal → Int
  | .nan => 0
  | .inf s => if s then -(2 ^ (n - 1) : Int) else 2 ^ (n - 1) - 1
  | .fin s m e => clampInt (-(2 ^ (n - 1))) (2 ^ (n - 1) - 1) ((FVal.fin s m e).toInt r)

/-- The low n bits of an integer as a code. -/
def intCode (n : Nat) (x : Int) : Nat := (x % 2 ^ n).toNat

/-- The signed value of an n-bit code. -/
def signedOf (n x : Nat) : Int := if 2 * (x % 2 ^ n) < 2 ^ n then (x % 2 ^ n : Nat) else (x % 2 ^ n : Nat) - 2 ^ n

end Sys2Proof.Machine
end

