-- ==== Sys2Proof/Machine/Control.lean ====
section
/-! DEFINITION. Transfers of control, loops, guards, engines and their parameters, software traps and
ERET (R48, R58, R79-R84, R88, R212, R213, R296-R299, R305, R318, R319, R323, R328, R341, R345, R361). -/
namespace Sys2Proof.Machine

/-- ILLEGAL with reason 0x17 in an exposed region (R81, R69). -/
def scoreboardOnly (s : State) (r : Res) : Res :=
  if s.core.exposed then .trap 0x01 (illegalInfo 0x17) s else r

/-- A transfer within the program ends the loops it leaves (R82). -/
def State.jump (s : State) (t : Word) : State := s.upd fun c => (c.leaveLoops t).goTo t

def execBr (c : Opnd) (disp : BitVec 21) (s : State) : Out :=
  finish (scoreboardOnly s
    (if s.operand c ≠ 0 then .goes (s.jump (s.core.target disp)) else .done s))

def execJmp (disp : BitVec 21) (s : State) : Out := finish (.goes (s.jump (s.core.target disp)))

/-- CALL writes the address of the following line to n15 and leaves the loops (R58, R299). -/
def execCall (disp : BitVec 21) (s : State) : Out :=
  let t := s.core.target disp
  let s' := s.updRegs fun r => { r with n := r.n.set 15 (s.core.fetch.line + 32) }
  finish (.goes (s'.upd fun c => c.goTo t))

/-- RET ends the invocation when n15 is 0; INVOCATION_END then completes it (R42, R345). -/
def execRet (s : State) : Out :=
  let t := s.core.regs.n[15]
  finish (scoreboardOnly s
    (if t = 0 then
      if s.core.trap.inh then .trap 0x01 (illegalInfo 0x17) s
      else .goes (s.updWork fun w => { w with run := .ending })
    else if t.toNat % 32 ≠ 0 then .trap 0x03 (infoLocal t) s
    else .goes (s.upd fun c => c.goTo t)))

/-- A LOOP nests badly: four loops are active, or its body passes the end of the body around it (R82). The body around it is
that of the innermost active loop, also where the LOOP stands in a routine outside that body, a case that R82 does not
name (DESIGN CHOICE, log entry 87). -/
def loopIllegal (c : Core) (len : BitVec 21) : Bool :=
  decide (4 ≤ c.fetch.loops.length) ||
  (match c.fetch.loops.getLast? with
   | some l => decide (l.lastLine.toNat < c.fetch.line.toNat + 32 * len.toNat)
   | none => false)

/-- LOOP (R82): the lanes after it run once; a count of 0 skips the body. Of two such LOOPs in one line the later skip
stands, and a transfer later in the line drops it, cases that R82 does not name (DESIGN CHOICE, log entry 46). -/
def execLoop (count : Opnd) (len : BitVec 21) (s : State) : Out :=
  let n := s.operand count
  finish
    (if loopIllegal s.core len then .trap 0x01 (illegalInfo 0x18) s
     else if n = 0 then
      .done (s.updFetch fun f =>
        { f with skip := some (f.line + 32 * (BitVec.ofNat 64 (len.toNat + 1))) })
     else
      .done (s.updFetch fun f =>
        { f with loops := f.loops ++ [{ left := n - 1, first := f.line + 32, len := len.toNat }] }))

def execGuard (k : Fin 4) (a : Opnd) (s : State) : Out :=
  let v := s.operand a != 0
  finish (.done (s.updRegs fun r => { r with k := r.k.set k v }))

/-- FORK; in a handler it has no effect (R48, R212). -/
def execFork (mask : BitVec 6) (s : State) : Out :=
  finish (.done (if s.core.trap.inh then s
    else s.updEng fun e => { e with active := e.active ||| mask }))

/-- The entries of a queue that have still to be performed: the head has been when it pushes its tokens. -/
def EngQ.unfinished (q : EngQ) : List QEntry :=
  match q.phase with
  | .pushing _ => q.entries.tail
  | .ready | .busy => q.entries

/-- A begun link command has completed: it has only tokens to push (R272). -/
def LeCmd.completed : LeCmd → Bool
  | .null | .bar _ true | .msg _ .ok => true
  | .bar _ false | .msg _ .sent | .msg _ .failed | .msg _ .held | .msg _ .again => false

/-- No work of engine e is in progress. A VLDG goes on while elements of it are parked (R219). -/
def Core.noWork (c : Core) (e : Eng) : Bool :=
  (c.cpy.fills.all fun f => f.1 != e) &&
  (match e with
   | .me => c.me.work.isNone
   | .ce => (vget c.cpy.channels 8 { cur := none, waiting := [] }).cur.isNone
   | .le => c.cpy.le.all fun x => x.cmd.completed
   | .ve => c.vec.parked.isEmpty
   | .cc | .ge => true)

/-- Engine e has performed every entry of its queue (R319); the last may have tokens still to push. -/
def Core.engDone (c : Core) (e : Eng) : Bool :=
  (vget c.eng.queues e.num EngQ.empty).unfinished.isEmpty && c.noWork e

/-- Engine e has performed every entry of its queue, and its queue is empty (R56). -/
def Core.engIdle (c : Core) (e : Eng) : Bool :=
  (vget c.eng.queues e.num EngQ.empty).entries.isEmpty && (e != .le || c.cpy.le.isEmpty) && c.noWork e

def engines : List Eng := [.me, .ve, .ce, .ge, .le]

/-- The active engines of a mask have performed their entries. -/
def Core.joined (c : Core) (mask : BitVec 6) : Bool :=
  engines.all fun e => !(mask.getLsbD e.num && c.eng.active.getLsbD e.num) || c.engDone e

/-- JOIN (R48, R319): the VE's stores are performed, and the engines become inactive. -/
def execJoin (mask : BitVec 6) (s : State) : Out :=
  finish (scoreboardOnly s
    (if s.core.trap.inh then .done s
     else if s.core.joined mask then
      let s' := if mask.getLsbD 2 then s.performWhere fun p => p.ve else s
      .done (s'.updEng fun e => { e with active := e.active &&& ~~~mask })
     else .stall s))

/-- TRAP (R361): TPC names lane 1 of the line after, with the loop advance of this line applied. -/
def State.trapNextLine (s : State) (code : Nat) (info : Word) : State :=
  if s.core.trap.inh || s.core.trap.tvb = 0 then s.doubleFault
  else
    let s' := s.upd Core.nextLine
    s'.enterTrap { code, info, eng := .cc } s'.core.fetch.line 1

def execTrap (code : BitVec 8) (s : State) : Out :=
  finish (.goes (s.trapNextLine 0x17 (s.laneInfo (BitVec.ofNat 64 (code.toNat * 256)))))

/-- A live lease holds the cluster (R246). -/
def State.leased (s : State) (k : Nat) : Bool := s.power.leases.any fun l => l.clusters.getLsbD k

/-- CLKDIV (R88, R305): CLKDIV_DET in deterministic lines; no effect during a lease, nor for divisor 3. -/
def execClkdiv (e : Eng) (v : Divisor) (s : State) : Out :=
  finish (privileged s
    (if s.core.deterministic then .trap 0x15 0 s
     else if s.leased s.cluster || v = .d3 then .done s
     else .done (s.updEng fun g => { g with div := vset g.div e.num v })))

def execPset (e : Eng) (p : Fin 16) (a : Opnd) (s : State) : Out :=
  let v := s.operand a
  finish (.done (s.updEng fun g =>
    { g with params := vset g.params e.num ((vget g.params e.num (Vector.replicate 16 0)).set p v) }))

/-- Field f of a WID under the declared widths (R32, R33). -/
def widField (widths : List Nat) (wid : Word) (f : Nat) : Word :=
  if f = 7 then wid
  else match widths[f]? with
    | some w => BitVec.ofNat 64 (wid.toNat / 2 ^ (widths.take f).sum % 2 ^ w)
    | none => 0

/-- The WID field widths of the running kernel block. -/
def State.widths (s : State) : List Nat :=
  match s.core.work.cur with
  | some p => (match s.kernels[p.kernel]? with | some k => k.widths | none => [])
  | none => []

def execWid (d : Dest) (f : BitVec 3) (s : State) : Out :=
  finish (.done (s.setDest d (widField s.widths s.core.regs.wid f.toNat)))

-- The Garnet predictor (R197-R199, R387, R389).

def sigEntry (sig : Word) : Nat := sig.toNat % 2 ^ 12
def sigTag (sig : Word) : BitVec 16 := BitVec.ofNat 16 (sig.toNat / 2 ^ 12)

/-- The candidates of an entry that a signature hits. -/
def Core.lookup (c : Core) (sig : Word) : Option (Vector (BitVec 12 × BitVec 4) 4) :=
  match smapGet c.garnet (sigEntry sig) with
  | some g => if g.tag = sigTag sig then some g.cand else none
  | none => none

/-- Insert a candidate behind every one of at least its confidence. -/
def rankIns (x : BitVec 12 × BitVec 4) : List (BitVec 12 × BitVec 4) → List (BitVec 12 × BitVec 4)
  | [] => [x]
  | y :: ys => if y.2.toNat < x.2.toNat then x :: y :: ys else y :: rankIns x ys

/-- Candidates by confidence, highest first, ties to the lower number (R198). -/
def ranked (l : List (BitVec 12 × BitVec 4)) : List (BitVec 12 × BitVec 4) :=
  l.foldl (fun acc x => rankIns x acc) []

def packFields (w : Nat) (l : List Nat) : Nat := l.foldr (fun x acc => x % 2 ^ w + 2 ^ w * acc) 0

/-- The top k ids as XPRED pushes them (R198). -/
def topIds (cand : Option (Vector (BitVec 12 × BitVec 4) 4)) (k : Nat) : List Nat :=
  let ids := match cand with
    | some v => ((ranked v.toList).take k).map fun x => x.1.toNat
    | none => []
  ids ++ List.replicate (4 - ids.length) 0xFFF

def execXpred (d : Dest) (sig : Opnd) (k : BitVec 3) (s : State) : Out :=
  finish (.done (s.setDest d
    (BitVec.ofNat 64 (packFields 12 (topIds (s.core.lookup (s.operand sig)) k.toNat)))))

/-- A packed candidate; one with id 0xFFF is stored with confidence 0 (R199). -/
def unpackCand (v : Word) (i : Nat) : BitVec 12 × BitVec 4 :=
  let id := BitVec.ofNat 12 (v.toNat / 2 ^ (16 * i))
  (id, if id = 0xFFF then 0 else BitVec.ofNat 4 (v.toNat / 2 ^ (16 * i + 12)))

def execXput (sig value : Opnd) (s : State) : Out :=
  let sg := s.operand sig
  let v := s.operand value
  finish (.done (s.upd fun c => { c with
    garnet := smapPut c.garnet (sigEntry sg)
      { tag := sigTag sg, cand := vgen 4 fun i => unpackCand v i } }))

def execXget (d : Dest) (sig : Opnd) (s : State) : Out :=
  let v := match s.core.lookup (s.operand sig) with
    | some c => packFields 16 (c.toList.map fun x => x.2.toNat * 4096 + x.1.toNat)
    | none => 0x0FFF0FFF0FFF0FFF
  finish (.done (s.setDest d (BitVec.ofNat 64 v)))

end Sys2Proof.Machine
end

