-- ==== Sys2Proof/Machine/LoadStore.lean ====
section
/-! DEFINITION. Loads and stores of the control core, sequentially consistent accesses, and the system
calls on counters (R61, R115, R120, R131, R132, R146-R148, R325-R327, R346-R348, R355-R358, R310, R313). -/
namespace Sys2Proof.Machine

/-- The stores that must be performed before an access of one class and space at some bytes is: those of
the same class and space, and those that touch the bytes, with their own predecessors (R142, R143). -/
def State.settle (s : State) (ve : Bool) (cls : Fin 16) (sp : Space) (loc : Loc) (as : List Nat) :
    State :=
  s.performWhere (s.core.upTo fun p =>
    sameOrder ve cls sp p || (p.loc == loc && p.cells.any fun c => as.contains c.1))

/-- The stores that are performed before a read: those of a test, and, of the stores that touch the words read, all but
the newest, with their predecessors; the newest too where it does not give every byte, so that the read joins no byte of
it to others of its word that a store of another observer may still replace (R142). What the thread has read is then
never followed by an older value of the word, nor older than what it has written to it. -/
def State.settleRead (s : State) (test : Pending → Bool) (loc : Loc) (as : List Nat) : State :=
  let touching := s.core.pend.filter fun p => p.loc == loc && p.cells.any fun c => as.any fun a => a / 4 == c.1 / 4
  let whole (p : Pending) : Bool := as.all fun a => p.cells.any fun c => c.1 == a
  let hits := match touching.getLast? with
    | some p => if whole p then touching.dropLast else touching
    | none => []
  s.performWhere (s.core.upTo fun p => test p || hits.contains p)

/-- A load of w bytes at an aligned address (R326): the value, or the trap. -/
def State.loadAt (s : State) (sp : Space) (a : Word) (w : Nat) (cls : Fin 16) (k : Word → State → Res) :
    Res :=
  match s.resolve sp .load a w with
  | .error b => trapBad b sp a s
  | .ok (loc, as) =>
    match s.threadBad loc as with
    | some _ => .trap 0x0D (infoAddr sp a) s
    | none => k (BitVec.ofNat 64 (leNat (as.map (s.threadByte loc))))
        (s.settleRead (sameOrder false cls sp) loc as)

/-- A load (R326): ALIGN, then the space, then the buffer faults, then MEM_POISON. -/
def load (sp : Space) (w : Width) (d : Dest) (base : Opnd) (off : BitVec 10) (cls : Fin 16) (s : State) :
    Res :=
  let e := effective sp (s.operand base) off w
  if e.1.toNat % widthBytes w ≠ 0 then .trap 0x03 (infoAddr sp e.1) s
  else if e.2 then .trap 0x07 (infoG e.1) s
  else s.loadAt sp e.1 (widthBytes w) cls fun v s' => .done (s'.setDest d v)

/-- Posting a store at resolved bytes: a part of a bad granule is refused with MEM_UNCORR (R132). -/
def State.storeAt (s : State) (sp : Space) (a : Word) (loc : Loc) (as : List Nat) (v : Word)
    (cls : Fin 16) : Res :=
  match s.partialBad loc as with
  | some (pa, _) => .trap 0x0E (infoAddr sp a) (s.logEvent 3 (spaceCode sp) a pa s.core.ctx .cc)
  | none =>
    let s' := if sp = .g then s.addHold s.core.ctx (a.toNat / 2 ^ 48) false else s
    .done (s'.post
      { ve := false, cls, space := sp, loc, cells := cellsAt as v.toNat as.length,
        hold := if sp = .g then some s.nextHold else none, seq := s.core.seq, num := 0, acc := 0,
        det := s.core.deterministic })

/-- A store (R356, R357): the same checks in the same order, then the post. -/
def store (sp : Space) (w : Width) (data base : Opnd) (off : BitVec 10) (cls : Fin 16) (s : State) :
    Res :=
  let e := effective sp (s.operand base) off w
  if e.1.toNat % widthBytes w ≠ 0 then .trap 0x03 (infoAddr sp e.1) s
  else if e.2 then .trap 0x07 (infoG e.1) s
  else match s.resolve sp .store e.1 (widthBytes w) with
    | .error b => trapBad b sp e.1 s
    | .ok (loc, as) => s.storeAt sp e.1 loc as (s.operand data) cls

def execLdu (w : Width) (d : Dest) (base : Opnd) (off : BitVec 10) (cls : Fin 16) (s : State) : Out :=
  finish (load .u w d base off cls s)
def execLdk (w : Width) (d : Dest) (base : Opnd) (off : BitVec 10) (cls : Fin 16) (s : State) : Out :=
  finish (load .k w d base off cls s)
def execLdn (w : Width) (d : Dest) (base : Opnd) (off : BitVec 10) (cls : Fin 16) (s : State) : Out :=
  finish (load .n w d base off cls s)
def execLdd (w : Width) (d : Dest) (base : Opnd) (off : BitVec 10) (cls : Fin 16) (s : State) : Out :=
  finish (load .d w d base off cls s)
def execLdg (w : Width) (d : Dest) (base : Opnd) (off : BitVec 10) (cls : Fin 16) (s : State) : Out :=
  finish (load .g w d base off cls s)
def execStu (w : Width) (data base : Opnd) (off : BitVec 10) (cls : Fin 16) (s : State) : Out :=
  finish (store .u w data base off cls s)
def execStk (w : Width) (data base : Opnd) (off : BitVec 10) (cls : Fin 16) (s : State) : Out :=
  finish (store .k w data base off cls s)
def execStn (w : Width) (data base : Opnd) (off : BitVec 10) (cls : Fin 16) (s : State) : Out :=
  finish (store .n w data base off cls s)
def execStd (w : Width) (data base : Opnd) (off : BitVec 10) (cls : Fin 16) (s : State) : Out :=
  finish (store .d w data base off cls s)
def execStg (w : Width) (data base : Opnd) (off : BitVec 10) (cls : Fin 16) (s : State) : Out :=
  finish (store .g w data base off cls s)

-- The wheel (R146, R148).

/-- The wheel position of an instant, counted from device reset. -/
def wheelCount (t : Word) : Nat := t.toNat / 10

/-- What the wheel says to an SC access that is ready: issue, wait, or WHEEL_SLOT at a position. -/
inductive WheelSays | issue | wait | off (position : Nat)
  deriving DecidableEq, Repr

/-- R148: a further access of an exposed region issues at its slot or traps; every other waits for an
owned position that this core has not used. A further one that meets an owned position which has been used (R146) waits
too, and raises WHEEL_SLOT at the next position, a case that the spec does not name (DESIGN CHOICE, log entry 88). -/
def State.wheel (s : State) : WheelSays :=
  let n := wheelCount s.time
  let f := s.core.fetch
  let mine := n % 4096 % 128 = s.cur.val
  if s.core.exposed && f.scDone && decide (¬ mine) then .off (n % 4096)
  else if mine && f.scLast != some n then .issue
  else .wait

/-- A lane that waits for the wheel: it counts no SCHED_BREAK, and in an exposed region CYC stops. -/
def State.wheelStall (s : State) : State :=
  s.updFetch fun f => { f with wheelWait := s.core.exposed && !f.scDone }

/-- The access has its position (R146, R148). -/
def State.wheelIssue (s : State) : State :=
  s.updFetch fun f =>
    { f with scDone := true, scLast := some (wheelCount s.time), wheelWait := false }

/-- An access that a routed VE entry has still to make: its class and its space (R144, R367). -/
def vecAccess : Instr → Option (Fin 16 × Space)
  | .vldu v _ | .vstu v _ => some (v.cls, .u)
  | .vldk v _ | .vstk v _ => some (v.cls, .k)
  | .vldd v _ | .vstd v _ => some (v.cls, .d)
  | .vstn v _ => some (v.cls, .n)
  | .vldg _ v _ => some (v.cls, .g)
  | _ => none

/-- The VE owes an access of the thread that a fence over a test waits for: it is routed and not made, or it is an element
of a VLDG that is parked (R144, R219). A nullified one makes none (R80). -/
def Core.veOwes (c : Core) (test : Fin 16 → Space → Bool) : Bool :=
  ((vget c.eng.queues 2 EngQ.empty).unfinished.any fun x => match x with
    | .instr i k => k.guard && (match vecAccess i with | some a => test a.1 a.2 | none => false)
    | .fence _ => false) ||
  c.vec.parked.any fun p => test p.cls .g

/-- The SC access of the lane waits no more: its hold ends. -/
def State.endScWait (s : State) : State :=
  match s.core.scWait with
  | none => s
  | some w => (s.dropHolds w.hold.toList).upd fun c => { c with scWait := none }

/-- The SC access waits: from its first such turn on it keeps its place and holds its buffer (R123, R347). -/
def State.waitSc (s : State) (sp : Space) (a : Word) (loc : Loc) (as : List Nat) : State :=
  if s.core.scWait.isSome then s
  else
    let s' := if sp = .g then s.addHold s.core.ctx (a.toNat / 2 ^ 48) false else s
    s'.upd fun c => { c with scWait := some { loc, bytes := as, hold := if sp = .g then some s.nextHold else none } }

/-- An SC access after its address checks: a full fence over the thread's accesses, those of the VE among them
(R147), the wheel, then the access (R347). -/
def scAccess (sp : Space) (a : Word) (loc : Loc) (as : List Nat) (s : State) (k : State → Res) : Res :=
  if s.core.veOwes fun _ _ => true then .stall (s.waitSc sp a loc as) else
  let s' := s.performWhere fun _ => true
  match s'.wheel with
  | .off p => .trap 0x14 (BitVec.ofNat 64 p) s'.endScWait
  | .wait => .wait (s'.wheelStall.waitSc sp a loc as)
  | .issue => k s'.endScWait.wheelIssue

/-- The place of an SC access: the one it waits at, or that of its address after the checks, which come before the
wait (R347). -/
def scPlace (sp : Space) (kind : GKind) (a : Word) (n : Nat) (s : State) (k : Loc → List Nat → Res) : Res :=
  match s.core.scWait with
  | some w => k w.loc w.bytes
  | none =>
    if a.toNat % n ≠ 0 then .trap 0x03 (infoAddr sp a) s
    else match s.resolve sp kind a n with
      | .error b => trapBad b sp a s
      | .ok (loc, as) => k loc as

def execScld (sp : XSpace) (w : Width) (d : Dest) (base : Opnd) (s : State) : Out :=
  let a := s.operand base
  finish (scPlace (xspace sp) .load a (widthBytes w) s fun loc as =>
    scAccess (xspace sp) a loc as s fun s' =>
      match s'.threadBad loc as with
      | some _ => .trap 0x0D (infoAddr (xspace sp) a) s'
      | none => .done (s'.setDest d (BitVec.ofNat 64 (leNat (as.map (s'.threadByte loc))))))

def execScst (sp : XSpace) (w : Width) (data base : Opnd) (s : State) : Out :=
  let a := s.operand base
  let n := widthBytes w
  finish (scPlace (xspace sp) .store a n s fun loc as =>
    scAccess (xspace sp) a loc as s fun s' =>
      match s'.partialBad loc as with
      | some (pa, _) => .trap 0x0E (infoAddr (xspace sp) a)
          (s'.logEvent 3 (spaceCode (xspace sp)) a pa s.core.ctx .cc)
      | none => .done (s'.perform loc (cellsAt as (s.operand data).toNat n)))

-- Counters (R137, R153, R310, R313).

/-- A command of the package that will post holds the buffer, an LRED of its own has made some of its adds and has not
posted, or a gather, of whatever package, waits on one of its counters or has not posted (R137, R310). -/
def State.ctrBusy (s : State) (ctx : Fin 64) (entry : Nat) : Bool :=
  let names (m : LinkMsg) : Bool :=
    m.ctx == ctx && (match m.counter with | some c => c.toNat / 2 ^ 48 == entry | none => false)
  (s.holds.any fun h => h.2.1 == ctx && h.2.2.1 == entry && h.2.2.2) ||
  (s.links.gathers.any names) ||
  s.links.inbox.any fun m => (m.srcPkg == s.links.id || m.expect != 0) && !m.added.isEmpty && names m

/-- CTRINIT and CWAIT share their checks: ALIGN, the translation with right C (R310). -/
def counterChecked (a : Word) (s : State) (k : List Nat → Res) : Res :=
  if a.toNat % 8 ≠ 0 then .trap 0x03 (infoG a) s
  else match s.resolve .g .counter a 8 with
    | .error b => trapBad b .g a s
    | .ok (_, as) => k as

def execCtrinit (addr value : Opnd) (s : State) : Out :=
  let a := s.operand addr
  finish (counterChecked a s fun as =>
    if s.ctrBusy s.core.ctx (a.toNat / 2 ^ 48) then .trap 0x13 (infoG a) s
    else match s.partialBad .g as with
      | some (pa, _) => .trap 0x0E (infoG a) (s.logEvent 3 2 a pa s.core.ctx .cc)
      | none => .done (s.perform .g (cellsAt as (s.operand value).toNat 8)))

/-- CWAIT (R313): stalls while the counter is below the target. -/
def execCwait (addr target : Opnd) (s : State) : Out :=
  let a := s.operand addr
  finish (counterChecked a s fun as =>
    match s.threadBad .g as with
    | some _ => .trap 0x0D (infoG a) s
    | none =>
      if leNat (as.map (s.byteAt .g)) < (s.operand target).toNat then .stall s else .done s)

end Sys2Proof.Machine
end

