-- ==== Sys2Proof/Machine/Ordering.lean ====
section
/-! DEFINITION. Fences, barriers, drains, queue fences, command-queue pushes and templates (R47, R134,
R138, R144, R150, R154, R295, R303, R312, R317, R342, R343). -/
namespace Sys2Proof.Machine

/-- A routed VE access of the mask has not been made. -/
def Core.veOwesMask (c : Core) (mask : BitVec 16) : Bool := c.veOwes fun cls _ => mask.getLsbD cls.val

/-- CFENCE (R144, R303): it waits for the VE's routed accesses of the mask, and every earlier store of the mask is
performed; one step performs it at every scope. -/
def execCfence (_sc : Scope) (mask : BitVec 16) (s : State) : Out :=
  finish (if s.core.veOwesMask mask then .stall s else .done (s.performWhere (s.core.upTo (inMask mask))))

/-- QFENCE (R150): one fence entry in each named queue; routing stalls while one of them is full. -/
def execQfence (mask : BitVec 6) (s : State) : Out :=
  let q (e : Eng) := vget s.core.eng.queues e.num EngQ.empty
  let named := engines.filter fun e => mask.getLsbD e.num
  finish
    (if named.any fun e => 32 ≤ (q e).entries.length then .stall s
     else
      .done (s.upd fun c => { c with
        eng := { c.eng with
          fences := c.eng.fences + 1
          queues := named.foldl (fun v e => vset v e.num
            { q e with entries := (q e).entries ++
              [.fence { id := c.eng.fences, mask, upto := c.cpy.staSeq, line := c.fetch.line, lane := c.fetch.lane,
                        lmode := c.fetch.lmode }] })
            c.eng.queues } }))

/-- The copies a queue entry stands for. -/
def QEntry.copies : QEntry → List Copy
  | .instr _ c => c.copy.toList
  | .fence _ => []

/-- Every copy of a core that has not completed: those of its channels and those in the CE's queue. -/
def Core.liveCopies (c : Core) : List Copy :=
  (c.cpy.channels.toList.map fun ch => (ch.cur.map CopyRun.copy).toList ++ ch.waiting).flatten ++
  ((vget c.eng.queues 3 EngQ.empty).unfinished.map QEntry.copies).flatten

/-- A copy has a destination in the space: a CPOST has none (R317). -/
def Copy.lands (k : Copy) (sp : CSpace) : Bool := k.moves && k.dsp == sp

/-- DRAIN (R138, R317): it waits for every earlier copy with that destination. -/
def execDrain (sp : CSpace) (s : State) : Out :=
  finish (if s.core.liveCopies.any fun k => k.lands sp then .stall s else .done s)

-- Barriers (R154).

/-- The node whose barriers the acting core uses. -/
def State.barNode (s : State) : Node :=
  match s.core.work.cur with | some p => p.node | none => Node.none

/-- The cores of the acting core's cluster or die. -/
def State.unitCores (s : State) (die : Bool) : List Nat :=
  if die then (List.range 64).map (s.die * 64 + ·) else (List.range 4).map (s.cluster * 4 + ·)

def State.unitOf (s : State) (die : Bool) : Nat := if die then s.die else s.cluster

def Barrier.isFor (x : Barrier) (die : Bool) (unit b : Nat) (n : Node) : Bool :=
  x.die == die && x.unit == unit && x.b == b && n.same x.launch x.index x.img

/-- The arrivals of barrier b, or none yet. -/
def State.arrivals (s : State) (die : Bool) (b : Fin 16) : SMap Nat :=
  match s.barriers.find? fun x => x.isFor die (s.unitOf die) b s.barNode with
  | some x => x.arrivals
  | none => []

/-- Phase p of the barrier is complete: every participant has made p arrivals. -/
def State.phaseDone (s : State) (die : Bool) (b : Fin 16) (p : Nat) : Bool :=
  (s.unitCores die).all fun c =>
    !(imgHas s.barNode.img c) || decide (p ≤ (smapGet (s.arrivals die b) c).getD 0)

/-- Core c still has a node of a launch before it: running, queued, or to be fetched by its walk, also where the work
was saved (R28, R51). A node that no core of the mask has before it has been left by all. -/
def State.nodeAhead (s : State) (n : Node) (c : Nat) : Bool :=
  let w := (s.coreAt c).work
  (w.queues.toList.any fun q => q.nodes.any fun m => m.launch == n.launch && m.index == n.index) ||
  (match w.cur with | some p => p.node.launch == n.launch && p.node.index == n.index | none => false) ||
  (w.cpState == .running && w.cpLaunch == n.launch && decide (w.cpIndex ≤ n.index)) ||
  s.host.saves.any fun x => x.launch == n.launch || x.cpLaunch == n.launch

/-- The participants of a launch's node in a unit that have left it already (R295). -/
def State.leftAlready (s : State) (die : Bool) (n : Node) : List Nat :=
  if n.launch = 0 then []
  else (s.unitCores die).filter fun c => imgHas n.img c && !(s.nodeAhead n c)

def State.recordArrival (s : State) (die : Bool) (b : Fin 16) : State :=
  let n := s.barNode
  let c := s.cur.val
  let up (m : SMap Nat) : SMap Nat := smapPut m c ((smapGet m c).getD 0 + 1)
  if s.barriers.any fun x => x.isFor die (s.unitOf die) b n then
    { s with barriers := s.barriers.map fun x =>
        if x.isFor die (s.unitOf die) b n then { x with arrivals := up x.arrivals } else x }
  else
    { s with barriers := s.barriers ++
        [{ die, unit := s.unitOf die, b, launch := n.launch, index := n.index, img := n.img,
           arrivals := up [], left := s.leftAlready die n }] }

/-- ARRIVE (R154): it waits for the VE's routed accesses of the mask, and a core whose previous phase is open
stalls. -/
def execArrive (die : Bool) (b : Fin 16) (mask : BitVec 16) (s : State) : Out :=
  let mine := (smapGet (s.arrivals die b) s.cur.val).getD 0
  finish
    (if !(s.core.veOwesMask mask) && s.phaseDone die b mine then
      .done ((s.performWhere (s.core.upTo (inMask mask))).recordArrival die b)
     else .stall s)

/-- AWAIT (R154): a core that has not arrived completes at once. -/
def execAwait (die : Bool) (b : Fin 16) (_mask : BitVec 16) (s : State) : Out :=
  let mine := (smapGet (s.arrivals die b) s.cur.val).getD 0
  finish (if s.phaseDone die b mine then .done s else .stall s)

-- QPUSH (R47, R343).

/-- A node joins a core's command queue; at an empty queue it stands at the head at once. -/
def CmdQ.push (q : CmdQ) (n : Node) (t : Word) : CmdQ :=
  { q with nodes := q.nodes ++ [n], head := if q.nodes.isEmpty then Head.fresh t else q.head }

def CmdQ.empty : CmdQ := { nodes := [], seq := 0, head := Head.fresh 0 }

def State.enqueue (s : State) (core q : Nat) (n : Node) : State :=
  s.updAt core fun c => { c with
    work := { c.work with queues := vset c.work.queues q ((vget c.work.queues q CmdQ.empty).push n s.time) } }

/-- The sixteen words of a command block. -/
def imgOf (bytes : List Byte) : Vector Word 16 :=
  vgen 16 fun i => BitVec.ofNat 64 (leNat ((bytes.drop (8 * i)).take 8))

/-- A pushed node gets its number among the pushes. -/
def State.enqueuePushed (s : State) (core q : Nat) (img : Vector Word 16) (ctx : Fin 64) : State :=
  ({ s with pushes := s.pushes + 1 } : State).enqueue core q
    { img, ctx, launch := 0, index := s.pushes, addr := 0 }

/-- QPUSH (R47, R343): after the unit-pad stores of the thread, the VE's among them, the image joins the queue. -/
def execQpush (q : BitVec 2) (core addr : Opnd) (s : State) : Out :=
  let c := s.operand core
  let a := s.operand addr
  finish (scoreboardOnly s
    (if 127 < c.toNat then .trap 0x04 (infoLocal c) s
     else if a.toNat % 128 ≠ 0 then .trap 0x03 (infoLocal a) s
     else match s.localAddr .u a 128 with
      | none => .trap 0x04 (infoLocal a) s
      | some (loc, o) =>
        let as := (List.range 128).map (o + ·)
        let s' := s.settleRead (fun p => p.space == .u) loc as
        if s.core.veOwes fun _ sp => sp == .u then .stall s
        else match s.threadBad loc as with
        | some _ => .trap 0x0D (infoLocal a) s
        | none =>
          if 16 ≤ (vget (s'.coreAt c.toNat).work.queues q.toNat CmdQ.empty).nodes.length then .stall s'
          else
            .done (s'.enqueuePushed c.toNat q.toNat (imgOf (as.map (s.threadByte loc))) s'.core.ctx)))

/-- CTSET (R134, R312). -/
def execCtset (t : Fin 64) (w : Fin 16) (a : Opnd) (s : State) : Out :=
  let v := s.operand a
  finish (.done (s.updCpy fun c => { c with tmpl := smapSet 0 c.tmpl (16 * t.val + w.val) v }))

-- Buffer-table updates (R121, R122, R129, R298, R315).

/-- A word 2 that R118 calls valid. -/
def word2Ok (w2 : Word) : Bool :=
  w2.toNat / 2 ^ 6 % 2 ^ 30 == 0 &&
  (!(wordValid w2) ||
    (let n := popcount 16 (wordSmask w2)
     (n == 1 || n == 2 || n == 4 || n == 8 || n == 16) && decide (wordGran w2 ≤ 8) &&
     decide (256 * 2 ^ wordGran w2 * n ≤ 65536)))

/-- A word of a table is written as a store of 8 bytes: over a bad granule it is not performed (R132). -/
def State.putWord (s : State) (pa : Nat) (v : Word) : Option State :=
  let cells := cellsFrom pa (leBytes 8 v.toNat)
  if (s.firstBad .g (cells.map Prod.fst)).isSome then none else some (s.perform .g cells)

/-- An entry operand beyond every table is beyond the context's. -/
def State.entryOf (s : State) (e : Word) : Option Nat := s.entryAddr s.core.ctx e.toNat 0

/-- BTSET (R121, R298). A word over a bad granule is refused with MEM_UNCORR, whose TINFO holds the physical address
of the word (DESIGN CHOICE, log entry 58). -/
def execBtset (d : Dest) (entry value : Opnd) (w : BitVec 2) (s : State) : Out :=
  let e := s.operand entry
  let v := s.operand value
  finish (privileged s
    (match s.entryOf e with
     | none => .done (s.setDest d 2)
     | some pa =>
      if w = 3 || (w = 2 && !(word2Ok v)) then .done (s.setDest d 2)
      else if s.holdCount s.core.ctx e.toNat ≠ 0 then .done (s.setDest d 1)
      else match s.putWord (pa + 8 * w.toNat) v with
        | some s' => .done ((s'.dropCached fun x => x.ctx == s.core.ctx && x.buf == e.toNat).setDest d 0)
        | none =>
          let at_ := BitVec.ofNat 64 (pa + 8 * w.toNat)
          .trap 0x0E (infoLocal at_) (s.logEvent 3 2 at_ at_.toNat s.core.ctx .cc)))

/-- BTSWAP (R122): both entries exchange their words and their holds. -/
def execBtswap (d : Dest) (e1 e2 : Opnd) (s : State) : Out :=
  let a := s.operand e1
  let b := s.operand e2
  finish (privileged s
    (match s.entryOf a, s.entryOf b with
     | some pa, some pb =>
      match s.firstBad .g ((List.range 32).map (pa + ·) ++ (List.range 32).map (pb + ·)) with
      | some x => .trap 0x0D (infoLocal (BitVec.ofNat 64 x.1)) s
      | none =>
      let ba := readBytes s.gmem.mem pa 32
      let bb := readBytes s.gmem.mem pb 32
      let s1 := (s.perform .g (cellsFrom pa bb)).perform .g (cellsFrom pb ba)
      let swap (n : Nat) : Nat := if n = a.toNat then b.toNat else if n = b.toNat then a.toNat else n
      .done ((({ s1 with holds := s1.holds.map fun h =>
          if h.2.1 == s.core.ctx then (h.1, h.2.1, swap h.2.2.1, h.2.2.2) else h } : State).dropCached fun x =>
            x.ctx == s.core.ctx && (x.buf == a.toNat || x.buf == b.toNat)).setDest d 0)
     | _, _ => .done (s.setDest d 2)))

/-- The status of DEAD and, for status 0, the bytes it makes dead (R129, R315). A DEAD that meets both an INVALID
condition and a nonzero HOLD answers 2, as R121 says of BTSET (DEDUCED, log entry 58). -/
def State.deadStatus (s : State) (a len : Word) : Nat × List Nat :=
  let off := a.toNat % 2 ^ 48
  if off % 65536 ≠ 0 || len.toNat % 65536 ≠ 0 || len = 0 then (2, [])
  else match s.translate s.core.ctx .loader a [(off, len.toNat)] with
    | .error _ => (2, [])
    | .ok x =>
      if (wordRights x.word2).getLsbD 2 then (2, [])
      else if s.holdCount s.core.ctx (a.toNat / 2 ^ 48) ≠ 0 then (1, [])
      else match x.places off len.toNat with
        | some as => (0, as)
        | none => (2, [])

/-- Bytes of global memory become zeros, and their units of 2 KiB dead until they are written (R129). -/
def State.makeDead (s : State) (as : List Nat) : State :=
  let s' := s.perform .g (as.map fun a => (a, (0 : Byte)))
  { s' with dead := s'.dead ++ (as.filter fun a => a % 2048 == 0).map (· / 2048) }

/-- DEAD (R129, R315): the units read zero and carry no poison from now on. -/
def execDead (d : Dest) (addr len : Opnd) (s : State) : Out :=
  let r := s.deadStatus (s.operand addr) (s.operand len)
  finish (privileged s
    (.done (((s.makeDead r.2).dropCached fun x =>
      x.ctx == s.core.ctx && x.buf == (s.operand addr).toNat / 2 ^ 48 && r.1 == 0).setDest d
      (BitVec.ofNat 64 r.1))))

end Sys2Proof.Machine
end

