-- ==== Sys2Proof/Machine/Atomics.lean ====
section
/-! DEFINITION. Atomics (R120, R156, R290-R293) and the runs of deterministic AFADDs (R252). -/
namespace Sys2Proof.Machine

/-- The buffer of a global address holds counters (R118). -/
def State.isCounter (s : State) (a : Word) : Bool :=
  match s.entryAddr s.core.ctx (a.toNat / 2 ^ 48) 0 with
  | some pa => (wordRights (s.gWord (pa + 16))).getLsbD 2
  | none => false

/-- An aligned, resolved, unpoisoned word or double word (R292): its place and old value. `counter` tells the old values
that raise COUNTER_RIGHTS, which goes before MEM_POISON. -/
def atomicAt (sp : XSpace) (dbl : Bool) (k : GKind) (a : Word) (cls : Fin 16) (counter : Nat → Bool) (s : State)
    (f : Loc → List Nat → Nat → State → Res) : Res :=
  let n := if dbl then 8 else 4
  if a.toNat % n ≠ 0 then .trap 0x03 (infoAddr (xspace sp) a) s
  else match s.resolve (xspace sp) k a n with
    | .error b => trapBad b (xspace sp) a s
    | .ok (loc, as) =>
      if counter (leNat (as.map (s.threadByte loc))) then .trap 0x12 (infoG a) s
      else match s.threadBad loc as with
      | some _ => .trap 0x0D (infoAddr (xspace sp) a) s
      | none => f loc as (leNat (as.map (s.threadByte loc))) (s.settle false cls (xspace sp) loc as)

/-- The old value is pushed, and the new value, if any, is written (R291). -/
def atomicDone (loc : Loc) (as : List Nat) (old : Nat) (new : Option Nat) (s : State) : Res :=
  let s' := match new with
    | some v => s.perform loc (cellsAt as v as.length)
    | none => s
  .done (s'.setDest .push (BitVec.ofNat 64 old))

/-- The low 32 or 64 bits of an operand. -/
def lowBits (dbl : Bool) (v : Word) : Nat := v.toNat % 2 ^ (if dbl then 64 else 32)

/-- The sum of AFADD (R291): RNE, subnormals kept, a NaN canonical. -/
def floatAdd (f : FFmt) (a b : Nat) : Nat := f.round .rne ((f.decode a).add .rne (f.decode b))

/-- The new value of an atomic, if it writes one (R291). -/
def AtomicOp.new (op : AtomicOp) (dbl : Bool) (old data : Nat) : Option Nat :=
  match op with
  | .add => some ((old + data) % 2 ^ (if dbl then 64 else 32))
  | .cas cmp => if old = cmp then some data else none
  | .xch => some data
  | .max kind => some (maxMin kind (if dbl then 8 else 4) old data)
  | .fadd => some (floatAdd (if dbl then fF64 else fF32) old data)

/-- AADD (R120): to a counter it may not lower the value. -/
def execAadd (sp : XSpace) (dbl : Bool) (_sc : Scope) (data base : Opnd) (cls : Fin 16) (s : State) :
    Out :=
  let a := s.operand base
  let new (old : Nat) : Nat := (old + lowBits dbl (s.operand data)) % 2 ^ (if dbl then 64 else 32)
  finish (atomicAt sp dbl (.aadd dbl) a cls (fun old => sp == .g && s.isCounter a && decide (new old < old)) s
    fun loc as old s' => atomicDone loc as old (some (new old)) s')

def execAcas (sp : XSpace) (dbl : Bool) (_sc : Scope) (data base cmp : Opnd) (cls : Fin 16)
    (s : State) : Out :=
  finish (atomicAt sp dbl .rmw (s.operand base) cls (fun _ => false) s fun loc as old s' =>
    atomicDone loc as old (AtomicOp.new (.cas (lowBits dbl (s.operand cmp))) dbl old (lowBits dbl (s.operand data))) s')

def execAxch (sp : XSpace) (dbl : Bool) (_sc : Scope) (data base : Opnd) (cls : Fin 16) (s : State) :
    Out :=
  finish (atomicAt sp dbl .rmw (s.operand base) cls (fun _ => false) s fun loc as old s' =>
    atomicDone loc as old (AtomicOp.xch.new dbl old (lowBits dbl (s.operand data))) s')

def execAmax (kind : MaxKind) (sp : XSpace) (dbl : Bool) (_sc : Scope) (data base : Opnd)
    (cls : Fin 16) (s : State) : Out :=
  finish (atomicAt sp dbl .rmw (s.operand base) cls (fun _ => false) s fun loc as old s' =>
    atomicDone loc as old (AtomicOp.new (.max kind) dbl old (lowBits dbl (s.operand data))) s')

/-- A change to the run of the acting core's node. -/
def State.updRun (s : State) (f : AfaddRun → AfaddRun) : State :=
  match s.core.work.cur with
  | none => s
  | some p =>
    if s.runs.any fun r => r.isFor p.node then
      { s with runs := s.runs.map fun r => if r.isFor p.node then f r else r }
    else { s with runs := s.runs ++ [f (AfaddRun.new s.cur p.node)] }

/-- AFADD (R252, R291): in an exposed deterministic line it pushes zero and joins its node's run. -/
def execAfadd (sp : XSpace) (dbl : Bool) (_sc : Scope) (data base : Opnd) (cls : Fin 16) (s : State) :
    Out :=
  let a := s.operand base
  let v := lowBits dbl (s.operand data)
  finish (atomicAt sp dbl .rmw a cls (fun _ => false) s fun loc as old s' =>
    if s.core.deterministic then
      let s1 := if sp = .g then s'.addHold s.core.ctx (a.toNat / 2 ^ 48) false else s'
      .done ((s1.updRun fun r => { r with adds := r.adds ++
        [{ addr := a, loc, bytes := as, wid := s.core.regs.wid, addend := BitVec.ofNat 64 v,
           hold := if sp = .g then some s'.nextHold else none, core := s.cur.val, ctx := s.core.ctx }] }).setDest .push 0)
    else atomicDone loc as old (AtomicOp.fadd.new dbl old v) s')

/-- Order of a run: address, then WID, then the order of issue (R252). -/
def AfaddItem.before (x y : AfaddItem) : Bool :=
  x.addr.toNat < y.addr.toNat || (x.addr == y.addr && decide (x.wid.toNat < y.wid.toNat))

def insertAdd (x : AfaddItem) : List AfaddItem → List AfaddItem
  | [] => [x]
  | y :: ys => if x.before y then x :: y :: ys else y :: insertAdd x ys

def sortAdds (l : List AfaddItem) : List AfaddItem := l.foldl (fun acc x => insertAdd x acc) []

/-- One add of a run, rounded as a single AFADD; its hold ends. Over a granule that has become bad since its issue the
add is not performed, and the refused store is logged: no instruction is left to trap (R132, log entry 79). -/
def State.applyAdd (s : State) (x : AfaddItem) : State :=
  match s.firstBad x.loc x.bytes with
  | some (a, _) =>
    (s.logFor x.core 3 (match x.loc with | .u _ => 3 | .k _ => 0 | .d _ => 1 | .g => 2) x.addr a x.ctx .cc).dropHolds
      x.hold.toList
  | none =>
  let old := leNat (x.bytes.map (s.byteAt x.loc))
  let f := if x.bytes.length = 8 then fF64 else fF32
  (s.perform x.loc (cellsAt x.bytes (floatAdd f old x.addend.toNat) x.bytes.length)).dropHolds
    x.hold.toList

/-- AFADD_RUN_APPLY (R252): a run closes when every participant has ended its last invocation, and its adds are applied
one after another: some of them in this turn, so that others may see a prefix, or all that are left. -/
def execAfaddRunApply (part : AddPart) (s : State) : Out :=
  match s.runs[part.run]? with
  | none => .next s
  | some r =>
    if r.applied || r.mask &&& ~~~r.ended ≠ 0 then .next s
    else
      let order := sortAdds r.adds
      let n := part.count.getD order.length
      let s' := (order.take n).foldl State.applyAdd s
      let r' : AfaddRun := { r with adds := order.drop n, applied := decide (order.length ≤ n) }
      .next { s' with runs := s'.runs.set part.run r' }

end Sys2Proof.Machine
end

