-- ==== Sys2Proof/Machine/Tensor.lean ====
section
/-! DEFINITION. Tile shapes and slot layouts (R98, R160) and tensor maps (R190-R193). -/
namespace Sys2Proof.Machine

/-- The element formats of a slot or a tensor: a float, or an integer code of a width (R67). -/
inductive EFmt | flt (f : FFmt) | int (w : Nat)
  deriving DecidableEq, Repr

def EFmt.bits : EFmt → Nat
  | .flt f => f.width
  | .int w => w

/-- A side of a matrix format: the A element, the B element, and the native K (R67, R106, R160). -/
def fmtA : Fmt → EFmt
  | .f64 => .flt fF64 | .f32 => .flt fF32 | .bf16 => .flt fBF16 | .f16 => .flt fF16
  | .e4m3 | .e4m3e5m2 => .flt fE4M3 | .e5m2 => .flt fE5M2 | .e2m1 => .flt fE2M1
  | .q8 | .q8q4 => .int 8 | .q4 => .int 4
def fmtB : Fmt → EFmt
  | .f64 => .flt fF64 | .f32 => .flt fF32 | .bf16 => .flt fBF16 | .f16 => .flt fF16
  | .e4m3 => .flt fE4M3 | .e5m2 | .e4m3e5m2 => .flt fE5M2 | .e2m1 => .flt fE2M1
  | .q8 => .int 8 | .q8q4 | .q4 => .int 4
def fmtK : Fmt → Nat
  | .f64 => 32 | .f32 => 64 | .bf16 | .f16 => 128
  | .e4m3 | .e5m2 | .e4m3e5m2 | .q8 | .q8q4 => 256
  | .e2m1 | .q4 => 512
def fmtN : Fmt → Nat
  | .f64 => 16 | .f32 => 32
  | .bf16 | .f16 | .e4m3 | .e5m2 | .e4m3e5m2 | .q8 | .q8q4 | .e2m1 | .q4 => 64

def slotBytes : Nat := 16384

/-- Bit position of element (row, col) in rows of a byte pitch (R98, R160). -/
def elemBit (bits pitch row col : Nat) : Nat := 8 * pitch * row + bits * col

/-- Row pitch of a B tile (R160): N elements. -/
def pitchB (f : Fmt) : Nat := fmtN f * (fmtB f).bits / 8

/-- A packed element of a byte sequence, read through its bytes. -/
def elemOf (rd : Nat → Byte) (bits bit : Nat) : Nat :=
  if bits < 8 then (rd (bit / 8)).toNat / 2 ^ (bit % 8) % 2 ^ bits
  else leNat ((List.range (bits / 8)).map fun i => rd (bit / 8 + i))

/-- Elements of one width packed into bytes, element 2i in the low half (R98). -/
def packElems (bits : Nat) (l : List Nat) : List Byte :=
  if bits < 8 then go l else (l.map (leBytes (bits / 8))).flatten
where
  go : List Nat → List Byte
    | [] => []
    | [x] => [BitVec.ofNat 8 (x % 2 ^ bits)]
    | x :: y :: r => BitVec.ofNat 8 (x % 2 ^ bits + 2 ^ bits * (y % 2 ^ bits)) :: go r

/-- One element converted with RNE (R100), or kept when both are integer codes. -/
def convElem (src dst : EFmt) (x : Nat) : Conv :=
  match src, dst with
  | .flt f, .flt g =>
    if f = g then
      { code := if (f.decode x).isNan then f.nanCode else x, sat := false, unf := false,
        nan := (f.decode x).isNan }
    else g.encode .rne (f.decode x)
  | .int _, _ | _, .int _ => { code := x, sat := false, unf := false, nan := false }

-- Tensor maps (R190).

structure MapDim where
  offset : Int
  stride : Nat
  size : Nat
  nwin : Nat
  step : Nat
  ext : Nat
  deriving DecidableEq, Repr

/-- The formats a map names by their index in R67; 4-bit sources are not among the legal pairs. -/
def mapFmt : Nat → Option EFmt
  | 0 => some (.flt fF64) | 1 => some (.flt fF32) | 2 => some (.flt fBF16) | 3 => some (.flt fF16)
  | 4 => some (.flt fE4M3) | 5 => some (.flt fE5M2) | 7 => some (.flt fE2M1) | 8 => some (.int 8)
  | _ => none

def mapK : Nat → Nat
  | 0 => 32 | 1 => 64 | 2 | 3 => 128 | 7 => 512 | _ => 256

abbrev MapWords := Vector Word 10

def mapField (m : MapWords) (w hi lo : Nat) : Nat := fldN ((vget m w 0).toNat) hi lo
where fldN (x hi lo : Nat) : Nat := x / 2 ^ lo % 2 ^ (hi + 1 - lo)

def mapNdim (m : MapWords) : Nat := mapField m 0 2 0
def mapLayout (m : MapWords) : Nat := mapField m 0 3 3
def mapSfmt (m : MapWords) : Nat := mapField m 0 7 4
def mapDfmt (m : MapWords) : Nat := mapField m 0 11 8
def mapZpad (m : MapWords) : Nat := mapField m 0 19 12
def mapSsp (m : MapWords) : Nat := mapField m 9 49 48
def mapBase (m : MapWords) : Nat := mapField m 9 47 0

def mapDim (m : MapWords) (i : Nat) : MapDim :=
  let h := 32 * (i % 2)
  { offset := signedOf 16 (mapField m (1 + i) 63 48), stride := mapField m (1 + i) 47 16,
    size := mapField m (1 + i) 15 0, nwin := mapField m (6 + i / 2) (h + 31) (h + 16),
    step := mapField m (6 + i / 2) (h + 15) (h + 8), ext := mapField m (6 + i / 2) (h + 7) h }

def mapDims (m : MapWords) : List MapDim := (List.range (mapNdim m)).map (mapDim m)
def mapRows (m : MapWords) : Nat := ((mapDims m).map MapDim.nwin).prod
def mapCols (m : MapWords) : Nat := ((mapDims m).map MapDim.ext).prod

/-- The pairs of R191. -/
def mapPairOk (sf df : Nat) : Bool :=
  match mapFmt sf, mapFmt df with
  | some a, some b =>
    if sf = df then sf != 7
    else match a, b with
      | .flt f, .flt g => g.width ≤ f.width
      | _, _ => false
  | _, _ => false

def mapEsize (m : MapWords) : Nat :=
  match mapFmt (mapSfmt m) with | some f => f.bits / 8 | none => 1
def mapDbits (m : MapWords) : Nat := match mapFmt (mapDfmt m) with | some f => f.bits | none => 8

/-- A valid map (R192); word 9 is checked by its users. -/
def mapOk (m : MapWords) : Bool :=
  let n := mapNdim m
  1 ≤ n && n ≤ 5 && mapField m 0 63 20 == 0 && mapPairOk (mapSfmt m) (mapDfmt m) &&
  ((List.range 6).all fun i => decide (i < n) ||
    (if i < 5 then vget m (1 + i) 0 == 0 else true) &&
    (mapField m (6 + i / 2) (32 * (i % 2) + 31) (32 * (i % 2)) == 0)) &&
  ((mapDims m).all fun d => d.size != 0 && d.ext != 0 && d.nwin != 0) &&
  mapRows m < 2 ^ 32 && mapCols m < 2 ^ 32

/-- The bytes of the source range of a valid map (R192). -/
def mapSpan (m : MapWords) : Nat :=
  mapEsize m * (((mapDims m).map fun d => (d.size - 1) * d.stride).sum + 1)

/-- The source element of (r, k), counted in elements from the base; none for padding (R191). -/
def mapElem (m : MapWords) (r k : Nat) : Option Nat :=
  if mapRows m ≤ r || mapCols m ≤ k then none else go (mapDims m) r k 0
where
  go : List MapDim → Nat → Nat → Nat → Option Nat
    | [], _, _, acc => some acc
    | d :: ds, r, k, acc =>
      let x : Int := d.offset + (r % d.nwin : Nat) * (d.step : Nat) + (k % d.ext : Nat)
      if x < 0 || (d.size : Int) ≤ x then none
      else go ds (r / d.nwin) (k / d.ext) (acc + x.toNat * d.stride)

/-- The padding code: +0, or ZPAD for Q8 (R191). -/
def mapPad (m : MapWords) : Nat := if mapDfmt m = 8 then mapZpad m else 0

/-- The matrix elements in the order their destination bytes follow (R193). -/
def mapOrder (m : MapWords) : List (Nat × Nat) :=
  if mapLayout m = 0 then
    ((List.range (mapRows m)).map fun r => (List.range (mapCols m)).map fun k => (r, k)).flatten
  else
    let kt := mapK (mapDfmt m)
    ((List.range (ceilDiv (mapRows m) 64)).map fun rb =>
      ((List.range (ceilDiv (mapCols m) kt)).map fun kb =>
        ((List.range 64).map fun r =>
          (List.range kt).map fun k => (64 * rb + r, kt * kb + k)).flatten).flatten).flatten

/-- The bytes a map copy writes (R193). -/
def mapBytes (m : MapWords) : Nat :=
  if mapLayout m = 0 then ceilDiv (mapRows m * mapCols m * mapDbits m) 8
  else slotBytes * ceilDiv (mapRows m) 64 * ceilDiv (mapCols m) (mapK (mapDfmt m))

/-- One element converted to the destination format (R191). -/
def mapConv (m : MapWords) (x : Nat) : Conv :=
  match mapFmt (mapSfmt m), mapFmt (mapDfmt m) with
  | some a, some b => convElem a b x
  | _, _ => { code := x, sat := false, unf := false, nan := false }

end Sys2Proof.Machine
end

