-- ==== Sys2Proof/Machine/Copy.lean ====
section
/-! DEFINITION. Copies: their capture from a template, their start, reading, writing, posting and freezing
(R134-R139, R152, R193, R201, R202, R218, R300-R309, R354). -/
namespace Sys2Proof.Machine

-- Capture.

def Core.tmplWord (c : Core) (t w : Nat) : Word := (smapGet c.cpy.tmpl (16 * t + w)).getD 0

def spaceOfCode : Nat → CSpace
  | 0 => .k | 1 => .d | 2 => .g | _ => .u

/-- The template words as fields (R134). -/
structure TmplFields where
  cls : BitVec 16
  ssp : CSpace
  dsp : CSpace
  esize : Nat
  mapCode : Nat
  src : Word
  dst : Word
  ctr : Word
  delta : Word
  count : Nat
  map : Vector Word 10
  /-- every reserved field is zero -/
  clean : Bool
  deriving DecidableEq, Repr

def tmplFields (w : Nat → Word) : TmplFields :=
  let w0 := (w 0).toNat
  let mc := w0 / 2 ^ 32 % 4
  let m : Vector Word 10 := vgen 10 fun i => w (6 + i)
  { cls := BitVec.ofNat 16 (w0 / 2 ^ 48), ssp := spaceOfCode (w0 / 2 ^ 38 % 4),
    dsp := spaceOfCode (w0 / 2 ^ 36 % 4), esize := 2 ^ (w0 / 2 ^ 34 % 4), mapCode := mc,
    src := w 1, dst := w 2, ctr := w 3, delta := w 4, count := (w 5).toNat % 2 ^ 48, map := m,
    clean := w0 / 2 ^ 40 % 256 == 0 && w0 % 2 ^ 32 == 0 && (w 5).toNat / 2 ^ 48 == 0 &&
      (mc != 0 || m.toList.all (· == 0)) }

/-- A template that STA and CCOPY refuse with reason 0x19 (R135, R193, R201). -/
def TmplFields.bad (t : TmplFields) (spec : Bool) : Bool :=
  !t.clean || 2 ≤ t.mapCode ||
  (t.mapCode == 1 && (!(mapOk t.map) || t.map[9] != 0 || t.esize != mapEsize t.map || t.count != 0)) ||
  (spec && t.dsp == .g)

/-- An address plus an offset: for G in bits 47:0, with the carry reported. -/
def addOffset (sp : CSpace) (a off : Word) : Word × Bool :=
  if sp = .g then
    let sum := a.toNat % 2 ^ 48 + off.toNat
    (BitVec.ofNat 64 (a.toNat / 2 ^ 48 * 2 ^ 48 + sum % 2 ^ 48), decide (2 ^ 48 ≤ sum))
  else (a + off, false)

/-- A local range of a copy: any byte outside its space (R115). -/
def State.rangeBad (s : State) (sp : CSpace) (a : Word) (n : Nat) : Bool :=
  sp != .g && n != 0 && (s.localAddr (cspace sp) a n).isNone

/-- How a capture ends: the copy and the state with its holds, or a trap of R215. -/
inductive Prep | ok (k : Copy) (s : State) | trap (code : Nat) (info : Word)

/-- Bytes read from the source and written to the destination. -/
def srcBytes (m : Option (Vector Word 10)) (esize count : Nat) : Nat :=
  match m with | some m => mapSpan m | none => esize * count
def dstBytes (m : Option (Vector Word 10)) (esize count : Nat) : Nat :=
  match m with | some m => mapBytes m | none => esize * count

/-- The source of a speculative copy (R201): a missing right R or S traps, every other failed translation
is a failure code. -/
def State.specSource (s : State) (a : Word) (n : Nat) : Except (Nat × Word) (Except Nat Xlat) :=
  match s.ccTranslate s.core.ctx .spec a [(a.toNat % 2 ^ 48, n)] with
  | .ok x => .ok (.ok x)
  | .error b =>
    let owned := match s.entryAddr s.core.ctx (a.toNat / 2 ^ 48) 0 with
      | some pa => wordValid (s.gWord (pa + 16)) && wordOwner (s.gWord (pa + 16)) == s.core.ctx.val
      | none => false
    if b.code = 6 && owned then .error (b.code, b.info) else .ok (.error b.code)

/-- The buffers a copy holds: destination, counter and source, each once; the counter's hold is one that
will post (R123, R310). -/
def holdList (c d p : Option Nat) : List (Nat × Bool) :=
  let posts := p.toList.map fun e => (e, true)
  let rest := (d.toList ++ c.toList).eraseDups.filter fun e => some e != p
  posts ++ rest.map fun e => (e, false)

def State.takeHolds (s : State) (l : List (Nat × Bool)) : State × List Nat :=
  l.foldl (fun acc h => (acc.1.addHold acc.1.core.ctx h.1 h.2, acc.2 ++ [acc.1.nextHold])) (s, [])

/-- The translations and holds of a copy whose ranges are settled: destination, counter, then source
(R135, R354). `n` is a source size and `m` a destination size in bytes. -/
def State.prepare (s : State) (k : Copy) (n m : Nat) : Prep :=
  let buf (a : Word) := a.toNat / 2 ^ 48
  let off (a : Word) := a.toNat % 2 ^ 48
  match (if k.dsp = .g then (s.ccTranslate s.core.ctx .store k.dst [(off k.dst, m)]).map some
         else .ok none) with
  | .error b => .trap b.code b.info
  | .ok dx =>
    let ctr : Except Bad (Option Xlat) := match k.post with
      | none => .ok none
      | some (c, _) =>
        if c.toNat % 8 ≠ 0 then .error ⟨0x03, infoG c, none⟩
        else (s.ccTranslate s.core.ctx .counter c [(off c, 8)]).map some
    match ctr with
    | .error b => .trap b.code b.info
    | .ok px =>
      let src : Except (Nat × Word) (Except Nat (Option Xlat)) :=
        if k.ssp ≠ .g || k.fill.isSome then .ok (.ok none)
        else if k.spec then
          (match s.specSource k.src n with
           | .error e => .error e
           | .ok (.ok x) => .ok (.ok (some x))
           | .ok (.error f) => .ok (.error f))
        else match s.ccTranslate s.core.ctx .load k.src [(off k.src, n)] with
          | .error b => .error (b.code, b.info)
          | .ok x => .ok (.ok (some x))
      match src with
      | .error (c, i) => .trap c i
      | .ok sx =>
        let held (x : Option Xlat) (a : Word) : Option Nat := x.map fun _ => buf a
        let srcX := match sx with | .ok x => x | .error _ => none
        let r := s.takeHolds (holdList (held srcX k.src) (held dx k.dst)
          (held px (match k.post with | some (c, _) => c | none => 0)))
        .ok { k with
          srcX, dstX := dx, ctrX := px, holds := r.2,
          fail := match sx with | .error f => some f | .ok _ => none } r.1

/-- A template copy as STA and CCOPY capture it, with its checks in the order of R354. -/
def State.captureCopy (s : State) (t : Nat) (off : Nat) (spec post : Bool) : Prep :=
  let f := tmplFields (s.core.tmplWord t)
  if f.bad spec then .trap 0x01 (illegalInfo 0x19)
  else
    let o := BitVec.ofNat 64 (off * f.esize)
    let a := addOffset f.ssp f.src o
    let d := addOffset f.dsp f.dst o
    let m := if f.mapCode = 1 then some f.map else none
    let n := srcBytes m f.esize f.count
    let w := dstBytes m f.esize f.count
    if a.2 then .trap 0x07 (infoG a.1)
    else if d.2 then .trap 0x07 (infoG d.1)
    else if m.isSome && a.1.toNat % f.esize != 0 then .trap 0x03 (infoAddr (cspace f.ssp) a.1)
    else if s.rangeBad f.ssp a.1 n then .trap 0x04 (infoLocal a.1)
    else if s.rangeBad f.dsp d.1 w then .trap 0x04 (infoLocal d.1)
    else s.prepare
      { ssp := f.ssp, dsp := f.dsp, src := a.1, dst := d.1, esize := f.esize, count := f.count,
        map := m, fill := none, moves := true, post := if post then some (f.ctr, f.delta) else none, spec,
        fail := none, srcX := none, dstX := none, ctrX := none, holds := [], cls := f.cls,
        need := [], ctx := s.core.ctx, seq := s.core.seq, num := s.core.cpy.staSeq, det := s.core.deterministic } n w

/-- CFILL at routing (R304). -/
def State.captureFill (s : State) (sp : CSpace) (len pat addr : Word) : Prep :=
  if len = 0 || len.toNat % 4 ≠ 0 || 2 ^ 32 ≤ len.toNat then .trap 0x04 (infoAddr (cspace sp) addr)
  else if addr.toNat % 4 ≠ 0 then .trap 0x03 (infoAddr (cspace sp) addr)
  else if s.rangeBad sp addr len.toNat then .trap 0x04 (infoLocal addr)
  else s.prepare
    { ssp := .u, dsp := sp, src := 0, dst := addr, esize := 4, count := len.toNat / 4, map := none,
      fill := some (pat.setWidth 32), moves := true, post := none, spec := false, fail := none, srcX := none,
      dstX := none, ctrX := none, holds := [], cls := 0, need := [], ctx := s.core.ctx,
      seq := s.core.seq, num := s.core.cpy.staSeq, det := s.core.deterministic } 0 len.toNat

/-- CPOST at routing (R309): a copy of no element that posts. -/
def State.capturePost (s : State) (v c : Word) : Prep :=
  s.prepare
    { ssp := .u, dsp := .u, src := 0, dst := 0, esize := 1, count := 0, map := none, fill := none, moves := false,
      post := some (c, v), spec := false, fail := none, srcX := none, dstX := none, ctrX := none,
      holds := [], cls := 0, need := [], ctx := s.core.ctx, seq := s.core.seq,
      num := s.core.cpy.staSeq, det := s.core.deterministic } 0 0

/-- CMOV at routing (R307). -/
def State.captureMove (s : State) (ssp dsp : CSpace) (len a d : Word) : Prep :=
  if len = 0 || len.toNat % 64 ≠ 0 || 2 ^ 27 < len.toNat then .trap 0x04 (infoLocal a)
  else if s.rangeBad ssp a len.toNat then .trap 0x04 (infoLocal a)
  else if s.rangeBad dsp d len.toNat then .trap 0x04 (infoLocal d)
  else if a.toNat % 64 ≠ 0 then .trap 0x03 (infoLocal a)
  else if d.toNat % 64 ≠ 0 then .trap 0x03 (infoLocal d)
  else s.prepare
    { ssp, dsp, src := a, dst := d, esize := 8, count := len.toNat / 8, map := none, fill := none, moves := true,
      post := none, spec := false, fail := none, srcX := none, dstX := none, ctrX := none,
      holds := [], cls := 0, need := [], ctx := s.core.ctx, seq := s.core.seq,
      num := s.core.cpy.staSeq, det := s.core.deterministic } len.toNat len.toNat

-- STA (R135, R354).

def Channel.none : Channel := { cur := Option.none, waiting := [] }

def State.updChannel (s : State) (ch : Nat) (f : Channel → Channel) : State :=
  s.updCpy fun c => { c with channels := vset c.channels ch (f (vget c.channels ch Channel.none)) }

def execSta (addr data : Opnd) (mask : BitVec 16) (s : State) : Out :=
  let a := s.operand addr
  let dat := s.operand data
  finish
    (if 0x40 ≤ a.toNat then .trap 0x04 (infoLocal a) s
     else if a.toNat % 8 ≠ 0 then .trap 0x03 (infoLocal a) s
     else match s.captureCopy (dat.toNat % 64) (dat.toNat / 2 ^ 8) (dat.getLsbD 6) (dat.getLsbD 7) with
      | .trap code info => .trap code info s
      | .ok k s' =>
        let ch := a.toNat / 8
        if 4 ≤ (vget s.core.cpy.channels ch Channel.none).waiting.length then .stall s
        else
          let m := mask ||| k.cls
          let need := (s.core.pend.filter fun p => !p.ve && inMask m p).map Pending.num
          .done ((s'.updCpy fun c => { c with staSeq := c.staSeq + 1 }).updChannel ch fun c =>
            { c with waiting := c.waiting ++ [{ k with cls := m, need }] }))

-- Reading (R135, R136, R152).

/-- Copy channels and engine queues stand still while a trap froze them, a COPY_FREEZE is to be taken, or a debugger
stopped the core (R211, R214, R218, R255). -/
def Core.frozen (c : Core) : Bool :=
  (c.trap.inh && c.trap.frz) || c.work.stopped || c.trap.pending.any fun t => t.code == 0x0F

/-- The source elements of a copy, as byte offsets from its source address; none is padding. -/
def Copy.elems (k : Copy) : List (Option Nat) :=
  match k.map with
  | some m => (mapOrder m).map fun x => (mapElem m x.1 x.2).map (mapEsize m * ·)
  | none => (List.range k.count).map fun i => some (i * k.esize)

/-- The port's own check of a request (R125): bounds, rights and OWNER of the entry that it was translated with. -/
def Xlat.allows (x : Xlat) (k : GKind) (off n : Nat) : Bool :=
  decide (off + n ≤ x.len) && (rightsFault k (wordRights x.word2)).isNone && wordOwner x.word2 == x.ctx.val

/-- The places of a checked request. -/
def Xlat.served (x : Xlat) (k : GKind) (off n : Nat) : Option (List Nat) :=
  if x.allows k off n then x.places off n else none

/-- The place of bytes of the source or destination; none where the port refuses (R125). -/
def State.copyPlace (s : State) (k : GKind) (sp : CSpace) (x : Option Xlat) (a : Word) (n : Nat) :
    Option (Loc × List Nat) :=
  match x with
  | some x => (x.served k (a.toNat % 2 ^ 48) n).map fun l => (.g, l)
  | none => (s.localAddr (cspace sp) a n).map fun l => (l.1, (List.range n).map (l.2 + ·))

/-- The CC stores of this core that a read races, by place (R152). -/
def Core.ccPend (c : Core) : List Pending := c.pend.filter fun p => !p.ve

/-- One aligned word of a racing read is wholly old or wholly new; the choice is free, counted in HAZ
(R135, R139). A racing word is decided once per copy: the list holds the words decided so far. -/
def State.raceByte (s : State) (sp : CSpace) (a : Word) (loc : Loc) (b : Nat)
    (chosen : List (Nat × Bool)) : Byte × State × List (Nat × Bool) :=
  match pendByte s.core.ccPend loc b with
  | none => (s.coreByte loc b, s, chosen)
  | some v =>
    match List.lookup (a.toNat / 4) chosen with
    | some c => (if c then v else s.coreByte loc b, s, chosen)
    | none =>
      let c := Config.copyChoice s.fresh
      (if c then v else s.coreByte loc b,
       s.draw.updCpy (fun q => { q with
         hazCount := satAdd32 q.hazCount 1, hazSpace := BitVec.ofNat 2 (spaceCode (cspace sp)),
         hazAddr := BitVec.ofNat 64 (a.toNat / 4 * 4) }),
       (a.toNat / 4, c) :: chosen)

/-- The bytes of one element. -/
def State.raceBytes (s : State) (sp : CSpace) (a : Word) (loc : Loc) :
    List Nat → List (Nat × Bool) → List Byte × State × List (Nat × Bool)
  | [], ch => ([], s, ch)
  | b :: bs, ch =>
    let r := s.raceByte sp a loc b ch
    let q := State.raceBytes r.2.1 sp (a + 1) loc bs r.2.2
    (r.1 :: q.1, q.2.1, q.2.2)

/-- How the reading of elements ends: all read, a speculative failure, or an error response. -/
inductive ReadEnd | all | fail (code : Nat) | err (kind : Nat) (addr : Word)
  deriving DecidableEq, Repr

/-- A copy reads its source as an access of this kind. -/
def Copy.reads (k : Copy) : GKind := if k.spec then .spec else .load

/-- The elements of a copy read in order, up to the first that fails (R131, R201, R218). Padding reads
nothing. A speculative copy that meets poison or a mark fails with MEM_POISON, as R201's table says; R202's "the same
code (R201)" is read as that code (DEDUCED, log entry 59). -/
def State.readElems (s : State) (k : Copy) :
    List (Option Nat) → List (Nat × Bool) → List (List Byte) × ReadEnd × State
  | [], _ => ([], .all, s)
  | none :: r, ch =>
    let q := s.readElems k r ch
    ([] :: q.1, q.2.1, q.2.2)
  | some o :: r, ch =>
    let a := (addOffset k.ssp k.src (BitVec.ofNat 64 o)).1
    match s.copyPlace k.reads k.ssp k.srcX a k.esize with
    | none => ([], if k.spec then .fail 0x06 else .err 2 a, s)
    | some (loc, bs) =>
      match s.coreBad loc bs with
      | some (_, m) =>
        ([], if k.spec then .fail 0x0D else .err (if m.isSome then 3 else 0) a, s)
      | none =>
        let v := s.raceBytes k.ssp a loc bs ch
        let q := v.2.1.readElems k r v.2.2
        (v.1 :: q.1, q.2.1, q.2.2)

-- Writing and posting (R136, R137, R201).

/-- The destination bytes of a copy from the elements it read. -/
def Copy.output (k : Copy) (data : List (List Byte)) : List Byte :=
  match k.fill, k.map with
  | some p, _ => (List.replicate k.count (leBytes 4 p.toNat)).flatten
  | none, some m =>
    packElems (mapDbits m) (data.map fun e =>
      if e.isEmpty then mapPad m else (mapConv m (leNat e)).code)
  | none, none => data.flatten

/-- Where a linear copy's source element lies in its own destination: the element that writes it (R136). A copy onto
itself at a distance that is no multiple of the element size takes every element from before the copy, one of the
values that R136 leaves open (DESIGN CHOICE, log entry 72). -/
def Copy.overlap (k : Copy) (i : Nat) : Option Nat :=
  let a := k.src.toNat + i * k.esize
  let d := k.dst.toNat
  if k.ssp = k.dsp && k.map.isNone && k.fill.isNone && d ≤ a && (a - d) % k.esize = 0 &&
      (a - d) / k.esize < k.count then some ((a - d) / k.esize) else none

/-- R136: an element whose source the copy has written already takes either value; elements are written
in ascending or descending order as a free choice says. -/
def overlapped (k : Copy) (n : Nat) (data : List (List Byte)) : List (List Byte) :=
  let up := Config.copyChoice n
  let order := if up then List.range data.length else (List.range data.length).reverse
  let r := order.foldl
    (fun (acc : SMap (List Byte)) i =>
      let own := data.getD i []
      let v := match k.overlap i with
        | some j => (match smapGet acc j with
          | some w => if Config.copyChoice (n + 1 + i) then w else own
          | none => own)
        | none => own
      smapPut acc i v) []
  (List.range data.length).map fun i => (smapGet r i).getD []

/-- The whole destination bytes of the elements read so far; where source and destination overlap, a free
choice decides (R136), which is one in every run for a copy of a deterministic line (R253). -/
def State.outBytes (s : State) (k : Copy) (data : List (List Byte)) : List Byte × State :=
  if k.fill.isNone && k.map.isNone && (List.range k.count).any fun i => (k.overlap i).isSome then
    (k.output (overlapped k (if k.det then 0 else s.fresh) data), { s with fresh := s.fresh + 1 + k.count })
  else match k.map with
    | some m =>
      if data.length < k.elems.length then ((k.output data).take (data.length * mapDbits m / 8), s)
      else (k.output data, s)
    | none => (k.output data, s)

/-- The first byte of the element that a byte of the destination belongs to. -/
def Copy.elemStart (k : Copy) (i : Nat) : Nat := if k.map.isSome then i else i - i % k.esize

/-- Bytes of one element of the destination; two elements of four bits go together. -/
def Copy.unit (k : Copy) : Nat := match k.map with | some m => max 1 (mapDbits m / 8) | none => k.esize

/-- Of the cells from a position of the destination, those that no early write has performed (R391). -/
def Copy.rest (k : Copy) (landed : List Nat) (start : Nat) (cells : List Host.Cell) : List Host.Cell :=
  if landed.isEmpty then cells
  else (cells.zipIdx.filter fun c => !(landed.contains ((start + c.2) / k.unit))).map Prod.fst

/-- The bytes of a copy written from position `start` to the end of what has been read, up to the first in a
bad granule that the copy does not cover whole (R132). A bad granule that it covers whole is written in one
piece. Elements that have landed before are not written again. Answers the state, the count written, and the address
refused with its kind. -/
def State.writeOut (s : State) (k : Copy) (landed : List Nat) (out : List Byte) (start : Nat) :
    State × Nat × Option (Nat × Word) :=
  let n := dstBytes k.map k.esize k.count
  match s.copyPlace .store k.dsp k.dstX k.dst n with
  | none =>
    -- a port refuses the first byte it does not serve
    let i := ((List.range out.length).find? fun i =>
      (s.copyPlace .store k.dsp k.dstX (k.dst + BitVec.ofNat 64 i) 1).isNone).getD out.length
    match s.copyPlace .store k.dsp k.dstX k.dst i with
    | none => (s, start, some (2, k.dst))
    | some (loc, as) =>
      (s.enginePerform loc (k.rest landed start ((as.zip out).drop start)), max start i,
       if i < out.length then some (2, k.dst + BitVec.ofNat 64 i) else none)
  | some (loc, as) =>
    let bad := (s.corePad loc).bad
    let within (l : List Nat) (g : Nat) := (List.range loc.granule).all fun i => l.contains (g * loc.granule + i)
    let refused (i : Nat) : Bool := !bad.isEmpty && (match as[i]? with
      | some a => (smapGet bad (a / loc.granule)).isSome && !(within as (a / loc.granule))
      | none => false)
    let unready (i : Nat) : Bool := !bad.isEmpty && decide (out.length < n) && (match as[i]? with
      | some a => (smapGet bad (a / loc.granule)).isSome && !(within (as.take out.length) (a / loc.granule))
      | none => false)
    match (List.range out.length).find? fun i => start ≤ i && (refused i || unready i) with
    | none => (s.enginePerform loc (k.rest landed start ((as.zip out).drop start)), max start out.length, none)
    | some i =>
      let i' := max start (k.elemStart i)
      (s.enginePerform loc (k.rest landed start (((as.zip out).take i').drop start)), i',
       if refused i then some (1, k.dst + BitVec.ofNat 64 i') else none)

-- Reading goes on, and an error holds the element that met it (R131, R201, R218).

/-- The physical address of an address of a copy, for the log (R133); that of a local space is the address. -/
def physical (x : Option Xlat) (a : Word) : Nat :=
  match x with | some x => x.logged (a.toNat % 2 ^ 48) | none => a.toNat

/-- The error of an element is held until its COPY_FREEZE has been handled, and logged. -/
def State.holdError (s : State) (run : CopyRun) (kind space : Nat) (x : Option Xlat) (a : Word) : CopyRun × State :=
  ({ run with err := some (kind, space, a) },
   s.logEvent (if kind = 2 then 4 else if kind = 1 then 3 else 2) space a (physical x a) run.copy.ctx .ce)

/-- A copy whose element is issued again after a port violation has its buffers translated anew, so that a repaired
frame map or right is seen, at its first turn after the handler's ERET (R218). -/
def State.retranslate (s : State) (k : Copy) : Copy :=
  let again (kind : GKind) (x : Option Xlat) (a : Word) (n : Nat) : Option Xlat :=
    x.map fun x => match s.translate k.ctx kind a [(a.toNat % 2 ^ 48, n)] with | .ok y => y | .error _ => x
  { k with
    srcX := again k.reads k.srcX k.src (srcBytes k.map k.esize k.count)
    dstX := again .store k.dstX k.dst (dstBytes k.map k.esize k.count)
    ctrX := match k.post with | some (c, _) => again .counter k.ctrX c 8 | none => k.ctrX }

/-- Reading goes on from the first element not read. The elements before one that fails are written
(R218). -/
def State.readMore (s : State) (run : CopyRun) : CopyRun × State :=
  let k := run.copy
  if k.fail.isSome || k.fill.isSome then (run, s)
  else
    let r := s.readElems k (k.elems.drop run.data.length) []
    let data := run.data ++ r.1
    match r.2.1 with
    | .all => ({ run with data }, r.2.2)
    | .fail c => ({ run with data, copy := { k with fail := some c } }, r.2.2)
    | .err kind a =>
      let o := r.2.2.outBytes k data
      let w := o.2.writeOut k run.landed o.1 run.written
      match w.2.2 with
      | some (kind', a') =>
        w.1.holdError { run with data, written := w.2.1 } kind' (spaceCode (cspace k.dsp)) k.dstX a'
      | none => w.1.holdError { run with data, written := w.2.1 } kind (spaceCode (cspace k.ssp)) k.srcX a

/-- COPY_BEGIN (R135): the next copy of a channel starts when none is in progress and the stores its mask
names are performed. -/
def execCopyBegin (ch : Fin 9) (s : State) : Out :=
  let c := vget s.core.cpy.channels ch Channel.none
  match c.cur, c.waiting with
  | none, k :: rest =>
    if s.core.frozen then .next s
    else
      let s' := s.performWhere fun p => k.need.contains p.num
      let r := s'.readMore { copy := k, data := [], written := 0, err := none, froze := none, again := false, landed := [] }
      .next (r.2.updChannel ch fun _ => { cur := some r.1, waiting := rest })
  | _, _ => .next s

/-- The post of a copy (R137): an add over a bad granule is a refused store (R132), and one that would lower the counter
a port violation (R120). -/
def State.postCopy (s : State) (k : Copy) : Except (Nat × Word) State :=
  match k.post, k.ctrX with
  | some (c, delta), some x =>
    match x.served .counter (c.toNat % 2 ^ 48) 8 with
    | none => .error (2, c)
    | some as =>
      if (s.firstBad .g as).isSome then .error (1, c)
      else
        let old := leNat (as.map (s.byteAt .g))
        let new := (old + delta.toNat) % 2 ^ 64
        if new < old then .error (2, c) else .ok (s.perform .g (cellsAt as new 8))
  | _, _ => .ok s

/-- The marks a failed speculative copy leaves on its destination (R201). -/
def State.markDest (s : State) (k : Copy) (code : Nat) : State :=
  match s.copyPlace .store k.dsp k.dstX k.dst (dstBytes k.map k.esize k.count) with
  | some (loc, as) => s.setBad loc as (some code)
  | none => s

/-- Lane B of an instruction that goes to an engine: its token fields (none for another). -/
def LaneB.of : Instr → Option LaneB
  | .mclaim _ _ b | .mrel _ _ b | .mzero _ _ b | .mfill _ _ b | .mwb _ _ b | .mnest _ _ _ b
  | .msca _ _ _ _ _ _ b | .mma _ _ _ _ _ b | .mgo _ _ _ _ _ b | .mmaLad _ _ _ _ b
  | .mladr _ _ _ _ _ b | .mmon _ _ b | .mspec _ b | .mresolve _ _ _ _ _ b
  | .vadd _ b | .vsub _ b | .vmul _ b | .vfma _ b | .vmin _ b | .vmax _ b | .vabs _ b | .vneg _ b
  | .vrcp _ b | .vrsq _ b | .vexp2 _ b | .vlog2 _ b | .vcvt _ _ _ b | .vcmp _ _ _ _ _ _ b
  | .vsel _ b | .vand _ b | .vor _ b | .vxor _ b | .vshl _ b | .vshr _ _ b | .vred _ _ _ b
  | .vperm _ b | .vbcast _ _ b | .viota _ _ _ b | .vmovi _ _ _ _ b | .vldu _ b | .vstu _ b
  | .vldk _ b | .vstk _ b | .vldd _ b | .vstd _ b | .vstn _ b | .vldg _ _ b | .vgrow _ b
  | .vshrink _ b | .vrdacc _ _ _ _ _ b | .ccopy _ _ _ _ b | .cfill _ _ _ _ b | .cpost _ _ b
  | .cqnt _ b | .cmov _ _ _ _ _ b | .gcsr _ _ _ _ b | .gmap _ _ _ b | .grows _ _ _ _ _ b
  | .gscat _ _ _ _ _ b | .lsend _ _ _ _ _ b | .lred _ _ _ _ _ _ _ b | .lbar _ b => some b
  | _ => none

/-- The head entry of an engine has performed: it goes on to push its tokens. -/
def State.entryPerformed (s : State) (e : Eng) : State :=
  s.updEng fun g =>
    let q := vget g.queues e.num EngQ.empty
    let q' : EngQ := match q.entries with
      | .instr i _ :: _ =>
        (match LaneB.of i with
         | some b => { q with phase := .pushing b.push, step := 0 }
         | none => q)
      | _ => q
    { g with queues := vset g.queues e.num q' }

/-- A copy has ended: its holds are released and its channel is free; the CE's own copy completes its
entry. -/
def State.endCopy (s : State) (ch : Fin 9) (k : Copy) : State :=
  let s' := (s.dropHolds k.holds).updChannel ch fun c => { c with cur := none }
  if ch = 8 then s'.entryPerformed .ce else s'

/-- COPY_COMPLETE (R136, R137): the rest is read, the writes are performed, a failure is marked, and the
counter is posted. An error on the way is held until COPY_FREEZE. -/
def execCopyComplete (ch : Fin 9) (s : State) : Out :=
  match (vget s.core.cpy.channels ch Channel.none).cur with
  | none => .next s
  | some run =>
    if s.core.frozen || run.err.isSome then .next s
    else
      let r := s.readMore (if run.again then { run with copy := s.retranslate run.copy, again := false } else run)
      let run := r.1
      let s := r.2
      let hold (h : CopyRun × State) : Out :=
        .next (h.2.updChannel ch fun c => { c with cur := some h.1 })
      if run.err.isSome then hold (run, s)
      else
        let k := run.copy
        let w : State × Nat × Option (Nat × Word) := match k.fail with
          | some code => (s.markDest k code, 0, none)
          | none =>
            let o := s.outBytes k run.data
            o.2.writeOut k run.landed o.1 run.written
        let s := w.1
        match w.2.2 with
        | some (kind, a) => hold (s.holdError { run with written := w.2.1 } kind (spaceCode (cspace k.dsp)) k.dstX a)
        | none =>
          match s.postCopy k with
          | .error (kind, a) => hold (s.holdError { run with written := w.2.1 } kind 2 k.ctrX a)
          | .ok s => .next (s.endCopy ch k)

/-- Element i of a copy in progress is written before the rest of it (R391): nothing orders the elements of one copy for
those who look on. A copy onto itself, and one with a bad granule in its destination, is written in order. -/
def State.landElem (s : State) (ch : Fin 9) (i : Nat) : State :=
  match (vget s.core.cpy.channels ch Channel.none).cur with
  | none => s
  | some run =>
    let k := run.copy
    let out := (s.outBytes k run.data).1
    if s.core.frozen || run.err.isSome || run.again || k.fail.isSome || !k.moves || run.landed.contains i ||
        i * k.unit < run.written || out.length < (i + 1) * k.unit ||
        ((List.range k.count).any fun j => (k.overlap j).isSome) then s
    else match s.copyPlace .store k.dsp k.dstX k.dst (dstBytes k.map k.esize k.count) with
      | none => s
      | some (loc, as) =>
        if (s.coreBad loc as).isSome then s
        else (s.enginePerform loc (((as.zip out).drop (i * k.unit)).take k.unit)).updChannel ch fun c =>
          { c with cur := some { run with landed := run.landed ++ [i] } }

/-- An element that a copy has read, looked at again: each aligned word of it stays or is what stands there now, as a free
choice says (R142, R152). -/
def State.lookElem (s : State) (k : Copy) (x : List Byte × Option Nat) : List Byte :=
  match x.2 with
  | none => x.1
  | some o =>
    match s.copyPlace k.reads k.ssp k.srcX (addOffset k.ssp k.src (BitVec.ofNat 64 o)).1 k.esize with
    | none => x.1
    | some (loc, bs) =>
      if (s.coreBad loc bs).isSome then x.1
      else ((x.1.zip bs).zipIdx).map fun b =>
        if Config.copyChoice (s.fresh + (k.src.toNat % 4 + o + b.2) / 4) then s.coreByte loc b.1.2 else b.1.1

/-- A copy in progress reads its source over some time, and in no order of its words (R391): what it has read may still
become what its words hold now. A copy of a deterministic line reads once (R253). -/
def State.lookCopy (s : State) (ch : Fin 9) : State :=
  match (vget s.core.cpy.channels ch Channel.none).cur with
  | none => s
  | some run =>
    let k := run.copy
    if s.core.frozen || run.err.isSome || run.again || k.fail.isSome || k.fill.isSome || k.det then s
    else
      let data := (run.data.zip k.elems).map (s.lookElem k)
      ({ s with fresh := s.fresh + srcBytes k.map k.esize k.count / 4 + 2 } : State).updChannel ch fun c =>
        { c with cur := some { run with data } }

/-- TINFO of a copy freeze (R218). -/
def freezeInfo (kind space : Nat) (a : Word) (ch : Nat) (e : Eng) : Word :=
  infoLocal a ||| BitVec.ofNat 64 (space % 4 * 2 ^ 14 + kind % 4 * 2 ^ 12 + ch % 8 * 2 ^ 9 + e.num)

/-- COPY_FREEZE (R218): the error response of a begun command arrives, and everything of the core stands still. The
command keeps its element and its holds, and issues the element again after the handler. -/
def execCopyFreeze (e : Eng) (ch : Fin 9) (s : State) : Out :=
  match (if e = .ce then (vget s.core.cpy.channels ch Channel.none).cur else none) with
  | some r =>
    (match r.err, r.froze with
     | some (kind, sp, a), none =>
       let info := freezeInfo kind sp a (if ch = 8 then 0 else ch.val) .ce
       .next ((s.updChannel ch fun c => { c with cur := some { r with froze := some info } }).pendTrap
         { code := 0x0F, eng := .ce, info })
     | _, _ => .next s)
  | none =>
    match s.core.cpy.errs.find? fun x => x.1 == e with
    | some x =>
      .next ((s.updCpy fun c => { c with errs := c.errs.erase x }).pendTrap
        { code := 0x0F, eng := e, info := freezeInfo x.2.1 x.2.2.1 x.2.2.2 0 e })
    | none => .next s

end Sys2Proof.Machine
end

