-- ==== Sys2Proof/Machine/Engine.lean ====
section
/-! DEFINITION. Engine queues: routing, the head entry, tokens, nullification and fences (R48, R49, R57,
R80, R149-R151, R210, R268, R271). -/
namespace Sys2Proof.Machine

-- Tokens (R11, R49): fifteen per queue.

def Engines.tok (g : Engines) (i j : Eng) : Nat := vget g.tokens (6 * i.num + j.num) 0

def Engines.setTok (g : Engines) (i j : Eng) (n : Nat) : Engines :=
  { g with tokens := vset g.tokens (6 * i.num + j.num) n }

def allEngines : List Eng := [.cc, .me, .ve, .ce, .ge, .le]

/-- The engines of a mask, in ascending order. -/
def maskEngines (m : BitVec 6) : List Eng := allEngines.filter fun e => m.getLsbD e.num

def Engines.canPop (g : Engines) (e : Eng) (m : BitVec 6) : Bool :=
  (maskEngines m).all fun x => 0 < g.tok x e

def Engines.popAll (g : Engines) (e : Eng) (m : BitVec 6) : Engines :=
  (maskEngines m).foldl (fun g x => g.setTok x e (g.tok x e - 1)) g

/-- Pushes go out in ascending order up to the first full queue; the rest of the mask is left. -/
def Engines.pushSome (g : Engines) (e : Eng) (m : BitVec 6) : Engines × BitVec 6 :=
  (maskEngines m).foldl
    (fun acc x =>
      if acc.2.2 || 15 ≤ acc.1.tok e x then (acc.1, acc.2.1, true)
      else (acc.1.setTok e x (acc.1.tok e x + 1),
            acc.2.1 &&& ~~~(BitVec.ofNat 6 (2 ^ x.num)), false))
    (g, m, false) |> fun r => (r.1, r.2.1)

-- Routing (R57).

def Core.queue (c : Core) (e : Eng) : EngQ := vget c.eng.queues e.num EngQ.empty

def Engines.queueOf (g : Engines) (e : Eng) : EngQ := vget g.queues e.num EngQ.empty

def Engines.setQueue (g : Engines) (e : Eng) (q : EngQ) : Engines :=
  { g with queues := vset g.queues e.num q }

/-- The head entry leaves its queue. -/
def Engines.popEntry (g : Engines) (e : Eng) : Engines :=
  g.setQueue e { g.queueOf e with entries := (g.queueOf e).entries.tail, step := 0, late := false, full := false, stalls := false }

/-- What a lane pair captures when it is routed (R57). -/
def Core.capture (c : Core) (e : Eng) (g : Bool) : Capture :=
  { params := vget c.eng.params e.num (Vector.replicate 16 0), guard := g, line := c.fetch.line,
    lane := c.fetch.lane, lmode := c.fetch.lmode, ctx := c.ctx, wid := c.regs.wid, seq := c.seq,
    copy := none }

/-- The parameter checks of LSEND and LRED (R268): a trap code and its address. -/
def linkFault (c : Capture) (d s pk : Fin 16) (ctr : Option (Fin 16)) (len : Fin 4096) :
    Option (Nat × Word) :=
  let n := (if len.val = 0 then 4096 else len.val) * 64
  let S := c.param s
  if S.toNat % 64 ≠ 0 then some (0x03, infoLocal S)
  else if (c.param d).toNat % 64 ≠ 0 then some (0x03, infoG (c.param d))
  else match ctr with
    | some k => if (c.param k).toNat % 8 ≠ 0 then some (0x03, infoG (c.param k)) else range S n
    | none => range S n
where
  range (S : Word) (n : Nat) : Option (Nat × Word) :=
    if 0x300000 < S.toNat + n then some (0x04, infoLocal S)
    else if 4095 < (c.param pk).toNat then some (0x04, infoLocal (c.param pk)) else none

/-- Routing one lane pair (R57): an inactive engine is ILLEGAL 0x16, copies are captured and translated (R123,
R300), link parameters are checked (R268), and a full queue stalls. A nullified command translates nothing (R80). The
checks come first, so that their traps are raised also while the queue is full, an order that R57 leaves open (DESIGN
CHOICE, log entry 86). The lane pair takes two lanes. EXPECT has been held to the line's mode by the decoder (R268). -/
def routePair (e : Eng) (i : Instr) (s : State) : Res :=
  let q := s.core.queue e
  let put (c : Capture) (s : State) : Res :=
    if 32 ≤ q.entries.length then .stall s
    else .done ((s.updEng fun g =>
      g.setQueue e { q with entries := q.entries ++ [.instr i c] }).advance)
  let g := match LaneB.of i with | some b => guardValue b s.core.regs | none => true
  let c := s.core.capture e g
  let prep (p : State → Prep) : Res :=
    if !g then put c s
    else match p s with
      | .trap code info => .trap code info s
      | .ok k s' => if 32 ≤ q.entries.length then .stall s else put { c with copy := some k } s'
  if !(s.core.eng.active.getLsbD e.num) then .trap 0x01 (illegalInfo 0x16) s
  else match i with
    | .ccopy t spec post p _ =>
      prep fun s => s.captureCopy t.val ((c.param p).toNat % 2 ^ 56) spec post
    | .cfill sp len pat addr _ =>
      prep fun s => s.captureFill sp (c.param len) (c.param pat) (c.param addr)
    | .cpost v k _ => prep fun s => s.capturePost (c.param v) (c.param k)
    | .cmov src dst len a d _ =>
      prep fun s => s.captureMove src dst (c.param len) (c.param a) (c.param d)
    | .lsend d a pk k len _ =>
      (match (if g then linkFault c d a pk k len else none) with
       | some (code, info) => .trap code info s
       | none => put c s)
    | .lred _ d a pk k _ len _ =>
      (match (if g then linkFault c d a pk (some k) len else none) with
       | some (code, info) => .trap code info s
       | none => put c s)
    | _ => put c s

-- The head entry.

/-- How an engine's work on its head entry ends. -/
inductive EngRes
  /-- performed: the tokens are pushed -/
  | done (s : State)
  /-- started: an event completes it -/
  | busy (s : State)
  /-- it leaves the queue without pushing: the link engine's commands push when they complete -/
  | sent (s : State)
  /-- it leaves the queue and pushes its tokens when the last of its parked elements has been served (R151, R219) -/
  | owes (s : State)
  /-- one step of several is done; the entry stays at the head -/
  | more (s : State)
  | stall (s : State)
  | trap (code : Nat) (info : Word) (s : State)
  /-- an error response to the GE, LE or VE: kind, space code, address, and the physical address for the log
  (R133, R218) -/
  | freeze (kind space : Nat) (a : Word) (phys : Nat) (s : State)

/-- A trap or an error response of the engine is outstanding: its queue stands (R210, R214). -/
def Core.engHeld (c : Core) (e : Eng) : Bool :=
  c.frozen || (c.trap.pending.any fun t => t.eng == e && t.code != 0x19 && t.code != 0x18) ||
  (c.cpy.errs.any fun x => x.1 == e)

/-- The VE's stores to unit pads are performed before a token tells of them; a token orders nothing in the other spaces
(R149, R151). -/
def State.flushVe (s : State) (e : Eng) (m : BitVec 6) : State :=
  if e = .ve && m != 0 then s.performWhere (s.core.upTo fun p => p.ve && p.space == .u) else s

/-- The line's mode of an entry. -/
def QEntry.lmode : QEntry → BitVec 2
  | .instr _ c => c.lmode
  | .fence f => f.lmode

/-- The head entry of an exposed region comes later than its slot: counted once (R85, R150, R223). It stalls until it
goes on. -/
def State.stallEntry (s : State) (e : Eng) : State :=
  let q := s.core.queue e
  match q.entries with
  | x :: _ =>
    if x.lmode.getLsbD 0 && !q.late then
      (s.schedBreak e).updEng fun g => g.setQueue e { g.queueOf e with late := true, stalls := true }
    else s
  | [] => s

/-- The head entry's push waits on a full token queue: counted once for the push, whether or not the entry was late as
well (R85, R251). -/
def State.stallPush (s : State) (e : Eng) : State :=
  let q := s.core.queue e
  match q.entries with
  | x :: _ =>
    if x.lmode.getLsbD 0 && !q.full then
      (s.schedBreak e).updEng fun g => g.setQueue e { g.queueOf e with full := true, stalls := true }
    else s
  | [] => s

/-- The head entry goes on: it stalls no more (R223). -/
def Engines.goesOn (g : Engines) (e : Eng) : Engines := g.setQueue e { g.queueOf e with stalls := false }

/-- The engine's turn of an exposed entry may find a value, a token, an access or an earlier entry not yet there.
Whether it does is a free choice, counted once for the entry (R85, R150, R223, R228, R284, R301, R324, R330, R366;
log entry 26). -/
def State.lateEntry (s : State) (e : Eng) : State :=
  match (s.core.queue e).entries with
  | x :: _ =>
    if x.lmode.getLsbD 0 && !(s.core.queue e).late then
      (if Config.late s.fresh then s.draw.stallEntry e else s.draw)
    else s
  | [] => s

/-- Pushes of the head entry; when all are out, the entry leaves its queue (R49). One that meets a full token queue
waits, which counts once for each such push (R85). -/
def State.pushHead (s : State) (e : Eng) (m : BitVec 6) : State :=
  let s' := s.flushVe e m
  let r := s'.core.eng.pushSome e m
  if r.2 = 0 then
    s'.updEng fun _ => r.1.setQueue e
      { entries := (r.1.queueOf e).entries.tail, phase := .ready, step := 0, late := false, full := false, stalls := false }
  else
    (s'.updEng fun _ => r.1.setQueue e
      { r.1.queueOf e with phase := .pushing r.2, full := (r.1.queueOf e).full && r.2 == m, stalls := true }).stallPush e

/-- A VLDG whose parked elements have all been served pushes its tokens (R151, R219). -/
def State.pushOwed (s : State) : State :=
  match s.core.vec.owed.find? fun x => !(s.core.vec.parked.any fun p => p.id == x.id) with
  | none => s
  | some x =>
    let s' := s.flushVe .ve x.push
    let r := s'.core.eng.pushSome .ve x.push
    (s'.updEng fun _ => r.1).updVec fun v =>
      { v with owed := if r.2 = 0 then v.owed.erase x
               else v.owed.map fun y => if y == x then { x with push := r.2 } else y }

/-- The entry's pops are taken. -/
def State.popHead (s : State) (e : Eng) (m : BitVec 6) : State := s.updEng fun g => g.popAll e m

/-- The error response of an engine is held until its COPY_FREEZE, and logged (R133, R218). -/
def State.engineError (s : State) (e : Eng) (kind space : Nat) (a : Word) (phys ctx : Nat) : State :=
  (s.updCpy fun k => { k with errs := k.errs ++ [(e, kind, space, a)] }).logEvent
    (if kind = 2 then 4 else if kind = 1 then 3 else 2) space a phys ctx e

/-- The common frame of an engine instruction at the head of its queue: the pops, nullification (R80), the
work, and the pushes. A trap takes no token and leaves the entry where it is (R210). A nullified instruction does no
work at all, so that it raises none of the traps that depend on the engine's state either (DESIGN CHOICE, log entry
63). An instruction that does not stand at the head of its queue does nothing. -/
def engineOp (e : Eng) (b : LaneB) (s : State) (work : Capture → State → EngRes) : Out :=
  let q := s.core.queue e
  match q.entries with
  | .instr _ c :: _ =>
    if q.phase ≠ .ready || s.core.engHeld e then .next s
    else if !(s.core.eng.canPop e b.pop) then .next s
    else if !c.guard then
      (if e = .le then
        .next (((s.popHead e b.pop).updCpy fun k =>
          { k with le := k.le ++ [{ cmd := .null, push := b.push, line := c.line, lane := c.lane, lmode := c.lmode, full := false }] }).updEng
            fun g => g.popEntry e)
       else .next ((s.popHead e b.pop).pushHead e b.push))
    else match work c s with
      | .done s' => .next ((s'.popHead e b.pop).pushHead e b.push)
      | .busy s' => .next ((s'.popHead e b.pop).updEng fun g =>
          g.setQueue e { g.queueOf e with phase := .busy, stalls := false })
      | .sent s' => .next ((s'.popHead e b.pop).updEng fun g => g.popEntry e)
      | .more s' => .next ((s'.popHead e b.pop).updEng fun g => g.goesOn e)
      | .owes s' => .next (((s'.popHead e b.pop).updVec fun v => { v with owed := v.owed ++ [{ id := v.vldgs, push := b.push, line := c.line, lane := c.lane }] }).updEng
          fun g => g.popEntry e)
      | .stall s' => .next s'
      | .trap code info s' => .next ((s'.updEng fun g => g.goesOn e).pendTrap { code, info, eng := e })
      | .freeze kind space a phys s' =>
        .next ((s'.updEng fun g => g.goesOn e).engineError e kind space a phys c.ctx)
  | _ => .next s

/-- An entry that goes on after its first step has taken its pops. -/
def againB (b : LaneB) (started : Bool) : LaneB := if started then { b with pop := 0 } else b

/-- The step a multi-step entry has reached (R217). -/
def State.setStep (s : State) (e : Eng) (n : Nat) : State :=
  s.updEng fun g => g.setQueue e { g.queueOf e with step := n }

-- Fences (R150, R342).

/-- The first entry of a queue that has still to be performed: a head that pushes its tokens has been. -/
def EngQ.next (q : EngQ) : Option QEntry := q.unfinished.head?

/-- Every entry before a fence in engine e's queue is performed; the last may have tokens still to push. -/
def Core.fenceReady (c : Core) (f : FenceEnt) (e : Eng) : Bool :=
  (match (c.queue e).next with
   | some (.fence x) => x.id == f.id
   | _ => false) &&
  (match e with
   | .ce => !((c.cpy.channels.toList.take 8).any fun ch =>
       ((ch.cur.map CopyRun.copy).toList ++ ch.waiting).any fun k => k.num < f.upto)
   | .le => c.cpy.le.all fun x => x.cmd.completed
   | .ve => c.vec.parked.isEmpty
   | .cc | .me | .ge => true)

/-- A fence leaves a queue: from its head, or from behind an entry that pushes its tokens. -/
def Engines.dropFence (g : Engines) (e : Eng) : Engines :=
  match (g.queueOf e).phase with
  | .pushing _ => g.setQueue e { g.queueOf e with entries := (g.queueOf e).entries.eraseIdx 1 }
  | .ready | .busy => g.popEntry e

/-- A fence leaves its queues when every named queue stands at it (R150). -/
def State.fenceTurn (s : State) (f : FenceEnt) : State :=
  let named := engines.filter fun e => f.mask.getLsbD e.num
  if named.all fun e => s.core.fenceReady f e then
    let s' := if f.mask.getLsbD 2 then s.performWhere fun p => p.ve else s
    s'.updEng fun g => named.foldl Engines.dropFence g
  else s

/-- A queue whose head pushes its tokens stands at the fence behind it. -/
def State.passFence (s : State) (e : Eng) : State :=
  match (s.core.queue e).phase, (s.core.queue e).next with
  | .pushing _, some (.fence f) => s.fenceTurn f
  | _, _ => s

-- The copy engine's own entries (R300-R309): the copy captured at routing runs in channel 8.

def startCopy (c : Capture) (s : State) : EngRes :=
  match c.copy with
  | some k => .busy (s.updChannel 8 fun ch => { ch with waiting := [k] })
  | none => .done s

def execCcopy (_t : Fin 64) (_spec _post : Bool) (_p : Fin 16) (b : LaneB) (s : State) : Out :=
  engineOp .ce b s startCopy
def execCfill (_sp : CSpace) (_len _pat _addr : Fin 16) (b : LaneB) (s : State) : Out :=
  engineOp .ce b s startCopy
def execCpost (_v _c : Fin 16) (b : LaneB) (s : State) : Out := engineOp .ce b s startCopy
def execCmov (_src _dst : CSpace) (_len _s _d : Fin 16) (b : LaneB) (s : State) : Out :=
  engineOp .ce b s startCopy

end Sys2Proof.Machine
end

