-- ==== Sys2Proof/Machine/Link.lean ====
section
/-! DEFINITION. The link engine, arrivals over the links, and pod barriers (R235, R236, R265-R275, R324,
R329). -/
namespace Sys2Proof.Machine

-- The link engine's commands.

/-- Commands of the core in flight: begun and not completed (R324). -/
def Core.inFlight (c : Core) : Nat :=
  (c.cpy.le.filter fun x => match x.cmd with | .msg .. => true | .bar .. | .null => false).length

/-- The route of a package id: this package itself, a link that is up, or none (R265-R267). -/
def Links.reaches (l : Links) (pkg : Nat) : Bool :=
  pkg == l.id || (match List.lookup pkg l.routes with
    | some k => l.up.getLsbD k.val
    | none => false)

/-- The link over which a message to a package goes (R265, R266). -/
def Links.via (l : Links) (pkg : Nat) : Option (Fin 16) := if pkg = l.id then none else List.lookup pkg l.routes

/-- A completion of a message still on its way. -/
def LeCmd.answered (x : LeCmd) (seq : Nat) (ok : Bool) : LeCmd :=
  match x with
  | .msg k .sent => if k.seq = seq then .msg k (if ok then .ok else .failed) else .msg k .sent
  | .msg k st => .msg k st
  | .bar b r => .bar b r
  | .null => .null

/-- A change to the begun link commands of a core. -/
def Core.mapLe (c : Core) (f : LeCmd → LeCmd) : Core :=
  { c with cpy := { c.cpy with le := c.cpy.le.map fun x => { x with cmd := f x.cmd } } }

/-- A completion for a core of a package: it is taken in here, or goes on towards that package, whose command is
forwarded no more (R265, R267). -/
def State.completion (s : State) (pkg core seq : Nat) (ok : Bool) : State :=
  if pkg = s.links.id then s.updAt core fun c => c.mapLe fun x => x.answered seq ok
  else
    { s with links := { s.links with
        replies := s.links.replies ++ [(pkg, core, seq, ok)]
        relayed := s.links.relayed.filter fun m => !(m.srcPkg == pkg && m.core == core && m.seq == seq) } }

/-- The completion of a message goes back to its sender. -/
def State.answer (s : State) (m : LinkMsg) (ok : Bool) : State := s.completion m.srcPkg m.core m.seq ok

/-- A message goes on its way: to this package's own port, along a route that is up, or, without one, back as an error
completion (R265, R267). One of another package that is forwarded is remembered until it is answered (R266). -/
def State.dispatch (s : State) (m : LinkMsg) : State :=
  if m.dstPkg = s.links.id then { s with links := { s.links with inbox := s.links.inbox ++ [m] } }
  else if s.links.reaches m.dstPkg then
    { s with links := { s.links with
        outbox := s.links.outbox ++ [m]
        relayed := if m.srcPkg = s.links.id then s.links.relayed
          else s.links.relayed ++ [{ m with via := s.links.via m.dstPkg }] } }
  else s.answer m false

/-- A source that is written while it is read: each word of w bytes is wholly old or wholly new, by a free choice, which is
one in every run for a command of a deterministic line (R253). -/
def State.mixWords (s : State) (det : Bool) (w : Nat) (old new : List Byte) : List Byte × State :=
  ((old.zip new).zipIdx.map fun x => if Config.copyChoice ((if det then 0 else s.fresh) + x.2 / w) then x.1.2 else x.1.1,
   { s with fresh := s.fresh + old.length / w })

/-- The bytes of a word of what an engine reads over some time: the words of a map have 8 (R190, R195), those of a payload
4 (R329). -/
def seenUnit (e : Eng) : Nat := if e = .ge then 8 else 4

/-- What an engine has begun to read, if it has. -/
def Copies.seenBy (c : Copies) (e : Eng) : Option (List Byte) := List.lookup e c.seen

/-- What an engine has begun to read, with the bytes that are there now: word by word either. Where it has not begun, it
is what is there now. -/
def State.seenMix (s : State) (e : Eng) (det : Bool) (now : List Byte) : List Byte × State :=
  match s.core.cpy.seenBy e with
  | some old => if old.length = now.length then s.mixWords det (seenUnit e) old now else (now, s)
  | none => (now, s)

/-- The reading is over. -/
def State.seenDone (s : State) (e : Eng) : State :=
  s.updCpy fun c => { c with seen := c.seen.filter fun x => x.1 != e }

/-- Starting an LSEND or LRED: the source is read now, or since an earlier turn that began to read it; writes made in
between, and stores that the control thread has still to perform, race with the read (R329); a bad source granule
freezes the core (R218). A target without a route has its error completion at once (R267). -/
def startLink (isRed half : Bool) (d src pk : Fin 16) (ctr : Option (Fin 16)) (expect : Nat)
    (len : Fin 4096) (b : LaneB) (c : Capture) (s : State) : EngRes :=
  let n := (if len.val = 0 then 4096 else len.val) * 64
  let S := c.param src
  let loc : Loc := .u s.cur
  let as := (List.range n).map (S.toNat + ·)
  if 32 ≤ s.core.inFlight then .stall s
  else match s.coreBad loc as with
    | some (a, m) => .freeze (if m.isSome then 3 else 0) 3 (BitVec.ofNat 64 a) a s
    | none =>
      let det := c.lmode == 3
      let begun := s.seenMix .le det (as.map (s.coreByte loc))
      let read := begun.2.mixWords det (seenUnit .le) begun.1 (as.map (s.threadByte loc))
      let m : LinkMsg :=
        { isRed, srcPkg := s.links.id, core := s.cur, seq := s.core.cpy.leSeq, src := S.toNat,
          dstPkg := (c.param pk).toNat, ctx := c.ctx, wid := c.wid, target := c.param d,
          counter := ctr.map c.param, half, expect, payload := read.1, added := [], det,
          via := s.links.via (c.param pk).toNat }
      .sent (((read.2.seenDone .le).updCpy fun k =>
        { k with
          leSeq := k.leSeq + 1
          le := k.le ++ [{ cmd := .msg m .sent, push := b.push, line := c.line, lane := c.lane, lmode := c.lmode, full := false }] }).dispatch m)

def execLsend (d src pk : Fin 16) (ctr : Option (Fin 16)) (len : Fin 4096) (b : LaneB) (s : State) :
    Out :=
  engineOp .le b s (startLink false false d src pk ctr 0 len b)

def execLred (half : Bool) (d src pk ctr : Fin 16) (expect : Fin 16) (len : Fin 4096) (b : LaneB)
    (s : State) : Out :=
  engineOp .le b s (startLink true half d src pk (some ctr) expect.val len b)

/-- The pod barrier of a number that a node uses, by its place among those in use. -/
def Links.barOf (l : Links) (b : Fin 16) (n : Node) : Option Nat :=
  l.bars.findIdx? fun x => x.b == b && n.same x.launch x.index x.img

/-- The PHASE index of the kernel that a core runs. -/
def State.pidxAt (s : State) (core : Nat) : Nat :=
  match (s.coreAt core).work.cur with
  | some p => (match s.kernels[p.kernel]? with | some k => k.pidx | none => 0)
  | none => 0

/-- LBAR (R273): it starts when every earlier command has completed; a core whose phase is open waits. The
package arrives when every core of the node's mask has. Each node counts its own phases (R154), and the command waits for
the release of the phase it has joined. -/
def startBarrier (b : Fin 16) (mask : LaneB) (c : Capture) (s : State) : EngRes :=
  let n := s.barNode
  let at_ := s.links.barOf b n
  let p := (at_.bind fun i => s.links.bars[i]?).getD
    { PodBar.reset with
      id := s.links.barSeq, b, launch := n.launch, index := n.index, img := n.img, pidx := s.pidxAt s.cur }
  if !s.core.cpy.le.isEmpty then .stall s
  else if p.arrived.contains s.cur.val || p.sent then .stall s
  else
    let arrived := p.arrived ++ [s.cur.val]
    let all := (List.range 128).all fun c => !(imgHas n.img c) || arrived.contains c
    let p' : PodBar := { p with arrived, sent := all, sentAt := if all then s.time else 0 }
    let bars := match at_ with | some i => s.links.bars.set i p' | none => s.links.bars ++ [p']
    .sent (({ s with links := { s.links with
        bars, barSeq := if at_.isNone then s.links.barSeq + 1 else s.links.barSeq } } : State).updCpy fun k => { k with
      le := k.le ++ [{ cmd := .bar p.id false, push := mask.push, line := c.line, lane := c.lane, lmode := c.lmode, full := false }] })

def execLbar (bar : Fin 16) (b : LaneB) (s : State) : Out := engineOp .le b s (startBarrier bar b)

/-- The begun message of a number takes a state. -/
def State.setLe (s : State) (seq : Nat) (st : LeSt) : State :=
  s.upd fun c => c.mapLe fun x => match x with
    | .msg m o => .msg m (if m.seq = seq then st else o)
    | .bar b r => .bar b r
    | .null => .null

/-- A begun message goes out again, over the link that leads to its target now (R218, R266). -/
def State.sendAgain (s : State) (m : LinkMsg) : State :=
  let m' : LinkMsg := { m with via := s.links.via m.dstPkg }
  (s.upd fun c => c.mapLe fun x => match x with
    | .msg k st => if k.seq = m.seq then .msg m' .sent else .msg k st
    | .bar b r => .bar b r
    | .null => .null).dispatch m'

/-- The oldest command has completed: it pushes its tokens, and waits where a token queue is full (R272), which counts in
an exposed region once for each such push (R85, R251). -/
def State.pushLe (s : State) : State :=
  match s.core.cpy.le with
  | [] => s
  | x :: rest =>
    let r := s.core.eng.pushSome .le x.push
    let s' := s.updEng fun _ => r.1
    if r.2 = 0 then s'.updCpy fun k => { k with le := rest }
    else
      let counted := x.full && r.2 == x.push
      let s'' := if x.lmode.getLsbD 0 && !counted then s'.schedBreak .le else s'
      s''.updCpy fun k => { k with le := { x with cmd := .null, push := r.2, full := x.lmode.getLsbD 0 } :: rest }

/-- The physical address of a message's target, for the sender's log entry: one in another package is not known here
(R133). -/
def State.targetPhys (s : State) (m : LinkMsg) : Nat :=
  if m.dstPkg = s.links.id then s.physAt m.ctx m.target else 0

/-- LE_COMPLETION (R218, R267, R272) of the begun command at k: an error completion freezes the core with kind 2, and
after its handler the command is issued again; the oldest command, once it is complete, pushes its tokens. -/
def execLeCompletion (k : Nat) (s : State) : Out :=
  .next
    (if s.core.engHeld .le then s
     else match s.core.cpy.le[k]?.map LeEnt.cmd with
      | some (.msg m .failed) => (s.setLe m.seq .held).engineError .le 2 2 m.target (s.targetPhys m) m.ctx
      | some (.msg m .again) => s.sendAgain m
      | some .null | some (.bar _ true) | some (.msg _ .ok) => if k = 0 then s.pushLe else s
      | some (.bar _ false) | some (.msg _ .sent) | some (.msg _ .held) | none => s)

-- Arrivals (R267-R271).

/-- A refused message: kind of the log entry, address and physical address. -/
structure Refused where
  kind : Nat
  addr : Word
  phys : Nat
  deriving DecidableEq, Repr

/-- A refused message is logged under its sender and answered with an error completion (R125, R132, R133, R267). -/
def State.refuse (s : State) (m : LinkMsg) (x : Refused) : State :=
  (s.logFor m.core x.kind 2 x.addr x.phys m.ctx .le).answer m false

/-- What a failed translation at a port is logged as: a port violation, or the read of a poisoned table (R125, R131), with
the physical address as far as there is one (R133). -/
def State.refusedFor (s : State) (ctx : Fin 64) (b : Bad) (a : Word) : Refused :=
  ⟨if b.code = 0x0D then 2 else 4, a, s.physAt ctx a⟩

/-- The places of an address at the port that a message is served by. -/
def State.portPlaces (s : State) (ctx : Fin 64) (k : GKind) (a : Word) (n : Nat) : Except Refused (List Nat) :=
  match s.translate ctx k a [(a.toNat % 2 ^ 48, n)] with
  | .error b => .error (s.refusedFor ctx b a)
  | .ok x =>
    match x.places (a.toNat % 2 ^ 48) n with
    | some as => .ok as
    | none => .error ⟨4, a, x.logged (a.toNat % 2 ^ 48)⟩

/-- A post that would take its counter back to zero (R120), and how it is refused. -/
def State.postWraps (s : State) (cs : Option (List Nat)) : Bool :=
  cs.isSome && leNat ((cs.getD []).map (s.byteAt .g)) + 1 == 2 ^ 64

def wrapRefused (m : LinkMsg) (cs : Option (List Nat)) : Refused := ⟨4, m.counter.getD 0, (cs.getD []).headD 0⟩

/-- The places a message writes and its counter's, with the checks of R267 at the target port. An add or a post over a
bad granule is a refused store (R132); a post that would lower its counter is a port violation (R120). -/
def State.landing (s : State) (m : LinkMsg) : Except Refused (List Nat × Option (List Nat)) :=
  match s.portPlaces m.ctx .extWrite m.target m.payload.length with
  | .error x => .error x
  | .ok as =>
    let ctr : Except Refused (Option (List Nat)) := match m.counter with
      | none => .ok none
      | some c => if c.toNat % 8 ≠ 0 then .error ⟨4, c, s.physAt m.ctx c⟩ else (s.portPlaces m.ctx .extPost c 8).map some
    match ctr with
    | .error x => .error x
    | .ok cs =>
      match (if m.isRed then s.firstBad .g as else none), s.firstBad .g (cs.getD []) with
      | some (a, _), _ => .error ⟨3, m.target, a⟩
      | none, some (a, _) => .error ⟨3, m.counter.getD 0, a⟩
      | none, none =>
        if s.postWraps cs then .error (wrapRefused m cs) else .ok (as, cs)

/-- A post of 1 (R269). -/
def State.postOne (s : State) (cs : Option (List Nat)) : State :=
  match cs with
  | none => s
  | some cs => s.perform .g (cellsAt cs (leNat (cs.map (s.byteAt .g)) + 1) 8)

/-- Bytes of an element of an LRED, and how many it carries. -/
def redWidth (m : LinkMsg) : Nat := if m.half then 2 else 4
def redElems (m : LinkMsg) : List Nat := List.range (m.payload.length / redWidth m)

/-- The 4-byte words of memory that an LRED adds into, by physical address. -/
def redWords (as : List Nat) : List Nat := (as.map (· / 4)).eraseDups

/-- The add of one element of an LRED at its places (R270). -/
def State.addElem (s : State) (m : LinkMsg) (as : List Nat) (i : Nat) : State :=
  let w := redWidth m
  let a := (as.drop (w * i)).take w
  s.perform .g (cellsAt a (floatAdd (if m.half then fBF16 else fF32) (leNat (a.map (s.byteAt .g)))
    (leNat ((m.payload.drop (w * i)).take w))) w)

def State.takeInbox (s : State) (i : Nat) : State :=
  { s with links := { s.links with inbox := s.links.inbox.eraseIdx i } }

/-- What a message of this package carries when it takes effect: a write to its source since its start may still show
in it (R329). -/
def State.arrived (s : State) (m : LinkMsg) : LinkMsg × State :=
  if m.srcPkg = s.links.id then
    let r := s.mixWords m.det (seenUnit .le) m.payload ((List.range m.payload.length).map fun i => s.byteAt (.u m.core) (m.src + i))
    ({ m with payload := r.1 }, r.2)
  else (m, s)

/-- LSEND_ARRIVAL (R267, R269): the write, then the post, then the completion. -/
def execLsendArrival (i : Nat) (s : State) : Out :=
  match s.links.inbox[i]? with
  | none => .next s
  | some m =>
    if m.isRed then .next s
    else
      let r := (s.takeInbox i).arrived m
      match r.2.landing r.1 with
      | .error x => .next (r.2.refuse m x)
      | .ok (as, cs) => .next (((r.2.perform .g (as.zip r.1.payload)).postOne cs).answer m true)

/-- The gather an LRED belongs to: one counter of one context (R271). -/
def sameGather (m x : LinkMsg) : Bool := x.ctx == m.ctx && x.counter == m.counter

/-- Order of a gather: source package, WID, sender's queue order (R271). -/
def LinkMsgBefore (x y : LinkMsg) : Bool :=
  x.srcPkg < y.srcPkg || (x.srcPkg == y.srcPkg &&
    (x.wid.toNat < y.wid.toNat || (x.wid == y.wid && decide (x.seq < y.seq))))

def insertMsg (x : LinkMsg) : List LinkMsg → List LinkMsg
  | [] => [x]
  | y :: ys => if LinkMsgBefore x y then x :: y :: ys else y :: insertMsg x ys

def sortMsgs (l : List LinkMsg) : List LinkMsg := l.foldl (fun acc x => insertMsg x acc) []

/-- An LRED with what the checks at the target port answered for it. -/
abbrev Landed : Type := LinkMsg × Except Refused (List Nat × Option (List Nat))

/-- The adds of some LREDs into one word of memory, of each in turn and in the order of its elements: what two of them
add into one place falls in their order, wherever their targets stand (R270, R271). -/
def State.addAll (s : State) (ms : List Landed) (word : Nat) : State :=
  ms.foldl (fun s x => match x.2 with
    | .ok (as, _) => (redElems x.1).foldl (fun s i =>
        if as.getD (redWidth x.1 * i) 0 / 4 = word then s.addElem x.1 as i else s) s
    | .error _ => s) s

/-- The end of an LRED whose elements are all added: its post and its completion, or a refusal. -/
def State.endRed (s : State) (x : Landed) : State :=
  match x.2 with
  | .ok (_, cs) =>
    if s.postWraps cs then s.refuse x.1 (wrapRefused x.1 cs) else (s.postOne cs).answer x.1 true
  | .error e => s.refuse x.1 e

/-- Some adds of LREDs that are applied together are made: into `part` of the words still to come, or into all (R270);
with the last of them the LREDs post and complete. The message at i of the inbox notes how far they are. -/
def State.applyReds (s : State) (i : Nat) (m : LinkMsg) (msgs : List LinkMsg) (part : Option (List Nat)) : State :=
  let ms : List Landed := msgs.map fun m => (m, s.landing m)
  let words := (ms.map fun x => match x.2 with | .ok (as, _) => redWords as | .error _ => []).flatten.eraseDups
  let todo := words.filter fun e => !(m.added.contains e)
  let now := match part with | some l => todo.filter l.contains | none => todo
  let s1 := now.foldl (fun s e => s.addAll ms e) s
  if now.length = todo.length then
    ms.foldl State.endRed { s1 with links := { s1.links with
      inbox := s1.links.inbox.eraseIdx i
      gathers := s1.links.gathers.filter fun x => !(sameGather m x) } }
  else
    let m' : LinkMsg := { m with added := m.added ++ now }
    { s1 with links := { s1.links with inbox := s1.links.inbox.set i m' } }

/-- LRED_ARRIVAL (R270, R271): a plain LRED is applied; deterministic ones are gathered by counter and applied in
sorted order when EXPECT of them have come. One whose EXPECT differs, one that comes while a full gather is being
applied, and a plain one that comes to a gather or while one is being applied are port violations; a plain one whose adds
have begun goes on. -/
def execLredArrival (part : RedPart) (s : State) : Out :=
  let i := part.i
  match s.links.inbox[i]? with
  | none => .next s
  | some m0 =>
    if !m0.isRed then .next s
    else
      let r := if m0.added.isEmpty then s.arrived m0 else (m0, s)
      let m := r.1
      let s := r.2
      let g := s.links.gathers.filter (sameGather m)
      let applying := s.links.inbox.zipIdx.any fun x =>
        x.2 != i && sameGather m x.1 && x.1.expect != 0 && !x.1.added.isEmpty
      let violation : Refused := ⟨4, m.target, s.physAt m.ctx m.target⟩
      match s.landing m with
      | .error x => .next ((s.takeInbox i).refuse m x)
      | .ok _ =>
        if m.expect = 0 then
          .next (if (g.isEmpty && !applying) || !m.added.isEmpty then
              ({ s with links := { s.links with inbox := s.links.inbox.set i m } } : State).applyReds i m [m] part.elems
            else (s.takeInbox i).refuse m violation)
        else if applying || g.any fun x => x.expect != m.expect then .next ((s.takeInbox i).refuse m violation)
        else if g.length + 1 < m.expect then
          let s' := s.takeInbox i
          .next { s' with links := { s'.links with gathers := s'.links.gathers ++ [m] } }
        else
          .next (({ s with links := { s.links with inbox := s.links.inbox.set i m } } : State).applyReds i m
            (sortMsgs (g ++ [m])) part.elems)

-- The links themselves (R266).

/-- A change to every begun link command of the package. -/
def State.mapLe (s : State) (f : LeCmd → LeCmd) : State := { s with cores := s.cores.map fun c => c.mapLe f }

/-- A link goes down: commands that went over it get error completions, those of other packages that were forwarded over
it too, wherever the routes lead now, and the event is logged. -/
def State.linkDown (s : State) (link : Fin 16) : State :=
  let along (m : LinkMsg) : Bool := m.via == some link
  let s0 : State :=
    { s with links := { s.links with up := s.links.up &&& ~~~(BitVec.ofNat 16 (2 ^ link.val)) } }
  let s' := (s.links.relayed.filter along).foldl (fun (s : State) m => s.answer m false) s0
  (s'.mapLe fun x => match x with
    | .msg m .sent => if along m then .msg m .failed else .msg m .sent
    | .msg m st => .msg m st
    | .bar b r => .bar b r
    | .null => .null).logEvent 8 2 (BitVec.ofNat 64 link.val) 0 0 .le

/-- FLIT_RECEIVE (R265, R266): a flit with a good CRC delivers its message or completion, or forwards one for another
package along this package's route; sixteen bad ones in a row retrain the link, and a failed retraining takes it
down. -/
def execFlitReceive (link : Fin 16) (crcOk retrainOk : Bool) (flit : Option Flit) (s : State) : Out :=
  let setFails (n : Nat) (s : State) : State :=
    { s with links := { s.links with fails := vset s.links.fails link.val n } }
  if !(s.links.up.getLsbD link.val) then .next s
  else if crcOk then
    let s' := setFails 0 s
    .next (match flit with
      | some (.msg m) => s'.dispatch m
      | some (.answer pkg core seq ok) => s'.completion pkg core seq ok
      | none => s')
  else
    let n := vget s.links.fails link.val 0 + 1
    if n < 16 then .next (setFails n s)
    else if retrainOk then .next (setFails 0 s)
    else .next ((setFails 0 s).linkDown link)

-- Pod barriers and slack (R229, R235, R236, R273, R275).

/-- The pod barrier that an event names, by its place among those in use. -/
def Links.barAt (l : Links) (x : BarAt) : Option (Nat × PodBar) :=
  ((l.bars.zipIdx.filter fun p => p.1.b == x.b)[x.node]?).map fun p => (p.2, p.1)

def State.setBar (s : State) (i : Nat) (p : PodBar) : State :=
  { s with links := { s.links with bars := s.links.bars.set i p } }

/-- POD_BARRIER_COMPLETE (R273): every package of the pod has arrived; this one has. -/
def execPodBarrierComplete (b : BarAt) (s : State) : Out :=
  .next (match s.links.barAt b with
    | some (i, p) => if p.sent && !p.complete then s.setBar i { p with complete := true, completeAt := s.time } else s
    | none => s)

/-- The launch offset of a cluster in ticks of TIME: 160 for every step of PHASE[(k + PIDX) mod 32] (R229). -/
def State.phaseTicks (s : State) (cluster pidx : Nat) : Nat :=
  160 * (vget s.power.phase ((cluster + pidx) % 32) 0).toNat

/-- SLOT x STEP in ticks of TIME (R235). -/
def Power.slotTicks (p : Power) : Nat := p.podSlot.toNat * p.podStep.toNat * 10

/-- The next divisor of the slack controller's sequence (R275). -/
def slower : Divisor → Divisor
  | .d3 => .d4 | .d4 => .d5 | .d5 => .d6 | .d6 => .d8 | .d8 => .d8

/-- The core executes an exposed deterministic line: it runs a control thread. -/
def Core.inDetLine (c : Core) : Bool := c.deterministic && (c.work.run == .running || c.work.run == .ending)

/-- Every engine of a core runs at a divisor from now on; a core in an exposed deterministic line switches at its next line
with FIRST (R246, R275). A switch that waits is overridden. -/
def Core.switchTo (c : Core) (v : Divisor) : Core :=
  if c.inDetLine then { c with eng := { c.eng with divNext := some v } }
  else { c with eng := { c.eng with div := Vector.replicate 6 v, divNext := none } }

/-- The controller's divisor reaches every engine of every cluster without a lease (R275). -/
def State.setSlackDiv (s : State) (v : Divisor) : State :=
  { s with
    power := { s.power with slackDiv := v, slackSince := s.time, slackLow := false }
    cores := vgen 128 fun i =>
      if s.leased (i / 4) then s.coreAt i else (s.coreAt i).switchTo v }

/-- The end of a round (R275): below SLKLO the divisor returns to 4; a full dwell in which every round had
slack above SLKHI slows it one step; otherwise it holds. -/
def State.slackRound (s : State) (slack : Nat) : State :=
  let p := s.power
  if slack < p.slklo.toNat then
    (if p.slackDiv = .d4 then { s with power := { p with slackLow := true } } else s.setSlackDiv .d4)
  else
    let high := decide (p.slkhi.toNat < slack) && p.slkhi != 0xFFFFFFFF
    if !high then { s with power := { p with slackLow := true } }
    else if !p.slackLow && 2500000 ≤ s.time.toNat - p.slackSince.toNat && slower p.slackDiv != p.slackDiv
    then s.setSlackDiv (slower p.slackDiv)
    else s

/-- POD_RELEASE (R236, R273, R275): with no cluster, the release comes to the package, SLOT x STEP after the barrier
completed at the earliest, and the round's slack goes to the controller. With a cluster, it reaches that cluster, whose
offset of R229 has passed, and its LBARs may complete; the phase is over when it has reached every core that arrived. -/
def execPodRelease (b : BarAt) (cluster : Option (Fin 32)) (s : State) : Out :=
  match s.links.barAt b with
  | none => .next s
  | some (i, p) =>
    match p.complete, p.received, cluster with
    | true, none, none =>
      if s.time.toNat < p.completeAt.toNat + s.power.slotTicks then .next s
      else
        .next ((s.setBar i { p with received := some s.time }).slackRound
          (s.time.toNat - p.sentAt.toNat - s.power.slotTicks))
    | true, some t, some k =>
      let here (c : Nat) : Bool := c / 4 == k.val
      if s.time.toNat < t.toNat + s.phaseTicks k.val p.pidx then .next s
      else
        let reached := p.reached ||| BitVec.ofNat 32 (2 ^ k.val)
        let ended := p.arrived.all fun c => reached.getLsbD (c / 4)
        let s' : State := { s with links := { s.links with
          bars := if ended then s.links.bars.eraseIdx i else s.links.bars.set i { p with reached } } }
        let free : LeCmd → LeCmd
          | .bar n r => .bar n (r || n == p.id)
          | .msg m st => .msg m st
          | .null => .null
        let cores := vgen 128 fun c =>
          if here c then (s'.coreAt c).mapLe free else s'.coreAt c
        .next { s' with cores := cores }
    | _, _, _ => .next s

end Sys2Proof.Machine
end

