-- ==== Sys2Proof/Machine/Sums.lean ====
section
/-! DEFINITION. Matrix sums: one tile multiplied into an entry, its counts, and integer partials
(R96, R101, R104-R111, R174). -/
namespace Sys2Proof.Machine

def Counts.zero : Counts := { sat := 0, unf := 0, can := 0, nan := 0, bso := 0 }

def Counts.add (a b : Counts) : Counts :=
  { sat := a.sat + b.sat, unf := a.unf + b.unf, can := a.can + b.can, nan := a.nan + b.nan,
    bso := a.bso + b.bso }

-- One output element (R105, R106).

/-- The exact sum of finite terms: the grid 2^g, the sums of the positive and of the negative terms in
units of it. -/
def exactSum (terms : List FVal) : Int × Nat × Nat :=
  let es := terms.filterMap fun v => match v with
    | .fin _ m e => if m = 0 then none else some e
    | _ => none
  match es with
  | [] => (0, 0, 0)
  | e :: r =>
    let g := r.foldl min e
    let xs := terms.map (FVal.scaled g)
    (g, (xs.foldl (fun acc x => if 0 < x then acc + x.toNat else acc) 0),
        (xs.foldl (fun acc x => if x < 0 then acc + (-x).toNat else acc) 0))

def FVal.isZeroNeg : FVal → Bool
  | .fin s m _ => s && m == 0
  | _ => false

/-- ⌈log2 K⌉ + 2 of the bound of R106. -/
def boundFactor (k : Nat) : Nat := Nat.log2 k + 2

/-- The candidate code lies within the bound of R106 around the exact sum. -/
def withinBound (f : FFmt) (k cand : Nat) (g : Int) (p n : Nat) : Bool :=
  decide (cand < 2 ^ f.width) &&
  (match f.decode cand with
   | .fin s m e =>
     let h := min e (g - (f.fw + 1))
     let c := (FVal.fin s m e).scaled h
     let x : Int := ((p : Int) - n) * 2 ^ (g - h).toNat
     decide ((c - x).natAbs ≤ boundFactor k * (p + n) * 2 ^ (g - (f.fw + 1) - h).toNat)
   | _ => false)

/-- The exponent of the last one bit of a nonzero finite value. -/
def FVal.lastBit : FVal → Option Int
  | .fin _ m e => if m = 0 then none else some (e + (Nat.log2 (Nat.gcd m (2 ^ (Nat.log2 m + 1))) : Nat))
  | _ => none

/-- Every partial sum of every order is representable (R106). On the coarsest grid on which all terms lie, some term
is odd, and a sum above 2^(fw + 1) must be even: so the positive and the negative terms may pass that bound only
while leaving out any odd term, of either sign, brings their sum back to it. -/
def partialsExact (f : FFmt) (terms : List FVal) : Bool :=
  match terms.filterMap FVal.lastBit with
  | [] => true
  | e :: r =>
    let g := r.foldl min e
    let x := exactSum terms
    let d := 2 ^ (g - x.1).toNat
    let M := 2 ^ (f.fw + 1)
    let odds := (terms.map fun v => (v.scaled x.1).natAbs / d).filter (· % 2 == 1)
    let fits (b : Nat) : Bool :=
      decide (b ≤ M) || (b % 2 == 0 && decide (b ≤ 2 * M) && odds.all fun t => decide (b ≤ M + t))
    decide (1 - (f.bias : Int) - f.fw ≤ g) && fits (x.2.1 / d) && fits (x.2.2 / d) &&
      f.round .rne (FVal.ofInt x.2.1 x.1 false) != f.infCode && f.round .rne (FVal.ofInt x.2.2 x.1 false) != f.infCode

/-- The value of one output element from its terms, the first the previous value, and whether it counts as
SAT (R105, R106). Every order gives the exact sum where every partial sum is representable; otherwise the
stepping's value is free within the bound (log entry 11). -/
def sumElem (f : FFmt) (k cand : Nat) (terms : List FVal) : Nat × Bool :=
  let pinf := terms.any (· == .inf false)
  let ninf := terms.any (· == .inf true)
  if terms.any FVal.isNan || (pinf && ninf) then (f.nanCode, false)
  else if pinf then (f.infCode, false)
  else if ninf then (2 ^ (f.ew + f.fw) + f.infCode, false)
  else
    let x := exactSum terms
    let p := x.2.1
    let n := x.2.2
    if p = n then (if terms.all FVal.isZeroNeg then 2 ^ (f.ew + f.fw) else 0, false)
    else
      let r := f.round .rne (FVal.ofInt ((p : Int) - n) x.1 false)
      if r % 2 ^ (f.ew + f.fw) = f.infCode then (r, true)
      else if partialsExact f terms then (r, false)
      else (if withinBound f k cand x.1 p n then cand else r, false)

/-- The cancellation test over the products of a tile (R174). -/
def cancels (c : Nat) (products : List FVal) : Bool :=
  if c = 0 || products.any (fun v => match v with | .fin .. => false | _ => true) then false
  else
    let x := exactSum products
    let d := ((x.2.1 : Int) - x.2.2).natAbs
    let a := x.2.1 + x.2.2
    decide (d * 2 ^ c < a) && decide (2 ^ (-100 - x.1).toNat ≤ a * 2 ^ (x.1 + 100).toNat)

-- Input elements (R96, R104).

def FVal.shift (b : Int) : FVal → FVal
  | .fin s m e => .fin s m (e + b)
  | v => v

/-- The formats whose subnormal inputs the array flushes (R104). -/
def flushes (f : FFmt) : Bool := f == fF32 || f == fBF16 || f == fF16

/-- An element as it enters the array, and whether it was flushed. -/
def arrayElem (e : EFmt) (bias : Int) (x : Nat) : FVal × Bool :=
  match e with
  | .int _ => (.fin false x 0, false)
  | .flt f =>
    let sub := flushes f && x / 2 ^ f.fw % 2 ^ f.ew == 0 && x % 2 ^ f.fw != 0
    if sub then (.fin (decide (x / 2 ^ (f.ew + f.fw) % 2 = 1)) 0 0, true)
    else ((f.decode x).shift bias, false)

/-- The codes of an A tile by rows and of a B tile by columns (R98, R160). -/
def codesA (f : Fmt) (bytes : List Byte) : List (List Nat) :=
  let arr := bytes.toArray
  (List.range 64).map fun r => (List.range (fmtK f)).map fun k =>
    elemOf (fun i => arr.getD i 0) (fmtA f).bits (elemBit (fmtA f).bits 256 r k)

def codesB (f : Fmt) (bytes : List Byte) : List (List Nat) :=
  let arr := bytes.toArray
  (List.range (fmtN f)).map fun c => (List.range (fmtK f)).map fun k =>
    elemOf (fun i => arr.getD i 0) (fmtB f).bits (elemBit (fmtB f).bits (pitchB f) k c)

/-- The accumulator format (R105) and the bytes of its elements (R165). -/
def accFmt (f : Fmt) : FFmt := if f = .f64 then fF64 else fF32
def accBytes (f : Fmt) : Nat := if f = .f64 then 8 else 4

/-- A tile of float format f: codes of A by rows and B by columns, biases, the previous values, and the
exponent of the CAN test. Answers the new values by row and the counts. -/
def tileSum (f : Fmt) (cexp : Nat) (biasA biasB : Int) (rows cols : List (List Nat))
    (prior : Nat → Nat → Nat) : List (List Nat) × Counts :=
  let acc := accFmt f
  let da := rows.map fun r => r.map (arrayElem (fmtA f) biasA)
  let db := cols.map fun c => c.map (arrayElem (fmtB f) biasB)
  let flushed (l : List (List (FVal × Bool))) : Nat := (l.map fun r => r.countP fun x => x.2).sum
  let tag (b : Int) (l : List Nat) : List Nat := (b % 64).toNat :: l
  let out := ((rows.zip da).zipIdx).map fun r =>
    ((cols.zip db).zipIdx).map fun c =>
      let ps := List.zipWith (fun x y => FVal.mul x.1 y.1) r.1.2 c.1.2
      let p0 := prior r.2 c.2
      let cand := Config.mmaSum f.code r.2 c.2 p0 (tag biasA r.1.1) (tag biasB c.1.1)
      let v := sumElem acc (fmtK f) cand (acc.decode p0 :: ps)
      (v.1, v.2, (acc.decode v.1).isNan, cancels cexp ps)
  (out.map fun r => r.map fun x => x.1,
   { sat := (out.map fun r => r.countP fun x => x.2.1).sum
     unf := flushed da + flushed db
     can := (out.map fun r => r.countP fun x => x.2.2.2).sum
     nan := (out.map fun r => r.countP fun x => x.2.2.1).sum
     bso := 0 })

-- Integer products with zero points (R108, R109).

def groupSize : QGroup → Nat
  | .g32 => 32 | .g64 => 64 | .g128 => 128

/-- The groups of one tile. -/
def groups (f : Fmt) (g : QGroup) : Nat := fmtK f / groupSize g

/-- The I32 partial of group j by row; zA by row and zB by column. -/
def partialRows (g : QGroup) (j : Nat) (rows cols : List (List Nat)) (zA zB : Nat → Nat) :
    List (List Nat) :=
  let n := groupSize g
  let part (l : List Nat) : List Nat := (l.drop (n * j)).take n
  (rows.zipIdx).map fun r => (cols.zipIdx).map fun c =>
    intCode 32 ((List.zipWith (fun (a b : Nat) => ((a : Int) - zA r.2) * ((b : Int) - zB c.2))
      (part r.1) (part c.1)).sum)

-- Scaling (R111).

/-- One element of MSCA: the new code and whether it counts as BSO. The term is formed exactly, as the text of R111 says,
also from a partial of more than 24 bits, which no Q tile leaves and which F32(P) would round (DESIGN CHOICE, log entry
75). -/
def scaleElem (acc p sA sB : Nat) : Nat × Bool :=
  let a := fF32.decode acc
  let x := fF16.decode sA
  let y := fF16.decode sB
  let finite (v : FVal) : Bool := match v with | .fin .. => true | _ => false
  let term := (FVal.mul (FVal.ofInt (signedOf 32 p) 0 false) x).mul y
  let r := fF32.round .rne (a.add .rne term)
  (r, !(finite x) || !(finite y) ||
      (finite a && finite term && r % 2 ^ 31 == fF32.infCode))

end Sys2Proof.Machine
end

