-- ==== Sys2Proof/Machine/Matrix.lean ====
section
/-! DEFINITION. The matrix engine: slots, accumulator entries, fills, tiles, the nest, monitors, scaling and
the format ladder (R160-R171, R173-R189, R203-R205, R330-R336). -/
namespace Sys2Proof.Machine

-- Operand memory, accumulator memory and the unit pad as byte runs.

def entryBytes : Nat := 16384
def unitBytes : Nat := 0x300000

def cnt64 (n : Fin 64) : Nat := if n.val = 0 then 64 else n.val

def Matrix.slot (m : Matrix) (s : Nat) : Slot := vget m.slots s Slot.reset
def Matrix.setSlot (m : Matrix) (s : Nat) (x : Slot) : Matrix := { m with slots := vset m.slots s x }
def Matrix.slotData (m : Matrix) (s : Nat) : List Byte := readRun m.omem (slotBytes * s) slotBytes
def Matrix.tag (m : Matrix) (e : Nat) : AccTag := vget m.tags e AccTag.reset
def Matrix.setTag (m : Matrix) (e : Nat) (t : AccTag) : Matrix := { m with tags := vset m.tags e t }

/-- Element (row, col) of an entry in a width of bytes (R165). -/
def entryElem (data : Array Byte) (w row col : Nat) : Nat :=
  leNat ((List.range w).map fun i => data.getD (256 * row + w * col + i) 0)

def Matrix.entry (m : Matrix) (e : Nat) : Array Byte :=
  (readRun m.amem (entryBytes * e) entryBytes).toArray

/-- Rows of values written to columns 0 onward of an entry; the rest of each row keeps its bits. -/
def Matrix.writeRows (m : Matrix) (e w : Nat) (rows : List (List Nat)) : Matrix :=
  let put (a : Memory) (r : List Nat × Nat) : Memory :=
    writeRun a (entryBytes * e + 256 * r.2) ((r.1.map (leBytes w)).flatten)
  { m with
    amem := (rows.zipIdx).foldl put m.amem
    abad := m.abad.filter fun g =>
      !(g / 2048 == e && decide (8 * g % 256 + 8 ≤ w * (rows.getD (g % 2048 / 32) []).length)) }

/-- A poisoned granule within some bytes of a slot, and one within an entry (R130, R131). -/
def Matrix.slotPoison (m : Matrix) (s n : Nat) : Bool := m.obad.any fun g => g / 2048 == s && decide (g % 2048 * 8 < n)
def Matrix.entryPoison (m : Matrix) (e : Nat) : Bool := m.abad.any fun g => g / 2048 == e

/-- A poisoned granule within one row of an entry. -/
def Matrix.rowPoison (m : Matrix) (e r : Nat) : Bool := m.abad.any fun g => g / 32 == 64 * e + r

/-- A range of the acting core's unit pad. -/
def inUnit (a : Word) (n : Nat) : Bool := decide (a.toNat + n ≤ unitBytes)

/-- The unit pad as the core's engines find it (R149). -/
def State.unit (s : State) : Pad := s.corePad (.u s.cur)

/-- Bytes that the ME reads where it takes neither poison nor a mark (R131, R202): the first bad address. -/
def State.unitBad (s : State) (a n : Nat) : Option (Nat × Option Nat) :=
  (s.unit.bad.find? fun g => decide (g.1 * 8 + 8 > a) && decide (g.1 * 8 < a + n)).map
    fun g => (max a (g.1 * 8), g.2)

/-- Bytes for a fill (R202): marked granules read zero and give their code; lasting poison is refused. -/
def State.fillRead (s : State) (a n : Nat) : Except Nat (List Byte × Option Nat) :=
  let bad := s.unit.bad.filter fun g => decide (g.1 * 8 + 8 > a) && decide (g.1 * 8 < a + n)
  match bad.find? fun g => g.2.isNone with
  | some g => .error (max a (g.1 * 8))
  | none =>
    let bytes := readRun s.unit.mem a n
    match bad with
    | [] => .ok (bytes, none)
    | g :: _ =>
      .ok ((bytes.zipIdx).map fun x => if (smapGet bad ((a + x.2) / 8)).isSome then 0 else x.1, g.2)

-- Slots and entries (R162, R163, R331).

def slotRange (s n : Fin 64) : List Nat := (List.range (cnt64 n)).map (s.val + ·)

/-- SLOT_STATE of a range: past slot 63, or the first slot in a wrong state. -/
def rangeFault (m : Matrix) (r : List Nat) (ok : SlotSt → Bool) : Option Nat :=
  if r.any fun s => 63 < s then some 63 else r.find? fun s => !(ok (m.slot s).st)

def infoNum (n : Nat) : Word := BitVec.ofNat 64 n

def execMclaim (s n : Fin 64) (b : LaneB) (st : State) : Out :=
  engineOp .me b st fun _ st =>
    let r := slotRange s n
    match rangeFault st.core.me r (· == .free) with
    | some x => .trap 0x09 (infoNum x) st
    | none => .done (st.updMe fun m => r.foldl (fun m x => m.setSlot x { Slot.reset with st := .claimed }) m)

def execMrel (s n : Fin 64) (b : LaneB) (st : State) : Out :=
  engineOp .me b st fun _ st =>
    let r := slotRange s n
    match rangeFault st.core.me r (· != .free) with
    | some x => .trap 0x09 (infoNum x) st
    | none => .done (st.updMe fun m =>
        r.foldl (fun m x => m.setSlot x { m.slot x with st := .free, bind := none, skip := false }) m)

def execMzero (e n : Fin 64) (b : LaneB) (s : State) : Out :=
  engineOp .me b s fun _ s =>
    let k := cnt64 n
    if 64 < e.val + k then .trap 0x04 (infoNum 63) s
    else .done (s.updMe fun m =>
      { m with
        amem := writeRun m.amem (entryBytes * e.val) (List.replicate (entryBytes * k) 0)
        abad := m.abad.filter fun g => !(decide (e.val ≤ g / 2048) && decide (g / 2048 < e.val + k))
        tags := (slotRange e n).foldl
          (fun t x => vset t x { vget t x AccTag.reset with mode := 0, poison := none }) m.tags })

/-- The address checks of MFILL and MWB (R165, R333). -/
def unitFault (a : Word) (align n : Nat) : Option (Nat × Word) :=
  if a.toNat % align ≠ 0 then some (0x03, infoLocal a)
  else if !(inUnit a n) then some (0x04, infoLocal a) else none

/-- A fill starts (R162): its engine completes it with FILL_COMPLETE. -/
def State.startFill (s : State) (e : Eng) (f : Fill) : State :=
  s.updCpy fun c => { c with fills := c.fills ++ [(e, f)] }

def execMfill (sl : Fin 64) (p : Fin 16) (b : LaneB) (s : State) : Out :=
  engineOp .me b s fun c s =>
    let a := c.param p
    if (s.core.me.slot sl.val).st = .free then .trap 0x09 (infoNum sl.val) s
    else match unitFault a 256 slotBytes with
      | some x => .trap x.1 x.2 s
      | none =>
        match s.fillRead a.toNat slotBytes with
        | .error x => .trap 0x0D (infoLocal (BitVec.ofNat 64 x)) s
        | .ok r => .busy (s.startFill .me
            { slot := sl.val, bytes := r.1, zp := none, sat := 0, unf := 0, nan := 0, poison := r.2,
              skip := false, keepBind := false, ebits := 64, map := none, raw := [], old := none })

/-- The entry at the head of an engine's queue was routed from a deterministic line. -/
def Core.headDet (c : Core) (e : Eng) : Bool :=
  match (vget c.eng.queues e.num EngQ.empty).entries with
  | .instr _ k :: _ => k.lmode == 3
  | _ => false

/-- The number of a free choice: one in every run in a deterministic line (R253). -/
def State.choiceNum (s : State) (det : Bool) : Nat := if det then 0 else s.fresh

/-- Bytes the acting core's ME writes to its unit pad; a granule covered whole is clear afterwards, and a
part of a bad granule is refused and logged (R131, R132). -/
def State.unitWrite (s : State) (a : Nat) (bs : List Byte) : State :=
  let s := s.settleVe (.u s.cur) ((List.range bs.length).map (a + ·))
  let p := s.padAt (.u s.cur)
  let inside (g : Nat) : Bool := decide (a ≤ g * 8) && decide (g * 8 + 8 ≤ a + bs.length)
  let bad := p.bad.filter fun g => !(inside g.1)
  let keep := bad.filter fun g => decide (g.1 * 8 + 8 > a) && decide (g.1 * 8 < a + bs.length)
  let s' := s.setPad (.u s.cur)
    { mem :=
        if keep.isEmpty then writeRun p.mem a bs
        else writeCells p.mem ((cellsFrom a bs).filter fun c => (smapGet keep (c.1 / 8)).isNone)
      bad }
  if keep.isEmpty then s' else s'.logEvent 3 3 (BitVec.ofNat 64 a) a s.core.ctx .me

def execMwb (e : Fin 64) (p : Fin 16) (b : LaneB) (s : State) : Out :=
  engineOp .me b s fun c s =>
    let a := c.param p
    match unitFault a 256 entryBytes with
    | some x => .trap x.1 x.2 s
    | none =>
      if s.core.me.entryPoison e.val then .trap 0x0D 0 s
      else .done (s.unitWrite a.toNat (readRun s.core.me.amem (entryBytes * e.val) entryBytes))

/-- Each element of some bytes is wholly old or wholly new, as a free choice says (R164, R188). -/
def mixElems (n bits : Nat) (old new : List Byte) : List Byte :=
  let pick (i : Nat) (a b : Byte) : Byte := if Config.copyChoice (n + i) then b else a
  ((old.zip new).zipIdx).map fun x =>
    if bits < 8 then (pick (2 * x.2) x.1.1 x.1.2 &&& 0x0F) ||| (pick (2 * x.2 + 1) x.1.1 x.1.2 &&& 0xF0)
    else pick (x.2 * 8 / bits) x.1.1 x.1.2

/-- The free choices of one mix. -/
def State.drawBytes (s : State) : State := { s with fresh := s.fresh + 2 * slotBytes }

/-- A slot is about to take new bytes, whose elements have some bits: readers and fills of it in progress remember the
old ones. A fill that knows no element width, an MFILL, takes that of the other. Where two fills of the slot land, the
bytes before the first stay the old ones, and what the first wrote is no value of an element (DESIGN CHOICE, log entry
10). -/
def State.noteOld (s : State) (slot ebits : Nat) : State :=
  let old := s.core.me.slotData slot
  let note (x : Option (List Byte)) : Option (List Byte) := match x with | some y => some y | none => some old
  s.upd fun c =>
    { c with
      cpy := { c.cpy with fills := c.cpy.fills.map fun f =>
          if f.2.slot = slot then (f.1, { f.2 with old := note f.2.old, ebits := min f.2.ebits ebits }) else f }
      me := { c.me with work := c.me.work.map fun w => { w with tile := w.tile.map fun t =>
          { t with oldA := if t.sa = slot then note t.oldA else t.oldA,
                   oldB := if t.sb = slot then note t.oldB else t.oldB } } } }

/-- The slot after a fill (R162, R163, R173, R181, R332). -/
def Slot.fill (x : Slot) (f : Fill) : Slot :=
  { st := if x.st = .claimed then .filled else x.st
    zp := match f.zp with | some z => writeRun [] 0 z | none => x.zp
    sat := f.sat, unf := f.unf, nan := f.nan, poison := f.poison, skip := f.skip
    bind := if f.keepBind then x.bind else none }

/-- The number of slots a GE entry fills. -/
def fillCount : Instr → Nat
  | .gcsr _ n _ _ _ => cnt64 n
  | _ => 1

-- The elements that a GMAP reads (R191, R194, R195).

/-- One element of the source of a map, with its mark; a poisoned one is an error at an address. -/
def State.mapRead (s : State) (m : MapWords) (loc : Loc) (base : Nat) (i : Nat) : Except (Nat × Option Nat) (Nat × Option Nat) :=
  let es := mapEsize m
  let as := (List.range es).map (base + es * i + ·)
  match s.coreBad loc as with
  | some (x, none) => .error (x, none)
  | some (_, some c) => .ok (0, some c)
  | none => .ok (leNat (as.map (s.coreByte loc)), none)

def State.mapReadAll (s : State) (m : MapWords) (loc : Loc) (base : Nat) :
    List (Option Nat) → Except (Nat × Option Nat) (List (Option (Nat × Option Nat)))
  | [] => .ok []
  | none :: r => (s.mapReadAll m loc base r).map (none :: ·)
  | some i :: r =>
    match s.mapRead m loc base i with
    | .error x => .error x
    | .ok c => (s.mapReadAll m loc base r).map (some c :: ·)

/-- The elements of a GMAP's tile, row by row. -/
def mapTile (m : MapWords) (row0 col0 : Nat) : List (Option Nat) :=
  ((List.range 64).map fun r => (List.range (mapK (mapDfmt m))).map fun k => mapElem m (row0 + r) (col0 + k)).flatten

/-- An element converted: padding, +0 for a marked one, or its value. -/
def mapCode (m : MapWords) (x : Option (Nat × Option Nat)) : Conv :=
  match x with
  | none => { code := mapPad m, sat := false, unf := false, nan := false }
  | some (_, some _) => { code := 0, sat := false, unf := false, nan := false }
  | some (v, none) => mapConv m v

/-- The fill of a GMAP from its elements (R163, R195). -/
def Fill.ofMap (f : Fill) (m : MapWords) (l : List (Option (Nat × Option Nat))) : Fill :=
  let c := l.map (mapCode m)
  { f with
    bytes := packElems (mapDbits m) (c.map Conv.code), sat := c.countP Conv.sat, unf := c.countP Conv.unf
    nan := c.countP Conv.nan, poison := l.findSome? fun x => x.bind Prod.snd }

/-- The tile of a GMAP as it is filled: an element whose source has been written since the start is wholly old or wholly
new, by a free choice; one that has become poisoned is the old one (R195). -/
def State.refill (s : State) (f : Fill) : Fill :=
  match f.map with
  | none => f
  | some (m, loc, base, row0, col0) =>
    let now := (mapTile m row0 col0).map fun x => x.map fun i => s.mapRead m loc base i
    let raw := (f.raw.zip now).zipIdx.map fun x => match x.1.2 with
      | some (.ok v) => if Config.copyChoice (s.choiceNum (s.core.headDet .ge) + x.2) then some v else x.1.1
      | some (.error _) | none => x.1.1
    { f.ofMap m raw with raw }

/-- A GMAP in progress looks at its source once more: what it has read of each element is the value it had, or the one it
finds now, so that a value between the first and the last may be the one that is filled (R195). -/
def State.lookAgain (s : State) (e : Eng) : State :=
  if s.core.frozen || !(s.core.cpy.fills.any fun f => f.1 == e && f.2.map.isSome) then s
  else (s.updCpy fun c => { c with fills := c.fills.map fun f => if f.1 == e then (f.1, s.refill f.2) else f }).drawBytes.drawBytes

/-- FILL_COMPLETE (R162): the slot takes the bytes and the side record; a GCSR goes on to its next tile. -/
def execFillComplete (e : Eng) (s : State) : Out :=
  match s.core.cpy.fills.find? fun f => f.1 == e with
  | none => .next s
  | some (_, f0) =>
    if s.core.frozen then .next s
    else
      let f := s.refill f0
      let s := if f.map.isSome then s.drawBytes.drawBytes else s
      let s := s.updCpy fun c => { c with fills := c.fills.filter fun x => x.1 != e }
      let s := s.noteOld f.slot f.ebits
      let now := s.core.me.slotData f.slot
      let bytes := match f.old with
        | some o => if o = now then f.bytes else mixElems (s.choiceNum (s.core.headDet e)) f.ebits now f.bytes
        | none => f.bytes
      let s := if f.old.isSome then s.drawBytes else s
      let s := s.updMe fun m =>
        ({ m with omem := writeRun m.omem (slotBytes * f.slot) bytes
                  obad := m.obad.filter fun g => g / 2048 != f.slot } : Matrix).setSlot f.slot
          ((m.slot f.slot).fill f)
      let q := s.core.queue e
      match q.entries with
      | .instr i _ :: _ =>
        if q.step + 1 < fillCount i then
          .next (s.updEng fun g => g.setQueue e { q with phase := .ready, step := q.step + 1 })
        else .next (s.entryPerformed e)
      | _ => .next s

-- Registers of the ME (R166, R175, R180, R203).

def execMnest (level : Fin 6) (f : NestField) (v : BitVec 16) (b : LaneB) (s : State) : Out :=
  engineOp .me b s fun _ s => .done (s.updMe fun m =>
    let l := m.shadow[level]
    { m with shadow := m.shadow.set level (match f with
        | .count => { l with count := v }
        | .astep => { l with astep := v }
        | .bstep => { l with bstep := v }
        | .cstep => { l with cstep := v }
        | .sstep => { l with sstep := v }
        | .flags => { l with flags := v }) })

/-- MMON (R175, R187): field 5 also clears TOPCNT. -/
def execMmon (f : MonField) (v : BitVec 16) (b : LaneB) (s : State) : Out :=
  engineOp .me b s fun _ s => .done (s.updMe fun m =>
    { m with mon := vset m.mon f.code v, topcnt := if f = .topmax then 0 else m.topcnt })

/-- MSPEC (R203). -/
def execMspec (t : Option SpecTag) (b : LaneB) (s : State) : Out :=
  engineOp .me b s fun c s =>
    match t with
    | none => .done (s.updMe fun m => { m with spec := none })
    | some x =>
      let base := c.param x.p
      if base.toNat % 128 ≠ 0 then .trap 0x03 (infoLocal base) s
      else .done (s.updMe fun m => { m with spec := some (x, base) })

-- Ladder descriptors (R178).

def ladRung (d : Word) (j : Nat) : Nat := d.toNat / 2 ^ (4 * j) % 16
def ladBias (d : Word) (j : Nat) : Int :=
  if j = 0 then signedOf 6 (d.toNat / 2 ^ 16 % 64)
  else if j = 1 then signedOf 6 (d.toNat / 2 ^ 24 % 64) else 0
def ladBudget (d : Word) : Nat := d.toNat / 2 ^ 32 % 16
def ladDeclared (d : Word) : Bool := ladRung d 0 == 7 || ladRung d 0 == 4 || ladRung d 0 == 2

def rungFmt : Nat → Fmt
  | 7 => .e2m1 | 4 => .e4m3 | _ => .bf16

def ladRungs (d : Word) : List Fmt :=
  (([ladRung d 0, ladRung d 1, ladRung d 2].takeWhile fun r => r != 15)).map rungFmt

def Matrix.desc (m : Matrix) (b : Bind) : Word := m.ladders[b.lad]

/-- MLADR (R180): its checks in order. -/
def execMladr (sl : Fin 64) (lad : Fin 16) (roleB : Bool) (p : Fin 16) (klen : BitVec 16) (b : LaneB)
    (s : State) : Out :=
  engineOp .me b s fun c s =>
    let m := s.core.me
    let d := m.ladders[lad]
    let k0 := fmtK (rungFmt (ladRung d 0))
    let k := if klen = 0 then k0 else klen.toNat
    let a := c.param p
    if (m.slot sl.val).st = .free || !(ladDeclared d) then .trap 0x09 (infoNum sl.val) s
    else if k0 < k then .trap 0x04 (infoNum sl.val) s
    else match unitFault a 64 (128 * k) with
      | some x => .trap x.1 x.2 s
      | none => .done (s.updMe fun m => m.setSlot sl.val
          { m.slot sl.val with bind := some { lad, roleB, shadow := a.toNat, klen := k } })

-- Starting a tile (R162, R183, R204, R205, R335, R336).

/-- The bias of a slot's elements (R96, R181). -/
def Matrix.slotBias (m : Matrix) (s : Nat) : Int :=
  match (m.slot s).bind with
  | some b => ladBias (m.desc b) 0
  | none => 0

/-- The binding checks of a ladder tile (R183): the slot SLOT_STATE names, or the bindings. -/
def ladderCheck (m : Matrix) (f : Fmt) (sa sb : Nat) : Except Nat (Bind × Bind) :=
  match (m.slot sa).bind, (m.slot sb).bind with
  | none, _ => .error sa
  | some _, none => .error sb
  | some a, some b =>
    let da := m.desc a
    let db := m.desc b
    if da.toNat % 2 ^ 12 ≠ db.toNat % 2 ^ 12 then .error sb
    else if ladRung da 0 ≠ f.code then .error sa
    else if a.roleB then .error sa
    else if !b.roleB then .error sb
    else .ok (a, b)

/-- The tag a tile gives its entry (R204): the row map is read now. -/
def State.tileTag (s : State) (e : Nat) : Except (Nat × Word) AccTag :=
  match s.core.me.spec with
  | none => .ok AccTag.reset
  | some (t, base) =>
    if e < t.ebase.val then .ok AccTag.reset
    else
      let a := base + BitVec.ofNat 64 (128 * (e - t.ebase.val))
      if !(inUnit a 128) then .error (0x04, infoLocal a)
      else match s.unitBad a.toNat 128 with
        | some (x, _) => .error (0x0D, infoLocal (BitVec.ofNat 64 x))
        | none =>
          let bytes := readRun s.unit.mem a.toNat 128
          .ok { mode := if t.conf then 2 else 1,
                id := (t.xbase.toNat + (e - t.ebase.val)) % 4096, poison := none,
                map := (List.range 64).map fun i =>
                  BitVec.ofNat 16 (leNat ((bytes.drop (2 * i)).take 2)) }

/-- How a tile starts: a trap, a poisoned tile that computes nothing, or a tile on its way. -/
inductive TileStart | trap (code : Nat) (info : Word) | poisoned (s : State) | go (t : Tile) (s : State)

/-- What kind of tile an instruction asks for. -/
inductive TileKind
  | plain
  | ladder
  /-- an MGO step: a ladder step when both slots are bound (R183) -/
  | step
  deriving DecidableEq, Repr

/-- The bindings of the tile, none for a plain one. -/
def tileBinds (m : Matrix) (k : TileKind) (f : Fmt) (sa sb : Nat) : Except Nat (Option (Bind × Bind)) :=
  let bound (s : Nat) : Bool := (m.slot s).bind.isSome
  let laddered : Bool := match k with
    | .plain => false
    | .ladder => true
    | .step => (f == .bf16 || f == .e4m3 || f == .e2m1) && (bound sa || bound sb)
  if laddered then (ladderCheck m f sa sb).map some else .ok none

/-- The address of the first scale block that is not inside the pad (R171, R215). -/
def scaleOutside (a : Word) (n : Nat) : Option Word :=
  ((List.range n).map fun i => a + BitVec.ofNat 64 (256 * i)).find? (fun x => !(inUnit x 256)) |>.map infoLocal

/-- SPACE_BOUNDS of a tile's own ranges: its partial entries (R109), and for an MGO step its destination
among them and its scale blocks (R170, R171). -/
def tileRange (f : Fmt) (e : Nat) (q : Option QGroup) (part : Nat) (scale : Option Word) : Option Word :=
  match q with
  | none => none
  | some g =>
    if 64 < part + groups f g then some (infoNum part)
    else match scale with
      | none => none
      | some a =>
        if part ≤ e && e < part + groups f g then some (infoNum e)
        else scaleOutside a (groups f g)

/-- How the tile of an instruction starts. The entry it adds onto may not be poisoned; a Q tile that is not scaled only
overwrites its partial entries (R109, R131). -/
def startTile (k : TileKind) (f : Fmt) (e sa sb : Nat) (clr : Bool) (q : Option QGroup) (part : Nat)
    (scale : Option Word) (step : Nat) (s : State) : TileStart :=
  let m := s.core.me
  match [sa, sb].find? fun x => (m.slot x).st != .filled with
  | some x => .trap 0x09 (infoNum x)
  | none =>
    match tileBinds m k f sa sb with
    | .error x => .trap 0x09 (infoNum x)
    | .ok lad =>
      match (match s.tileTag e with | .error (0x04, i) => some i | _ => none), tileRange f e q part scale with
      | some i, none => .trap 0x04 i
      | _, some i => .trap 0x04 i
      | none, none =>
        match s.tileTag e with
        | .error x => .trap x.1 x.2
        | .ok tag =>
          match [sa, sb].findSome? fun x => (m.slot x).poison.map fun c => (x, c) with
          | some (x, c) =>
            if m.spec.isSome then .poisoned (s.updMe fun m => m.setTag e { tag with poison := some c })
            else .trap 0x0D (infoNum x)
          | none =>
            if m.slotPoison sa slotBytes then .trap 0x0D (infoNum sa)
            else if m.slotPoison sb (pitchB f * fmtK f) then .trap 0x0D (infoNum sb)
            else if !clr && (q.isNone || scale.isSome) && m.entryPoison e then .trap 0x0D 0
            else
            match scale.bind fun a =>
                s.unitBad a.toNat (256 * (match q with | some g => groups f g | none => 0)) with
            | some (x, _) => .trap 0x0D (infoLocal (BitVec.ofNat 64 x))
            | none =>
              .go { fmt := f, e, sa, sb, clr, lad, q, part, scale := scale.map BitVec.toNat,
                    biasA := m.slotBias sa, biasB := m.slotBias sb, oldA := none, oldB := none, step, value := [] }
                (s.updMe fun m => m.setTag e tag)

/-- The budget of a ladder instruction (R186), from the bindings of its first step. -/
def Matrix.budgetOf (m : Matrix) (sa sb : Nat) : Nat :=
  match (m.slot sa).bind, (m.slot sb).bind with
  | some a, some b => max (ladBudget (m.desc a)) (ladBudget (m.desc b))
  | _, _ => 0

def State.setWork (s : State) (w : Option MeWork) : State := s.updMe fun m => { m with work := w }

/-- MMA and MMA.fmt.LAD (R335, R336): the tile is issued, and its decision falls at MMA_COMMIT. -/
def issueOne (k : TileKind) (f : Fmt) (e sa sb : Nat) (q : Option QGroup) (s : State) : EngRes :=
  match startTile k f e sa sb false q e none 0 s with
  | .trap code info => .trap code info s
  | .poisoned s' => .done s'
  | .go t s' => .busy (s'.setWork (some
      { MeWork.none with tile := some t, budget := s.core.me.budgetOf sa sb }))

def execMma (f : Fmt) (e sa sb : Fin 64) (g : Option QGroup) (b : LaneB) (s : State) : Out :=
  engineOp .me b s fun _ s => issueOne .plain f e.val sa.val sb.val g s

def ladFmt : LadFmt → Fmt
  | .bf16 => .bf16 | .e4m3 => .e4m3 | .e2m1 => .e2m1

def execMmaLad (f : LadFmt) (e sa sb : Fin 64) (b : LaneB) (s : State) : Out :=
  engineOp .me b s fun _ s => issueOne .ladder (ladFmt f) e.val sa.val sb.val none s

-- The nest (R166-R170).

def nestLevels : List Nat := [0, 1, 2, 3, 4, 5]

def Matrix.level (m : Matrix) (l : Nat) : NestLevel := vget m.act l NestLevel.zero
def Matrix.index (m : Matrix) (l : Nat) : Nat := (vget m.idx l 0).toNat

/-- The offset of a field at the nest's position. -/
def Matrix.nestOffset (m : Matrix) (f : NestLevel → BitVec 16) : Int :=
  (nestLevels.map fun l => (m.index l : Int) * (f (m.level l)).toInt).sum

def Matrix.nestClr (m : Matrix) : Bool :=
  nestLevels.any fun l => (m.level l).flags.getLsbD 0 &&
    nestLevels.all fun k => decide (k ≤ l) || m.index k == 0

def Matrix.nestSkips (m : Matrix) : Bool := nestLevels.any fun l => (m.level l).flags.getLsbD 1

/-- The number of the step, counted from 0. -/
def Matrix.nestStep (m : Matrix) : Nat :=
  nestLevels.foldl (fun n l => n * (m.level l).count.toNat + m.index l) 0

/-- The next position, innermost level first; none when level 0 carries out. -/
def nextIndex : List (Nat × Nat) → Option (List Nat)
  | [] => none
  | (c, i) :: r => if i + 1 < c then some ((i + 1) :: r.map Prod.snd) else (nextIndex r).map (0 :: ·)

def Matrix.nestNext (m : Matrix) : Option (Vector (BitVec 16) 6) :=
  (nextIndex (nestLevels.reverse.map fun l => ((m.level l).count.toNat, m.index l))).map fun l =>
    vofList 6 (l.reverse.map (BitVec.ofNat 16)) 0

/-- No tile is left: the instruction completes, or its replays run (R185). -/
def State.tilesDone (s : State) (w : MeWork) : State :=
  if w.replays.isEmpty then (s.setWork none).entryPerformed .me
  else (s.setWork (some { w with tile := none, nest := false, rung := 1 })).updEng fun g =>
    g.setQueue .me { vget g.queues 1 EngQ.empty with phase := .busy }

/-- A tile is behind: the nest moves on, or ends (R167). -/
def State.afterTile (s : State) (replay : Option Tile) : State :=
  match s.core.me.work with
  | none => s
  | some w =>
    let w : MeWork := { w with tile := none, replays := w.replays ++ replay.toList }
    if w.nest then
      match s.core.me.nestNext with
      | some i =>
        (s.updMe fun m => { m with idx := i, work := some w }).updEng fun g =>
          g.setQueue .me { vget g.queues 1 EngQ.empty with phase := .ready }
      | none => s.tilesDone w
    else s.tilesDone w

/-- One step of the nest (R167, R168). -/
def nestRun (f : Fmt) (c sa sb : Fin 64) (q : Option MgoQ) (sbase : Word) (s : State) : EngRes :=
  let m := s.core.me
  let a := (sa.val : Int) + m.nestOffset NestLevel.astep
  let b := (sb.val : Int) + m.nestOffset NestLevel.bstep
  let e := (c.val : Int) + m.nestOffset NestLevel.cstep
  let outside (x : Int) : Bool := decide (x < 0) || decide (63 < x)
  let low (x : Int) : Word := infoNum (x % 64).toNat
  if outside a then .trap 0x09 (low a) s
  else if outside b then .trap 0x09 (low b) s
  else if outside e then .trap 0x04 (low e) s
  else
    let w : MeWork := m.work.getD { MeWork.none with nest := true, budget := m.budgetOf a.toNat b.toNat }
    if m.nestSkips && (m.slot b.toNat).skip then .more ((s.setWork (some w)).afterTile none)
    else
      let sp : Option Word := q.map fun _ => sbase + BitVec.ofInt 64 (256 * m.nestOffset NestLevel.sstep)
      match startTile .step f e.toNat a.toNat b.toNat m.nestClr (q.map MgoQ.g)
          (match q with | some x => x.part.val | none => e.toNat) sp m.nestStep s with
      | .trap code info => .trap code info s
      | .poisoned s' => .more ((s'.setWork (some w)).afterTile none)
      | .go t s' => .busy (s'.setWork (some { w with tile := some t }))

/-- MGO (R167, R334). -/
def execMgo (f : Fmt) (c sa sb : Fin 64) (q : Option MgoQ) (b : LaneB) (s : State) : Out :=
  let started := s.core.me.work.isSome
  engineOp .me (againB b started) s fun cap s =>
    let sbase := match q with | some x => cap.param x.p | none => 0
    let load (s : State) : State := s.updMe fun m => { m with act := m.shadow, idx := Vector.replicate 6 0 }
    -- a COUNT of 0 ends the nest with no step and no trap
    if !started && s.core.me.shadow.toList.any fun l => l.count == 0 then .done (load s)
    else if sbase.toNat % 256 ≠ 0 then .trap 0x03 (infoLocal sbase) s
    else nestRun f c sa sb q sbase (if started then s else load s)

-- Monitors (R174-R176, R187).

/-- MONSTAT: each field holds at all ones. -/
def monWord (n : Counts) : Word :=
  BitVec.ofNat 64 (min n.bso 4095 * 2 ^ 52 + min n.nan 4095 * 2 ^ 40 + min n.can 4095 * 2 ^ 28 +
    min n.sat 4095 * 2 ^ 16 + min n.unf 65535)

/-- A count crosses a threshold; 0xFFFF never. -/
def Matrix.crossed (m : Matrix) (f : MonField) (n : Nat) : Bool :=
  let t := vget m.mon f.code 0xFFFF
  t != 0xFFFF && decide (t.toNat < n)

/-- Fails(n) of R184. -/
def Matrix.failed (m : Matrix) (n : Counts) : Bool :=
  m.crossed .satmax n.sat || m.crossed .unfmax n.unf || m.crossed .canmax n.can

/-- The field of a MON_TRAP: the lowest where one commit crosses several thresholds, which no rule names (DESIGN CHOICE,
log entry 71). -/
def Matrix.monTrap (m : Matrix) (n : Counts) (ladder : Bool) : Option Nat :=
  if m.crossed .nanmax n.nan then some 3
  else if m.crossed .bsomax n.bso then some 4
  else if ladder && m.crossed .topmax m.topcnt then some 5 else none

/-- After a commit (R176): MONSTAT holds the counts, and MON_TRAP is made pending. -/
def State.monitor (s : State) (n : Counts) (ladder : Bool) (step : Nat) : State :=
  let s := s.updMe fun m => { m with monstat := monWord n }
  match s.core.me.monTrap n ladder with
  | some f => s.pendTrap { code := 0x0B, eng := .me, info := infoNum (step % 256 * 256 + f) }
  | none => s

def Matrix.cexp (m : Matrix) : Nat := (vget m.mon 6 12).toNat

-- MMA_COMMIT (R105-R109, R170, R184).

/-- What a tile reads from its slots: of a slot filled meanwhile each element is old or new (R164), in a deterministic
line by one choice in every run (R253). -/
def State.tileData (s : State) (t : Tile) : List Byte × List Byte × State :=
  let n := s.choiceNum (s.core.headDet .me)
  let a := s.core.me.slotData t.sa
  let b := s.core.me.slotData t.sb
  let a' := match t.oldA with | some o => mixElems n (fmtA t.fmt).bits o a | none => a
  let b' := match t.oldB with | some o => mixElems (n + 2 * slotBytes) (fmtB t.fmt).bits o b | none => b
  (a', b', if t.oldA.isSome || t.oldB.isSome then s.drawBytes.drawBytes else s)

/-- The zero point of a row or column and group (R97, R163); Q4 uses the low nibble. -/
def zeroPoint (e : EFmt) (x : Slot) (i j : Nat) : Nat :=
  (readByte x.zp (16 * i + j)).toNat % (if e.bits = 4 then 16 else 256)

/-- The group partials of a Q tile written to their entries (R108, R109). The zero points are those of the side records as
they stand at the commit, whatever elements the tile has found: R164 speaks of elements alone (DESIGN CHOICE, log entry
10). -/
def Matrix.partials (m : Matrix) (t : Tile) (g : QGroup) (a b : List Byte) : Matrix :=
  let rows := codesA t.fmt a
  let cols := codesB t.fmt b
  (List.range (groups t.fmt g)).foldl (fun acc j =>
    acc.writeRows (t.part + j) 4 (partialRows g j rows cols
      (fun r => zeroPoint (fmtA t.fmt) (m.slot t.sa) r j)
      (fun c => zeroPoint (fmtB t.fmt) (m.slot t.sb) c j))) m

/-- One group of MSCA (R111, R171): the entry's new rows and the BSO count of this group (log entry 67). -/
def Matrix.scaleGroup (m : Matrix) (u : Memory) (dst part : Nat) (clr : Bool) (sp : Nat) : Matrix × Nat :=
  let acc := m.entry dst
  let p := m.entry part
  let sc := (readRun u sp 256).toArray
  let scale (i : Nat) : Nat := leNat [sc.getD (2 * i) 0, sc.getD (2 * i + 1) 0]
  let out := (List.range 64).map fun r => (List.range 64).map fun c =>
    scaleElem (if clr then 0 else entryElem acc 4 r c) (entryElem p 4 r c) (scale r) (scale (64 + c))
  (m.writeRows dst 4 (out.map fun r => r.map Prod.fst), (out.map fun r => r.countP fun x => x.2).sum)

/-- The groups of an MGO step scaled into its entry. BSO counts an output element once for every group in which it meets
the condition (DESIGN CHOICE, log entry 67). -/
def Matrix.scaleAll (m : Matrix) (u : Memory) (dst part : Nat) (clr : Bool) (sp n : Nat) : Matrix × Nat :=
  (List.range n).foldl (fun acc j =>
    let r := acc.1.scaleGroup u dst (part + j) (clr && j == 0) (sp + 256 * j)
    (r.1, acc.2 + r.2)) (m, 0)

/-- The counts a slot's last converting fill recorded (R163). -/
def Slot.conv (x : Slot) : Counts := { Counts.zero with sat := x.sat, unf := x.unf, nan := x.nan }

/-- A tile that fails at the top rung (R187). -/
def Matrix.topFail (m : Matrix) : Matrix :=
  { m with lrc := vset m.lrc 2 (satAdd32 (vget m.lrc 2 0) 1), topcnt := m.topcnt + 1 }

/-- The decision on a tile (R184): the state after it, and the tile again when it is squashed. -/
def State.decideTile (s : State) (t : Tile) : State × Option Tile :=
  let d := s.tileData t
  let s := d.2.2
  match t.q with
  | some g =>
    let s := s.updMe fun m => m.partials t g d.1 d.2.1
    (match t.scale with
     | none => (s.monitor Counts.zero false t.step, none)
     | some sp =>
       let r := s.core.me.scaleAll s.unit.mem t.e t.part t.clr sp (groups t.fmt g)
       ((s.updMe fun _ => r.1).monitor { Counts.zero with bso := r.2 } false t.step, none))
  | none =>
    let m := s.core.me
    let data := m.entry t.e
    let w := accBytes t.fmt
    let r := tileSum t.fmt m.cexp t.biasA t.biasB (codesA t.fmt d.1) (codesB t.fmt d.2.1)
      fun row col => if t.clr then 0 else entryElem data w row col
    match t.lad with
    | none => ((s.updMe fun m => m.writeRows t.e w r.1).monitor r.2 false t.step, none)
    | some (ba, _) =>
      let n := (r.2.add (m.slot t.sa).conv).add (m.slot t.sb).conv
      let top := (ladRungs (m.desc ba)).length ≤ 1
      if m.failed n && !top then
        let s := s.updMe fun m => { m with lrc := vset m.lrc 0 (satAdd32 (vget m.lrc 0 0) 1) }
        let s := if t.clr then s.updMe fun m =>
          { m with amem := writeRun m.amem (entryBytes * t.e) (List.replicate entryBytes 0)
                   abad := m.abad.filter fun g => g / 2048 != t.e } else s
        (s, some t)
      else
        let s := if m.failed n then s.updMe Matrix.topFail else s
        ((s.updMe fun m => m.writeRows t.e w r.1).monitor n true t.step, none)

/-- The ME has a tile or replays in progress and no trap of its own. -/
def State.meBusy (s : State) : Bool :=
  (s.core.queue .me).phase == .busy && !(s.core.engHeld .me)

/-- The values with which a debug stop has sent a tile on are what it leaves in its entries: it commits them, and a replay of
a squashed one adds onto them (R255, log entry 27). -/
def Matrix.injected (m : Matrix) (t : Tile) : Matrix :=
  t.value.foldl (fun m x => { m with amem := writeRun m.amem (entryBytes * x.1) x.2 }) m

def execMmaCommit (s : State) : Out :=
  match s.core.me.work with
  | some { tile := some t, .. } =>
    if s.meBusy then
      let r := s.decideTile t
      let s' := if t.value.isEmpty then r.1 else r.1.updMe fun m => m.injected t
      .next (s'.afterTile (r.2.map fun t => { t with value := [] }))
    else .next s
  | _ => .next s

-- Replays (R184-R188).

/-- One shadow element converted to a rung (R182); elements beyond KLEN are +0 and count nothing. -/
def convShadow (f : Fmt) (bias : Int) (x : Nat) : Conv :=
  match fmtA f with
  | .flt g =>
    if g = fBF16 then convElem (.flt fBF16) (.flt fBF16) x
    else g.encode .rne ((fBF16.decode x).shift (-bias))
  | .int _ => { code := x, sat := false, unf := false, nan := false }

/-- A shadow's BF16 code at (row or column, k), from its bytes; none beyond KLEN (R180). -/
def shadowCode (b : Bind) (data : Array Byte) (i k : Nat) : Option Nat :=
  if b.klen ≤ k then none
  else
    let o := if b.roleB then 128 * k + 2 * i else 2 * b.klen * i + 2 * k
    some (leNat [data.getD o 0, data.getD (o + 1) 0])

/-- Where element k of row or column i of a shadow stands in it (R180). -/
def Bind.place (b : Bind) (i k : Nat) : Nat := if b.roleB then 128 * k + 2 * i else 2 * b.klen * i + 2 * k

/-- Elements `ks` of the shadow converted to rung j, by rows or columns, with the conversion counts. `zero` says
whether a byte of the shadow lies in a marked granule, whose elements are +0. -/
def convertShadow (f : Fmt) (bias : Int) (b : Bind) (ks : List Nat) (data : Array Byte) (zero : Nat → Bool) :
    List (List Nat) × Counts :=
  let out := (List.range 64).map fun i => ks.map fun k =>
    match shadowCode b data i k with
    | none => ({ code := 0, sat := false, unf := false, nan := false } : Conv)
    | some x => if zero (b.place i k) then { code := 0, sat := false, unf := false, nan := false }
        else convShadow f bias x
  (out.map fun r => r.map Conv.code,
   { Counts.zero with
     sat := (out.map fun r => r.countP Conv.sat).sum
     unf := (out.map fun r => r.countP Conv.unf).sum
     nan := (out.map fun r => r.countP Conv.nan).sum })

/-- How a pass starts: it meets poison (a trap, or the fate of a poisoned slot), or reads the shadows. -/
inductive PassStart
  | trap (info : Word)
  | poison (code : Nat)
  | go

/-- The first bad granule that a pass over elements `ks` reads in a shadow. -/
def State.passBad (s : State) (b : Bind) (ks : List Nat) : Option (Nat × Option Nat) :=
  (s.unit.bad.find? fun g => (List.range 4).any fun i =>
    let o := 8 * g.1 + 2 * i - b.shadow
    let k := if b.roleB then o / 128 else o % (2 * b.klen) / 2
    decide (b.shadow ≤ 8 * g.1) && decide (o < 128 * b.klen) && ks.contains k).map fun g => (8 * g.1, g.2)

/-- A shadow that is poisoned or marked: MEM_POISON, or the fate of a poisoned slot (R188, R202, R205). -/
def State.shadowBad (s : State) (slot : Nat) (b : Bind) (ks : List Nat) : PassStart :=
  match s.passBad b ks with
  | none => .go
  | some (x, none) => .trap (infoLocal (BitVec.ofNat 64 x))
  | some (_, some c) => if s.core.me.spec.isSome then .poison c else .trap (infoNum slot)

def PassStart.or (a b : PassStart) : PassStart := match a with | .go => b | x => x

/-- The bytes of a shadow as they stand. -/
def State.shadowBytes (s : State) (b : Bind) : List Byte := readRun s.unit.mem b.shadow (128 * b.klen)

/-- One pass of rung j over elements `ks`, added onto what the entry or the passes before it gave. An element whose
shadow has been written since the pass began is wholly old or wholly new (R188). -/
def State.replayPass (s : State) (t : Tile) (ba bb : Bind) (j : Nat) (f : Fmt) (ks : List Nat)
    (seen : List Byte × List Byte) (sums : Option (List (List Nat) × Counts)) : List (List Nat) × Counts :=
  let m := s.core.me
  let num := s.choiceNum (s.core.headDet .me)
  let rd (n : Nat) (b : Bind) (old : List Byte) := (mixElems n 16 old (s.shadowBytes b)).toArray
  let biasA := ladBias (m.desc ba) j
  let biasB := ladBias (m.desc bb) j
  let ra := convertShadow f biasA ba ks (rd num ba seen.1) fun _ => false
  let rb := convertShadow f biasB bb ks (rd (num + 2 * slotBytes) bb seen.2) fun _ => false
  let data := m.entry t.e
  let acc := sums.getD
    ((List.range 64).map fun r => (List.range 64).map fun c => entryElem data 4 r c, Counts.zero)
  let old := (acc.1.map List.toArray).toArray
  let r := tileSum f m.cexp biasA biasB ra.1 rb.1 fun row col => (old.getD row #[]).getD col 0
  (r.1, ((acc.2.add ra.2).add rb.2).add r.2)

/-- The replay windows beyond the budget in an exposed region count one SCHED_BREAK each (R186). -/
def State.countOver (s : State) (exposed : Bool) (before after budget : Nat) : State :=
  if exposed then
    (List.range (max after budget - max before budget)).foldl (fun (s : State) _ => s.schedBreak .me) s
  else s

/-- The replay of tile t has committed or is given up: the next one, or the instruction's end. -/
def State.nextReplay (s : State) (w : MeWork) : State :=
  s.tilesDone { w with replays := w.replays.tail, rung := 1, passes := 0, sums := none, seen := none }

/-- The last pass of a rung has run (R184): the next rung, or the tile's one commit. -/
def State.endRung (s : State) (w : MeWork) (t : Tile) (more : Bool) (rows : List (List Nat)) (n : Counts) : State :=
  if s.core.me.failed n && more then
    s.updMe fun m =>
      { m with lrc := vset m.lrc 1 (satAdd32 (vget m.lrc 1 0) 1)
               work := some { w with rung := w.rung + 1, passes := 0, sums := none, seen := none } }
  else
    let s := if s.core.me.failed n then s.updMe Matrix.topFail else s
    ((s.updMe fun m => m.writeRows t.e 4 rows).monitor n true t.step).nextReplay w

/-- LADDER_REPLAY (R184, R185, R188): a pass of the first squashed tile's replay begins, reading its shadows, or ends,
adding its tile; the rung's last pass decides. -/
def execLadderReplay (s : State) : Out :=
  match s.core.me.work with
  | some w =>
    match w.tile, w.replays with
    | none, t :: _ =>
      match t.lad, (t.lad.bind fun l => (ladRungs (s.core.me.desc l.1))[w.rung]?) with
      | some (ba, bb), some f =>
        let k0 := fmtK t.fmt
        let k := fmtK f
        let ks := (List.range k).map (k * w.passes + ·)
        let put (w : MeWork) : State := s.setWork (some w)
        if !(s.meBusy) then .next s
        else match w.seen with
          | none =>
            (match (s.shadowBad t.sa ba ks).or (s.shadowBad t.sb bb ks) with
             | .trap info =>
               .next (((put { w with passes := 0, sums := none }).setStep .me w.rung).pendTrap
                 { code := 0x0D, info, eng := .me })
             | .poison c => .next ((s.updMe fun m => m.setTag t.e { m.tag t.e with poison := some c }).nextReplay w)
             | .go => .next (put { w with seen := some (s.shadowBytes ba, s.shadowBytes bb) }))
          | some seen =>
            let r := s.replayPass t ba bb w.rung f ks seen w.sums
            let s := s.drawBytes.drawBytes
            if (w.passes + 1) * k < k0 then
              .next (s.setWork (some { w with passes := w.passes + 1, sums := some r, seen := none }))
            else
              let exposed := match (s.core.queue .me).entries with
                | .instr _ c :: _ => c.lmode.getLsbD 0
                | _ => false
              let used := w.windows + k0 / (2 * k)
              .next ((s.countOver exposed w.windows used w.budget).endRung { w with windows := used } t
                (decide (w.rung + 1 < (ladRungs (s.core.me.desc ba)).length)) r.1 r.2)
      | _, _ => .next (s.nextReplay w)
    | _, _ => .next s
  | none => .next s

-- MSCA (R171).

def execMsca (dst part n : Fin 64) (g : QGroup) (p : Fin 16) (k : BitVec 16) (b : LaneB) (s : State) :
    Out :=
  let started := s.core.me.work.isSome
  let j := if started then (s.core.queue .me).step else 0
  engineOp .me (againB b started) s fun c s =>
    let num := cnt64 n
    let a := c.param p
    if num ≠ ceilDiv k.toNat (groupSize g) then
      .trap 0x0A (infoNum (k.toNat * 2 ^ 16 + n.val)) s
    else if 64 < part.val + num then .trap 0x04 (infoNum 63) s
    else if part.val ≤ dst.val && dst.val < part.val + num then .trap 0x04 (infoNum dst.val) s
    else if a.toNat % 256 ≠ 0 then .trap 0x03 (infoLocal a) s
    else match scaleOutside a num with
      | some x => .trap 0x04 x s
      | none =>
        match s.unitBad (a.toNat + 256 * j) 256 with
        | some (x, _) => .trap 0x0D (infoLocal (BitVec.ofNat 64 x)) s
        | none =>
          if s.core.me.entryPoison dst.val || s.core.me.entryPoison (part.val + j) then .trap 0x0D 0 s else
          let r := s.core.me.scaleGroup s.unit.mem dst.val (part.val + j) false (a.toNat + 256 * j)
          let bso := (match s.core.me.work with | some w => w.bso | none => 0) + r.2
          let s := s.updMe fun _ => r.1
          let w : MeWork :=
            { MeWork.none with bso }
          if j + 1 < num then .more ((s.setWork (some w)).setStep .me (j + 1))
          else .done ((s.setWork none).monitor { Counts.zero with bso } false 0)

end Sys2Proof.Machine
end

