-- ==== Sys2Proof/Machine/Gather.lean ====
section
/-! DEFINITION. Fills by the copy and gather engines, and rows by index (R172, R173, R180-R182, R190-R196,
R320-R322). -/
namespace Sys2Proof.Machine

/-- An error response of the CE or GE on a local address (R131, R218): kind 0 lasting, 3 a mark. -/
def badKind (m : Option Nat) : Nat := if m.isSome then 3 else 0

/-- A read of the unit pad by the GE that meets poison or a mark freezes the core. -/
def frozenRead (sp : Nat) (x : Nat × Option Nat) (s : State) : EngRes :=
  .freeze (badKind x.2) sp (BitVec.ofNat 64 x.1) x.1 s

-- CQNT (R182).

def execCqnt (sl : Fin 64) (b : LaneB) (s : State) : Out :=
  engineOp .ce b s fun _ s =>
    let m := s.core.me
    let x := m.slot sl.val
    match x.bind with
    | none => .trap 0x09 (infoNum sl.val) s
    | some d =>
      if x.st = .free then .trap 0x09 (infoNum sl.val) s
      else match s.fillRead d.shadow (128 * d.klen) with
        | .error a => .freeze 0 3 (BitVec.ofNat 64 a) a s
        | .ok r =>
          let desc := m.desc d
          let f := rungFmt (ladRung desc 0)
          let marked (o : Nat) : Bool :=
            r.2.isSome && (smapGet s.unit.bad ((d.shadow + o) / 8)).isSome
          let out := convertShadow f (ladBias desc 0) d (List.range (fmtK f)) r.1.toArray marked
          -- a B tile is laid out by rows of K
          let rows := if d.roleB then
              let cols := (out.1.map List.toArray).toArray
              (List.range (fmtK f)).map fun k => (List.range 64).map fun c => (cols.getD c #[]).getD k 0
            else out.1
          .busy (s.startFill .ce
            { slot := sl.val, bytes := (rows.map (packElems (fmtA f).bits)).flatten,
              zp := some (List.replicate 1024 0), sat := out.2.sat, unf := out.2.unf, nan := out.2.nan,
              poison := r.2, skip := false, keepBind := true, ebits := (fmtA f).bits, map := none, raw := [],
              old := none })

-- GCSR (R172, R173, R321).

def csrFmt : CsrFmt → Fmt
  | .bf16 => .bf16 | .f16 => .f16 | .e4m3 => .e4m3 | .e5m2 => .e5m2

/-- How a read of the pad by GCSR ends. -/
inductive CsrRead | ok (v : Nat) | bounds (a : Nat) | bad (a : Nat) (m : Option Nat)

def State.csrWord (s : State) (a n : Nat) : CsrRead :=
  if unitBytes < a + n then .bounds a
  else match s.unitBad a n with
    | some x => .bad x.1 x.2
    | none => .ok (leNat (readRun s.unit.mem a n))

/-- The entries of one CSR row that fall into a tile, in order: (column, value). Of an entry outside the tile only the
column is read (DESIGN CHOICE, log entry 73). -/
def State.csrRow (s : State) (col vals es col0 : Nat) : List Nat → Except CsrRead (List (Nat × Nat))
  | [] => .ok []
  | i :: r =>
    match s.csrWord (col + 4 * i) 4 with
    | .ok c =>
      if col0 ≤ c && c < col0 + 64 then
        match s.csrWord (vals + es * i) es with
        | .ok v => (s.csrRow col vals es col0 r).map ((c - col0, v) :: ·)
        | x => .error x
      else s.csrRow col vals es col0 r
    | x => .error x

/-- The rows of one tile: dense codes of 64 columns. -/
def State.csrTile (s : State) (ptr col vals es col0 nrows : Nat) : List Nat → Except CsrRead (List (List Nat))
  | [] => .ok []
  | r :: rest =>
    let row : Except CsrRead (List (Nat × Nat)) :=
      if nrows ≤ r then .ok []
      else match s.csrWord (ptr + 4 * r) 4 with
        | .ok a => (match s.csrWord (ptr + 4 * (r + 1)) 4 with
          | .ok z => s.csrRow col vals es col0 ((List.range (z - a)).map (a + ·))
          | x => .error x)
        | x => .error x
    match row with
    | .error x => .error x
    | .ok es' =>
      let dense := es'.foldl (fun (l : List Nat) x => l.set x.1 x.2) (List.replicate 64 0)
      (s.csrTile ptr col vals es col0 nrows rest).map (dense :: ·)

/-- The number of CSR entries of the rows of a tile (R320). -/
def State.csrCount (s : State) (ptr nrows : Nat) (rows : List Nat) : Nat :=
  let w (a : Nat) : Nat := leNat (readRun s.unit.mem a 4)
  (rows.map fun r => if nrows ≤ r then 0 else w (ptr + 4 * (r + 1)) - w (ptr + 4 * r)).sum

/-- GCSR (R172, R321): one tile a step. Nonzero bits beside the fields of a descriptor are ignored: R172 says that they are
zero, and no rule gives a trap for them (DESIGN CHOICE, log entry 73). In an exposed region a command that reads more
than 64 entries for each of its tiles overruns its span (R320). -/
def execGcsr (sl n : Fin 64) (f : CsrFmt) (p : Fin 16) (b : LaneB) (s : State) : Out :=
  let t := (s.core.queue .ge).step
  engineOp .ge (againB b (t != 0)) s fun c s =>
    let r := slotRange sl n
    let a := c.param p
    let fm := csrFmt f
    let es := (fmtB fm).bits / 8
    match rangeFault s.core.me (if t = 0 then r else []) (· != .free) with
    | some x => .trap 0x09 (infoNum x) s
    | none =>
      if a.toNat % 32 ≠ 0 then .trap 0x03 (infoLocal a) s
      else if !(inUnit a 32) then .trap 0x04 (infoLocal a) s
      else match s.unitBad a.toNat 32 with
        | some x => frozenRead 3 x s
        | none =>
          let w (i : Nat) : Nat := leNat (readRun s.unit.mem (a.toNat + 8 * i) 8)
          let ptr := w 0 % 2 ^ 22
          let col := w 1 % 2 ^ 22
          let vals := w 2 % 2 ^ 22
          let row0 := w 3 % 2 ^ 16
          let col0 := w 3 / 2 ^ 16 % 2 ^ 16
          let nrows := w 3 / 2 ^ 32 % 2 ^ 16
          let at_ (x : Nat) : Word := infoLocal (BitVec.ofNat 64 x)
          if ptr % 4 ≠ 0 then .trap 0x03 (at_ ptr) s
          else if col % 4 ≠ 0 then .trap 0x03 (at_ col) s
          else if vals % es ≠ 0 then .trap 0x03 (at_ vals) s
          else
            let rows := (List.range (fmtK fm)).map (row0 + t * fmtK fm + ·)
            match s.csrTile ptr col vals es col0 nrows rows with
            | .error (.bounds x) => .trap 0x04 (at_ x) s
            | .error (.bad x m) => frozenRead 3 (x, m) s
            | .error (.ok _) => .stall s
            | .ok dense =>
              let zero (x : Nat) : Bool := x % 2 ^ (8 * es - 1) == 0
              let all := (List.range (fmtK fm * cnt64 n)).map (row0 + ·)
              let overrun := c.lmode.getLsbD 0 && t + 1 == cnt64 n &&
                decide (64 * cnt64 n < s.csrCount ptr nrows all)
              let s := if overrun then s.schedBreak .ge else s
              .busy (s.startFill .ge
                { slot := (sl.val + t) % 64, bytes := (dense.map (packElems (8 * es))).flatten,
                  zp := some (List.replicate 1024 0), sat := 0, unf := 0, nan := 0, poison := none,
                  skip := dense.all fun l => l.all zero, keepBind := false, ebits := 8 * es, map := none, raw := [],
                  old := none })

-- GMAP (R194, R195).

/-- The words of the map: each is the one that an earlier turn of the start has seen, the one that stands there now, or
the one that a store of the control thread has still to write, as free choices say (R142, R195); in a deterministic line
they are one in every run (R253). -/
def State.mapWords (s : State) (a : Nat) : MapWords :=
  let loc : Loc := .u s.cur
  let n := s.choiceNum (s.core.headDet .ge)
  let seen := s.core.cpy.seenBy .ge
  vgen 10 fun k =>
    let as := (List.range 8).map (a + 8 * k + ·)
    let now := as.map (if Config.copyChoice (n + k) then s.threadByte loc else s.coreByte loc)
    BitVec.ofNat 64 (leNat (match seen with
      | some old => if Config.copyChoice (n + 10 + k) then now else (old.drop (8 * k)).take 8
      | none => now))

def execGmap (sl : Fin 64) (i j : Fin 16) (b : LaneB) (s : State) : Out :=
  engineOp .ge b s fun c s =>
    let a := c.param i
    let origin := c.param j
    if (s.core.me.slot sl.val).st = .free then .trap 0x09 (infoNum sl.val) s
    else if a.toNat % 16 ≠ 0 then .trap 0x03 (infoLocal a) s
    else if !(inUnit a 80) then .trap 0x04 (infoLocal a) s
    else match s.unitBad a.toNat 80 with
      | some x => frozenRead 3 x s
      | none =>
        let m := s.mapWords a.toNat
        let s : State := { s.seenDone .ge with fresh := s.fresh + 20 }
        let sp := spaceOfCode (mapSsp m)
        let base := mapBase m
        if !(mapOk m) || mapLayout m != 1 || mapSsp m == 2 || mapField m 9 63 50 != 0 then
          .trap 0x01 (illegalInfo 0x19 + BitVec.ofNat 64 (c.lane % 8)) s
        else if base % mapEsize m ≠ 0 then .trap 0x03 (infoLocal (BitVec.ofNat 64 base)) s
        else match s.localAddr (cspace sp) (BitVec.ofNat 64 base) (mapSpan m) with
          | none => .trap 0x04 (infoLocal (BitVec.ofNat 64 base)) s
          | some (loc, o) =>
            let row0 := origin.toNat % 2 ^ 32
            let col0 := origin.toNat / 2 ^ 32
            match s.mapReadAll m loc o (mapTile m row0 col0) with
            | .error x => .freeze (badKind x.2) (spaceCode (cspace sp)) (BitVec.ofNat 64 x.1) x.1 s
            | .ok l =>
              let f : Fill :=
                { slot := sl.val, bytes := [], zp := some (List.replicate 1024 (BitVec.ofNat 8 (mapPad m)))
                  sat := 0, unf := 0, nan := 0, poison := none, skip := false, keepBind := false
                  ebits := mapDbits m, map := some (m, loc, o, row0, col0), raw := l, old := none }
              .busy (s.startFill .ge (f.ofMap m l))

-- GROWS and GSCAT (R196, R322).

/-- What the pad's byte was before this command overwrote it (R136). -/
def State.oldByte (s : State) (a : Nat) : Option Byte := smapGet s.core.cpy.overwritten a

/-- One word of a row: where the command has written its source, either value, as a free choice says. -/
def State.rowWord (s : State) (det : Bool) (a : Nat) : List Byte × State :=
  let now := readRun s.unit.mem a 4
  let as := [a, a + 1, a + 2, a + 3]
  if as.any fun x => (s.oldByte x).isSome then
    (if Config.copyChoice (s.choiceNum det) then now
     else (as.zip now).map fun x => (s.oldByte x.1).getD x.2, s.draw)
  else (now, s)

/-- A word written, with the bytes it covers remembered. -/
def State.putRowWord (s : State) (a : Nat) (bs : List Byte) : State :=
  let saved := ((cellsFrom a (readRun s.unit.mem a 4)).filter fun c => (s.oldByte c.1).isNone)
  (s.updCpy fun c => { c with
    overwritten := saved.foldl (fun (o : SMap Byte) x => smapPut o x.1 x.2) c.overwritten }).unitWrite a bs

/-- The granules a row covers whole are clear once it is written (R131). -/
def State.clearRow (s : State) (dst len : Nat) : State :=
  let s := s.settleVe (.u s.cur) ((List.range len).map (dst + ·))
  let p := s.padAt (.u s.cur)
  s.setPad (.u s.cur) { p with bad := p.bad.filter fun g =>
    !(decide (dst ≤ g.1 * 8) && decide (g.1 * 8 + 8 ≤ dst + len)) }

/-- A row moved word by word, upward or downward as a free choice says (R136). -/
def State.moveRow (s : State) (det : Bool) (src dst len : Nat) : State :=
  let up := Config.copyChoice (s.choiceNum det)
  let ws := List.range (len / 4)
  (if up then ws else ws.reverse).foldl (fun (s : State) i =>
    let r := s.rowWord det (src + 4 * i)
    r.2.putRowWord (dst + 4 * i) r.1) s.draw

/-- The granules a row covers only in part and that are bad refuse the row (R132). -/
def State.rowRefused (s : State) (dst len : Nat) : Option Nat :=
  (s.unit.bad.find? fun g => decide (g.1 * 8 + 8 > dst) && decide (g.1 * 8 < dst + len) &&
    !(decide (dst ≤ g.1 * 8) && decide (g.1 * 8 + 8 ≤ dst + len))).map fun g => max dst (g.1 * 8)

/-- One row of GROWS or GSCAT (R196): a trap, an error response, or the next state. -/
def rowStep (scatter det : Bool) (d sr x : Word) (len i : Nat) (s : State) : EngRes :=
  let xa := x.toNat + 2 * i
  let at_ (a : Nat) : Word := infoLocal (BitVec.ofNat 64 a)
  if unitBytes < xa + 2 then .trap 0x04 (at_ xa) s
  else match s.unitBad xa 2 with
    | some y => frozenRead 3 y s
    | none =>
      let k := leNat (readRun s.unit.mem xa 2)
      if k = 0xFFFF && scatter then .more s
      else
        let src := sr.toNat + (if scatter then i else k) * len
        let dst := d.toNat + (if scatter then k else i) * len
        if k ≠ 0xFFFF && unitBytes < src + len then .trap 0x04 (at_ src) s
        else match (if k = 0xFFFF then none else s.unitBad src len) with
          | some y => frozenRead 3 y s
          | none =>
            if unitBytes < dst + len then .trap 0x04 (at_ dst) s
            else match s.rowRefused dst len with
              | some a => .freeze 1 3 (BitVec.ofNat 64 a) a s
              | none =>
                .more (if k = 0xFFFF then
                    (List.range (len / 4)).foldl (fun (s : State) j => s.putRowWord (dst + 4 * j) [0, 0, 0, 0]) (s.clearRow dst len)
                  else (s.clearRow dst len).moveRow det src dst len)

/-- The common part of GROWS and GSCAT: one row a step. -/
def rowsOp (scatter : Bool) (n : Fin 4096) (d sr x : Fin 16) (len : BitVec 16) (b : LaneB)
    (s : State) : Out :=
  let i := (s.core.queue .ge).step
  engineOp .ge (againB b (i != 0)) s fun c s =>
    let D := c.param d
    let S := c.param sr
    let X := c.param x
    if X.toNat % 2 ≠ 0 then .trap 0x03 (infoLocal X) s
    else if D.toNat % 4 ≠ 0 then .trap 0x03 (infoLocal D) s
    else if S.toNat % 4 ≠ 0 then .trap 0x03 (infoLocal S) s
    else match rowStep scatter (c.lmode == 3) D S X len.toNat i s with
      | .more s' =>
        if i + 1 < (if n.val = 0 then 4096 else n.val) then .more (s'.setStep .ge (i + 1))
        else .done (s'.updCpy fun c => { c with overwritten := [] })
      | r => r

def execGrows (n : Fin 4096) (d s x : Fin 16) (len : BitVec 16) (b : LaneB) (st : State) : Out :=
  rowsOp false n d s x len b st
def execGscat (n : Fin 4096) (d s x : Fin 16) (len : BitVec 16) (b : LaneB) (st : State) : Out :=
  rowsOp true n d s x len b st

end Sys2Proof.Machine
end

