-- ==== Sys2Proof/Machine/Work.lean ====
section
/-! DEFINITION. Graphs, nodes and invocations: the graph fetcher, node checks, dependences, placement,
stages, posts and the node watchdog (R26-R46, R50, R133, R230, R252, R295). -/
namespace Sys2Proof.Machine

-- The command block (R29).

def Node.word (n : Node) (i : Nat) : Word := vget n.img i 0
def Node.field (n : Node) (i lo w : Nat) : Nat := (n.word i).toNat / 2 ^ lo % 2 ^ w
def Node.kind (n : Node) : Nat := n.field 0 0 4
def Node.pred (n : Node) : Bool := (n.word 0).getLsbD 8
def Node.dep0 (n : Node) : Bool := (n.word 0).getLsbD 9
def Node.dep1 (n : Node) : Bool := (n.word 0).getLsbD 10
def Node.post (n : Node) : Bool := (n.word 0).getLsbD 11
def Node.det (n : Node) : Bool := (n.word 0).getLsbD 12
def Node.nlev (n : Node) : Nat := n.field 0 16 3
def Node.perm (n : Node) (k : Nat) : Nat := n.field 0 (20 + 2 * k) 2
def Node.kernel (n : Node) : Word := n.word 1
def Node.widBase (n : Node) : Word := n.word 2
def Node.count (n : Node) (l : Nat) : Nat := n.field 3 (16 * l) 16
def Node.doneAdr (n : Node) : Word := n.word 6
def Node.doneDelta (n : Node) : Word := n.word 7
def Node.depAdr (n : Node) (second : Bool) : Word := if second then n.word 10 else n.word 8
def Node.depTgt (n : Node) (second : Bool) : Word := if second then n.word 11 else n.word 9
def Node.predAdr (n : Node) : Word := n.word 12
def Node.next (n : Node) : Word := n.word 15
/-- A core takes part in the node (R29). -/
def Node.has (n : Node) (c : Nat) : Bool := imgHas n.img c

-- Placement and work identifiers (R32, R34).

/-- P and the logical index of a core. -/
def Node.partCount (n : Node) : Nat := n.parts.length
def Node.rank (n : Node) (c : Nat) : Nat := (n.parts.filter (· < c)).length
/-- T, the slices of the launch. -/
def Node.slices (n : Node) : Nat := (List.range n.nlev).foldl (fun t l => t * n.count l) 1
/-- The first slice of logical core j, and the one after its last. -/
def shareStart (j p t : Nat) : Nat := j * t / p
def shareEnd (j p t : Nat) : Nat := (j + 1) * t / p

/-- The WID of slice i: the level at the deepest depth varies fastest (R32, R34). -/
def Node.wid (n : Node) (widths : List Nat) (i : Nat) : Word :=
  ((List.range n.nlev).reverse.foldl
    (fun (acc : Word × Nat) k =>
      let l := n.perm k
      (acc.1 + BitVec.ofNat 64 (acc.2 % n.count l * 2 ^ (widths.take l).sum), acc.2 / n.count l))
    (n.widBase, i)).1

-- Global reads of the work machinery.

/-- Bytes of global memory read in a context, or the refusal: a failed translation or port check, or an error
response. `needR`: right R itself is needed. -/
def State.readPort (s : State) (ctx : Fin 64) (needR : Bool) (a : Word) (n : Nat) : Except Refused (List Byte) :=
  match s.translate ctx .load a [(a.toNat % 2 ^ 48, n)] with
  | .error b => .error (s.refusedFor ctx b a)
  | .ok x =>
    let phys := x.logged (a.toNat % 2 ^ 48)
    if needR && !((wordRights x.word2).getLsbD 0) then .error ⟨4, a, phys⟩
    else match x.places (a.toNat % 2 ^ 48) n with
      | none => .error ⟨4, a, phys⟩
      | some as => match s.firstBad .g as with
        | some (at_, _) => .error ⟨2, a, at_⟩
        | none => .ok (as.map (s.seenByte .g))

/-- What a read of the work machinery meets at the port is logged under the acting core (R125, R133). -/
def State.logRefused (s : State) (x : Refused) (ctx : Fin 64) : State := s.logEvent x.kind 2 x.addr x.phys ctx.val .cc

-- Queues (R35).

def Core.cmdq (c : Core) (q : Nat) : CmdQ := vget c.work.queues q CmdQ.empty

/-- The head node leaves queue q of core i; the next one reaches the head now. -/
def State.popNode (s : State) (i q : Nat) : State :=
  s.updAt i fun c =>
    let x := c.cmdq q
    { c with work := { c.work with
        queues := vset c.work.queues q
          { nodes := x.nodes.tail, seq := x.seq + 1, head := Head.fresh s.time } } }

def State.updHead (s : State) (q : Nat) (f : Head → Head) : State :=
  s.updWork fun w =>
    let x := vget w.queues q CmdQ.empty
    { w with queues := vset w.queues q { x with head := f x.head } }

/-- A node error (R31): the node stays at the head and the error is logged and reported. -/
def State.holdNode (s : State) (q e : Nat) : State :=
  ((s.updHead q fun h => { h with held := some e }).logEvent 10 2 (BitVec.ofNat 64 e) 0
    (match (s.core.cmdq q).nodes with | n :: _ => n.ctx.val | [] => 0) .cc).signal 2

-- The graph fetcher (R27).

/-- A block of 128 bytes as the walk may find it: every word of 8 bytes that has been written since the walk was launched
is its old or its new value, by a free choice (R28). -/
def State.blockWords (s : State) (phys : List Nat) (now : List Byte) : List Byte :=
  let old := phys.map (readByte s.core.work.cpOld)
  (old.zip now).zipIdx.map fun x => if Config.copyChoice (s.fresh + x.2 / 8) then x.1.2 else x.1.1

/-- The places of a block that a read has been allowed. -/
def State.blockPlaces (s : State) (ctx : Fin 64) (a : Word) : List Nat :=
  match s.translate ctx .load a [(a.toNat % 2 ^ 48, 128)] with
  | .ok x => (x.places (a.toNat % 2 ^ 48) 128).getD []
  | .error _ => []

/-- GRAPH_FETCH (R27, R28): the block at the CP is read and enters queue 0, a JUMP redirects the CP, and a
failed read stops the fetcher. What was written since the launch may still be missing, word by word (log entry 62). A
NEXT that is no multiple of 128 is taken as it is, a case that the spec does not name (DESIGN CHOICE, log entry 64). -/
def execGraphFetch (s : State) : Out :=
  let w := s.core.work
  let x := s.core.cmdq 0
  if w.cpState ≠ .running || 16 ≤ x.nodes.length then .next s
  else match s.readPort w.cpCtx true w.cp 128 with
    | .error f =>
      .next (((s.updWork fun w => { w with cpState := .fetchError }).logEvent 7 2 w.cp f.phys w.cpCtx .cc).signal 2)
    | .ok bs =>
      let n : Node := { img := imgOf (s.blockWords (s.blockPlaces w.cpCtx w.cp) bs), ctx := w.cpCtx
                        launch := w.cpLaunch, index := w.cpIndex, addr := w.cp }
      let s : State := { s with fresh := s.fresh + 16 }
      if n.kind = 3 then .next (s.updWork fun w => { w with cp := n.next })
      else
        .next (s.updWork fun w =>
          { w with
            cp := w.cp + 128, cpIndex := w.cpIndex + 1,
            cpState := if n.kind = 4 then .ended else .running,
            queues := vset w.queues 0 ((vget w.queues 0 CmdQ.empty).push n s.time) })

-- Checks at the head (R31).

/-- NE1: a reserved kind or bit, or a field whose enable is clear that is not zero. JUMP and END must have
dependences and predicate disabled (R30). -/
def Node.malformed (n : Node) : Bool :=
  n.kind == 0 || 4 < n.kind || n.field 0 28 36 != 0 || n.field 0 19 1 != 0 || n.field 0 13 3 != 0 ||
  n.field 0 4 4 != 0 || (n.kind != 3 && n.next != 0) ||
  (!n.dep0 && (n.depAdr false != 0 || n.depTgt false != 0)) ||
  (!n.dep1 && (n.depAdr true != 0 || n.depTgt true != 0)) ||
  (!n.pred && n.predAdr != 0) || (!n.post && (n.doneAdr != 0 || n.doneDelta != 0)) ||
  (2 < n.kind && (n.dep0 || n.dep1 || n.pred))

/-- The accepted kernel block that a node names, by its place in the list: the newest one. -/
def State.kernelOf (s : State) (n : Node) : Option Nat :=
  (List.range s.kernels.length).reverse.find? fun i =>
    match s.kernels[i]? with
    | some k => k.ctx == n.ctx && k.addr == n.kernel
    | none => false

/-- NE3 (R31, R32). -/
def Node.nestBad (n : Node) (widths : List Nat) : Bool :=
  4 < n.nlev || widths.length < n.nlev ||
  !((List.range n.nlev).all fun l => (List.range n.nlev).any fun k => n.perm k == l) ||
  ((List.range 4).any fun k => n.nlev ≤ k && (n.perm k != 0 || n.count k != 0)) ||
  ((List.range n.nlev).any fun l =>
    let w := widths.getD l 0
    2 ^ w < n.widBase.toNat / 2 ^ (widths.take l).sum % 2 ^ w + n.count l)

/-- The addresses a node enables, with their widths and the kind of access each must allow. -/
def Node.addresses (n : Node) : List (Word × Nat × GKind × Bool) :=
  (if n.post then [(n.doneAdr, 8, GKind.counter, false)] else []) ++
  (if n.dep0 then [(n.depAdr false, 8, GKind.load, false)] else []) ++
  (if n.dep1 then [(n.depAdr true, 8, GKind.load, false)] else []) ++
  (if n.pred then [(n.predAdr, 4, GKind.load, true)] else [])

/-- NE5 at the check. -/
def State.addressBad (s : State) (ctx : Fin 64) (a : Word) (w : Nat) (k : GKind) (needR : Bool) : Bool :=
  match s.translate ctx k a [(a.toNat % 2 ^ 48, w)] with
  | .error _ => true
  | .ok x => needR && !((wordRights x.word2).getLsbD 0)

/-- The lowest-numbered error among the checks that the acting core makes (R31). -/
def State.nodeError (s : State) (q : Nat) (n : Node) : Option Nat :=
  let work := n.kind == 1 || n.kind == 2
  let part := work && n.has s.cur
  let ne2 := part && (s.kernelOf n).isNone
  let ne3 := part && (match s.kernelOf n with
    | some i => (match s.kernels[i]? with | some k => n.nestBad k.widths | none => false)
    | none => false)
  let ne5 := part && n.addresses.any fun x => s.addressBad n.ctx x.1 x.2.1 x.2.2.1 x.2.2.2
  let ne6 := part && n.addresses.any fun x => x.1.toNat % x.2.1 != 0
  if n.malformed then some 1
  else if ne2 then some 2
  else if ne3 then some 3
  else if work && n.word 4 == 0 && n.word 5 == 0 then some 4
  else if ne5 then some 5
  else if ne6 then some 6
  else if n.kind == 3 || (n.kind == 4 && q != 0) then some 7
  else none

/-- The steps of PHASE that delay the node's first invocation, in ticks (R229, R230). -/
def State.launchOffset (s : State) (n : Node) : Nat :=
  match (s.kernelOf n).bind fun i => s.kernels[i]? with
  | some k => if n.kind = 1 then s.phaseTicks s.cluster k.pidx else 0
  | none => 0

/-- A head whose dependences have just been met is ready now, but for its predicate (R36, R230). -/
def State.settleHead (s : State) (q : Nat) (n : Node) : State :=
  s.updHead q fun h =>
    if h.checked && h.dep0 && h.dep1 then
      { h with ready := !n.pred, readyAt := s.time + BitVec.ofNat 64 (s.launchOffset n) }
    else h

/-- NODE_HEAD_CHECK (R30, R31): the node is held, discarded, ended, or waits for its dependences. -/
def execNodeHeadCheck (q : Fin 4) (s : State) : Out :=
  let x := s.core.cmdq q
  match x.nodes with
  | [] => .next s
  | n :: _ =>
    if x.head.checked || x.head.held.isSome then .next s
    else match s.nodeError q n with
      | some e => .next (s.holdNode q e)
      | none =>
        if n.kind = 4 then
          .next ((s.popNode s.cur q).updWork fun w => { w with cpState := .idle })
        else if !(n.has s.cur) then .next (s.popNode s.cur q)
        else
          .next ((s.updHead q fun h =>
            { h with checked := true, dep0 := !n.dep0, dep1 := !n.dep1 }).settleHead q n)

/-- DEPENDENCE_READ (R38): a counter at its target meets the dependence; a failed read holds the node. -/
def execDependenceRead (q : Fin 4) (second : Bool) (s : State) : Out :=
  let x := s.core.cmdq q
  match x.nodes with
  | [] => .next s
  | n :: _ =>
    if !x.head.checked || x.head.held.isSome || (if second then x.head.dep1 else x.head.dep0) then
      .next s
    else match s.readPort n.ctx false (n.depAdr second) 8 with
      | .error x => .next ((s.logRefused x n.ctx).holdNode q 5)
      | .ok bs =>
        if leNat bs < (n.depTgt second).toNat then .next s
        else
          .next ((s.updHead q fun h =>
            { h with dep0 := h.dep0 || !second, dep1 := h.dep1 || second }).settleHead q n)

-- Stages (R43-R46).

def Kernel.staged (k : Kernel) : Bool := decide (1 < k.stages.length)

/-- The record of a node on a die: a launch and its block, or a pushed node by its own number. -/
def Staged.isFor (x : Staged) (die : Nat) (n : Node) : Bool :=
  x.die == die && x.launch == n.launch && x.index == n.index

/-- The participating cores of the die; a pushed node is its core's alone (R47). -/
def Staged.parts (x : Staged) : List Nat :=
  match x.owner with
  | some c => [c]
  | none => ((List.range 64).map (x.die * 64 + ·)).filter (imgHas x.img)

/-- The kernel of a node is staged: its record on core i's die, made when there is none yet. -/
def State.ensureStaged (s : State) (n : Node) (i : Nat) : State :=
  match (s.kernelOf n).bind fun k => (s.kernels[k]?).map fun x => (k, x) with
  | some (ki, k) =>
    if !k.staged || s.staged.any fun x => x.isFor (i / 64) n then s
    else
      { s with staged := s.staged ++
        [{ die := i / 64, kernel := ki, launch := n.launch, index := n.index,
           owner := if n.launch = 0 then some i else none, img := n.img, rings := [], passed := [], left := [], cut := [], ended := false }] }
  | none => s

def State.updStaged (s : State) (die : Nat) (n : Node) (f : Staged → Staged) : State :=
  { s with staged := s.staged.map fun x => if x.isFor die n then f x else x }

/-- Core i has left a staged node of its die; a record that every participant has left is dropped. -/
def State.markLeft (s : State) (n : Node) (i : Nat) : State :=
  let s' := (s.ensureStaged n i).updStaged (i / 64) n fun x => { x with left := x.left ++ [i] }
  { s' with staged := s'.staged.filter fun x => !(x.isFor (i / 64) n && x.parts.all x.left.contains) }

-- Leaving a queue, retiring and posting (R35, R37, R40).

/-- The barriers of a node that core i has left; one that no participant can still use is cleared (R295). -/
def State.leaveBarriers (s : State) (i : Nat) (n : Node) : State :=
  let holds (c : Nat) : Bool := ((s.coreAt c).work.queues.toList.any fun x =>
    x.nodes.any fun m => m.launch == 0 && m.img == n.img)
  let mine (b : Barrier) : Bool := n.same b.launch b.index b.img
  let unit (b : Barrier) : List Nat :=
    if b.die then (List.range 64).map (b.unit * 64 + ·) else (List.range 4).map (b.unit * 4 + ·)
  let bs := s.barriers.map fun b => if mine b then { b with left := b.left ++ [i] } else b
  { s with barriers := bs.filter fun b =>
      !(mine b && (unit b).all fun c => !(n.has c) ||
        (if n.launch == 0 then !(holds c) else b.left.contains c)) }

/-- What leaving a node does to the barriers, the AFADD run and, for a staged node, the die it shares with
other cores. `asCore` is the core of its logical index. -/
def State.leaveShared (s : State) (i : Nat) (n : Node) (asCore : Nat) : State :=
  let s1 := s.leaveBarriers i n
  if n.kind = 1 then (s1.endRun n i asCore).markLeft n i else s1

/-- A LAUNCH or POST node at the head of queue q of core i leaves it and has still to retire. Its queue counts as
served, also where the node was skipped; a discarded node or an END serves nothing, cases that R36 does not name
(DESIGN CHOICE, log entry 65). -/
def State.leaveNode (s : State) (i q : Nat) (n : Node) (writes : Bool) (asCore : Nat) : State :=
  let x := (s.coreAt i).cmdq q
  let qf : Fin 4 := Fin.ofNat 4 q
  ((s.popNode i q).updAt i fun c =>
    { c with work := { c.work with
        served := qf
        posts := c.work.posts ++
          [{ q := qf, seq := x.seq, node := n, det := n.det, writes, since := x.head.since,
             reported := x.head.reported, failed := false }] } }).leaveShared i n asCore

/-- The run of a LAUNCH node stands in the way of its post no more (R252): all of it is applied, or no invocation of the
node can add to it. A core that skipped the node waits as well: R252 says it of each core's post (DEDUCED against
R39's "at once", log entry 33). -/
def State.runDone (s : State) (n : Node) : Bool :=
  let det := match (s.kernelOf n).bind fun i => s.kernels[i]? with | some k => k.det | none => false
  match s.runs.find? fun r => r.isFor n with
  | some r => r.applied || (r.adds.isEmpty && !det)
  | none => true

/-- The adds of the acting core's own invocations to the node's run are applied: they are writes of theirs (R37, R252). -/
def State.addsDone (s : State) (n : Node) : Bool :=
  match s.runs.find? fun r => r.isFor n with
  | some r => r.applied || r.adds.all fun x => x.core != s.cur.val
  | none => true

/-- A LAUNCH retires only when its writes are performed, its adds to the node's run among them; its post, if it has one,
waits for the whole run to be applied, and with DET for its predecessor (R37, R40, R252). -/
def State.postReady (s : State) (p : Post) : Bool :=
  let key := nodeKey p.q p.seq
  !p.failed && (p.node.kind != 1 || !p.node.post || s.runDone p.node) &&
  (!p.writes || ((s.core.pend.all fun x => x.seq != key) && (s.core.liveCopies.all fun k => k.seq != key) &&
    s.addsDone p.node)) &&
  (!(p.det && p.node.post) ||
    s.core.work.posts.all fun x => !(x.q == p.q && x.seq + 1 == p.seq))

/-- An add to a counter: its old value and the state after, or why the port refuses it: a failed check, a bad granule
(R132), or a counter that would fall (R120). -/
def State.addCounter (s : State) (ctx : Fin 64) (k : GKind) (a delta : Word) : Except Refused (Nat × State) :=
  match s.portPlaces ctx k a 8 with
  | .error x => .error x
  | .ok as =>
    match s.firstBad .g as with
    | some (at_, _) => .error ⟨3, a, at_⟩
    | none =>
      let old := leNat (as.map (s.byteAt .g))
      let new := (old + delta.toNat) % 2 ^ 64
      if new < old then .error ⟨4, a, as.headD 0⟩ else .ok (old, s.perform .g (cellsAt as new 8))

/-- Entry i of the posts retires; a post that meets a port error is logged and does not retire (R40). -/
def State.retire (s : State) (i : Nat) (p : Post) : State :=
  let drop (s : State) := s.updWork fun w => { w with posts := w.posts.eraseIdx i }
  if p.node.post then
    match s.addCounter p.node.ctx .counter p.node.doneAdr p.node.doneDelta with
    | .ok (_, s') => drop s'
    | .error x =>
      (s.updWork fun w => { w with posts := w.posts.set i { p with failed := true } }).logEvent x.kind 2
        p.node.doneAdr x.phys p.node.ctx .cc
  else drop s

-- The stage balancer (R43-R46).

/-- The slices a participant still has to run. A core whose invocation was given up has those that it had not begun
(R46). -/
def State.slicesLeft (s : State) (x : Staged) (c : Nat) : Nat :=
  let n : Node := { Node.none with img := x.img, launch := x.launch, index := x.index }
  let all := shareEnd (n.rank c) n.partCount n.slices - shareStart (n.rank c) n.partCount n.slices
  if x.left.contains c then 0
  else match (s.coreAt c).work.cur with
    | some p => if x.isFor (c / 64) p.node then p.last - p.next else (List.lookup c x.cut).getD all
    | none => (List.lookup c x.cut).getD all

/-- An invocation of the node runs on the core. -/
def State.runsStaged (s : State) (x : Staged) (c : Nat) : Bool :=
  match (s.coreAt c).work.cur with
  | some p => x.isFor (c / 64) p.node && p.running
  | none => false

def ringCount (r : List RecSt) (st : RecSt) : Nat := (r.filter (· == st)).length

/-- The occupancy ratio of a stage, as a fraction (R45). A record that a running consumer has taken in, which is neither
free nor waiting, counts as valid no more (DESIGN CHOICE, log entry 77). -/
def Staged.ratio (x : Staged) (more : Bool) (st : Nat) : Nat × Nat :=
  if st = 0 then (if more then 1 else 0, 1)
  else (ringCount (x.rings.getD st []) .valid, (x.rings.getD st []).length)

def Staged.eligible (x : Staged) (stages : Nat) (more : Bool) (st : Nat) : Bool :=
  decide (0 < (x.ratio more st).1) &&
  (st + 1 == stages || (x.rings.getD (st + 1) []).contains .free)

/-- The balancer's choice (R45). -/
def Staged.choose (x : Staged) (stages : Nat) (more : Bool) : Option Nat :=
  let el := (List.range stages).filter (x.eligible stages more)
  match el.find? fun st => decide (64 ≤ x.passed.getD st 0) with
  | some st => some st
  | none => el.foldl (fun best st => match best with
      | none => some st
      | some b =>
        let p := x.ratio more b
        let r := x.ratio more st
        if p.1 * r.2 < r.1 * p.2 then some st else some b) none

/-- The passed-over counts after an invocation end on the die, and the chosen stage's count cleared (R45). -/
def Staged.aged (x : Staged) (stages : Nat) (more atEnd : Bool) (ch : Option Nat) : Staged :=
  { x with passed := (List.range stages).map fun st =>
      if some st = ch then 0
      else x.passed.getD st 0 + (if atEnd && x.eligible stages more st then 1 else 0) }

def Staged.setRec (x : Staged) (st slot : Nat) (r : RecSt) : Staged :=
  { x with rings := x.rings.set st ((x.rings.getD st []).set slot r) }

/-- A slot of a ring in a state: which one is open (log entry 32). A node of a deterministic kernel takes the same in every
run (R253). -/
def pickSlot (r : List RecSt) (st : RecSt) (n : Nat) : Option Nat :=
  let l := (List.range r.length).filter fun i => r.getD i .free == st
  l[Config.recordChoice n % l.length]?

/-- An invocation end on the die is one at which the eligible stages of its other nodes have been passed over too: they
age by it (R45, log entry 66). A stage 0 is eligible for a core that has slices left. -/
def State.ageStages (s : State) (die : Nat) (but : Staged → Bool) : State :=
  { s with staged := s.staged.map fun x =>
      if x.die != die || but x || x.rings.isEmpty || x.ended then x
      else x.aged x.rings.length (x.parts.any fun c => s.slicesLeft x c != 0) true none }

def State.stagedOf (s : State) (n : Node) : Option Staged :=
  s.staged.find? fun x => x.isFor s.die n

/-- The acting core's next stage, with its records (R45): answers the state and whether one was chosen. -/
def State.chooseStage (s : State) (p : Progress) (atEnd : Bool) : State × Option Progress :=
  match s.stagedOf p.node, s.kernels[p.kernel]? with
  | some x, some k =>
    let stages := k.stages.length
    let more := decide (p.next < p.last)
    let ch := x.choose stages more
    let x1 := x.aged stages more atEnd ch
    match ch with
    | none => (s.updStaged s.die p.node fun _ => x1, none)
    | some st =>
      let n := if p.node.det || k.det then 0 else s.fresh
      let inp := if st = 0 then none else pickSlot (x.rings.getD st []) .valid n
      let out := if st + 1 = stages then none else pickSlot (x.rings.getD (st + 1) []) .free (n + 1)
      let x2 := match inp with | some i => x1.setRec st i .inUse | none => x1
      let x3 := match out with | some i => x2.setRec (st + 1) i .reserved | none => x2
      ((s.draw.draw).updStaged s.die p.node fun _ => x3,
       some { p with stage := st, inRec := inp, outRec := out, chosen := true })
  | _, _ => (s, none)

/-- Die-pad address of a record slot: a ring's records follow its 64-byte header (R43). -/
def Kernel.record (k : Kernel) (st : Nat) (slot : Option Nat) : Word :=
  match slot, k.stages[st]? with
  | some i, some g => BitVec.ofNat 64 (g.ring + 64 + i * g.rsize)
  | _, _ => 0

/-- The node has ended on the die (R46). -/
def State.stagedDone (s : State) (x : Staged) : Bool :=
  !x.ended && !x.rings.isEmpty && (x.parts.all fun c => s.slicesLeft x c == 0 && !(s.runsStaged x c)) &&
  x.rings.all fun r => r.all (· == .free)

/-- Core c leaves the node that has ended; it is one that stands with the node (R46). -/
def State.leaveStaged (s : State) (x : Staged) (c : Nat) : State :=
  match (s.coreAt c).work.cur with
  | some p =>
    if x.isFor (c / 64) p.node && !p.running then
      (s.leaveNode c p.q p.node true (p.node.parts.getD p.j c)).updAt c fun k =>
        { k with work := { k.work with cur := none } }
    else s
  | none => s

/-- A staged node of the die whose end has come is left by every core that stands with it. -/
def State.endStaged (s : State) (die : Nat) : State :=
  let due := s.staged.filter fun x => x.die == die && s.stagedDone x
  due.foldl (fun s x =>
    let s1 : State := { s with staged := s.staged.map fun y =>
      if y.die == x.die && y.launch == x.launch && y.index == x.index then { y with ended := true } else y }
    x.parts.foldl (fun s c => s.leaveStaged x c) s1) s

/-- What the end of an invocation that was given up does to the die (R42, R45, R46, R213): it is an invocation end there,
at which the stages have been passed over; the core keeps the count of its slices that it has not begun; and a staged
node whose end has come is left. -/
def State.giveUpStages (s : State) (p : Progress) : State :=
  let s1 := (s.ageStages s.die fun _ => false).updStaged s.die p.node fun x =>
    { x with cut := (s.cur.val, p.last - p.next) :: x.cut }
  s1.endStaged s.die

/-- PREDICATE_READ (R39): zero skips the node, a failed read holds it, any other value lets it start. -/
def execPredicateRead (q : Fin 4) (s : State) : Out :=
  let x := s.core.cmdq q
  match x.nodes with
  | [] => .next s
  | n :: _ =>
    let h := x.head
    if !(h.checked && h.dep0 && h.dep1) || h.ready || h.held.isSome then
      .next s
    else match s.readPort n.ctx true n.predAdr 4 with
      | .error x => .next ((s.logRefused x n.ctx).holdNode q 5)
      | .ok bs =>
        if leNat bs = 0 then .next ((s.leaveNode s.cur q n false s.cur).endStaged s.die)
        else .next (s.updHead q fun h => { h with ready := true })

-- The start of an invocation (R41).

/-- Everything the start of an invocation sets in its core (R41, R74, R134, R158, R162, R166, R175, R178,
R187, R204, R227, R256). -/
def Core.beginInvocation (c : Core) (k : Kernel) (p : Progress) (wid : Word) : Core :=
  let st := k.stages.getD p.stage { entry := 0, ring := 0, depth := 0, rsize := 0, allot := 0 }
  { c with
    regs := { c.regs with
      n := vgen 16 fun i =>
        if i = 0 then p.node.word 13 else if i = 1 then p.node.word 14
        else if i = 2 then k.record p.stage p.inRec
        else if i = 3 then k.record (p.stage + 1) p.outRec
        else if i = 4 then BitVec.ofNat 64 p.stage
        else if 12 ≤ i then vget p.carry (i - 12) 0 else 0
      q := Vector.replicate 16 0, k := Vector.replicate 4 false, sup := k.super, wid := wid }
    fetch := { c.fetch with
      line := k.base + st.entry, lane := 1, opened := false, first := true, resume := false,
      lmode := 0, entered := false, draining := false, loops := [], skip := none, moved := 0, stalled := false, waited := false,
      scDone := false, wheelWait := false }
    eng := { c.eng with
      active := 0, queues := Vector.replicate 6 EngQ.empty, tokens := Vector.replicate 36 0,
      params := Vector.replicate 6 (Vector.replicate 16 0), pace := k.pace, paceWritten := k.pace }
    me := { c.me with
      slots := c.me.slots.map fun x => { x with st := .free, bind := none }
      tags := Vector.replicate 64 AccTag.reset
      shadow := Vector.replicate 6 NestLevel.initial, mon := monDefaults, topcnt := 0, spec := none,
      ladders := vgen 16 fun i => (List.lookup i k.ladders).getD 0, work := none }
    cpy := { c.cpy with tmpl := k.tmpl.foldl (fun m t =>
      (t.2.zipIdx).foldl (fun m w => smapSet 0 m (16 * t.1 + w.2) w.1) m) [] }
    bcm := [], bcmSnap := [], snapOpen := false, snapFrozen := false, bcmFixed := []
    work := { c.work with run := .running, served := p.q, cur := some { p with running := true }, dbgFrom := none } }

/-- Bytes that the management core or the loader writes: a granule that is bad and not covered whole is not written, which
is logged (R132, log entry 79). -/
def State.writeChecked (s : State) (l : Loc) (cells : List Host.Cell) (logged : State → Nat → State) : State :=
  let as := cells.map Prod.fst
  let refused (a : Nat) : Bool := (smapGet (s.padAt l).bad (a / l.granule)).isSome &&
    !((List.range l.granule).all fun i => as.contains (a / l.granule * l.granule + i))
  match as.find? refused with
  | none => s.perform l cells
  | some a => logged (s.perform l (cells.filter fun c => !(refused c.1))) a

/-- The invocation begins: its unit-pad data are written before its first line (R74). Stores to the pad that an earlier
invocation left to be performed are performed first, with those that R143 puts before them (DESIGN CHOICE, log entry
78). The work identifier of a later stage's record is taken as its bytes stand, also where they lie in a bad granule: no
rule gives that reader an effect (DESIGN CHOICE, log entry 79). -/
def State.beginInvocation (s : State) (p : Progress) : State :=
  match s.kernels[p.kernel]? with
  | none => s
  | some k =>
    let wid :=
      if p.stage = 0 then p.node.wid k.widths p.next
      else BitVec.ofNat 64 (leNat (readBytes (s.padAt (.d s.die)).mem (k.record p.stage p.inRec).toNat 8))
    let p' : Progress := { p with next := if p.stage = 0 then p.next + 1 else p.next }
    let s' := s.performWhere (s.core.upTo fun x => x.loc == .u s.cur)
    let s' := k.dataU.foldl (fun (s : State) d => s.writeChecked (.u s.cur) (cellsFrom d.1 d.2) fun s a =>
      s.logEvent 3 3 (BitVec.ofNat 64 a) a p.node.ctx.val .cc) s'
    s'.upd fun c => c.beginInvocation k p' wid

/-- R44: another staged node of the kernel block is active on the die. -/
def State.stagedBlocks (s : State) (n : Node) : Bool :=
  match s.kernelOf n with
  | none => false
  | some i =>
    (match s.kernels[i]? with | some k => k.staged | none => false) &&
    s.staged.any fun x => x.die == s.die && x.kernel == i && !x.rings.isEmpty && !x.ended &&
      !(x.isFor s.die n)

/-- The queue to serve next (R36): round robin over the queues whose head is ready. -/
def State.nextQueue (s : State) : Option Nat :=
  ((List.range 4).map fun i => (s.core.work.served.val + 1 + i) % 4).find? fun q =>
    let x := s.core.cmdq q
    match x.nodes with
    | [] => false
    | n :: _ => x.head.ready && x.head.held.isNone && !(n.kind == 1 && s.stagedBlocks n)

/-- A core with a node and no invocation goes on with it: the next slice, or the stage chosen for it. -/
def State.goOn (s : State) (p : Progress) : Option State :=
  match s.kernels[p.kernel]? with
  | none => none
  | some k =>
    if !k.staged then some (s.beginInvocation { p with stage := 0, inRec := none, outRec := none })
    else if p.chosen then some (s.beginInvocation p)
    else match s.chooseStage p false with
      | (s', some p') => some (s'.beginInvocation p')
      | (_, none) => none

/-- A LAUNCH node starts on the acting core (R34, R36, R44). -/
def State.startNode (s : State) (q : Nat) (n : Node) (ki : Nat) (k : Kernel) : State :=
  let j := n.rank s.cur
  let p : Progress :=
    { q := Fin.ofNat 4 q, node := n, seq := (s.core.cmdq q).seq, kernel := ki, j, p := n.partCount,
      next := shareStart j n.partCount n.slices, last := shareEnd j n.partCount n.slices,
      carry := Vector.replicate 3 0, stage := 0, inRec := none, outRec := none, running := false,
      chosen := false }
  if !k.staged then
    if p.next = p.last then s.leaveNode s.cur q n true s.cur
    else s.beginInvocation p
  else
    let s0 := (s.ensureStaged n s.cur).updStaged s.die n fun x =>
      if x.rings.isEmpty then
        { x with
          rings := k.stages.zipIdx.map fun g => if g.2 = 0 then [] else List.replicate g.1.depth .free,
          passed := List.replicate k.stages.length 0 }
      else x
    if (match s0.stagedOf n with | some x => x.ended | none => false) then
      (s0.leaveNode s.cur q n true s.cur).endStaged s.die
    else
      let s1 := s0.updWork fun w => { w with served := p.q, cur := some p }
      ((s1.goOn p).getD s1).endStaged s.die

/-- INVOCATION_START (R34, R36, R41, R44, R45, R230). While the queue in turn waits out the launch offset of its ready head,
the core serves no other queue, a case that R36 and R230 do not name (DESIGN CHOICE, log entry 85). -/
def execInvocationStart (s : State) : Out :=
  let w := s.core.work
  if w.run ≠ .idle || w.stopped || (w.preempt.isSome && w.cur.isNone) then
    .next s
  else match w.cur with
    | some p =>
      (match s.goOn p with
       | some s' => .next s'
       | none => .next s)
    | none =>
      match s.nextQueue with
      | none => .next s
      | some q =>
        match (s.core.cmdq q).nodes with
        | [] => .next s
        | n :: _ =>
          if n.kind ≠ 1 || s.time.toNat < (s.core.cmdq q).head.readyAt.toNat then
            .next s
          else match s.kernelOf n with
            | none => .next (s.holdNode q 2)
            | some i =>
              match s.kernels[i]? with
              | none => .next (s.holdNode q 2)
              | some k => .next (s.startNode q n i k)

/-- NODE_POST (R37, R40): the first node that may retire does; else a ready POST node in turn starts, and
retires at once unless DET makes it wait. R37 leaves the order of several retirements open: of those that may come now, the
oldest is first, and all of them come before a POST node starts (DESIGN CHOICE, log entry 84). -/
def execNodePost (s : State) : Out :=
  let ps := s.core.work.posts
  match (List.range ps.length).find? fun i =>
      match ps[i]? with | some p => s.postReady p | none => false with
  | some i =>
    (match ps[i]? with
     | some p => .next (s.retire i p)
     | none => .next s)
  | none =>
    if s.core.work.run ≠ .idle || s.core.work.cur.isSome then .next s
    else match s.nextQueue with
      | none => .next s
      | some q =>
        match (s.core.cmdq q).nodes with
        | [] => .next s
        | n :: _ =>
          if n.kind ≠ 2 then .next s
          else
            let s' := s.leaveNode s.cur q n false s.cur
            match s'.core.work.posts[ps.length]? with
            | some p => if s'.postReady p then .next (s'.retire ps.length p) else .next s'
            | none => .next s'

/-- The node watchdog's period in ticks of TIME (R50). -/
def State.watchdogTicks (s : State) : Nat := s.watchdog * 2500000

/-- NODE_WATCHDOG (R50): the head of the queue, or a node of it that waits for its post, has stood for longer
than the watchdog: one report. -/
def execNodeWatchdog (q : Fin 4) (s : State) : Out :=
  let x := s.core.cmdq q
  let due (since : Word) : Bool := decide (s.watchdogTicks < (s.time - since).toNat)
  if !x.nodes.isEmpty && x.head.held.isNone && !x.head.reported && due x.head.since then
    .next ((s.updHead q fun h => { h with reported := true }).signal 2)
  else
    let ps := s.core.work.posts
    match (List.range ps.length).find? fun i =>
        match ps[i]? with | some p => p.q == q && !p.reported && due p.since | none => false with
    | some i =>
      .next ((s.updWork fun w => { w with posts := w.posts.modify i fun p => { p with reported := true } }).signal 2)
    | none => .next s

end Sys2Proof.Machine
end

