-- ==== Sys2Proof/Machine/Fetch.lean ====
section
/-! DEFINITION. Fetching and opening a line, the lane in turn, the drain, asynchronous traps, and stores
performed by the memory system (R52-R57, R69, R141-R143, R211-R216, R227, R246, R254, R275, R318). -/
namespace Sys2Proof.Machine

-- Code.

/-- Lane i of a line. -/
def State.laneWord (s : State) (line : Word) (i : Nat) : Nat :=
  leNat (readBytes s.code (line.toNat + 4 * i) 4)

/-- Route nibble i of a header (R54). -/
def route (h i : Nat) : Nat := h / 16 ^ i % 16

/-- The checks of R55 on lane i: reason 1, 2 or 3. -/
def laneFault (h i : Nat) : Option Nat :=
  let c := route h i
  if 6 ≤ c ∧ c ≤ 0xD then some 1
  else if c = 0xE ∧ (i = 1 ∨ 5 < route h (i - 1) ∨ route h (i - 1) = 0) then some 2
  else if 1 ≤ c ∧ c ≤ 5 ∧ (i = 7 ∨ route h (i + 1) ≠ 0xE) then some 3
  else none

/-- The checks of R55: the lane reported and the reason. `needFirst`: the line must set FIRST. -/
def headerFault (h : Nat) (needFirst : Bool) : Option (Nat × Nat) :=
  if h / 8 % 2 = 1 ∨ (h / 2 % 2 = 1 ∧ h % 2 = 0) then some (0, 4)
  else if needFirst ∧ h / 4 % 2 = 0 then some (0, 5)
  else [1, 2, 3, 4, 5, 6, 7].findSome? fun i => (laneFault h i).map fun r => (i, r)

def lineMode (h : Nat) : BitVec 2 := BitVec.ofNat 2 h
def lineFirst (h : Nat) : Bool := h / 4 % 2 == 1

-- Opening a line.

/-- A region begins (R53): pacing writes and a waiting divisor take effect, and SC accesses start anew
(R148, R227, R246, R275). -/
def Core.enterRegion (c : Core) : Core :=
  { c with
    eng := { c.eng with
      pace := c.eng.paceWritten,
      div := (match c.eng.divNext with | some d => Vector.replicate 6 d | none => c.eng.div),
      divNext := none }
    fetch := { c.fetch with scDone := false, wheelWait := false } }

/-- An armed KIND 0 stop sees a region entry (R254): the request counts entries of its own region and is
left by any other. -/
def Work.seeEntry (w : Work) (line cyc : Word) : Work :=
  match w.dbg with
  | some (.cycle l _ occ) =>
    if line = l then
      { w with dbgSeen := w.dbgSeen + 1,
               dbgFrom := if occ ≤ w.dbgSeen + 1 then some cyc else none }
    else { w with dbgFrom := none }
  | some (.brk _) | none => w

/-- The line whose header has been checked is opened: its lanes may be routed. A line with FIRST begins a region, but
not once more where a handler returns into it (R53, R254). -/
def Core.openLine (c : Core) (h : Nat) : Core :=
  let entry := lineFirst h && (!c.fetch.resume || (c.fetch.lane == 1 && !c.fetch.entered))
  let c1 := if entry then c.enterRegion else c
  { c1 with
    work := if entry && !c.trap.inh then c1.work.seeEntry c.fetch.line c.regs.cyc else c1.work
    fetch := { c1.fetch with lmode := lineMode h, opened := true, first := false, resume := false,
                             entered := false, draining := false } }

/-- ILLEGAL at fetch (R55): TPC names the line and lane 0, TINFO the lane reported. -/
def State.illegalAtFetch (s : State) (lane reason : Nat) : State :=
  s.enterTrap { code := 0x01, eng := .cc, info := illegalInfo reason ||| BitVec.ofNat 64 lane }
    s.core.fetch.line 0

/-- The line at the fetch address is checked, and drains or opens (R53, R55, R56, R212). -/
def State.startLine (s : State) : State :=
  let f := s.core.fetch
  let h := s.laneWord f.line 0
  let changed := lineMode h != f.lmode
  match headerFault h (!f.resume && (f.first || changed)) with
  | some (lane, reason) => s.illegalAtFetch lane reason
  | none =>
    if changed && !f.first && !f.resume && !(s.core.trap.inh && s.core.trap.frz) then
      s.updFetch fun f => { f with draining := true }
    else s.upd fun c => c.openLine h

/-- FETCH_LINE (R55, R57, R82): past the last lane, fetch goes on to the next line in sequence. -/
def execFetchLine (s : State) : Out :=
  let f := s.core.fetch
  if s.core.work.run ≠ .running || s.core.work.stopped || f.draining || (f.opened && f.lane < 8) then
    .next s
  else .next (if f.opened then (s.upd Core.nextLine).startLine else s.startLine)

/-- Every queue is empty and every routed entry has been performed (R56). -/
def Core.drained (c : Core) : Bool := engines.all c.engIdle

/-- LINE_DRAIN (R56): the line opens when the core's engines have drained, and waits until then. -/
def execLineDrain (s : State) : Out :=
  let f := s.core.fetch
  if s.core.work.run ≠ .running || s.core.work.stopped || !f.draining then
    .next s
  else if s.core.drained then
    .next ((s.performWhere fun p => p.ve).upd fun c => c.openLine (s.laneWord f.line 0))
  else .next s

-- The lane in turn (R54, R57).

/-- What the lane in turn holds: an empty lane or a lane B, a control-core word, or an engine pair. -/
inductive LaneTurn | skip | cc (w : Nat) | pair (e : Eng) (a b : Nat)
  deriving DecidableEq, Repr

def State.laneTurn (s : State) : LaneTurn :=
  let f := s.core.fetch
  let c := route (s.laneWord f.line 0) f.lane
  let w := s.laneWord f.line f.lane
  if c = 0 then .cc w
  else if c ≤ 5 then .pair (engOf c) w (s.laneWord f.line (f.lane + 1))
  else .skip

/-- A lane that is no instruction raises ILLEGAL with its reason (R69). -/
def illegalLane (reason : Nat) (s : State) : Out := finish (.trap 0x01 (illegalInfo reason) s)

/-- An engine pair is routed (R57). -/
def routeLane (e : Eng) (i : Instr) (s : State) : Out := finish (routePair e i s)

-- Asynchronous traps (R211, R214).

/-- The place of a pending trap in the order of R214. -/
def TrapReq.rank (t : TrapReq) : Nat :=
  if t.code = 0x11 then 6 else if t.code = 0x10 then 7 else if t.code = 0x19 then 8
  else if t.code = 0x1A then 9 else t.eng.num

/-- The lane or the head entry that raised a SCHED_BREAK stalls still (R223): the lane in turn, an engine's head entry, or
the link command whose tokens wait. -/
def Core.stalls (c : Core) (e : Eng) : Bool :=
  match e with
  | .cc => c.fetch.stalled || c.fetch.waited
  | .le => (c.queue .le).stalls || (match c.cpy.le with | x :: _ => x.full | [] => false)
  | .me | .ve | .ce | .ge => (c.queue e).stalls

/-- The pending trap that is taken next; a SCHED_BREAK trap waits for the end of the stall (R91, R223). -/
def Core.nextTrap (c : Core) : Option TrapReq :=
  (c.trap.pending.filter fun t => t.code != 0x19 || !(c.stalls t.eng)).foldl
    (fun best t => match best with
      | none => some t
      | some b => if t.rank < b.rank then some t else some b) none

/-- The first lane that has not executed: empty lanes have nothing to execute, and after the last lane
comes lane 1 of the next line in sequence (R210, R217). -/
def State.toUnexecuted (s : State) : State :=
  let f := s.core.fetch
  if !f.opened then s
  else
    let h := s.laneWord f.line 0
    match (List.range 8).find? fun i => f.lane ≤ i && route h i ≤ 5 && i != 0 with
    | some i => s.updFetch fun f => { f with lane := i }
    | none => s.upd Core.nextLine

/-- TRAP_ENTRY (R211, R214): a pending trap is taken between lanes. -/
def execTrapEntry (s : State) : Out :=
  let w := s.core.work
  if (w.run ≠ .running && w.run ≠ .ending) || w.stopped || s.core.trap.inh then
    .next s
  else match s.core.nextTrap with
    | none => .next s
    | some t =>
      let s := s.endScWait
      let s1 := if w.run = .ending then s else s.toUnexecuted
      let s2 := s1.updTrap fun r => { r with pending := r.pending.erase t }
      let s3 := (s2.updWork fun w => { w with run := .running }).updFetch fun f =>
        { f with wheelWait := false }
      .next (s3.enterTrap t s3.core.fetch.line s3.core.fetch.lane)

-- Stores of the memory system (R141-R143, R356), and the return from a trap (R213).

/-- ACCESS_PERFORMED (R141, R143, R149, R378): pending store i of the acting core is performed; older ones with its engine,
class and space go first, and of the VE those to its bytes, but the elements of one access become visible in any order. -/
def execAccessPerformed (i : Nat) (s : State) : Out :=
  let ps := s.core.pend
  match ps[i]? with
  | none => .next s
  | some p =>
    if (ps.take i).any fun x => x.goesBefore p && x.acc != p.acc then .next s
    else .next ((s.performOne p).upd fun c => { c with pend := ps.eraseIdx i })

/-- ERET (R213, R318): a TPC lane of 0 is a double fault (R216); with ABORT the invocation has ended on its die (R42, R45);
parked VLDG elements raise REPLAY_QUEUE again (R219). -/
def execEret (s : State) : Out :=
  finish (privileged s
    (if s.core.trap.tpc.toNat / 4 % 8 = 0 then .goes s.doubleFault
     else
      let s' := match s.core.work.cur with
        | some p => if s.core.trap.abort && s.core.work.preempting.isNone then s.returnFromTrap.giveUpStages p
            else s.returnFromTrap
        | none => s.returnFromTrap
      match s'.core.vec.parked with
      | p :: _ =>
        if s'.core.trap.pending.any fun t => t.code == 0x18 then .goes s'
        else .goes (s'.pendTrap
          { code := 0x18, eng := .ve, info := infoG p.addr ||| BitVec.ofNat 64 p.code })
      | [] => .goes s'))

end Sys2Proof.Machine
end

