-- ==== Sys2Proof/Machine/Debug.lean ====
section
/-! DEFINITION. The debug stop and BRK: what a stop dumps, when it falls, and how a dumped result goes on (R254, R255,
R297). -/
namespace Sys2Proof.Machine

/-- The entries that a tile in flight will write, with their bytes as they stand in a matrix: the partial entries of a Q
tile that is not scaled, else its entry. -/
def Matrix.tileEntries (m : Matrix) (t : Tile) : List (Nat × List Byte) :=
  let es := match t.q, t.scale with
    | some g, none => (List.range (groups t.fmt g)).map (t.part + ·)
    | _, _ => [t.e]
  es.map fun e => (e, readRun m.amem (entryBytes * e) entryBytes)

/-- The results of the tile in flight: what its commit writes (R255). -/
def State.tileResults (s : State) : List (Nat × List Byte) :=
  match s.core.me.work.bind MeWork.tile with
  | some t => (s.decideTile t).1.core.me.tileEntries t
  | none => []

/-- Where a result of the control thread goes (R59, R76). -/
def Late.target (o : Late) : DumpTarget := match o.named with | some i => .named i.val | none => .queue o.pos

/-- What the register or the queue position of a late result holds now. -/
def Regs.lateValue (r : Regs) (o : Late) : Word :=
  match o.named with | some i => r.n[i] | none => vget r.q o.pos 0

/-- The part of a late result that has arrived: a load's value at its issue, and one that a stop holds back. -/
def Core.lateBytes (c : Core) (o : Late) : List Byte :=
  match o.op with
  | .load _ => leBytes 8 (c.regs.lateValue o).toNat
  | .arrived v => leBytes 8 v.toNat
  | .atomic .. | .srd .. | .sprint .. => []

/-- The sums that a replay has reached, row by row. -/
def sumBytes (rows : List (List Nat)) : List Byte := (rows.map fun r => (r.map (leBytes 4)).flatten).flatten

/-- The entries that squashed tiles have still to commit into, in order, with the sums that the replay in turn has
reached (R184). -/
def MeWork.owing (w : MeWork) : List (Nat × List Byte) :=
  (w.replays.zipIdx).map fun t =>
    (t.1.e, if t.2 = 0 ∧ w.tile.isNone then ((w.sums.map fun x => sumBytes x.1).getD []) else [])

/-- The VLDGs that are not complete, with the lanes that have been read: a frozen one, and those with parked elements,
whose other lanes are written (R219, R379). -/
def Core.gathers (c : Core) : List (Nat × List Byte) :=
  (match c.vec.gathered, (vget c.eng.queues 2 EngQ.empty).entries with
   | some g, .instr (.vldg _ v _) _ :: _ => [(v.v.val, (g.got.map fun x => leBytes 4 x.2).flatten)]
   | _, _ => []) ++
  (((c.vec.parked.map fun p => (p.id, p.vd)).eraseDups).map fun x => (x.2, []))

/-- The results in flight of the acting core as records of a dump (R255): the late results of the control thread, the fill
of each slot with the bytes read so far, the entries that a tile and the replays compute, the vector registers of the
VLDGs that are not complete, and the token queues of the heads that are pushing. How many cycles each has left is open. -/
def State.inFlightRecords (s : State) (left : Nat → Nat) : List DumpRec :=
  let c := s.core
  let found : List (DumpTarget × List Byte) :=
    (c.opened.map fun o => (o.target, c.lateBytes o)) ++
    (c.cpy.fills.map fun f => (.slot f.2.slot, f.2.bytes)) ++
    (s.tileResults.map fun x => (.entry x.1, x.2)) ++
    (((c.me.work.map MeWork.owing).getD []).map fun x => (.entry x.1, x.2)) ++
    (c.gathers.map fun x => (.vreg x.1, x.2)) ++
    (engines.map fun e =>
      match (vget c.eng.queues e.num EngQ.empty).phase with
      | .pushing m => ([Eng.cc, .me, .ve, .ce, .ge, .le].filter fun x => m.getLsbD x.num).map fun x =>
          (DumpTarget.tokens e.num x.num, [(1 : Byte)])
      | .ready | .busy => []).flatten
  found.zipIdx.map fun x => { target := x.1.1, value := x.1.2, left := left x.2 }

/-- The cycles that an armed KIND 0 request has still to wait for, in the entry of the region in force (R254). -/
def Core.stopIn (c : Core) : Option Nat :=
  match c.work.dbg, c.work.dbgFrom with
  | some (.cycle _ n _), some start =>
    if c.work.run == .running && !c.work.stopped && !c.trap.inh then some (n - (c.regs.cyc - start).toNat) else none
  | _, _ => none

/-- The request has reached its cycle. -/
def Core.stopDue (c : Core) : Bool := c.stopIn == some 0

/-- A debug stop (R255): engines, channels and CYC freeze where they are, and what is in flight is dumped. -/
def State.stopCore (s : State) : State :=
  let l := s.inFlightRecords fun i => Config.dumpLeft (s.fresh + i)
  ({ s with fresh := s.fresh + l.length } : State).updWork fun w =>
    { w with stopped := true, dbg := none, dump := l }

/-- The lane after a BRK: in lane 7, lane 1 of the next line in sequence (R297). -/
def Core.afterLane (c : Core) : Core :=
  if 7 ≤ c.fetch.lane then c.nextLine
  else { c with fetch := { c.fetch with lane := c.fetch.lane + 1, stalled := false, waited := false } }

/-- BRK (R254, R297): the armed stop, or trap BRK with TPC at the lane after. -/
def execBrk (num : BitVec 16) (s : State) : Out :=
  let stop := match s.core.work.dbg with
    | some (.brk m) => m.getLsbD (num.toNat % 64)
    | some (.cycle ..) | none => false
  let after := s.upd Core.afterLane
  finish (.goes
    (if stop then after.stopCore
     else if s.core.trap.inh || s.core.trap.tvb = 0 then s.doubleFault
     else after.enterTrap
      { code := 0x16, eng := .cc, info := s.laneInfo (BitVec.ofNat 64 (num.toNat * 65536)) }
      after.core.fetch.line after.core.fetch.lane))

/-- A fill goes on with the bytes of its record; a map fill whose bytes the debugger has changed reads its source no more
(R255). -/
def Fill.resumed (f : Fill) (bs : List Byte) : Fill :=
  let n := bs.length
  if (f.bytes.take n == bs) = true then f
  else { f with bytes := bs ++ f.bytes.drop n, map := none }

/-- A late result of the control thread goes on from its record: one whose value the debugger has changed arrives with that
value (R255). -/
def Core.lateResumed (c : Core) (o : Late) (bs : List Byte) : Late :=
  if bs.isEmpty || c.lateBytes o == bs then o else { o with op := .arrived (BitVec.ofNat 64 (leNat bs)) }

/-- The rows of sums that bytes stand for. -/
def sumRows (bs : List Byte) : List (List Nat) :=
  (List.range 64).map fun r => (List.range 64).map fun c => leNat ((bs.drop (4 * (64 * r + c))).take 4)

/-- The ME's work goes on from the record of an entry: the tile commits its value, and the replay in turn goes on from the
sums. -/
def MeWork.resumed (w : MeWork) (e : Nat) (bs : List Byte) : MeWork :=
  match w.tile with
  | some t => { w with tile := some { t with value := t.value ++ [(e, bs)] } }
  | Option.none => { w with sums := w.sums.map fun x => (sumRows bs, x.2) }

/-- The lanes of a frozen VLDG that have been read go on with the values of its record. -/
def Gathered.resumed (g : Gathered) (bs : List Byte) : Gathered :=
  { g with got := g.got.zipIdx.map fun x => (x.1.1, leNat ((bs.drop (4 * x.2)).take 4)) }

/-- A dumped result is in flight again with its value (R255): a late result, a fill, a tile or a replay, and a frozen VLDG
go on from their records; nothing has arrived of a record without a value. -/
def Core.reinject (c : Core) (d : DumpRec) : Core :=
  if d.value.isEmpty then c
  else match d.target with
    | .named _ | .queue _ =>
      { c with opened := c.opened.map fun o => if o.target = d.target then c.lateResumed o d.value else o }
    | .slot sl => { c with cpy := { c.cpy with fills := c.cpy.fills.map fun f =>
        if f.2.slot = sl then (f.1, f.2.resumed d.value) else f } }
    | .entry e => { c with me := { c.me with work := c.me.work.map fun w => w.resumed e d.value } }
    | .vreg _ => { c with vec := { c.vec with gathered := c.vec.gathered.map fun g => g.resumed d.value } }
    | .tokens .. => c

end Sys2Proof.Machine
end

