-- ==== Sys2Proof/Machine/Vector.lean ====
section
/-! DEFINITION. The vector engine's registers, masks and arithmetic (R112, R113, R221, R241, R362-R375,
R380-R385). -/
namespace Sys2Proof.Machine

-- Elements, registers and masks (R362, R363).

def tyBits : VTy → Nat
  | .f32 | .i32 => 32 | .bf16 | .f16 | .i16 => 16 | .i8 => 8

def tyFloat : VTy → Option FFmt
  | .f32 => some fF32 | .bf16 => some fBF16 | .f16 => some fF16 | .i32 | .i16 | .i8 => none

def Vec.lane (v : Vec) (r l : Nat) : Lane := (smapGet v.regs (64 * r + l)).getD 0

def Vec.setLane (v : Vec) (r l : Nat) (x : Lane) : Vec :=
  { v with regs := smapSet 0 v.regs (64 * r + l) x }

/-- The element of a lane. -/
def Vec.elem (v : Vec) (ty : VTy) (r l : Nat) : Nat := (v.lane r l).toNat % 2 ^ tyBits ty

/-- m7 reads as all ones (R363). -/
def Vec.mask (v : Vec) (m : Fin 8) : Word :=
  if m = 7 then BitVec.ofNat 64 (2 ^ 64 - 1) else vget v.masks m.val 0

def Vec.active (v : Vec) (m : Fin 8) : List Nat :=
  (List.range 64).filter fun l => (v.mask m).getLsbD l

/-- Some lanes of a register have been written together: granules they cover whole carry no poison any more (R131),
and a parked element writes none of them later, since two writes take effect in issue order (R366). -/
def Vec.wrote (v : Vec) (r : Nat) (lanes : List Nat) : Vec :=
  { v with
    vbad := v.vbad.filter fun g =>
      !(g / 32 == r && lanes.contains (2 * (g % 32)) && lanes.contains (2 * (g % 32) + 1))
    parked := v.parked.map fun p => if p.vd == r && lanes.contains p.lane then { p with live := false } else p }

/-- Lanes of a register receive values. -/
def Vec.writeLanes (v : Vec) (r : Nat) (xs : List (Nat × Nat)) : Vec :=
  (xs.foldl (fun acc x => acc.setLane r x.1 (BitVec.ofNat 32 x.2)) v).wrote r (xs.map Prod.fst)

/-- Active lanes of a destination receive a function of the lane; the others keep theirs (R363). -/
def Vec.write (v : Vec) (m : Fin 8) (r : Nat) (f : Nat → Nat) : Vec :=
  v.writeLanes r ((v.active m).map fun l => (l, f l))

/-- A lane of a poisoned granule (R130, R131). -/
def Vec.poisoned (v : Vec) (r : Nat) (lanes : List Nat) : Bool := lanes.any fun l => v.vbad.contains (32 * r + l / 2)

/-- The poisoned granule that a write covers only in part: the write is not performed (R132). -/
def Vec.refused (v : Vec) (r : Nat) (lanes : List Nat) : Option Nat :=
  v.vbad.find? fun g => g / 32 == r && lanes.contains (2 * (g % 32)) != lanes.contains (2 * (g % 32) + 1)

def Vec.refuses (v : Vec) (r : Nat) (lanes : List Nat) : Bool := (v.refused r lanes).isSome

/-- A refused part-write of a register is logged with its granule (R132, R133, log entry 69). -/
def State.logGranule (s : State) (g : Nat) (ctx : Fin 64) : State :=
  s.logEvent 3 7 (BitVec.ofNat 64 (8 * g)) (8 * g) ctx .ve

-- Droop and lane groups (R237, R241).

/-- An alarm of a cluster's detector: both spans start again (R237). -/
def Droop.alarm (d : Droop) : Droop :=
  { d with cnt := satAdd32 d.cnt 1, stretching := d.str != 0, halving := d.half != 0 }

def State.updDroop (s : State) (k : Nat) (f : Droop → Droop) : State :=
  { s with power := { s.power with
      droop := vset s.power.droop k (f (vget s.power.droop k Droop.reset)) } }

def State.droopOf (s : State) : Droop := vget s.power.droop s.cluster Droop.reset

/-- An alarm of the acting core's cluster: ballast stops there for the halving window (R237). -/
def State.alarm (s : State) (f : Droop → Droop) : State :=
  let s' := s.updDroop s.cluster f
  if s'.droopOf.halving then
    { s' with power := { s'.power with ballast := s'.power.ballast &&& ~~~(BitVec.ofNat 32 (2 ^ s.cluster)) } }
  else s'

/-- An instruction with active lanes wakes their groups; an armed test fires on a wake (R240, R241). -/
def State.wake (s : State) (lanes : List Nat) : State :=
  let g := s.core.vec.gated
  let woken := (List.range 4).filter fun i => vget g i false && lanes.any fun l => l / 16 == i
  if woken.isEmpty then s
  else
    let s' := s.updVec fun v => { v with gated := woken.foldl (fun g i => vset g i false) v.gated }
    if (vget s.power.droop s.cluster Droop.reset).arm then
      s'.alarm fun d => { d.alarm with arm := false }
    else s'

-- The frame of a vector instruction (R221, R365).

/-- VREG_ALLOT for the lowest-numbered operand field at or above the allotment. -/
def allotFault (v : Vec) (regs : List (Nat × Nat)) : Option Word :=
  (regs.find? fun r => decide (v.vallot ≤ r.2)).map fun r => BitVec.ofNat 64 (r.2 + 2 ^ 8 * r.1)

/-- What an instruction uses of the registers: the lanes it reads and those it writes, by register, and whether it
waits for every parked element. -/
structure VUse where
  reads : List (Nat × List Nat)
  writes : List (Nat × List Nat)
  waits : Bool
  deriving DecidableEq, Repr

/-- The active lanes of some sources and of a destination. -/
def onLanes (m : Fin 8) (reads : List Nat) (dest : Option Nat) (v : Vec) : VUse :=
  { reads := reads.map fun r => (r, v.active m), writes := dest.toList.map fun r => (r, v.active m), waits := false }

/-- It reads the register of a parked element, or waits for all of them (R219). -/
def VUse.held (u : VUse) (v : Vec) : Bool :=
  (u.waits && !v.parked.isEmpty) || v.parked.any fun p => u.reads.any fun r => r.1 == p.vd

/-- A vector instruction: operand fields (number, register), its use of the registers, its mask, and the checks of its
address, which go before every memory error, poison in a register among them (R365). Such poison has no address, so that
TINFO names none (DESIGN CHOICE, log entry 69). An instruction that waits for parked elements has not issued and wakes no
group (R241). -/
def veAccess (b : LaneB) (s : State) (regs : List (Nat × Nat)) (use : Vec → VUse) (m : Fin 8)
    (pre : Capture → State → Option (Nat × Word)) (work : Capture → State → EngRes) : Out :=
  engineOp .ve b s fun c s =>
    let v := s.core.vec
    let u := use v
    match allotFault v regs with
    | some info => .trap 0x08 info s
    | none =>
      if u.held v then .stall s
      else
        let s := s.wake (v.active m)
        match pre c s with
        | some x => .trap x.1 x.2 s
        | none =>
          if u.reads.any fun r => v.poisoned r.1 r.2 then .trap 0x0D 0 s
          else match u.writes.findSome? fun r => v.refused r.1 r.2 with
            | some g => .trap 0x0E 0 (s.logGranule g c.ctx)
            | none => work c s

/-- A vector instruction without an address. -/
def veOp (b : LaneB) (s : State) (regs : List (Nat × Nat)) (use : Vec → VUse) (m : Fin 8)
    (work : Capture → State → EngRes) : Out :=
  veAccess b s regs use m (fun _ _ => none) work

/-- A register result computed from the registers as they stand. -/
def regResult (f : Vec → Vec) (_c : Capture) (s : State) : EngRes := .done (s.updVec f)

/-- The layout of R65 with two sources. -/
def v3Op (v : V3) (b : LaneB) (f : Nat → Nat → Nat) (s : State) : Out :=
  veOp b s [(0, v.vd.val), (1, v.va.val), (2, v.vb.val)] (onLanes v.mask [v.va.val, v.vb.val] (some v.vd.val)) v.mask
    (regResult fun x => x.write v.mask v.vd.val fun l => f (x.elem v.ty v.va.val l) (x.elem v.ty v.vb.val l))

/-- The layout of R65 with one source. -/
def v2Op (v : V2) (b : LaneB) (f : Nat → Nat) (s : State) : Out :=
  veOp b s [(0, v.vd.val), (1, v.va.val)] (onLanes v.mask [v.va.val] (some v.vd.val)) v.mask
    (regResult fun x => x.write v.mask v.vd.val fun l => f (x.elem v.ty v.va.val l))

/-- The layout of VFMA and VSEL. -/
def v4Op (v : V4) (b : LaneB) (f : Nat → Nat → Nat → Nat) (s : State) : Out :=
  veOp b s [(0, v.vd.val), (1, v.va.val), (2, v.vb.val), (3, v.vc.val)]
    (onLanes v.mask [v.va.val, v.vb.val, v.vc.val] (some v.vd.val)) v.mask
    (regResult fun x => x.write v.mask v.vd.val fun l =>
      f (x.elem v.ty v.va.val l) (x.elem v.ty v.vb.val l) (x.elem v.ty v.vc.val l))

-- Arithmetic (R112, R368).

/-- A float operation rounded once, or an integer operation that wraps. -/
def arith2 (ty : VTy) (r : Rnd) (ff : FVal → FVal → FVal) (fi : Int → Int → Int) (a b : Nat) : Nat :=
  match tyFloat ty with
  | some f => f.round r (ff (f.decode a) (f.decode b))
  | none => intCode (tyBits ty) (fi (signedOf (tyBits ty) a) (signedOf (tyBits ty) b))

def execVadd (v : V3) (b : LaneB) (s : State) : Out :=
  v3Op v b (arith2 v.ty v.rnd (FVal.add v.rnd) (· + ·)) s
def execVsub (v : V3) (b : LaneB) (s : State) : Out :=
  v3Op v b (arith2 v.ty v.rnd (fun x y => FVal.add v.rnd x y.neg) (· - ·)) s
def execVmul (v : V3) (b : LaneB) (s : State) : Out :=
  v3Op v b (arith2 v.ty v.rnd FVal.mul (· * ·)) s

def fmaElem (ty : VTy) (r : Rnd) (a b c : Nat) : Nat :=
  match tyFloat ty with
  | some f => f.round r (FVal.add r ((f.decode a).mul (f.decode b)) (f.decode c))
  | none => intCode (tyBits ty)
      (signedOf (tyBits ty) a * signedOf (tyBits ty) b + signedOf (tyBits ty) c)

def execVfma (v : V4) (b : LaneB) (s : State) : Out := v4Op v b (fmaElem v.ty v.rnd) s

def minElem (ty : VTy) : Nat → Nat → Nat := arith2 ty .rne FVal.minOf min
def maxElem (ty : VTy) : Nat → Nat → Nat := arith2 ty .rne FVal.maxOf max

def execVmin (v : V3) (b : LaneB) (s : State) : Out := v3Op v b (minElem v.ty) s
def execVmax (v : V3) (b : LaneB) (s : State) : Out := v3Op v b (maxElem v.ty) s

/-- One operand: a float value, or a signed integer. -/
def arith1 (ty : VTy) (ff : FVal → FVal) (fi : Int → Int) (a : Nat) : Nat :=
  match tyFloat ty with
  | some f => f.round .rne (ff (f.decode a))
  | none => intCode (tyBits ty) (fi (signedOf (tyBits ty) a))

def execVabs (v : V2) (b : LaneB) (s : State) : Out :=
  v2Op v b (arith1 v.ty FVal.abs (fun x => if x < 0 then -x else x)) s
def execVneg (v : V2) (b : LaneB) (s : State) : Out :=
  v2Op v b (arith1 v.ty FVal.neg (fun x => -x)) s

-- VRCP, VRSQ, VEXP2, VLOG2 (R113, R373): a close approximation of the exact result, and a free choice
-- among the codes within the bound.

/-- log2 of y / 2^128 in [1, 2), as a fraction of n bits. -/
def log2Frac : Nat → Nat → Nat
  | 0, _ => 0
  | n + 1, y =>
    let z := y * y / 2 ^ 128
    if 2 ^ 129 ≤ z then 2 ^ n + log2Frac n (z / 2) else log2Frac n z

/-- The product of 2^(2^-k) over the set bits of an n-bit fraction; `r` is 2^(2^-k) for the next bit, both in
units of 2^-256. -/
def exp2Frac : Nat → Nat → Nat → Nat → Nat
  | 0, _, _, acc => acc
  | n + 1, f, r, acc =>
    exp2Frac n (f % 2 ^ n) (Nat.sqrt (r * 2 ^ 256)) (if f / 2 ^ n % 2 = 1 then acc * r / 2 ^ 256 else acc)

/-- The function on a positive m · 2^e: an approximation to about 100 bits, and whether it is exact. -/
def vecApprox (fn : Nat) (neg : Bool) (m : Nat) (e : Int) : FVal × Bool :=
  let bl := Nat.log2 m
  let pow2 := m == 2 ^ bl
  match fn with
  | 0 => (.fin neg (2 ^ (bl + 128) / m) (-e - bl - 128), pow2)
  | 1 =>
    let m' := if e % 2 = 0 then m else 2 * m
    let e' := if e % 2 = 0 then e else e - 1
    let k := bl + 128
    (.fin false (Nat.sqrt (2 ^ (2 * k) / m')) (-(e' / 2) - k), pow2 && (e + bl) % 2 == 0)
  | 2 =>
    -- x = i + f with f in [0, 1), f kept to 128 bits
    let x : Int := (if neg then -1 else 1) * (m : Int)
    let s : Int := if 0 ≤ e + 128 then x * 2 ^ (e + 128).toNat else x / 2 ^ (-(e + 128)).toNat
    let i := s / 2 ^ 128
    let f := (s % 2 ^ 128).toNat
    if 256 < i then (.inf false, true)
    else if i < -256 then (.fin false 1 (-256), false)
    else (.fin false (exp2Frac 128 f (Nat.sqrt (2 ^ 513)) (2 ^ 256)) (i - 256), (0 ≤ e || m % 2 ^ (-e).toNat == 0) && decide (-149 ≤ i))
  | _ =>
    let n : Int := e + bl
    let f := log2Frac 120 (m * 2 ^ 128 / 2 ^ bl)
    (FVal.ofInt (n * 2 ^ 120 + f) (-120) false, pow2)

/-- Whether a code lies within `ulps` units of the last place of every value that differs from v by at most 2^-80 of it
(R113): the last place is that of the smallest of them. -/
def FFmt.within (f : FFmt) (ulps : Nat) (v : FVal) (code : Nat) : Bool :=
  match v, f.decode code with
  | .fin s m e, .fin t n k =>
    let u : Int := max (e - 80 + Nat.log2 (m * 2 ^ 80 - m) - f.fw) (1 - (f.bias : Int) - f.fw)
    let g := min (min (e - 80) k) u
    decide (((FVal.fin s m e).scaled g - (FVal.fin t n k).scaled g).natAbs + m * 2 ^ (e - 80 - g).toNat ≤
      ulps * 2 ^ (u - g).toNat)
  | _, _ => false

/-- A code lies within one unit of the last place of 1/x, for x = ±m · 2^e that is no power of two (R113). -/
def rcpWithin (neg : Bool) (m : Nat) (e : Int) (code : Nat) : Bool :=
  match fF32.decode code with
  | .fin t k g =>
    let u : Int := max (-e - Nat.log2 m - 24) (-149)
    let b : Int := min (min (g + e) (u + e)) 0
    t == neg && decide (((k * m * 2 ^ (g + e - b).toNat : Nat) - (2 ^ (-b).toNat : Nat) : Int).natAbs ≤
      m * 2 ^ (u + e - b).toNat)
  | .nan | .inf _ => false

/-- A code lies within one unit of the last place of 1/√x, for x = m · 2^e that is no power of four (R113). -/
def rsqWithin (m : Nat) (e : Int) (code : Nat) : Bool :=
  match fF32.decode code with
  | .fin false k g =>
    let u : Int := -((e + Nat.log2 m) / 2) - 24
    let b : Int := min g u
    let c := k * 2 ^ (g - b).toNat
    let d := 2 ^ (u - b).toNat
    let x := m * 2 ^ (2 * b + e).toNat
    let one := 2 ^ (-(2 * b + e)).toNat
    decide (one ≤ (c + d) ^ 2 * x) && decide ((c - d) ^ 2 * x ≤ one)
  | .fin true .. | .nan | .inf _ => false

/-- The F32 result of a finite nonzero input (R113). -/
def vecCode (fn ulps input : Nat) (neg : Bool) (m : Nat) (e : Int) : Nat :=
  let a := vecApprox fn neg m e
  let base := fF32.round .rne a.1
  let pick := ((base : Int) + Config.vecFun fn input).toNat
  let near := match fn with
    | 0 => rcpWithin neg m e pick
    | 1 => rsqWithin m e pick
    | _ => fF32.within ulps a.1 pick
  if a.2 then base else if near then pick else base

/-- The function with its special inputs (R113), on an F32 value. -/
def vecFunction (fn : Nat) (v : FVal) (input : Nat) : Nat :=
  let inf (n : Bool) := fF32.round .rne (.inf n)
  let zero (n : Bool) := fF32.round .rne (.fin n 0 0)
  match fn, v with
  | _, .nan => fF32.nanCode
  | 0, .inf s => zero s
  | 0, .fin s m e => if m = 0 then inf s else vecCode 0 1 input s m e
  | 1, .inf s => if s then fF32.nanCode else zero false
  | 1, .fin s m e => if m = 0 then inf s else if s then fF32.nanCode else vecCode 1 1 input s m e
  | 2, .inf s => if s then zero false else inf false
  | 2, .fin s m e => if m = 0 then fF32.round .rne (.fin false 1 0) else vecCode 2 2 input s m e
  | _, .inf s => if s then fF32.nanCode else inf false
  | _, .fin s m e => if m = 0 then inf true else if s then fF32.nanCode else vecCode 3 2 input s m e

/-- The function on an element: the F32 result rounded to the type (R113). -/
def vecElem (fn : Nat) (ty : VTy) (a : Nat) : Nat :=
  match tyFloat ty with
  | some f =>
    let r := vecFunction fn (f.decode a) (fF32.round .rne (f.decode a))
    f.round .rne (fF32.decode r)
  | none => a

def execVrcp (v : V2) (b : LaneB) (s : State) : Out := v2Op v b (vecElem 0 v.ty) s
def execVrsq (v : V2) (b : LaneB) (s : State) : Out := v2Op v b (vecElem 1 v.ty) s
def execVexp2 (v : V2) (b : LaneB) (s : State) : Out := v2Op v b (vecElem 2 v.ty) s
def execVlog2 (v : V2) (b : LaneB) (s : State) : Out := v2Op v b (vecElem 3 v.ty) s

/-- Conversion between element types (R100, R102, R372). -/
def cvtElem (dst src : VTy) (r : Rnd) (a : Nat) : Nat :=
  match tyFloat src, tyFloat dst with
  | some f, some g => g.round r (f.decode a)
  | some f, none => intCode (tyBits dst) ((f.decode a).toSigned r (tyBits dst))
  | none, some g => g.round r (FVal.ofInt (signedOf (tyBits src) a) 0 false)
  | none, none => intCode (tyBits dst)
      (clampInt (-(2 ^ (tyBits dst - 1))) (2 ^ (tyBits dst - 1) - 1) (signedOf (tyBits src) a))

def execVcvt (dst : VTy) (rnd : Rnd) (v : V2) (b : LaneB) (s : State) : Out :=
  v2Op v b (cvtElem dst v.ty rnd) s

/-- The conditions of VCMP (R371). -/
def vcondHolds (c : VCond) (ty : VTy) (a b : Nat) : Bool :=
  match tyFloat ty with
  | some f =>
    let x := f.decode a
    let y := f.decode b
    let un := x.isNan || y.isNan
    let eq := !un && !(x.lt y) && !(y.lt x)
    match c with
    | .eq => eq
    | .ne => !eq
    | .lt => x.lt y
    | .le => x.lt y || eq
    | .gt => y.lt x
    | .ge => y.lt x || eq
    | .un => un
    | .ltu => false
  | none =>
    let x := signedOf (tyBits ty) a
    let y := signedOf (tyBits ty) b
    match c with
    | .eq => x == y
    | .ne => x != y
    | .lt => decide (x < y)
    | .le => decide (x ≤ y)
    | .gt => decide (y < x)
    | .ge => decide (y ≤ x)
    | .un => false
    | .ltu => decide (a < b)

/-- Bits of active lanes take the condition, the others stay (R371). -/
def Vec.compare (x : Vec) (c : VCond) (ty : VTy) (m : Fin 8) (va vb : Nat) (old : Word) : Word :=
  (List.range 64).foldl (fun w l =>
    if (x.mask m).getLsbD l then
      (if vcondHolds c ty (x.elem ty va l) (x.elem ty vb l) then w ||| ((1 : Word) <<< l)
       else w &&& ~~~((1 : Word) <<< l))
    else w) old

def execVcmp (c : VCond) (ty : VTy) (mask : Fin 8) (md : Fin 7) (va vb : Fin 256) (b : LaneB)
    (s : State) : Out :=
  veOp b s [(1, va.val), (2, vb.val)] (onLanes mask [va.val, vb.val] none) mask
    (regResult fun x => { x with
      masks := x.masks.set md (x.compare c ty mask va.val vb.val x.masks[md]) })

def execVsel (v : V4) (b : LaneB) (s : State) : Out :=
  v4Op v b (fun x y z => if z ≠ 0 then x else y) s

def execVand (v : V3) (b : LaneB) (s : State) : Out := v3Op v b Nat.land s
def execVor (v : V3) (b : LaneB) (s : State) : Out := v3Op v b Nat.lor s
def execVxor (v : V3) (b : LaneB) (s : State) : Out := v3Op v b Nat.xor s

/-- Shifts by vb mod w (R385). -/
def execVshl (v : V3) (b : LaneB) (s : State) : Out :=
  v3Op v b (fun x y => x * 2 ^ (y % tyBits v.ty) % 2 ^ tyBits v.ty) s
def execVshr (arith : Bool) (v : V3) (b : LaneB) (s : State) : Out :=
  v3Op v b (fun x y =>
    if arith then intCode (tyBits v.ty) (signedOf (tyBits v.ty) x / 2 ^ (y % tyBits v.ty))
    else x / 2 ^ (y % tyBits v.ty)) s

-- Reduction (R383).

def redIdentity (op : RedOp) (ty : VTy) : Nat :=
  match tyFloat ty, op with
  | some f, .sum => f.round .rne (.fin true 0 0)
  | some f, .min => f.round .rne (.inf false)
  | some f, .max => f.round .rne (.inf true)
  | none, .sum => 0
  | none, .min => 2 ^ (tyBits ty - 1) - 1
  | none, .max => 2 ^ (tyBits ty - 1)

def redStep (op : RedOp) (ty : VTy) (r : Rnd) (a b : Nat) : Nat :=
  match op with
  | .sum => arith2 ty r (FVal.add r) (· + ·) a b
  | .min => minElem ty a b
  | .max => maxElem ty a b

/-- The tree of R383: each level combines the two halves of the list. -/
def redTree (f : Nat → Nat → Nat) : Nat → List Nat → Nat
  | 0, l => l.headD 0
  | n + 1, l => redTree f n (List.zipWith f (l.take (2 ^ n)) (l.drop (2 ^ n)))

/-- Every lane of the destination is written, mask or not (R383). -/
def Vec.reduce (x : Vec) (op : RedOp) (r : Rnd) (v : V2) : Vec :=
  let t := (List.range 64).map fun l =>
    if (x.mask v.mask).getLsbD l then x.elem v.ty v.va.val l else redIdentity op v.ty
  x.writeLanes v.vd.val ((List.range 64).map fun l => (l, if l = 0 then redTree (redStep op v.ty r) 6 t else 0))

def execVred (op : RedOp) (rnd : Rnd) (v : V2) (b : LaneB) (s : State) : Out :=
  veOp b s [(0, v.vd.val), (1, v.va.val)]
    (fun x => { onLanes v.mask [v.va.val] none x with writes := [(v.vd.val, List.range 64)] }) v.mask
    (regResult fun x => x.reduce op rnd v)

-- Moves (R370, R375, R380, R381).

def execVperm (v : V3) (b : LaneB) (s : State) : Out :=
  let from_ (x : Vec) (l : Nat) : Nat := x.elem v.ty v.vb.val l % 64
  veOp b s [(0, v.vd.val), (1, v.va.val), (2, v.vb.val)]
    (fun x => { onLanes v.mask [] (some v.vd.val) x with
      reads := [(v.va.val, (x.active v.mask).map (from_ x)), (v.vb.val, x.active v.mask)] }) v.mask
    (regResult fun x => x.write v.mask v.vd.val fun l => x.elem v.ty v.va.val (from_ x l))

def execVbcast (lane : Fin 64) (v : V2) (b : LaneB) (s : State) : Out :=
  veOp b s [(0, v.vd.val), (1, v.va.val)]
    (fun x => { onLanes v.mask [] (some v.vd.val) x with reads := [(v.va.val, [lane.val])] }) v.mask
    (regResult fun x => x.write v.mask v.vd.val fun _ => x.elem v.ty v.va.val lane.val)

def iotaElem (ty : VTy) (l : Nat) : Nat :=
  match tyFloat ty with | some f => f.round .rne (.fin false l 0) | none => l

def execViota (ty : VTy) (mask : Fin 8) (vd : Fin 256) (b : LaneB) (s : State) : Out :=
  veOp b s [(0, vd.val)] (onLanes mask [] (some vd.val)) mask (regResult fun x => x.write mask vd.val (iotaElem ty))

def moviElem (ty : VTy) (imm : BitVec 16) : Nat :=
  match ty with
  | .f32 => imm.toNat * 2 ^ 16
  | .i32 => (imm.signExtend 32).toNat
  | .bf16 | .f16 | .i16 => imm.toNat
  | .i8 => imm.toNat % 256

def execVmovi (ty : VTy) (mask : Fin 8) (vd : Fin 256) (imm : BitVec 16) (b : LaneB) (s : State) : Out :=
  veOp b s [(0, vd.val)] (onLanes mask [] (some vd.val)) mask (regResult fun x => x.write mask vd.val fun _ => moviElem ty imm)

/-- VRDACC (R382). A tile commits in one turn, so that the elements of a row are all old or all new against an unordered
MMA, one of the outcomes that R177 leaves open (DESIGN CHOICE, log entry 74). -/
def execVrdacc (int : Bool) (mask : Fin 8) (vd : Fin 256) (e row : Fin 64) (b : LaneB) (s : State) : Out :=
  let _ := int
  let at_ (l : Nat) : Nat := slotBytes * e.val + 256 * row.val + 4 * l
  veOp b s [(0, vd.val)] (onLanes mask [] (some vd.val)) mask fun _ s =>
    if (s.core.vec.active mask).any fun l => s.core.me.abad.contains (at_ l / 8) then .trap 0x0D 0 s
    else .done (s.updVec fun x => x.write mask vd.val fun l => leNat (readBytes s.core.me.amem (at_ l) 4))

/-- VGROW and VSHRINK set the allotment; registers below `keep` stay, the others read zero (R374). -/
def Vec.allot (v : Vec) (n keep : Nat) : Vec :=
  { v with
    vallot := n
    regs := v.regs.filter fun x => x.1 < 64 * keep
    vbad := v.vbad.filter fun g => g < 32 * keep }

def execVgrow (n8 : BitVec 6) (b : LaneB) (s : State) : Out :=
  engineOp .ve b s fun _ s =>
    if s.core.vec.parked.isEmpty then .done (s.updVec fun v => v.allot (8 * n8.toNat) 0) else .stall s

def execVshrink (n8 : BitVec 6) (b : LaneB) (s : State) : Out :=
  engineOp .ve b s fun _ s =>
    if s.core.vec.parked.isEmpty then
      .done (s.updVec fun v => v.allot (8 * n8.toNat) (min v.vallot (8 * n8.toNat)))
    else .stall s

end Sys2Proof.Machine
end

