-- ==== Sys2Proof/Machine/VectorMem.lean ====
section
/-! DEFINITION. Vector loads, stores and gathers, and the replay queue (R219, R220, R376-R379). -/
namespace Sys2Proof.Machine

/-- The address checks of a vector access (R377): ALIGN, then the whole range against the space. -/
def vecAddr (sp : Space) (v : VMem) (c : Capture) (s : State) : Except (Nat × Word) (Loc × Nat) :=
  let a := c.param v.p
  let es := tyBits v.ty / 8
  if a.toNat % es ≠ 0 then .error (0x03, infoLocal a)
  else match s.localAddr sp a (64 * es) with
    | none => .error (0x04, infoLocal a)
    | some r => .ok r

/-- The bytes of an active lane's element. -/
def laneBytes (o es l : Nat) : List Nat := (List.range es).map (o + l * es + ·)

/-- The TINFO address of a local byte: the access's own address moved by the byte's distance. -/
def vecInfo (a : Word) (o x : Nat) : Word := infoLocal (a + BitVec.ofNat 64 (x - o))

/-- The trap of a vector access's address. -/
def vecPre (sp : Space) (v : VMem) (c : Capture) (s : State) : Option (Nat × Word) :=
  match vecAddr sp v c s with | .error x => some x | .ok _ => none

def vecLoad (sp : Space) (v : VMem) (b : LaneB) (s : State) : Out :=
  veAccess b s [(0, v.v.val)] (onLanes v.mask [] (some v.v.val)) v.mask (vecPre sp v) fun c s =>
    match vecAddr sp v c s with
    | .error (code, info) => .trap code info s
    | .ok (loc, o) =>
      let es := tyBits v.ty / 8
      let bytes := ((s.core.vec.active v.mask).map (laneBytes o es)).flatten
      match s.threadBad loc bytes with
      | some (x, _) => .trap 0x0D (vecInfo (c.param v.p) o x) s
      | none =>
        .done ((s.settleRead (sameOrder true v.cls sp) loc bytes).updVec fun q =>
          q.write v.mask v.v.val fun l => leNat ((laneBytes o es l).map (s.threadByte loc)))

/-- The elements of a store as they become visible: one by one, but those in bad granules, which only a write of the
whole granule clears, together (R131, R378). -/
def State.apart (s : State) (loc : Loc) (elems : List (List Host.Cell)) : List (List Host.Cell) :=
  let bad (e : List Host.Cell) : Bool := e.any fun c => (smapGet (s.padAt loc).bad (c.1 / loc.granule)).isSome
  (elems.filter fun e => !(bad e)) ++ (match (elems.filter bad).flatten with | [] => [] | l => [l])

def vecStore (sp : Space) (v : VMem) (b : LaneB) (s : State) : Out :=
  veAccess b s [(0, v.v.val)] (onLanes v.mask [v.v.val] none) v.mask (vecPre sp v) fun c s =>
    match vecAddr sp v c s with
    | .error (code, info) => .trap code info s
    | .ok (loc, o) =>
      let es := tyBits v.ty / 8
      let elems := (s.core.vec.active v.mask).map fun l =>
        (laneBytes o es l).zip (leBytes es (s.core.vec.elem v.ty v.v.val l))
      match s.partialBad loc (elems.flatten.map Prod.fst) with
      | some (x, _) => .trap 0x0E (vecInfo (c.param v.p) o x)
          (s.logEvent 3 (spaceCode sp) (c.param v.p) x s.core.ctx .ve)
      | none =>
        .done (s.postAll ((s.apart loc elems).map fun cells =>
          { ve := true, cls := v.cls, space := sp, loc, cells, hold := none, seq := c.seq, num := 0, acc := 0,
            det := c.lmode == 3 }))

def execVldu (v : VMem) (b : LaneB) (s : State) : Out := vecLoad .u v b s
def execVldk (v : VMem) (b : LaneB) (s : State) : Out := vecLoad .k v b s
def execVldd (v : VMem) (b : LaneB) (s : State) : Out := vecLoad .d v b s
def execVstu (v : VMem) (b : LaneB) (s : State) : Out := vecStore .u v b s
def execVstk (v : VMem) (b : LaneB) (s : State) : Out := vecStore .k v b s
def execVstd (v : VMem) (b : LaneB) (s : State) : Out := vecStore .d v b s
def execVstn (v : VMem) (b : LaneB) (s : State) : Out := vecStore .n v b s

-- VLDG (R379).

/-- A gathered element that fails: its code, address and kind of R218, the physical address that the port refused or
that is poisoned, whether the port logs it, and whether its buffer is held (R123, R125, R379). -/
structure GatherBad where
  code : Nat
  addr : Word
  kind : Nat
  phys : Nat
  refused : Bool
  held : Bool
  deriving DecidableEq, Repr

/-- The address of a gathered element and its places, or its failure. -/
def State.gatherPlaces (s : State) (ctx : Fin 64) (base : Word) (idx es : Nat) :
    Except GatherBad (Word × List Nat) :=
  let off := base.toNat % 2 ^ 48 + idx * es
  let a := BitVec.ofNat 64 (base.toNat / 2 ^ 48 * 2 ^ 48 + off % 2 ^ 48)
  if 2 ^ 48 ≤ off then .error { code := 0x07, addr := a, kind := 2, phys := 0, refused := false, held := false }
  else match s.ccTranslate ctx .load a [(off, es)] with
    | .error b =>
      .error { code := b.code, addr := a, kind := if b.code = 0x0D then 0 else 2, phys := s.physAt ctx a, refused := false, held := false }
    | .ok x =>
      match x.places off es with
      | none => .error { code := 0x06, addr := a, kind := 2, phys := x.logged off, refused := true, held := true }
      | some bs => .ok (a, bs)

/-- One gathered element: its value, or its failure. -/
def State.gatherRead (s : State) (g : Except GatherBad (Word × List Nat)) : Except GatherBad Nat :=
  match g with
  | .error e => .error e
  | .ok (a, bs) =>
    match s.threadBad .g bs with
    | some (pa, m) =>
      .error { code := 0x0D, addr := a, kind := if m.isSome then 3 else 0, phys := pa, refused := false, held := true }
    | none => .ok (leNat (bs.map (s.threadByte .g)))

/-- The bytes that gathered elements read. -/
def gatherBytes (l : List (Except GatherBad (Word × List Nat))) : List Nat :=
  (l.map fun g => match g with | .ok x => x.2 | .error _ => []).flatten

/-- An element parks at the tail of the replay queue with its failure; one that has been translated keeps its hold
until RQREL serves it (R123, R219). -/
def State.park (s : State) (p : Parked) (e : GatherBad) : State :=
  let s1 := if e.refused then s.logEvent 4 2 e.addr e.phys p.ctx .ve else s
  let s2 := if e.held then s1.addHold p.ctx (e.addr.toNat / 2 ^ 48) false else s1
  s2.updVec fun q => { q with parked := q.parked ++
    [{ p with code := e.code, addr := e.addr, hold := if e.held then some s1.nextHold else none }] }

/-- The number of the VLDG in progress, which its parked elements bear. -/
def Vec.nextVldg (v : Vec) : Vec := { v with vldgs := v.vldgs + 1 }

/-- A VLDG of an exposed line is frozen by a failed element: the elements read so far stay, and a translated one keeps
its hold, so that only what is missing is read after ERET (R123, R218, R379). -/
def State.gatherFreeze (s : State) (ctx : Fin 64) (got : List (Nat × Nat)) (e : GatherBad) : State :=
  let s1 := if e.held then s.addHold ctx (e.addr.toNat / 2 ^ 48) false else s
  s1.updVec fun q => { q with gathered := some { got, hold := if e.held then some s.nextHold else none } }

/-- The ALIGN check of a VLDG at its start. -/
def vldgPre (v : VMem) (c : Capture) (_s : State) : Option (Nat × Word) :=
  if (c.param v.p).toNat % 2 ^ 48 % (tyBits v.ty / 8) ≠ 0 then some (0x03, infoG (c.param v.p)) else none

/-- VLDG (R379): in an exposed line a failed element freezes the core, and after ERET the elements that had not been read
are; in a scoreboard line it parks, the first one raises REPLAY_QUEUE, and the tokens follow when the parked elements
have been served (R151, R219). -/
def execVldg (vx : Fin 256) (v : VMem) (b : LaneB) (s : State) : Out :=
  let before := s.core.vec.gathered
  veAccess b s [(0, v.v.val), (1, vx.val)]
    (fun x => { onLanes v.mask [vx.val] (some v.v.val) x with waits := true }) v.mask (vldgPre v) fun c s =>
    let es := tyBits v.ty / 8
    let base := c.param v.p
    let old := (before.map Gathered.got).getD []
    let s := s.dropHolds (match before with | some g => g.hold.toList | none => [])
    let lanes := (s.core.vec.active v.mask).filter fun l => !(old.any fun x => x.1 == l)
    let at_ := lanes.map fun l => (l, s.gatherPlaces c.ctx base (s.core.vec.lane vx.val l).toNat es)
    let s' := s.settleRead (sameOrder true v.cls .g) .g (gatherBytes (at_.map Prod.snd))
    let got := at_.map fun x => (x.1, s.gatherRead x.2)
    let bad := got.filterMap fun x => match x.2 with
      | .error e => some (x.1, e)
      | .ok _ => none
    let good := old ++ got.filterMap fun x => match x.2 with
      | .ok y => some (x.1, y)
      | .error _ => none
    match bad with
    | (_, e) :: _ =>
      if c.lmode.getLsbD 0 then .freeze e.kind 2 e.addr e.phys (s'.gatherFreeze c.ctx good e)
      else
        let s1 := s'.updVec fun q => { (q.writeLanes v.v.val good).nextVldg with gathered := none }
        let s2 := bad.foldl (fun s x => s.park
          { vd := v.v.val, lane := x.1, es, ctx := c.ctx, addr := x.2.addr, code := x.2.code, hold := none, live := true
            beyond := decide (2 ^ 48 ≤ base.toNat % 2 ^ 48 + (s.core.vec.lane vx.val x.1).toNat * es)
            id := s1.core.vec.vldgs, cls := v.cls } x.2) s1
        .owes (if s.core.trap.inh then s2
          else s2.pendTrap { code := 0x18, eng := .ve, info := infoG e.addr ||| BitVec.ofNat 64 e.code })
    | [] => .done (s'.updVec fun q => { q.writeLanes v.v.val good with gathered := none })

-- RQREL (R220).

/-- A parked element's lane is written, where no later instruction has written it (R366). Half of a poisoned granule
is not written (R132). -/
def State.fillLane (s : State) (p : Parked) (v : Nat) : State :=
  if !p.live then s
  else match s.core.vec.refused p.vd [p.lane] with
    | some g => (s.logGranule g p.ctx).pendTrap { code := 0x0E, eng := .ve, info := 0 }
    | none => s.updVec fun q => q.writeLanes p.vd [(p.lane, v)]

/-- A parked element is translated and read again; one that fails parks again at the tail. -/
def State.retryParked (s : State) (p : Parked) : State :=
  let g := if p.beyond then
      .error { code := 0x07, addr := p.addr, kind := 2, phys := 0, refused := false, held := false }
    else s.gatherPlaces p.ctx p.addr 0 p.es
  let s' := (s.settleRead (fun _ => false) .g (gatherBytes [g])).dropHolds p.hold.toList
  match s.gatherRead g with
  | .ok v => s'.fillLane p v
  | .error e => s'.park p e

/-- RQREL read (R220). -/
def Vec.rqrel (v : Vec) : Word :=
  match v.parked with
  | [] => 0
  | p :: _ => infoG p.addr ||| BitVec.ofNat 64 (p.code % 256 * 256 + v.parked.length)

/-- An RQREL write (R220): 1 retries every element, oldest first; 2 writes zero to their lanes. -/
def State.writeRqrel (s : State) (v : Word) : State :=
  let ps := s.core.vec.parked
  if v.toNat % 4 = 1 then
    ps.foldl State.retryParked (s.updVec fun q => { q with parked := [] })
  else if v.toNat % 4 = 2 then
    (ps.foldl (fun (s : State) p => s.fillLane p 0)
      (s.updVec fun q => { q with parked := [] })).dropHolds (ps.map fun p => p.hold.toList).flatten
  else s

end Sys2Proof.Machine
end

