-- ==== Sys2Proof/Machine/SysRegs.lean ====
section
/-! DEFINITION. System registers: reads, writes and user access (R23, R90-R93, R128, R139, R169, R174,
R189, R209, R216, R217, R220, R221, R227-R243, R256, R274, R352, R353, R394), and sprint leases
(R245-R249, R351). -/
namespace Sys2Proof.Machine

-- Who may read and write (R90).

def between (n lo hi : Nat) : Bool := decide (lo ≤ n) && decide (n ≤ hi)

def userReads (n : Nat) : Bool :=
  between n 0 3 || between n 0x100 0x105 || between n 0x110 0x12F || between n 0x130 0x132 ||
  between n 0x140 0x144 || between n 0x150 0x152 || between n 0x160 0x163 || between n 0x168 0x16A ||
  between n 0x170 0x172 || between n 0x178 0x179 || between n 0x200 0x3FF

def userWrites (n : Nat) : Bool :=
  between n 0x50 0x51 || between n 0x100 0x105 || between n 0x140 0x144

-- Reading.

/-- DEVID as a core reads it (R23). -/
def devidOf (core : Nat) : Word :=
  BitVec.ofNat 64 (0x0F10 * 2 ^ 48 + Config.stepMaj.toNat * 2 ^ 44 + Config.stepMin.toNat * 2 ^ 40 +
    0x20 * 2 ^ 32 + 0x10 * 2 ^ 24 + core / 64 * 2 ^ 7 + core)

def State.devid (s : State) : Word := devidOf s.cur.val

/-- MODE (R91). -/
def Core.modeReg (c : Core) : Word :=
  BitVec.ofNat 64 ((if c.regs.sup then 16 else 0) + c.fetch.lmode.toNat * 4 +
    (if c.regs.sbtrap then 1 else 0))

/-- TSTAT (R216). -/
def TrapRegs.stat (t : TrapRegs) : Word :=
  BitVec.ofNat 64 ((if t.inh then 128 else 0) + (if t.abort then 64 else 0) + t.eng.num * 8 +
    (if t.frz then 4 else 0) + (if t.psup then 2 else 0))

/-- MELT (R242). -/
def State.melt (s : State) : Word :=
  let lease := match s.power.leases.find? fun l => l.clusters.getLsbD s.cluster with
    | some l => l.id
    | none => 0
  BitVec.ofNat 64 (lease * 2 ^ 32 + (if s.power.refreeze.isSome then 65536 else 0) + s.power.frac.toNat)

/-- PODSTEP (R235). -/
def Power.podReg (p : Power) : Word := BitVec.ofNat 64 (p.podSlot.toNat * 2 ^ 16 + p.podStep.toNat)

def bit32 (x : BitVec 32) : Word := x.setWidth 64

/-- The value an SRD pushes, but for the bank-conflict counters; numbers are those of R90. -/
def State.sysRead (s : State) (n : Nat) : Word :=
  let c := s.core
  let p := s.power
  if n = 0x000 then s.devid
  else if n = 0x001 then c.modeReg
  else if n = 0x002 then BitVec.ofNat 64 c.vec.vallot
  else if n = 0x003 then bit32 c.regs.sbcnt
  else if n = 0x010 then c.trap.tvb
  else if n = 0x011 then c.trap.tcode
  else if n = 0x012 then c.trap.tinfo
  else if n = 0x013 then c.trap.tpc
  else if n = 0x014 then c.trap.stat
  else if between n 0x020 0x02F then vget c.trap.tq (n - 0x020) 0
  else if between n 0x030 0x035 then vget c.trap.tmpc (n - 0x030) 0
  else if between n 0x038 0x03D then
    vget (if c.trap.inh then c.trap.nest else nestRegs c.me) (n - 0x038) 0
  else if between n 0x040 0x043 then vget c.trap.tloop (n - 0x040) 0
  else if between n 0x044 0x047 then vget c.trap.tlbody (n - 0x044) 0
  else if n = 0x048 then c.vec.rqrel
  else if between n 0x100 0x105 then (vget c.eng.paceWritten (n - 0x100) 0).setWidth 64
  else if between n 0x110 0x12F then (vget p.phase (n - 0x110) 0).setWidth 64
  else if n = 0x130 then p.slew.setWidth 64
  else if n = 0x131 then p.capover
  else if n = 0x132 then p.podReg
  else if n = 0x140 then s.droopOf.thresh.setWidth 64
  else if n = 0x141 then s.droopOf.str.setWidth 64
  else if n = 0x142 then s.droopOf.half.setWidth 64
  else if n = 0x143 then bit32 s.droopOf.cnt
  else if n = 0x144 then boolWord s.droopOf.arm
  else if n = 0x150 then s.melt
  else if n = 0x151 then p.splim.setWidth 64
  else if n = 0x152 then p.refrz.setWidth 64
  else if n = 0x160 then c.me.monstat
  else if between n 0x161 0x163 then bit32 (vget c.me.lrc (n - 0x161) 0)
  else if between n 0x168 0x16A then bit32 (vget c.me.spcnt (n - 0x168) 0)
  else if n = 0x170 then BitVec.ofNat 64 (c.cpy.hazSpace.toNat * 2 ^ 32 + c.cpy.hazCount.toNat)
  else if n = 0x171 then c.cpy.hazAddr
  else if n = 0x172 then p.hotskip
  else if n = 0x178 then bit32 p.slkhi
  else if n = 0x179 then bit32 p.slklo
  else 0

/-- The RC fields clear at the read (R5, R352). -/
def State.sysClear (s : State) (n : Nat) : State :=
  if n = 0x003 then s.updRegs fun r => { r with sbcnt := 0 }
  else if n = 0x143 then s.updDroop s.cluster fun d => { d with cnt := 0 }
  else if between n 0x161 0x163 then s.updMe fun m => { m with lrc := vset m.lrc (n - 0x161) 0 }
  else if between n 0x168 0x16A then s.updMe fun m => { m with spcnt := vset m.spcnt (n - 0x168) 0 }
  else if n = 0x170 then s.updCpy fun c => { c with hazCount := 0 }
  else s

/-- What a counter holds now: it has grown by a free amount since it was last looked at, but not while a handler or a
debug stop stands frozen. Those of requester 7 grow with a debugger's accesses alone (R256, log entry 20). -/
def Core.bcmNow (c : Core) (k n : Nat) : BitVec 32 :=
  satAdd32 ((smapGet c.bcm k).getD 0) (if 224 ≤ k || (c.frozen && c.bcmFixed.contains k) then 0 else n)

/-- A copied counter is drawn at its first look since the loop's end, at or above what BCM has shown before it. -/
def State.readSnap (s : State) (k : Nat) : Word × State :=
  match smapGet s.core.bcmSnap k with
  | some v => (bit32 v, s)
  | none =>
    if s.core.snapOpen then
      let v := s.core.bcmNow k (Config.bankWait s.fresh)
      (bit32 v, s.draw.upd fun c =>
        { c with bcmSnap := smapPut c.bcmSnap k v, bcm := smapPut c.bcm k v,
                 bcmFixed := if c.snapFrozen then k :: c.bcmFixed else c.bcmFixed })
    else (0, s)

/-- A look at a counter: the copy that a loop's end has made of it is settled first, so that it is not above. -/
def State.readBcm (s : State) (k : Nat) : Word × State :=
  let s := (s.readSnap k).2
  let v := s.core.bcmNow k (Config.bankWait s.fresh)
  (bit32 v, s.draw.upd fun c =>
    { c with bcm := smapPut c.bcm k v, bcmFixed := if c.frozen then k :: c.bcmFixed else c.bcmFixed })

/-- SRD (R352): PRIV in user mode for a register whose user column lacks R. -/
def execSrd (d : Dest) (reg : BitVec 16) (s : State) : Out :=
  let n := reg.toNat
  finish
    (if !s.core.regs.sup && !(userReads n) then .trap 0x02 0 s
     else if between n 0x200 0x2FF then
      let r := s.readBcm (n - 0x200)
      .done (r.2.setDest d r.1)
     else if between n 0x300 0x3FF then
      let r := s.readSnap (n - 0x300)
      .done (r.2.setDest d r.1)
     else .done ((s.sysClear n).setDest d (s.sysRead n)))

-- Writing.

def State.updPower (s : State) (f : Power → Power) : State := { s with power := f s.power }

/-- What a write does when it takes effect, one that neither user mode nor the access codes stop (R353); read-only
registers ignore it. -/
def State.sysWrite (s : State) (n : Nat) (v : Word) : State :=
  let low (w : Nat) : BitVec w := BitVec.ofNat w v.toNat
  if n = 0x001 then s.updRegs fun r => { r with sbtrap := v.getLsbD 0 }
  else if n = 0x010 then
    s.updTrap fun t => { t with tvb := BitVec.ofNat 64 (v.toNat / 32 * 32) }
  else if n = 0x013 then s.updTrap fun t => { t with tpc := BitVec.ofNat 64 (v.toNat / 4 * 4) }
  else if n = 0x014 then s.updTrap fun t => { t with abort := v.getLsbD 6 }
  else if between n 0x020 0x02F then s.updTrap fun t => { t with tq := vset t.tq (n - 0x020) v }
  else if between n 0x040 0x043 then s.updTrap fun t => { t with tloop := vset t.tloop (n - 0x040) v }
  else if between n 0x044 0x047 then s.updTrap fun t => { t with tlbody := vset t.tlbody (n - 0x044) v }
  else if n = 0x048 then s.writeRqrel v
  else if between n 0x100 0x105 then
    s.updEng fun e => { e with paceWritten := vset e.paceWritten (n - 0x100) (low 8) }
  else if between n 0x110 0x12F then s.updPower fun p => { p with phase := vset p.phase (n - 0x110) (low 5) }
  else if n = 0x130 then
    (if 50 ≤ (low 11).toNat ∧ (low 11).toNat ≤ 2000 then s.updPower fun p => { p with slew := low 11 }
     else s)
  else if n = 0x132 then
    s.updPower fun p => { p with podSlot := BitVec.ofNat 6 (v.toNat / 2 ^ 16), podStep := low 12 }
  else if n = 0x140 then
    (if (low 6).toNat % 2 = 0 ∧ 4 ≤ (low 6).toNat ∧ (low 6).toNat ≤ 60 then
      s.updDroop s.cluster fun d => { d with thresh := low 6 }
     else s)
  else if n = 0x141 then s.updDroop s.cluster fun d => { d with str := low 4 }
  else if n = 0x142 then s.updDroop s.cluster fun d => { d with half := low 10 }
  else if n = 0x144 then s.updDroop s.cluster fun d => { d with arm := v.getLsbD 0 }
  else if n = 0x151 then
    (if 0x2000 ≤ (low 16).toNat then s.updPower fun p => { p with splim := low 16 } else s)
  else if n = 0x152 then
    (if low 16 ≠ 0 then s.updPower fun p => { p with refrz := low 16 } else s)
  else if n = 0x178 then
    (if s.power.slklo.toNat < (low 32).toNat then s.updPower fun p => { p with slkhi := low 32 } else s)
  else if n = 0x179 then
    (if (low 32).toNat < s.power.slkhi.toNat then s.updPower fun p => { p with slklo := low 32 } else s)
  else s

/-- Registers held outside the core that take writes: those of the cluster and of the package (R353). -/
def outsideCore (n : Nat) : Bool :=
  between n 0x110 0x132 || between n 0x140 0x144 || between n 0x151 0x152 || between n 0x178 0x179

/-- A write goes on its way to a register outside the core, which it reaches within 60 of the core's cycles (R353, log
entry 60). -/
def State.sendWrite (s : State) (n : Nat) (v : Word) : State :=
  s.upd fun c => { c with outWrites := c.outWrites ++ [{ reg := n, value := v, by_ := c.cycles + 60 }] }

/-- The writes on their way take effect in program order: all whose time has come, and before that as many as free
choices say. -/
def State.landWrites : Nat → State → State
  | 0, s => s
  | k + 1, s =>
    match s.core.outWrites with
    | [] => s
    | w :: ws =>
      if decide (w.by_ ≤ s.core.cycles) || Config.copyChoice s.fresh then
        State.landWrites k ((s.draw.upd fun c => { c with outWrites := ws }).sysWrite w.reg w.value)
      else s.draw

/-- SWR (R353): a register of the core takes its value now; a write to one outside it goes on its way. -/
def execSwr (a : Opnd) (reg : BitVec 16) (s : State) : Out :=
  let v := s.operand a
  finish
    (if !s.core.regs.sup && !(userWrites reg.toNat) then .trap 0x02 0 s
     else .done (if outsideCore reg.toNat then s.sendWrite reg.toNat v else s.sysWrite reg.toNat v))

-- TKPUSH and TKPOP (R93): one token per engine in bits 5:1, in ascending engine order.

/-- The engines a token write still has to serve. -/
def State.tokensLeft (s : State) (a : Opnd) : List Eng :=
  engines.filter fun e => (s.operand a).getLsbD e.num && !(s.core.fetch.moved.getLsbD e.num)

/-- One token move has been made; the lane goes on with the next. -/
def State.markMoved (s : State) (e : Eng) : State :=
  s.updFetch fun f => { f with moved := f.moved ||| BitVec.ofNat 6 (2 ^ e.num) }

/-- A push has been made: the next one that waits counts for itself (R85). -/
def State.markPushed (s : State) (e : Eng) : State := (s.markMoved e).updFetch fun f => { f with waited := false }

/-- Moves are made up to the first queue that makes the lane wait. -/
def moveTokens (can : Engines → Eng → Bool) (mv : Engines → Eng → Engines) (mark : State → Eng → State) :
    List Eng → State → Res
  | [], s => .done s
  | e :: es, s =>
    if can s.core.eng e then moveTokens can mv mark es (mark (s.updEng fun g => mv g e) e) else .stall s

/-- A push orders the thread's earlier stores to U before what its popper does (R151, R302): they are performed. -/
def execTkpushWrite (a : Opnd) (s : State) : Out :=
  finish (moveTokens (fun g e => decide (g.tok .cc e < 15)) (fun g e => g.setTok .cc e (g.tok .cc e + 1))
    State.markPushed (s.tokensLeft a) (s.performWhere fun p => !p.ve && p.space == .u))

def execTkpopWrite (a : Opnd) (s : State) : Out :=
  finish (moveTokens (fun g e => decide (0 < g.tok e .cc)) (fun g e => g.setTok e .cc (g.tok e .cc - 1))
    State.markMoved (s.tokensLeft a) s)

-- RQREL with an action (R220): the SWR whose data names it.

def execRqrelRetry (a : Opnd) (s : State) : Out := finish (privileged s (.done (s.writeRqrel (s.operand a))))

def execRqrelRelease (a : Opnd) (s : State) : Out := finish (privileged s (.done (s.writeRqrel (s.operand a))))

-- Sprint leases (R245-R249).

/-- Clusters under live leases. -/
def Power.sprinting (p : Power) : BitVec 32 := p.leases.foldl (fun m l => m ||| l.clusters) 0

/-- The status of a request that is refused; none when it is granted. -/
def State.sprintStatus (s : State) (m us : Word) : Option Nat :=
  let p := s.power
  if m = 0 ∨ m.toNat / 2 ^ 32 ≠ 0 ∨ us = 0 ∨ 60000000 < us.toNat then some 5
  else if (p.sprinting &&& m.setWidth 32) ≠ 0 then some 4
  else if p.splim.toNat ≤ p.frac.toNat then some 1
  else if p.refreeze.isSome then some 2
  else if p.spmax < popcount 32 p.sprinting.toNat + popcount 32 m.toNat then some 3
  else none

/-- The end of a lease at an instant (R248, R249): its clusters return to divisor 4 and the refreeze interval opens or is
extended. -/
def State.endLease (s : State) (l : Lease) (at_ : Word) : State :=
  let s' := s.updPower fun p =>
    { p with
      leases := p.leases.filter fun x => x.id != l.id
      switching := p.switching &&& ~~~l.clusters
      high := p.high &&& ~~~l.clusters
      refreeze := some (match p.refreeze with
        | some e => if at_.toNat < e.toNat then e else at_
        | none => at_) }
  { s' with cores := vgen 128 fun i =>
      let c := s'.coreAt i
      if l.clusters.getLsbD (i / 4) then
        { c with eng := { c.eng with div := Vector.replicate 6 .d4, divNext := none } }
      else c }

/-- A core that takes a lease trap: it runs a control thread, or waits for its implicit JOIN, and runs no pre-emption
handler (R248). -/
def Core.takesLeaseTrap (c : Core) : Bool :=
  (c.work.run == .running || c.work.run == .ending) && c.work.preempting.isNone

/-- A lease ends with a trap on every running control thread of its clusters, which is made pending within 2,500 ticks
of the end (R248): how soon is open, for each core by itself (log entry 80). -/
def State.endWithTrap (s : State) (l : Lease) (at_ : Word) (code : Nat) (info : Word) : State :=
  let s' := s.endLease l at_
  { s' with cores := vgen 128 fun i =>
      let c := s'.coreAt i
      if l.clusters.getLsbD (i / 4) && c.takesLeaseTrap then
        { c with leaseTraps := c.leaseTraps ++ [{ trap := { code, info, eng := .cc }, by_ := at_ + 2500 }] }
      else c }

/-- The lease traps of the acting core are made pending: all whose time has come, and before that those that free choices
say. A core that has become idle takes none (R248). -/
def State.landTraps : Nat → State → State
  | 0, s => s
  | k + 1, s =>
    match s.core.leaseTraps with
    | [] => s
    | x :: xs =>
      if decide (x.by_.toNat ≤ s.time.toNat) || Config.copyChoice s.fresh then
        let s' := s.draw.upd fun c => { c with leaseTraps := xs }
        State.landTraps k (if s.core.takesLeaseTrap then s'.pendTrap x.trap else s')
      else s.draw

def Lease.due (l : Lease) (t : Word) : Bool := decide (l.expiry.toNat ≤ t.toNat)

/-- The latest instant at which a lease has expired (R250). -/
def Power.noteExpiry (p : Power) (t : Word) : Power :=
  { p with expiredAt := match p.expiredAt with
      | some e => if e.toNat < t.toNat then some t else some e
      | none => some t }

/-- Leases whose time has come end as TIME passes: every turn begins with it (R248). In the turn of a revocation, one
that would expire in this very instant is left to it (R250). -/
def State.expireDue (s : State) (revoking : Bool) : State :=
  (s.power.leases.filter fun l => l.due s.time && !(revoking && l.expiry == s.time)).foldl
    (fun (s : State) l => (s.endWithTrap l l.expiry 0x10 (BitVec.ofNat 64 l.id)).updPower fun p =>
      p.noteExpiry l.expiry) s

/-- A request of this instant has been served that goes after those of core `n` (R250); a lease end goes before all
of them. -/
def State.servedAfter (s : State) (n : Int) : Bool :=
  match s.power.lastReq with
  | some x => x.1 == s.time && decide (n < x.2)
  | none => false

/-- A grant: the lease, its clusters at divisor 4 until the switch, and the switch to come within 12,500 ticks (R245,
R246). -/
def State.grant (s : State) (clusters : BitVec 32) (us : Word) : State :=
  let s' := s.updPower fun p =>
    { p with
      leases := p.leases ++ [{ id := p.nextLease, clusters, expiry := s.time + 2500 * us }]
      nextLease := if p.nextLease = 0xFFFFFFFF then 1 else p.nextLease + 1
      switching := p.switching ||| clusters
      switchBy := vgen 32 fun k => if clusters.getLsbD k then s.time + 12500 else vget p.switchBy k 0 }
  { s' with cores := vgen 128 fun i =>
      let c := s'.coreAt i
      if clusters.getLsbD (i / 4) then
        { c with eng := { c.eng with div := Vector.replicate 6 .d4, divNext := none } }
      else c }

/-- The lease controller serves a request of the acting core: the answer, and with a grant the lease (R245). -/
def State.answerSprint (s : State) (m us : Word) : Word × State :=
  let s := s.updPower fun p => { p with lastReq := some (s.time, s.cur.val) }
  match s.sprintStatus m us with
  | some r => (BitVec.ofNat 64 (r * 2 ^ 56), s)
  | none => (BitVec.ofNat 64 s.power.nextLease, s.grant (m.setWidth 32) us)

/-- SPRINT (R245): the answer goes to the destination. Of the requests of one instant the lowest core is served first: a
lower core that comes after waits for the next instant (R250). The step may leave the request on its way: it is served
later, within 400 ticks (log entry 83). -/
def execSprint (d : Dest) (mask micros : Opnd) (s : State) : Out :=
  let m := s.operand mask
  let us := s.operand micros
  finish
    (if s.servedAfter s.cur.val then .wait s
     else
      let r := s.answerSprint m us
      .done (r.2.setDest d r.1))

/-- SPREL (R247): a live lease that holds the core's cluster ends; otherwise nothing happens. A lease end of an instant
goes before its requests (R250). -/
def execSprel (a : Opnd) (s : State) : Out :=
  let v := s.operand a
  finish
    (if s.servedAfter (-1) then .wait s
     else .done
      (match s.power.leases.find? fun l => l.id == v.toNat && l.clusters.getLsbD s.cluster with
       | some l => s.endLease l s.time
       | none => s))

end Sys2Proof.Machine
end

