-- ==== Sys2Proof/Machine/Mailbox.lean ====
section
/-! DEFINITION. The management mailbox, pre-emption and the end of an invocation (R42, R43, R50, R51, R117,
R214, R224, R225, R244, R254, R255, R257, R263, R265, R278, R279, R287). -/
namespace Sys2Proof.Machine

-- The mailbox (R263).

/-- Argument word k of the request, from 0. -/
def Port.arg (p : Port) (k : Nat) : Word := vget p.mbreq (k + 1) 0
def Port.code (p : Port) : Nat := (vget p.mbreq 0 0).toNat % 256

/-- A command runs when the mailbox is busy with its code; otherwise there is none to run. -/
def command (code : Nat) (s : State) (run : State → State) : Out :=
  .next (if s.host.mbstat = 1 && s.host.code == code then run s else s)

def State.done (s : State) : State := s.respond [0]
def State.refused (s : State) : State := s.respond [1]

/-- An argument that names a core. -/
def coreArg (w : Word) : Option (Fin 128) :=
  if h : w.toNat < 128 then some ⟨w.toNat, h⟩ else none

/-- An argument that names a context. -/
def ctxArg (w : Word) : Option (Fin 64) := if h : w.toNat < 64 then some ⟨w.toNat, h⟩ else none

/-- What a core other than the acting one does. -/
def State.asCore (s : State) (i : Fin 128) (f : State → State) : State :=
  { f { s with cur := i } with cur := s.cur }

-- Pre-emption (R51, R224).

/-- The queue entries that have not started: the current node stands apart. -/
def Core.unstarted (c : Core) (q : Nat) : List Node :=
  match c.work.cur with
  | some p => if p.q.val = q then (c.cmdq q).nodes.tail else (c.cmdq q).nodes
  | none => (c.cmdq q).nodes

/-- The CP that a record saves: the first block of queue 0 that has not started, or the CP; 0 when idle. -/
def Core.savedCp (c : Core) : Word :=
  match c.unstarted 0 with
  | n :: _ => n.addr
  | [] => if c.work.cpState = .idle then 0 else c.work.cp

def Core.savedIndex (c : Core) : Nat :=
  match c.unstarted 0 with | n :: _ => n.index | [] => c.work.cpIndex

def imgBytes (n : Node) : List Byte := (n.img.toList.map fun w => leBytes 8 w.toNat).flatten

/-- The fields of the save record that the core writes, as offsets and bytes (R224). -/
def State.saveFields (s : State) : List (Nat × List Byte) :=
  let c := s.core
  let w (off v : Nat) : Nat × List Byte := (off, leBytes 8 v)
  let lease := s.power.leases.find? fun l => l.clusters.getLsbD s.cluster
  let ids := s.devid.toNat
  let cur : List (Nat × List Byte) := match c.work.cur with
    | some p =>
      [w 0x10 (p.node.wid s.widths p.next).toNat, w 0x18 (p.last - p.next),
       w 0x20 (p.j + p.p * 2 ^ 8 + 2 ^ 16 + p.q.val * 2 ^ 17), w 0x60 p.node.ctx.val, (0x80, imgBytes p.node)]
    | none => [w 0x10 0, w 0x18 0, w 0x20 0, w 0x60 0, (0x80, List.replicate 128 0)]
  let queue (q : Nat) : List (Nat × List Byte) :=
    ((c.unstarted q).zipIdx.map fun n =>
      [(0x100 + 0x800 * (q - 1) + 0x80 * n.2, imgBytes n.1),
       (0x1900 + 0x10 * (q - 1) + n.2, [BitVec.ofNat 8 n.1.ctx.val])]).flatten
  [w 0 (ids / 2 ^ 48 * 2 ^ 48 + ids / 2 ^ 40 % 2 ^ 8 * 2 ^ 40 + ids / 2 ^ 32 % 2 ^ 8 * 2 ^ 32 + 1),
   w 8 c.savedCp.toNat,
   w 0x28 ((c.unstarted 1).length + (c.unstarted 2).length * 2 ^ 5 + (c.unstarted 3).length * 2 ^ 10),
   (0x50, leBytes 4 (match lease with | some l => l.id | none => 0)),
   w 0x58 (match lease with | some l => l.expiry.toNat | none => 0)] ++ cur ++
  queue 1 ++ queue 2 ++ queue 3

/-- A granule in a bad state that a set of bytes does not cover whole. -/
def State.refusedAt (s : State) (l : Loc) (as : List Nat) : Option (Nat × Option Nat) :=
  s.firstBad l (as.filter fun a =>
    !((List.range l.granule).all fun i => as.contains (a / l.granule * l.granule + i)))

/-- The record written through the buffer table of a context, or what the port refuses (R125, R132). -/
def State.writeRecord (s : State) (ctx : Fin 64) (a : Word) : Except Refused State :=
  match s.translate ctx .store a [(a.toNat % 2 ^ 48, 0x1930)] with
  | .error b => .error (s.refusedFor ctx b a)
  | .ok x =>
    let cells := s.saveFields.mapM fun f =>
      (x.places (a.toNat % 2 ^ 48 + f.1) f.2.length).map fun as => as.zip f.2
    match cells with
    | none => .error ⟨4, a, x.logged (a.toNat % 2 ^ 48)⟩
    | some cs =>
      match s.refusedAt .g (cs.flatten.map Prod.fst) with
      | some (pa, _) => .error ⟨3, a, pa⟩
      | none => .ok (s.perform .g cs.flatten)

/-- Queues, CP and current node of a core whose work has been saved: nothing is left to run. -/
def Work.emptied (w : Work) : Work :=
  { w with
    cp := 0, cpState := .idle, cur := none, preempt := none,
    queues := w.queues.map fun q =>
      { nodes := [], seq := q.seq + q.nodes.length, head := Head.fresh 0 } }

/-- The acting core takes PREEMPT (R224): the record is written, the queues empty, and the handler starts at
TVB. A write that fails is logged and leaves the core as it is, and the mailbox answers; otherwise it answers when the
handler has returned (log entry 31). -/
def State.takePreempt (s : State) (ctx : Fin 64) (a : Word) : State :=
  let c := s.core
  match s.writeRecord ctx a with
  | .error x => ((s.logRefused x ctx).updWork fun w => { w with preempt := none }).refused
  | .ok s1 =>
    let info : SaveInfo :=
      { ctx, addr := a, cpCtx := c.work.cpCtx, cpLaunch := c.work.cpLaunch, cpIndex := c.savedIndex,
        launch := match c.work.cur with | some p => p.node.launch | none => 0,
        index := match c.work.cur with | some p => p.node.index | none => 0 }
    let s2 : State := { s1 with host := { s1.host with
      saves := s1.host.saves.filter (fun x => !(x.ctx == ctx && x.addr == a)) ++ [info] } }
    let carry : Vector Word 3 := match c.work.cur with | some p => p.carry | none => Vector.replicate 3 0
    let s3 := s2.upd fun c =>
      { c with
        regs := { c.regs with n := vgen 16 fun i =>
          if 12 ≤ i ∧ i ≤ 14 ∧ c.work.cur.isSome then vget carry (i - 12) 0 else vget c.regs.n i 0 }
        work := { c.work.emptied with preempting := some (ctx, a), run := .running } }
    s3.enterTrap { code := 0x1A, info := a, eng := .cc } s3.core.fetch.line s3.core.fetch.lane

/-- A core may take a pre-emption now: it runs nothing, and is in no staged node (R51). -/
def State.preemptible (s : State) : Bool :=
  let w := s.core.work
  w.run == .idle && !w.stopped && (match w.cur with
    | none => true
    | some p => (match s.kernels[p.kernel]? with | some k => !k.staged | none => true))

def State.tryPreempt (s : State) : State :=
  match s.core.work.preempt with
  | some (ctx, a) => if s.preemptible then s.takePreempt ctx a else s
  | none => s

/-- PREEMPT (R224, R263): a core that runs nothing takes it at once, any other at its next invocation end;
the response follows the save. One request runs at a time, so that a core whose pre-emption handler runs is at work on
this very request. -/
def execPreempt (s : State) : Out :=
  command 0x06 s fun s =>
    match coreArg (s.host.arg 0), ctxArg (s.host.arg 1) with
    | some i, some ctx =>
      if (s.host.arg 2).toNat % 128 ≠ 0 || (s.coreAt i).work.run == .doubleFault then s.refused
      else if (s.coreAt i).work.preempting.isSome then s
      else s.asCore i fun s =>
        (s.updWork fun w => { w with preempt := some (ctx, s.host.arg 2) }).tryPreempt
    | _, _ => s.refused

-- The end of an invocation (R42-R46).

/-- The records of an invocation that has ended: its input slot is free, its output record valid (R43). -/
def Staged.endRecords (x : Staged) (p : Progress) : Staged :=
  let x1 := match p.inRec with | some i => x.setRec p.stage i .free | none => x
  match p.outRec with | some i => x1.setRec (p.stage + 1) i .valid | none => x1

/-- The writes that make an output record valid are performed. -/
def Core.recordWritten (c : Core) (p : Progress) : Bool :=
  p.outRec.isNone || c.liveCopies.all fun k => k.dsp != .d || k.seq != p.key

/-- After its invocation the core goes on with the node, or leaves it; the stages of the die's other nodes have been passed
over once more (R35, R36, R45, R46). -/
def State.afterInvocation (s : State) (p : Progress) : State :=
  let idle := (s.ageStages s.die fun x => x.isFor s.die p.node).updWork fun w =>
    { w with run := .idle, cur := some { p with running := false, chosen := false } }
  match s.kernels[p.kernel]? with
  | none => idle
  | some k =>
    if k.staged then
      let s1 := idle.updStaged s.die p.node fun x => x.endRecords p
      let r := s1.chooseStage { p with running := false, chosen := false } true
      let s2 := match r.2 with
        | some p' => r.1.updWork fun w => { w with cur := some p' }
        | none => r.1
      s2.endStaged s.die
    else if p.next < p.last then idle
    else
      (idle.leaveNode s.cur p.q p.node true (p.node.parts.getD p.j s.cur)).updWork fun w =>
        { w with cur := none }

/-- INVOCATION_END (R42): after the implicit join, the core's transient state is given up, its records change
hands, and the next stage is chosen; a pre-emption that waits is taken (R51). An invocation with an output record ends
when its copies to the die pad have landed too: the end, and with it the core's next choice, waits for what makes the
record valid (R43; DESIGN CHOICE, log entry 32). -/
def execInvocationEnd (s : State) : Out :=
  let w := s.core.work
  match w.run, w.cur with
  | .ending, some p =>
    if w.stopped || s.core.nextTrap.isSome then .next s
    else if !(s.core.joined 62) || !(s.core.recordWritten p) then .next s
    else
      let s1 := s.performWhere fun x => x.ve || (p.outRec.isSome && x.space == .d)
      let p' : Progress := { p with carry := vgen 3 fun i => vget s1.core.regs.n (12 + i) 0 }
      .next (((s1.upd Core.endInvocation).afterInvocation p').tryPreempt)
  | _, _ => .next s

-- Resuming a record (R225).

/-- A node restored to a queue: its image and context from the record, and a number of its own as a pushed node. -/
def restoredNode (bs : List Byte) (ctx number : Nat) : Node :=
  { img := imgOf bs, ctx := Fin.ofNat 64 ctx, launch := 0, index := number, addr := 0 }

/-- The slice whose WID is given: the index of each level is what its field holds beyond WIDBASE's (R32, R34). -/
def Node.sliceOf (n : Node) (widths : List Nat) (wid : Word) : Nat :=
  (List.range n.nlev).foldl (fun i k =>
    let l := n.perm k
    let w := widths.getD l 0
    let field (x : Word) : Nat := x.toNat / 2 ^ (widths.take l).sum % 2 ^ w
    i * n.count l + (field wid + 2 ^ w - field n.widBase) % 2 ^ w) 0

/-- The work of a record on the acting core; none when the kernel of its current node is not accepted. -/
def State.restore (s : State) (info : Option SaveInfo) (ctx : Fin 64) (r : List Byte) : Option State :=
  let word (o : Nat) : Nat := leNat ((r.drop o).take 8)
  let cps := word 8
  let f := word 0x20
  let counts := word 0x28
  let entries (q : Nat) : List Node :=
    (List.range (min 16 (counts / 2 ^ (5 * (q - 1)) % 32))).map fun i =>
      restoredNode ((r.drop (0x100 + 0x800 * (q - 1) + 0x80 * i)).take 128)
        (leNat ((r.drop (0x1900 + 0x10 * (q - 1) + i)).take 1)) (s.pushes + 1 + 16 * q + i)
  let cur := f / 2 ^ 16 % 2 = 1
  let q := f / 2 ^ 17 % 4
  let n0 := restoredNode ((r.drop 0x80).take 128) (word 0x60) s.pushes
  let n : Node := match info with
    | some x => { n0 with launch := x.launch, index := x.index }
    | none => n0
  let nodes (i : Nat) : List Node :=
    (if cur ∧ q = i then [n] else []) ++ (if i = 0 then [] else entries i)
  let h0 := Head.fresh s.time
  let started : Head := { h0 with checked := true, dep0 := true, dep1 := true, ready := true }
  let qs : Vector CmdQ 4 := vgen 4 fun i =>
    { nodes := nodes i, seq := (s.core.cmdq i).seq, head := if cur ∧ q = i then started else h0 }
  let s1 := ({ s with pushes := s.pushes + 65 } : State).updWork fun w =>
    { w with
      queues := qs, cp := BitVec.ofNat 64 cps, cpOld := s.gmem.mem
      cpCtx := (info.map SaveInfo.cpCtx).getD ctx, cpLaunch := (info.map SaveInfo.cpLaunch).getD 0
      cpIndex := (info.map SaveInfo.cpIndex).getD 0, cpState := if cps = 0 then .idle else .running }
  if !cur then some s1
  else match (s.kernelOf n).bind fun ki => (s.kernels[ki]?).map fun k => (ki, k) with
    | none => none
    | some (ki, k) =>
      let next := n.sliceOf k.widths (BitVec.ofNat 64 (word 0x10))
      let p : Progress :=
        { q := Fin.ofNat 4 q, node := n, seq := (s.core.cmdq q).seq, kernel := ki, j := f % 256, p := f / 2 ^ 8 % 256
          next, last := next + word 0x18
          carry := vgen 3 fun i => BitVec.ofNat 64 (word (0x30 + 8 * i))
          stage := 0, inRec := none, outRec := none, running := false, chosen := false }
      some (s1.updWork fun w => { w with cur := some p })

/-- A core that can take a record: it has no work at all. -/
def Core.vacant (c : Core) : Bool :=
  c.work.run == .idle && !c.work.stopped && c.work.cur.isNone && c.work.cpState == .idle &&
  c.work.queues.toList.all fun q => q.nodes.isEmpty

/-- RESUME (R25, R225): an idle core of the same part, stepping and cluster count continues the record; a read that the
port refuses is logged (R125). -/
def execResume (s : State) : Out :=
  command 0x07 s fun s =>
    match coreArg (s.host.arg 0), ctxArg (s.host.arg 1) with
    | some i, some ctx =>
      let a := s.host.arg 2
      if !s.host.ready || a.toNat % 128 ≠ 0 || !(s.coreAt i).vacant then s.refused
      else match s.readPort ctx true a 0x1930 with
      | .error x => (s.logFor i x.kind 2 x.addr x.phys ctx.val .cc).refused
      | .ok r =>
        let id := leNat (r.take 8)
        if id / 2 ^ 32 ≠ s.devid.toNat / 2 ^ 32 || id % 256 ≠ 1 then s.refused
        else
          let mineOnly (x : SaveInfo) : Bool := x.ctx == ctx && x.addr == a
          match ({ s with cur := i } : State).restore (s.host.saves.find? mineOnly) ctx r with
          | none => s.refused
          | some s' =>
            ({ s' with
              cur := s.cur
              host := { s'.host with saves := s'.host.saves.filter fun x => !(mineOnly x) } } : State).done
    | _, _ => s.refused

-- Contexts, queues and the watchdog (R37, R50, R117, R263).

/-- No translation cache holds a page of the context (R11, R124): a hit changes times, never values. -/
def State.dropContext (s : State) (ctx : Fin 64) : State := s.dropCached fun x => x.ctx == ctx

/-- CTXNEW (R117): a context that is not resident gets its table. -/
def execCtxnew (s : State) : Out :=
  command 0x02 s fun s =>
    match ctxArg (s.host.arg 0) with
    | some ctx =>
      if 65536 < (s.host.arg 2).toNat || (s.ctxs[ctx]).isSome then s.refused
      else
        let c : Ctx := { table := s.host.arg 1, size := (s.host.arg 2).toNat }
        (({ s with ctxs := s.ctxs.set ctx (some c) } : State).dropContext ctx).done
    | none => s.refused

/-- CTXFREE: refused while any node of the context is queued. -/
def execCtxfree (s : State) : Out :=
  command 0x03 s fun s =>
    match ctxArg (s.host.arg 0) with
    | some ctx =>
      if (s.ctxs[ctx]).isNone || s.cores.toList.any fun c =>
          c.work.queues.toList.any fun q => q.nodes.any fun n => n.ctx == ctx then s.refused
      else (({ s with ctxs := s.ctxs.set ctx none } : State).dropContext ctx).done
    | none => s.refused

/-- QCLEAR (R27, R31, R37, R213): a held head is removed and counts as retired; queue 0 of a core whose
fetcher has stopped makes its CP idle. A node whose invocation was aborted has ended for its run of AFADDs already
(R252). -/
def execQclear (s : State) : Out :=
  command 0x04 s fun s =>
    match coreArg (s.host.arg 0) with
    | none => s.refused
    | some i =>
      let q := (s.host.arg 1).toNat
      let c := s.coreAt i
      let x := c.cmdq q
      let stoppedFetch := q == 0 && c.work.cpState == .fetchError
      let idle (s : State) : State :=
        s.updAt i fun c => { c with work := { c.work with cpState := .idle } }
      if 3 < q then s.refused
      else match x.nodes, x.head.held with
        | n :: _, some e =>
          let s1 := s.popNode i q
          let s2 := if n.kind = 1 || n.kind = 2 then
              (if e = 8 then (s1.leaveBarriers i n).markLeft n i else s1.leaveShared i n i).endStaged (i.val / 64)
            else s1
          (if stoppedFetch || (q == 0 && n.kind == 4) then idle s2 else s2).done
        | _, _ => if stoppedFetch then (idle s).done else s.refused

def execWatchdog (s : State) : Out :=
  command 0x05 s fun s =>
    let ms := (s.host.arg 0).toNat
    if 1 ≤ ms && ms ≤ 65535 then ({ s with watchdog := ms } : State).done else s.refused

-- Debug access (R254, R255, R257).

/-- TOKEN (R257): the fields follow one another from the first argument byte; `verified` is the verdict on
its signature. -/
def execToken (verified : Bool) (s : State) : Out :=
  command 0x08 s fun s =>
    let bs := ((List.range 31).map fun k => leBytes 8 (s.host.arg k).toNat).flatten
    let hash := (bs.drop 1).take 32
    let mask := leNat ((bs.drop 33).take 8)
    let key := BitVec.ofNat 64 (leNat ((bs.drop 41).take 8))
    if verified && s.host.life != .retired && hash == s.host.identity && !(s.host.keys.contains key) then
      let f := s.host.features ||| BitVec.ofNat 4 mask
      ({ s with host := { s.host with features := f, keys := s.host.keys ++ [key] } } : State).respond
        [0, f.setWidth 64]
    else s.refused

/-- STOP (R254): one request is armed per core, and needs the STOP feature. -/
def execStop (s : State) : Out :=
  command 0x09 s fun s =>
    let p := s.host
    let req : Option DbgReq :=
      if p.arg 1 = 0 then
        (if (p.arg 3).toNat < 2 ^ 32 && 1 ≤ (p.arg 4).toNat && (p.arg 4).toNat ≤ 65535 then
          some (.cycle (p.arg 2) (p.arg 3).toNat (p.arg 4).toNat)
         else none)
      else if p.arg 1 = 1 then some (.brk (p.arg 5))
      else none
    match coreArg (p.arg 0), req with
    | some i, some r =>
      if !(p.features.getLsbD 0) then s.refused
      else (s.updAt i fun c => { c with work := { c.work with dbg := some r, dbgSeen := 0, dbgFrom := none } }).done
    | _, _ => s.refused

/-- The pad or memory that a debugger names: a pad by its number, or a unit of global memory. -/
def debugPlace (sp : CSpace) (unit addr : Nat) : Option (Loc × Nat) :=
  match sp with
  | .u => if unit < 128 ∧ addr < 0x300000 then some (.u unit, addr) else none
  | .k => if unit < 32 ∧ addr < 0x1000000 then some (.k unit, addr) else none
  | .d => if unit < 2 ∧ addr < 0x8000000 then some (.d unit, addr) else none
  | .g =>
    if (unit < 16 ∧ addr < stackBytes) ∨ (unit = 16 ∧ addr < tierBytes) then some (.g, unit * 2 ^ 44 + addr) else none

/-- A debugger's accesses to bytes of a unit pad wait at their banks: the waits count under requester 7 of its core (R116,
R256). A copy that a loop's end has made is settled first. -/
def State.debugTouch (s : State) (unit : Nat) (as : List Nat) : State :=
  s.asCore (Fin.ofNat 128 unit) fun s => ((as.map fun a => 224 + a / 64 % 32).eraseDups).foldl (fun (s : State) k =>
    let s' := (s.readSnap k).2
    s'.draw.upd fun c =>
      { c with bcm := smapPut c.bcm k (satAdd32 ((smapGet c.bcm k).getD 0) (Config.bankWait s'.fresh)) }) s

/-- A debugger's accesses to a place: those of a unit pad count. -/
def State.debugAt (s : State) (sp : CSpace) (unit : Nat) (as : List Nat) : State :=
  if sp = .u ∧ unit < 128 then s.debugTouch unit as else s

/-- A slot state from its code: 0 free, 1 claimed, 2 filled. -/
def slotStOf (n : Fin 3) : SlotSt := if n.val = 0 then .free else if n.val = 1 then .claimed else .filled

/-- A debugger's write to the acting core or to memory (R255); a byte of a bad granule is refused (R132). A dumped VALUE
keeps its length and its LEFT. -/
def State.debugWrite (s : State) (a : DebugAct) : State :=
  match a with
  | .named i v => s.updRegs fun r => { r with n := r.n.set i v }
  | .result i v => s.updRegs fun r => { r with q := r.q.set i v }
  | .guard k v => s.updRegs fun r => { r with k := r.k.set k v }
  | .special reg v => s.sysWrite reg.toNat v
  | .lane i l v => s.updVec fun x => { x with regs := smapSet 0 x.regs (64 * i.val + l.val) v }
  | .operand sl o b => s.updMe fun m => { m with omem := writeByte m.omem (16384 * sl.val + o.val) b }
  | .acc e o b => s.updMe fun m => { m with amem := writeByte m.amem (16384 * e.val + o.val) b }
  | .byte sp unit o b =>
    (match debugPlace sp unit o with
     | some (l, a) => if (s.firstBad l [a]).isSome then s else (s.debugAt sp unit [a]).perform l [(a, b)]
     | none => s)
  | .value i bs => s.updWork fun w => { w with dump := w.dump.modify i fun d =>
      { d with value := bs.take d.value.length ++ d.value.drop bs.length } }
  | .mask m v => s.updVec fun x => { x with masks := x.masks.set m v }
  | .zeroPoint sl i b => s.updMe fun m =>
      m.setSlot sl.val { m.slot sl.val with zp := writeByte (m.slot sl.val).zp i.val b }
  | .record sl sat unf nan poison skip => s.updMe fun m =>
      m.setSlot sl.val { m.slot sl.val with sat, unf, nan, poison, skip }
  | .param e p v => s.updEng fun g =>
      { g with params := vset g.params e.num ((vget g.params e.num (Vector.replicate 16 0)).set p v) }
  | .template t w v => s.updCpy fun c => { c with tmpl := smapSet 0 c.tmpl (16 * t.val + w.val) v }
  | .pc line lane => s.updFetch fun f =>
      { f with line := BitVec.ofNat 64 (line.toNat / 32 * 32), lane := max 1 lane.val, opened := false, first := false
               resume := true, entered := false, draining := false, skip := none, moved := 0 }
  | .loop i left first len => s.updFetch fun f =>
      { f with loops := if len = 0 then f.loops.take i.val
                        else if i.val < f.loops.length then f.loops.set i.val { left, first, len }
                        else f.loops ++ [{ left, first, len }] }
  | .tokens src dst n => s.updEng fun g => g.setTok src dst n.val
  | .slot sl st b => s.updMe fun m => m.setSlot sl.val { m.slot sl.val with
      st := slotStOf st
      bind := b.map fun x => { lad := x.1, roleB := x.2.1, shadow := x.2.2.1, klen := x.2.2.2 } }
  | .tag e mode id poison map => s.updMe fun m => m.setTag e.val { mode := mode.val, id := id.val, poison, map }
  | .nest l count astep bstep cstep sstep flags => s.updMe fun m =>
      { m with shadow := vset m.shadow l.val { count, astep, bstep, cstep, sstep, flags } }
  | .threshold i v => s.updMe fun m => { m with mon := m.mon.set i v }
  | .ladder i v => s.updMe fun m => { m with ladders := m.ladders.set i v }
  | .vallot n => s.updVec fun x => { x with vallot := n.val }
  | .wid v => s.updRegs fun r => { r with wid := v }
  | .cyc v => s.updRegs fun r => { r with cyc := v }

/-- A debugger's write (R255, R257): it needs the WRITE feature and a stopped core. No command is given for it, so that
it is an act from outside (DESIGN CHOICE, log entry 27). -/
def State.debugged (s : State) (a : DebugAct) : State :=
  if s.core.work.stopped && s.host.features.getLsbD 2 then s.debugWrite a else s

/-- A record of the dump as bytes: the kind of its target, which one, LEFT, and the value. -/
def DumpRec.bytes (d : DumpRec) : List Byte :=
  let t : Nat × Nat := match d.target with
    | .queue i => (0, i) | .named i => (1, i) | .vreg r => (2, r) | .entry e => (3, e) | .slot s => (4, s)
    | .tokens i j => (5, 6 * i + j)
  [BitVec.ofNat 8 t.1] ++ leBytes 2 t.2 ++ leBytes 8 d.left ++ d.value

/-- What a debugger reads, as bytes, low byte first (R255): reading a special register clears nothing, and of a bad granule
there is nothing to read. -/
def State.debugRead (s : State) (v : DebugView) : List Byte × State :=
  let c := s.core
  let word (w : Word) : List Byte := leBytes 8 w.toNat
  match v with
  | .special reg =>
    let n := reg.toNat
    if between n 0x200 0x2FF then (word (s.readBcm (n - 0x200)).1, (s.readBcm (n - 0x200)).2)
    else if between n 0x300 0x3FF then (word (s.readSnap (n - 0x300)).1, (s.readSnap (n - 0x300)).2)
    else (word (s.sysRead n), s)
  | .named i => (word c.regs.n[i], s)
  | .result i => (word c.regs.q[i], s)
  | .guard k => ([BitVec.ofNat 8 c.regs.k[k].toNat], s)
  | .lane r l => (if c.vec.poisoned r.val [l.val] then [] else leBytes 4 (c.vec.lane r.val l.val).toNat, s)
  | .mask m => (word c.vec.masks[m], s)
  | .operand sl o =>
    (if c.me.obad.contains ((16384 * sl.val + o.val) / 8) then [] else [readByte c.me.omem (16384 * sl.val + o.val)], s)
  | .acc e o =>
    (if c.me.abad.contains ((16384 * e.val + o.val) / 8) then [] else [readByte c.me.amem (16384 * e.val + o.val)], s)
  | .zeroPoint sl i => ([readByte (c.me.slot sl.val).zp i.val], s)
  | .record sl =>
    let x := c.me.slot sl.val
    (leBytes 8 x.sat ++ leBytes 8 x.unf ++ leBytes 8 x.nan ++
      [BitVec.ofNat 8 (match x.poison with | some k => k + 1 | none => 0), BitVec.ofNat 8 x.skip.toNat], s)
  | .param e p => (word (vget c.eng.params e.num (Vector.replicate 16 0))[p], s)
  | .template t w => (word (c.tmplWord t.val w.val), s)
  | .pc => (word (pcOf c.fetch.line c.fetch.lane), s)
  | .loop i => (match c.fetch.loops[i.val]? with
      | some l => word l.left ++ word l.first ++ leBytes 8 l.len
      | none => [], s)
  | .tokens a b => ([BitVec.ofNat 8 (c.eng.tok a b)], s)
  | .slot sl =>
    let x := c.me.slot sl.val
    ([BitVec.ofNat 8 (match x.st with | .free => 0 | .claimed => 1 | .filled => 2)] ++
      (match x.bind with
       | some b => [BitVec.ofNat 8 b.lad.val, BitVec.ofNat 8 b.roleB.toNat] ++ leBytes 8 b.shadow ++ leBytes 8 b.klen
       | none => []), s)
  | .tag e =>
    let t := c.me.tag e.val
    ([BitVec.ofNat 8 t.mode] ++ leBytes 2 t.id ++ [BitVec.ofNat 8 (match t.poison with | some k => k + 1 | none => 0)] ++
      (t.map.map fun x => leBytes 2 x.toNat).flatten, s)
  | .nest l =>
    let x := c.me.shadow[l]
    (([x.count, x.astep, x.bstep, x.cstep, x.sstep, x.flags].map fun w => leBytes 2 w.toNat).flatten, s)
  | .threshold i => (leBytes 2 (c.me.mon[i]).toNat, s)
  | .ladder i => (word c.me.ladders[i], s)
  | .dump i => (match c.work.dump[i]? with | some d => d.bytes | none => [], s)
  | .bytes sp unit o n =>
    (match (List.range n).mapM fun k => debugPlace sp unit (o + k) with
     | some ps => if ps.any fun p => (s.firstBad p.1 [p.2]).isSome then [] else ps.map fun p => s.seenByte p.1 p.2
     | none => [], s.debugAt sp unit ((List.range n).map (o + ·)))

/-- A debugger's read (R255, R257): it needs the READ feature and a stopped core, and like the write it is an act from
outside (DESIGN CHOICE, log entry 27). -/
def State.viewed (s : State) (v : DebugView) : State :=
  if s.core.work.stopped && s.host.features.getLsbD 1 then
    let r := s.debugRead v
    { r.2 with host := { r.2.host with debugSeen := r.1 } }
  else s

/-- The stopped core goes on with what was dumped (R255). What no late result has any more, a value of the debugger's stands
for it, is held no more; bank conflicts count again, unless a frozen handler goes on (R256). -/
def State.resumeCore (s : State) : State :=
  let before := (s.core.opened.map fun o => o.hold.toList).flatten
  let s1 := (s.upd fun c => c.work.dump.foldl Core.reinject c).updWork fun w => { w with stopped := false, dump := [] }
  let after := (s1.core.opened.map fun o => o.hold.toList).flatten
  (s1.dropHolds (before.filter fun h => !(after.contains h))).upd fun c =>
    { c with bcmFixed := if c.frozen then c.bcmFixed else [] }

/-- GO (R255): the stopped core runs on with what was dumped. -/
def execGo (s : State) : Out :=
  command 0x0A s fun s =>
    match coreArg (s.host.arg 0) with
    | some i =>
      if !(s.coreAt i).work.stopped then s.refused
      else
        (s.asCore i State.resumeCore).done
    | none => s.refused

-- The pod, power and the log (R133, R244, R265).

/-- A word of PODCFG's route table holds three routes, of 21 bits each: the package in the low twelve, the link above
them, and bit 16 marks a route (log entry 34). The 29 words hold the routes of every pod. -/
def routeEntries (w : Word) : List (Nat × Fin 16) :=
  (List.range 3).filterMap fun k =>
    let f := w.toNat / 2 ^ (21 * k) % 2 ^ 21
    if f / 2 ^ 16 % 2 = 1 then some (f % 2 ^ 12, Fin.ofNat 16 (f / 2 ^ 12)) else none

def execPodcfg (s : State) : Out :=
  command 0x0B s fun s =>
    let id := (s.host.arg 0).toNat
    let n := (s.host.arg 1).toNat
    if id ≤ 4095 && 1 ≤ n && n ≤ 64 then
      ({ s with links := { s.links with
          id, pod := n, routes := ((List.range 29).map fun k => routeEntries (s.host.arg (k + 2))).flatten } } :
        State).done
    else s.refused

/-- PCAP (R233, R244): the base cap changes with the next window. -/
def execPcap (s : State) : Out :=
  command 0x0C s fun s =>
    if (s.host.arg 0).toNat ≤ 3200 then
      (s.updPower fun p => { p with pcapNext := (s.host.arg 0).toNat }).done
    else s.refused

def execSpmax (s : State) : Out :=
  command 0x0D s fun s =>
    if (s.host.arg 0).toNat ≤ 32 then
      (s.updPower fun p => { p with spmax := (s.host.arg 0).toNat }).done
    else s.refused

/-- LOGREAD (R133, R257): the entry in full with the DUMP feature; without it the addresses and the context read zero
(DESIGN CHOICE, log entry 27). -/
def execLogread (s : State) : Out :=
  command 0x0E s fun s =>
    match s.log[(s.host.arg 0).toNat]? with
    | some e =>
      let full (v : Word) : Word := if s.host.features.getLsbD 3 then v else 0
      s.respond [0, BitVec.ofNat 64 e.kind, BitVec.ofNat 64 e.space, full e.addr, full (BitVec.ofNat 64 e.phys),
        full (BitVec.ofNat 64 e.ctx), BitVec.ofNat 64 e.core, BitVec.ofNat 64 e.eng.num, e.time]
    | none => s.refused

/-- CORERESET (R214): a double-faulted core starts again; its invocation is given up as by ABORT. -/
def execCorereset (s : State) : Out :=
  command 0x0F s fun s =>
    match coreArg (s.host.arg 0) with
    | some i =>
      if (s.coreAt i).work.run ≠ .doubleFault then s.refused
      else
        ((s.asCore i fun s =>
          let s' := (s.abortInvocation.updTrap fun t =>
            { t with inh := false, frz := false, abort := false, pending := [] }).upd fun c =>
            { c with regs := { c.regs with sup := false },
                     work := { c.work with preempting := none, run := .idle } }
          match s.core.work.cur with | some p => s'.giveUpStages p | none => s')).done
    | none => s.refused

-- LOAD (R278, R279, R287).

/-- A section of a kernel block: its offset and length from the table (R279). -/
def section_ (h : List Byte) (n : Nat) : Nat × Nat :=
  (leNat ((h.drop (0xA0 + 0x10 * n)).take 8), leNat ((h.drop (0xA8 + 0x10 * n)).take 8))

def hdrWord (h : List Byte) (off : Nat) : Nat := leNat ((h.drop off).take 8)

/-- The numbers of the sections, in the order of R278. -/
def secWait : Nat := 8
def secSync : Nat := 7
def secLines : Nat := 17
def secSig : Nat := 18

/-- The bytes of header and section table. -/
def hdrBytes : Nat := 0xA0 + 0x10 * 19

def hdrWidths (h : List Byte) : List Nat := (List.range 6).map fun i => hdrWord h 8 / 2 ^ (6 * i) % 64
def hdrStages (h : List Byte) : Nat := hdrWord h 0x10 / 2 ^ 8 % 8
def hdrSuper (h : List Byte) : Bool := hdrWord h 0x10 / 8 % 2 == 1
def hdrNoProgress (h : List Byte) : Bool := hdrWord h 0x10 % 2 == 1

def hdrStage (h : List Byte) (s : Nat) : StageInfo :=
  let w := hdrWord h (0x30 + 0x20 * s)
  { entry := BitVec.ofNat 64 (hdrWord h (0x20 + 0x20 * s)), ring := hdrWord h (0x28 + 0x20 * s) % 2 ^ 27,
    depth := w % 2 ^ 16, rsize := w / 2 ^ 16 % 512, allot := w / 2 ^ 32 % 512 }

/-- L03: reserved bits, WID widths, NSTAGE. -/
def hdrBad (h : List Byte) : Bool :=
  let f := hdrWord h 0x10
  let ws := hdrWidths h
  hdrWord h 0 % 2 ^ 16 != 0 || hdrWord h 8 / 2 ^ 36 != 0 || f / 2 ^ 4 % 2 ^ 4 != 0 ||
  f / 2 ^ 11 % 2 ^ 5 != 0 || f / 2 ^ 21 % 2 ^ 3 != 0 || f / 2 ^ 31 % 2 != 0 || f / 2 ^ 39 % 2 != 0 ||
  f / 2 ^ 45 != 0 || hdrWord h 0x18 / 2 ^ 48 != 0 ||
  ((List.range 4).any fun s =>
    let w := hdrWord h (0x30 + 0x20 * s)
    hdrWord h (0x28 + 0x20 * s) / 2 ^ 27 != 0 || w / 2 ^ 25 % 2 ^ 7 != 0 || w / 2 ^ 41 != 0 ||
    hdrWord h (0x38 + 0x20 * s) != 0 ||
    (hdrStages h ≤ s && (hdrWord h (0x20 + 0x20 * s) != 0 || hdrWord h (0x28 + 0x20 * s) != 0 || w != 0))) ||
  64 < ws.sum || (ws.dropWhile (· != 0)).any (· != 0) || hdrStages h == 0 || 4 < hdrStages h

/-- The die-pad bytes of a ring: header and records (R43). -/
def StageInfo.ringEnd (g : StageInfo) : Nat := g.ring + 64 + g.depth * g.rsize

/-- L04. -/
def stagesBad (h : List Byte) : Bool :=
  let lines := section_ h secLines
  let rings := ((List.range (hdrStages h)).drop 1).map (hdrStage h)
  ((List.range (hdrStages h)).any fun s =>
    let e := (hdrStage h s).entry.toNat
    e < lines.1 || lines.1 + lines.2 ≤ e || e % 32 != 0) ||
  (rings.any fun g => g.ring % 64 != 0 || g.depth == 0 || g.rsize < 16 || 256 < g.rsize ||
    g.rsize % 16 != 0 || 0x8000000 < g.ringEnd) ||
  (rings.zipIdx.any fun a => rings.zipIdx.any fun b =>
    a.2 < b.2 && decide (a.1.ring < b.1.ringEnd) && decide (b.1.ring < a.1.ringEnd))

/-- L05. -/
def allotsBad (h : List Byte) : Bool :=
  (List.range (hdrStages h)).any fun s =>
    let a := (hdrStage h s).allot
    a % 8 != 0 || 256 < a || (a == 256 && hdrStages h != 1)

/-- Nodes reached from a node in at most n steps of the wait graph. -/
def reachFrom (edges : List (Nat × Nat)) : Nat → List Nat → List Nat
  | 0, l => l
  | n + 1, l =>
    reachFrom edges n (l ++ (edges.filter fun e => l.contains e.1 && !(l.contains e.2)).map Prod.snd).eraseDups

/-- The edges of a wait graph (R281): records of four bytes, the node records before the edges. Where the edges begin is
not given: it is the first place from which every record names two earlier node records, each of which is named
(DEDUCED, log entry 68). -/
def waitEdges (bs : List Byte) : List (Nat × Nat) :=
  let n := bs.length / 4
  let edge (i : Nat) : Nat × Nat := (leNat ((bs.drop (4 * i)).take 2), leNat ((bs.drop (4 * i + 2)).take 2))
  let edges (m : Nat) : List (Nat × Nat) := (List.range (n - m)).map fun i => edge (m + i)
  let fits (m : Nat) : Bool :=
    (edges m).all (fun e => e.1 < m && e.2 < m) &&
    (List.range m).all fun i => (edges m).any fun e => e.1 == i || e.2 == i
  ((List.range (n + 1)).find? fits).elim [] edges

/-- L06: a directed cycle among the edges. -/
def hasCycle (edges : List (Nat × Nat)) : Bool :=
  edges.any fun e => (reachFrom edges edges.length [e.2]).contains e.1

/-- L07: a region's pushes and pops differ on some pair (R280). -/
def syncBad (sync : List Byte) : Bool :=
  (List.range (sync.length / 128)).any fun i =>
    (List.range 30).any fun k =>
      let w := leNat ((sync.drop (128 * i + 8 + 4 * k)).take 4)
      w % 2 ^ 16 != w / 2 ^ 16

/-- L08: a line header that faults at fetch, whatever stands before it. -/
def linesBad (lines : List Byte) : Bool :=
  (List.range (lines.length / 32)).any fun i =>
    (headerFault (leNat ((lines.drop (32 * i)).take 4)) false).isSome

/-- L09. -/
def countsBad (h : List Byte) : Bool :=
  let f := hdrWord h 0x10
  64 < f / 2 ^ 24 % 128 || 64 < f / 2 ^ 32 % 128 || 16 < f / 2 ^ 40 % 32

/-- L10: a template with its words, under the rules that STA and CCOPY apply. -/
def templateBad (t : Nat × List Word) : Bool := (tmplFields fun w => t.2.getD w 0).bad false

/-- L11: reserved bits, the order of the rungs and their biases (R178, R179). -/
def ladderBad (d : Word) : Bool :=
  let r := [ladRung d 0, ladRung d 1, ladRung d 2]
  d.toNat / 2 ^ 36 != 0 || d.toNat / 2 ^ 30 % 4 != 0 || d.toNat / 2 ^ 22 % 4 != 0 ||
  d.toNat / 2 ^ 12 % 16 != 0 ||
  !([[7, 4, 2], [7, 4, 15], [7, 2, 15], [4, 2, 15], [2, 15, 15], [4, 15, 15], [7, 15, 15]].contains r) ||
  (ladRung d 0 == 2 && d.toNat / 2 ^ 16 % 64 != 0) || (ladRung d 1 == 2 && d.toNat / 2 ^ 24 % 64 != 0)

/-- L12: a declared buffer that is not VALID in the loading context or lacks a right (R140); a poisoned table word shows
neither (R131). -/
def State.bufferBad (s : State) (ctx : Fin 64) (b : Nat × BitVec 5) : Bool :=
  match s.entryAddr ctx b.1 2 with
  | none => true
  | some pa => (s.firstBad .g ((List.range 8).map (pa + ·))).isSome ||
      !(wordValid (s.gWord pa)) || b.2 &&& wordRights (s.gWord pa) != b.2

/-- The places of a range of global data, by the loader's own path. -/
def State.loaderPlaces (s : State) (ctx : Fin 64) (a : Word) (n : Nat) : Option (List Nat) :=
  match s.translate ctx .loader a [(a.toNat % 2 ^ 48, n)] with
  | .error _ => none
  | .ok x => x.places (a.toNat % 2 ^ 48) n

/-- L13. -/
def State.dataBad (s : State) (ctx : Fin 64) (k : KernelParts) : Bool :=
  let past (lim : Nat) (l : List (Nat × List Byte)) := l.any fun d => decide (lim < d.1 + d.2.length)
  past 0x300000 k.dataU || past 0x1000000 k.dataK || past 0x8000000 k.dataD ||
  k.dataG.any fun d => (s.loaderPlaces ctx d.1 d.2.length).isNone

/-- Bytes read by the loader; none for a failed translation or an error response. -/
def State.loaderRead (s : State) (ctx : Fin 64) (a : Word) (n : Nat) : Option (List Byte) :=
  match s.loaderPlaces ctx a n with
  | none => none
  | some as => if (s.firstBad .g as).isSome then none else some (as.map (s.byteAt .g))

/-- What the loader's failed read meets at the port is logged, under the management core (R125, R133). -/
def State.logLoader (s : State) (ctx : Fin 64) (a : Word) (n : Nat) : State :=
  let log (x : Refused) : State := s.logFor 128 x.kind 2 x.addr x.phys ctx .cc
  match s.portPlaces ctx .loader a n with
  | .error x => log x
  | .ok as => match s.firstBad .g as with
    | some (at_, _) => log ⟨2, a, at_⟩
    | none => s

/-- The bytes of the image: up to the end of its last section. -/
def imageLength (h : List Byte) : Nat :=
  (List.range 19).foldl (fun m n => max m ((section_ h n).1 + (section_ h n).2)) 0

/-- The first failing check of R287 on an image that has been read: its load error. A supervisor block is accepted with
privilege 1 alone (R87). -/
def State.loadError (s : State) (ctx : Fin 64) (privilege : Word) (k : KernelParts) (img : List Byte) :
    Option Nat :=
  let sec (n : Nat) : List Byte := (img.drop (section_ img n).1).take (section_ img n).2
  let np := hdrNoProgress img
  if (sec secSig).isEmpty || !k.sigOk then some 1
  else if hdrBad img then some 3
  else if stagesBad img then some 4
  else if allotsBad img then some 5
  else if !np && hasCycle (waitEdges (sec secWait)) then some 6
  else if !np && syncBad (sec secSync) then some 7
  else if linesBad (sec secLines) then some 8
  else if countsBad img then some 9
  else if k.tmpl.any (fun x => 63 < x.1 || templateBad x) then some 10
  else if k.ladders.any fun l => 15 < l.1 || ladderBad l.2 then some 11
  else if k.buffers.any (s.bufferBad ctx) then some 12
  else if s.dataBad ctx k then some 13
  else if !k.room then some 14
  else if (if hdrSuper img then privilege != 1 else privilege == 1) then some 15
  else none

/-- The image base is added at each ABS64 entry (R278). -/
def addBase (base : Word) (bs : List Byte) (off : Nat) : List Byte :=
  bs.take off ++ leBytes 8 ((BitVec.ofNat 64 (leNat ((bs.drop off).take 8)) + base).toNat) ++ bs.drop (off + 8)

/-- The records of one space with the image base added where the relocations say; space 0 to 3 is U, K, D, G. -/
def relocate {A : Type} (base : Word) (rel : List (Nat × Nat × Nat)) (space : Nat) (l : List (A × List Byte)) :
    List (A × List Byte) :=
  l.zipIdx.map fun d =>
    (d.1.1, (rel.filter fun r => r.1 == space && r.2.1 == d.2).foldl (fun bs r => addBase base bs r.2.2) d.1.2)

/-- An accepted block (R26, R74, R287): its image stands in code memory at its base, its data are written but for bad
granules that they cover in part, which is logged (R132, log entry 79), and the block is listed. -/
def State.accept (s : State) (ctx : Fin 64) (a : Word) (k : KernelParts) (img : List Byte) : State :=
  let base := (s.codeTop + 31) / 32 * 32 + 32 * Config.imageGap s.fresh
  let bw := BitVec.ofNat 64 base
  let dataK := relocate bw k.dataRel 1 k.dataK
  let dataD := relocate bw k.dataRel 2 k.dataD
  let dataG := relocate bw k.dataRel 3 k.dataG
  let put (sp : Nat) (l : Loc) (ds : List (Nat × List Byte)) (s : State) : State :=
    ds.foldl (fun s d => s.writeChecked l (cellsFrom d.1 d.2) fun s x =>
      s.logFor 128 3 sp (BitVec.ofNat 64 x) x ctx.val .cc) s
  let s1 : State := { s.draw with code := writeRun s.code base img, codeTop := base + img.length }
  let s2 := (List.range 32).foldl (fun s c => put 0 (.k c) dataK s) s1
  let s3 := (List.range 2).foldl (fun s d => put 1 (.d d) dataD s) s2
  let s4 := dataG.foldl (fun (s : State) d => match s.loaderPlaces ctx d.1 d.2.length with
    | some as => s.writeChecked .g (as.zip d.2) fun s x => s.logFor 128 3 2 d.1 x ctx.val .cc
    | none => s) s3
  { s4 with kernels := s4.kernels ++
      [{ ctx, addr := a, base := bw, widths := (hdrWidths img).takeWhile (· != 0),
         stages := (List.range (hdrStages img)).map (hdrStage img),
         tmpl := k.tmpl.map fun t => (t.1, t.2.zipIdx.map fun w =>
           if k.tmplRel.contains (t.1, w.2) then w.1 + bw else w.1),
         ladders := k.ladders, dataU := relocate bw k.dataRel 0 k.dataU,
         pace := vgen 6 fun i => BitVec.ofNat 8 (hdrWord img 0x18 / 2 ^ (8 * i)),
         super := hdrSuper img, det := hdrWord img 0x10 / 2 ^ 2 % 2 == 1,
         pidx := hdrWord img 0x10 / 2 ^ 16 % 32 }] }

/-- LOAD (R25, R287): the block named is checked and accepted, or refused with its load error; before step 7 it is
refused. -/
def execLoad (parts : KernelParts) (s : State) : Out :=
  command 0x01 s fun s =>
    let a := s.host.arg 1
    if !s.host.ready then s.refused
    else match ctxArg (s.host.arg 0) with
    | none => s.respond [1, 2]
    | some ctx =>
      match s.loaderRead ctx a hdrBytes with
      | none => (s.logLoader ctx a hdrBytes).respond [1, 2]
      | some h =>
        if hdrWord h 0 / 2 ^ 32 ≠ 0x5A4A4B42 || hdrWord h 0 / 2 ^ 16 % 2 ^ 16 ≠ 1 || imageLength h < hdrBytes then
          s.respond [1, 2]
        else match s.loaderRead ctx a (imageLength h) with
          | none => (s.logLoader ctx a (imageLength h)).respond [1, 2]
          | some img =>
            match s.loadError ctx (s.host.arg 2) parts img with
            | some e => s.respond [1, BitVec.ofNat 64 e]
            | none => (s.accept ctx a parts img).done

end Sys2Proof.Machine
end

