-- ==== Sys2Proof/Machine/HostPort.lean ====
section
/-! DEFINITION. Bring-up, the BAR0 registers, the launch port and the BAR2 windows (R25, R61, R120, R125,
R132, R258-R264). -/
namespace Sys2Proof.Machine

-- Bring-up (R25, R257, R260).

/-- A bring-up that has stopped: the last step completed, and HSTAT has changed. -/
def State.bringUpStopped (s : State) (step : Nat) (recovery : Bool) : State :=
  ({ s with host := { s.host with step := BitVec.ofNat 8 step, recovery, failed := !recovery } } : State).signal 3

/-- The mailbox report of a bring-up step that failed, which answers no request: the status, the number of the step, and
what failed in it (DESIGN CHOICE, log entry 61). -/
def State.reportStep (s : State) (step what : Nat) : State :=
  s.respond [1, BitVec.ofNat 64 step, BitVec.ofNat 64 what]

/-- The log entry of what failed in a bring-up step. -/
def State.logStep (s : State) (step what : Nat) : State := s.logEvent 6 0 (BitVec.ofNat 64 what) step 0 .cc

/-- Debug features open after step 2: every one on a BLANK part, none on any other (R257). -/
def openAtReset : LifeCycle → BitVec 4
  | .blank => 15
  | .production | .retired => 0

/-- The links that did not train are logged; number 16 is the PCI Express link (R25). -/
def State.logLinks (s : State) (pcie : Bool) (links : BitVec 16) : State :=
  let s' := if pcie then s else s.logEvent 8 0 16 0 0 .le
  (List.range 16).foldl (fun (s : State) i =>
    if links.getLsbD i then s else s.logEvent 8 0 (BitVec.ofNat 64 i) 0 0 .le) s'

/-- DEVICE_RESET (R25): the arguments are the outcome of the signature check, the stack or channel that failed its test
(16 is the LPDDR-6 tier), the bank that could not be cleared, the links that trained, the measured MELT, and the size
of BAR2. The fuses, the identity and the key indices used on the device outlast the reset. Over a PCI Express link that
did not train the host reaches nothing, while the package runs (log entry 82). -/
def execDeviceReset (sigOk : Bool) (stack bank : Option Nat) (links : Trained) (melt : BitVec 16) (s : State) : Out :=
  let r : State :=
    { State.reset with
      host := { Port.reset with life := s.host.life, identity := s.host.identity, keys := s.host.keys
                                bar2 := 20 + links.bar2.val }
      turns := s.turns, cur := s.cur, steps := s.steps, fresh := s.fresh }
  .next
    (if !sigOk then (r.bringUpStopped 0 true).reportStep 1 0
     else
      let r2 : State := { r with host := { r.host with features := openAtReset s.host.life } }
      match stack, bank with
      | some x, _ => ((r2.logStep 3 x).bringUpStopped 2 false).reportStep 3 x
      | none, some x => (r2.logStep 4 x).bringUpStopped 3 false
      | none, none =>
        let r5 := r2.logLinks links.pcie links.links
        (({ r5 with
          links := { r5.links with up := links.links }
          power := { r5.power with frac := melt }
          host := { r5.host with linked := links.pcie, step := 7, ready := true } } : State).signal 3))

-- The launch port (R27, R261).

/-- The code of LSTAT for a graph pointer, in the order of R261. -/
def State.launchCode (s : State) (ptr : Word) : BitVec 2 :=
  if !s.host.ready then 2
  else if ptr.toNat % 128 ≠ 0 || (s.ctxs[s.host.lctx]).isNone ||
      s.addressBad s.host.lctx ptr 128 .load true then 3
  else if s.cores.toList.any fun c => c.work.cpState != .idle then 1
  else 0

/-- An accepted graph pointer sets every core's CP; what global memory holds now may still be what its walk finds (R28). -/
def State.startLaunch (s : State) (ptr : Word) : State :=
  { s with
    host := { s.host with lstat := 0, launches := s.host.launches + 1 }
    cores := s.cores.map fun c =>
      { c with work := { c.work with
          cp := ptr, cpOld := s.gmem.mem, cpCtx := s.host.lctx, cpState := .running, cpLaunch := s.host.launches + 1,
          cpIndex := 0 } } }

def State.launchWrite (s : State) (ptr : Word) : State :=
  let code := s.launchCode ptr
  if code = 0 then s.startLaunch ptr else { s with host := { s.host with lstat := code } }

/-- LAUNCH (R261): a 4-byte write is ignored. -/
def execLaunch (ptr : Word) (eight : Bool) (s : State) : Out :=
  .next (if eight then s.launchWrite ptr else s)

-- BAR0 (R259, R260, R263).

/-- A word with `size` bytes from byte `lo` replaced. -/
def mergeWord (old : Word) (lo size : Nat) (v : Word) : Word :=
  BitVec.ofNat 64 (leNat ((leBytes 8 old.toNat).take lo ++ leBytes size v.toNat ++
    (leBytes 8 old.toNat).drop (lo + size)))

def State.updHost (s : State) (f : Port → Port) : State := { s with host := f s.host }

/-- The doorbell (R263): ignored unless the mailbox is idle; an unknown code is answered at once. -/
def State.doorbell (s : State) : State :=
  if s.host.mbstat ≠ 0 then s
  else
    let s' := s.updHost fun p => { p with mbstat := 1 }
    if s'.host.code = 0 || 15 < s'.host.code then s'.respond [2] else s'

/-- Word k of a window as it stands. -/
def storedWord (w : Window) (k : Nat) : Word :=
  match k with | 0 => w.gaddr | 1 => w.ctl | 2 => w.size | _ => w.base

/-- Word k of a window as it reads: the reserved bits of word 1 read as zero (R7). A write keeps them all the same, since
R262 gives them an effect (DEDUCED, log entry 76). -/
def windowWord (w : Window) (k : Nat) : Word :=
  if k = 1 then w.ctl &&& 0x800000000000003F else storedWord w k

def setWindowWord (w : Window) (k : Nat) (v : Word) : Window :=
  match k with
  | 0 => { w with gaddr := v } | 1 => { w with ctl := v } | 2 => { w with size := v }
  | _ => { w with base := v }

/-- HOST_REGISTER_WRITE (R5, R259, R260): an access that is not an aligned 4-byte or 8-byte one completes with
Unsupported Request; reserved and read-only offsets ignore the write. -/
def execHostRegisterWrite (off : Nat) (size : Nat) (v : Word) (s : State) : Out :=
  if (size ≠ 4 && size ≠ 8) || off % size ≠ 0 || 0x100000 ≤ off then
    .next (s.updHost fun p => { p with completion := some (false, []) })
  else
    let a := off / 8 * 8
    let lo := off % 8
    let merge (old : Word) : Word := mergeWord old lo size v
    .next
      (if a = 0x100 then (if size = 8 then s.launchWrite v else s)
       else if a = 0x108 then
        s.updHost fun p => { p with lctx := Fin.ofNat 64 (merge (BitVec.ofNat 64 p.lctx.val)).toNat }
       else if between a 0x1000 0x10FF then
        s.updHost fun p =>
          let k := (a - 0x1000) / 8
          { p with mbreq := vset p.mbreq k (merge (vget p.mbreq k 0)) }
       else if a = 0x1200 then (if (merge 0).getLsbD 0 then s.doorbell else s)
       else if between a 0x2000 0x21FF then
        s.updHost fun p =>
          let i := (a - 0x2000) / 32
          let k := (a - 0x2000) / 8 % 4
          let w := vget p.win i { gaddr := 0, ctl := 0, size := 0, base := 0 }
          { p with win := vset p.win i (setWindowWord w k (merge (storedWord w k))) }
       else if between a 0x10000 0x103FF then
        s.updHost fun p =>
          let k := (a - 0x10000) / 8
          { p with msixTable := smapSet 0 p.msixTable k (merge ((smapGet p.msixTable k).getD 0)) }
       else s)

/-- HSTAT (R260). -/
def Port.hstat (p : Port) : Word :=
  BitVec.ofNat 64 (p.step.toNat * 2 ^ 8 + p.failed.toNat * 4 + p.recovery.toNat * 2 + p.ready.toNat)

/-- The 8-byte register at an aligned offset of BAR0 as a read finds it (R5, R259, R260): what is reserved or write-only
reads as zero. -/
def State.bar0Word (s : State) (a : Nat) : Word :=
  let p := s.host
  if a = 0 then devidOf 0
  else if a = 0x8 then p.hstat
  else if a = 0x108 then BitVec.ofNat 64 p.lctx.val
  else if a = 0x110 then p.lstat.setWidth 64
  else if between a 0x1000 0x10FF then vget p.mbreq ((a - 0x1000) / 8) 0
  else if between a 0x1100 0x11FF then vget p.mbrsp ((a - 0x1100) / 8) 0
  else if a = 0x1208 then p.mbstat.setWidth 64
  else if between a 0x2000 0x21FF then
    windowWord (vget p.win ((a - 0x2000) / 32) { gaddr := 0, ctl := 0, size := 0, base := 0 }) ((a - 0x2000) / 8 % 4)
  else if between a 0x10000 0x103FF then (smapGet p.msixTable ((a - 0x10000) / 8)).getD 0
  else if a = 0x10800 then p.msix.setWidth 64
  else 0

def State.complete (s : State) (ok : Bool) (bs : List Byte) : State :=
  s.updHost fun p => { p with completion := some (ok, bs) }

/-- A host read of BAR0 (R5, R259, R260, R263). An access that is not an aligned 4-byte or 8-byte one completes with
Unsupported Request; once the host reads the response, the mailbox is idle. -/
def State.bar0Read (s : State) (off size : Nat) : State :=
  if (size ≠ 4 && size ≠ 8) || off % size ≠ 0 || 0x100000 ≤ off then s.complete false []
  else
    let s' := s.complete true (((leBytes 8 (s.bar0Word (off / 8 * 8)).toNat).drop (off % 8)).take size)
    if between off 0x1100 0x11FF then s'.updHost fun p => { p with mbstat := 0 } else s'

/-- MBRSP_READ (R263): the host reads the whole response, and the mailbox is idle. -/
def execMbrspRead (s : State) : Out :=
  .next ((s.complete true (s.host.mbrsp.toList.map fun w => leBytes 8 w.toNat).flatten).updHost fun p =>
    { p with mbstat := 0 })

-- BAR2 (R262).

def Window.inUse (w : Window) : Bool :=
  w.ctl.getLsbD 63 && w.ctl.toNat / 2 ^ 6 % 2 ^ 57 == 0 && w.size != 0 && w.size.toNat % 65536 == 0 &&
  w.base.toNat % 65536 == 0

/-- The context and global address of an access at a BAR2 offset; a carry out of the offset is a failing
check (R61). -/
def Port.target (p : Port) (off : Nat) : Option (Fin 64 × Option Word) :=
  match p.win.toList.find? fun w =>
      w.inUse && decide (w.base.toNat ≤ off) && decide (off < w.base.toNat + w.size.toNat) with
  | none => none
  | some w =>
    let r := addOffset .g w.gaddr (BitVec.ofNat 64 (off - w.base.toNat))
    some (Fin.ofNat 64 w.ctl.toNat, if r.2 then none else some r.1)

/-- What is refused at a window is logged under the host, which stands as core 128 (R125, R133, log entry 37). -/
def State.refuseHost (s : State) (x : Refused) (ctx : Nat) : State := s.logFor 128 x.kind 2 x.addr x.phys ctx .cc

/-- An access through BAR2 at an offset: its context and address, or the refusal in the context it fell in (R258, R262).
An offset beyond the size of BAR2 falls in no window. -/
def State.bar2Target (s : State) (off : Nat) : Except (Option Nat) (Fin 64 × Word) :=
  match (if off < 2 ^ s.host.bar2 then s.host.target off else none) with
  | none => .error none
  | some (ctx, none) => .error (some ctx.val)
  | some (ctx, some a) => .ok (ctx, a)

/-- HOST_BAR2_READ (R262): right R, or Unsupported Request; what the port refuses is logged (R125). -/
def execHostBar2Read (off : Nat) (len : Nat) (s : State) : Out :=
  match s.bar2Target off with
  | .error none => .next (s.complete false [])
  | .error (some ctx) => .next ((s.refuseHost ⟨4, BitVec.ofNat 64 off, 0⟩ ctx).complete false [])
  | .ok (ctx, a) =>
    match s.readPort ctx true a len with
    | .ok bs => .next (s.complete true bs)
    | .error x => .next ((s.refuseHost x ctx).complete false [])

/-- HOST_BAR2_WRITE (R262): rights W and P; a part of a bad granule is refused (R132). A write that fails is dropped and
logged (R125, R133). -/
def execHostBar2Write (off : Nat) (bytes : List Byte) (s : State) : Out :=
  match s.bar2Target off with
  | .error ctx => .next (s.refuseHost ⟨4, BitVec.ofNat 64 off, 0⟩ (ctx.getD 0))
  | .ok (ctx, a) =>
    match s.portPlaces ctx .extWrite a bytes.length with
    | .error x => .next (s.refuseHost x ctx)
    | .ok as =>
      match s.refusedAt .g as with
      | some (at_, _) => .next (s.refuseHost ⟨3, a, at_⟩ ctx)
      | none => .next (s.perform .g (as.zip bytes))

/-- HOST_FETCHADD (R258, R262): a 64-bit FetchAdd needs rights C and P, and its completion returns the old value. Every
other AtomicOp is an act from outside that completes with Unsupported Request. -/
def execHostFetchadd (off : Nat) (v : Word) (s : State) : Out :=
  match s.bar2Target off with
  | .error none => .next (s.complete false [])
  | .error (some ctx) => .next ((s.refuseHost ⟨4, BitVec.ofNat 64 off, 0⟩ ctx).complete false [])
  | .ok (ctx, a) =>
    if a.toNat % 8 ≠ 0 then .next ((s.refuseHost ⟨4, a, 0⟩ ctx).complete false [])
    else match s.addCounter ctx .extPost a v with
      | .ok (old, s') => .next (s'.complete true (leBytes 8 old))
      | .error x => .next ((s.refuseHost x ctx).complete false [])

end Sys2Proof.Machine
end

