-- ==== Sys2Proof/Machine/PowerEv.lean ====
section
/-! DEFINITION. Events of the supply, the governor, the store and the leases, page migration, and the debug
stop at a cycle (R127, R128, R232-R234, R237, R241-R250, R254, R255). -/
namespace Sys2Proof.Machine

-- Droop (R237, R241): events of the acting core's cluster.

/-- DROOP_ALARM: an armed detector signals once, and both spans start anew. -/
def execDroopAlarm (s : State) : Out :=
  .next (if s.droopOf.armed then s.alarm fun d => { d.alarm with armed := false } else s)

def execDroopStretchEnd (s : State) : Out :=
  .next (s.updDroop s.cluster fun d => { d with stretching := false })

def execDroopHalvingEnd (s : State) : Out :=
  .next (s.updDroop s.cluster fun d => { d with halving := false })

/-- DROOP_REARM: the supply is back at or above the threshold. -/
def execDroopRearm (s : State) : Out := .next (s.updDroop s.cluster fun d => { d with armed := true })

/-- LANE_GROUP_GATE: 64 VE cycles have passed without an active lane in the group. -/
def execLaneGroupGate (g : Fin 4) (s : State) : Out :=
  .next (s.updVec fun v => { v with gated := v.gated.set g true })

-- The governor and the cap (R232-R234, R244, R246): what they decide is open (log entry 21).

/-- Ballast of the next interval: a free choice in every cluster without a halving window (R232, R237). -/
def State.ballastNext (s : State) : BitVec 32 :=
  BitVec.ofFnLE fun k : Fin 32 => Config.ballast (s.fresh + k.val) && !(s.power.droop[k]).halving

/-- GOVERNOR_INTERVAL: a restraint level for each core, and ballast, for the next 40 ns. -/
def execGovernorInterval (s : State) : Out :=
  let b := s.ballastNext
  .next (({ s with fresh := s.fresh + 32 } : State).updPower fun p =>
    { p with restraint := vgen 128 fun i => Config.restraint s.fresh i % 4
             ballast := b, ballastRan := p.ballastRan || b != 0 })

/-- PCAP (R244, R246): the base and 50 W for every cluster under a live lease. -/
def Power.cap (p : Power) : Nat := p.pcap + 50 * popcount 32 p.sprinting.toNat

/-- A window of the cap of 2,500,000 ticks is over and has not been closed (R233). -/
def State.windowDue (s : State) : Bool := decide (s.power.windows < s.time.toNat / 2500000)

/-- The window closes: where ballast has run in it, the energy beyond the cap is added to CAPOVER and logged, and a new
base takes effect (R233, R244). -/
def State.closeWindow (s : State) : State :=
  let v := if s.power.ballastRan then Config.overCap s.fresh s.power.cap else 0
  let s' := s.draw.updPower fun p =>
    { p with capover := p.capover + BitVec.ofNat 64 v, pcap := p.pcapNext, windows := s.time.toNat / 2500000
             ballastRan := p.ballast != 0 }
  if v = 0 then s' else s'.logEvent 9 0 (BitVec.ofNat 64 v) 0 0 .cc

/-- POWER_CAP_WINDOW: a window that is over closes. Of a package that is up every turn begins with it, so that a base
sent after the boundary waits for the next one (R244). -/
def execPowerCapWindow (s : State) : Out := .next (if s.windowDue then s.closeWindow else s)

-- The store and the leases (R242-R250).

/-- A refreeze interval closes when its time has passed and the store has refrozen (R249). -/
def Power.closeRefreeze (p : Power) (t : Word) : Power :=
  match p.refreeze with
  | some e =>
    if e.toNat + 2500000 * p.refrz.toNat ≤ t.toNat ∧ p.frac.toNat < 0x2000 then
      { p with refreeze := none }
    else p
  | none => p

/-- TINFO of LEASE_REVOKED (R215). -/
def revokedInfo (id : Nat) (frac : BitVec 16) : Word := BitVec.ofNat 64 (frac.toNat * 2 ^ 32 + id)

/-- A period of 25,000 ticks is over whose reading of the store has not been taken (R242). -/
def State.readingDue (s : State) : Bool := decide (s.power.readings < s.time.toNat / 25000)

/-- A reading of the store is taken (R242, R248, R249): at SPLIM every live lease is revoked. -/
def State.readStore (s : State) (frac : BitVec 16) : State :=
  let s1 := s.updPower fun p => { p with frac, readings := s.time.toNat / 25000 }
  let s2 := if s1.power.splim.toNat ≤ frac.toNat then
      s1.power.leases.foldl (fun (s : State) l => s.endWithTrap l s.time 0x11 (revokedInfo l.id frac)) s1
    else s1.expireDue false
  s2.updPower fun p => p.closeRefreeze s.time

/-- MELT_UPDATE (R242, R248-R250): the reading of a period that is over. A lease end of an instant goes before its
requests: after a request, and after an expiry that a revocation of the instant would have gone before, the update comes
in the next instant. Of a package that is up, a reading that no turn has named is taken when it is due (log entry
22). -/
def execMeltUpdate (frac : BitVec 16) (s : State) : Out :=
  .next (if s.readingDue && !(s.servedAfter (-1)) && s.power.expiredAt != some s.time then s.readStore frac else s)

/-- LEASE_EXPIRY (R248): TIME has reached the lease's expiry. Every turn begins with what has come due. -/
def execLeaseExpiry (id : Nat) (s : State) : Out :=
  match s.power.leases.find? fun l => l.id == id && l.due s.time with
  | some l => .next ((s.endWithTrap l l.expiry 0x10 (BitVec.ofNat 64 id)).updPower fun p => p.noteExpiry l.expiry)
  | none => .next s

/-- A cluster's supply has risen to 760 mV, and its engines switch to divisor 3; a core in an exposed deterministic line
waits for its next line with FIRST (R246). -/
def State.switchCluster (s : State) (k : Nat) : State :=
  let bit := BitVec.ofNat 32 (2 ^ k)
  let s1 := s.updPower fun p => { p with switching := p.switching &&& ~~~bit, high := p.high ||| bit }
  { s1 with cores := vgen 128 fun i => if i / 4 = k then (s1.coreAt i).switchTo .d3 else s1.coreAt i }

/-- SPRINT_SWITCH (R246): the acting core's cluster switches, at some instant within 5 µs of its grant. -/
def execSprintSwitch (s : State) : Out :=
  .next (if s.power.switching.getLsbD s.cluster then s.switchCluster s.cluster else s)

/-- The clusters whose 5 µs since the grant are over have switched (R246, R393). -/
def State.switchDue (s : State) : State :=
  if s.power.switching = 0 then s
  else (List.range 32).foldl (fun (s : State) k =>
    if s.power.switching.getLsbD k && decide ((vget s.power.switchBy k 0).toNat ≤ s.time.toNat) then s.switchCluster k
    else s) s

-- The debug stop (R254, R255).

/-- DEBUG_STOP: an armed KIND 0 request has reached its cycle. The control thread's turn begins with it (R254). -/
def execDebugStop (s : State) : Out := .next (if s.core.stopDue then s.stopCore else s)

-- Page migration (R127, R128).

/-- The runs of physical memory that a frame takes (R119): first address and length. -/
def frameRuns (lpddr : Bool) (smask frame : Nat) : List (Nat × Nat) :=
  if lpddr then [(16 * 2 ^ 44 + frame * 65536, 65536)]
  else
    let n := 65536 / popcount 16 smask
    ((List.range 16).filter fun u => smask / 2 ^ u % 2 == 1).map fun u => (u * 2 ^ 44 + frame * n, n)

/-- The runs of physical memory that an entry of a buffer table names: its frame map and its present pages. -/
def State.entryRuns (s : State) (ctx : Fin 64) (entry : Nat) : List (Nat × Nat) :=
  match s.entryAddr ctx entry 0, s.tablePage ctx entry 0 with
  | some pa, some y =>
    if !(wordValid y.word2) then []
    else
      let n := ceilDiv y.len 65536
      ((s.gWord pa).toNat / 8 * 8, 8 * n) ::
      ((List.range n).map fun p => match s.tablePage ctx entry p with
        | some z =>
          if z.desc.getLsbD 63 then frameRuns (z.desc.getLsbD 62) (wordSmask z.word2) (z.desc.toNat % 2 ^ 40) else []
        | none => []).flatten
  | _, _ => []

/-- The physical memory in use: the buffer tables of the contexts, their frame maps and pages. -/
def State.usedRuns (s : State) : List (Nat × Nat) :=
  ((List.finRange 64).map fun c => match s.ctxs[c] with
    | some x => (x.table.toNat, 32 * x.size) :: ((List.range x.size).map (s.entryRuns c)).flatten
    | none => []).flatten

/-- A frame is free: no memory in use lies in it. -/
def State.frameFree (s : State) (lpddr : Bool) (smask frame : Nat) : Bool :=
  let used := s.usedRuns
  (frameRuns lpddr smask frame).all fun f => used.all fun u => decide (f.1 + f.2 ≤ u.1) || decide (u.1 + u.2 ≤ f.1)

/-- PAGE_MIGRATION: a present page of a tracked buffer moves to a free frame of the other tier, with its
contents, unless the buffer is pinned, which HOTSKIP counts, or held. What a graph walk may still find of its old bytes,
and its dead units, move with it; a page whose table words are poisoned does not move. -/
def execPageMigration (ctx : Fin 64) (entry page frame : Nat) (lpddr : Bool) (s : State) : Out :=
  match s.entryAddr ctx entry 0 with
  | none => .next s
  | some pa =>
    let w2 := s.gWord (pa + 16)
    let len := (s.gWord (pa + 8)).toNat % 2 ^ 48
    let at_ := (s.gWord pa).toNat / 8 * 8 + 8 * page
    let d := s.gWord at_
    if s.tableBad ctx entry page || !(wordValid w2) || wordTier w2 < 2 || len ≤ page * 65536 || !(d.getLsbD 63) ||
        d.getLsbD 62 == lpddr || 2 ^ 40 ≤ frame then .next s
    else if (wordRights w2).getLsbD 4 then
      .next (s.updPower fun p => { p with hotskip := p.hotskip + 1 })
    else if s.holdCount ctx entry ≠ 0 || !(s.frameFree lpddr (wordSmask w2) frame) then .next s
    else
      let d' := BitVec.ofNat 64 (2 ^ 63 + (if lpddr then 2 ^ 62 else 0) + frame)
      let map (x : Word) : Option (List Nat) :=
        ({ ctx, word2 := w2, len, pages := [(page, x)] } : Xlat).places (page * 65536) 65536
      match map d, map d' with
      | some old, some new =>
        let marks := old.zip new |>.filterMap fun a =>
          (smapGet s.gmem.bad (a.1 / 32)).map fun m => (a.2, m)
        let s1 := s.perform .g (new.zip (old.map (s.byteAt .g)))
        let s2 := marks.foldl (fun (s : State) x => s.setBad .g [x.1] x.2) s1
        let moved (m : Memory) : Memory := writeCells m (new.zip (old.map (readByte m)))
        let s2 : State := { s2 with
          cores := s2.cores.map fun c => { c with work := { c.work with cpOld := moved c.work.cpOld } }
          dead := s2.dead ++ ((old.zip new).filter fun a => a.2 % 2048 == 0 && s.dead.contains (a.1 / 2048)).map (·.2 / 2048) }
        .next (match s2.putWord at_ d' with
          | some s3 => s3.dropCached fun x => x.ctx == ctx && x.buf == entry && x.page == page
          | none => s)
      | _, _ => .next s

end Sys2Proof.Machine
end

