-- ==== Sys2Proof/Machine/Resolve.lean ====
section
/-! DEFINITION. MRESOLVE and the training of the predictor (R197-R209, R338). -/
namespace Sys2Proof.Machine

/-- The resolve descriptor (R206). -/
structure ResolveDesc where
  router : Nat
  miss : Nat
  sigs : Nat
  tbase : Nat
  t : Nat
  k : Nat
  pk : Nat
  /-- every other bit is zero and the fields are in range -/
  ok : Bool
  deriving DecidableEq, Repr

def resolveDesc (bytes : List Byte) : ResolveDesc :=
  let w (i : Nat) : Nat := leNat ((bytes.drop (8 * i)).take 8)
  let x := w 3
  let tbase := x % 2 ^ 16
  let t := x / 2 ^ 16 % 128
  let k := x / 2 ^ 24 % 8
  let pk := x / 2 ^ 28 % 8
  { router := w 0 % 2 ^ 22, miss := w 1 % 2 ^ 22, sigs := w 2 % 2 ^ 22, tbase, t, k, pk,
    ok := w 0 / 2 ^ 22 == 0 && w 1 / 2 ^ 22 == 0 && w 2 / 2 ^ 22 == 0 && x / 2 ^ 31 == 0 &&
      x / 2 ^ 23 % 2 == 0 && x / 2 ^ 27 % 2 == 0 && 1 ≤ t && t ≤ 64 && 1 ≤ k && k ≤ 4 && 1 ≤ pk &&
      pk ≤ 4 && tbase + t ≤ 65536 }

/-- The choices of one token: distinct expert ids in pair order, each with the gate of its first pair. -/
def choices (words : List Nat) : List (Nat × Nat) :=
  words.foldl (fun acc x =>
    let id := x % 2 ^ 12
    if id = 0xFFF || (acc.any fun c => c.1 == id) then acc else acc ++ [(id, x / 2 ^ 16 % 2 ^ 16)]) []

/-- The rows of an entry that belong to a token: (row, token). -/
def AccTag.rows (t : AccTag) : List (Nat × Nat) :=
  (List.range 64).filterMap fun r =>
    let x := (t.map.getD r 0xFFFF).toNat
    if x = 0xFFFF then none else some (r, x)

/-- Insertion by (id, entry). -/
def insertEntry (x : Nat × Nat) : List (Nat × Nat) → List (Nat × Nat)
  | [] => [x]
  | y :: ys => if x.1 < y.1 || (x.1 == y.1 && decide (x.2 ≤ y.2)) then x :: y :: ys else y :: insertEntry x ys

/-- One committed row (R207): A[o] + A[e] × gate, rounded once per element. -/
def commitRow (m : Matrix) (o orow e row gate : Nat) : Matrix :=
  let dst := m.entry o
  let src := m.entry e
  let g := fBF16.decode gate
  let out := (List.range 64).map fun c =>
    fF32.round .rne ((fF32.decode (entryElem dst 4 orow c)).add .rne
      ((fF32.decode (entryElem src 4 row c)).mul g))
  { m with amem := writeRun m.amem (entryBytes * o + 256 * orow) ((out.map (leBytes 4)).flatten) }

/-- The position of the first candidate with an id. -/
def candPos (l : List (BitVec 12 × BitVec 4)) (id : Nat) : Option Nat :=
  l.findIdx? fun c => c.1.toNat == id

/-- The candidate of lowest confidence, ties to the lower number. -/
def lowestPos (l : List (BitVec 12 × BitVec 4)) : Nat :=
  (l.zipIdx.foldl (fun acc c => if c.1.2.toNat < acc.1 then (c.1.2.toNat, c.2) else acc) (16, 0)).2

/-- Train (R207) on one token's signature and its chosen ids in pair order. -/
def Core.train (c : Core) (sig : Word) (chosen : List Nat) (pk : Nat) : Core :=
  let empty : Vector (BitVec 12 × BitVec 4) 4 := Vector.replicate 4 (0xFFF, 0)
  let cand := ((c.lookup sig).getD empty).toList
  let p := ((topIds (some ((c.lookup sig).getD empty)) pk).eraseDups).filter fun x => x != 0xFFF
  let lost := (p.filter fun x => !(chosen.contains x)).foldl (fun (l : List (BitVec 12 × BitVec 4)) x =>
    match candPos l x with
    | some i => l.modify i fun y => (y.1, BitVec.ofNat 4 (y.2.toNat - 1))
    | none => l) cand
  let gained := chosen.foldl (fun (l : List (BitVec 12 × BitVec 4)) x =>
    match candPos l x with
    | some i => l.modify i fun y => (y.1, BitVec.ofNat 4 (min 15 (y.2.toNat + 2)))
    | none => l.set (lowestPos l) (BitVec.ofNat 12 x, 8)) lost
  { c with garnet := smapPut c.garnet (sigEntry sig) { tag := sigTag sig, cand := vofList 4 gained (0xFFF, 0) } }

/-- The gate of a token for an expert, if it has chosen it and lies in the window. -/
def ResolveDesc.pick (d : ResolveDesc) (chosen : List (List (Nat × Nat))) (t id : Nat) : Option Nat :=
  if t < d.tbase then none else List.lookup id (chosen.getD (t - d.tbase) [])

/-- The rows of the tagged entries of a range in the order of R207: id, entry, row, token. -/
def Matrix.taggedRows (m : Matrix) (range : List Nat) : List (Nat × Nat × Nat × Nat) :=
  let order := (range.filter fun e => (m.tag e).mode != 0).foldl (fun acc e => insertEntry ((m.tag e).id, e) acc) []
  (order.map fun x => (m.tag x.2).rows.map fun r => (x.1, x.2, r.1, r.2)).flatten

/-- A row that the resolve reads, of a tagged entry or of the destination, holds a poisoned granule: rows are read where
they are confirmed (R131, R207). -/
def Matrix.resolvePoison (m : Matrix) (d : ResolveDesc) (range : List Nat) (o : Nat)
    (chosen : List (List (Nat × Nat))) : Bool :=
  (m.taggedRows range).any fun x => (d.pick chosen x.2.2.2 x.1).isSome &&
    (m.rowPoison x.2.1 x.2.2.1 || m.rowPoison o (x.2.2.2 - d.tbase))

/-- The effect of a resolve after its checks, but for the training of the predictor (R207). -/
def State.resolveEffect (s : State) (d : ResolveDesc) (range : List Nat) (o : Nat) (rec : Bool)
    (chosen : List (List (Nat × Nat))) : State :=
  let m := s.core.me
  let tagged := range.filter fun e => (m.tag e).mode != 0
  let pick := d.pick chosen
  let work := m.taggedRows range
  let m1 := work.foldl (fun (acc : Matrix) x =>
    match pick x.2.2.2 x.1 with
    | some g => commitRow acc o (x.2.2.2 - d.tbase) x.2.1 x.2.2.1 g
    | none => acc) m
  let confirmed := work.countP fun x => (pick x.2.2.2 x.1).isSome
  let disc := tagged.countP fun e => (m.tag e).mode == 1 && (m.tag e).poison.isSome
  let cnt (v : Vector (BitVec 32) 3) (i n : Nat) : Vector (BitVec 32) 3 :=
    vset v i (satAdd32 (vget v i 0) n)
  let s1 := s.updMe fun _ =>
    { m1 with
      spcnt := cnt (cnt (cnt m.spcnt 0 confirmed) 1 (work.length - confirmed)) 2 disc
      tags := range.foldl (fun t e => vset t e { vget t e AccTag.reset with mode := 0, poison := none }) m.tags }
  if rec then s1
  else
    let inTag (t id : Nat) : Bool := tagged.any fun e =>
      (m.tag e).id == id && (m.tag e).rows.any fun r => r.2 == t
    let misses := ((chosen.zipIdx).map fun x =>
      (x.1.filter fun c => !(inTag (d.tbase + x.2) c.1)).map fun c => d.tbase + x.2 + c.1 * 2 ^ 16).flatten
    s1.unitWrite d.miss ((misses.length :: misses).map (leBytes 4)).flatten

/-- One token trains the predictor in a turn of its own; the last completes the MRESOLVE (R200). -/
def State.trainOne (s : State) (x : Word × List Nat) (rest : List (Word × List Nat)) : EngRes :=
  let pk := match s.core.me.work with | some w => w.pk | none => 0
  let s' := s.upd fun c => c.train x.1 x.2 pk
  if rest.isEmpty then .done (s'.setWork none)
  else .more (s'.setWork (some { MeWork.none with train := rest, pk }))

/-- The training that an MRESOLVE has to make, token by token (R200, R207). -/
def State.startTraining (s : State) (d : ResolveDesc) (rec : Bool) (chosen : List (List (Nat × Nat)))
    (sigs : List Nat) : EngRes :=
  let l := if rec then [] else (sigs.zip chosen).map fun x => (BitVec.ofNat 64 x.1, x.2.map Prod.fst)
  if l.isEmpty then .done s else .more (s.setWork (some { MeWork.none with train := l, pk := d.pk }))

/-- SPEC_DEFERRED (R207): the lowest (id, entry, row) of a poisoned entry that is confirmed or chosen. -/
def Matrix.deferred (m : Matrix) (d : ResolveDesc) (range : List Nat) (chosen : List (List (Nat × Nat))) :
    Option Word :=
  let pick (t id : Nat) : Bool :=
    decide (d.tbase ≤ t) && (List.lookup id (chosen.getD (t - d.tbase) [])).isSome
  let order := (range.filter fun e => (m.tag e).mode != 0).foldl
    (fun acc e => insertEntry ((m.tag e).id, e) acc) []
  order.findSome? fun x =>
    let t := m.tag x.2
    match t.poison with
    | none => none
    | some code =>
      (t.rows.find? fun r => t.mode == 2 || pick r.2 t.id).map fun r =>
        BitVec.ofNat 64 (code % 256 + x.2 * 2 ^ 8 + r.2 * 2 ^ 16 + t.id * 2 ^ 32)

/-- MRESOLVE (R206-R208): its checks in order, each before any effect. -/
def execMresolve (f n o : Fin 64) (rec : Bool) (p : Fin 16) (b : LaneB) (s : State) : Out :=
  let training := match s.core.me.work with | some w => w.train | none => []
  engineOp .me (againB b (!training.isEmpty)) s fun c s =>
    let a := c.param p
    match training with
    | x :: rest => s.trainOne x rest
    | [] =>
    match unitFault a 32 32 with
    | some x => .trap x.1 x.2 s
    | none =>
      match s.unitBad a.toNat 32 with
      | some (x, _) => .trap 0x0D (infoLocal (BitVec.ofNat 64 x)) s
      | none =>
        let d := resolveDesc (readRun s.unit.mem a.toNat 32)
        if !d.ok then .trap 0x01 (illegalInfo 0x19 + BitVec.ofNat 64 (c.lane % 8)) s
        else
          let at_ (x : Nat) : Word := infoLocal (BitVec.ofNat 64 x)
          let rbytes := 16 * (d.t - 1) + 4 * d.k
          match [d.router, d.miss, d.sigs].find? fun x => x % 4 != 0 with
          | some x => .trap 0x03 (at_ x) s
          | none =>
            match [(d.router, rbytes), (d.miss, 4 + 4 * d.t * d.k), (d.sigs, 4 * d.t)].find? fun x =>
                decide (unitBytes < x.1 + x.2) with
            | some x => .trap 0x04 (at_ x.1) s
            | none =>
              if 64 < f.val + cnt64 n then .trap 0x04 (infoNum 63) s
              else if f.val ≤ o.val && o.val < f.val + cnt64 n then .trap 0x04 (infoNum o.val) s
              else match (match s.unitBad d.router rbytes with
                  | some x => some x
                  | none => s.unitBad d.sigs (4 * d.t)) with
                | some (x, _) => .trap 0x0D (at_ x) s
                | none =>
                  let word (x : Nat) : Nat := leNat (readRun s.unit.mem x 4)
                  let chosen := (List.range d.t).map fun t =>
                    choices ((List.range d.k).map fun i => word (d.router + 16 * t + 4 * i))
                  let sigs := (List.range d.t).map fun t => word (d.sigs + 4 * t)
                  let range := slotRange f n
                  match s.core.me.deferred d range chosen with
                  | some info => .trap 0x0C info s
                  | none =>
                    if s.core.me.resolvePoison d range o.val chosen then .trap 0x0D 0 s
                    else (s.resolveEffect d range o.val rec chosen).startTraining d rec chosen sigs

end Sys2Proof.Machine
end

