-- ==== Sys2Proof/Machine/Dispatch.lean ====
section
/-! DEFINITION. One arm per instruction: its meaning, or a refusal by name. -/
namespace Sys2Proof.Machine

def exec (i : Instr) (s : State) : Host.Outcome State Fault Refusal :=
  match i with
  | .deviceReset sigOk stack bank links melt => Sys2Proof.Machine.execDeviceReset sigOk stack bank links melt s
  | .launch ptr eight => Sys2Proof.Machine.execLaunch ptr eight s
  | .hostRegisterWrite off size v => Sys2Proof.Machine.execHostRegisterWrite off size v s
  | .mbrspRead => Sys2Proof.Machine.execMbrspRead s
  | .load parts => Sys2Proof.Machine.execLoad parts s
  | .ctxnew => Sys2Proof.Machine.execCtxnew s
  | .ctxfree => Sys2Proof.Machine.execCtxfree s
  | .qclear => Sys2Proof.Machine.execQclear s
  | .watchdog => Sys2Proof.Machine.execWatchdog s
  | .preempt => Sys2Proof.Machine.execPreempt s
  | .resume => Sys2Proof.Machine.execResume s
  | .token verified => Sys2Proof.Machine.execToken verified s
  | .stop => Sys2Proof.Machine.execStop s
  | .go => Sys2Proof.Machine.execGo s
  | .podcfg => Sys2Proof.Machine.execPodcfg s
  | .pcap => Sys2Proof.Machine.execPcap s
  | .spmax => Sys2Proof.Machine.execSpmax s
  | .logread => Sys2Proof.Machine.execLogread s
  | .corereset => Sys2Proof.Machine.execCorereset s
  | .hostBar2Read off len => Sys2Proof.Machine.execHostBar2Read off len s
  | .hostBar2Write off bytes => Sys2Proof.Machine.execHostBar2Write off bytes s
  | .hostFetchadd off v => Sys2Proof.Machine.execHostFetchadd off v s
  | .graphFetch => Sys2Proof.Machine.execGraphFetch s
  | .nodeHeadCheck q => Sys2Proof.Machine.execNodeHeadCheck q s
  | .dependenceRead q second => Sys2Proof.Machine.execDependenceRead q second s
  | .predicateRead q => Sys2Proof.Machine.execPredicateRead q s
  | .invocationStart => Sys2Proof.Machine.execInvocationStart s
  | .invocationEnd => Sys2Proof.Machine.execInvocationEnd s
  | .nodePost => Sys2Proof.Machine.execNodePost s
  | .nodeWatchdog q => Sys2Proof.Machine.execNodeWatchdog q s
  | .fetchLine => Sys2Proof.Machine.execFetchLine s
  | .lineDrain => Sys2Proof.Machine.execLineDrain s
  | .trapEntry => Sys2Proof.Machine.execTrapEntry s
  | .copyBegin ch => Sys2Proof.Machine.execCopyBegin ch s
  | .copyComplete ch => Sys2Proof.Machine.execCopyComplete ch s
  | .copyFreeze e ch => Sys2Proof.Machine.execCopyFreeze e ch s
  | .pageMigration ctx entry page frame lpddr => Sys2Proof.Machine.execPageMigration ctx entry page frame lpddr s
  | .mmaCommit => Sys2Proof.Machine.execMmaCommit s
  | .ladderReplay => Sys2Proof.Machine.execLadderReplay s
  | .afaddRunApply part => Sys2Proof.Machine.execAfaddRunApply part s
  | .flitReceive link crcOk retrainOk flit => Sys2Proof.Machine.execFlitReceive link crcOk retrainOk flit s
  | .lsendArrival k => Sys2Proof.Machine.execLsendArrival k s
  | .lredArrival part => Sys2Proof.Machine.execLredArrival part s
  | .leCompletion k => Sys2Proof.Machine.execLeCompletion k s
  | .podBarrierComplete b => Sys2Proof.Machine.execPodBarrierComplete b s
  | .podRelease b cluster => Sys2Proof.Machine.execPodRelease b cluster s
  | .droopAlarm => Sys2Proof.Machine.execDroopAlarm s
  | .droopStretchEnd => Sys2Proof.Machine.execDroopStretchEnd s
  | .droopHalvingEnd => Sys2Proof.Machine.execDroopHalvingEnd s
  | .laneGroupGate g => Sys2Proof.Machine.execLaneGroupGate g s
  | .governorInterval => Sys2Proof.Machine.execGovernorInterval s
  | .powerCapWindow => Sys2Proof.Machine.execPowerCapWindow s
  | .meltUpdate frac => Sys2Proof.Machine.execMeltUpdate frac s
  | .leaseExpiry id => Sys2Proof.Machine.execLeaseExpiry id s
  | .sprintSwitch => Sys2Proof.Machine.execSprintSwitch s
  | .debugStop => Sys2Proof.Machine.execDebugStop s
  | .add d a b => Sys2Proof.Machine.execAdd d a b s
  | .sub d a b => Sys2Proof.Machine.execSub d a b s
  | .mul d a b => Sys2Proof.Machine.execMul d a b s
  | .mulh d a b => Sys2Proof.Machine.execMulh d a b s
  | .div d a b => Sys2Proof.Machine.execDiv d a b s
  | .rem d a b => Sys2Proof.Machine.execRem d a b s
  | .and d a b => Sys2Proof.Machine.execAnd d a b s
  | .or d a b => Sys2Proof.Machine.execOr d a b s
  | .xor d a b => Sys2Proof.Machine.execXor d a b s
  | .shl d a b => Sys2Proof.Machine.execShl d a b s
  | .shr d a b => Sys2Proof.Machine.execShr d a b s
  | .sra d a b => Sys2Proof.Machine.execSra d a b s
  | .clz d a => Sys2Proof.Machine.execClz d a s
  | .popc d a => Sys2Proof.Machine.execPopc d a s
  | .mov d a => Sys2Proof.Machine.execMov d a s
  | .sel d a b k inv => Sys2Proof.Machine.execSel d a b k inv s
  | .cmp c d a b => Sys2Proof.Machine.execCmp c d a b s
  | .addi d a imm => Sys2Proof.Machine.execAddi d a imm s
  | .andi d a imm => Sys2Proof.Machine.execAndi d a imm s
  | .ori d a imm => Sys2Proof.Machine.execOri d a imm s
  | .xori d a imm => Sys2Proof.Machine.execXori d a imm s
  | .cmpi c d a imm => Sys2Proof.Machine.execCmpi c d a imm s
  | .shlImm d a amt => Sys2Proof.Machine.execShlImm d a amt s
  | .shrImm d a amt => Sys2Proof.Machine.execShrImm d a amt s
  | .sraImm d a amt => Sys2Proof.Machine.execSraImm d a amt s
  | .movi d imm => Sys2Proof.Machine.execMovi d imm s
  | .movhi d imm pos => Sys2Proof.Machine.execMovhi d imm pos s
  | .wid d f => Sys2Proof.Machine.execWid d f s
  | .srd d reg => Sys2Proof.Machine.execSrd d reg s
  | .swr a reg => Sys2Proof.Machine.execSwr a reg s
  | .time d => Sys2Proof.Machine.execTime d s
  | .sprint d mask micros => Sys2Proof.Machine.execSprint d mask micros s
  | .sprel a => Sys2Proof.Machine.execSprel a s
  | .br c disp => Sys2Proof.Machine.execBr c disp s
  | .jmp disp => Sys2Proof.Machine.execJmp disp s
  | .call disp => Sys2Proof.Machine.execCall disp s
  | .ret => Sys2Proof.Machine.execRet s
  | .loop count len => Sys2Proof.Machine.execLoop count len s
  | .guard k a => Sys2Proof.Machine.execGuard k a s
  | .fork mask => Sys2Proof.Machine.execFork mask s
  | .join mask => Sys2Proof.Machine.execJoin mask s
  | .trap code => Sys2Proof.Machine.execTrap code s
  | .eret => Sys2Proof.Machine.execEret s
  | .brk num => Sys2Proof.Machine.execBrk num s
  | .clkdiv e v => Sys2Proof.Machine.execClkdiv e v s
  | .pset e p a => Sys2Proof.Machine.execPset e p a s
  | .btset d entry value w => Sys2Proof.Machine.execBtset d entry value w s
  | .btswap d e1 e2 => Sys2Proof.Machine.execBtswap d e1 e2 s
  | .dead d addr len => Sys2Proof.Machine.execDead d addr len s
  | .ldu w d base off cls => Sys2Proof.Machine.execLdu w d base off cls s
  | .stu w data base off cls => Sys2Proof.Machine.execStu w data base off cls s
  | .ldk w d base off cls => Sys2Proof.Machine.execLdk w d base off cls s
  | .stk w data base off cls => Sys2Proof.Machine.execStk w data base off cls s
  | .ldn w d base off cls => Sys2Proof.Machine.execLdn w d base off cls s
  | .stn w data base off cls => Sys2Proof.Machine.execStn w data base off cls s
  | .ldd w d base off cls => Sys2Proof.Machine.execLdd w d base off cls s
  | .std w data base off cls => Sys2Proof.Machine.execStd w data base off cls s
  | .ldg w d base off cls => Sys2Proof.Machine.execLdg w d base off cls s
  | .stg w data base off cls => Sys2Proof.Machine.execStg w data base off cls s
  | .aadd sp dbl sc data base cls => Sys2Proof.Machine.execAadd sp dbl sc data base cls s
  | .acas sp dbl sc data base cmp cls => Sys2Proof.Machine.execAcas sp dbl sc data base cmp cls s
  | .axch sp dbl sc data base cls => Sys2Proof.Machine.execAxch sp dbl sc data base cls s
  | .amax kind sp dbl sc data base cls => Sys2Proof.Machine.execAmax kind sp dbl sc data base cls s
  | .afadd sp dbl sc data base cls => Sys2Proof.Machine.execAfadd sp dbl sc data base cls s
  | .scld sp w d base => Sys2Proof.Machine.execScld sp w d base s
  | .scst sp w data base => Sys2Proof.Machine.execScst sp w data base s
  | .cfence sc mask => Sys2Proof.Machine.execCfence sc mask s
  | .qfence mask => Sys2Proof.Machine.execQfence mask s
  | .drain sp => Sys2Proof.Machine.execDrain sp s
  | .cwait addr target => Sys2Proof.Machine.execCwait addr target s
  | .ctrinit addr value => Sys2Proof.Machine.execCtrinit addr value s
  | .arrive die b mask => Sys2Proof.Machine.execArrive die b mask s
  | .await die b mask => Sys2Proof.Machine.execAwait die b mask s
  | .qpush q core addr => Sys2Proof.Machine.execQpush q core addr s
  | .sta addr data mask => Sys2Proof.Machine.execSta addr data mask s
  | .ctset t w a => Sys2Proof.Machine.execCtset t w a s
  | .xpred d sig k => Sys2Proof.Machine.execXpred d sig k s
  | .xput sig value => Sys2Proof.Machine.execXput sig value s
  | .xget d sig => Sys2Proof.Machine.execXget d sig s
  | .tkpushWrite a => Sys2Proof.Machine.execTkpushWrite a s
  | .tkpopWrite a => Sys2Proof.Machine.execTkpopWrite a s
  | .rqrelRetry a => Sys2Proof.Machine.execRqrelRetry a s
  | .rqrelRelease a => Sys2Proof.Machine.execRqrelRelease a s
  | .mclaim s0 n b => Sys2Proof.Machine.execMclaim s0 n b s
  | .mrel s0 n b => Sys2Proof.Machine.execMrel s0 n b s
  | .mzero e n b => Sys2Proof.Machine.execMzero e n b s
  | .mfill s0 p b => Sys2Proof.Machine.execMfill s0 p b s
  | .mwb e p b => Sys2Proof.Machine.execMwb e p b s
  | .mnest level f v b => Sys2Proof.Machine.execMnest level f v b s
  | .msca dst part n g p k b => Sys2Proof.Machine.execMsca dst part n g p k b s
  | .mma f e sa sb g b => Sys2Proof.Machine.execMma f e sa sb g b s
  | .mgo f c sa sb q b => Sys2Proof.Machine.execMgo f c sa sb q b s
  | .mmaLad f e sa sb b => Sys2Proof.Machine.execMmaLad f e sa sb b s
  | .mladr s0 lad roleB p klen b => Sys2Proof.Machine.execMladr s0 lad roleB p klen b s
  | .mmon f v b => Sys2Proof.Machine.execMmon f v b s
  | .mspec t b => Sys2Proof.Machine.execMspec t b s
  | .mresolve f n o noTrain p b => Sys2Proof.Machine.execMresolve f n o noTrain p b s
  | .vadd v b => Sys2Proof.Machine.execVadd v b s
  | .vsub v b => Sys2Proof.Machine.execVsub v b s
  | .vmul v b => Sys2Proof.Machine.execVmul v b s
  | .vfma v b => Sys2Proof.Machine.execVfma v b s
  | .vmin v b => Sys2Proof.Machine.execVmin v b s
  | .vmax v b => Sys2Proof.Machine.execVmax v b s
  | .vabs v b => Sys2Proof.Machine.execVabs v b s
  | .vneg v b => Sys2Proof.Machine.execVneg v b s
  | .vrcp v b => Sys2Proof.Machine.execVrcp v b s
  | .vrsq v b => Sys2Proof.Machine.execVrsq v b s
  | .vexp2 v b => Sys2Proof.Machine.execVexp2 v b s
  | .vlog2 v b => Sys2Proof.Machine.execVlog2 v b s
  | .vcvt dst rnd v b => Sys2Proof.Machine.execVcvt dst rnd v b s
  | .vcmp c ty mask md va vb b => Sys2Proof.Machine.execVcmp c ty mask md va vb b s
  | .vsel v b => Sys2Proof.Machine.execVsel v b s
  | .vand v b => Sys2Proof.Machine.execVand v b s
  | .vor v b => Sys2Proof.Machine.execVor v b s
  | .vxor v b => Sys2Proof.Machine.execVxor v b s
  | .vshl v b => Sys2Proof.Machine.execVshl v b s
  | .vshr arith v b => Sys2Proof.Machine.execVshr arith v b s
  | .vred op rnd v b => Sys2Proof.Machine.execVred op rnd v b s
  | .vperm v b => Sys2Proof.Machine.execVperm v b s
  | .vbcast lane v b => Sys2Proof.Machine.execVbcast lane v b s
  | .viota ty mask vd b => Sys2Proof.Machine.execViota ty mask vd b s
  | .vmovi ty mask vd imm b => Sys2Proof.Machine.execVmovi ty mask vd imm b s
  | .vldu v b => Sys2Proof.Machine.execVldu v b s
  | .vstu v b => Sys2Proof.Machine.execVstu v b s
  | .vldk v b => Sys2Proof.Machine.execVldk v b s
  | .vstk v b => Sys2Proof.Machine.execVstk v b s
  | .vldd v b => Sys2Proof.Machine.execVldd v b s
  | .vstd v b => Sys2Proof.Machine.execVstd v b s
  | .vstn v b => Sys2Proof.Machine.execVstn v b s
  | .vldg vx v b => Sys2Proof.Machine.execVldg vx v b s
  | .vgrow n8 b => Sys2Proof.Machine.execVgrow n8 b s
  | .vshrink n8 b => Sys2Proof.Machine.execVshrink n8 b s
  | .vrdacc int mask vd e row b => Sys2Proof.Machine.execVrdacc int mask vd e row b s
  | .ccopy t spec post p b => Sys2Proof.Machine.execCcopy t spec post p b s
  | .cfill sp len pat addr b => Sys2Proof.Machine.execCfill sp len pat addr b s
  | .cpost v c b => Sys2Proof.Machine.execCpost v c b s
  | .cqnt s0 b => Sys2Proof.Machine.execCqnt s0 b s
  | .cmov src dst len s0 d b => Sys2Proof.Machine.execCmov src dst len s0 d b s
  | .gcsr s0 n f p b => Sys2Proof.Machine.execGcsr s0 n f p b s
  | .gmap s0 p1 p2 b => Sys2Proof.Machine.execGmap s0 p1 p2 b s
  | .grows n d s0 x len b => Sys2Proof.Machine.execGrows n d s0 x len b s
  | .gscat n d s0 x len b => Sys2Proof.Machine.execGscat n d s0 x len b s
  | .lsend d s0 pk c len b => Sys2Proof.Machine.execLsend d s0 pk c len b s
  | .lred half d s0 pk c expect len b => Sys2Proof.Machine.execLred half d s0 pk c expect len b s
  | .lbar bar b => Sys2Proof.Machine.execLbar bar b s
  | .accessPerformed k => Sys2Proof.Machine.execAccessPerformed k s
  | .fillComplete e => Sys2Proof.Machine.execFillComplete e s
  | .droopRearm => Sys2Proof.Machine.execDroopRearm s

end Sys2Proof.Machine
end

