-- ==== Sys2Proof/Machine/Late.lean ====
section
/-! DEFINITION. Results of the control thread that arrive late: loads and atomics that nothing orders (R143, R152, R156,
R390, R391; log entry 81), reads of registers outside the core (R352), and sprint requests (R245, R393; log entry 83). -/
namespace Sys2Proof.Machine

-- What a lane reads and what it gives.

/-- The operands that an instruction reads. -/
def operandsOf : Instr → List Opnd
  | .add _ a b | .sub _ a b | .mul _ a b | .mulh _ a b | .div _ a b | .rem _ a b | .and _ a b | .or _ a b
  | .xor _ a b | .shl _ a b | .shr _ a b | .sra _ a b | .sel _ a b _ _ | .cmp _ _ a b | .sprint _ a b
  | .btset _ a b _ | .btswap _ a b | .dead _ a b | .stu _ a b _ _ | .stk _ a b _ _ | .stn _ a b _ _ | .std _ a b _ _
  | .stg _ a b _ _ | .aadd _ _ _ a b _ | .axch _ _ _ a b _ | .amax _ _ _ _ a b _ | .afadd _ _ _ a b _ | .scst _ _ a b
  | .cwait a b | .ctrinit a b | .qpush _ a b | .sta a b _ | .xput a b => [a, b]
  | .acas _ _ _ a b c _ => [a, b, c]
  | .clz _ a | .popc _ a | .mov _ a | .addi _ a _ | .andi _ a _ | .ori _ a _ | .xori _ a _ | .cmpi _ _ a _
  | .shlImm _ a _ | .shrImm _ a _ | .sraImm _ a _ | .swr a _ | .sprel a | .br a _ | .loop a _ | .guard _ a | .pset _ _ a
  | .ldu _ _ a _ _ | .ldk _ _ a _ _ | .ldn _ _ a _ _ | .ldd _ _ a _ _ | .ldg _ _ a _ _ | .scld _ _ _ a | .ctset _ _ a
  | .xpred _ a _ | .xget _ a | .tkpushWrite a | .tkpopWrite a | .rqrelRetry a | .rqrelRelease a => [a]
  | .movhi d _ _ => [.n d]
  | .ret => [.n 15]
  | _ => []

/-- The results of an instruction, in the order in which they take positions of the result queue (R76). -/
def destsOf : Instr → List Dest
  | .add d _ _ | .sub d _ _ | .mul d _ _ | .mulh d _ _ | .div d _ _ | .rem d _ _ | .and d _ _ | .or d _ _ | .xor d _ _
  | .shl d _ _ | .shr d _ _ | .sra d _ _ | .sel d _ _ _ _ | .cmp _ d _ _ | .clz d _ | .popc d _ | .mov d _ | .addi d _ _
  | .andi d _ _ | .ori d _ _ | .xori d _ _ | .cmpi _ d _ _ | .shlImm d _ _ | .shrImm d _ _ | .sraImm d _ _ | .movi d _
  | .wid d _ | .srd d _ | .sprint d _ _ | .btset d _ _ _ | .btswap d _ _ | .dead d _ _ | .ldu _ d _ _ _ | .ldk _ d _ _ _
  | .ldn _ d _ _ _ | .ldd _ d _ _ _ | .ldg _ d _ _ _ | .scld _ _ d _ | .xpred d _ _ | .xget d _ => [d]
  | .movhi d _ _ => [.n d]
  | .time d => [d, .push]
  | .aadd .. | .acas .. | .axch .. | .amax .. | .afadd .. => [.push]
  | _ => []

-- What may be late.

/-- Registers whose reads come from outside the core (R352). -/
def readOutside (n : Nat) : Bool := outsideCore n || n == 0x150 || n == 0x172

/-- The access of the acting core's thread at an address, where it is translated. -/
def State.accessAt (s : State) (sp : Space) (k : GKind) (a : Word) (n : Nat) (cls : Fin 16) : Option Access :=
  match s.resolve sp k a n with
  | .ok (loc, as) => some { cls, space := sp, addr := a, loc, bytes := as, hold := none }
  | .error _ => none

/-- An atomic that may be performed later: none on a counter, whose trap depends on its old value (R120). -/
def State.lateAtomic (s : State) (sp : XSpace) (dbl : Bool) (op : AtomicOp) (data base : Opnd) (cls : Fin 16) :
    Option (LateOp × Dest) :=
  let a := s.operand base
  if sp == .g && s.isCounter a then none
  else (s.accessAt (xspace sp) (match op with | .add => .aadd dbl | _ => .rmw) a (if dbl then 8 else 4) cls).map fun x =>
    (.atomic x op (lowBits dbl (s.operand data)), .push)

/-- What a lane may leave to come: a load, an atomic, a read of a register outside the core, or a sprint request, with the
place of its result. -/
def State.lateOf (s : State) (i : Instr) : Option (LateOp × Dest) :=
  let load (sp : Space) (w : Width) (d : Dest) (base : Opnd) (off : BitVec 10) (cls : Fin 16) : Option (LateOp × Dest) :=
    (s.accessAt sp .load (effective sp (s.operand base) off w).1 (widthBytes w) cls).map fun x => (.load x, d)
  match i with
  | .ldu w d b o c => load .u w d b o c
  | .ldk w d b o c => load .k w d b o c
  | .ldn w d b o c => load .n w d b o c
  | .ldd w d b o c => load .d w d b o c
  | .ldg w d b o c => load .g w d b o c
  | .aadd sp dbl _ v b c => s.lateAtomic sp dbl .add v b c
  | .acas sp dbl _ v b m c => s.lateAtomic sp dbl (.cas (lowBits dbl (s.operand m))) v b c
  | .axch sp dbl _ v b c => s.lateAtomic sp dbl .xch v b c
  | .amax k sp dbl _ v b c => s.lateAtomic sp dbl (.max k) v b c
  | .afadd sp dbl _ v b c => s.lateAtomic sp dbl .fadd v b c
  | .srd d reg => if readOutside reg.toNat then some (.srd reg.toNat (s.core.cycles + 60), d) else none
  | .sprint d m us => some (.sprint (s.operand m) (s.operand us) (s.time + 400), d)
  | _ => none

/-- A load gives a value at once, which may still change; the others give none before they are performed. -/
def LateOp.isLoad : LateOp → Bool
  | .load _ => true
  | .atomic .. | .srd .. | .sprint .. | .arrived _ => false

def LateOp.access : LateOp → Option Access
  | .load x | .atomic x _ _ => some x
  | .srd .. | .sprint .. | .arrived _ => none

/-- Two places share an aligned word (R142). -/
def Access.meets (x : Access) (loc : Loc) (as : List Nat) : Bool :=
  x.loc == loc && as.any fun a => x.bytes.any fun b => b / 4 == a / 4

/-- Two accesses share an aligned word. -/
def LateOp.meets (x y : LateOp) : Bool :=
  match x.access, y.access with
  | some u, some v => u.meets v.loc v.bytes
  | _, _ => false

-- When it must be performed.

/-- The operand holds the result. -/
def Late.usedBy (o : Late) : Opnd → Bool
  | .n i => o.named == some i
  | .q i => o.pos == i.val

/-- The words that an instruction reads or writes in one step of its own: an atomic, a CWAIT, a CTRINIT or a QPUSH. -/
def State.wordsOf (s : State) (i : Instr) : Option (Loc × List Nat) :=
  match i with
  | .cwait a _ | .ctrinit a _ => (s.accessAt .g .counter (s.operand a) 8 0).map fun x => (x.loc, x.bytes)
  | .qpush _ _ a => (s.localAddr .u (s.operand a) 128).map fun l => (l.1, (List.range 128).map (l.2 + ·))
  | .aadd sp dbl _ _ b _ | .acas sp dbl _ _ b _ _ | .axch sp dbl _ _ b _ | .amax _ sp dbl _ _ b _ | .afadd sp dbl _ _ b _ =>
    (s.accessAt (xspace sp) .rmw (s.operand b) (if dbl then 8 else 4) 0).map fun x => (x.loc, x.bytes)
  | _ => none

/-- An instruction comes after an access that is not performed: an access of its class and space (R143), a load of a word
that the access writes (R142), a fence or an arrival with its class in the mask (R144, R154), an SC access (R147), and
for an access of the unit pad a token push (R151). No other instruction does (R391): a copy does when it begins (R152). -/
def State.goesAfter (s : State) (x : LateOp) (i : Instr) : Bool :=
  match x.access with
  | none => false
  | some y =>
    let same (sp : Space) (cls : Fin 16) : Bool := cls == y.cls && sp == y.space
    match i with
    | .stu _ _ _ _ c => same .u c
    | .stk _ _ _ _ c => same .k c
    | .stn _ _ _ _ c => same .n c
    | .std _ _ _ _ c => same .d c
    | .stg _ _ _ _ c => same .g c
    | .cfence _ m | .arrive _ _ m => m.getLsbD y.cls.val
    | .scld .. | .scst .. => true
    | .tkpushWrite _ => y.space == .u
    | i => (match s.lateOf i with
      | some (z, _) => (match z.access with
        | some w => same w.space w.cls || (z.isLoad && !x.isLoad && x.meets z)
        | none => false)
      | none => false)

/-- An instruction goes after a result: it uses it, it comes after its access, it is an access to a word that the result
is of, or it is the ERET of its handler (R213). -/
def State.closes (s : State) (i : Instr) (o : Late) : Bool :=
  (operandsOf i).any o.usedBy || s.goesAfter o.op i || (match i with | .eret => true | _ => false)

/-- A late access to a word. -/
def Late.touches (o : Late) (w : Loc × List Nat) : Bool :=
  match o.op.access with
  | some x => x.meets w.1 w.2
  | none => false

/-- The words that the load at the head of the VE queue reads (R142). -/
def State.veWords (s : State) : Option (Loc × List Nat) :=
  let local_ (sp : Space) (v : VMem) (c : Capture) : Option (Loc × List Nat) :=
    match vecAddr sp v c s with
    | .ok (loc, o) => some (loc, ((s.core.vec.active v.mask).map (laneBytes o (tyBits v.ty / 8))).flatten)
    | .error _ => none
  match (s.core.queue .ve).entries with
  | .instr i c :: _ =>
    if !c.guard then none
    else match i with
      | .vldu v _ => local_ .u v c
      | .vldk v _ => local_ .k v c
      | .vldd v _ => local_ .d v c
      | .vldg vx v _ => some (.g, gatherBytes ((s.core.vec.active v.mask).map fun l =>
          s.gatherPlaces c.ctx (c.param v.p) (s.core.vec.lane vx.val l).toNat (tyBits v.ty / 8)))
      | _ => none
  | _ => none

/-- The copy that a channel would begin comes after an access: its STA did, and its mask holds the class (R152). -/
def Channel.comesAfter (c : Channel) (o : Late) : Bool :=
  match c.waiting, o.op.access with
  | k :: _, some x => decide (o.stas ≤ k.num) && k.cls.getLsbD x.cls.val
  | _, _ => false

/-- Its time has come (R245, R352). -/
def Late.due (o : Late) (c : Core) (t : Word) : Bool :=
  match o.op with
  | .srd _ b => decide (b ≤ c.cycles)
  | .sprint _ _ b => decide (b.toNat ≤ t.toNat)
  | .load _ | .atomic .. | .arrived _ => false

/-- A request that must wait for the next instant, since one of a higher core has been served in this one (R250). -/
def State.mustWait (s : State) (o : Late) : Bool :=
  match o.op with
  | .sprint .. => s.servedAfter s.cur.val
  | .load _ | .atomic .. | .srd .. | .arrived _ => false

/-- The results of a list that a test names, with the accesses that go before them: those of the words that a later one
reads (R142). -/
def lateUpTo (test : Late → Bool) : List Late → List Late
  | [] => []
  | x :: r =>
    let l := lateUpTo test r
    if test x || l.any fun y => x.op.meets y.op then x :: l else l

-- Performing.

/-- The result arrives. -/
def State.putResult (s : State) (o : Late) (v : Word) : State :=
  s.updRegs fun r =>
    { r with
      q := if o.pos < 16 then vset r.q o.pos v else r.q
      n := match o.named with | some i => r.n.set i v | none => r.n }

/-- A load takes what its bytes hold now. Loads after it that share a word with it have no older value: they take theirs
anew and stay open (R142). -/
def State.takeLoad (s : State) (o : Late) (x : Access) : State :=
  let put (s : State) (o : Late) (x : Access) : State :=
    let s' := s.settleRead (fun _ => false) x.loc x.bytes
    s'.putResult o (BitVec.ofNat 64 (leNat (x.bytes.map (s'.threadByte x.loc))))
  (s.core.opened.dropWhile (· != o)).tail.foldl (fun (s : State) y => match y.op with
    | .load z => if x.meets z.loc z.bytes && (s.threadBad z.loc z.bytes).isNone then put s y z else s
    | .atomic .. | .srd .. | .sprint .. | .arrived _ => s) (put s o x)

/-- An atomic reads and writes (R156, R291): its result, and the state after. Over a granule that has become bad since it
was issued it is not performed, and the refused store is logged; its result is what the bytes hold (log entry 81). -/
def State.takeAtomic (s : State) (x : Access) (op : AtomicOp) (data : Nat) : Word × State :=
  let old := leNat (x.bytes.map (s.threadByte x.loc))
  (BitVec.ofNat 64 old,
   match s.threadBad x.loc x.bytes with
   | some (pa, _) => s.logEvent 3 (spaceCode x.space) x.addr pa s.core.ctx .cc
   | none =>
     let s1 := s.settle false x.cls x.space x.loc x.bytes
     match op.new (x.bytes.length == 8) old data with
     | some v => s1.perform x.loc (cellsAt x.bytes v x.bytes.length)
     | none => s1)

/-- What is late takes place: the value that arrives, and the state after. A load has one already. -/
def State.takeLate (s : State) (op : LateOp) : Option (Word × State) :=
  match op with
  | .load _ => none
  | .atomic x f data => some (s.takeAtomic x f data)
  | .srd reg _ => some (s.sysRead reg, s.sysClear reg)
  | .sprint m us _ => some (s.answerSprint m us)
  | .arrived v => some (v, s)

/-- A result is there for good: a load has what it gave when it issued or what its bytes hold now, by a free choice, and
the others take place. The hold ends. -/
def State.closeLate (s : State) (o : Late) : State :=
  let s' := match s.takeLate o.op, o.op.access with
    | some r, _ => r.2.putResult o r.1
    | none, some x =>
      if !(Config.copyChoice s.fresh) || (s.threadBad x.loc x.bytes).isSome then s.draw else s.draw.takeLoad o x
    | none, none => s
  s'.dropHolds o.hold.toList

/-- Results of some kind arrive, oldest first. -/
def State.closeLates (s : State) (which : Late → Bool) : State :=
  if s.core.opened.isEmpty then s
  else
    let out := lateUpTo (fun o => which o && !(s.mustWait o)) s.core.opened
    (out.foldl State.closeLate s).upd fun c => { c with opened := c.opened.filter fun o => !(out.contains o) }

/-- What comes due while a debugger has stopped the core takes place, and its value is held back (R245, R255, R352). -/
def State.holdDue (s : State) : State :=
  s.core.opened.foldl (fun (s : State) o =>
    if !(o.due s.core s.time) || s.mustWait o then s
    else match s.takeLate o.op with
      | some r => r.2.upd fun c =>
          { c with opened := c.opened.map fun x => if x = o then { o with op := .arrived r.1 } else x }
      | none => s) s

/-- Any result may arrive before any turn, as free choices say; one whose time has come does. -/
def State.closeSome (s : State) : State :=
  s.core.opened.foldl (fun (s : State) o =>
    if o.due s.core s.time || Config.copyChoice s.fresh then s.draw.closeLates (· == o) else s.draw) s

-- A lane.

/-- A result joins the queue: those that are late age, and one whose named register takes it is left in the queue
alone. -/
def Late.after (o : Late) (d : Dest) : Late :=
  match d with
  | .push => { o with pos := o.pos + 1 }
  | .n i => { o with pos := o.pos + 1, named := if o.named = some i then none else o.named }

/-- What an instruction does to a late result of an earlier lane: CALL writes n15 beside the queue (R78). -/
def Late.afterLane (o : Late) (i : Instr) : Late :=
  match i with
  | .call _ => { o with named := if o.named = some 15 then none else o.named }
  | i => (destsOf i).foldl Late.after o

/-- The state in which a lane has left a result to come. An access of G holds its buffer until it is performed (R123,
R326). -/
def State.open_ (s : State) (op : LateOp) (d : Dest) : State :=
  let named : Option (Fin 16) := match d with | .n i => some i | .push => none
  let put (op : LateOp) (s : State) : State := s.upd fun c => { c with opened := c.opened ++ [{ op, named, pos := 0, stas := c.cpy.staSeq }] }
  let held (x : Access) : Access := if x.space = .g then { x with hold := some s.nextHold } else x
  let hold (x : Access) : State := if x.space = .g then s.addHold s.core.ctx (x.addr.toNat / 2 ^ 48) false else s
  match op with
  | .load x => put (.load (held x)) (hold x)
  | .atomic x f v => put (.atomic (held x) f v) (hold x)
  | .srd reg b => put (.srd reg b) s
  | .sprint m us b => put (.sprint m us b) s
  | .arrived v => put (.arrived v) s

/-- The lane in progress has been executed: the next one is in turn. -/
def State.laneDone (s t : State) : Bool := t.core.fetch.lane == s.core.fetch.lane + 1

/-- What a lane that has executed does to late results: those of earlier lanes age, and a load of its own may still take a
newer value. A lane of a deterministic line leaves nothing to come (R253). -/
def State.noteLate (s t : State) (i : Instr) : State :=
  let age (t : State) : State := t.upd fun c => { c with opened := c.opened.map fun o => o.afterLane i }
  if s.core.opened.isEmpty && (s.core.deterministic || (s.lateOf i).isNone) then t
  else match i with
    | .call _ => age t
    | i =>
      if !(s.laneDone t) then t
      else match (if s.core.deterministic then none else s.lateOf i) with
        | some (op, d) => if op.isLoad then (age t).open_ op d else age t
        | none => age t

/-- Instructions whose whole effect may be late. -/
def canLeave : Instr → Bool
  | .aadd .. | .acas .. | .axch .. | .amax .. | .afadd .. | .srd .. | .sprint .. => true
  | _ => false

/-- An atomic, a read of a register outside the core, or a sprint request is left to come, where its lane would execute
without a trap or a wait: it has a place in the queue and no value yet. None where the instruction is of no such kind. -/
def State.leave (s t : State) (i : Instr) : Option State :=
  if s.core.deterministic || !(s.laneDone t) then none
  else (s.lateOf i).map fun x =>
    ((s.advance.setDest x.2 0).upd fun c =>
      { c with opened := c.opened.map fun o => o.afterLane i }).open_ x.1 x.2

/-- The late results at words that an instruction reads or writes at once are there before it. -/
def State.wordsFirst (s : State) (i : Instr) : State :=
  if s.core.opened.isEmpty then s
  else match s.wordsOf i with
    | some w => s.closeLates fun o => o.touches w
    | none => s

end Sys2Proof.Machine
end

