-- ==== Sys2Proof/Machine/Schedule.lean ====
section
/-! DEFINITION. Whose turn it is: the turn at the head of the list, or, when none is waiting, a fixed choice
among what the acting core has to do (log entry 5); what goes before every turn: time (log entry 6), what has come due
by then, the loads that its lane does not leave open, and the cell errors that it meets (R18, R51, R130, R131, R233,
R239, R242, R244, R248, R254, R353, R360, R391); and which instructions are events. -/
namespace Sys2Proof.Machine

/-- Rows of the opcode table that are events, not words of a program. -/
def isEvent : Instr → Bool
  | .deviceReset .. | .launch .. | .hostRegisterWrite .. | .mbrspRead | .load .. | .ctxnew | .ctxfree
  | .qclear | .watchdog | .preempt | .resume | .token .. | .stop | .go | .podcfg | .pcap | .spmax
  | .logread | .corereset | .hostBar2Read .. | .hostBar2Write .. | .hostFetchadd .. | .graphFetch
  | .nodeHeadCheck .. | .dependenceRead .. | .predicateRead .. | .invocationStart | .invocationEnd
  | .nodePost | .nodeWatchdog .. | .fetchLine | .lineDrain | .trapEntry | .copyBegin ..
  | .copyComplete .. | .copyFreeze .. | .pageMigration .. | .mmaCommit | .ladderReplay
  | .afaddRunApply .. | .flitReceive .. | .lsendArrival .. | .lredArrival .. | .leCompletion ..
  | .podBarrierComplete .. | .podRelease .. | .droopAlarm | .droopStretchEnd | .droopHalvingEnd
  | .laneGroupGate .. | .governorInterval | .powerCapWindow | .meltUpdate .. | .leaseExpiry ..
  | .sprintSwitch | .debugStop | .accessPerformed .. | .fillComplete .. | .droopRearm => true
  | _ => false

/-- Events of the acting core itself, which a stopped core does not make (R214, R255). -/
def isCoreEvent : Instr → Bool
  | .graphFetch | .nodeHeadCheck .. | .dependenceRead .. | .predicateRead .. | .invocationStart
  | .invocationEnd | .nodePost | .fetchLine | .lineDrain | .trapEntry | .copyBegin ..
  | .copyComplete .. | .copyFreeze .. | .mmaCommit | .ladderReplay | .leCompletion ..
  | .laneGroupGate .. | .debugStop | .fillComplete .. => true
  | _ => false

/-- Events that the host makes over the PCI Express link (R258-R263). -/
def isHostEvent : Instr → Bool
  | .launch .. | .hostRegisterWrite .. | .mbrspRead | .hostBar2Read .. | .hostBar2Write .. | .hostFetchadd .. => true
  | _ => false

/-- Commands of the mailbox, which the management core carries out (R263). -/
def isCommand : Instr → Bool
  | .load .. | .ctxnew | .ctxfree | .qclear | .watchdog | .token .. | .stop | .go | .podcfg | .pcap | .spmax
  | .logread | .corereset => true
  | _ => false

/-- The core has stopped: a double fault, or a debug stop. -/
def Core.halted (c : Core) : Bool := c.work.stopped || c.work.run == .doubleFault

/-- A trap that the control thread takes before its next lane (R214). -/
def Core.trapDue (c : Core) : Bool := !c.trap.inh && c.nextTrap.isSome

-- The default choice.

def onlyIf (b : Bool) (a : Act) : List Act := if b then [a] else []

/-- What the machinery of the acting core could do next. -/
def State.background (s : State) : List Act :=
  let c := s.core
  let w := c.work
  let heads := (List.range 4).map fun i =>
    let q : Fin 4 := Fin.ofNat 4 i
    let x := c.cmdq i
    if x.nodes.isEmpty || x.head.held.isSome then []
    else if !x.head.checked then [Act.event (.nodeHeadCheck q)]
    else if !x.head.dep0 then [Act.event (.dependenceRead q false)]
    else if !x.head.dep1 then [Act.event (.dependenceRead q true)]
    else onlyIf (!x.head.ready) (.event (.predicateRead q))
  let chans := (List.range 9).map fun i =>
    let ch : Fin 9 := Fin.ofNat 9 i
    let x := vget c.cpy.channels i { cur := none, waiting := [] }
    match x.cur with
    | some r =>
      if r.err.isSome then onlyIf r.froze.isNone (.event (.copyFreeze .ce ch)) else [Act.event (.copyComplete ch)]
    | none => onlyIf (!x.waiting.isEmpty) (.event (.copyBegin ch))
  onlyIf (s.power.switching.getLsbD s.cluster) (.event .sprintSwitch) ++
  onlyIf (!c.pend.isEmpty) (.event (.accessPerformed 0)) ++
  (engines.map fun e =>
    let q := c.queue e
    onlyIf (!q.entries.isEmpty && q.phase != .busy && !(c.engHeld e)) (.engine e)).flatten ++
  chans.flatten ++ (c.cpy.errs.map fun x => Act.event (.copyFreeze x.1 0)) ++
  (c.cpy.fills.map fun x => Act.event (.fillComplete x.1)) ++
  (match c.me.work with
   | some m => onlyIf m.tile.isSome (.event .mmaCommit) ++
       onlyIf (m.tile.isNone && !m.replays.isEmpty) (.event .ladderReplay)
   | none => []) ++
  ((List.range c.cpy.le.length).map fun k => Act.event (.leCompletion k)) ++
  (match s.links.inbox with
   | m :: _ => [Act.event (if m.isRed then .lredArrival ⟨0, none⟩ else .lsendArrival 0)]
   | [] => []) ++
  heads.flatten ++
  onlyIf (w.cpState == .running && decide ((c.cmdq 0).nodes.length < 16)) (.event .graphFetch) ++
  onlyIf (w.run == .idle && (w.cur.isSome || s.nextQueue.isSome)) (.event .invocationStart) ++
  onlyIf (w.posts.any s.postReady || (w.run == .idle && w.cur.isNone && s.nextQueue.isSome))
    (.event .nodePost) ++
  (s.runs.zipIdx.filterMap fun r =>
    if !r.1.applied && r.1.mask &&& ~~~r.1.ended == 0 then some (Act.event (.afaddRunApply ⟨r.2, none⟩)) else none)

/-- The turn to come, and the state without it: the list's head; else the machinery and the control thread
of one core in alternation, core after core. -/
def State.takeTurn (s : State) : Turn × State :=
  match s.turns with
  | t :: ts => (t, { s with turns := ts })
  | [] =>
    let core : Fin 128 := if s.steps % 32 = 31 then Fin.ofNat 128 (s.cur.val + 1) else s.cur
    let b := ({ s with cur := core } : State).background
    ({ core, act := if s.steps % 2 = 0 then .lane else (b[s.steps / 2 % b.length]?).getD .lane, cell := none
       fill := none }, s)

-- What goes before a turn.

/-- CYC of a core after n of its cycles: frozen and stopped cycles, and the wheel wait of R148, do not
count; nor do handler cycles count for an armed stop, and none goes by beyond the cycle it names (R254). All its cycles
count for the writes on their way to registers outside it (R353). -/
def Core.tick (c : Core) (n : Nat) : Core :=
  let c := { c with cycles := c.cycles + n }
  if c.frozen || c.halted || c.fetch.wheelWait then c
  else
    let n := match c.stopIn with | some k => min n k | none => n
    { c with
      regs := { c.regs with cyc := c.regs.cyc + BitVec.ofNat 64 n }
      work := if c.trap.inh then
          { c.work with dbgFrom := c.work.dbgFrom.map (· + BitVec.ofNat 64 n) }
        else c.work }

-- Cell errors (R130, R131).

/-- A place of global memory that is named by an address of a context, as memory; none where the address is not
translated. -/
def State.cellPlace (s : State) : CellAt → Option CellAt
  | .buf ctx a => (s.loaderPlaces ctx a 1).bind List.head? |>.map (.mem .g)
  | x => some x

/-- Whether a granule is in a bad state already, or in a dead unit: its reads meet no new error (R129, R131). -/
def State.cellBad (s : State) : CellAt → Bool
  | .mem l a => (s.firstBad l [a]).isSome || (l == .g && s.dead.contains (a / 2048))
  | .operand c g => (s.coreAt c).me.obad.contains g
  | .acc c g => (s.coreAt c).me.abad.contains g
  | .vreg c g => (s.coreAt c).vec.vbad.contains g
  | .buf .. => true

/-- A granule is poisoned (R131). -/
def State.poisonCell (s : State) : CellAt → State
  | .mem l a => s.setBad l [a] none
  | .operand c g => s.updAt c fun k => { k with me := { k.me with obad := g :: k.me.obad } }
  | .acc c g => s.updAt c fun k => { k with me := { k.me with abad := g :: k.me.abad } }
  | .vreg c g => s.updAt c fun k => { k with vec := { k.vec with vbad := g :: k.vec.vbad } }
  | .buf .. => s

/-- The space and the address of a granule in the log: operand memory, accumulator memory and vector registers follow
the five spaces (log entry 69). A place of a buffer is logged by its global address (R133). -/
def CellAt.logged : CellAt → Nat × Word
  | .mem (.u _) a => (spaceCode .u, BitVec.ofNat 64 a)
  | .mem (.k _) a => (spaceCode .k, BitVec.ofNat 64 a)
  | .mem (.d _) a => (spaceCode .d, BitVec.ofNat 64 a)
  | .mem .g a => (spaceCode .g, BitVec.ofNat 64 a)
  | .buf _ a => (spaceCode .g, a)
  | .operand _ g => (5, BitVec.ofNat 64 (8 * g))
  | .acc _ g => (6, BitVec.ofNat 64 (8 * g))
  | .vreg _ g => (7, BitVec.ofNat 64 (8 * g))

/-- The physical address of a granule in the log: that of a buffer's place, else its address (R133). -/
def CellAt.physical : CellAt → Nat
  | .mem _ a => a
  | .operand _ g | .acc _ g | .vreg _ g => 8 * g
  | .buf .. => 0

/-- Who makes the reads of a turn (R133): the core, 128 for the host and the management core; the engine; and the
context. A message's reads are its sender's. -/
def State.requester (s : State) (a : Act) : Nat × Eng × Fin 64 :=
  let mine (e : Eng) : Nat × Eng × Fin 64 := (s.cur.val, e, s.core.ctx)
  let sender (k : Nat) : Nat × Eng × Fin 64 := match s.links.inbox[k]? with
    | some m => (m.core, .le, m.ctx)
    | none => mine .le
  match a with
  | .lane => mine .cc
  | .engine e => mine e
  | .land .. | .look _ => mine .ce
  | .outside _ => (128, .cc, s.host.lctx)
  | .event i =>
    match i with
    | .copyBegin _ | .copyComplete _ => mine .ce
    | .copyFreeze e _ | .fillComplete e => mine e
    | .mmaCommit | .ladderReplay => mine .me
    | .leCompletion _ => mine .le
    | .lsendArrival k => sender k
    | .lredArrival p => sender p.i
    | i => if isHostEvent i || isCommand i then (128, .cc, s.host.lctx) else mine .cc

/-- The cell error that a turn's reads meet (R130, R131): it is logged as corrected, as transient or as lasting, and a
lasting one poisons its granule before the turn reads it. -/
def State.cellError (s : State) (t : Turn) : State :=
  match t.cell with
  | none => s
  | some (k, named) =>
    match s.cellPlace named with
    | none => s
    | some at_ =>
      if s.cellBad at_ then s
      else
        let x := named.logged
        let by_ := s.requester t.act
        let ctx : Fin 64 := match named with | .buf c _ => c | _ => by_.2.2
        let log (kind : Nat) (s : State) : State := s.logFor by_.1 kind x.1 x.2 at_.physical ctx by_.2.1
        match k with
        | .corrected => log 0 s
        | .transient => log 1 s
        | .lasting => log 2 (s.poisonCell at_)

-- Time, and what has come due.

/-- A turn that takes a reading of the store itself (R242). -/
def Act.revokes : Act → Bool
  | .event (.meltUpdate _) => true
  | .event _ | .lane | .engine _ | .outside _ | .land .. | .look _ => false

/-- A turn that closes a window of the cap itself (R233). -/
def Act.closes : Act → Bool
  | .event .powerCapWindow => true
  | .event _ | .lane | .engine _ | .outside _ | .land .. | .look _ => false

/-- Time has passed and the turn's core is the acting core (R18, R239, R360). -/
def State.pass (s : State) (core : Fin 128) : State :=
  ({ s with
    cur := core, steps := s.steps + 1, time := s.time + BitVec.ofNat 64 (Config.elapsed s.steps) } :
    State).upd fun c => c.tick (Config.cycles s.steps)

/-- A package that is up takes the reading of a period that is over, where the turn is not that of a reading (R242). What
it finds is open (log entry 22). A revocation goes before the expiries of its instant (R250). -/
def State.takeReading (s : State) (a : Act) : State :=
  if s.host.ready && !a.revokes && s.readingDue && !(s.servedAfter (-1)) && s.power.expiredAt != some s.time then
    (s.expireDue true).draw.readStore (Config.melted s.fresh)
  else s

/-- A window of the cap that is over closes before anything of the next one happens (R233, R244). -/
def State.windowEnd (s : State) (a : Act) : State :=
  if s.host.ready && !a.closes && s.windowDue then s.closeWindow else s

/-- What the acting core has on its way: writes to registers outside it (R353), lease traps (R248), the tokens of a VLDG
that has been served (R151), and a pre-emption that waits (R51). -/
def State.settleCore (s : State) : State :=
  let s1 := s.landWrites s.core.outWrites.length
  let s2 := s1.landTraps s1.core.leaseTraps.length
  let s3 := if s2.core.halted || s2.core.frozen || s2.core.vec.owed.isEmpty then s2 else s2.pushOwed
  if s3.core.work.preempt.isSome then s3.tryPreempt else s3

-- Late results (R142, R143, R152, R391, R393; log entries 81 and 83).

/-- The control thread takes no trap in reaching a state, and goes on. -/
def State.quiet (s : State) : Out → Bool
  | .next t => t.core.trap.inh == s.core.trap.inh && t.core.work.run == s.core.work.run
  | .fault _ | .refused _ => false

/-- The control thread's turn takes a trap, drains, or ends the invocation: everything late is there first. -/
def State.laneEnds (s : State) : Bool :=
  let f := s.core.fetch
  if s.core.halted then false
  else if s.core.trapDue || s.core.work.run != .running then true
  else if f.draining then !(s.quiet (execLineDrain s))
  else if !f.opened || 8 ≤ f.lane then !(s.quiet (execFetchLine s))
  else match s.laneTurn with
    | .skip => false
    | .pair e a b => (match decodeInLine s.core.deterministic e a b with
      | .ok i => !(s.quiet (routeLane e i s))
      | .error _ => true)
    | .cc w => (match decodeCC w with
      | .error _ => true
      | .ok i => !(s.quiet (exec i s)))

/-- A result is there before the lane in turn. -/
def State.laneCloses (s : State) (o : Late) : Bool :=
  if s.core.halted || s.core.fetch.draining || !s.core.fetch.opened || 8 ≤ s.core.fetch.lane then false
  else match s.laneTurn with
    | .skip | .pair .. => false
    | .cc w => (match decodeCC w with
      | .error _ => false
      | .ok i => s.closes i o)

/-- The results that are there before a turn. Engines, copies, the memory system and other cores leave them open, but for a
copy that comes after them, and a load of the VE from their words. -/
def State.turnCloses (s : State) (a : Act) (o : Late) : Bool :=
  !s.core.halted &&
  (match a with
   | .lane => s.laneCloses o
   | .event i => (match i with
     | .trapEntry | .invocationStart | .invocationEnd => true
     | .copyBegin ch => (vget s.core.cpy.channels ch Channel.none).comesAfter o
     | _ => false)
   | .engine .ve => (match s.veWords with | some w => o.touches w | none => false)
   | .engine _ | .outside _ | .land .. | .look _ => false)

/-- A turn before which everything late is there. -/
def State.turnEnds (s : State) (a : Act) : Bool :=
  match a with
  | .lane => s.laneEnds
  | .event .fetchLine => !(s.quiet (execFetchLine s))
  | .event .lineDrain => !(s.quiet (execLineDrain s))
  | .event _ | .engine _ | .outside _ | .land .. | .look _ => false

/-- A turn waits for a result that is not there (R250). -/
def State.waitsLate (s : State) (a : Act) : Bool :=
  !s.core.opened.isEmpty && (s.core.opened.any (s.turnCloses a) || s.turnEnds a)

/-- The results that must be there before a turn are: some that may be, then those that the turn goes after. -/
def State.settleLate (s : State) (a : Act) : State :=
  if s.core.opened.isEmpty then s
  else
    let s1 := if s.core.halted then s.holdDue else s.closeSome
    let s2 := s1.closeLates (s1.turnCloses a)
    if s2.turnEnds a then s2.closeLates fun _ => true else s2

/-- The state in which a turn acts: what has come due by then has happened. -/
def State.begin (s : State) (t : Turn) : State :=
  let s1 := ((s.pass t.core).takeReading t.act).windowEnd t.act
  let s2 := ((s1.expireDue t.act.revokes).switchDue).settleCore
  let s3 := (match t.fill with | some f => s2.fillCache f | none => s2).cellError t
  let s4 := s3.settleLate t.act
  if s4.core.stopDue then s4.stopCore else s4

/-- What the outside does (R255, R258, R259): the host reaches the package over its link alone. -/
def outsideStep (o : Outside) (s : State) : Out :=
  .next (match o with
    | .bar0Read off size => if s.host.linked then s.bar0Read off size else s
    | .atomicOp => if s.host.linked then s.complete false [] else s
    | .debug a => s.debugged a
    | .view v => s.viewed v)

-- Reading that goes on while others write (R195, R329).

/-- What the head entry of the GE or the LE reads of the unit pad when it starts: a GMAP its map, an LSEND or LRED its
payload. -/
def State.readsAt (e : Eng) (i : Instr) (c : Capture) : Option (List Nat) :=
  let n (len : Fin 4096) : Nat := (if len.val = 0 then 4096 else len.val) * 64
  match e, i with
  | .ge, .gmap _ p _ _ => some ((List.range 80).map ((c.param p).toNat + ·))
  | .le, .lsend _ src _ _ len _ | .le, .lred _ _ src _ _ _ len _ => some ((List.range (n len)).map ((c.param src).toNat + ·))
  | _, _ => none

/-- The start of such an entry may take several turns, as free choices say: what a turn reads is joined, word by word, to
what earlier ones have read, so that every value of a word in between may be the one that is taken (R195, R329). Answers
whether the turn has only read. An entry that could not start, a range that is bad or outside the pad, and a
deterministic line (R253) have no such turn. -/
def State.beginRead (s : State) (e : Eng) (i : Instr) (c : Capture) : State × Bool :=
  match State.readsAt e i c with
  | none => (s, false)
  | some as =>
    let pop := match LaneB.of i with | some b => b.pop | none => 0
    if !c.guard || c.lmode == 3 || s.core.engHeld e || !(s.core.eng.canPop e pop) ||
        (as.any fun a => decide (unitBytes ≤ a)) || (s.coreBad (.u s.cur) as).isSome then (s, false)
    else if Config.copyChoice s.fresh then
      let r := s.draw.seenMix e false (as.map (s.coreByte (.u s.cur)))
      ((r.2.seenDone e).updCpy fun k => { k with seen := k.seen ++ [(e, r.1)] }, true)
    else (s.draw, false)

end Sys2Proof.Machine
end

