-- ==== Sys2Proof/Machine/Step.lean ====
section
/-! DEFINITION. One step of the package: a turn is taken, time passes, and the turn's core acts. -/
namespace Sys2Proof.Machine

/-- A control-core instruction executes, after the late results at its own words; a load of it may still take a newer
value later (R391, log entry 81). -/
def execNow (i : Instr) (s : State) : Out :=
  let s' := s.wordsFirst i
  match exec i s' with
  | .next t => .next (s'.noteLate t i)
  | .fault f => .fault f
  | .refused r => .refused r

/-- A control-core instruction in its lane: it executes, or, where the spec lets its result come later, it may be left to
come, as a free choice says (R245, R352, R391, R393; log entries 81 and 83). -/
def execLane (i : Instr) (s : State) : Out :=
  if !(canLeave i) then execNow i s
  else match exec i s with
    | .next t =>
      (match s.leave t i with
       | some u => if Config.copyChoice s.fresh then .next u.draw else execNow i s.draw
       | none => execNow i s)
    | .fault f => .fault f
    | .refused r => .refused r

/-- The lane in turn is decoded: a control-core instruction executes, an engine pair is routed, and what is no
instruction raises ILLEGAL (R57, R69). In an exposed region it may come late (R77, R85, R223). -/
def laneStep (s : State) : Out :=
  match s.laneTurn with
  | .skip => .next s.advance
  | .cc w =>
    (match decodeCC w with
     | .ok i => execLane i s.lateLane
     | .error r => illegalLane r s.lateLane)
  | .pair e a b =>
    match decodeInLine s.core.deterministic e a b with
    | .ok i => routeLane e i s.lateLane
    | .error r => illegalLane r s.lateLane

/-- The control thread's turn: a pending trap goes first (R214), then the drain, the fetch of a line, or the
lane in turn. A core without a control thread does nothing. -/
def controlStep (s : State) : Out :=
  let f := s.core.fetch
  if s.core.halted then .next s
  else match s.core.work.run with
    | .running =>
      if s.core.trapDue then exec .trapEntry s
      else if f.draining then exec .lineDrain s
      else if !f.opened || 8 ≤ f.lane then exec .fetchLine s
      else laneStep s
    | .ending => if s.core.trapDue then exec .trapEntry s else exec .invocationEnd s
    | .idle | .doubleFault => .next s

/-- An engine's turn: its head entry, or the rest of its tokens; in an exposed region the entry may come late (R85,
R150, R223, R301). A map or a payload may be read over several turns, and a map fill reads its source while it is in
progress (R195, R329). -/
def engineStep (e : Eng) (s : State) : Out :=
  if s.core.halted || s.core.frozen then .next s
  else
    let q := s.core.queue e
    match q.entries, q.phase with
    | [], _ => .next s
    | .fence f :: _, _ => .next ((s.lateEntry e).fenceTurn f)
    | .instr _ _ :: _, .pushing m => .next ((s.pushHead e m).passFence e)
    | .instr _ _ :: _, .busy => .next ((s.lateEntry e).lookAgain e)
    | .instr i c :: _, .ready =>
      let r := (s.lateEntry e).beginRead e i c
      if r.2 then .next r.1 else exec i r.1

/-- An event's turn: an event of a stopped core does not happen, nor one of a host whose link did not train (R25), and no
instruction of a program is an event, so that a turn which names one does nothing. -/
def eventStep (i : Instr) (s : State) : Out :=
  if !(isEvent i) then .next s
  else if (isCoreEvent i && s.core.halted) || (isHostEvent i && !s.host.linked) then .next s
  else exec i s

/-- A turn acts, unless it waits for a result that is late. -/
def actStep (a : Act) (s : State) : Out :=
  if s.waitsLate a then .next s
  else match a with
  | .event i => eventStep i s
  | .lane => controlStep s
  | .engine e => engineStep e s
  | .outside o => outsideStep o s
  | .land ch i => .next (if s.core.halted then s else s.landElem ch i)
  | .look ch => .next (if s.core.halted then s else s.lookCopy ch)

def step (s : State) : Host.Outcome State Fault Refusal :=
  let t := s.takeTurn
  actStep t.1.act (t.2.begin t.1)

/-- The header of a line of mode 00 with FIRST whose lane 1 holds a control-core word, or lanes 1 and 2 an
engine pair, and nothing else (R53, R54). -/
def fetchHeader (pair : Bool) : Nat := if pair then 0xFFFFFE14 else 0xFFFFFF04

/-- The host's fetch (fixed name): the word stands in lane 1 of the line at the acting core's fetch address,
that line is open and the control thread runs, and the turn is its own. -/
def State.withFetchWord (s : State) (nbits w : Nat) : State :=
  let line := s.core.fetch.line.toNat / 32 * 32
  let s1 : State :=
    { s with
      code := writeBytes s.code line
        (leBytes 4 (fetchHeader (32 < nbits)) ++ leBytes 28 w)
      turns := [{ core := s.cur, act := .lane, cell := none, fill := none }] }
  s1.upd fun c =>
    { c with
      fetch := { c.fetch with line := BitVec.ofNat 64 line, lane := 1, opened := true, draining := false,
                              lmode := 0 }
      trap := { c.trap with pending := [] }
      work := { c.work with run := .running, stopped := false, dbg := none } }

end Sys2Proof.Machine
end

