-- ==== Sys2Proof/Safety.lean ====
section
/-! DEFINITION. The terms in which claims are stated: what a step leaves alone, what a completed lane and a
performed engine entry look like, the canonical form of memory, and a run that meets no fault. -/
namespace Sys2Proof.Machine

-- Places.

/-- The package has the pad (R114). -/
def Loc.valid : Loc → Bool
  | .u c => decide (c < 128)
  | .k c => decide (c < 32)
  | .d c => decide (c < 2)
  | .g => true

-- Frames.

/-- t differs from s in the acting core only. -/
def OnlyCore (s t : State) : Prop :=
  { t with cores := s.cores } = s ∧ ∀ i : Fin 128, i ≠ s.cur → t.cores[i] = s.cores[i]

/-- t differs from s in registers and fetch position of the acting core only. -/
def OnlyRegs (s t : State) : Prop :=
  OnlyCore s t ∧ { t.core with regs := s.core.regs, fetch := s.core.fetch } = s.core

/-- The registers of the acting core are as they were. -/
def SameRegs (s t : State) : Prop := t.core.regs = s.core.regs

/-- Every byte of every space has the performed value it had. -/
def SameMemory (s t : State) : Prop := ∀ (l : Loc) (a : Nat), t.byteAt l a = s.byteAt l a

-- The end of a control-core lane.

/-- The control thread goes on with the next lane of its line. -/
def NextLane (s t : State) : Prop :=
  t.core.fetch = { s.core.fetch with lane := s.core.fetch.lane + 1, stalled := false, waited := false, moved := 0 }

/-- v has gone to a destination (R59, R76): it is q0, every queue entry has aged by one, a named register
holds it, and no other register of the thread has changed. -/
def Delivers (s t : State) (d : Dest) (v : Word) : Prop :=
  (∀ i : Fin 16, t.core.regs.n[i] = if d = .n i then v else s.core.regs.n[i]) ∧
  (∀ i : Fin 16, t.core.regs.q[i] = if i = 0 then v else s.core.regs.q[i - 1]) ∧
  { t.core.regs with n := s.core.regs.n, q := s.core.regs.q } = s.core.regs

/-- The instruction completes with one result, and changes nothing else (R59). -/
def Results (i : Instr) (s : State) (d : Dest) (v : Word) : Prop :=
  ∃ t, exec i s = .next t ∧ OnlyRegs s t ∧ NextLane s t ∧ Delivers s t d v

-- Traps.

/-- A trap can be taken: there is a handler and none is running (R214). -/
def CanTrap (s : State) : Prop := s.core.trap.tvb ≠ 0 ∧ s.core.trap.inh = false

/-- The core stands at the entry of its handler for this trap (R211): TPC, TCODE and TINFO name it, the
queue, the nest position and the loop state are saved, the mode is supervisor, engines are inactive, no loop is
active, and fetch is at TVB. -/
def Trapped (s t : State) (code : Nat) (info : Word) (e : Eng) (line : Word) (lane : Nat) : Prop :=
  t.core.trap.tcode = BitVec.ofNat 64 code ∧ t.core.trap.tinfo = info ∧
  t.core.trap.tpc = BitVec.ofNat 64 (line.toNat / 32 * 32 + lane % 8 * 4) ∧
  t.core.trap.inh = true ∧ t.core.trap.abort = false ∧ t.core.trap.eng = e ∧
  t.core.trap.frz = (code != 0x18) ∧ t.core.trap.psup = s.core.regs.sup ∧
  t.core.trap.tq = s.core.regs.q ∧ t.core.trap.tloop = (loopRegs s.core.fetch.loops).1 ∧
  t.core.trap.tlbody = (loopRegs s.core.fetch.loops).2 ∧ t.core.trap.nest = nestRegs s.core.me ∧
  t.core.regs = { s.core.regs with sup := true } ∧
  t.core.eng.active = 0 ∧ t.core.fetch.loops = [] ∧
  t.core.fetch.line = s.core.trap.tvb ∧ t.core.fetch.lane = 1 ∧ t.core.fetch.opened = false

/-- The instruction ends in a trap that names its own lane, changing no memory (R210, R211). -/
def TrapsHere (i : Instr) (s : State) (code : Nat) (info : Word) : Prop :=
  ∃ t, exec i s = .next t ∧ OnlyCore s t ∧
    Trapped s t code info .cc s.core.fetch.line s.core.fetch.lane

-- Engine entries.

/-- An entry of engine e stands at the head of its queue and can perform: it is not nullified, its pops can
be taken, and nothing holds the engine (R49, R57, R80). -/
def AtHead (s : State) (e : Eng) (b : LaneB) (i : Instr) (c : Capture) : Prop :=
  (s.core.queue e).entries.head? = some (.instr i c) ∧ (s.core.queue e).phase = .ready ∧
  (s.core.queue e).step = 0 ∧ s.core.engHeld e = false ∧ s.core.eng.canPop e b.pop = true ∧
  c.guard = true

/-- The entry performs with the effect w: its pops are taken, and it goes on to its pushes (R49). -/
def Performs (i : Instr) (s : State) (e : Eng) (b : LaneB) (w : State) : Prop :=
  exec i s = .next ((w.popHead e b.pop).pushHead e b.push)

/-- The entry has started and waits for the event that completes it; its pops are taken. -/
def Starts (i : Instr) (s : State) (e : Eng) (b : LaneB) (w : State) : Prop :=
  exec i s = .next ((w.popHead e b.pop).updEng fun g =>
    g.setQueue e { vget g.queues e.num EngQ.empty with phase := .busy, stalls := false })

/-- w differs from s in the matrix engine of the acting core only. -/
def OnlyMe (s w : State) : Prop := w = s.updMe fun _ => w.core.me

/-- w differs from s in the vector registers of the acting core only. -/
def OnlyVec (s w : State) : Prop := w = s.updVec fun _ => w.core.vec

/-- The entry raises a trap, which waits for the control thread; it stays at the head, takes no token, and stalls no
more (R210, R214). -/
def EngTraps (i : Instr) (s : State) (e : Eng) (code : Nat) (info : Word) : Prop :=
  exec i s = .next ((s.updEng fun g => g.goesOn e).pendTrap { code, info, eng := e })

/-- A vector instruction that uses lanes `use` of the registers can perform: its register fields lie below the
allotment, no parked element holds it up, and it neither reads a poisoned granule nor writes a part of one (R131,
R132, R219, R221). -/
def VecReady (s : State) (b : LaneB) (i : Instr) (c : Capture) (fields : List (Fin 256)) (use : VUse) : Prop :=
  AtHead s .ve b i c ∧ (∀ r ∈ fields, r.val < s.core.vec.vallot) ∧ use.held s.core.vec = false ∧
  (∀ x ∈ use.reads, s.core.vec.poisoned x.1 x.2 = false) ∧ ∀ x ∈ use.writes, s.core.vec.refuses x.1 x.2 = false

/-- What R219 and R221 look at in a vector instruction: its register fields with their numbers (vd 0, va 1, vb 2, vc 3),
in that order, the lanes that it reads and writes and whether it waits for every parked element, and the fault of its
address. -/
structure VFrame where
  fields : List (Nat × Nat)
  use : Vec → VUse
  bad : Capture → State → Option (Nat × Word)

/-- The frame of an instruction without an address. -/
def VFrame.plain (fields : List (Nat × Nat)) (use : Vec → VUse) : VFrame := { fields, use, bad := fun _ _ => none }

def v2Frame (v : V2) : VFrame := .plain [(0, v.vd.val), (1, v.va.val)] (onLanes v.mask [v.va.val] (some v.vd.val))
def v3Frame (v : V3) : VFrame :=
  .plain [(0, v.vd.val), (1, v.va.val), (2, v.vb.val)] (onLanes v.mask [v.va.val, v.vb.val] (some v.vd.val))
def v4Frame (v : V4) : VFrame :=
  .plain [(0, v.vd.val), (1, v.va.val), (2, v.vb.val), (3, v.vc.val)]
    (onLanes v.mask [v.va.val, v.vb.val, v.vc.val] (some v.vd.val))
def loadFrame (sp : Space) (v : VMem) : VFrame :=
  { fields := [(0, v.v.val)], use := onLanes v.mask [] (some v.v.val), bad := vecPre sp v }
def storeFrame (sp : Space) (v : VMem) : VFrame :=
  { fields := [(0, v.v.val)], use := onLanes v.mask [v.v.val] none, bad := vecPre sp v }

/-- The frame of every vector instruction that names a register (R65, R362-R385); none for any other. -/
def vecFrame : Instr → Option VFrame
  | .vadd v _ | .vsub v _ | .vmul v _ | .vmin v _ | .vmax v _ | .vand v _ | .vor v _ | .vxor v _ | .vshl v _
  | .vshr _ v _ => some (v3Frame v)
  | .vfma v _ | .vsel v _ => some (v4Frame v)
  | .vabs v _ | .vneg v _ | .vrcp v _ | .vrsq v _ | .vexp2 v _ | .vlog2 v _ | .vcvt _ _ v _ => some (v2Frame v)
  | .vcmp _ _ mask _ va vb _ => some (.plain [(1, va.val), (2, vb.val)] (onLanes mask [va.val, vb.val] none))
  | .vred _ _ v _ => some (.plain [(0, v.vd.val), (1, v.va.val)]
      fun x => { onLanes v.mask [v.va.val] none x with writes := [(v.vd.val, List.range 64)] })
  | .vperm v _ => some (.plain [(0, v.vd.val), (1, v.va.val), (2, v.vb.val)] fun x =>
      { onLanes v.mask [] (some v.vd.val) x with
        reads := [(v.va.val, (x.active v.mask).map fun l => x.elem v.ty v.vb.val l % 64), (v.vb.val, x.active v.mask)] })
  | .vbcast lane v _ => some (.plain [(0, v.vd.val), (1, v.va.val)] fun x =>
      { onLanes v.mask [] (some v.vd.val) x with reads := [(v.va.val, [lane.val])] })
  | .viota _ mask vd _ | .vmovi _ mask vd _ _ | .vrdacc _ mask vd _ _ _ =>
    some (.plain [(0, vd.val)] (onLanes mask [] (some vd.val)))
  | .vldu v _ => some (loadFrame .u v)
  | .vldk v _ => some (loadFrame .k v)
  | .vldd v _ => some (loadFrame .d v)
  | .vstu v _ => some (storeFrame .u v)
  | .vstk v _ => some (storeFrame .k v)
  | .vstd v _ => some (storeFrame .d v)
  | .vstn v _ => some (storeFrame .n v)
  | .vldg vx v _ => some
      { fields := [(0, v.v.val), (1, vx.val)]
        use := fun x => { onLanes v.mask [vx.val] (some v.v.val) x with waits := true }
        bad := vldgPre v }
  | _ => none

/-- The active lanes of some sources and of a destination (R363). -/
def uses (s : State) (m : Fin 8) (reads : List (Fin 256)) (dest : Option Nat) : VUse :=
  onLanes m (reads.map Fin.val) dest s.core.vec

/-- A parked element once the active lanes of vd have been written by a later instruction: it writes its lane no more
(R366). -/
def Parked.after (p : Parked) (s : State) (mask : Fin 8) (vd : Nat) : Parked :=
  if p.vd = vd ∧ (s.core.vec.mask mask).getLsbD p.lane = true then { p with live := false } else p

/-- Only the lanes of vd that the mask names have changed, to the values of `val`; masks and allotment are as they were,
and so are parked elements, but that those of the written lanes write them no more (R363, R366). -/
def WritesLanes (s w : State) (mask : Fin 8) (vd : Nat) (val : Nat → Nat) : Prop :=
  (∀ r l, l < 64 → w.core.vec.lane r l =
    if r = vd ∧ (s.core.vec.mask mask).getLsbD l = true then BitVec.ofNat 32 (val l) else s.core.vec.lane r l) ∧
  w.core.vec.masks = s.core.vec.masks ∧ w.core.vec.vallot = s.core.vec.vallot ∧
  w.core.vec.parked = s.core.vec.parked.map fun p => p.after s mask vd

/-- The vector instruction performs: the lane groups it needs are awake, the active lanes of vd hold its values,
and nothing else has changed (R240, R363). -/
def VecWrites (i : Instr) (s : State) (b : LaneB) (mask : Fin 8) (vd : Nat) (val : Nat → Nat) : Prop :=
  ∃ w, Performs i s .ve b w ∧ OnlyVec (s.wake (s.core.vec.active mask)) w ∧ WritesLanes s w mask vd val ∧
    w.core.vec.gated = (s.wake (s.core.vec.active mask)).core.vec.gated

-- Accesses of the thread.

/-- The load and the store of each space (R325-R327, R346, R355-R358). -/
def loadOf (sp : Space) (w : Width) (d : Dest) (base : Opnd) (off : BitVec 10) (cls : Fin 16) : Instr :=
  match sp with
  | .u => .ldu w d base off cls | .n => .ldn w d base off cls | .k => .ldk w d base off cls
  | .d => .ldd w d base off cls | .g => .ldg w d base off cls
def storeOf (sp : Space) (w : Width) (data base : Opnd) (off : BitVec 10) (cls : Fin 16) : Instr :=
  match sp with
  | .u => .stu w data base off cls | .n => .stn w data base off cls | .k => .stk w data base off cls
  | .d => .std w data base off cls | .g => .stg w data base off cls

/-- Outside the bytes `as` of a place, every byte has the performed value it had, or that of a pending store
of the thread which has been performed since (R141). -/
def SettledBut (s t : State) (loc : Loc) (as : List Nat) : Prop :=
  ∀ (l : Loc) (a : Nat), ¬ (l = loc ∧ a ∈ as) →
    t.byteAt l a = s.byteAt l a ∨ ∃ p ∈ s.core.pend, p.loc = l ∧ (a, t.byteAt l a) ∈ p.cells

/-- t differs from s in what an access of the thread touches: registers, position, a pending trap, pending
stores; engines, work and every other core are as they were. -/
def OnlyThread (s t : State) : Prop :=
  t.cur = s.cur ∧ (∀ j : Fin 128, j ≠ s.cur → t.cores[j] = s.cores[j]) ∧
  { t.core with regs := s.core.regs, fetch := s.core.fetch, trap := s.core.trap, pend := s.core.pend,
                pendNum := s.core.pendNum } = s.core

/-- The value that the thread reads at some bytes, zero-extended (R2, R142). -/
def readValue (s : State) (loc : Loc) (as : List Nat) : Word :=
  BitVec.ofNat 64 (leNat (as.map (s.threadByte loc)))

/-- The instruction ends in a trap that names its lane and no byte of memory changes. -/
def TrapsTo (i : Instr) (s : State) (code : Nat) (info : Word) : Prop :=
  ∃ t, exec i s = .next t ∧ SameMemory s t ∧
    Trapped s t code info .cc s.core.fetch.line s.core.fetch.lane

/-- Fetch goes on at lane 1 of a line. -/
def GoesTo (t : State) (line : Word) : Prop :=
  t.core.fetch.line = line ∧ t.core.fetch.lane = 1 ∧ t.core.fetch.opened = false

/-- Nothing of the core changes but its fetch position and, where a loop ends, the copied bank counters. -/
def OnlyFetch (s t : State) : Prop :=
  OnlyCore s t ∧ { t.core with fetch := s.core.fetch, bcmSnap := s.core.bcmSnap, snapOpen := s.core.snapOpen,
                               snapFrozen := s.core.snapFrozen } = s.core

/-- Nothing of the acting core changes but its position and pending stores. -/
def OnlyPosted (s t : State) : Prop :=
  OnlyThread s t ∧ SameRegs s t ∧ t.core.trap = s.core.trap ∧ NextLane s t

-- Translation.

/-- The translation of a page of a buffer reads these words: word 2 and LEN of the buffer's entry and the page's
descriptor, of a context's table and its frame map, free of poison (R117-R119, R123). -/
def TableWords (s : State) (ctx : Fin 64) (buf page : Nat) (w2 : Word) (len : Nat) (desc : Word) : Prop :=
  s.tableBad ctx buf page = false ∧ ∃ x, s.ctxs[ctx] = some x ∧ buf < x.size ∧
    w2 = s.gWord (x.table.toNat + 32 * buf + 16) ∧
    len = (s.gWord (x.table.toNat + 32 * buf + 8)).toNat % 2 ^ 48 ∧
    desc = s.gWord ((s.gWord (x.table.toNat + 32 * buf)).toNat / 8 * 8 + 8 * page)

/-- Byte o of a page lies at this place (R119): an LPDDR-6 frame holds its page as it is; an HBM4E page is spread over
the stacks of SMASK by granules. The place numbers the unit, the stack or 16 for LPDDR-6, and the address in it, and the
unit has that address (R12). -/
def PagePlace (w2 desc : Word) (o place : Nat) : Prop :=
  let frame := desc.toNat % 2 ^ 40
  let smask := w2.toNat / 2 ^ 48
  let spread := (List.range 16).countP smask.testBit
  let gran := 256 * 2 ^ (w2.toNat / 2 ^ 44 % 16)
  if desc.getLsbD 62 then
    place = 16 * 2 ^ 44 + (frame * 65536 + o) ∧ frame * 65536 + o < 2 * 10 ^ 12
  else ∃ stack, stack < 16 ∧ smask.testBit stack = true ∧
    (List.range stack).countP smask.testBit = o / gran % spread ∧
    (let at_ := frame * (65536 / spread) + o / gran / spread * gran + o % gran
     place = stack * 2 ^ 44 + at_ ∧ at_ < 48 * 10 ^ 9)

-- Numbers.

/-- The exact value of a finite number. -/
def FVal.rat : FVal → ℚ
  | .fin neg m e => (if neg then -1 else 1) * (m : ℚ) * (2 : ℚ) ^ e
  | .nan | .inf _ => 0

-- The stages of a die (R45).

/-- The occupancy ratio of a stage of a node, for a core that has slices left or none. -/
def StageRatio (x : Staged) (more : Bool) (st : Nat) : ℚ :=
  if st = 0 then (if more then 1 else 0)
  else ((x.rings.getD st []).count .valid : ℚ) / (x.rings.getD st []).length

/-- The stage, of so many, is eligible: it has work, and it is the last or the next ring has a free slot. -/
def StageOpen (x : Staged) (stages : Nat) (more : Bool) (st : Nat) : Prop :=
  st < stages ∧ 0 < StageRatio x more st ∧ (st + 1 = stages ∨ .free ∈ x.rings.getD (st + 1) [])

/-- The balancer's choice: the lowest eligible stage that 64 invocation ends have passed over, or else the lowest of
those eligible with the highest ratio. -/
def StageChoice (x : Staged) (stages : Nat) (more : Bool) (st : Nat) : Prop :=
  let old (d : Nat) : Prop := StageOpen x stages more d ∧ 64 ≤ x.passed.getD d 0
  (old st ∧ ∀ d, d < st → ¬ old d) ∨
  ((∀ d, ¬ old d) ∧ StageOpen x stages more st ∧ ∀ d, StageOpen x stages more d →
    StageRatio x more d < StageRatio x more st ∨ StageRatio x more d = StageRatio x more st ∧ st ≤ d)

/-- The core takes part in the staged node on the die. -/
def Staged.takes (x : Staged) (j : Nat) : Prop :=
  match x.owner with
  | some c => j = c
  | none => j / 64 = x.die ∧ (if j < 64 then x.img[4] else x.img[5]).getLsbD (j % 64) = true

/-- The record is that of a node on a die, or not. -/
def Staged.names (x : Staged) (die : Nat) (n : Node) : Prop :=
  x.die = die ∧ x.launch = n.launch ∧ x.index = n.index

-- Matrix sums.

/-- Some term is NaN, or two are opposite infinities (R105). -/
def NanSum (terms : List FVal) : Bool :=
  terms.any FVal.isNan || (terms.contains (.inf true) && terms.contains (.inf false))

/-- A sum of terms that are all finite becomes an infinity (R106, R174). -/
def SatSum (f : FFmt) (terms : List FVal) : Bool :=
  let sum := exactSum terms
  terms.all (fun v => match v with | .fin .. => true | .nan | .inf _ => false) && sum.2.1 != sum.2.2 &&
    f.round .rne (FVal.ofInt ((sum.2.1 : Int) - sum.2.2) sum.1 false) % 2 ^ (f.ew + f.fw) == f.infCode

/-- The CAN test of R174 on the products of one element, for an exponent c. -/
def CanSum (c : Nat) (products : List FVal) : Bool :=
  c != 0 && products.all (fun v => match v with | .fin .. => true | .nan | .inf _ => false) &&
    decide (|(products.map FVal.rat).sum| < 2 ^ (-(c : ℤ)) * (products.map fun v => |v.rat|).sum ∧
      (2 : ℚ) ^ (-100 : ℤ) ≤ (products.map fun v => |v.rat|).sum)

/-- r is what the array makes of the terms of one output element, k of them products (R105, R106): NaN, an infinity, an
exact zero, an infinity by rounding, the exact sum where every partial sum is representable, and otherwise the rounded
sum or a value within the bound. -/
def IsSum (f : FFmt) (k : Nat) (terms : List FVal) (r : Nat) : Prop :=
  let sum := exactSum terms
  let rounded := f.round .rne (FVal.ofInt ((sum.2.1 : Int) - sum.2.2) sum.1 false)
  (NanSum terms = true → r = f.nanCode) ∧
  (NanSum terms = false → .inf false ∈ terms → r = f.infCode) ∧
  (NanSum terms = false → .inf true ∈ terms → r = 2 ^ (f.ew + f.fw) + f.infCode) ∧
  (NanSum terms = false → .inf false ∉ terms → .inf true ∉ terms →
    (sum.2.1 = sum.2.2 → r = if terms.all FVal.isZeroNeg then 2 ^ (f.ew + f.fw) else 0) ∧
    (sum.2.1 ≠ sum.2.2 → SatSum f terms = true ∨ partialsExact f terms = true → r = rounded) ∧
    (sum.2.1 ≠ sum.2.2 → r = rounded ∨ withinBound f k r sum.1 sum.2.1 sum.2.2 = true))

/-- An input element is a subnormal that the array flushes (R104). -/
def Flushed : EFmt → Nat → Bool
  | .flt f, x => (f == fF32 || f == fBF16 || f == fF16) && x / 2 ^ f.fw % 2 ^ f.ew == 0 && x % 2 ^ f.fw != 0
  | .int _, _ => false

/-- How many places of so many rows and columns pass a test. -/
def countGrid (rows cols : Nat) (p : Nat → Nat → Bool) : Nat :=
  ((List.range rows).map fun r => (List.range cols).countP (p r)).sum

/-- The counts that a commit leaves in MONSTAT and the MON_TRAP that it makes pending (R174-R176). The lowest field of
several that are crossed is the model's choice (log entry 71). -/
def Monitored (s t : State) (n : Counts) (ladder : Bool) (step : Nat) : Prop :=
  let past (k : Fin 7) (x : Nat) : Prop := s.core.me.mon[k] ≠ 0xFFFF ∧ (s.core.me.mon[k]).toNat < x
  let raised (k : Nat) : Prop :=
    t.core.trap.pending = s.core.trap.pending ++ [⟨0x0B, BitVec.ofNat 64 (step % 256 * 256 + k), .me⟩]
  t.core.me.monstat = BitVec.ofNat 64 (min n.bso 0xFFF * 2 ^ 52 + min n.nan 0xFFF * 2 ^ 40 + min n.can 0xFFF * 2 ^ 28 +
    min n.sat 0xFFF * 2 ^ 16 + min n.unf 0xFFFF) ∧
  (past 3 n.nan → raised 3) ∧ (¬ past 3 n.nan → past 4 n.bso → raised 4) ∧
  (¬ past 3 n.nan → ¬ past 4 n.bso → ladder = true → past 5 t.core.me.topcnt → raised 5) ∧
  (¬ past 3 n.nan → ¬ past 4 n.bso → ¬ (ladder = true ∧ past 5 t.core.me.topcnt) →
    t.core.trap.pending = s.core.trap.pending)

-- Memory.

/-- The bytes of t are those of s with the thread's pending stores of a test performed, and the others are still pending
(R141, R144). -/
def HasPerformed (s t : State) (test : Pending → Bool) : Prop :=
  t.core.pend = s.core.pend.filter (fun p => !test p) ∧
  ∀ (l : Loc) (a : Nat), t.byteAt l a = (s.performWhere test).byteAt l a

/-- Every pad, global memory, code memory, and every core's operand and accumulator memory are in canonical
form. -/
def State.memWf (s : State) : Prop :=
  (∀ l : Loc, Memory.wf (s.padAt l).mem) ∧ Memory.wf s.code ∧
  ∀ i : Fin 128, Memory.wf s.cores[i].me.omem ∧ Memory.wf s.cores[i].me.amem

/-- A run of n steps from s meets no fault and no refusal. -/
def State.runsSafely (n : Nat) (s : State) : Prop := ∃ t : State, Host.Core.run Sys2Proof.core n s = Host.Outcome.next t

end Sys2Proof.Machine
end

