-- ==== Sys2Proof/Certificates/Slice0/Obligations.lean ====
section
/-! DEFINITION. The statements about the model that are to be proved; each docstring says which rules of the spec it
formalises, and which choices of the model it rests on. -/
open Sys2Proof Sys2Proof.Machine

/-- ADD, SUB, MUL, AND, OR, XOR and the register shifts push their 64-bit results (R294, R316, R339, R350, R359, R388):
modulo 2^64, and a shift amount counts its low six bits. MULH, DIV and REM (R316, R344): the high half of the signed
product, the quotient toward zero with all ones for a divisor of 0, and the remainder with the sign of the dividend,
which a divisor of 0 leaves as it is. CLZ and POPC (R306, R340): the number pushed is at most 64, that many bits
from bit 63 down are zero and the next is set; and the number of set bits. -/
def Obligations.ArithmeticAndLogicResults : Prop :=
  (∀ (d : Dest) (a b : Opnd) (s : State),
    let x := s.operand a
    let y := s.operand b
    Results (.add d a b) s d (BitVec.ofNat 64 (x.toNat + y.toNat)) ∧
    Results (.sub d a b) s d (BitVec.ofInt 64 ((x.toNat : Int) - y.toNat)) ∧
    Results (.mul d a b) s d (BitVec.ofInt 64 (x.toInt * y.toInt)) ∧
    Results (.and d a b) s d (x &&& y) ∧
    Results (.or d a b) s d (x ||| y) ∧
    Results (.xor d a b) s d (x ^^^ y) ∧
    Results (.shl d a b) s d (BitVec.ofNat 64 (x.toNat * 2 ^ (y.toNat % 64))) ∧
    Results (.shr d a b) s d (BitVec.ofNat 64 (x.toNat / 2 ^ (y.toNat % 64))) ∧
    Results (.sra d a b) s d (BitVec.ofInt 64 (x.toInt / 2 ^ (y.toNat % 64)))) ∧
  (∀ (d : Dest) (a b : Opnd) (s : State),
    let x := s.operand a
    let y := s.operand b
    Results (.mulh d a b) s d (BitVec.ofInt 64 ((x.toInt * y.toInt) / 2 ^ 64)) ∧
    Results (.div d a b) s d
      (if y = 0 then 0xFFFFFFFFFFFFFFFF else BitVec.ofInt 64 (x.toInt.tdiv y.toInt)) ∧
    Results (.rem d a b) s d (if y = 0 then x else BitVec.ofInt 64 (x.toInt.tmod y.toInt))) ∧
  (∀ (d : Dest) (a : Opnd) (s : State),
    let x := s.operand a
    (∃ k : Nat, k ≤ 64 ∧ Results (.clz d a) s d (BitVec.ofNat 64 k) ∧
      (∀ i, i < k → x.getLsbD (63 - i) = false) ∧ (k < 64 → x.getLsbD (63 - k) = true)) ∧
    Results (.popc d a) s d (BitVec.ofNat 64 ((List.range 64).countP fun i => x.getLsbD i)))

/-- CMP and CMPI (R308): 1 when the condition holds and 0 otherwise; LT and GE compare signed values, LTU and GEU
unsigned ones, and CMPI's immediate is sign-extended. The immediate forms (R294, R337, R339, R350, R388): ADDI
sign-extends, the logical forms and MOVI zero-extend, and the shifts take their amount from the instruction. MOV,
MOVHI, SEL and WID (R337, R349, R33): MOVHI replaces sixteen bits of its own register, SEL chooses by a guard that
it may invert, and WID pushes the whole identifier for code 7 and otherwise one field of it. TIME (R360): the older
of its two queue positions takes TIME and the newer CYC, so that q1 holds TIME and q0 holds CYC; the named register
receives TIME. -/
def Obligations.ImmediateCompareAndMoveResults : Prop :=
  (∀ (c : Cond) (d : Dest) (a b : Opnd) (imm : BitVec 13) (s : State),
    let holds (x y : Word) : Prop := match c with
      | .eq => x = y
      | .ne => x ≠ y
      | .lt => x.toInt < y.toInt
      | .ltu => x.toNat < y.toNat
      | .ge => y.toInt ≤ x.toInt
      | .geu => y.toNat ≤ x.toNat
    ∃ v w : Word,
      Results (.cmp c d a b) s d v ∧ Results (.cmpi c d a imm) s d w ∧
      (v = 1 ∨ v = 0) ∧ (v = 1 ↔ holds (s.operand a) (s.operand b)) ∧
      (w = 1 ∨ w = 0) ∧ (w = 1 ↔ holds (s.operand a) (BitVec.ofInt 64 imm.toInt))) ∧
  (∀ (d : Dest) (a : Opnd) (imm : BitVec 16) (amt : BitVec 6) (s : State),
    let x := s.operand a
    Results (.addi d a imm) s d (BitVec.ofInt 64 (x.toInt + imm.toInt)) ∧
    Results (.andi d a imm) s d (BitVec.ofNat 64 (x.toNat % 65536 &&& imm.toNat)) ∧
    Results (.ori d a imm) s d (x ||| BitVec.ofNat 64 imm.toNat) ∧
    Results (.xori d a imm) s d (x ^^^ BitVec.ofNat 64 imm.toNat) ∧
    Results (.shlImm d a amt) s d (BitVec.ofNat 64 (x.toNat * 2 ^ amt.toNat)) ∧
    Results (.shrImm d a amt) s d (BitVec.ofNat 64 (x.toNat / 2 ^ amt.toNat)) ∧
    Results (.sraImm d a amt) s d (BitVec.ofInt 64 (x.toInt / 2 ^ amt.toNat)) ∧
    Results (.movi d imm) s d (BitVec.ofNat 64 imm.toNat)) ∧
  (∀ (d : Dest) (r : Fin 16) (a b : Opnd) (imm : BitVec 16) (pos : BitVec 2) (k : Fin 4) (inv : Bool)
    (f : BitVec 3) (s : State),
    Results (.mov d a) s d (s.operand a) ∧
    (∃ v : Word, Results (.movhi r imm pos) s (.n r) v ∧
      ∀ i, i < 64 → v.getLsbD i =
        if 16 * pos.toNat ≤ i ∧ i < 16 * pos.toNat + 16 then imm.getLsbD (i - 16 * pos.toNat)
        else (s.core.regs.n[r]).getLsbD i) ∧
    Results (.sel d a b k inv) s d
      (if s.core.regs.k[k] = inv then s.operand b else s.operand a) ∧
    (f = 7 → Results (.wid d f) s d s.core.regs.wid) ∧
    (f.toNat < 6 → Results (.wid d f) s d
      (BitVec.ofNat 64 (s.core.regs.wid.toNat / 2 ^ (s.widths.take f.toNat).sum %
        2 ^ (s.widths.getD f.toNat 0))))) ∧
  (∀ (d : Dest) (s : State), ∃ t, exec (.time d) s = .next t ∧ OnlyRegs s t ∧ NextLane s t ∧
    t.core.regs.q[0] = s.core.regs.cyc ∧ t.core.regs.q[1] = s.time ∧
    (∀ i : Fin 14, t.core.regs.q[i.val + 2] = s.core.regs.q[i.val]) ∧
    (∀ i : Fin 16, t.core.regs.n[i] = if d = .n i then s.time else s.core.regs.n[i]) ∧
    { t.core.regs with n := s.core.regs.n, q := s.core.regs.q } = s.core.regs)

/-- BR, JMP, CALL and RET (R58, R81, R296, R299, R323, R345): the target is the line's address plus 32 times the signed
displacement; BR is taken for a nonzero operand and otherwise goes on to the next lane; CALL writes the following
line's address to n15 and keeps the loops; RET goes to n15, or ends the invocation when it is 0; it raises ALIGN for an
n15 that is no multiple of 32, and in a handler, where a trap is a double fault (R214), an n15 of 0 is ILLEGAL. -/
def Obligations.TransfersOfControl : Prop :=
  ∀ (c : Opnd) (disp : BitVec 21) (s : State),
    let line := s.core.fetch.line
    let target := line + BitVec.ofInt 64 (32 * disp.toInt)
    let n15 := s.core.regs.n[15]
    (s.core.exposed = false → s.operand c ≠ 0 →
      ∃ t, exec (.br c disp) s = .next t ∧ OnlyFetch s t ∧ GoesTo t target) ∧
    (s.core.exposed = false → s.operand c = 0 →
      ∃ t, exec (.br c disp) s = .next t ∧ OnlyRegs s t ∧ SameRegs s t ∧ NextLane s t) ∧
    (∃ t, exec (.jmp disp) s = .next t ∧ OnlyFetch s t ∧ GoesTo t target) ∧
    (∃ t, exec (.call disp) s = .next t ∧ OnlyRegs s t ∧ GoesTo t target ∧
      t.core.fetch.loops = s.core.fetch.loops ∧
      t.core.regs = { s.core.regs with n := s.core.regs.n.set 15 (line + 32) }) ∧
    (s.core.exposed = false → n15 ≠ 0 → n15.toNat % 32 = 0 →
      ∃ t, exec .ret s = .next t ∧ OnlyRegs s t ∧ SameRegs s t ∧ GoesTo t n15 ∧
        t.core.fetch.loops = s.core.fetch.loops) ∧
    (s.core.exposed = false → n15 = 0 → s.core.trap.inh = false →
      ∃ t, exec .ret s = .next t ∧ OnlyCore s t ∧
        t.core = { s.core with work := { s.core.work with run := .ending } }) ∧
    (s.core.exposed = false → n15.toNat % 32 ≠ 0 → CanTrap s → TrapsHere .ret s 0x03 (s.laneInfo (n15 <<< 16))) ∧
    (s.core.trap.inh = true → s.core.exposed = true ∨ n15 = 0 ∨ n15.toNat % 32 ≠ 0 →
      ∃ t, exec .ret s = .next t ∧ t.core.work.run = .doubleFault ∧ t.core.trap = s.core.trap ∧
        t.core.regs = s.core.regs ∧ t.core.fetch = s.core.fetch) ∧
    (s.core.exposed = true → CanTrap s →
      TrapsHere (.br c disp) s 0x01 (s.laneInfo 0x1700) ∧ TrapsHere .ret s 0x01 (s.laneInfo 0x1700))

/-- A taken branch or a JMP ends the loops it leaves, the innermost first (R82): the loops that stay are the outer
ones, none of those that end holds the target in its body, and the innermost that stays does. LOOP (R82): with fewer
than four loops active and a body that ends within the one around it, a count of 0 skips the body once the line is
done; any other count makes a loop whose further passes are one less. Where it nests badly it raises ILLEGAL with
reason 0x18. The end of a line (R82, R328): with no loop ending there fetch goes on to the next line; a loop that ends
there with passes left goes round; one without is over, and the loop around it is tested at the same line; a loop
whose body ends elsewhere stays, and the loops around it are tested all the same (R394). That the body around a LOOP
is that of the innermost active loop, wherever the LOOP stands, is log entry 87. -/
def Obligations.LoopsStartGoRoundAndEnd : Prop :=
  (∀ (c : Opnd) (disp : BitVec 21) (i : Instr) (s : State),
    let target := s.core.fetch.line + BitVec.ofInt 64 (32 * disp.toInt)
    let inside (l : LoopEnt) : Prop := l.first.toNat ≤ target.toNat ∧ target.toNat ≤ l.lastLine.toNat
    (i = .jmp disp ∨ (i = .br c disp ∧ s.core.exposed = false ∧ s.operand c ≠ 0)) →
    ∃ t n, exec i s = .next t ∧ n ≤ s.core.fetch.loops.length ∧
      t.core.fetch.loops = s.core.fetch.loops.take n ∧
      (∀ l ∈ s.core.fetch.loops.drop n, ¬ inside l) ∧
      (∀ l, (s.core.fetch.loops.take n).getLast? = some l → inside l)) ∧
  (∀ (a : Opnd) (len : BitVec 21) (s : State),
    let f := s.core.fetch
    let n := s.operand a
    let fits := f.loops.length < 4 ∧
      ∀ l, f.loops.getLast? = some l → f.line.toNat + 32 * len.toNat ≤ l.lastLine.toNat
    (fits → ∃ t, exec (.loop a len) s = .next t ∧ OnlyRegs s t ∧ SameRegs s t ∧
      t.core.fetch.line = f.line ∧ t.core.fetch.lane = f.lane + 1 ∧
      (n = 0 → t.core.fetch.loops = f.loops ∧
        t.core.fetch.skip = some (f.line + BitVec.ofNat 64 (32 * (len.toNat + 1)))) ∧
      (n ≠ 0 → t.core.fetch.skip = f.skip ∧
        t.core.fetch.loops = f.loops ++ [{ left := n - 1, first := f.line + 32, len := len.toNat }])) ∧
    (¬ fits → CanTrap s → TrapsHere (.loop a len) s 0x01 (s.laneInfo 0x1800))) ∧
  (∀ (line : Word) (ls : List LoopEnt) (l : LoopEnt),
    (loopAdvance line []).1 = [] ∧ (loopAdvance line []).2.1 = line + 32 ∧
    (l.lastLine ≠ line →
      (loopAdvance line (ls ++ [l])).1 = (loopAdvance line ls).1 ++ [l] ∧
      (loopAdvance line (ls ++ [l])).2.1 = (loopAdvance line ls).2.1) ∧
    (l.lastLine = line → l.left ≠ 0 →
      (loopAdvance line (ls ++ [l])).1 = ls ++ [{ l with left := l.left - 1 }] ∧
      (loopAdvance line (ls ++ [l])).2.1 = l.first) ∧
    (l.lastLine = line → l.left = 0 →
      (loopAdvance line (ls ++ [l])).1 = (loopAdvance line ls).1 ∧
      (loopAdvance line (ls ++ [l])).2.1 = (loopAdvance line ls).2.1))

/-- GUARD (R79): a word of op 0x15 with a nonzero reserved bit is ILLEGAL with reason 0x12; any other sets guard k to
whether its operand is nonzero, and pushes no value. -/
def Obligations.GuardSetsOneGuard : Prop :=
  (∀ w : Nat, w < 2 ^ 32 → w / 2 ^ 26 = 0x15 →
    decodeCC w = if w / 2 ^ 23 % 8 ≠ 0 ∨ w % 2 ^ 16 ≠ 0 then .error 0x12
      else .ok (.guard (Fin.ofNat 4 (w / 2 ^ 21)) (opndOf (w / 2 ^ 16 % 32)))) ∧
  decodeCC 0x543D0000 = .ok (.guard 1 (.n 13)) ∧
  ∀ (k : Fin 4) (a : Opnd) (s : State), ∃ t, exec (.guard k a) s = .next t ∧ OnlyRegs s t ∧
    NextLane s t ∧ (t.core.regs.k[k] = true ↔ s.operand a ≠ 0) ∧
    (∀ j : Fin 4, j ≠ k → t.core.regs.k[j] = s.core.regs.k[j]) ∧
    { t.core.regs with k := s.core.regs.k } = s.core.regs

/-- PSET, FORK, JOIN and CLKDIV (R48, R88, R212, R305, R319, R341): PSET writes one parameter register; FORK activates
engines; JOIN waits until the active engines of its mask have performed their entries, performs the VE's stores when
it names the VE, and makes them inactive; in a handler both have no effect; CLKDIV sets one divisor, and has no effect
during a lease or for divisor 3. -/
def Obligations.EnginesActivateAndJoin : Prop :=
  ∀ (e e' : Eng) (p p' : Fin 16) (a : Opnd) (mask : BitVec 6) (v : Divisor) (s : State),
    let par (t : State) (e : Eng) (p : Fin 16) : Word :=
      (vget t.core.eng.params e.num (Vector.replicate 16 0))[p]
    let div (t : State) (e : Eng) : Divisor := vget t.core.eng.div e.num .d4
    (∃ t, exec (.pset e p a) s = .next t ∧ OnlyCore s t ∧ NextLane s t ∧ SameRegs s t ∧
      par t e' p' = (if e' = e ∧ p' = p then s.operand a else par s e' p') ∧
      { t.core with fetch := s.core.fetch, eng := { t.core.eng with params := s.core.eng.params } } = s.core) ∧
    (∃ t, exec (.fork mask) s = .next t ∧ OnlyCore s t ∧ NextLane s t ∧
      t.core.eng.active = (if s.core.trap.inh then s.core.eng.active else s.core.eng.active ||| mask) ∧
      { t.core with fetch := s.core.fetch, eng := { t.core.eng with active := s.core.eng.active } } = s.core) ∧
    (s.core.exposed = false → s.core.trap.inh = false → s.core.joined mask = true → mask.getLsbD 2 = false →
      ∃ t, exec (.join mask) s = .next t ∧ OnlyCore s t ∧ NextLane s t ∧
        t.core.eng.active = s.core.eng.active &&& ~~~mask ∧
        { t.core with fetch := s.core.fetch, eng := { t.core.eng with active := s.core.eng.active } } = s.core) ∧
    (s.core.exposed = false → s.core.trap.inh = false → s.core.joined mask = true → mask.getLsbD 2 = true →
      ∃ t, exec (.join mask) s = .next t ∧ NextLane s t ∧ HasPerformed s t (fun q => q.ve) ∧ t.cur = s.cur ∧
        t.core.eng.active = s.core.eng.active &&& ~~~mask ∧
        (∀ j : Fin 128, j ≠ s.cur → t.cores[j] = s.cores[j]) ∧
        { t.core with fetch := s.core.fetch, pend := s.core.pend,
                      eng := { t.core.eng with active := s.core.eng.active } } = s.core) ∧
    (s.core.exposed = false → s.core.trap.inh = false → s.core.joined mask = false →
      exec (.join mask) s = .next s) ∧
    (s.core.exposed = false → s.core.trap.inh = true →
      ∃ t, exec (.join mask) s = .next t ∧ OnlyCore s t ∧ NextLane s t ∧
        { t.core with fetch := s.core.fetch } = s.core) ∧
    (s.core.exposed = true → CanTrap s → TrapsHere (.join mask) s 0x01 (s.laneInfo 0x1700)) ∧
    (s.core.regs.sup = true → s.core.deterministic = false →
      ∃ t, exec (.clkdiv e v) s = .next t ∧ OnlyCore s t ∧ NextLane s t ∧ SameRegs s t ∧
        div t e' = (if e' = e ∧ s.leased s.cluster = false ∧ v ≠ .d3 then v else div s e') ∧
        { t.core with fetch := s.core.fetch, eng := { t.core.eng with div := s.core.eng.div } } = s.core) ∧
    (s.core.regs.sup = true → s.core.deterministic = true → CanTrap s →
      TrapsHere (.clkdiv e v) s 0x15 (s.laneInfo 0))

/-- Effective addresses (R61): base plus the signed offset times the width; in G the sum is taken in bits 47:0, the
buffer number stays, and a carry or borrow at bit 47 is reported. The local spaces (R114, R115): U ends at 3 MiB, N
gives each core of the cluster 4 MiB of which 3 exist, K ends at 16 MiB and D at 128 MiB; anything else raises
SPACE_BOUNDS naming the address. Global addresses (R117-R120, R123, R125, R131): an access within one page is
translated with the words of its buffer's entry and the page's descriptor, from the core's translation cache or from
memory. In this order: poisoned words raise MEM_POISON; an entry beyond the table, or without VALID, BUF_FAULT;
another OWNER, or a right that is missing, BUF_RIGHTS; bytes past LEN BUF_BOUNDS; a page that is not PRESENT
BUF_FAULT; and a counter buffer that the access may not touch COUNTER_RIGHTS; else its bytes are those that R119
names, and one on a frame that does not exist is refused by the port. The numbers of the places of global memory are
the model's (log entry 36), and that the checks of a counter buffer come last is log entry 47. -/
def Obligations.AddressesAndLocalSpaces : Prop :=
  (∀ (sp : Space) (base : Word) (off : BitVec 10) (w : Width),
    let r := effective sp base off w
    let sum : Int := ((base.toNat % 2 ^ 48 : Nat) : Int) + off.toInt * widthBytes w
    (sp ≠ .g → r.2 = false ∧ r.1 = BitVec.ofInt 64 (base.toInt + off.toInt * widthBytes w)) ∧
    (sp = .g → r.1.toNat / 2 ^ 48 = base.toNat / 2 ^ 48 ∧ ((r.1.toNat % 2 ^ 48 : Nat) : Int) = sum % 2 ^ 48 ∧
      (r.2 = true ↔ sum < 0 ∨ 2 ^ 48 ≤ sum))) ∧
  (∀ (s : State) (k : GKind) (a : Word) (n : Nat),
    let bytes (o : Nat) : List Nat := (List.range n).map (o + ·)
    let x := a.toNat
    let bad : Except Bad (Loc × List Nat) := .error ⟨0x04, infoLocal a, none⟩
    s.resolve .u k a n = (if x + n ≤ 0x300000 then .ok (.u s.cur, bytes x) else bad) ∧
    s.resolve .n k a n = (if x < 0x1000000 ∧ x % 0x400000 + n ≤ 0x300000
      then .ok (.u (s.cur.val / 4 * 4 + x / 0x400000), bytes (x % 0x400000)) else bad) ∧
    s.resolve .k k a n = (if x + n ≤ 0x1000000 then .ok (.k (s.cur.val / 4), bytes x) else bad) ∧
    s.resolve .d k a n = (if x + n ≤ 0x8000000 then .ok (.d (s.cur.val / 64), bytes x) else bad)) ∧
  (∀ (s : State) (k : GKind) (a : Word) (n : Nat) (w2 d : Word) (len : Nat),
    let ctx := s.core.ctx
    let buf := a.toNat / 2 ^ 48
    let off := a.toNat % 2 ^ 48
    let page := off / 65536
    let raises (code : Nat) : Prop :=
      s.resolve .g k a n = .error ⟨code, BitVec.ofNat 64 (a.toNat / 65536 * 65536), none⟩
    let cached := cachedPage s.core.tlb ctx buf page
    let reads : Prop := cached = some ⟨ctx, buf, page, w2, len, d⟩ ∨ (cached = none ∧ TableWords s ctx buf page w2 len d)
    let right (i : Nat) : Prop := w2.getLsbD i = true
    let allowed : Prop := match k with
      | .load => right 0 ∨ right 2
      | .store => right 1 ∧ ¬ right 2
      | .aadd dbl => (right 2 ∧ dbl = true) ∨ (right 0 ∧ right 1 ∧ ¬ right 2)
      | .rmw => right 0 ∧ right 1 ∧ ¬ right 2
      | .counter => right 2
      | .spec => right 0 ∧ right 3
      | .extWrite => right 1 ∧ right 4 ∧ ¬ right 2
      | .extPost => right 2 ∧ right 4
      | .loader => True
    let counter : Prop := right 2 ∧ (k = .store ∨ k = .rmw ∨ k = .aadd false)
    let entry := reads ∧ right 5
    let mine := entry ∧ w2.toNat / 2 ^ 36 % 64 = ctx.val ∧ (allowed ∨ counter)
    let within := mine ∧ off + n ≤ len
    let present := within ∧ d.getLsbD 63 = true
    0 < n → off % 65536 + n ≤ 65536 →
    (cached = none → s.tableBad ctx buf page = true → raises 0x0D) ∧
    (cached = none → (∀ x, s.ctxs[ctx] = some x → x.size ≤ buf) → raises 0x05) ∧
    (reads → ¬ right 5 → raises 0x05) ∧
    (entry → (w2.toNat / 2 ^ 36 % 64 ≠ ctx.val ∨ ¬ (allowed ∨ counter)) → raises 0x06) ∧
    (mine → len < off + n → raises 0x07) ∧
    (within → d.getLsbD 63 = false → raises 0x05) ∧
    (present → counter → raises 0x12) ∧
    (∀ as : List Nat, present → ¬ counter → as.length = n →
      (∀ i, i < n → ∃ p, as[i]? = some p ∧ PagePlace w2 d (off % 65536 + i) p) → s.resolve .g k a n = .ok (.g, as)) ∧
    (present → ¬ counter → (∃ i, i < n ∧ ∀ p, ¬ PagePlace w2 d (off % 65536 + i) p) →
      ∃ p, s.resolve .g k a n = .error ⟨0x06, BitVec.ofNat 64 (a.toNat / 65536 * 65536), some p⟩))

/-- A load of any space (R142, R325, R326): the bytes are the newest the thread has written there, or else the
performed ones, little-endian and zero-extended; memory keeps every byte but for pending stores that are performed:
those that go before the load are performed at it (log entry 9). What a turn may still do to the value of a load
that nothing has used is no part of the instruction (log entry 81). -/
def Obligations.LoadsReadTheThread : Prop :=
  ∀ (sp : Space) (w : Width) (d : Dest) (base : Opnd) (off : BitVec 10) (cls : Fin 16) (s : State)
    (loc : Loc) (as : List Nat),
    let e := effective sp (s.operand base) off w
    e.1.toNat % widthBytes w = 0 → e.2 = false →
    s.resolve sp .load e.1 (widthBytes w) = .ok (loc, as) → s.threadBad loc as = none →
    ∃ t, exec (loadOf sp w d base off cls) s = .next t ∧ NextLane s t ∧ OnlyThread s t ∧
      Delivers s t d (readValue s loc as) ∧ t.core.trap = s.core.trap ∧ SettledBut s t loc []

/-- A store of any space (R141, R355, R356): it is posted as the thread's newest; the thread reads its value at once, no
performed byte changes, and a store to G holds its buffer. That a store stays pending until an event performs it is
the form the model gives R141 (log entry 9). -/
def Obligations.StoresArePosted : Prop :=
  ∀ (sp : Space) (w : Width) (data base : Opnd) (off : BitVec 10) (cls : Fin 16) (s : State)
    (loc : Loc) (as : List Nat),
    let e := effective sp (s.operand base) off w
    e.1.toNat % widthBytes w = 0 → e.2 = false →
    s.resolve sp .store e.1 (widthBytes w) = .ok (loc, as) → s.partialBad loc as = none →
    ∃ t, exec (storeOf sp w data base off cls) s = .next t ∧ NextLane s t ∧ SameRegs s t ∧ OnlyThread s t ∧
      t.core.trap = s.core.trap ∧ SameMemory s t ∧
      as.map (t.threadByte loc) = leBytes (widthBytes w) (s.operand data).toNat ∧
      (∀ l a, ¬ (l = loc ∧ a ∈ as) → t.threadByte l a = s.threadByte l a) ∧
      (∃ p, t.core.pend = s.core.pend ++ [p] ∧ p.ve = false ∧ p.cls = cls ∧ p.space = sp ∧ p.loc = loc ∧
        p.cells = as.zip (leBytes (widthBytes w) (s.operand data).toNat)) ∧
      (∀ ctx b, t.holdCount ctx b = s.holdCount ctx b +
        if sp = .g ∧ ctx = s.core.ctx ∧ b = e.1.toNat / 2 ^ 48 then 1 else 0)

/-- The order of an access's checks (R115, R131, R132, R326, R357): ALIGN, then BUF_BOUNDS for a carry, then the
space or the buffer, then MEM_POISON for a load and MEM_UNCORR for a store into part of a bad granule. No register
but those of the trap changes, and no byte. That the detail of a carry is the wrapped sum is log entry 47. -/
def Obligations.AccessFaultsInOrder : Prop :=
  ∀ (sp : Space) (w : Width) (d : Dest) (data base : Opnd) (off : BitVec 10) (cls : Fin 16) (s : State),
    let e := effective sp (s.operand base) off w
    let ld := loadOf sp w d base off cls
    let st := storeOf sp w data base off cls
    CanTrap s →
    (e.1.toNat % widthBytes w ≠ 0 → TrapsHere ld s 0x03 (s.laneInfo (infoAddr sp e.1)) ∧
      TrapsHere st s 0x03 (s.laneInfo (infoAddr sp e.1))) ∧
    (e.1.toNat % widthBytes w = 0 → e.2 = true →
      TrapsHere ld s 0x07 (s.laneInfo (infoG e.1)) ∧ TrapsHere st s 0x07 (s.laneInfo (infoG e.1))) ∧
    (e.1.toNat % widthBytes w = 0 → e.2 = false →
      (∀ b, s.resolve sp .load e.1 (widthBytes w) = .error b → b.port = none →
        TrapsHere ld s b.code (s.laneInfo b.info)) ∧
      (∀ b pa, s.resolve sp .load e.1 (widthBytes w) = .error b → b.port = some pa →
        TrapsTo ld s b.code (s.laneInfo b.info)) ∧
      (∀ b, s.resolve sp .store e.1 (widthBytes w) = .error b → b.port = none →
        TrapsHere st s b.code (s.laneInfo b.info)) ∧
      (∀ b pa, s.resolve sp .store e.1 (widthBytes w) = .error b → b.port = some pa →
        TrapsTo st s b.code (s.laneInfo b.info)) ∧
      (∀ loc as x, s.resolve sp .load e.1 (widthBytes w) = .ok (loc, as) → s.threadBad loc as = some x →
        TrapsHere ld s 0x0D (s.laneInfo (infoAddr sp e.1))) ∧
      (∀ loc as x, s.resolve sp .store e.1 (widthBytes w) = .ok (loc, as) → s.partialBad loc as = some x →
        TrapsTo st s 0x0E (s.laneInfo (infoAddr sp e.1))))

/-- AADD, ACAS, AXCH and AMAX (R120, R290-R293): on an aligned, resolved, unpoisoned word or double word they push
what the thread reads there, and write the sum, the exchanged value, or the greater or lesser, at once; a failed ACAS
writes nothing, and an AADD that would lower a counter raises COUNTER_RIGHTS, also one whose old bytes are poisoned:
that the counter is tested on them, before MEM_POISON, is the model's reading (log entry 47). AFADD (R252, R291):
outside deterministic lines it pushes the old value and writes the sum rounded once to nearest even; in an exposed
deterministic line it pushes 0, changes no byte but for pending stores, and its add joins the run of its node. That an
atomic acts on memory at once at every scope is the model's choice (log entry 9). -/
def Obligations.AtomicsReadAndWrite : Prop :=
  (∀ (sp : XSpace) (dbl : Bool) (sc : Scope) (data base cmp : Opnd) (cls : Fin 16) (s : State)
    (loc : Loc) (as : List Nat),
    let a := s.operand base
    let n := if dbl then 8 else 4
    let m := 2 ^ (8 * n)
    let old := leNat (as.map (s.threadByte loc))
    let v := (s.operand data).toNat % m
    let sgn (x : Nat) : Int := if 2 * x < m then (x : Int) else (x : Int) - m
    let does (i : Instr) (new : Option Nat) : Prop :=
      ∃ t, exec i s = .next t ∧ NextLane s t ∧ OnlyThread s t ∧
        Delivers s t .push (BitVec.ofNat 64 old) ∧ t.core.trap = s.core.trap ∧
        (match new with
         | some x => as.map (t.byteAt loc) = leBytes n x ∧ SettledBut s t loc as
         | none => SettledBut s t loc [])
    a.toNat % n = 0 →
    (s.resolve (xspace sp) (.aadd dbl) a n = .ok (loc, as) → s.threadBad loc as = none →
      ¬ (sp = .g ∧ s.isCounter a = true ∧ (old + v) % m < old) →
      does (.aadd sp dbl sc data base cls) (some ((old + v) % m))) ∧
    (s.resolve (xspace sp) (.aadd dbl) a n = .ok (loc, as) →
      sp = .g → s.isCounter a = true → (old + v) % m < old → CanTrap s →
      TrapsHere (.aadd sp dbl sc data base cls) s 0x12 (s.laneInfo (infoG a))) ∧
    (s.resolve (xspace sp) .rmw a n = .ok (loc, as) → s.threadBad loc as = none →
      does (.acas sp dbl sc data base cmp cls)
        (if old = (s.operand cmp).toNat % m then some v else none) ∧
      does (.axch sp dbl sc data base cls) (some v) ∧
      does (.amax .umax sp dbl sc data base cls) (some (max old v)) ∧
      does (.amax .umin sp dbl sc data base cls) (some (min old v)) ∧
      does (.amax .smax sp dbl sc data base cls) (some (if sgn old < sgn v then v else old)) ∧
      does (.amax .smin sp dbl sc data base cls) (some (if sgn v < sgn old then v else old)))) ∧
  (∀ (sp : XSpace) (dbl : Bool) (sc : Scope) (data base : Opnd) (cls : Fin 16) (s : State)
    (loc : Loc) (as : List Nat),
    let a := s.operand base
    let n := if dbl then 8 else 4
    let f := if dbl then fF64 else fF32
    let old := leNat (as.map (s.threadByte loc))
    let v := (s.operand data).toNat % 2 ^ (8 * n)
    let i : Instr := .afadd sp dbl sc data base cls
    a.toNat % n = 0 → s.threadBad loc as = none → s.resolve (xspace sp) .rmw a n = .ok (loc, as) →
    (s.core.deterministic = false →
      ∃ t, exec i s = .next t ∧ NextLane s t ∧ OnlyThread s t ∧
        Delivers s t .push (BitVec.ofNat 64 old) ∧
        as.map (t.byteAt loc) = leBytes n (f.round .rne ((f.decode old).add .rne (f.decode v))) ∧
        SettledBut s t loc as) ∧
    (s.core.deterministic = true →
      ∃ t, exec i s = .next t ∧ NextLane s t ∧ OnlyThread s t ∧ Delivers s t .push 0 ∧
        SettledBut s t loc [] ∧
        (∀ p, s.core.work.cur = some p → ∃ r ∈ t.runs, r.isFor p.node = true ∧ ∃ x ∈ r.adds.getLast?,
          x.addr = a ∧ x.loc = loc ∧ x.bytes = as ∧ x.wid = s.core.regs.wid ∧ x.addend.toNat = v)))

/-- SCLD and SCST (R123, R146-R148, R347, R348): once the address checks pass, the access has its place, which it keeps
while it waits, and then holds its buffer. It waits while the VE has still to make a routed access; then every store of
the thread is performed; a core at its own wheel position, not yet used by it, reads or writes at once; one that is not
waits, and in an exposed region that has issued an SC access already it raises WHEEL_SLOT instead. -/
def Obligations.SequentialAccesses : Prop :=
  ∀ (sp : XSpace) (w : Width) (d : Dest) (data base : Opnd) (s : State) (loc : Loc) (as : List Nat),
    let a := s.operand base
    let n := widthBytes w
    let u := s.performWhere fun _ => true
    let pos := s.time.toNat / 10
    let mine : Prop := pos % 4096 % 128 = s.cur.val
    let ld : Instr := .scld sp w d base
    let st : Instr := .scst sp w data base
    let later : Prop := s.core.exposed = true ∧ s.core.fetch.scDone = true
    let owes := s.core.veOwes fun _ _ => true
    let place (k : GKind) : Prop :=
      (s.core.scWait = none ∧ a.toNat % n = 0 ∧ s.resolve (xspace sp) k a n = .ok (loc, as)) ∨
      ∃ x, s.core.scWait = some x ∧ x.loc = loc ∧ x.bytes = as
    let waits (s t : State) : Prop := (∃ x, t.core.scWait = some x ∧ x.loc = loc ∧ x.bytes = as) ∧
      ∀ ctx b, t.holdCount ctx b = s.holdCount ctx b +
        if s.core.scWait = none ∧ sp = .g ∧ ctx = s.core.ctx ∧ b = a.toNat / 2 ^ 48 then 1 else 0
    let made (t : State) : Prop := OnlyThread s (t.upd fun c => { c with scWait := s.core.scWait }) ∧
      t.core.scWait = none ∧ t.core.pend = [] ∧ t.core.fetch.lane = s.core.fetch.lane + 1 ∧
      t.core.fetch.scLast = some pos
    (∀ i, (i = ld ∧ place .load) ∨ (i = st ∧ place .store) →
      (owes = true → ∃ v, exec i s = .next v.stallLane ∧ { v.core with scWait := s.core.scWait } = s.core ∧
        { v with cores := s.cores, holds := s.holds, nextHold := s.nextHold } = s ∧
        (∀ j : Fin 128, j ≠ s.cur → v.cores[j] = s.cores[j]) ∧ waits s v) ∧
      (owes = false → ¬ mine → ¬ later → ∃ t, exec i s = .next t ∧ SameRegs s t ∧
        t.core.fetch.lane = s.core.fetch.lane ∧ t.core.pend = [] ∧ (∀ l b, t.byteAt l b = u.byteAt l b) ∧ waits u t) ∧
      (owes = false → ¬ mine → later → CanTrap s → ∃ t, exec i s = .next t ∧ (∀ l b, t.byteAt l b = u.byteAt l b) ∧
        t.core.scWait = none ∧
        Trapped u t 0x14 (BitVec.ofNat 64 (pos % 4096)) .cc s.core.fetch.line s.core.fetch.lane)) ∧
    (place .load → owes = false → mine → s.core.fetch.scLast ≠ some pos → u.firstBad loc as = none →
      ∃ t, exec ld s = .next t ∧ made t ∧
        Delivers s t d (BitVec.ofNat 64 (leNat (as.map (u.endScWait.seenByte loc)))) ∧
        (∀ l b, t.byteAt l b = u.byteAt l b)) ∧
    (place .store → owes = false → mine → s.core.fetch.scLast ≠ some pos → u.partialBad loc as = none →
      ∃ t, exec st s = .next t ∧ made t ∧ SameRegs s t ∧
        as.map (t.byteAt loc) = leBytes n (s.operand data).toNat ∧
        (∀ l b, ¬ (l = loc ∧ b ∈ as) → t.byteAt l b = u.byteAt l b))

/-- CTRINIT and CWAIT (R137, R153, R310, R313): CTRINIT writes the counter at once, or raises COUNTER_BUSY while a post
is due; CWAIT goes on when the counter has reached the target, and waits while it is below. -/
def Obligations.CountersInitAndWait : Prop :=
  ∀ (addr value : Opnd) (s : State) (loc : Loc) (as : List Nat),
    let a := s.operand addr
    let busy := s.ctrBusy s.core.ctx (a.toNat / 2 ^ 48)
    a.toNat % 8 = 0 → s.resolve .g .counter a 8 = .ok (loc, as) →
    (busy = false → s.partialBad .g as = none →
      ∃ t, exec (.ctrinit addr value) s = .next t ∧ NextLane s t ∧ SameRegs s t ∧ OnlyThread s t ∧
        as.map (t.byteAt .g) = leBytes 8 (s.operand value).toNat ∧
        (∀ l b, ¬ (l = .g ∧ b ∈ as) → t.byteAt l b = s.byteAt l b)) ∧
    (busy = true → CanTrap s → TrapsHere (.ctrinit addr value) s 0x13 (s.laneInfo (infoG a))) ∧
    (s.threadBad .g as = none → (s.operand value).toNat ≤ leNat (as.map (s.byteAt .g)) →
      ∃ t, exec (.cwait addr value) s = .next t ∧ NextLane s t ∧ SameRegs s t ∧ SameMemory s t ∧
        OnlyThread s t) ∧
    (s.threadBad .g as = none → leNat (as.map (s.byteAt .g)) < (s.operand value).toNat →
      ∃ t, exec (.cwait addr value) s = .next t ∧ SameMemory s t ∧ t = s.stallLane)

/-- CFENCE, DRAIN and QFENCE (R138, R144, R150): a CFENCE waits while the VE has still to make a routed access of
its classes; then it performs the thread's stores of its classes, leaves the others, and the thread goes on; a DRAIN
goes on when no copy that has its destination in the space is left, and waits until then; a QFENCE puts one fence
into each named queue when all of them have room, and the thread goes on. A fence that a queue has come to (R150), at
its head or behind an entry that has been performed and waits to push its tokens: while some named queue has not come to
it, or an entry before it is not performed, its turn leaves every queue as it is, and changes nothing at all outside
exposed regions; when every one has, it leaves them all. With the stores of a mask go those of the VE, and those of
deterministic lines, that come before one of them to its bytes (R149, R253); that a fence acts at once at every scope is
log entry 9. -/
def Obligations.FencesAndDrains : Prop :=
  (∀ (sc : Scope) (mask : BitVec 16) (sp : CSpace) (em : BitVec 6) (s : State),
    let room := ∀ e ∈ engines, em.getLsbD e.num = true → (s.core.queue e).entries.length < 32
    let lands := ∃ k ∈ s.core.liveCopies, k.moves = true ∧ k.dsp = sp
    let fence : FenceEnt :=
      { id := s.core.eng.fences, mask := em, upto := s.core.cpy.staSeq, line := s.core.fetch.line,
        lane := s.core.fetch.lane, lmode := s.core.fetch.lmode }
    (s.core.veOwesMask mask = false → ∃ t, exec (.cfence sc mask) s = .next t ∧ OnlyPosted s t ∧
      HasPerformed s t (s.core.upTo fun p => mask.getLsbD p.cls.val) ∧
      (∀ p ∈ t.core.pend, mask.getLsbD p.cls.val = false) ∧
      (∀ p ∈ s.core.pend, mask.getLsbD p.cls.val = false → p.ve = false → p.det = false → p ∈ t.core.pend)) ∧
    (s.core.veOwesMask mask = true → exec (.cfence sc mask) s = .next s.stallLane) ∧
    (¬ lands →
      ∃ t, exec (.drain sp) s = .next t ∧ OnlyPosted s t ∧ t.core.pend = s.core.pend ∧ SameMemory s t) ∧
    (lands → exec (.drain sp) s = .next s.stallLane) ∧
    (room → ∃ t, exec (.qfence em) s = .next t ∧ NextLane s t ∧ SameRegs s t ∧ SameMemory s t ∧ OnlyCore s t ∧
      ∀ e ∈ engines, (t.core.queue e).entries =
        if em.getLsbD e.num then
          (s.core.queue e).entries ++ [.fence fence]
        else (s.core.queue e).entries) ∧
    (¬ room → exec (.qfence em) s = .next s.stallLane)) ∧
  (∀ (s : State) (e : Eng) (f : FenceEnt) (m : BitVec 6),
    s.core.halted = false → s.core.frozen = false → e ∈ engines → f.mask.getLsbD e.num = true →
    let q := s.core.queue e
    let ready := ∀ x ∈ engines, f.mask.getLsbD x.num = true → s.core.fenceReady f x = true
    let left (x : Eng) : List QEntry := match (s.core.queue x).phase with
      | .pushing _ => (s.core.queue x).entries.eraseIdx 1
      | .ready | .busy => (s.core.queue x).entries.tail
    let leaves (t : State) : Prop := ∀ x ∈ engines, (t.core.queue x).entries =
      if f.mask.getLsbD x.num then left x else (s.core.queue x).entries
    (q.entries.head? = some (.fence f) →
      (¬ ready → ∃ t, engineStep e s = .next t ∧ SameMemory s t ∧ t.core.pend = s.core.pend ∧
        (∀ x ∈ engines, (t.core.queue x).entries = (s.core.queue x).entries) ∧
        (f.lmode.getLsbD 0 = false → t = s)) ∧
      (ready → ∃ t, engineStep e s = .next t ∧ leaves t ∧
        (if f.mask.getLsbD 2 then HasPerformed s t (fun p => p.ve)
         else t.core.pend = s.core.pend ∧ SameMemory s t))) ∧
    (∀ i c, q.phase = .pushing m → q.entries.take 2 = [.instr i c, .fence f] →
      (∃ x : Eng, m.getLsbD x.num = true ∧ 15 ≤ s.core.eng.tok e x) → ready →
      ∃ t, engineStep e s = .next t ∧ leaves t ∧ ∃ k, (t.core.queue e).phase = .pushing k))

/-- ARRIVE and AWAIT (R154): when this core's latest phase is complete and the VE has no routed access of the mask
still to make, ARRIVE performs the stores of its mask and records one more arrival of this core; when the phase is
complete AWAIT goes on, with memory and barriers as they were; else they wait. That a barrier is keyed by its node
is read from R154 by inference (log entry 19), and that its stores become visible to every observer at once, whatever
the scope of the arrival, is log entry 9. With the stores of the mask go those of the VE that come before one
of them to its bytes (R149). -/
def Obligations.BarrierArrivals : Prop :=
  ∀ (die : Bool) (b : Fin 16) (mask : BitVec 16) (s : State),
    let count (t : State) (c : Nat) : Nat := (smapGet (t.arrivals die b) c).getD 0
    let mine := count s s.cur.val
    let complete : Prop := ∀ c ∈ s.unitCores die, imgHas s.barNode.img c = true → mine ≤ count s c
    (complete → s.core.veOwesMask mask = false →
      ∃ t, exec (.arrive die b mask) s = .next t ∧ OnlyPosted s t ∧
        (HasPerformed s t (s.core.upTo fun p => mask.getLsbD p.cls.val)) ∧
        (∀ p ∈ t.core.pend, mask.getLsbD p.cls.val = false) ∧
        count t s.cur.val = mine + 1 ∧ ∀ c, c ≠ s.cur.val → count t c = count s c) ∧
    (complete →
      ∃ t, exec (.await die b mask) s = .next t ∧ OnlyPosted s t ∧ t.core.pend = s.core.pend ∧
        SameMemory s t ∧ t.barriers = s.barriers) ∧
    (s.core.veOwesMask mask = true → exec (.arrive die b mask) s = .next s.stallLane) ∧
    (¬ complete → exec (.arrive die b mask) s = .next s.stallLane ∧
      exec (.await die b mask) s = .next s.stallLane)

/-- QPUSH (R47, R343): once the VE has made its routed accesses to U, the thread's stores to U are performed and the
block in the unit pad, as the thread reads it, joins the target core's queue with this core's context; a full queue
makes the lane wait; an exposed line, a core above 127, a misaligned block and one past the pad's end trap. The
number that a pushed node bears is the model's (log entry 19). -/
def Obligations.QueuePushes : Prop :=
  ∀ (q : BitVec 2) (core addr : Opnd) (s : State),
    let c := (s.operand core).toNat
    let a := (s.operand addr).toNat
    let i : Instr := .qpush q core addr
    let queue (t : State) (x : Nat) : List Node := ((t.coreAt x).cmdq q.toNat).nodes
    let bytes := (List.range 128).map (a + ·)
    let owes := s.core.veOwes fun _ sp => sp == .u
    (s.core.exposed = false → c < 128 → a % 128 = 0 → a + 128 ≤ 0x300000 → owes = false →
      s.threadBad (.u s.cur) bytes = none → (queue s c).length < 16 →
      ∃ t n, exec i s = .next t ∧ NextLane s t ∧ SameRegs s t ∧ SettledBut s t .g [] ∧
        (∀ p ∈ t.core.pend, p ∈ s.core.pend ∧ p.space ≠ .u) ∧
        queue t c = queue s c ++ [n] ∧ (∀ x, x ≠ c → queue t x = queue s x) ∧ n.ctx = s.core.ctx ∧
        n.launch = 0 ∧ n.index = s.pushes ∧ t.pushes = s.pushes + 1 ∧
        ∀ w, w < 16 → n.word w =
          BitVec.ofNat 64 (leNat ((List.range 8).map fun k => s.threadByte (.u s.cur) (a + 8 * w + k)))) ∧
    (s.core.exposed = false → c < 128 → a % 128 = 0 → a + 128 ≤ 0x300000 → owes = false →
      s.threadBad (.u s.cur) bytes = none → 16 ≤ (queue s c).length →
      ∃ t, exec i s = .next t ∧ t.core.fetch.lane = s.core.fetch.lane ∧ ∀ x, queue t x = queue s x) ∧
    (s.core.exposed = false → c < 128 → a % 128 = 0 → a + 128 ≤ 0x300000 → owes = true →
      exec i s = .next s.stallLane) ∧
    (CanTrap s →
      (s.core.exposed = true → TrapsHere i s 0x01 (s.laneInfo 0x1700)) ∧
      (s.core.exposed = false → 127 < c → TrapsHere i s 0x04 (s.laneInfo (s.operand core <<< 16))) ∧
      (s.core.exposed = false → c ≤ 127 → a % 128 ≠ 0 →
        TrapsHere i s 0x03 (s.laneInfo (s.operand addr <<< 16))) ∧
      (s.core.exposed = false → c ≤ 127 → a % 128 = 0 → 0x300000 < a + 128 →
        TrapsHere i s 0x04 (s.laneInfo (s.operand addr <<< 16))))

/-- CTSET and STA (R134, R135, R312, R354): CTSET writes one template word and no other; STA captures a template now and
queues the copy on the channel its address names, behind those that wait, with the class mask and the thread's
stores it must follow; a fifth waiting copy makes the lane wait. -/
def Obligations.TemplatesAndStarts : Prop :=
  ∀ (t : Fin 64) (w : Fin 16) (a data : Opnd) (mask : BitVec 16) (s : State),
    let ad := (s.operand a).toNat
    let dat := s.operand data
    let wait (u : State) (ch : Nat) : List Copy := (vget u.core.cpy.channels ch Channel.none).waiting
    (∃ u, exec (.ctset t w a) s = .next u ∧ NextLane s u ∧ SameRegs s u ∧ OnlyCore s u ∧
      (∀ (t' : Fin 64) (w' : Fin 16), u.core.tmplWord t'.val w'.val =
        if t' = t ∧ w' = w then s.operand a else s.core.tmplWord t'.val w'.val) ∧
      { u.core with fetch := s.core.fetch, cpy := { u.core.cpy with tmpl := s.core.cpy.tmpl } } = s.core) ∧
    (∀ k s', ad < 0x40 → ad % 8 = 0 →
      s.captureCopy (dat.toNat % 64) (dat.toNat / 2 ^ 8) (dat.getLsbD 6) (dat.getLsbD 7) = .ok k s' →
      ((wait s (ad / 8)).length < 4 →
        ∃ u, exec (.sta a data mask) s = .next u ∧ NextLane s u ∧ SameRegs s u ∧ SameMemory s u ∧
          u.holds = s'.holds ∧
          (∀ ch, ch < 9 → wait u ch = if ch = ad / 8 then wait s ch ++
            [{ k with cls := mask ||| k.cls,
                      need := (s.core.pend.filter fun p =>
                        !p.ve && (mask ||| k.cls).getLsbD p.cls.val).map Pending.num }]
            else wait s ch)) ∧
      (4 ≤ (wait s (ad / 8)).length → exec (.sta a data mask) s = .next s.stallLane)) ∧
    (CanTrap s → 0x40 ≤ ad → TrapsHere (.sta a data mask) s 0x04 (s.laneInfo (s.operand a <<< 16))) ∧
    (CanTrap s → ad < 0x40 → ad % 8 ≠ 0 →
      TrapsHere (.sta a data mask) s 0x03 (s.laneInfo (s.operand a <<< 16)))

/-- BTSET, BTSWAP and DEAD (R121, R122, R124, R129, R298, R315): in supervisor mode BTSET pushes 2 for an index past
the table, for word 3 and for a bad word 2, then 1 for a held buffer, and else writes one word and pushes 0; BTSWAP
exchanges two entries and their holds, or pushes 2; DEAD of whole pages inside the buffer, whose entry is valid, of
the context's own and no counter's, and whose pages are present, pushes 1 for a held buffer and else 0 and makes every
byte of its pages read zero; any other pushes 2; no cache keeps an entry of a buffer that they change. What a BTSET
over a bad granule and a BTSWAP of a bad one raise, and that a DEAD which meets an INVALID condition and a nonzero
HOLD answers 2, is log entry 58. -/
def Obligations.BufferTableUpdates : Prop :=
  ∀ (d : Dest) (x y : Opnd) (w : BitVec 2) (s : State),
    let e := s.operand x
    let v := s.operand y
    let ctx := s.core.ctx
    let at_ (n k : Nat) : Option Nat := s.entryAddr ctx n k
    let does (i : Instr) (status : Word) : Prop :=
      ∃ t, exec i s = .next t ∧ NextLane s t ∧ OnlyThread s t ∧ Delivers s t d status ∧ SameMemory s t ∧
        t.holds = s.holds
    let invalid : Prop := at_ e.toNat 0 = none ∨ w = 3 ∨ (w = 2 ∧ word2Ok v = false)
    let uncached (t : State) (n : Nat) : Prop := ∀ j : Fin 128, ∀ z ∈ (t.cores[j]).tlb, ¬ (z.ctx = ctx ∧ z.buf = n)
    s.core.regs.sup = true →
    (invalid → does (.btset d x y w) 2) ∧
    (¬ invalid → s.holdCount ctx e.toNat ≠ 0 → does (.btset d x y w) 1) ∧
    (¬ invalid → s.holdCount ctx e.toNat = 0 → ∀ pa, at_ e.toNat w.toNat = some pa →
      (s.firstBad .g ((List.range 8).map (pa + ·)) = none →
        ∃ t, exec (.btset d x y w) s = .next t ∧ NextLane s t ∧ Delivers s t d 0 ∧ t.gWord pa = v ∧
          uncached t e.toNat ∧ ∀ l a, ¬ (l = .g ∧ pa ≤ a ∧ a < pa + 8) → t.byteAt l a = s.byteAt l a) ∧
      (s.firstBad .g ((List.range 8).map (pa + ·)) ≠ none → CanTrap s →
        TrapsTo (.btset d x y w) s 0x0E (s.laneInfo (infoLocal (BitVec.ofNat 64 pa))))) ∧
    ((at_ e.toNat 0 = none ∨ at_ v.toNat 0 = none) → does (.btswap d x y) 2) ∧
    (∀ p q, at_ e.toNat 0 = some p → at_ v.toNat 0 = some q →
      s.firstBad .g ((List.range 32).map (p + ·) ++ (List.range 32).map (q + ·)) = none →
      ∃ t, exec (.btswap d x y) s = .next t ∧ NextLane s t ∧ Delivers s t d 0 ∧
        uncached t e.toNat ∧ uncached t v.toNat ∧
        (∀ k, k < 32 → t.byteAt .g (p + k) = s.byteAt .g (q + k) ∧ t.byteAt .g (q + k) = s.byteAt .g (p + k)) ∧
        (∀ l a, ¬ (l = .g ∧ ((p ≤ a ∧ a < p + 32) ∨ (q ≤ a ∧ a < q + 32))) → t.byteAt l a = s.byteAt l a) ∧
        (e ≠ v → t.holdCount ctx e.toNat = s.holdCount ctx v.toNat ∧
          t.holdCount ctx v.toNat = s.holdCount ctx e.toNat)) ∧
    (∀ p q z, at_ e.toNat 0 = some p → at_ v.toNat 0 = some q →
      s.firstBad .g ((List.range 32).map (p + ·) ++ (List.range 32).map (q + ·)) = some z → CanTrap s →
      TrapsTo (.btswap d x y) s 0x0D (s.laneInfo (infoLocal (BitVec.ofNat 64 z.1)))) ∧
    (let i : Instr := .dead d x y
     let buf := e.toNat / 2 ^ 48
     let off := e.toNat % 2 ^ 48
     let n := v.toNat
     (off % 65536 ≠ 0 ∨ n % 65536 ≠ 0 ∨ n = 0 ∨ at_ buf 0 = none → does i 2) ∧
     ∀ (w2 : Word) (len : Nat) (desc : Nat → Word),
      let aligned := off % 65536 = 0 ∧ n % 65536 = 0 ∧ n ≠ 0 ∧
        ∀ k, 65536 * k < n → TableWords s ctx buf (off / 65536 + k) w2 len (desc k)
      let bad := w2.getLsbD 5 = false ∨ w2.toNat / 2 ^ 36 % 64 ≠ ctx.val ∨ w2.getLsbD 2 = true ∨ len < off + n ∨
        ∃ k, 65536 * k < n ∧ (desc k).getLsbD 63 = false
      let place (j p : Nat) : Prop := PagePlace w2 (desc (j / 65536)) (j % 65536) p
      (aligned → bad → does i 2) ∧
      (aligned → ¬ bad → (∀ j, j < n → ∃ p, place j p) →
        (s.holdCount ctx buf ≠ 0 → does i 1) ∧
        (s.holdCount ctx buf = 0 → ∃ t, exec i s = .next t ∧ NextLane s t ∧ Delivers s t d 0 ∧ uncached t buf ∧
          (∀ j p, j < n → place j p → t.byteAt .g p = 0) ∧
          ∀ l p, (l = .g → ∀ j, j < n → ¬ place j p) → t.byteAt l p = s.byteAt l p)))

/-- The predictor (R197-R199, R387, R389): XPUT replaces one entry, a candidate of id 0xFFF with confidence 0; XGET and
XPRED look an entry up by signature; XGET pushes its four packed candidates, XPRED the ids of its best k, by
confidence and then by number, with 0xFFF in the fields that are left; a miss pushes empty candidates. -/
def Obligations.PredictorEntries : Prop :=
  ∀ (d : Dest) (sig value : Opnd) (k : BitVec 3) (s : State),
    let sg := (s.operand sig).toNat
    let v := s.operand value
    let entry (c : Core) : Option Garnet := smapGet c.garnet (sg % 4096)
    let tag : BitVec 16 := BitVec.ofNat 16 (sg / 4096)
    let hit : Prop := ∃ g, entry s.core = some g ∧ g.tag = tag
    (∃ t, exec (.xput sig value) s = .next t ∧ NextLane s t ∧ SameRegs s t ∧ OnlyCore s t ∧
      (∃ g, entry t.core = some g ∧ g.tag = tag ∧ ∀ j : Fin 4,
        (g.cand[j]).1.toNat = v.toNat / 2 ^ (16 * j.val) % 4096 ∧
        (g.cand[j]).2.toNat = if v.toNat / 2 ^ (16 * j.val) % 4096 = 4095 then 0
          else v.toNat / 2 ^ (16 * j.val + 12) % 16) ∧
      (∀ x, x ≠ sg % 4096 → smapGet t.core.garnet x = smapGet s.core.garnet x) ∧
      { t.core with fetch := s.core.fetch, garnet := s.core.garnet } = s.core) ∧
    (∃ r, Results (.xget d sig) s d r ∧
      (∀ g, entry s.core = some g → g.tag = tag → ∀ j : Fin 4,
        r.toNat / 2 ^ (16 * j.val) % 65536 = (g.cand[j]).2.toNat * 4096 + (g.cand[j]).1.toNat) ∧
      (¬ hit → r = 0x0FFF0FFF0FFF0FFF)) ∧
    (1 ≤ k.toNat → k.toNat ≤ 4 → ∃ r, Results (.xpred d sig k) s d r ∧ r.toNat < 2 ^ 48 ∧
      (∀ g, entry s.core = some g → g.tag = tag → ∃ order : List (Fin 4), order.Perm [0, 1, 2, 3] ∧
        order.Pairwise (fun a b => (g.cand[b]).2.toNat < (g.cand[a]).2.toNat ∨
          ((g.cand[a]).2 = (g.cand[b]).2 ∧ a < b)) ∧
        ∀ j, j < 4 → r.toNat / 2 ^ (12 * j) % 4096 =
          if j < k.toNat then (g.cand[order.getD j 0]).1.toNat else 4095) ∧
      (¬ hit → r = 0x0000FFFFFFFFFFFF))

/-- The order in which pending traps are taken (R214, R223): engine traps by engine number, LEASE_REVOKED,
LEASE_EXPIRY, SCHED_BREAK, PREEMPT; a SCHED_BREAK trap waits while its stall lasts. TRAP_ENTRY (R211, R214, R217):
between lanes, the trap that is due leaves the pending list and the core stands at its handler; TPC names the lane in
turn when that lane holds an instruction or its line is not open yet, and the registers of R211 hold what they name;
an SC access that waited gives up its place and its hold. That TPC may name the first lane of a pair is log entry
18. -/
def Obligations.PendingTrapsAreEntered : Prop :=
  (∀ (c : Core),
    let place (t : TrapReq) : Nat :=
      if t.code = 0x11 then 6 else if t.code = 0x10 then 7 else if t.code = 0x19 then 8
      else if t.code = 0x1A then 9 else t.eng.num
    let may (t : TrapReq) : Prop := t ∈ c.trap.pending ∧ ¬ (t.code = 0x19 ∧ c.stalls t.eng = true)
    (∀ t, c.nextTrap = some t → may t ∧ ∀ u, may u → place t ≤ place u) ∧
    (c.nextTrap = none ↔ ∀ u, ¬ may u)) ∧
  (∀ (s : State) (t : TrapReq),
    s.core.work.run = .running → s.core.work.stopped = false → CanTrap s → s.core.nextTrap = some t →
    ∃ u, exec .trapEntry s = .next u ∧ OnlyCore { s with holds := u.holds } u ∧ u.core.scWait = none ∧
      (∀ h, h ∈ u.holds ↔ h ∈ s.holds ∧ ∀ w, s.core.scWait = some w → w.hold ≠ some h.1) ∧
      u.core.trap.pending = s.core.trap.pending.erase t ∧
      Trapped s.toUnexecuted u t.code t.info t.eng s.toUnexecuted.core.fetch.line
        s.toUnexecuted.core.fetch.lane ∧
      ((s.core.fetch.opened = false ∨ (1 ≤ s.core.fetch.lane ∧ s.core.fetch.lane < 8 ∧
          route (s.laneWord s.core.fetch.line 0) s.core.fetch.lane ≤ 5)) →
        s.toUnexecuted = s))

/-- Double faults (R214): a trap raised in a handler, or while TVB is 0, stops the core with its state frozen; the
fault is logged and reported; neither its control thread nor its engines move again. That a PREEMPT which the core
can no longer answer is answered as refused is the model's choice (log entry 31). The number of its kind in the log
is log entry 37. -/
def Obligations.DoubleFaultStopsTheCore : Prop :=
  ∀ (s : State) (code : BitVec 8) (reason : Nat) (e : Eng),
    (s.core.trap.inh = true ∨ s.core.trap.tvb = 0) →
    let reported : Port := { s.host with msix := s.host.msix ||| 2 }
    ∃ t, exec (.trap code) s = .next t ∧ illegalLane reason s = .next t ∧ OnlyCore { s with
        log := t.log, host := t.host } t ∧
      t.core = { s.core with work := { s.core.work with run := .doubleFault, preempt := none } } ∧
      (∃ x, t.log = s.log ++ [x] ∧ x.kind = 5) ∧
      t.host = (if s.core.work.preempt = none ∧ s.core.work.preempting = none then reported
        else { reported with mbrsp := vofList 32 [1] 0, mbstat := 2, msix := reported.msix ||| 1 }) ∧
      controlStep t = .next t ∧ engineStep e t = .next t

/-- The loop registers hold the loops (R394): up to four loops with bodies of 1 to 2^21 - 1 aligned lines, whose
addresses share bits 63:48 with TPC, are read back as they were. -/
def Obligations.LoopRegistersHoldLoops : Prop :=
  ∀ (tpc : Word) (ls : List LoopEnt),
    ls.length ≤ 4 →
    (∀ l ∈ ls, 0 < l.len ∧ l.len < 2 ^ 21 ∧ l.first.toNat % 32 = 0 ∧
      l.first.toNat / 2 ^ 48 = tpc.toNat / 2 ^ 48) →
    loopsOf tpc (loopRegs ls).1 (loopRegs ls).2 = ls

/-- TRAP and the ERET that ends its handler (R361): a word of op 0x18 with a nonzero bit in 25:8 is ILLEGAL with reason
0x12; TRAP takes trap 0x17 with the lane and code in TINFO and TPC at lane 1 of the line fetch would take next; in a
handler it is a double fault; ERET restores the queue, the loops and the mode from the trap registers as they then
stand and goes on at TPC, so that right after the TRAP it continues as if it had been an empty lane. -/
def Obligations.SoftwareTrapAndReturn : Prop :=
  (∀ w : Nat, w < 2 ^ 32 → w / 2 ^ 26 = 0x18 →
    decodeCC w = if w / 2 ^ 8 % 2 ^ 18 ≠ 0 then .error 0x12 else .ok (.trap (BitVec.ofNat 8 w))) ∧
  decodeCC 0x6000002A = .ok (.trap 0x2A) ∧
  ∀ (code : BitVec 8) (s : State),
    let next := s.core.nextLine
    (s.core.trap.inh = true → ∃ t, exec (.trap code) s = .next t ∧ t.core.work.run = .doubleFault) ∧
    (CanTrap s → ∃ t, exec (.trap code) s = .next t ∧ OnlyCore s t ∧
      Trapped (s.upd fun _ => next) t 0x17
        (BitVec.ofNat 64 (s.core.fetch.lane % 8 + code.toNat * 256)) .cc next.fetch.line 1 ∧
      t.core.regs.q = s.core.regs.q ∧
      (s.core.work.preempting = none → s.core.vec.parked = [] → next.fetch.line.toNat % 32 = 0 →
        next.fetch.loops.length ≤ 4 →
        (∀ l ∈ next.fetch.loops, 0 < l.len ∧ l.len < 2 ^ 21 ∧ l.first.toNat % 32 = 0 ∧
          l.first.toNat / 2 ^ 48 = next.fetch.line.toNat / 2 ^ 48) →
        ∃ u, exec .eret t = .next u ∧ u.core.regs = s.core.regs ∧ u.core.fetch.line = next.fetch.line ∧
          u.core.fetch.lane = 1 ∧ u.core.fetch.loops = next.fetch.loops ∧
          u.core.eng = s.core.eng ∧ u.core.trap.inh = false ∧ u.core.trap.frz = false)) ∧
    (∀ h : State, h.core.regs.sup = true → h.core.trap.abort = false → h.core.work.preempting = none →
      h.core.trap.tpc.toNat / 4 % 8 ≠ 0 →
      ∃ u, exec .eret h = .next u ∧ (∀ j : Fin 16, u.core.regs.q[j] = h.core.trap.tq[j]) ∧
        u.core.fetch.loops = loopsOf h.core.trap.tpc h.core.trap.tloop h.core.trap.tlbody ∧
        u.core.regs.sup = h.core.trap.psup ∧
        u.core.fetch.line = BitVec.ofNat 64 (h.core.trap.tpc.toNat / 32 * 32) ∧
        u.core.fetch.lane = h.core.trap.tpc.toNat / 4 % 8)

/-- ERET (R213, R318): in supervisor mode with a TPC lane, the queue, mode, active engines and loops come back from
the trap registers as they stand, fetch goes on at TPC, every store of the handler is performed, and a copy whose
freeze the handler served issues its element again; with ABORT the invocation is given up with its copies, parked
elements and traps, its node stays held, the abort is logged and reported, and the core's own posts and queue stand as
they were; a TPC lane of 0 is a double fault.
After a port violation its buffers are then translated anew (R218). The kind of the log entry and the number of the
held node are the model's (log entries 37 and 38). -/
def Obligations.ReturnRestoresOrGivesUp : Prop :=
  ∀ (s : State),
    let r := s.core.trap
    (s.core.regs.sup = true → r.tpc.toNat / 4 % 8 ≠ 0 → s.core.work.preempting = none → r.abort = false →
      ∃ t, exec .eret s = .next t ∧
        t.core.regs = { s.core.regs with q := r.tq, sup := r.psup } ∧
        t.core.fetch.line = BitVec.ofNat 64 (r.tpc.toNat / 32 * 32) ∧
        t.core.fetch.lane = r.tpc.toNat / 4 % 8 ∧ t.core.fetch.loops = loopsOf r.tpc r.tloop r.tlbody ∧
        t.core.eng = { s.core.eng with active := if r.inh then r.activeSaved else s.core.eng.active } ∧
        t.core.trap.inh = false ∧ t.core.trap.frz = false ∧ t.core.pend = [] ∧ SettledBut s t .g [] ∧
        (s.core.vec.parked ≠ [] → ∃ x ∈ t.core.trap.pending, x.code = 0x18) ∧
        (s.core.vec.parked = [] → t.core.trap.pending = r.pending) ∧
        (r.tcode ≠ 0x0F → t.core.cpy = s.core.cpy) ∧
        (r.tcode = 0x0F → ∀ (ch : Nat) (x : CopyRun), (vget s.core.cpy.channels ch Channel.none).cur = some x →
          (vget t.core.cpy.channels ch Channel.none).cur =
            some (if x.froze = some r.tinfo then
              { x with err := none, froze := none, again := match x.err with | some y => y.1 == 2 | none => false }
              else x))) ∧
    (∀ p, s.core.regs.sup = true → r.tpc.toNat / 4 % 8 ≠ 0 → s.core.work.preempting = none → r.abort = true →
      s.core.work.cur = some p →
      ∃ t, exec .eret s = .next t ∧ t.core.work.run = .idle ∧ t.core.work.cur = none ∧
        t.core.work.posts = s.core.work.posts ∧ (t.core.cmdq p.q).nodes = (s.core.cmdq p.q).nodes ∧
        (t.core.cmdq p.q).head.held = some 8 ∧ t.core.pend = [] ∧ t.core.liveCopies = [] ∧
        t.core.vec.parked = [] ∧ t.core.trap.pending = [] ∧ (∃ x, t.log = s.log ++ [x] ∧ x.kind = 10) ∧
        t.host.msix = s.host.msix ||| 6 ∧
        (∀ e, e ∈ engines → (t.core.queue e).entries = []) ∧ t.core.eng.active = 0) ∧
    (s.core.regs.sup = true → r.tpc.toNat / 4 % 8 = 0 →
      ∃ t, exec .eret s = .next t ∧ t.core.work.run = .doubleFault ∧ t.core.trap = r)

/-- BRK (R254, R255, R297): with an armed stop that names it the core stops after it, and the fills in flight are
dumped; else it takes trap 0x16 with its number in TINFO, and TPC names the lane after it, which after lane 7 is
lane 1 of the next line. That a BRK of lane 7 names lane 1 of the line after the loop advance is the model's reading
(log entry 28). What a dump holds is log entry 27. -/
def Obligations.BreakpointsStopOrTrap : Prop :=
  ∀ (num : BitVec 16) (s : State),
    let armed : Prop := ∃ m, s.core.work.dbg = some (.brk m) ∧ m.getLsbD (num.toNat % 64) = true
    (armed → ∃ t, exec (.brk num) s = .next t ∧ t.core.work.stopped = true ∧ t.core.work.dbg = none ∧
      t.core.regs = s.core.regs ∧ t.core.halted = true ∧ SameMemory s t ∧
      (∀ f ∈ s.core.cpy.fills, ∃ x ∈ t.core.work.dump, x.target = .slot f.2.slot ∧ x.value = f.2.bytes) ∧
      (s.core.fetch.lane < 7 → t.core.fetch.lane = s.core.fetch.lane + 1 ∧
        t.core.fetch.line = s.core.fetch.line)) ∧
    (¬ armed → CanTrap s → ∃ t, exec (.brk num) s = .next t ∧ OnlyCore s t ∧
      Trapped (s.upd Core.afterLane) t 0x16
        (BitVec.ofNat 64 (s.core.fetch.lane % 8 + num.toNat * 65536)) .cc
        (s.upd Core.afterLane).core.fetch.line (s.upd Core.afterLane).core.fetch.lane) ∧
    (s.core.fetch.lane < 7 → (s.upd Core.afterLane).core.fetch.line = s.core.fetch.line ∧
      (s.upd Core.afterLane).core.fetch.lane = s.core.fetch.lane + 1) ∧
    (7 ≤ s.core.fetch.lane → (s.upd Core.afterLane).core.fetch.line = s.core.nextLine.fetch.line ∧
      (s.upd Core.afterLane).core.fetch.lane = 1)

/-- In user mode the supervisor instructions raise PRIV, changing no memory (R86, R90, R121, R122, R129, R305, R318,
R352, R353): ERET, CLKDIV, BTSET, BTSWAP, DEAD, the writes of RQREL, and reads and writes of a register whose user
column lacks R or W, by R90's numbers; those whose column has the letter complete. -/
def Obligations.UserModeRaisesPriv : Prop :=
  ∀ (d : Dest) (a b : Opnd) (e : Eng) (v : Divisor) (w : BitVec 2) (n : Nat) (s : State),
    let r := BitVec.ofNat 16 n
    let both := (0x100 ≤ n ∧ n ≤ 0x105) ∨ (0x140 ≤ n ∧ n ≤ 0x144)
    let reads := n ≤ 3 ∨ (0x110 ≤ n ∧ n ≤ 0x12F) ∨ (0x130 ≤ n ∧ n ≤ 0x132) ∨ (0x150 ≤ n ∧ n ≤ 0x152) ∨
      (0x160 ≤ n ∧ n ≤ 0x163) ∨ (0x168 ≤ n ∧ n ≤ 0x16A) ∨ (0x170 ≤ n ∧ n ≤ 0x172) ∨ n = 0x178 ∨ n = 0x179 ∨
      (0x200 ≤ n ∧ n ≤ 0x3FF)
    let neither := (0x10 ≤ n ∧ n ≤ 0x14) ∨ (0x20 ≤ n ∧ n ≤ 0x2F) ∨ (0x30 ≤ n ∧ n ≤ 0x35) ∨ (0x38 ≤ n ∧ n ≤ 0x3D) ∨
      (0x40 ≤ n ∧ n ≤ 0x48)
    s.core.regs.sup = false →
    (CanTrap s →
      (∀ i, i ∈ [Instr.eret, .clkdiv e v, .btset d a b w, .btswap d a b, .dead d a b] →
        TrapsHere i s 0x02 (s.laneInfo 0)) ∧
      ((s.operand a).toNat % 4 = 1 → TrapsHere (.rqrelRetry a) s 0x02 (s.laneInfo 0)) ∧
      ((s.operand a).toNat % 4 = 2 → TrapsHere (.rqrelRelease a) s 0x02 (s.laneInfo 0)) ∧
      (neither ∨ n = 0x50 ∨ n = 0x51 → TrapsHere (.srd d r) s 0x02 (s.laneInfo 0)) ∧
      (neither ∨ reads → TrapsHere (.swr a r) s 0x02 (s.laneInfo 0))) ∧
    (both ∨ reads → ∃ t, exec (.srd d r) s = .next t ∧ NextLane s t ∧ SameMemory s t) ∧
    (both → ∃ t, exec (.swr a r) s = .next t ∧ NextLane s t ∧ SameRegs s t ∧ SameMemory s t)

/-- No instruction of a program raises the mode or moves the trap vector (R86): from user mode, whatever an instruction
does next, TVB is as it was, and the core is in supervisor mode afterwards only at the entry of its handler, which
records user mode as the mode before. -/
def Obligations.UserModeCannotRaiseItself : Prop :=
  ∀ (i : Instr) (s t : State), isEvent i = false → s.core.regs.sup = false → exec i s = .next t →
    t.cur = s.cur ∧ t.core.trap.tvb = s.core.trap.tvb ∧
    (t.core.regs.sup = true → t.core.fetch.line = s.core.trap.tvb ∧ t.core.fetch.lane = 1 ∧
      t.core.trap.inh = true ∧ t.core.trap.psup = false)

/-- SRD of registers held in the core (R90, R91, R216, R352, R394): it pushes MODE, TVB, TCODE, TINFO, TPC, TSTAT, TQ,
TLOOP, TLBODY, the pace registers and MONSTAT as their layouts say, and changes nothing else; so it does VALLOT, NEST,
HAZADDR, and the registers outside the core: PHASE, SLEW, CAPOVER, PODSTEP, the droop registers of the core's cluster,
MELT, SPLIM, REFRZ, HOTSKIP, SLKHI and SLKLO; LRC, SPCONF and its neighbours, HAZ and DRCNT it clears as it pushes
them; a bank-conflict counter is at least what it was when it was last read. SWR (R91, R216, R227, R353, R394): TVB
takes bits 63:5, TPC bits 63:2, TSTAT only ABORT from bit 6, MODE only SBTRAP from bit 0, TQ, TLOOP and TLBODY the
whole value, a pace register its low eight bits; a write of a read-only register is ignored. One to a register outside
the core goes on its way, and takes effect by 60 of the core's cycles, in program order: a PHASE, PODSTEP, DRSTR,
DRHALF or DRTEST takes its field; a SLEW outside 50 to 2,000 (R231), an odd DRTH or one outside 4 to 60 (R240), an
SPLIM below 0x2000, a REFRZ of 0 (R243), and an SLKHI or SLKLO that would leave SLKLO at or above SLKHI (R274) is
ignored (R235). When a read or a write outside the core takes effect within its 60 cycles is log entries 60 and 83,
and by how much a bank-conflict counter has grown log entry 20. -/
def Obligations.SystemRegistersReadAndWrite : Prop :=
  (∀ (d : Dest) (s : State),
    let c := s.core
    let t := c.trap
    let bit (b : Bool) (k : Nat) : Nat := if b then 2 ^ k else 0
    let reads (r : Nat) (v : Word) : Prop := Results (.srd d (BitVec.ofNat 16 r)) s d v
    (reads 0x001 (BitVec.ofNat 64 (bit c.regs.sup 4 + 4 * c.fetch.lmode.toNat + bit c.regs.sbtrap 0))) ∧
    (∀ i : Fin 6, reads (0x100 + i.val) ((c.eng.paceWritten[i]).setWidth 64)) ∧
    reads 0x160 c.me.monstat ∧
    (c.regs.sup = true →
      reads 0x010 t.tvb ∧ reads 0x011 t.tcode ∧ reads 0x012 t.tinfo ∧ reads 0x013 t.tpc ∧
      reads 0x014 (BitVec.ofNat 64 (bit t.inh 7 + bit t.abort 6 + 8 * t.eng.num + bit t.frz 2 + bit t.psup 1)) ∧
      reads 0x050 0 ∧ reads 0x051 0 ∧
      (∀ i : Fin 16, reads (0x020 + i.val) t.tq[i]) ∧
      (∀ i : Fin 6, reads (0x030 + i.val) t.tmpc[i]) ∧
      (∀ i : Fin 4, reads (0x040 + i.val) t.tloop[i] ∧ reads (0x044 + i.val) t.tlbody[i]))) ∧
  (∀ (d : Dest) (s : State),
    let c := s.core
    let p := s.power
    let k := s.cur.val / 4
    let dr := vget p.droop k Droop.reset
    let bit (b : Bool) (k : Nat) : Nat := if b then 2 ^ k else 0
    let reads (r : Nat) (v : Word) : Prop := Results (.srd d (BitVec.ofNat 16 r)) s d v
    let clears (r : Nat) (v : Word) (c' : Core) : Prop := ∃ t, exec (.srd d (BitVec.ofNat 16 r)) s = .next t ∧
      NextLane s t ∧ Delivers s t d v ∧ OnlyCore s t ∧ { t.core with regs := c.regs, fetch := c.fetch } = c'
    let lease : Nat := match p.leases.find? fun l => l.clusters.getLsbD k with | some l => l.id | none => 0
    reads 0x002 (BitVec.ofNat 64 c.vec.vallot) ∧ reads 0x171 c.cpy.hazAddr ∧
    (∀ i : Fin 32, reads (0x110 + i.val) ((p.phase[i]).setWidth 64)) ∧
    reads 0x130 (p.slew.setWidth 64) ∧ reads 0x131 p.capover ∧
    reads 0x132 (BitVec.ofNat 64 (p.podSlot.toNat * 65536 + p.podStep.toNat)) ∧
    reads 0x140 (dr.thresh.setWidth 64) ∧ reads 0x141 (dr.str.setWidth 64) ∧ reads 0x142 (dr.half.setWidth 64) ∧
    reads 0x144 (BitVec.ofNat 64 (bit dr.arm 0)) ∧
    reads 0x150 (BitVec.ofNat 64 (lease * 2 ^ 32 + bit p.refreeze.isSome 16 + p.frac.toNat)) ∧
    reads 0x151 (p.splim.setWidth 64) ∧ reads 0x152 (p.refrz.setWidth 64) ∧ reads 0x172 p.hotskip ∧
    reads 0x178 (p.slkhi.setWidth 64) ∧ reads 0x179 (p.slklo.setWidth 64) ∧
    (∀ i : Fin 6, c.regs.sup = true → reads (0x038 + i.val) (if c.trap.inh then c.trap.nest[i]
      else BitVec.ofNat 64 ((c.me.act[i]).count.toNat * 65536 + (c.me.idx[i]).toNat))) ∧
    (∀ i : Fin 3, clears (0x161 + i.val) ((c.me.lrc[i]).setWidth 64) { c with me := { c.me with lrc := c.me.lrc.set i 0 } } ∧
      clears (0x168 + i.val) ((c.me.spcnt[i]).setWidth 64) { c with me := { c.me with spcnt := c.me.spcnt.set i 0 } }) ∧
    clears 0x170 (BitVec.ofNat 64 (c.cpy.hazSpace.toNat * 2 ^ 32 + c.cpy.hazCount.toNat))
      { c with cpy := { c.cpy with hazCount := 0 } } ∧
    (∃ t, exec (.srd d 0x143) s = .next t ∧ NextLane s t ∧ Delivers s t d (dr.cnt.setWidth 64) ∧
      OnlyRegs { s with power := t.power } t ∧ { t.power with droop := p.droop } = p ∧
      ∀ j : Fin 32, t.power.droop[j] = if j.val = k then { dr with cnt := 0 } else p.droop[j]) ∧
    (∀ j : Fin 256, let old := (smapGet c.bcm j.val).getD 0
      ∃ t, ∃ v : BitVec 32, exec (.srd d (BitVec.ofNat 16 (0x200 + j.val))) s = .next t ∧ NextLane s t ∧
        Delivers s t d (v.setWidth 64) ∧ OnlyCore { s with fresh := t.fresh } t ∧ old.toNat ≤ v.toNat ∧
        (224 ≤ j.val → v = old) ∧ smapGet t.core.bcm j.val = some v ∧
        { t.core with regs := c.regs, fetch := c.fetch, bcm := c.bcm, bcmSnap := c.bcmSnap, bcmFixed := c.bcmFixed } = c)) ∧
  (∀ (a : Opnd) (s : State),
    let v := s.operand a
    let r := s.core.trap
    let writes (n : Nat) (c : Core) : Prop :=
      ∃ t, exec (.swr a (BitVec.ofNat 16 n)) s = .next t ∧ NextLane s t ∧ OnlyCore s t ∧
        { t.core with fetch := s.core.fetch } = c
    let trap (x : TrapRegs) : Core := { s.core with trap := x }
    (∀ i : Fin 6, writes (0x100 + i.val)
      { s.core with eng := { s.core.eng with paceWritten := s.core.eng.paceWritten.set i (v.setWidth 8) } }) ∧
    (s.core.regs.sup = true →
      writes 0x001 { s.core with regs := { s.core.regs with sbtrap := v.getLsbD 0 } } ∧
      writes 0x010 (trap { r with tvb := BitVec.ofNat 64 (v.toNat / 32 * 32) }) ∧
      writes 0x013 (trap { r with tpc := BitVec.ofNat 64 (v.toNat / 4 * 4) }) ∧
      writes 0x014 (trap { r with abort := v.getLsbD 6 }) ∧
      (∀ i : Fin 16, writes (0x020 + i.val) (trap { r with tq := r.tq.set i v })) ∧
      (∀ i : Fin 4, writes (0x040 + i.val) (trap { r with tloop := r.tloop.set i v }) ∧
        writes (0x044 + i.val) (trap { r with tlbody := r.tlbody.set i v })) ∧
      (∀ n ∈ [0x000, 0x002, 0x003, 0x011, 0x012, 0x030, 0x038, 0x150, 0x160, 0x161, 0x168, 0x170, 0x171, 0x172],
        writes n s.core) ∧
      (∀ n, (0x110 ≤ n ∧ n ≤ 0x12F) ∨ n ∈ [0x130, 0x131, 0x132, 0x140, 0x141, 0x142, 0x143, 0x144, 0x151, 0x152, 0x178, 0x179] →
        writes n { s.core with outWrites := s.core.outWrites ++ [{ reg := n, value := v, by_ := s.core.cycles + 60 }] }))) ∧
  (∀ (v : Word) (by_ : Nat) (ws : List OutWrite) (s : State),
    let p := s.power
    let k := s.cur.val / 4
    let dr := vget p.droop k Droop.reset
    let lands (n : Nat) (q : Power) : Prop :=
      s.core.outWrites = { reg := n, value := v, by_ } :: ws → by_ ≤ s.core.cycles →
      let t := s.landWrites 1
      t.power = q ∧ t.core = { s.core with outWrites := ws } ∧
        { t with cores := s.cores, power := p, fresh := s.fresh } = s ∧ ∀ j : Fin 128, j ≠ s.cur → t.cores[j] = s.cores[j]
    let droops (n : Nat) (x : Droop) : Prop := lands n { p with droop := vset p.droop k x }
    let slew := v.setWidth 11
    let thresh := v.setWidth 6
    let limit := v.setWidth 16
    let ticks := v.setWidth 32
    (∀ i : Fin 32, lands (0x110 + i.val) { p with phase := p.phase.set i (v.setWidth 5) }) ∧
    lands 0x130 (if 50 ≤ slew.toNat ∧ slew.toNat ≤ 2000 then { p with slew } else p) ∧ lands 0x131 p ∧
    lands 0x132 { p with podSlot := v.extractLsb' 16 6, podStep := v.setWidth 12 } ∧
    (thresh.toNat % 2 = 0 ∧ 4 ≤ thresh.toNat ∧ thresh.toNat ≤ 60 → droops 0x140 { dr with thresh }) ∧
    (¬ (thresh.toNat % 2 = 0 ∧ 4 ≤ thresh.toNat ∧ thresh.toNat ≤ 60) → lands 0x140 p) ∧
    droops 0x141 { dr with str := v.setWidth 4 } ∧ droops 0x142 { dr with half := v.setWidth 10 } ∧ lands 0x143 p ∧
    droops 0x144 { dr with arm := v.getLsbD 0 } ∧
    lands 0x151 (if 0x2000 ≤ limit.toNat then { p with splim := limit } else p) ∧
    lands 0x152 (if limit ≠ 0 then { p with refrz := limit } else p) ∧
    lands 0x178 (if p.slklo.toNat < ticks.toNat then { p with slkhi := ticks } else p) ∧
    lands 0x179 (if ticks.toNat < p.slkhi.toNat then { p with slklo := ticks } else p))

/-- SBCNT (R92): it is 0 at reset; each SCHED_BREAK adds one and it holds at all ones; a read pushes it in bits 31:0 and
clears it; a write leaves it. -/
def Obligations.SchedBreakCount : Prop :=
  (∀ i : Fin 128, State.reset.cores[i].regs.sbcnt = 0) ∧
  ∀ (e : Eng) (d : Dest) (a : Opnd) (s : State),
    (s.schedBreak e).core.regs.sbcnt.toNat = min (s.core.regs.sbcnt.toNat + 1) 0xFFFFFFFF ∧
    (∃ t, exec (.srd d 3) s = .next t ∧ NextLane s t ∧ t.core.regs.sbcnt = 0 ∧
      t.core.regs.q[0] = BitVec.ofNat 64 s.core.regs.sbcnt.toNat) ∧
    (s.core.regs.sup = true →
      ∃ t, exec (.swr a 3) s = .next t ∧ NextLane s t ∧ t.core.regs.sbcnt = s.core.regs.sbcnt)

/-- The control core's token moves (R93): a write of TKPUSH or TKPOP moves one token to or from each engine named in
bits 5:1, ascending, when every queue can take or give one; else the moves before the first that cannot are made,
and the lane waits with those that are left; a push comes after the thread's stores to U (R302). RQREL (R132, R220,
R366): action 2 writes zero to the lane of each parked element that no later instruction has written, releases their
holds and leaves none; action 1 reads each again, oldest first, such a lane taking what the thread reads now, and
one that fails is parked again at the tail, with a hold of its own where it was translated; a lane that shares a
poisoned granule raises MEM_UNCORR instead. Both complete in supervisor mode, whatever is parked. That the moves
made are kept while the lane waits, and that a push performs just the stores to U, is log entry 17, and that
register poison names no address log entry 69. -/
def Obligations.TokensAndReplayQueue : Prop :=
  (∀ (a : Opnd) (s : State),
    let named (e : Eng) : Prop := e ∈ engines ∧ (s.operand a).getLsbD e.num = true ∧
      s.core.fetch.moved.getLsbD e.num = false
    let done (t : State) (x : Eng) : Prop := t.core.fetch.moved.getLsbD x.num = true
    let waits (t : State) : Prop := t.core.fetch.lane = s.core.fetch.lane ∧ t.core.fetch.line = s.core.fetch.line ∧
      (s.core.exposed = false → SameRegs s t)
    ((∀ e, named e → s.core.eng.tok .cc e < 15) →
      ∃ t, exec (.tkpushWrite a) s = .next t ∧ NextLane s t ∧ SameRegs s t ∧
        (HasPerformed s t fun p => !p.ve && p.space == .u) ∧
        (∀ e, named e → t.core.eng.tok .cc e = s.core.eng.tok .cc e + 1) ∧
        (∀ x y, ¬ (x = .cc ∧ named y) → t.core.eng.tok x y = s.core.eng.tok x y)) ∧
    ((∀ e, named e → 0 < s.core.eng.tok e .cc) →
      ∃ t, exec (.tkpopWrite a) s = .next t ∧ NextLane s t ∧ SameRegs s t ∧ SameMemory s t ∧
        (∀ e, named e → t.core.eng.tok e .cc = s.core.eng.tok e .cc - 1) ∧
        (∀ x y, ¬ (y = .cc ∧ named x) → t.core.eng.tok x y = s.core.eng.tok x y)) ∧
    (∀ e, named e → 15 ≤ s.core.eng.tok .cc e →
      (∀ x, named x → x.num < e.num → s.core.eng.tok .cc x < 15) →
      ∃ t, exec (.tkpushWrite a) s = .next t ∧ waits t ∧ (HasPerformed s t fun p => !p.ve && p.space == .u) ∧
        (∀ x, named x → x.num < e.num → t.core.eng.tok .cc x = s.core.eng.tok .cc x + 1 ∧ done t x) ∧
        (∀ x, named x → e.num ≤ x.num → t.core.eng.tok .cc x = s.core.eng.tok .cc x ∧ ¬ done t x) ∧
        (∀ x y, ¬ (x = .cc ∧ named y) → t.core.eng.tok x y = s.core.eng.tok x y)) ∧
    (∀ e, named e → s.core.eng.tok e .cc = 0 →
      (∀ x, named x → x.num < e.num → 0 < s.core.eng.tok x .cc) →
      ∃ t, exec (.tkpopWrite a) s = .next t ∧ waits t ∧ SameMemory s t ∧
        (∀ x, named x → x.num < e.num → t.core.eng.tok x .cc = s.core.eng.tok x .cc - 1 ∧ done t x) ∧
        (∀ x, named x → e.num ≤ x.num → t.core.eng.tok x .cc = s.core.eng.tok x .cc ∧ ¬ done t x) ∧
        (∀ x y, ¬ (y = .cc ∧ named x) → t.core.eng.tok x y = s.core.eng.tok x y))) ∧
  (∀ (a : Opnd) (s : State),
    let v := s.core.vec
    let ps := v.parked
    let refused (p : Parked) : Bool := p.live && v.refuses p.vd [p.lane]
    let released (hs : List Nat) (s t : State) : Prop := t.holds = s.holds.filter (fun h => !(hs.contains h.1))
    let reads (s : State) (p : Parked) : Except GatherBad Nat := s.gatherRead
      (if p.beyond then .error { code := 0x07, addr := p.addr, kind := 2, phys := 0, refused := false, held := false }
       else s.gatherPlaces p.ctx p.addr 0 p.es)
    let retried (s t : State) (p : Parked) : Prop :=
      SameRegs s t ∧ SettledBut s t .g [] ∧
      (∀ x, reads s p = .ok x → (∀ h ∈ t.holds, p.hold ≠ some h.1) ∧
        (p.live = true → s.core.vec.refuses p.vd [p.lane] = false → t.core.trap = s.core.trap ∧
          t.core.vec.parked = s.core.vec.parked.map (fun z =>
            if z.vd = p.vd ∧ z.lane = p.lane then { z with live := false } else z) ∧
          ∀ r l, l < 64 → p.lane < 64 → t.core.vec.lane r l =
            if r = p.vd ∧ l = p.lane then BitVec.ofNat 32 x else s.core.vec.lane r l) ∧
        (p.live = true → s.core.vec.refuses p.vd [p.lane] = true → t.core.vec = s.core.vec ∧
          t.core.trap.pending = s.core.trap.pending ++ [⟨0x0E, 0, .ve⟩]) ∧
        (p.live = false → t.core.vec = s.core.vec ∧ t.core.trap = s.core.trap)) ∧
      (∀ e, reads s p = .error e → t.core.vec.regs = s.core.vec.regs ∧ t.core.trap = s.core.trap ∧
        t.core.vec.parked = s.core.vec.parked ++
          [{ p with code := e.code, addr := e.addr, hold := if e.held then some s.nextHold else none }])
    s.core.regs.sup = true →
    ((s.operand a).toNat % 4 = 2 →
      ∃ t, exec (.rqrelRelease a) s = .next t ∧ NextLane s t ∧ SameRegs s t ∧ SameMemory s t ∧
        t.core.vec.parked = [] ∧ released (ps.map fun p => p.hold.toList).flatten s t ∧
        t.core.trap.pending = s.core.trap.pending ++ (ps.filter refused).map (fun _ => ⟨0x0E, 0, .ve⟩) ∧
        (∀ r l, l < 64 → (∀ p ∈ ps, p.lane < 64) → t.core.vec.lane r l =
          if ∃ p ∈ ps, p.live = true ∧ refused p = false ∧ p.vd = r ∧ p.lane = l then 0 else v.lane r l)) ∧
    ((s.operand a).toNat % 4 = 1 →
      ∃ (t : State) (at_ : Nat → State), exec (.rqrelRetry a) s = .next t ∧ NextLane s t ∧
        at_ 0 = s.updVec (fun q => { q with parked := [] }) ∧
        (∀ k p, ps[k]? = some p → retried (at_ k) (at_ (k + 1)) p) ∧
        OnlyCore (at_ ps.length) t ∧ { t.core with fetch := (at_ ps.length).core.fetch } = (at_ ps.length).core))

/-- SPRINT and SPREL (R245-R247, R249, R250): the statuses are tested in their order; a grant takes the next id, ends
2,500 ticks per microsecond later, and its clusters run at divisor 4 until their switch, 12,500 ticks later at most;
SPREL ends a live lease of the core's cluster, returning its clusters to divisor 4 and opening or extending the
refreeze interval, and else does nothing. Of one instant's requests a lower core's, and before them all a release,
goes first: one that comes too late for that waits for the next instant. -/
def Obligations.SprintLeases : Prop :=
  ∀ (d : Dest) (a b : Opnd) (s : State),
    let m := s.operand a
    let us := s.operand b
    let p := s.power
    let live := p.sprinting
    let status : Option Nat :=
      if m = 0 ∨ 2 ^ 32 ≤ m.toNat ∨ us = 0 ∨ 60000000 < us.toNat then some 5
      else if live &&& m.setWidth 32 ≠ 0 then some 4
      else if p.splim.toNat ≤ p.frac.toNat then some 1
      else if p.refreeze.isSome then some 2
      else if p.spmax < popcount 32 live.toNat + popcount 32 m.toNat then some 3
      else none
    let last : Option (Word × Nat) := some (s.time, s.cur.val)
    (s.servedAfter s.cur.val = true → exec (.sprint d a b) s = .next s) ∧
    (∀ r, s.servedAfter s.cur.val = false → status = some r → ∃ t, exec (.sprint d a b) s = .next t ∧ NextLane s t ∧ SameMemory s t ∧
      Delivers s t d (BitVec.ofNat 64 (r * 2 ^ 56)) ∧ OnlyRegs { s with power := { p with lastReq := last } } t) ∧
    (s.servedAfter s.cur.val = false → status = none → ∃ t, exec (.sprint d a b) s = .next t ∧ NextLane s t ∧
      SameMemory s t ∧ Delivers s t d (BitVec.ofNat 64 p.nextLease) ∧ t.power.lastReq = last ∧
      t.power.leases = p.leases ++
        [{ id := p.nextLease, clusters := m.setWidth 32, expiry := s.time + 2500 * us }] ∧
      t.power.nextLease = (if p.nextLease = 0xFFFFFFFF then 1 else p.nextLease + 1) ∧
      t.power.switching = p.switching ||| m.setWidth 32 ∧
      (∀ k : Fin 32, t.power.switchBy[k] = if m.getLsbD k.val then s.time + 12500 else p.switchBy[k]) ∧
      ∀ i : Fin 128, (t.cores[i]).eng.div = if (m.setWidth 32).getLsbD (i.val / 4)
        then Vector.replicate 6 .d4 else (s.cores[i]).eng.div) ∧
    (s.servedAfter (-1) = true → exec (.sprel a) s = .next s) ∧
    (∀ l, s.servedAfter (-1) = false → p.leases.find? (fun l => l.id == m.toNat && l.clusters.getLsbD s.cluster) = some l →
      ∃ t, exec (.sprel a) s = .next t ∧ t.core.regs = s.core.regs ∧
        t.core.fetch.lane = s.core.fetch.lane + 1 ∧ t.core.trap = s.core.trap ∧
        t.power.leases = p.leases.filter (fun x => x.id != l.id) ∧
        (∃ e : Word, t.power.refreeze = some e ∧ e.toNat = max s.time.toNat ((p.refreeze.getD 0).toNat)) ∧
        (∀ i : Fin 128, l.clusters.getLsbD (i.val / 4) = true →
          (t.cores[i]).eng.div = Vector.replicate 6 .d4)) ∧
    (s.servedAfter (-1) = false →
      p.leases.find? (fun l => l.id == m.toNat && l.clusters.getLsbD s.cluster) = none →
      ∃ t, exec (.sprel a) s = .next t ∧ OnlyPosted s t ∧ SameMemory s t ∧ t.power = p)

/-- A turn runs the decoded instruction (R54, R57, R69): a running control thread with an open line executes the
control-core word its lane holds, or routes the pair; an engine executes the head of its queue, and an event happens.
Around it a turn takes the turn's core, lets time pass and counts the core's cycles, and what has come due then
happens: a reading is taken, a window closes, an expired lease ends, a granted switch is made, writes on their way and
owed traps land by their time, late results arrive, an armed stop is met, a cell error is logged, a page is cached.
After a control-core instruction its load may still take a newer value, which changes no register and no memory; an
atomic, a read of a register outside the core and a sprint request may be left to come, with a place in the queue and
no value yet; a turn that must come after a result which is not there does nothing. A map or a payload may be read
before the turn that starts the entry. An element of a copy may be written in a turn of its own, its source may be
looked at before it begins, and the host acts over a usable link alone (R25). Outside exposed regions nothing else is
late; in one, a lane or an entry may wait and count one SCHED_BREAK (R223). Whose turn it is, how much time passes
before it and what comes late are the model's own fields (log entries 5, 6, 10, 26, 60, 80, 81, 82 and 83). -/
def Obligations.StepRunsDecodedInstruction : Prop :=
  ∀ (s : State) (i : Instr) (e : Eng) (c : Capture),
    let turn := s.takeTurn.1
    let p := s.takeTurn.2.pass turn.core
    let u := s.takeTurn.2.begin turn
    let f := u.core.fetch
    let r := route (u.laneWord f.line 0) f.lane
    let w := u.laneWord f.line f.lane
    let x := u.laneWord f.line (f.lane + 1)
    let quiet : Prop := p.core.opened = [] ∧ p.core.vec.owed = [] ∧ p.core.work.preempt = none
    let runs : Prop := turn.act = .lane ∧ u.core.halted = false ∧ u.core.work.run = .running ∧
      u.core.trapDue = false ∧ f.draining = false ∧ f.opened = true ∧ f.lane < 8 ∧ u.waitsLate turn.act = false
    (u.waitsLate turn.act = true → step s = .next u) ∧ (u.core.opened = [] → u.waitsLate turn.act = false) ∧
    (runs → r = 0 → decodeCC w = .ok i → step s = execLane i u.lateLane) ∧
    (∀ v : State, v.core.opened = [] →
      ((v.core.deterministic = true ∨ v.lateOf i = none) → execLane i v = exec i v) ∧
      execNow i v = (match exec i v with
        | .next t => .next (v.noteLate t i)
        | .fault x => .fault x
        | .refused x => .refused x)) ∧
    (∀ v t : State, exec i v = .next t →
      execLane i v = execNow i v ∨ execLane i v = execNow i v.draw ∨
      ∃ y, v.leave t i = some y ∧ canLeave i = true ∧ execLane i v = .next y.draw) ∧
    (∀ v t : State,
      (let z := v.noteLate t i
       { z with cores := t.cores, holds := t.holds, nextHold := t.nextHold } = t ∧
       (∀ j : Fin 128, j ≠ t.cur → z.cores[j] = t.cores[j]) ∧ { z.core with opened := t.core.opened } = t.core) ∧
      ∀ y, v.leave t i = some y → t.core.fetch.lane = v.core.fetch.lane + 1 ∧ v.core.deterministic = false ∧
        NextLane v y ∧ SameMemory v y ∧ (∃ d, Delivers v y d 0) ∧ y.core.opened.length = v.core.opened.length + 1) ∧
    (runs → 1 ≤ r → r ≤ 5 → decodeInLine u.core.deterministic (engOf r) w x = .ok i →
      step s = routeLane (engOf r) i u.lateLane) ∧
    (runs → 5 < r → step s = .next u.advance) ∧
    (∀ n, runs → CanTrap u → ((r = 0 ∧ decodeCC w = .error n) ∨
        (1 ≤ r ∧ r ≤ 5 ∧ decodeInLine u.core.deterministic (engOf r) w x = .error n)) →
      ∃ t, step s = .next t ∧ OnlyCore u.lateLane t ∧
        Trapped u.lateLane t 0x01 (u.laneInfo (BitVec.ofNat 64 (256 * n))) .cc f.line f.lane) ∧
    (turn.act = .engine e → u.waitsLate turn.act = false → u.core.halted = false → u.core.frozen = false →
      (u.core.queue e).entries.head? = some (.instr i c) → (u.core.queue e).phase = .ready →
      (State.readsAt e i c = none → step s = exec i (u.lateEntry e)) ∧
      ∃ v, step s = exec i v ∧ (v = u.lateEntry e ∨ v = (u.lateEntry e).draw) ∨ step s = .next v ∧ SameMemory u v ∧
        v.core.regs = (u.lateEntry e).core.regs ∧ v.core.queue e = (u.lateEntry e).core.queue e) ∧
    (turn.act = .event i → u.waitsLate turn.act = false → isEvent i = true → (isCoreEvent i = true → u.core.halted = false) →
      (isHostEvent i = true → u.host.linked = true) → step s = exec i u) ∧
    (∀ ch k, turn.act = .land ch k → u.core.halted = false → step s = .next (u.landElem ch k)) ∧
    (∀ ch, turn.act = .look ch → u.core.halted = false → step s = .next (u.lookCopy ch)) ∧
    (∀ o, turn.act = .outside o → step s = outsideStep o u) ∧
    (u.core.exposed = false → u.lateLane = u) ∧
    (u.core.exposed = true → u.lateLane = u ∨ u.lateLane = u.draw ∨
      u.lateLane = (u.draw.schedBreak .cc).updFetch fun f => { f with stalled := true }) ∧
    ((∀ z, (u.core.queue e).entries.head? = some z → z.lmode.getLsbD 0 = false) → u.lateEntry e = u) ∧
    (∀ t ts, s.turns = t :: ts → turn = t) ∧
    u.cur = turn.core ∧ u.turns = s.turns.tail ∧ u.steps = s.steps + 1 ∧
    p.cur = turn.core ∧ p.turns = s.turns.tail ∧ p.steps = s.steps + 1 ∧
    { p with cores := s.cores, cur := s.cur, turns := s.turns, steps := s.steps, time := s.time } = s ∧
    (∀ j : Fin 128, j ≠ p.cur → p.cores[j] = s.cores[j]) ∧
    { p.core with regs := { p.core.regs with cyc := s.cores[p.cur].regs.cyc }
                  work := { p.core.work with dbgFrom := s.cores[p.cur].work.dbgFrom }
                  cycles := s.cores[p.cur].cycles } = s.cores[p.cur] ∧
    ((∀ l ∈ p.power.leases, p.time.toNat < l.expiry.toNat) → p.core.stopDue = false →
      (∀ k : Fin 32, p.power.switching.getLsbD k = true → p.time.toNat < (p.power.switchBy[k]).toNat) →
      (p.host.ready = true → p.readingDue = false ∧ p.windowDue = false) → quiet → p.core.outWrites = [] →
      p.core.leaseTraps = [] → turn.cell = none → turn.fill = none → u = p) ∧
    (quiet → (∀ x ∈ p.core.outWrites, outsideCore x.reg = true) → turn.cell = none → turn.fill = none →
      u.core.regs = p.core.regs ∧ SameMemory p u) ∧
    (∀ x, u.core.outWrites.head? = some x → u.core.cycles < x.by_) ∧
    (∀ x, u.core.leaseTraps.head? = some x → u.time.toNat < x.by_.toNat)

/-- Routing (R57, R69, R80, R123, R268, R271, R300): a pair of an active engine whose queue has room joins it with
what it captures, and fetch goes on behind its two lanes; a guarded copy is captured with its translations and holds,
or traps; the parameters of a guarded link command are checked; a full queue makes the lane wait; an inactive engine
is ILLEGAL with reason 0x16. An LRED whose EXPECT does not fit the line's mode is no instruction there: its reason is
0x13, or a lower one that it also has. That the traps of a pair are raised also while its queue is full is log entry
86. -/
def Obligations.LanePairsAreRouted : Prop :=
  (∀ (e : Eng) (i : Instr) (b : LaneB) (s : State),
    let q := s.core.queue e
    let active := s.core.eng.active.getLsbD e.num = true
    let guarded : Bool := match b.guard with | none => true | some (k, inv) => s.core.regs.k[k] != inv
    let par (p : Fin 16) : Word := (vget s.core.eng.params e.num (Vector.replicate 16 0))[p]
    let joins (copy : Option Copy) (t : State) : Prop := ∃ c : Capture,
      (t.core.queue e).entries = q.entries ++ [.instr i c] ∧
      (∀ x : Eng, x ≠ e → t.core.queue x = s.core.queue x) ∧
      t.core.fetch = { s.core.fetch with lane := s.core.fetch.lane + 2, stalled := false, waited := false, moved := 0 } ∧
      c.params = vget s.core.eng.params e.num (Vector.replicate 16 0) ∧ c.guard = guarded ∧
      c.line = s.core.fetch.line ∧ c.lane = s.core.fetch.lane ∧ c.lmode = s.core.fetch.lmode ∧
      c.ctx = s.core.ctx ∧ c.wid = s.core.regs.wid ∧ c.copy = copy
    let trapsWith (code : Nat) (info : Word) : Prop := ∃ t, routeLane e i s = .next t ∧ OnlyCore s t ∧
      Trapped s t code (s.laneInfo info) .cc s.core.fetch.line s.core.fetch.lane
    let captures : Option Prep := match i with
      | .ccopy t sp po p _ => some (s.captureCopy t.val ((par p).toNat % 2 ^ 56) sp po)
      | .cfill sp len pat addr _ => some (s.captureFill sp (par len) (par pat) (par addr))
      | .cpost v k _ => some (s.capturePost (par v) (par k))
      | .cmov x y len a d _ => some (s.captureMove x y (par len) (par a) (par d))
      | _ => none
    let refused : Option (Nat × Word) := match i with
      | .lsend d a pk k len _ => linkFault (s.core.capture e guarded) d a pk k len
      | .lred _ d a pk k _ len _ => linkFault (s.core.capture e guarded) d a pk (some k) len
      | _ => none
    LaneB.of i = some b → active →
    ((guarded = false ∨ (captures = none ∧ refused = none)) →
      (q.entries.length < 32 → ∃ t, routeLane e i s = .next t ∧ OnlyCore s t ∧ SameRegs s t ∧ joins none t) ∧
      (32 ≤ q.entries.length → routeLane e i s = .next s.stallLane)) ∧
    (∀ k s', guarded = true → captures = some (.ok k s') →
      (q.entries.length < 32 → ∃ t, routeLane e i s = .next t ∧ SameRegs s t ∧ SameMemory s t ∧
        t.holds = s'.holds ∧ joins (some k) t) ∧
      (32 ≤ q.entries.length → routeLane e i s = .next s.stallLane)) ∧
    (∀ code info, CanTrap s → code ≠ 0x14 → guarded = true →
      (captures = some (.trap code info) ∨ refused = some (code, info)) → trapsWith code info)) ∧
  (∀ (e : Eng) (i : Instr) (s : State), s.core.eng.active.getLsbD e.num = false → CanTrap s →
    ∃ t, routeLane e i s = .next t ∧ OnlyCore s t ∧
      Trapped s t 0x01 (s.laneInfo 0x1600) .cc s.core.fetch.line s.core.fetch.lane) ∧
  (∀ (det : Bool) (a w : Nat) (half : Bool) (d src pk ctr x : Fin 16) (len : Fin 4096) (b : LaneB),
    a < 2 ^ 32 → w < 2 ^ 32 →
    decodeEngine .le a w = .ok (.lred half d src pk ctr x len b) →
    decodeInLine det .le a w = if (x = 0 ↔ det = true) then .error 0x13
      else .ok (.lred half d src pk ctr x len b)) ∧
  (∀ (det : Bool) (e : Eng) (a w : Nat) (i : Instr), decodeEngine e a w = .ok i →
    (∀ half d src pk ctr x len b, i ≠ .lred half d src pk ctr x len b) → a < 2 ^ 32 → w < 2 ^ 32 →
    decodeInLine det e a w = .ok i)

/-- The words of the spec's worked encodings decode to the instructions they stand for (R79, R144, R294, R319, R343,
R389). -/
def Obligations.SpecWordsDecode : Prop :=
  decodeCC 0x0491A800 = .ok (.add (.n 4) (.n 1) (.n 5)) ∧
  decodeCC 0xC4020006 = .ok (.cfence .die 6) ∧
  decodeCC 0x543D0000 = .ok (.guard 1 (.n 13)) ∧
  decodeCC 0x58000800 = .ok (.fork 2) ∧
  decodeCC 0xE054A800 = .ok (.qpush 2 (.n 4) (.n 5)) ∧
  decodeCC 0xED380002 = .ok (.xpred (.n 9) (.n 8) 2)

/-- Encode and decode agree (R60-R69): the words of every well-formed instruction decode to it, with every operand at
every value the encoding admits. Decode and encode agree in the other direction: words that decode are those of the
instruction they decode to, which is well formed; no bit of a word is dropped, and no two words mean one
instruction. -/
def Obligations.EncodeAndDecodeAgree : Prop :=
  (∀ (i : Instr) (w : Words), i.wf = true → encode i = some w → decodeWords w = .ok i) ∧
  ((∀ (w : Nat) (i : Instr), w < 2 ^ 32 → decodeCC w = .ok i → i.wf = true ∧ encode i = some (.cc w)) ∧
  ∀ (e : Eng) (a b : Nat) (i : Instr), a < 2 ^ 32 → b < 2 ^ 32 → decodeEngine e a b = .ok i →
    i.wf = true ∧ encode i = some (.pair e a b))

/-- Every step keeps all memory (R12, R114) in canonical form, so that equal memories are equal data; the form is the
model's own. -/
def Obligations.StepKeepsMemoryCanonical : Prop :=
  ∀ (s t : State), s.memWf → step s = .next t → t.memWf

/-- Reset (R25, R86, R92, R216, R231, R235, R240, R243, R244, R274): memory is canonical and every local pad reads zero;
every core is idle in user mode with TVB and INH 0; TIME is 0, divisors are 4, and the package registers hold the
values the spec gives. That memory is held in a canonical form is the model's own. -/
def Obligations.ResetState : Prop :=
  let r := State.reset
  r.memWf ∧ (∀ (l : Loc) (a : Nat), l ≠ .g → r.byteAt l a = 0) ∧ r.time = 0 ∧ r.watchdog = 50 ∧
  (∀ i : Fin 128, (r.cores[i]).regs.sup = false ∧ (r.cores[i]).regs.sbcnt = 0 ∧
    (r.cores[i]).regs.sbtrap = false ∧ (r.cores[i]).trap.tvb = 0 ∧ (r.cores[i]).trap.inh = false ∧
    (r.cores[i]).eng.div = Vector.replicate 6 .d4 ∧ (r.cores[i]).work.run = .idle) ∧
  (∀ k : Nat, k < 32 → vget r.power.phase k 0 = 0 ∧
    (vget r.power.droop k Droop.reset).thresh = 20 ∧ (vget r.power.droop k Droop.reset).str = 4 ∧
    (vget r.power.droop k Droop.reset).half = 128) ∧
  r.power.slew = 400 ∧ r.power.podStep = 64 ∧ r.power.splim = 0xE000 ∧ r.power.refrz = 250 ∧
  r.power.slkhi = 0xFFFFFFFF ∧ r.power.slklo = 5000 ∧ r.power.pcap = 3200 ∧ r.power.spmax = 32 ∧
  r.power.leases = []

/-- MCLAIM, MREL and MZERO (R162, R331): on a range within slots or entries 0 to 63, whose slots are all free or all not
free, each is claimed with an empty side record, or freed without binding and skip bit; each entry reads zero,
without tag mode and poison. A fault changes nothing and names 63 or the lowest offending slot. MNEST, MMON, MSPEC
and MLADR (R166, R175, R180, R187, R203): one field of one shadow level; one threshold, and TOPMAX clears the count
of top failures; the tag context, whose row maps lie at a multiple of 128; and the binding of a slot that is not
free to a declared ladder, with KLEN 0 for the whole K of rung 0. Entries are held in canonical form. -/
def Obligations.SlotRangesAndMatrixRegisters : Prop :=
  (∀ (x n : Fin 64) (b : LaneB) (c : Capture) (s : State),
    let m := s.core.me
    let k := if n.val = 0 then 64 else n.val
    let within (i : Nat) : Prop := x.val ≤ i ∧ i < x.val + k
    let slots (i : Instr) (f : Slot → Slot) : Prop :=
      ∃ w, Performs i s .me b w ∧ OnlyMe s w ∧ { w.core.me with slots := m.slots } = m ∧
        ∀ j, j < 64 → (within j → w.core.me.slot j = f (m.slot j)) ∧
          (¬ within j → w.core.me.slot j = m.slot j)
    (AtHead s .me b (.mclaim x n b) c →
      (x.val + k ≤ 64 → (∀ j, within j → (m.slot j).st = .free) →
        slots (.mclaim x n b) fun _ => { Slot.reset with st := .claimed }) ∧
      (64 < x.val + k → EngTraps (.mclaim x n b) s .me 0x09 63) ∧
      (∀ j, x.val + k ≤ 64 → within j → (m.slot j).st ≠ .free →
        (∀ i, within i → i < j → (m.slot i).st = .free) →
        EngTraps (.mclaim x n b) s .me 0x09 (BitVec.ofNat 64 j))) ∧
    (AtHead s .me b (.mrel x n b) c →
      (x.val + k ≤ 64 → (∀ j, within j → (m.slot j).st ≠ .free) →
        slots (.mrel x n b) fun o => { o with st := .free, bind := none, skip := false }) ∧
      (64 < x.val + k → EngTraps (.mrel x n b) s .me 0x09 63) ∧
      (∀ j, x.val + k ≤ 64 → within j → (m.slot j).st = .free →
        (∀ i, within i → i < j → (m.slot i).st ≠ .free) →
        EngTraps (.mrel x n b) s .me 0x09 (BitVec.ofNat 64 j))) ∧
    (AtHead s .me b (.mzero x n b) c → Memory.wf m.amem →
      (x.val + k ≤ 64 → ∃ w, Performs (.mzero x n b) s .me b w ∧ OnlyMe s w ∧
        { w.core.me with amem := m.amem, tags := m.tags, abad := m.abad } = m ∧
        (∀ q, q ∈ w.core.me.abad ↔ q ∈ m.abad ∧ ¬ within (q / 2048)) ∧
        (∀ a, readByte w.core.me.amem a =
          if 16384 * x.val ≤ a ∧ a < 16384 * (x.val + k) then 0 else readByte m.amem a) ∧
        ∀ j, j < 64 → (within j → w.core.me.tag j = { m.tag j with mode := 0, poison := none }) ∧
          (¬ within j → w.core.me.tag j = m.tag j)) ∧
      (64 < x.val + k → EngTraps (.mzero x n b) s .me 0x04 63))) ∧
  (∀ (l : Fin 6) (nf : NestField) (mf : MonField) (v klen : BitVec 16) (x : SpecTag) (sl : Fin 64) (lad : Fin 16)
    (roleB : Bool) (p : Fin 16) (b : LaneB) (c : Capture) (s : State),
    let m := s.core.me
    let sets (i : Instr) (m' : Matrix) : Prop := Performs i s .me b (s.updMe fun _ => m')
    let d := m.ladders[lad]
    let k0 := fmtK (rungFmt (ladRung d 0))
    let k := if klen = 0 then k0 else klen.toNat
    let a := c.params[p]
    (AtHead s .me b (.mnest l nf v b) c → ∃ sh, sets (.mnest l nf v b) { m with shadow := sh } ∧
      (∀ j : Fin 6, j ≠ l → sh[j] = m.shadow[j]) ∧
      sh[l] = (match nf with
        | .count => { m.shadow[l] with count := v }
        | .astep => { m.shadow[l] with astep := v }
        | .bstep => { m.shadow[l] with bstep := v }
        | .cstep => { m.shadow[l] with cstep := v }
        | .sstep => { m.shadow[l] with sstep := v }
        | .flags => { m.shadow[l] with flags := v })) ∧
    (AtHead s .me b (.mmon mf v b) c → ∃ mo,
      sets (.mmon mf v b) { m with mon := mo, topcnt := if mf = .topmax then 0 else m.topcnt } ∧
      ∀ j : Fin 7, mo[j] = if j.val = mf.code then v else m.mon[j]) ∧
    (AtHead s .me b (.mspec none b) c → sets (.mspec none b) { m with spec := none }) ∧
    (AtHead s .me b (.mspec (some x) b) c → (c.params[x.p]).toNat % 128 = 0 →
      sets (.mspec (some x) b) { m with spec := some (x, c.params[x.p]) }) ∧
    (AtHead s .me b (.mspec (some x) b) c → (c.params[x.p]).toNat % 128 ≠ 0 →
      EngTraps (.mspec (some x) b) s .me 0x03 (c.params[x.p] <<< 16)) ∧
    (AtHead s .me b (.mladr sl lad roleB p klen b) c → (m.slot sl.val).st ≠ .free → ladDeclared d = true →
      k ≤ k0 → a.toNat % 64 = 0 → a.toNat + 128 * k ≤ 0x300000 →
      ∃ w, Performs (.mladr sl lad roleB p klen b) s .me b w ∧ OnlyMe s w ∧
        { w.core.me with slots := m.slots } = m ∧
        w.core.me.slot sl.val =
          { m.slot sl.val with bind := some { lad, roleB, shadow := a.toNat, klen := k } } ∧
        ∀ j, j < 64 → j ≠ sl.val → w.core.me.slot j = m.slot j))

/-- MFILL, MWB and FILL_COMPLETE (R131, R149, R162-R165, R181, R195, R333): a fill of a slot that is not free starts
with the pad's bytes as the core's engines find them; when it completes, the slot holds its bytes with its side
record and carries no poison, is filled if it was claimed, and its binding ends unless the fill keeps it; MWB writes
an entry into the pad and clears poison there, and a poisoned entry raises MEM_POISON. A map's fill holds its
elements as they are read again at its end (log entry 10). That a poisoned entry names no address is log entry 69. -/
def Obligations.SlotsAreFilled : Prop :=
  ∀ (sl e : Fin 64) (p : Fin 16) (b : LaneB) (c : Capture) (g : Eng) (f0 : Fill) (s : State),
    let a := (c.params[p]).toNat
    let u : Loc := .u s.cur
    let pad := s.unit
    let mine : List Nat := (List.range 16384).map (a + ·)
    let f := s.refill f0
    (f0.map = none → f = f0) ∧
    ((∀ z ∈ s.core.pend, z.ve = false) → pad = s.padAt u) ∧
    (a % 256 = 0 → a + 16384 ≤ 0x300000 → s.memWf →
     (∀ x ∈ pad.bad, x.1 * 8 + 8 ≤ a ∨ a + 16384 ≤ x.1 * 8) →
     (AtHead s .me b (.mfill sl p b) c → (s.core.me.slot sl.val).st ≠ .free → ∃ f : Fill,
      Starts (.mfill sl p b) s .me b
        (s.updCpy fun k => { k with fills := k.fills ++ [(.me, f)] }) ∧
      f.slot = sl.val ∧ f.bytes = mine.map (readByte pad.mem) ∧ f.zp = none ∧ f.map = none ∧ f.old = none ∧
      f.sat = 0 ∧ f.unf = 0 ∧ f.nan = 0 ∧ f.poison = none ∧ f.skip = false ∧ f.keepBind = false)) ∧
    (AtHead s .me b (.mfill sl p b) c → (s.core.me.slot sl.val).st = .free →
      EngTraps (.mfill sl p b) s .me 0x09 (BitVec.ofNat 64 sl.val)) ∧
    (a % 256 = 0 → a + 16384 ≤ 0x300000 → s.memWf → AtHead s .me b (.mwb e p b) c →
      (s.core.me.entryPoison e.val = false → ∃ w, Performs (.mwb e p b) s .me b w ∧
        (∀ i, a ≤ i → i < a + 16384 → w.byteAt u i = readByte s.core.me.amem (16384 * e.val + (i - a))) ∧
        (∀ q ∈ (w.padAt u).bad, q.1 * 8 + 8 ≤ a ∨ a + 16384 ≤ q.1 * 8) ∧
        SettledBut s w u mine ∧
        ((∀ z ∈ s.core.pend, z.ve = true → z.loc ≠ u) → w.cores = s.cores ∧
          ∀ l i, ¬ (l = u ∧ i ∈ mine) → w.byteAt l i = s.byteAt l i)) ∧
      (s.core.me.entryPoison e.val = true → EngTraps (.mwb e p b) s .me 0x0D 0)) ∧
    (s.core.cpy.fills.find? (fun x => x.1 == g) = some (g, f0) → s.core.frozen = false → f.slot < 64 →
      f.old = none → f.bytes.length = 16384 → s.memWf →
      ∃ t, exec (.fillComplete g) s = .next t ∧ SameMemory s t ∧ SameRegs s t ∧
        (t.core.cpy.fills.map fun x => (x.1, x.2.slot)) =
          (s.core.cpy.fills.filter fun x => x.1 != g).map (fun x => (x.1, x.2.slot)) ∧
        (∀ i, readByte t.core.me.omem i =
          if 16384 * f.slot ≤ i ∧ i < 16384 * f.slot + 16384 then f.bytes.getD (i - 16384 * f.slot) 0
          else readByte s.core.me.omem i) ∧
        (∀ q, q ∈ t.core.me.obad ↔ q ∈ s.core.me.obad ∧ q / 2048 ≠ f.slot) ∧
        (∀ j, j < 64 → j ≠ f.slot → t.core.me.slot j = s.core.me.slot j) ∧
        ∃ z, t.core.me.slot f.slot =
          { st := if (s.core.me.slot f.slot).st = .claimed then .filled else (s.core.me.slot f.slot).st
            zp := z, sat := f.sat, unf := f.unf, nan := f.nan, poison := f.poison, skip := f.skip
            bind := if f.keepBind then (s.core.me.slot f.slot).bind else none })

/-- MMA, MMA.fmt.LAD and MGO issue tiles (R131, R166-R171, R183, R204, R205, R335, R336): with both slots filled and
unpoisoned, an MMA issues its tile, a quantized one with partial entries from its own on; a ladder MMA with fitting
bindings issues a ladder tile; an MGO copies the shadow nest and issues its first step, which overwrites when some
level sets CLR, and a quantized one has its scale blocks from its base on; a COUNT of 0 ends it at once, whatever
the base; a slot that is not filled raises SLOT_STATE. In a tag context the entry gets the tag of its place, with
the row map of the pad; a poisoned slot then poisons the tag and computes nothing, where it raises MEM_POISON
without one. A quantized MMA only overwrites its entries, whose poison it does not read (R109). That a quantized
tile tags its entry alone is log entry 50. -/
def Obligations.TilesAreIssued : Prop :=
  ∀ (f : Fmt) (lf : LadFmt) (e sa sb : Fin 64) (g : Option QGroup) (mq : Option MgoQ) (b : LaneB) (c : Capture)
    (x y : Bind) (tag : AccTag) (s : State),
    let m := s.core.me
    let issues (i : Instr) (t : Tile) (nest : Bool) : Prop := ∃ w, Starts i s .me b w ∧ OnlyMe s w ∧
      (∃ k, w.core.me.work = some k ∧ k.tile = some t ∧ k.nest = nest ∧ k.replays = [] ∧ k.windows = 0) ∧
      w.core.me.tag e.val = tag ∧ (∀ j, j < 64 → j ≠ e.val → w.core.me.tag j = m.tag j) ∧
      w.core.me.amem = m.amem ∧ w.core.me.omem = m.omem ∧ w.core.me.slots = m.slots
    let tile (f : Fmt) (clr : Bool) (lad : Option (Bind × Bind)) (q : Option QGroup) (part : Nat)
        (scale : Option Nat) (t : Tile) : Prop :=
      t.fmt = f ∧ t.e = e.val ∧ t.sa = sa.val ∧ t.sb = sb.val ∧ t.clr = clr ∧ t.lad = lad ∧ t.q = q ∧
      t.part = part ∧ t.scale = scale ∧ t.step = 0 ∧ t.oldA = none ∧ t.oldB = none ∧
      t.biasA = m.slotBias sa.val ∧ t.biasB = m.slotBias sb.val
    let filled := (m.slot sa.val).st = .filled ∧ (m.slot sb.val).st = .filled
    let unspoilt := s.tileTag e.val = .ok tag ∧ (m.slot sa.val).poison = none ∧ (m.slot sb.val).poison = none ∧
      ∀ q ∈ m.obad, q / 2048 ≠ sa.val ∧ q / 2048 ≠ sb.val
    let clean := unspoilt ∧ m.entryPoison e.val = false
    let started := m.work = none
    let mma : Instr := .mma f e sa sb g b
    let mgo : Instr := .mgo f e sa sb mq b
    let base : Nat := match mq with | some z => (c.params[z.p]).toNat | none => 0
    let fits : Prop := ∀ z, mq = some z → z.part.val + groups f z.g ≤ 64 ∧
      (e.val < z.part.val ∨ z.part.val + groups f z.g ≤ e.val) ∧ base + 256 * groups f z.g ≤ 0x300000 ∧
      ∀ q ∈ s.unit.bad, q.1 * 8 + 8 ≤ base ∨ base + 256 * groups f z.g ≤ q.1 * 8
    (m.spec = none → s.tileTag e.val = .ok AccTag.reset) ∧
    (∀ z w, m.spec = some (z, w) → (e.val < z.ebase.val → s.tileTag e.val = .ok AccTag.reset) ∧
      (z.ebase.val ≤ e.val → w.toNat + 128 * (e.val - z.ebase.val) + 128 ≤ 0x300000 → s.unit.bad = [] → s.memWf →
        s.tileTag e.val = .ok
          { mode := if z.conf then 2 else 1, id := (z.xbase.toNat + (e.val - z.ebase.val)) % 4096, poison := none
            map := (List.range 64).map fun k => BitVec.ofNat 16 (leNat ((List.range 2).map fun n =>
              readByte s.unit.mem (w.toNat + 128 * (e.val - z.ebase.val) + 2 * k + n))) })) ∧
    (AtHead s .me b mma c → filled → unspoilt → (g = none → m.entryPoison e.val = false) →
      (∀ q, g = some q → e.val + groups f q ≤ 64) →
      ∃ t, tile f false none g e.val none t ∧ issues mma t false) ∧
    (AtHead s .me b mma c → (m.slot sa.val).st ≠ .filled → EngTraps mma s .me 0x09 (BitVec.ofNat 64 sa.val)) ∧
    (AtHead s .me b mma c → (m.slot sa.val).st = .filled → (m.slot sb.val).st ≠ .filled →
      EngTraps mma s .me 0x09 (BitVec.ofNat 64 sb.val)) ∧
    (∀ q, AtHead s .me b mma c → filled → g = some q → 64 < e.val + groups f q →
      EngTraps mma s .me 0x04 (BitVec.ofNat 64 e.val)) ∧
    (∀ code, AtHead s .me b mma c → filled → s.tileTag e.val = .ok tag → (∀ q, g = some q → e.val + groups f q ≤ 64) →
      (m.slot sa.val).poison = some code →
      (m.spec = none → EngTraps mma s .me 0x0D (BitVec.ofNat 64 sa.val)) ∧
      (m.spec ≠ none → Performs mma s .me b
        (s.updMe fun m => { m with tags := m.tags.set e { tag with poison := some code } }))) ∧
    (AtHead s .me b (.mmaLad lf e sa sb b) c → filled → clean →
      (m.slot sa.val).bind = some x → (m.slot sb.val).bind = some y → x.roleB = false → y.roleB = true →
      (m.ladders[x.lad]).toNat % 2 ^ 12 = (m.ladders[y.lad]).toNat % 2 ^ 12 →
      (m.ladders[x.lad]).toNat % 16 = (match lf with | .bf16 => 2 | .e4m3 => 4 | .e2m1 => 7) →
      ∃ t, tile (match lf with | .bf16 => .bf16 | .e4m3 => .e4m3 | .e2m1 => .e2m1) false (some (x, y)) none e.val
          none t ∧ issues (.mmaLad lf e sa sb b) t false) ∧
    (AtHead s .me b mgo c → started → filled → clean → base % 256 = 0 → fits →
      (m.slot sa.val).bind = none → (m.slot sb.val).bind = none →
      (∀ l : Fin 6, m.shadow[l].count ≠ 0) → (∀ l : Fin 6, m.shadow[l].flags.getLsbD 1 = false) →
      ∃ t w, tile f (decide (∃ l : Fin 6, m.shadow[l].flags.getLsbD 0 = true)) none (mq.map MgoQ.g)
          (match mq with | some z => z.part.val | none => e.val) (mq.map fun _ => base) t ∧
        issues mgo t true ∧ Starts mgo s .me b w ∧
        w.core.me.act = m.shadow ∧ w.core.me.idx = Vector.replicate 6 0 ∧ w.core.me.shadow = m.shadow) ∧
    (AtHead s .me b mgo c → started → (∀ l : Fin 6, m.shadow[l].count ≠ 0) → base % 256 ≠ 0 →
      EngTraps mgo s .me 0x03 (BitVec.ofNat 64 (base * 65536))) ∧
    (AtHead s .me b mgo c → started → (∃ l : Fin 6, m.shadow[l].count = 0) →
      Performs mgo s .me b
        (s.updMe fun m => { m with act := m.shadow, idx := Vector.replicate 6 0 }))

/-- MMA_COMMIT (R105-R109, R161, R167, R170, R174-R176, R184, R187): a plain float tile puts into each element the sum
of its products and of what the entry holds, or of +0 with clr; a Q tile puts the exact partials of its groups into
their entries, and a scaled step of a nest then adds them times their scales, one rounding a group; a ladder tile that
fails below its top rung is squashed: it is counted, clears its entry where clr asks for it, and waits for its replay,
leaving all else as it was; any other commits, counted when it fails at the top. MONSTAT and MON_TRAP follow each
commit; other entries stay, and an MMA then pushes its tokens while a nest goes on with its next step. Which value
within the bound an inexact sum takes is left free (log entry 11), BSO counts once a group (67), and a partial is
formed exactly (75). -/
def Obligations.TilesCommit : Prop :=
  ∀ (s : State) (w : MeWork) (t : Tile),
    let m := s.core.me
    let acc := accFmt t.fmt
    let wd := accBytes t.fmt
    let n := fmtN t.fmt
    let elem (u : State) (width e row col : Nat) : Nat :=
      leNat ((List.range width).map fun i => readByte u.core.me.amem (16384 * e + 256 * row + width * col + i))
    let codeA (row k : Nat) : Nat := ((codesA t.fmt (m.slotData t.sa)).getD row []).getD k 0
    let codeB (k col : Nat) : Nat := ((codesB t.fmt (m.slotData t.sb)).getD col []).getD k 0
    let prods (row col : Nat) : List FVal := (List.range (fmtK t.fmt)).map fun k =>
      (arrayElem (fmtA t.fmt) t.biasA (codeA row k)).1.mul (arrayElem (fmtB t.fmt) t.biasB (codeB k col)).1
    let terms (row col : Nat) : List FVal :=
      acc.decode (if t.clr then 0 else elem s wd t.e row col) :: prods row col
    let counts : Counts :=
      { sat := countGrid 64 n fun row col => SatSum acc (terms row col)
        unf := countGrid 64 (fmtK t.fmt) (fun row k => Flushed (fmtA t.fmt) (codeA row k)) +
          countGrid (fmtK t.fmt) n fun k col => Flushed (fmtB t.fmt) (codeB k col)
        can := countGrid 64 n fun row col => CanSum (m.mon[6]).toNat (prods row col)
        nan := countGrid 64 n fun row col => NanSum (terms row col)
        bso := 0 }
    let others (u : State) (within : Nat → Prop) : Prop :=
      ∀ a, ¬ within (a / 16384) → readByte u.core.me.amem a = readByte m.amem a
    let committed (u : State) : Prop := others u (· = t.e) ∧
      ∀ row col, row < 64 → col < n → IsSum acc (fmtK t.fmt) (terms row col) (elem u wd t.e row col)
    s.memWf → m.work = some w → w.tile = some t → t.e < 64 → t.oldA = none → t.oldB = none → t.value = [] →
    (s.core.queue .me).phase = .busy → s.core.engHeld .me = false →
    ∃ u, exec .mmaCommit s = .next u ∧ SameMemory s u ∧ SameRegs s u ∧
      u.core.me.omem = m.omem ∧ u.core.me.slots = m.slots ∧ u.core.me.tags = m.tags ∧
      (t.q = none → t.lad = none → committed u ∧ Monitored s u counts false t.step ∧ u.core.me.lrc = m.lrc ∧
        u.core.me.topcnt = m.topcnt ∧
        (w.nest = false → w.replays = [] → u.core.me.work = none ∧
          ∀ i c b, (s.core.queue .me).entries.head? = some (.instr i c) →
            LaneB.of i = some b → (u.core.queue .me).phase = .pushing b.push) ∧
        (w.nest = true → (m.idx[5]).toNat + 1 < (m.act[5]).count.toNat →
          u.core.me.idx = m.idx.set 5 (m.idx[5] + 1) ∧ (u.core.queue .me).phase = .ready)) ∧
      (∀ x y, t.q = none → t.lad = some (x, y) →
        let sa := m.slot t.sa
        let sb := m.slot t.sb
        let n' : Counts := { counts with sat := counts.sat + sa.sat + sb.sat, unf := counts.unf + sa.unf + sb.unf,
                                         nan := counts.nan + sa.nan + sb.nan }
        let past (k : Fin 7) (x : Nat) : Prop := m.mon[k] ≠ 0xFFFF ∧ (m.mon[k]).toNat < x
        let fails : Prop := past 0 n'.sat ∨ past 1 n'.unf ∨ past 2 n'.can
        let top : Prop := (ladRungs (m.desc x)).length ≤ 1
        (fails → ¬ top → u.core.me.lrc = m.lrc.set 0 (satAdd32 m.lrc[0] 1) ∧ u.core.me.topcnt = m.topcnt ∧
          u.core.me.monstat = m.monstat ∧ u.core.trap.pending = s.core.trap.pending ∧
          (t.clr = false → u.core.me.amem = m.amem) ∧
          (t.clr = true → others u (· = t.e) ∧ ∀ a, a / 16384 = t.e → readByte u.core.me.amem a = 0) ∧
          ∃ w', u.core.me.work = some w' ∧ w'.tile = none ∧ w'.replays = w.replays ++ [t]) ∧
        (¬ fails ∨ top → committed u ∧ Monitored s u n' true t.step ∧
          (fails → u.core.me.lrc = m.lrc.set 2 (satAdd32 m.lrc[2] 1) ∧ u.core.me.topcnt = m.topcnt + 1) ∧
          (¬ fails → u.core.me.lrc = m.lrc ∧ u.core.me.topcnt = m.topcnt) ∧
          (w.nest = false → w.replays = [] → u.core.me.work = none))) ∧
      (∀ g, t.q = some g → n = 64 →
        let size := match g with | .g32 => 32 | .g64 => 64 | .g128 => 128
        let num := fmtK t.fmt / size
        let zero (e : EFmt) (x : Slot) (i j : Nat) : Int :=
          (readByte x.zp (16 * i + j)).toNat % (if e.bits = 4 then 16 else 256)
        let partial_ (j row col : Nat) : Int := ((List.range size).map fun k =>
          ((codeA row (size * j + k) : Int) - zero (fmtA t.fmt) (m.slot t.sa) row j) *
            ((codeB (size * j + k) col : Int) - zero (fmtB t.fmt) (m.slot t.sb) col j)).sum
        let part (e : Nat) : Prop := t.part ≤ e ∧ e < t.part + num
        (t.scale = none → others u part ∧ Monitored s u Counts.zero false t.step) ∧
        (t.scale = none ∨ ¬ part t.e → ∀ j row col, j < num → row < 64 → col < 64 →
          (elem u 4 (t.part + j) row col : Int) = partial_ j row col % 2 ^ 32) ∧
        (∀ sp, t.scale = some sp → ¬ part t.e → (∀ j row col, j < num → row < 64 → col < 64 →
            -(2 ^ 31) ≤ partial_ j row col ∧ partial_ j row col < 2 ^ 31) →
          let scale (j i : Nat) : FVal := fF16.decode (leNat [readByte s.unit.mem (sp + 256 * j + 2 * i),
            readByte s.unit.mem (sp + 256 * j + 2 * i + 1)])
          let term (j row col : Nat) : FVal :=
            ((FVal.ofInt (partial_ j row col) 0 false).mul (scale j row)).mul (scale j (64 + col))
          let after (j row col : Nat) : Nat := (List.range j).foldl
            (fun x i => fF32.round .rne ((fF32.decode x).add .rne (term i row col)))
            (if t.clr then 0 else elem s 4 t.e row col)
          let finite (v : FVal) : Bool := match v with | .fin .. => true | .nan | .inf _ => false
          let overflows (j row col : Nat) : Bool := !finite (scale j row) || !finite (scale j (64 + col)) ||
            (finite (fF32.decode (after j row col)) && finite (term j row col) &&
              !finite (fF32.decode (after (j + 1) row col)))
          others u (fun e => e = t.e ∨ part e) ∧
          (∀ row col, row < 64 → col < 64 → elem u 4 t.e row col = after num row col) ∧
          Monitored s u { Counts.zero with
            bso := ((List.range num).map fun j => countGrid 64 64 (overflows j)).sum } false t.step))

/-- LADDER_REPLAY (R180, R182, R184, R185, R187, R188): the first squashed tile runs again at its next rung, pass by
pass. A pass that begins reads its shadows as they are, and raises MEM_POISON where one carries lasting poison; one
that ends adds onto what the entry, or the passes before it, gave the sum of the products of its shadows, each element
converted to the rung, and counts its events; the last pass of a rung commits, or, when it fails below the top rung,
is counted and gives way to the next rung; a failure at the top is counted. MSCA (R111, R131, R171) adds each partial
times its row scale and its column scale to the entry, rounding once, one group a step, and raises MEM_POISON where an
entry is poisoned. Inexact sums of a replay are free within the bound, and so is which of two values a racing shadow
element has (log entries 10 and 11). That a poisoned entry names no address is log entry 69, and that a partial of
more than 24 bits is taken exactly, also where F32 of it would round, is log entry 75. -/
def Obligations.ReplaysAndScales : Prop :=
  ∀ (w : MeWork) (t : Tile) (rest : List Tile) (x y : Bind) (f : Fmt) (dst part n : Fin 64) (g : QGroup)
    (p : Fin 16) (k : BitVec 16) (b : LaneB) (c : Capture) (s : State),
    let m := s.core.me
    let elem (u : State) (e row col : Nat) : Nat :=
      leNat ((List.range 4).map fun i => readByte u.core.me.amem (16384 * e + 256 * row + 4 * col + i))
    let others (u : State) (e : Nat) : Prop :=
      ∀ a, a < 16384 * e ∨ 16384 * (e + 1) ≤ a → readByte u.core.me.amem a = readByte m.amem a
    let ks := (List.range (fmtK f)).map (fmtK f * w.passes + ·)
    let replaying := m.work = some w ∧ w.tile = none ∧ w.replays = t :: rest ∧ t.lad = some (x, y) ∧ t.e < 64 ∧
      (s.core.queue .me).phase = .busy ∧ s.core.engHeld .me = false ∧ (ladRungs (m.desc x))[w.rung]? = some f
    let last := fmtK t.fmt ≤ (w.passes + 1) * fmtK f
    let top := (ladRungs (m.desc x)).length ≤ w.rung + 1
    s.memWf →
    (replaying → w.seen = none → s.passBad x ks = none → s.passBad y ks = none →
      exec .ladderReplay s = .next (s.updMe fun m => { m with
        work := some { w with seen := some (s.shadowBytes x, s.shadowBytes y) } })) ∧
    (∀ a, replaying → w.seen = none → s.passBad x ks = some (a, none) →
      ∃ u, exec .ladderReplay s = .next u ∧ SameMemory s u ∧ u.core.me.amem = m.amem ∧
        u.core.trap.pending = s.core.trap.pending ++ [⟨0x0D, BitVec.ofNat 64 a <<< 16, .me⟩]) ∧
    (∀ sh, replaying → w.seen = some sh →
      let r := s.replayPass t x y w.rung f ks sh w.sums
      -- the shadows are as the pass found them
      (sh = (s.shadowBytes x, s.shadowBytes y) →
        let code (z : Bind) (i k : Nat) : Nat :=
          let a := z.shadow + (if z.roleB then 128 * k + 2 * i else 2 * z.klen * i + 2 * k)
          if z.klen ≤ k then 0 else leNat [readByte s.unit.mem a, readByte s.unit.mem (a + 1)]
        let bias (z : Bind) : Int := ladBias (m.desc z) w.rung
        let conv (z : Bind) (i k : Nat) : Conv := match f with
          | .e4m3 => fE4M3.encode .rne ((fBF16.decode (code z i k)).shift (- bias z))
          | .e2m1 => fE2M1.encode .rne ((fBF16.decode (code z i k)).shift (- bias z))
          | _ => convElem (.flt fBF16) (.flt fBF16) (code z i k)
        let value (z : Bind) (i k : Nat) : FVal := (arrayElem (fmtA f) (bias z) (conv z i k).code).1
        let prods (row col : Nat) : List FVal := ks.map fun k => (value x row k).mul (value y col k)
        let prior (row col : Nat) : Nat := match w.sums with
          | some z => (z.1.getD row []).getD col 0
          | none => elem s t.e row col
        let terms (row col : Nat) : List FVal := fF32.decode (prior row col) :: prods row col
        let before : Counts := match w.sums with | some z => z.2 | none => Counts.zero
        let past (p : Conv → Bool) : Nat :=
          countGrid 64 (fmtK f) (fun i k => p (conv x i (fmtK f * w.passes + k))) +
          countGrid 64 (fmtK f) (fun i k => p (conv y i (fmtK f * w.passes + k)))
        (∀ row col, row < 64 → col < 64 → IsSum fF32 (fmtK f) (terms row col) ((r.1.getD row []).getD col 0)) ∧
        r.2 = { sat := before.sat + past Conv.sat + countGrid 64 64 (fun row col => SatSum fF32 (terms row col))
                unf := before.unf + past Conv.unf + past fun z => Flushed (fmtA f) z.code
                can := before.can + countGrid 64 64 (fun row col => CanSum (m.mon[6]).toNat (prods row col))
                nan := before.nan + past Conv.nan + countGrid 64 64 (fun row col => NanSum (terms row col))
                bso := before.bso }) ∧
      ∃ u, exec .ladderReplay s = .next u ∧ SameMemory s u ∧
        (¬ last → u.core.me =
          { m with work := some { w with passes := w.passes + 1, sums := some r, seen := none } }) ∧
        (last → m.failed r.2 = true → ¬ top → u.core.me.amem = m.amem ∧
          u.core.me.lrc = m.lrc.set 1 (satAdd32 m.lrc[1] 1) ∧
          ∃ w', u.core.me.work = some w' ∧ w'.replays = t :: rest ∧ w'.rung = w.rung + 1 ∧ w'.passes = 0 ∧
            w'.sums = none ∧ w'.seen = none) ∧
        (last → (m.failed r.2 = false ∨ top) → others u t.e ∧
          (∀ row col, row < 64 → col < 64 → elem u t.e row col = (r.1.getD row []).getD col 0 % 2 ^ 32) ∧
          u.core.me.lrc = (if m.failed r.2 then m.lrc.set 2 (satAdd32 m.lrc[2] 1) else m.lrc) ∧
          (rest = [] → u.core.me.work = none) ∧
          (rest ≠ [] → ∃ w', u.core.me.work = some w' ∧ w'.replays = rest ∧ w'.rung = 1 ∧ w'.passes = 0))) ∧
    (let num := if n.val = 0 then 64 else n.val
     let a := (c.params[p]).toNat
     let i : Instr := .msca dst part n g p k b
     AtHead s .me b i c → m.work = none → num = (k.toNat + groupSize g - 1) / groupSize g →
     part.val + num ≤ 64 → (dst.val < part.val ∨ part.val + num ≤ dst.val) → a % 256 = 0 →
     a + 256 * num ≤ 0x300000 → (∀ q ∈ s.unit.bad, q.1 * 8 + 8 ≤ a ∨ a + 256 ≤ q.1 * 8) →
     let half (j : Nat) : FVal := fF16.decode (leNat [readByte s.unit.mem (a + 2 * j),
       readByte s.unit.mem (a + 2 * j + 1)])
     (m.entryPoison dst.val = true ∨ m.entryPoison part.val = true → EngTraps i s .me 0x0D 0) ∧
     (m.entryPoison dst.val = false → m.entryPoison part.val = false →
      ∃ u, exec i s = .next u ∧ SameMemory s u ∧ SameRegs s u ∧ others u dst.val ∧
       (1 < num → (u.core.queue .me).step = 1 ∧ (u.core.queue .me).entries = (s.core.queue .me).entries) ∧
       ∀ row col, row < 64 → col < 64 → elem u dst.val row col =
         fF32.round .rne ((fF32.decode (elem s dst.val row col)).add .rne
           (((FVal.ofInt (signedOf 32 (elem s part.val row col)) 0 false).mul (half row)).mul
             (half (64 + col))))))

/-- MRESOLVE (R200, R206-R209): with a descriptor that passes its checks and no poisoned entry it ends every tag of
its range; a row tagged with a chosen expert is added, times its gate, to its token's row of entry o, and no other
entry changes; without misses to record the pad and the predictor stay and it completes, and otherwise only the miss
list changes and the predictor is then trained token by token, each in a turn of its own, the last of which
completes it. The bound of the router table and one token a turn are log entries 53 and 16. -/
def Obligations.ResolveEndsSpeculation : Prop :=
  ∀ (f n o : Fin 64) (noTrain : Bool) (p : Fin 16) (b : LaneB) (c : Capture) (s : State),
    let i : Instr := .mresolve f n o noTrain p b
    let m := s.core.me
    let a := (c.params[p]).toNat
    let byte (x : Nat) : Byte := readByte s.unit.mem x
    let d := resolveDesc ((List.range 32).map fun k => byte (a + k))
    let k := if n.val = 0 then 64 else n.val
    let within (e : Nat) : Prop := f.val ≤ e ∧ e < f.val + k
    let word (x : Nat) : Nat := leNat ((List.range 4).map fun q => byte (x + q))
    let elem (u : State) (e row col : Nat) : Nat :=
      leNat ((List.range 4).map fun q => readByte u.core.me.amem (16384 * e + 256 * row + 4 * col + q))
    let picks (t : Nat) : List (Nat × Nat) :=
      choices ((List.range d.k).map fun q => word (d.router + 16 * (t - d.tbase) + 4 * q))
    let misses : List Nat := (List.range (4 + 4 * d.t * d.k)).map (d.miss + ·)
    let tokens : List (Word × List Nat) := (List.range d.t).map fun t =>
      (BitVec.ofNat 64 (word (d.sigs + 4 * t)), (picks (d.tbase + t)).map Prod.fst)
    let training : List (Word × List Nat) := match m.work with | some w => w.train | none => []
    (s.memWf → AtHead s .me b i c → training = [] → a % 32 = 0 → a + 32 ≤ 0x300000 → s.unit.bad = [] →
    d.ok = true →
    d.router % 4 = 0 → d.miss % 4 = 0 → d.sigs % 4 = 0 →
    d.router + 16 * (d.t - 1) + 4 * d.k ≤ 0x300000 → d.miss + 4 + 4 * d.t * d.k ≤ 0x300000 →
    d.sigs + 4 * d.t ≤ 0x300000 → f.val + k ≤ 64 → ¬ within o.val →
    (∀ e, within e → (m.tag e).poison = none) → m.abad = [] →
    ∃ w t, exec i s = .next t ∧
      (noTrain = true → t = (w.popHead .me b.pop).pushHead .me b.push) ∧
      (noTrain = false → t = (w.popHead .me b.pop).updEng (fun q => q.goesOn .me) ∧
        w.core.me.work = some { MeWork.none with train := tokens, pk := d.pk }) ∧
      (∀ e, e < 64 → (within e → (w.core.me.tag e).mode = 0 ∧ (w.core.me.tag e).poison = none) ∧
        (¬ within e → w.core.me.tag e = m.tag e)) ∧
      (∀ x, x < 16384 * o.val ∨ 16384 * (o.val + 1) ≤ x → readByte w.core.me.amem x = readByte m.amem x) ∧
      w.core.garnet = s.core.garnet ∧ (noTrain = true → SameMemory s w) ∧
      SettledBut s w (.u s.cur) misses ∧
      ((∀ z ∈ s.core.pend, z.ve = false) →
        ∀ l x, ¬ (l = .u s.cur ∧ x ∈ misses) → w.byteAt l x = s.byteAt l x) ∧
      (∀ e row t g, within e → (∀ e', within e' → ((m.tag e').mode ≠ 0 ↔ e' = e)) → row < 64 →
        (m.tag e).rows = [(row, t)] → d.tbase ≤ t → t < d.tbase + d.t →
        List.lookup (m.tag e).id (picks t) = some g →
        ∀ col, col < 64 → elem w o.val (t - d.tbase) col = fF32.round .rne
          ((fF32.decode (elem s o.val (t - d.tbase) col)).add .rne
            ((fF32.decode (elem s e row col)).mul (fBF16.decode g))))) ∧
    (∀ w z rest, AtHead s .me { b with pop := 0 } i c → m.work = some w → w.train = z :: rest →
      let trained := s.upd fun q => q.train z.1 z.2 w.pk
      (rest = [] → exec i s = .next (((trained.updMe fun q => { q with work := none }).popHead .me 0).pushHead .me
        b.push)) ∧
      (rest ≠ [] → exec i s = .next (((trained.updMe fun q =>
        { q with work := some { MeWork.none with train := rest, pk := w.pk } }).popHead .me 0).updEng
          fun q => q.goesOn .me)))

/-- Lane by lane arithmetic (R112, R362, R368, R369, R384, R385): each active lane of vd takes the result on its
elements; floats round once in the mode of the instruction, integers wrap, and a shift counts its amount modulo the
width. -/
def Obligations.LanewiseArithmetic : Prop :=
  ∀ (v : V3) (v4 : V4) (u : V2) (ar : Bool) (b : LaneB) (c : Capture) (s : State),
    let x (l : Nat) := s.core.vec.elem v.ty v.va.val l
    let y (l : Nat) := s.core.vec.elem v.ty v.vb.val l
    let n := tyBits v.ty
    let by3 (i : Instr) (val : Nat → Nat) : Prop :=
      VecReady s b i c [v.vd, v.va, v.vb] (uses s v.mask [v.va, v.vb] (some v.vd.val)) → VecWrites i s b v.mask v.vd.val val
    let float (ff : FFmt → FVal → FVal → Nat) (fi : Nat → Nat → Nat) (l : Nat) : Nat :=
      match v.ty with
      | .f32 => ff fF32 (fF32.decode (x l)) (fF32.decode (y l))
      | .bf16 => ff fBF16 (fBF16.decode (x l)) (fBF16.decode (y l))
      | .f16 => ff fF16 (fF16.decode (x l)) (fF16.decode (y l))
      | .i32 | .i16 | .i8 => fi (x l) (y l)
    let lower (p q : Nat) : Bool := decide (signedOf n p ≤ signedOf n q)
    by3 (.vadd v b) (float (fun f p q => f.round v.rnd (p.add v.rnd q)) fun p q => (p + q) % 2 ^ n) ∧
    by3 (.vsub v b) (float (fun f p q => f.round v.rnd (p.add v.rnd q.neg)) fun p q => (p + 2 ^ n - q) % 2 ^ n) ∧
    by3 (.vmul v b) (float (fun f p q => f.round v.rnd (p.mul q)) fun p q => p * q % 2 ^ n) ∧
    by3 (.vmin v b) (float (fun f p q => f.round .rne (p.minOf q)) fun p q => if lower p q then p else q) ∧
    by3 (.vmax v b) (float (fun f p q => f.round .rne (p.maxOf q)) fun p q => if lower p q then q else p) ∧
    by3 (.vand v b) (fun l => x l &&& y l) ∧
    by3 (.vor v b) (fun l => x l ||| y l) ∧
    by3 (.vxor v b) (fun l => x l ^^^ y l) ∧
    by3 (.vshl v b) (fun l => x l * 2 ^ (y l % n) % 2 ^ n) ∧
    by3 (.vshr ar v b) (fun l => if ar then (signedOf n (x l) / 2 ^ (y l % n) % 2 ^ n).toNat
      else x l / 2 ^ (y l % n)) ∧
    (let z (r : Fin 256) (l : Nat) := s.core.vec.elem v4.ty r.val l
     let by4 (i : Instr) (val : Nat → Nat) : Prop := (∀ r ∈ [v4.va, v4.vb, v4.vc], r.val < s.core.vec.vallot) →
       v4.vd.val < s.core.vec.vallot → VecReady s b i c [] (uses s v4.mask [v4.va, v4.vb, v4.vc] (some v4.vd.val)) →
       VecWrites i s b v4.mask v4.vd.val val
     (∀ f, tyFloat v4.ty = some f → by4 (.vfma v4 b) fun l => f.round v4.rnd
       (((f.decode (z v4.va l)).mul (f.decode (z v4.vb l))).add v4.rnd (f.decode (z v4.vc l)))) ∧
     (tyFloat v4.ty = none → by4 (.vfma v4 b) fun l =>
       (z v4.va l * z v4.vb l + z v4.vc l) % 2 ^ tyBits v4.ty) ∧
     by4 (.vsel v4 b) fun l => if z v4.vc l = 0 then z v4.vb l else z v4.va l) ∧
    (let z (l : Nat) := s.core.vec.elem u.ty u.va.val l
     let w := tyBits u.ty
     let by2 (i : Instr) (val : Nat → Nat) : Prop :=
       VecReady s b i c [u.vd, u.va] (uses s u.mask [u.va] (some u.vd.val)) → VecWrites i s b u.mask u.vd.val val
     (∀ f, tyFloat u.ty = some f → by2 (.vabs u b) (fun l => f.round .rne (f.decode (z l)).abs) ∧
       by2 (.vneg u b) (fun l => f.round .rne (f.decode (z l)).neg)) ∧
     (tyFloat u.ty = none →
       by2 (.vabs u b) (fun l => if 2 * z l < 2 ^ w then z l else 2 ^ w - z l) ∧
       by2 (.vneg u b) (fun l => (2 ^ w - z l) % 2 ^ w)))

/-- VRCP, VRSQ, VEXP2 and VLOG2 (R113, R373) complete on every element of a float type, and their special inputs give
the results of R113: NaN gives NaN, and infinities, zeros and negative values what the function has there. On every
other input whose function F32 has a value for, the element is an F32 value rounded to the type; that value lies
within one (VRCP, VRSQ) or two (VEXP2, VLOG2) units of the last place of the exact function, and is the function where
R113 says so; VEXP2 of 128 or more is infinity. Which value within the bound it is, is left free (log entry 12). -/
def Obligations.FunctionsOfOneElement : Prop :=
  ∀ (u : V2) (f : FFmt) (b : LaneB) (c : Capture) (s : State),
    let x (l : Nat) := f.decode (s.core.vec.elem u.ty u.va.val l)
    let sign (n : Bool) : Nat := if n then 2 ^ (f.ew + f.fw) else 0
    let negative (l : Nat) : Prop := x l = .inf true ∨ ∃ m e, x l = .fin true m e ∧ m ≠ 0
    let does (i : Instr) (holds : Nat → Nat → Prop) : Prop :=
      VecReady s b i c [u.vd, u.va] (uses s u.mask [u.va] (some u.vd.val)) →
      ∃ val, VecWrites i s b u.mask u.vd.val val ∧ ∀ l, l < 64 → holds l (val l)
    let nonzero (l : Nat) : Prop := ∃ n m e, x l = .fin n m e ∧ m ≠ 0
    let val (l : Nat) : ℝ := ((x l).rat : ℚ)
    -- an F32 value within some units of y's last place, and y itself where it is exact, rounded to the type
    let near (y : ℝ) (ulps : ℕ) (exact : Prop) (r : Nat) : Prop := ∃ z, r = f.round .rne (fF32.decode z) ∧
      (∃ n m e, fF32.decode z = .fin n m e) ∧
      |(((fF32.decode z).rat : ℚ) : ℝ) - y| ≤ ulps * (2 : ℝ) ^ max (Int.log 2 |y| - 23) (-149) ∧
      (exact → (((fF32.decode z).rat : ℚ) : ℝ) = y)
    let power (y : ℝ) : Prop := ∃ k : ℤ, |y| = (2 : ℝ) ^ k
    tyFloat u.ty = some f →
    does (.vrcp u b) (fun l r => (x l = .nan → r = f.nanCode) ∧
      (∀ n, x l = .inf n → r = sign n) ∧ (∀ n e, x l = .fin n 0 e → r = sign n + f.infCode) ∧
      (nonzero l → (2 : ℝ) ^ (-128 : ℤ) < |val l| → near (1 / val l) 1 (power (val l)) r)) ∧
    does (.vrsq u b) (fun l r => (x l = .nan ∨ negative l → r = f.nanCode) ∧
      (x l = .inf false → r = 0) ∧ (∀ n e, x l = .fin n 0 e → r = sign n + f.infCode) ∧
      (0 < val l → near (1 / √(val l)) 1 (power √(val l)) r)) ∧
    does (.vexp2 u b) (fun l r => (x l = .nan → r = f.nanCode) ∧ (x l = .inf true → r = 0) ∧
      (x l = .inf false → r = f.infCode) ∧ (∀ n e, x l = .fin n 0 e → r = f.bias * 2 ^ f.fw) ∧
      (128 ≤ val l → r = f.infCode) ∧
      (nonzero l → val l < 128 → near ((2 : ℝ) ^ val l) 2 (∃ i : ℤ, val l = i ∧ -149 ≤ i) r)) ∧
    does (.vlog2 u b) (fun l r => (x l = .nan ∨ negative l → r = f.nanCode) ∧
      (x l = .inf false → r = f.infCode) ∧ (∀ n e, x l = .fin n 0 e → r = sign true + f.infCode) ∧
      (0 < val l → near (Real.logb 2 (val l)) 2 (power (val l)) r))

/-- VCVT, VCMP and VRED (R102, R371, R372, R383): a conversion rounds a float to a float, clamps a float or an integer
to an integer type, and rounds an integer to a float; a compare sets or clears the mask bits of its active lanes and
leaves the others; a reduction writes its tree into lane 0 of vd and zero into every other lane. VPERM, VBCAST,
VIOTA, VMOVI and VRDACC (R370, R375, R380, R381, R382): a lane named by vb modulo 64, one lane for all, the lane
number as the type holds it, an immediate (the high half of an F32, sign-extended to I32), and the words of one row
of an accumulator entry. -/
def Obligations.ConversionsReductionsAndMoves : Prop :=
  (∀ (dst : VTy) (r : Rnd) (u : V2) (cond : VCond) (ty : VTy) (mask : Fin 8) (md : Fin 7) (va vb : Fin 256)
    (op : RedOp) (b : LaneB) (c : Capture) (s : State),
    let z (l : Nat) := s.core.vec.elem u.ty u.va.val l
    let n := tyBits u.ty
    let m := tyBits dst
    let lo : Int := -(2 ^ (m - 1))
    let hi : Int := 2 ^ (m - 1) - 1
    let cvt (val : Nat → Nat) : Prop :=
      VecReady s b (.vcvt dst r u b) c [u.vd, u.va] (uses s u.mask [u.va] (some u.vd.val)) →
      VecWrites (.vcvt dst r u b) s b u.mask u.vd.val val
    (∀ f g, tyFloat u.ty = some f → tyFloat dst = some g → cvt fun l => g.round r (f.decode (z l))) ∧
    (∀ g, tyFloat u.ty = none → tyFloat dst = some g →
      cvt fun l => g.round r (FVal.ofInt (signedOf n (z l)) 0 false)) ∧
    (tyFloat u.ty = none → tyFloat dst = none →
      cvt fun l => (max lo (min hi (signedOf n (z l))) % 2 ^ m).toNat) ∧
    (∀ f, tyFloat u.ty = some f → tyFloat dst = none → cvt fun l => match f.decode (z l) with
      | .nan => 0
      | .inf neg => if neg then 2 ^ (m - 1) else 2 ^ (m - 1) - 1
      | .fin neg k e => (max lo (min hi ((FVal.fin neg k e).toInt r)) % 2 ^ m).toNat) ∧
    (VecReady s b (.vcmp cond ty mask md va vb b) c [va, vb] (uses s mask [va, vb] none) →
      ∃ w, Performs (.vcmp cond ty mask md va vb b) s .ve b w ∧
        OnlyVec (s.wake (s.core.vec.active mask)) w ∧
        (∀ k l, l < 64 → w.core.vec.lane k l = s.core.vec.lane k l) ∧ w.core.vec.parked = s.core.vec.parked ∧
        (∀ k : Fin 7, k ≠ md → w.core.vec.masks[k] = s.core.vec.masks[k]) ∧
        ∀ l, l < 64 → (w.core.vec.masks[md]).getLsbD l =
          if (s.core.vec.mask mask).getLsbD l then
            vcondHolds cond ty (s.core.vec.elem ty va.val l) (s.core.vec.elem ty vb.val l)
          else (s.core.vec.masks[md]).getLsbD l) ∧
    (VecReady s b (.vred op r u b) c [u.vd, u.va]
        { uses s u.mask [u.va] none with writes := [(u.vd.val, List.range 64)] } →
      ∃ w, Performs (.vred op r u b) s .ve b w ∧ OnlyVec (s.wake (s.core.vec.active u.mask)) w ∧
        w.core.vec.masks = s.core.vec.masks ∧
        ∀ k l, l < 64 → w.core.vec.lane k l =
          if k = u.vd.val then
            (if l = 0 then BitVec.ofNat 32 (redTree (redStep op u.ty r) 6 ((List.range 64).map fun j =>
              if (s.core.vec.mask u.mask).getLsbD j then z j else redIdentity op u.ty)) else 0)
          else s.core.vec.lane k l)) ∧
  (∀ (v : V3) (u : V2) (lane : Fin 64) (ty : VTy) (mask : Fin 8) (vd : Fin 256) (imm : BitVec 16) (int : Bool)
    (e row : Fin 64) (b : LaneB) (c : Capture) (s : State),
    (let from_ (l : Nat) : Nat := s.core.vec.elem v.ty v.vb.val l % 64
     let on := s.core.vec.active v.mask
     VecReady s b (.vperm v b) c [v.vd, v.va, v.vb]
       { uses s v.mask [] (some v.vd.val) with reads := [(v.va.val, on.map from_), (v.vb.val, on)] } →
      VecWrites (.vperm v b) s b v.mask v.vd.val fun l =>
        s.core.vec.elem v.ty v.va.val (s.core.vec.elem v.ty v.vb.val l % 64)) ∧
    (VecReady s b (.vbcast lane u b) c [u.vd, u.va]
        { uses s u.mask [] (some u.vd.val) with reads := [(u.va.val, [lane.val])] } →
      VecWrites (.vbcast lane u b) s b u.mask u.vd.val fun _ => s.core.vec.elem u.ty u.va.val lane.val) ∧
    (VecReady s b (.viota ty mask vd b) c [vd] (uses s mask [] (some vd.val)) →
      VecWrites (.viota ty mask vd b) s b mask vd.val fun l => match ty with
        | .f32 => fF32.round .rne (.fin false l 0)
        | .bf16 => fBF16.round .rne (.fin false l 0)
        | .f16 => fF16.round .rne (.fin false l 0)
        | .i32 | .i16 | .i8 => l) ∧
    (VecReady s b (.vmovi ty mask vd imm b) c [vd] (uses s mask [] (some vd.val)) →
      VecWrites (.vmovi ty mask vd imm b) s b mask vd.val fun _ => match ty with
        | .f32 => imm.toNat * 65536
        | .i32 => (imm.toInt % 2 ^ 32).toNat
        | .bf16 | .f16 | .i16 => imm.toNat
        | .i8 => imm.toNat % 256) ∧
    (VecReady s b (.vrdacc int mask vd e row b) c [vd] (uses s mask [] (some vd.val)) →
      (∀ l, l < 64 → (s.core.vec.mask mask).getLsbD l = true →
        (16384 * e.val + 256 * row.val + 4 * l) / 8 ∉ s.core.me.abad) →
      VecWrites (.vrdacc int mask vd e row b) s b mask vd.val fun l =>
        leNat ((List.range 4).map fun k =>
          readByte s.core.me.amem (16384 * e.val + 256 * row.val + 4 * l + k))))

/-- VGROW, VSHRINK and the allotment (R219, R221, R374): with nothing parked VGROW sets the allotment and every
register reads zero; VSHRINK sets it and keeps the registers below both; every vector instruction with a register
field at or above the allotment raises VREG_ALLOT naming the lowest such field, vd, va, vb, vc in order; with
elements parked VGROW and VSHRINK wait, as does VLDG, and every vector instruction that reads the register of a
parked element waits and wakes no lane group. A fault of its address goes before poison (R365). Poison in registers
(R131, R132): a lane that it reads of a poisoned granule raises MEM_POISON, and a write of a part of one MEM_UNCORR,
which names no address (log entry 69). -/
def Obligations.RegisterAllotments : Prop :=
  ∀ (n8 : BitVec 6) (i : Instr) (x : VFrame) (b : LaneB) (c : Capture) (s : State),
    let q := s.core.vec
    let n := 8 * n8.toNat
    let poisoned := ∃ z ∈ (x.use q).reads, q.poisoned z.1 z.2 = true
    let refused := ∃ z ∈ (x.use q).writes, q.refuses z.1 z.2 = true
    let allotted := ∀ f ∈ x.fields, f.2 < q.vallot
    let works := vecFrame i = some x ∧ LaneB.of i = some b ∧ AtHead s .ve b i c
    let raises (code : Nat) : Prop := ∃ t, exec i s = .next t ∧ t.core.vec.regs = q.regs ∧ t.core.vec.masks = q.masks ∧
      SameMemory s t ∧ t.core.trap.pending = s.core.trap.pending ++ [⟨code, 0, .ve⟩]
    let sets (i : Instr) (keep : Nat) : Prop := ∃ w, Performs i s .ve b w ∧ OnlyVec s w ∧
      w.core.vec.vallot = n ∧ w.core.vec.masks = q.masks ∧
      ∀ r l, l < 64 → w.core.vec.lane r l = if r < keep then q.lane r l else 0
    (AtHead s .ve b (.vgrow n8 b) c → q.parked = [] → sets (.vgrow n8 b) 0) ∧
    (AtHead s .ve b (.vshrink n8 b) c → q.parked = [] → sets (.vshrink n8 b) (min q.vallot n)) ∧
    (AtHead s .ve b (.vgrow n8 b) c → q.parked ≠ [] → exec (.vgrow n8 b) s = .next s) ∧
    (AtHead s .ve b (.vshrink n8 b) c → q.parked ≠ [] → exec (.vshrink n8 b) s = .next s) ∧
    (∀ before f after, works → x.fields = before ++ f :: after → (∀ g ∈ before, g.2 < q.vallot) → q.vallot ≤ f.2 →
      EngTraps i s .ve 0x08 (BitVec.ofNat 64 (f.2 + 256 * f.1))) ∧
    (works → allotted → ((x.use q).waits = true ∧ q.parked ≠ [] ∨
        ∃ p ∈ q.parked, ∃ z ∈ (x.use q).reads, z.1 = p.vd) → exec i s = .next s) ∧
    (∀ y, works → allotted → (x.use q).held q = false → x.bad c s = some y →
      ∃ t, exec i s = .next t ∧ t.core.vec.regs = q.regs ∧ SameMemory s t ∧
        t.core.trap.pending = s.core.trap.pending ++ [⟨y.1, y.2, .ve⟩]) ∧
    (works → allotted → (x.use q).held q = false → x.bad c s = none → poisoned → raises 0x0D) ∧
    (works → allotted → (x.use q).held q = false → x.bad c s = none → ¬ poisoned → refused → raises 0x0E)

/-- Vector loads, stores and gathers (R376-R379): with an address aligned to the element and 64 elements inside the
space, a load writes its active lanes from what the thread reads; a store posts the elements of its active lanes as
one access, whose elements become visible one by one where none lies in a bad granule; VLDG takes each lane's
element at its index from the base. Masks and other registers stay. In an exposed line a lane that fails freezes the
core: what has been read stays, its element keeps its hold where it was translated, and after ERET only the rest is
read (R123, R218). -/
def Obligations.VectorMemory : Prop :=
  ∀ (sp : CSpace) (v : VMem) (vx : Fin 256) (b : LaneB) (c : Capture) (s : State) (loc : Loc) (o : Nat),
    let es := tyBits v.ty / 8
    let a := c.params[v.p]
    let on (l : Nat) : Prop := l < 64 ∧ (s.core.vec.mask v.mask).getLsbD l = true
    let bytes (l : Nat) : List Nat := (List.range es).map (o + l * es + ·)
    let ld : Instr := match sp with | .u => .vldu v b | .k => .vldk v b | .d | .g => .vldd v b
    let loads (loc : Loc) (o : Nat) (ld : Instr) : Prop := ∃ w, Performs ld s .ve b w ∧ SettledBut s w loc [] ∧
      SameRegs s w ∧ WritesLanes s w v.mask v.v.val fun l =>
        leNat (((List.range es).map (o + l * es + ·)).map (s.threadByte loc))
    let elem (l : Nat) : List Host.Cell := (List.range es).map fun k =>
      (o + l * es + k, BitVec.ofNat 8 (s.core.vec.elem v.ty v.v.val l / 256 ^ k))
    let stores (space : Space) (st : Instr) : Prop := VecReady s b st c [v.v] (uses s v.mask [v.v] none) →
      a.toNat % es = 0 → s.localAddr space a (64 * es) = some (loc, o) →
      s.partialBad loc ((s.core.vec.active v.mask).map bytes).flatten = none →
      ∃ w ps, Performs st s .ve b w ∧ SameMemory s w ∧ SameRegs s w ∧ w.core.pend = s.core.pend ++ ps ∧
        (∀ p ∈ ps, p.ve = true ∧ p.cls = v.cls ∧ p.space = space ∧ p.loc = loc ∧ p.acc = s.core.pendNum) ∧
        (∀ z, (∃ p ∈ ps, z ∈ p.cells) ↔ ∃ l, on l ∧ z ∈ elem l) ∧
        ((s.padAt loc).bad = [] → ps.map (fun p => p.cells) = (s.core.vec.active v.mask).map elem)
    (sp ≠ .g → VecReady s b ld c [v.v] (uses s v.mask [] (some v.v.val)) → a.toNat % es = 0 →
      s.localAddr (cspace sp) a (64 * es) = some (loc, o) →
      (∀ l, on l → s.threadBad loc (bytes l) = none) → loads loc o ld) ∧
    stores .u (.vstu v b) ∧ stores .k (.vstk v b) ∧ stores .d (.vstd v b) ∧ stores .n (.vstn v b) ∧
    (∀ val : Nat → Nat,
      VecReady s b (.vldg vx v b) c [v.v, vx] { uses s v.mask [vx] (some v.v.val) with waits := true } →
      a.toNat % 2 ^ 48 % es = 0 → (∀ g, s.core.vec.gathered = some g → ∀ x ∈ g.got, on x.1 ∧ val x.1 = x.2) →
      (∀ l, on l → (∀ g, s.core.vec.gathered = some g → l ∉ g.got.map Prod.fst) →
        s.gatherRead (s.gatherPlaces c.ctx a (s.core.vec.lane vx.val l).toNat es) = .ok (val l)) →
      ∃ w, Performs (.vldg vx v b) s .ve b w ∧ SettledBut s w .g [] ∧ SameRegs s w ∧
        WritesLanes s w v.mask v.v.val val ∧ w.core.vec.gathered = none) ∧
    (∀ l0 e,
      VecReady s b (.vldg vx v b) c [v.v, vx] { uses s v.mask [vx] (some v.v.val) with waits := true } →
      a.toNat % 2 ^ 48 % es = 0 → s.core.vec.gathered = none → c.lmode.getLsbD 0 = true → on l0 →
      s.gatherRead (s.gatherPlaces c.ctx a (s.core.vec.lane vx.val l0).toNat es) = .error e →
      (∀ l, on l → l ≠ l0 → ∃ x,
        s.gatherRead (s.gatherPlaces c.ctx a (s.core.vec.lane vx.val l).toNat es) = .ok x) →
      ∃ t g, exec (.vldg vx v b) s = .next t ∧ SettledBut s t .g [] ∧ t.core.vec.gathered = some g ∧
        t.core.vec.regs = s.core.vec.regs ∧ (g.hold = if e.held then some s.nextHold else none) ∧
        (∀ l x, (l, x) ∈ g.got ↔ on l ∧
          s.gatherRead (s.gatherPlaces c.ctx a (s.core.vec.lane vx.val l).toNat es) = .ok x) ∧
        t.core.cpy.errs = s.core.cpy.errs ++ [(.ve, e.kind, 2, e.addr)] ∧
        (t.core.queue .ve).entries = (s.core.queue .ve).entries)

/-- Copies (R125, R131, R135-R137, R201, R218, R300, R304, R307, R309): a copy-engine entry starts the copy captured
for it; a linear copy whose needed stores are performed reads its elements; when it completes, its destination holds
them, or the pattern of a fill, its counter has grown by its post, its holds are released, and no other byte has
changed; a failed speculative copy marks its destination instead; an element that cannot be read holds the channel
with an error, which is logged; an error response becomes a COPY_FREEZE trap, and the element is not issued again
before its handler returns. The clauses hold for copies that nothing races; a race is left free (log entry 10). One
element of a copy in progress may be written before the rest (R391). The numbers of the kinds in the log are log
entry 37. -/
def Obligations.CopiesReadWriteAndPost : Prop :=
  ∀ (t : Fin 64) (sp po : Bool) (p q r : Fin 16) (x y : CSpace) (b : LaneB) (c : Capture) (ch : Fin 9) (k : Copy)
    (rest : List Copy) (run : CopyRun) (src : Nat → Loc × List Nat) (loc : Loc) (as : List Nat) (s : State),
    let chan (u : State) : Channel := vget u.core.cpy.channels ch.val Channel.none
    let linear := k.map = none ∧ k.fail = none
    let address (i : Nat) : Word := (addOffset k.ssp k.src (BitVec.ofNat 64 (i * k.esize))).1
    let begun := (chan s).cur = some run ∧ run.copy = k ∧ run.err = none ∧ run.written = 0 ∧ run.again = false ∧
      s.core.frozen = false
    let ready := begun ∧ run.landed = []
    let out : List Byte := match k.fill with
      | some f => (List.replicate k.count (leBytes 4 f.toNat)).flatten
      | none => run.data.flatten
    let ended (u : State) : Prop := (chan u).cur = none ∧ (chan u).waiting = (chan s).waiting ∧
      u.holds = s.holds.filter (fun h => !(k.holds.contains h.1))
    let still : Prop := ∀ z ∈ s.core.pend, z.ve = false
    let lands : Prop := linear ∧ still ∧ (∀ i, i < k.count → k.overlap i = none) ∧
      (k.fill = none → run.data.length = k.count ∧ ∀ e ∈ run.data, e.length = k.esize) ∧
      (k.fill ≠ none → k.esize = 4) ∧
      s.copyPlace .store k.dsp k.dstX k.dst (k.esize * k.count) = some (loc, as) ∧ as.Nodup ∧
      (s.padAt loc).bad = []
    (∀ i ∈ [Instr.ccopy t sp po p b, .cfill x p q r b, .cpost p q b, .cmov x y p q r b], AtHead s .ce b i c →
      c.copy = some k →
      Starts i s .ce b (s.updCpy fun z => { z with channels := z.channels.set 8 ⟨(z.channels[8]).cur, [k]⟩ })) ∧
    ((chan s).cur = none → (chan s).waiting = k :: rest → s.core.frozen = false → linear → k.fill = none →
      (let u := s.performWhere fun z => k.need.contains z.num
       (∀ i, i < k.count → s.copyPlace k.reads k.ssp k.srcX (address i) k.esize = some (src i) ∧
         u.coreBad (src i).1 (src i).2 = none ∧
         ∀ z ∈ (src i).2, pendByte u.core.ccPend (src i).1 z = none) →
       ∃ v, exec (.copyBegin ch) s = .next v ∧ SameMemory u v ∧ v.core.pend = u.core.pend ∧
         (chan v).waiting = rest ∧
         (chan v).cur =
           some ⟨k, (List.range k.count).map fun i => (src i).2.map (u.coreByte (src i).1), 0, none, none, false, []⟩)) ∧
    ((chan s).cur = none → (chan s).waiting = k :: rest → s.core.frozen = false → linear → k.fill = none →
      0 < k.count → k.spec = false → still →
      (let u := s.performWhere fun z => k.need.contains z.num
       (s.copyPlace .load k.ssp k.srcX (address 0) k.esize = none →
         ∃ v, exec (.copyBegin ch) s = .next v ∧ SameMemory u v ∧ (∃ z, (chan v).cur = some z ∧ z.copy = k ∧
           z.data = [] ∧ z.err = some (2, spaceCode (cspace k.ssp), address 0)) ∧
           ∃ z, v.log = u.log ++ [z] ∧ z.kind = 4 ∧ z.eng = .ce) ∧
       (∀ z n, s.copyPlace .load k.ssp k.srcX (address 0) k.esize = some (src 0) →
         u.coreBad (src 0).1 (src 0).2 = some (z, n) →
         ∃ v, exec (.copyBegin ch) s = .next v ∧ SameMemory u v ∧ ∃ z, (chan v).cur = some z ∧ z.copy = k ∧
           z.data = [] ∧ z.err = some (if n.isSome then 3 else 0, spaceCode (cspace k.ssp), address 0)))) ∧
    (ready → lands → k.post = none →
      ∃ v, exec (.copyComplete ch) s = .next v ∧ as.map (v.byteAt loc) = out ∧
        (∀ l a, ¬ (l = loc ∧ a ∈ as) → v.byteAt l a = s.byteAt l a) ∧ ended v ∧
        (ch.val < 8 → v.core.eng = s.core.eng)) ∧
    (∀ ctr delta xl cs, ready → lands → k.post = some (ctr, delta) → k.ctrX = some xl →
      xl.served .counter (ctr.toNat % 2 ^ 48) 8 = some cs → cs.Nodup → (loc = .g → ∀ a ∈ cs, a ∉ as) →
      s.firstBad .g cs = none →
      leNat (cs.map (s.byteAt .g)) + delta.toNat < 2 ^ 64 →
      ∃ v, exec (.copyComplete ch) s = .next v ∧ as.map (v.byteAt loc) = out ∧
        cs.map (v.byteAt .g) = leBytes 8 (leNat (cs.map (s.byteAt .g)) + delta.toNat) ∧
        (∀ l a, ¬ (l = loc ∧ a ∈ as) → ¬ (l = .g ∧ a ∈ cs) → v.byteAt l a = s.byteAt l a) ∧ ended v) ∧
    (∀ j, begun → lands → j < k.count → j ∉ run.landed → k.moves = true → 0 < k.esize →
      let at_ := (as.drop (j * k.esize)).take k.esize
      let v := s.landElem ch j
      at_.map (v.byteAt loc) = (out.drop (j * k.esize)).take k.esize ∧
        (∀ l a, ¬ (l = loc ∧ a ∈ at_) → v.byteAt l a = s.byteAt l a) ∧
        (chan v).cur = some { run with landed := run.landed ++ [j] }) ∧
    (∀ code, ready → k.map = none → k.fail = some code → k.post = none →
      s.copyPlace .store k.dsp k.dstX k.dst (k.esize * k.count) = some (loc, as) → loc.valid = true →
      ∃ v, exec (.copyComplete ch) s = .next v ∧ SameMemory s v ∧ ended v ∧
        ∀ a ∈ as, smapGet (v.padAt loc).bad (a / loc.granule) = some (some code)) ∧
    (∀ kind space a, (chan s).cur = some run → run.err = some (kind, space, a) → run.froze = none →
      let info : Word := (a <<< 16) ||| BitVec.ofNat 64 (space % 4 * 2 ^ 14 +
        kind % 4 * 2 ^ 12 + (if ch = 8 then 0 else ch.val % 8) * 2 ^ 9 + 3)
      ∃ v, exec (.copyFreeze .ce ch) s = .next v ∧ SameMemory s v ∧ SameRegs s v ∧ v.core.frozen = true ∧
        (∃ z, (chan v).cur = some z ∧ z.err = run.err ∧ z.froze = some info ∧ z.data = run.data ∧
          z.written = run.written ∧ z.copy = run.copy) ∧
        v.core.trap.pending = s.core.trap.pending ++ [⟨0x0F, info, .ce⟩]) ∧
    ((chan s).cur = some run → (run.err ≠ none ∨ s.core.frozen = true) → exec (.copyComplete ch) s = .next s)

/-- CQNT, GCSR and GMAP (R172, R173, R182, R191, R194): with their descriptors valid, their sources inside the pad
and free of poison, and the first slot not free, each starts a fill of that slot whose elements are the shadow's at
rung 0, the last entry of the row for the column, or the map's, and a slot of zeros sets GCSR's skip bit. They read
the pad with the stores of the core's VE in it (R149); a word of a map that a store of the thread has still to reach
is wholly old or wholly new (R142, R195). A map that has begun to be read may hold what it read (R195). What a
nonzero bit beside a descriptor's fields does is log entry 73. -/
def Obligations.GatheredTiles : Prop :=
  ∀ (sl n : Fin 64) (cf : CsrFmt) (p q : Fin 16) (d : Bind) (loc : Loc) (o : Nat) (b : LaneB) (c : Capture)
    (s : State),
    let m := s.core.me
    let byte (a : Nat) : Byte := readByte s.unit.mem a
    let word (a k : Nat) : Nat := leNat ((List.range k).map fun j => byte (a + j))
    let a := (c.params[p]).toNat
    let elem (f : Fill) (bits bit : Nat) : Nat := elemOf (fun i => f.bytes.getD i 0) bits bit
    let fills (i : Instr) (e : Eng) (holds : Fill → Prop) : Prop := ∃ w f, Starts i s e b w ∧ SameMemory s w ∧
      w.core.cpy.fills = s.core.cpy.fills ++ [(e, f)] ∧ f.slot = sl.val ∧ f.bytes.length = 16384 ∧ holds f
    s.memWf → s.unit.bad = [] → (m.slot sl.val).st ≠ .free →
    (let desc := m.desc d
     let bits := (fmtA (rungFmt (ladRung desc 0))).bits
     AtHead s .ce b (.cqnt sl b) c → (m.slot sl.val).bind = some d → d.shadow + 128 * d.klen ≤ 0x300000 →
     fills (.cqnt sl b) .ce fun f => f.keepBind = true ∧ f.poison = none ∧ f.skip = false ∧ f.map = none ∧
       ∀ i k, i < 64 → k < fmtK (rungFmt (ladRung desc 0)) →
         elem f bits (if d.roleB then elemBit bits (8 * bits) k i else elemBit bits 256 i k) =
           if k < d.klen then
             (convShadow (rungFmt (ladRung desc 0)) (ladBias desc 0) (word (d.shadow +
               (if d.roleB then 128 * k + 2 * i else 2 * d.klen * i + 2 * k)) 2)).code % 2 ^ bits
           else 0) ∧
    (let fm := csrFmt cf
     let es := (fmtB fm).bits / 8
     let k := if n.val = 0 then 64 else n.val
     let ptr := word a 8 % 2 ^ 22
     let col := word (a + 8) 8 % 2 ^ 22
     let vals := word (a + 16) 8 % 2 ^ 22
     let row0 := word (a + 24) 8 % 2 ^ 16
     let col0 := word (a + 24) 8 / 2 ^ 16 % 2 ^ 16
     let nrows := word (a + 24) 8 / 2 ^ 32 % 2 ^ 16
     let entries (r : Nat) : List Nat :=
       (List.range (word (ptr + 4 * (r + 1)) 4 - word (ptr + 4 * r) 4)).map (word (ptr + 4 * r) 4 + ·)
     AtHead s .ge b (.gcsr sl n cf p b) c → sl.val + k ≤ 64 →
     (∀ j, sl.val ≤ j → j < sl.val + k → (m.slot j).st ≠ .free) → a % 32 = 0 → a + 32 ≤ 0x300000 →
     ptr % 4 = 0 → col % 4 = 0 → vals % es = 0 →
     (∀ r, row0 ≤ r → r < row0 + fmtK fm → r < nrows → ptr + 4 * (r + 1) + 4 ≤ 0x300000 ∧
       ∀ i ∈ entries r, col + 4 * i + 4 ≤ 0x300000 ∧ vals + es * i + es ≤ 0x300000) →
     fills (.gcsr sl n cf p b) .ge fun f => f.keepBind = false ∧ f.poison = none ∧ f.map = none ∧
       (∀ r j, r < fmtK fm → j < 64 → elem f (8 * es) (elemBit (8 * es) (64 * es) r j) =
         if nrows ≤ row0 + r then 0
         else match (entries (row0 + r)).reverse.find? fun i => word (col + 4 * i) 4 == col0 + j with
           | some i => word (vals + es * i) es
           | none => 0) ∧
       (f.skip = true ↔ ∀ r j, r < fmtK fm → j < 64 →
         elem f (8 * es) (elemBit (8 * es) (64 * es) r j) % 2 ^ (8 * es - 1) = 0)) ∧
    (let mw := s.mapWords a
     let mword (rd : Nat → Byte) (k : Nat) : Word :=
       BitVec.ofNat 64 (leNat ((List.range 8).map fun j => rd (a + 8 * k + j)))
     let origin := (c.params[q]).toNat
     let bits := mapDbits mw
     let es := mapEsize mw
     (∀ k : Fin 10, mw[k] = mword (s.threadByte (.u s.cur)) k.val ∨ mw[k] = mword (s.coreByte (.u s.cur)) k.val ∨
       ∃ old, s.core.cpy.seenBy .ge = some old ∧
         mw[k] = BitVec.ofNat 64 (leNat ((old.drop (8 * k.val)).take 8))) ∧
     (AtHead s .ge b (.gmap sl p q b) c → a % 16 = 0 → a + 80 ≤ 0x300000 → mapOk mw = true → mapLayout mw = 1 →
     mapSsp mw ≠ 2 → mapField mw 9 63 50 = 0 → mapBase mw % es = 0 →
     s.localAddr (cspace (spaceOfCode (mapSsp mw))) (BitVec.ofNat 64 (mapBase mw)) (mapSpan mw) =
       some (loc, o) → (s.corePad loc).bad = [] →
     fills (.gmap sl p q b) .ge fun f => f.poison = none ∧ f.skip = false ∧
       f.map = some (mw, loc, o, origin % 2 ^ 32, origin / 2 ^ 32) ∧ f.old = none ∧
       ∀ r k, r < 64 → k < mapK (mapDfmt mw) → elem f bits (elemBit bits 256 r k) =
         match mapElem mw (origin % 2 ^ 32 + r) (origin / 2 ^ 32 + k) with
         | some i => (mapConv mw (leNat ((List.range es).map fun j => s.coreByte loc (o + es * i + j)))).code % 2 ^ bits
         | none => mapPad mw % 2 ^ bits))

/-- GROWS and GSCAT (R196, R322): row by row; the first step moves row 0 when its source and destination lie apart
inside the pad and no byte there is poisoned: GROWS copies the row that the first index names, or writes zeros for
0xFFFF; GSCAT writes row 0 to the place the index names, or nothing; then the next row is in turn. It finds the stores
of the core's VE in the pad (R149). -/
def Obligations.RowsByIndex : Prop :=
  ∀ (scatter : Bool) (n : Fin 4096) (d sr x : Fin 16) (len : BitVec 16) (b : LaneB) (c : Capture) (s : State),
    let i : Instr := if scatter then .gscat n d sr x len b else .grows n d sr x len b
    let byte (a : Nat) : Byte := readByte s.unit.mem a
    let D := (c.params[d]).toNat
    let S := (c.params[sr]).toNat
    let X := (c.params[x]).toNat
    let k := leNat [byte X, byte (X + 1)]
    let w := len.toNat
    let src := if scatter then S else S + k * w
    let dst := if scatter then D + k * w else D
    let writes := scatter = false ∨ k ≠ 0xFFFF
    s.memWf → AtHead s .ge b i c → s.unit.bad = [] → s.core.cpy.overwritten = [] → w % 4 = 0 →
    X % 2 = 0 → D % 4 = 0 → S % 4 = 0 → X + 2 ≤ 0x300000 → (writes → dst + w ≤ 0x300000) →
    (k ≠ 0xFFFF → src + w ≤ 0x300000 ∧ (src + w ≤ dst ∨ dst + w ≤ src)) →
    ∃ t, exec i s = .next t ∧ SameRegs s t ∧
      ((∀ z ∈ s.core.pend, z.ve = true → z.loc ≠ .u s.cur) → ∀ l a,
        t.byteAt l a = if l = .u s.cur ∧ writes ∧ dst ≤ a ∧ a < dst + w then
          (if k = 0xFFFF then 0 else byte (src + (a - dst))) else s.byteAt l a) ∧
      (n.val ≠ 1 → (t.core.queue .ge).step = 1 ∧ (t.core.queue .ge).entries = (s.core.queue .ge).entries)

/-- The link engine (R218, R267, R268, R272, R273, R324, R329): LSEND and LRED send the bytes of the pad, each
4-byte word without or with what the thread has still to store there, with their target, counter and sender, and
count as in flight; a target without a route has its error completion at once; a bad source freezes the core. LBAR
arrives at its pod barrier once every earlier command is done. The oldest command, once complete, pushes its tokens;
an error completion freezes the core with kind 2, and after the handler the command is issued again. The inbox and
outbox stand for the links (log entry 23). A payload that has begun to be read may hold what it read (R329). Nodes
that use one pod barrier count their phases apart (R154). -/
def Obligations.LinkCommands : Prop :=
  ∀ (half : Bool) (d src pk ctr : Fin 16) (copt : Option (Fin 16)) (ex : Fin 16) (len : Fin 4096) (bar : Fin 16)
    (x : LinkMsg) (z : LeEnt) (rest : List LeEnt) (bad j : Nat) (mk : Option Nat) (b : LaneB) (c : Capture) (s : State),
    let n := 64 * (if len.val = 0 then 4096 else len.val)
    let S := (c.params[src]).toNat
    let u : Loc := .u s.cur
    let seq := s.core.cpy.leSeq
    let flying := (s.core.cpy.le.filter fun z => match z.cmd with | .msg .. => true | _ => false).length
    let ent (k : LeCmd) : LeEnt :=
      { cmd := k, push := b.push, line := c.line, lane := c.lane, lmode := c.lmode, full := false }
    let sends (i : Instr) (msg : LinkMsg) : Prop :=
      ∃ t m, exec i s = .next t ∧ SameMemory s t ∧ SameRegs s t ∧ { m with payload := [] } = msg ∧
        m.payload.length = n ∧
        (∀ k, k < n / 4 →
          (∀ j, j < 4 → m.payload[4 * k + j]? = some (s.coreByte u (S + 4 * k + j))) ∨
          (∀ j, j < 4 → m.payload[4 * k + j]? = some (s.threadByte u (S + 4 * k + j))) ∨
          (∃ old, s.core.cpy.seenBy .le = some old ∧ ∀ j, j < 4 → m.payload[4 * k + j]? = old[4 * k + j]?)) ∧
        t.core.cpy.leSeq = seq + 1 ∧ (t.core.queue .le).entries = (s.core.queue .le).entries.tail ∧
        (s.links.reaches msg.dstPkg = true → t.core.cpy.le = s.core.cpy.le ++ [ent (.msg m .sent)]) ∧
        (msg.dstPkg = s.links.id → t.links = { s.links with inbox := s.links.inbox ++ [m] }) ∧
        (msg.dstPkg ≠ s.links.id → s.links.reaches msg.dstPkg = true →
          t.links = { s.links with outbox := s.links.outbox ++ [m] }) ∧
        (s.links.reaches msg.dstPkg = false → t.links = s.links ∧
          t.core.cpy.le = (s.core.cpy.le.map fun y => { y with cmd := y.cmd.answered seq false }) ++
            [ent (.msg m .failed)])
    let msg (red : Bool) (h : Bool) (e : Nat) (k : Option (Fin 16)) : LinkMsg :=
      { isRed := red, srcPkg := s.links.id, core := s.cur.val, seq, src := S,
        dstPkg := (c.params[pk]).toNat, ctx := c.ctx, wid := c.wid, target := c.params[d],
        counter := k.map fun j => c.params[j], half := h, expect := e, payload := [], added := [], det := c.lmode == 3
        via := if (c.params[pk]).toNat = s.links.id then none else List.lookup (c.params[pk]).toNat s.links.routes }
    let resent : LinkMsg :=
      { x with via := if x.dstPkg = s.links.id then none else List.lookup x.dstPkg s.links.routes }
    let at_ (i : Instr) : Prop := AtHead s .le b i c ∧ flying < 32
    let clean : Prop := ∀ j, j < n → smapGet s.unit.bad ((S + j) / 8) = none
    let spoilt : Prop := s.coreBad u ((List.range n).map (S + ·)) = some (bad, mk)
    let freezes (i : Instr) : Prop := ∃ t, exec i s = .next t ∧ SameMemory s t ∧ SameRegs s t ∧
      t.core.cpy.errs = s.core.cpy.errs ++ [(.le, if mk.isSome then 3 else 0, 3, BitVec.ofNat 64 bad)]
    let room := ∀ e : Eng, z.push.getLsbD e.num = true → s.core.eng.tok .le e < 15
    let cmd : Option LeCmd := (s.core.cpy.le[j]?).map LeEnt.cmd
    let whole (k : LeCmd) : Prop := k = .null ∨ (∃ y, k = .bar y true) ∨ k = .msg x .ok
    let marks (t : State) (st : LeSt) : Prop :=
      t.core.cpy.le = s.core.cpy.le.map fun y => { y with cmd := match y.cmd with
        | .msg m o => .msg m (if m.seq = x.seq then st else o)
        | k => k }
    (at_ (.lsend d src pk copt len b) → clean → sends (.lsend d src pk copt len b) (msg false false 0 copt)) ∧
    (at_ (.lsend d src pk copt len b) → spoilt → freezes (.lsend d src pk copt len b)) ∧
    (at_ (.lred half d src pk ctr ex len b) → clean →
      sends (.lred half d src pk ctr ex len b) (msg true half ex.val (some ctr))) ∧
    (at_ (.lred half d src pk ctr ex len b) → spoilt → freezes (.lred half d src pk ctr ex len b)) ∧
    (let mine := s.links.barOf bar s.barNode
     let arrives (before : List Nat) (put : PodBar → List PodBar) : Prop :=
       ∃ t y, exec (.lbar bar b) s = .next t ∧ SameMemory s t ∧ SameRegs s t ∧
         t.core.cpy.le = [ent (.bar y.id false)] ∧ t.links.bars = put y ∧ y.b = bar ∧
         (∀ j z, mine = some j → s.links.bars[j]? = some z → y.id = z.id ∧ t.links.barSeq = s.links.barSeq) ∧
         (mine = none → y.id = s.links.barSeq ∧ t.links.barSeq = s.links.barSeq + 1 ∧ y.pidx = s.pidxAt s.cur) ∧
         y.arrived = before ++ [s.cur.val] ∧
         (y.sent = true ↔ ∀ j, j < 128 → imgHas s.barNode.img j = true → j ∈ y.arrived)
     (AtHead s .le b (.lbar bar b) c → s.core.cpy.le = [] → mine = none → arrives [] fun y => s.links.bars ++ [y]) ∧
     (∀ j y, AtHead s .le b (.lbar bar b) c → s.core.cpy.le = [] → mine = some j → s.links.bars[j]? = some y →
       s.cur.val ∉ y.arrived → y.sent = false → arrives y.arrived (s.links.bars.set j)) ∧
     (∀ j y, AtHead s .le b (.lbar bar b) c → mine = some j → s.links.bars[j]? = some y →
       (s.core.cpy.le ≠ [] ∨ s.cur.val ∈ y.arrived ∨ y.sent = true) → exec (.lbar bar b) s = .next s)) ∧
    (s.core.engHeld .le = true → exec (.leCompletion j) s = .next s) ∧
    (s.core.engHeld .le = false →
      (cmd = some (.msg x .failed) →
        ∃ t, exec (.leCompletion j) s = .next t ∧ SameMemory s t ∧ SameRegs s t ∧ marks t .held ∧
          t.core.cpy.errs = s.core.cpy.errs ++ [(.le, 2, 2, x.target)]) ∧
      (cmd = some (.msg x .again) → s.links.reaches x.dstPkg = true → x.srcPkg = s.links.id →
        ∃ t, exec (.leCompletion j) s = .next t ∧ SameMemory s t ∧ SameRegs s t ∧
          t.core.cpy.le = s.core.cpy.le.map (fun y => { y with cmd := match y.cmd with
            | .msg m o => if m.seq = x.seq then .msg resent .sent else .msg m o
            | k => k }) ∧
          (if x.dstPkg = s.links.id then t.links = { s.links with inbox := s.links.inbox ++ [resent] }
           else t.links = { s.links with outbox := s.links.outbox ++ [resent] })) ∧
      (s.core.cpy.le = z :: rest → whole z.cmd → room →
        ∃ t, exec (.leCompletion 0) s = .next t ∧ SameMemory s t ∧ SameRegs s t ∧ t.core.cpy.le = rest ∧
          ∀ e : Eng, t.core.eng.tok .le e = s.core.eng.tok .le e + if z.push.getLsbD e.num then 1 else 0) ∧
      ((cmd = none ∨ (∃ y, cmd = some (.bar y false)) ∨ cmd = some (.msg x .sent) ∨ cmd = some (.msg x .held) ∨
          (0 < j ∧ ∃ k, cmd = some k ∧ whole k)) →
        exec (.leCompletion j) s = .next s))

/-- Arrivals and pod barriers (R120, R125, R132, R235, R236, R265-R267, R269-R271, R273, R275, R329): a good flit
delivers its message or its completion, or forwards one for another package, and a sixteenth bad one in a row retrains
the link or takes it down with its commands; an LSEND that may land writes its bytes, then posts one, then completes;
an LRED outside a gather adds its elements, some in a turn or all, and then posts; one with EXPECT waits for its
gather; a message that fails its checks, breaks its gather, or comes while that is being added, is logged and answered
with an error. A pod barrier's release comes after SLOT x STEP with the round's slack, and reaches a cluster after its
offset. What a link or a peer does is an argument of the event (log entries 13 and 23). A link that goes down answers
the commands that went over it, wherever the routes lead now, those that were forwarded for other packages too (R266).
That a message with one failing check has changed no byte is log entry 49. -/
def Obligations.ArrivalsAndPodBarriers : Prop :=
  ∀ (link : Fin 16) (bar : BarAt) (at_ : Nat) (b : PodBar) (crcOk retrainOk ok : Bool) (k : LinkMsg) (i pkg core seq : Nat) (sub : List Nat)
    (part : Option (List Nat)) (m : LinkMsg) (e : Refused) (as : List Nat) (cs : Option (List Nat)) (cl : Fin 32)
    (came : Word) (s : State),
    let own := s.links.id
    let fails (u : State) : Nat := u.links.fails[link]
    let up (u : State) (l : Fin 16) : Bool := u.links.up.getLsbD l.val
    let clear : State := { s with links := { s.links with fails := s.links.fails.set link 0 } }
    let told (t : State) (pkg core seq : Nat) (ok : Bool) : Prop :=
      if pkg = own then
        t.links.replies = s.links.replies ∧ ∀ j : Fin 128, t.cores[j] = if j.val = core then
          { s.cores[j] with cpy := { (s.cores[j]).cpy with
              le := (s.cores[j]).cpy.le.map fun y => { y with cmd := y.cmd.answered seq ok } } }
          else s.cores[j]
      else t.links.replies = s.links.replies ++ [(pkg, core, seq, ok)] ∧ t.cores = s.cores
    let receives (f : Option Flit) (t : State) : Prop := exec (.flitReceive link true retrainOk f) s = .next t
    let w := if m.half then 2 else 4
    let f := if m.half then fBF16 else fF32
    let piece (k : Nat) (l : List Nat) : List Nat := (l.drop (w * k)).take w
    let count := m.payload.length / w
    let place (k : Nat) : Nat := as.getD (w * k) 0 / 4
    let sum (pl : List Byte) (k : Nat) : List Byte :=
      leBytes w (f.round .rne ((f.decode (leNat ((piece k as).map (s.byteAt .g)))).add .rne
        (f.decode (leNat ((pl.drop (w * k)).take w)))))
    let carries (pl : List Byte) : Prop := pl.length = m.payload.length ∧ (m.srcPkg ≠ own → pl = m.payload) ∧
      ∀ k, k < pl.length / 4 → (∀ j, j < 4 → pl[4 * k + j]? = m.payload[4 * k + j]?) ∨
        (∀ j, j < 4 → pl[4 * k + j]? = some (s.byteAt (.u m.core) (m.src + 4 * k + j)))
    let here := s.links.inbox[i]? = some m
    let lands := here ∧ s.landing m = .ok (as, cs) ∧ as.Nodup ∧ ∀ c, cs = some c → c.Nodup ∧ ∀ a ∈ c, a ∉ as
    let outside (t : State) : Prop :=
      ∀ l a, ¬ (l = .g ∧ (a ∈ as ∨ ∃ c, cs = some c ∧ a ∈ c)) → t.byteAt l a = s.byteAt l a
    let posted (t : State) : Prop := t.links.inbox = s.links.inbox.eraseIdx i ∧ outside t ∧
      (∀ c, cs = some c → c.map (t.byteAt .g) = leBytes 8 (leNat (c.map (s.byteAt .g)) + 1)) ∧
      told t m.srcPkg m.core m.seq true
    let refused (t : State) : Prop := SameMemory s t ∧ t.links.inbox = s.links.inbox.eraseIdx i ∧
      t.links.gathers = s.links.gathers ∧ t.log.length = s.log.length + 1 ∧ told t m.srcPkg m.core m.seq false
    let gather := s.links.gathers.filter (sameGather m)
    let free := ∀ (j : Nat) (x : LinkMsg), s.links.inbox[j]? = some x → j ≠ i → sameGather m x = true →
      x.expect = 0 ∨ x.added = []
    let open_ := s.links.barAt bar = some (at_, b)
    let later (t : Word) (n : Nat) : Prop := t.toNat + n ≤ s.time.toNat
    let slot := s.power.slotTicks
    let slack := s.time.toNat - b.sentAt.toNat - slot
    let offset := s.phaseTicks cl.val b.pidx
    (up s link = false → exec (.flitReceive link crcOk retrainOk (some (.msg k))) s = .next s) ∧
    (up s link = true → receives none clear ∧
      (k.dstPkg = own → receives (some (.msg k))
        { clear with links := { clear.links with inbox := s.links.inbox ++ [k] } }) ∧
      (k.dstPkg ≠ own → s.links.reaches k.dstPkg = true → receives (some (.msg k))
        { clear with links := { clear.links with
            outbox := s.links.outbox ++ [k]
            relayed := if k.srcPkg = own then s.links.relayed
              else s.links.relayed ++ [{ k with via := List.lookup k.dstPkg s.links.routes }] } }) ∧
      (s.links.reaches k.dstPkg = false → ∃ t, receives (some (.msg k)) t ∧ SameMemory s t ∧
        told t k.srcPkg k.core k.seq false) ∧
      (∃ t, receives (some (.answer pkg core seq ok)) t ∧ SameMemory s t ∧ told t pkg core seq ok) ∧
      ((∀ z ∈ s.links.relayed, z.srcPkg ≠ own) →
        ∃ t, exec (.flitReceive link false retrainOk (some (.msg k))) s = .next t ∧ SameMemory s t ∧
        t.links.inbox = s.links.inbox ∧ t.links.outbox = s.links.outbox ∧
        fails t = (if fails s < 15 then fails s + 1 else 0) ∧
        (let down := !retrainOk && decide (15 ≤ fails s)
         (∀ l : Fin 16, up t l = (up s l && !(decide (l = link) && down))) ∧
         t.links.replies = s.links.replies ++ (if down then
             (s.links.relayed.filter fun z => z.via == some link).map
               fun z => (z.srcPkg, z.core, z.seq, false)
           else []) ∧
         ∀ j : Fin 128, (t.cores[j]).cpy.le = if down then (s.cores[j]).cpy.le.map fun y => { y with
             cmd := match y.cmd with
               | .msg x .sent => if x.via = some link then .msg x .failed else .msg x .sent
               | z => z }
           else (s.cores[j]).cpy.le))) ∧
    (lands → m.isRed = false → ∃ t pl, exec (.lsendArrival i) s = .next t ∧ carries pl ∧
      as.map (t.byteAt .g) = pl ∧ posted t) ∧
    (here → s.landing m = .error e →
      (m.isRed = false → ∃ t, exec (.lsendArrival i) s = .next t ∧ refused t) ∧
      (m.isRed = true → ∃ t, exec (.lredArrival ⟨i, part⟩) s = .next t ∧ refused t)) ∧
    (lands → m.isRed = true → m.expect = 0 → gather = [] → free → m.added = [] → m.payload.length % w = 0 →
      (∃ t pl, exec (.lredArrival ⟨i, none⟩) s = .next t ∧ carries pl ∧ posted t ∧
        ∀ k, k < count → (piece k as).map (t.byteAt .g) = sum pl k) ∧
      ((∃ a ∈ as, a / 4 ∉ sub) → ∃ t pl x, exec (.lredArrival ⟨i, some sub⟩) s = .next t ∧ carries pl ∧
        t.links.inbox[i]? = some x ∧ (∀ q, q ∈ x.added ↔ q ∈ sub ∧ ∃ a ∈ as, a / 4 = q) ∧ outside t ∧
        (∀ c, cs = some c → ∀ a ∈ c, t.byteAt .g a = s.byteAt .g a) ∧
        ∀ k, k < count → (piece k as).map (t.byteAt .g) =
          if place k ∈ sub then sum pl k else (piece k as).map (s.byteAt .g))) ∧
    (lands → m.isRed = true → m.expect = 0 → m.added ≠ [] → m.payload.length % w = 0 →
      ∃ t, exec (.lredArrival ⟨i, none⟩) s = .next t ∧ posted t ∧
        ∀ k, k < count → (piece k as).map (t.byteAt .g) =
          if place k ∈ m.added then (piece k as).map (s.byteAt .g) else sum m.payload k) ∧
    (lands → m.isRed = true → m.expect ≠ 0 → free → (∀ x ∈ gather, x.expect = m.expect) → m.added = [] →
      (gather.length + 1 < m.expect → ∃ t pl, exec (.lredArrival ⟨i, part⟩) s = .next t ∧ SameMemory s t ∧
        carries pl ∧ t.links.gathers = s.links.gathers ++ [{ m with payload := pl }] ∧
        t.links.inbox = s.links.inbox.eraseIdx i) ∧
      (m.expect ≤ gather.length + 1 → ∃ t, exec (.lredArrival ⟨i, none⟩) s = .next t ∧
        t.links.inbox = s.links.inbox.eraseIdx i ∧
        t.links.gathers = s.links.gathers.filter fun x => !(sameGather m x))) ∧
    (lands → m.isRed = true → (m.expect = 0 ∧ m.added = [] ∧ (gather ≠ [] ∨ ¬ free) ∨
        m.expect ≠ 0 ∧ (¬ free ∨ ∃ x ∈ gather, x.expect ≠ m.expect)) →
      ∃ t, exec (.lredArrival ⟨i, part⟩) s = .next t ∧ refused t) ∧
    (s.links.barAt bar = none → exec (.podBarrierComplete bar) s = .next s ∧ exec (.podRelease bar (some cl)) s = .next s) ∧
    (open_ → b.b = bar.b ∧ s.links.bars[at_]? = some b) ∧
    (open_ → b.sent = true → b.complete = false → exec (.podBarrierComplete bar) s = .next
      { s with links := { s.links with bars := s.links.bars.set at_ { b with complete := true, completeAt := s.time } } }) ∧
    (open_ → b.complete = true → b.received = none → ¬ later b.completeAt slot →
      exec (.podRelease bar none) s = .next s) ∧
    (open_ → b.complete = true → b.received = none → later b.completeAt slot →
      ∃ t, exec (.podRelease bar none) s = .next t ∧ SameMemory s t ∧
        t.links.bars = s.links.bars.set at_ { b with received := some s.time } ∧
        (∀ j : Fin 128, (t.cores[j]).cpy = (s.cores[j]).cpy) ∧
        (slack < s.power.slklo.toNat → t.power.slackDiv = .d4) ∧
        (s.power.slklo.toNat ≤ slack → t.power.slackDiv =
          if s.power.slkhi.toNat < slack ∧ s.power.slkhi ≠ 0xFFFFFFFF ∧ s.power.slackLow = false ∧
            2500000 ≤ s.time.toNat - s.power.slackSince.toNat then slower s.power.slackDiv else s.power.slackDiv)) ∧
    (open_ → b.complete = true → b.received = some came → ¬ later came offset →
      exec (.podRelease bar (some cl)) s = .next s) ∧
    (open_ → b.complete = true → b.received = some came → later came offset →
      ∃ t, exec (.podRelease bar (some cl)) s = .next t ∧ SameMemory s t ∧ t.power = s.power ∧
        (∀ j : Fin 128, t.cores[j] = if j.val / 4 = cl.val then
          { s.cores[j] with cpy := { (s.cores[j]).cpy with le := (s.cores[j]).cpy.le.map fun z => { z with
              cmd := match z.cmd with
                | .bar x r => .bar x (r || x == b.id)
                | y => y } } }
          else s.cores[j]) ∧
        ((∀ c ∈ b.arrived, c / 4 = cl.val) → t.links.bars = s.links.bars.eraseIdx at_) ∧
        ((∃ c ∈ b.arrived, c / 4 ≠ cl.val ∧ c < 128 ∧ b.reached.getLsbD (c / 4) = false) →
          t.links.bars = s.links.bars.set at_ { b with reached := b.reached ||| BitVec.ofNat 32 (2 ^ cl.val) }))

/-- The host port (R5, R25, R125, R258-R263): a launch needs an 8-byte write and is accepted, busy or refused by its
code; a register access of a bad form is an Unsupported Request, and a read finds the register, with zero for what
is reserved or write-only; requests are words of MBREQ and the doorbell starts one; reading the response ends it;
BAR2 accesses go through their window or fail; another AtomicOp than a 64-bit FetchAdd is unsupported; a bring-up
stops at the step that fails. That global memory reads zero after bring-up is the model's choice (log entry 2), and
so is the response to a failed access (log entry 39). A reset that keeps the fuses and takes BAR2's size as its
argument is log entry 40, LAUNCH and MBDOOR reading as zero log entry 61, and that over an untrained link the host
reaches nothing log entry 82. -/
def Obligations.HostPortAccesses : Prop :=
  ∀ (ptr v : Word) (off size : Nat) (k : Fin 32) (bytes : List Byte) (ctx : Fin 64) (a : Word) (e : Refused) (x : Xlat)
    (as : List Nat) (stack bank : Option Nat) (links : Trained) (melt : BitVec 16) (s : State),
    let code (t : State) : BitVec 2 := t.host.lstat
    let idle := ∀ c : Fin 128, (s.cores[c]).work.cpState = .idle
    let good := s.host.ready = true ∧ ptr.toNat % 128 = 0 ∧ (s.ctxs[s.host.lctx]).isSome = true ∧
      s.addressBad s.host.lctx ptr 128 .load true = false
    let answer (ok : Bool) (bs : List Byte) : State :=
      { s with host := { s.host with completion := some (ok, bs) } }
    let fails (i : Instr) : Prop := ∃ t, exec i s = .next t ∧ SameMemory s t ∧ t.cores = s.cores ∧
      t.host.completion = some (false, []) ∧ t.log.length = s.log.length + 1
    let badForm := (size ≠ 4 ∧ size ≠ 8) ∨ off % size ≠ 0 ∨ 0x100000 ≤ off
    let falls := s.host.target off = none ∨ 2 ^ s.host.bar2 ≤ off
    let through := s.host.target off = some (ctx, some a) ∧ off < 2 ^ s.host.bar2
    let reg (o : Nat) (w : Nat) : Prop := s.bar0Word o = BitVec.ofNat 64 w
    exec (.launch ptr false) s = .next s ∧
    (good → idle → ∃ t, exec (.launch ptr true) s = .next t ∧ code t = 0 ∧ SameMemory s t ∧
      ∀ c : Fin 128, (t.cores[c]).work = { (s.cores[c]).work with
        cp := ptr, cpOld := s.gmem.mem, cpCtx := s.host.lctx, cpState := .running, cpLaunch := s.host.launches + 1, cpIndex := 0 }) ∧
    (good → ¬ idle → exec (.launch ptr true) s = .next { s with host := { s.host with lstat := 1 } }) ∧
    (s.host.ready = false → exec (.launch ptr true) s = .next { s with host := { s.host with lstat := 2 } }) ∧
    (s.host.ready = true → ¬ good → exec (.launch ptr true) s = .next { s with host := { s.host with lstat := 3 } }) ∧
    (badForm → exec (.hostRegisterWrite off size v) s = .next (answer false [])) ∧
    (badForm → s.host.linked = true → outsideStep (.bar0Read off size) s = .next (answer false [])) ∧
    exec (.hostRegisterWrite (0x1000 + 8 * k.val) 8 v) s =
      .next { s with host := { s.host with mbreq := s.host.mbreq.set k v } } ∧
    (v.getLsbD 0 = true → s.host.mbstat = 0 → 1 ≤ s.host.code → s.host.code ≤ 15 →
      exec (.hostRegisterWrite 0x1200 8 v) s = .next { s with host := { s.host with mbstat := 1 } }) ∧
    (v.getLsbD 0 = true → s.host.mbstat ≠ 0 → exec (.hostRegisterWrite 0x1200 8 v) s = .next s) ∧
    (∃ t, exec .mbrspRead s = .next t ∧ t.cores = s.cores ∧ SameMemory s t ∧ t.host.mbstat = 0 ∧
      t.host.completion = some (true, (s.host.mbrsp.toList.map fun w => leBytes 8 w.toNat).flatten)) ∧
    (¬ badForm → s.host.linked = true → ∃ t, outsideStep (.bar0Read off size) s = .next t ∧ t.cores = s.cores ∧ SameMemory s t ∧
      t.host.completion =
        some (true, ((leBytes 8 (s.bar0Word (off / 8 * 8)).toNat).drop (off % 8)).take size) ∧
      t.host.mbstat = if 0x1100 ≤ off ∧ off ≤ 0x11FF then 0 else s.host.mbstat) ∧
    (s.bar0Word 0 = ({ s with cur := 0 } : State).sysRead 0 ∧ reg 0x100 0 ∧ reg 0x108 s.host.lctx.val ∧ reg 0x110 s.host.lstat.toNat ∧
      s.bar0Word (0x1000 + 8 * k.val) = s.host.mbreq[k] ∧ s.bar0Word (0x1100 + 8 * k.val) = s.host.mbrsp[k] ∧
      reg 0x1200 0 ∧ reg 0x1208 s.host.mbstat.toNat ∧
      reg 8 ((if s.host.ready then 1 else 0) + (if s.host.recovery then 2 else 0) +
        (if s.host.failed then 4 else 0) + 256 * s.host.step.toNat)) ∧
    (s.host.linked = true → outsideStep .atomicOp s = .next (answer false [])) ∧
    (s.host.linked = false → outsideStep (.bar0Read off size) s = .next s ∧ outsideStep .atomicOp s = .next s ∧
      eventStep (.launch ptr true) s = .next s ∧ eventStep (.hostRegisterWrite off size v) s = .next s ∧
      eventStep .mbrspRead s = .next s ∧ eventStep (.hostBar2Read off size) s = .next s ∧
      eventStep (.hostBar2Write off bytes) s = .next s ∧ eventStep (.hostFetchadd off v) s = .next s) ∧
    (falls → exec (.hostBar2Read off size) s = .next (answer false []) ∧
      exec (.hostFetchadd off v) s = .next (answer false [])) ∧
    (∀ bs, through → s.readPort ctx true a size = .ok bs →
      exec (.hostBar2Read off size) s = .next (answer true bs)) ∧
    (through → s.readPort ctx true a size = .error e → fails (.hostBar2Read off size)) ∧
    (through → s.translate ctx .extWrite a [(a.toNat % 2 ^ 48, bytes.length)] = .ok x →
      x.places (a.toNat % 2 ^ 48) bytes.length = some as → as.Nodup → s.gmem.bad = [] →
      ∃ t, exec (.hostBar2Write off bytes) s = .next t ∧ t.cores = s.cores ∧ as.map (t.byteAt .g) = bytes ∧
        ∀ l i, ¬ (l = .g ∧ i ∈ as) → t.byteAt l i = s.byteAt l i) ∧
    (falls ∨ (through ∧ s.portPlaces ctx .extWrite a bytes.length = .error e) →
      ∃ t, exec (.hostBar2Write off bytes) s = .next t ∧ SameMemory s t ∧ t.cores = s.cores ∧
        t.log.length = s.log.length + 1) ∧
    (through → a.toNat % 8 = 0 → s.translate ctx .extPost a [(a.toNat % 2 ^ 48, 8)] = .ok x →
      x.places (a.toNat % 2 ^ 48) 8 = some as → as.Nodup → s.gmem.bad = [] →
      leNat (as.map (s.byteAt .g)) + v.toNat < 2 ^ 64 →
      ∃ t, exec (.hostFetchadd off v) s = .next t ∧
        t.host.completion = some (true, leBytes 8 (leNat (as.map (s.byteAt .g)))) ∧
        as.map (t.byteAt .g) = leBytes 8 (leNat (as.map (s.byteAt .g)) + v.toNat) ∧
        ∀ l i, ¬ (l = .g ∧ i ∈ as) → t.byteAt l i = s.byteAt l i) ∧
    (through → a.toNat % 8 ≠ 0 ∨ s.portPlaces ctx .extPost a 8 = .error e → fails (.hostFetchadd off v)) ∧
    (let left (t : State) : Prop := t.cores = State.reset.cores ∧ t.time = 0 ∧ t.host.life = s.host.life ∧
       t.host.identity = s.host.identity ∧ t.host.keys = s.host.keys ∧ t.host.bar2 = 20 + links.bar2.val ∧
       ∀ l i, t.byteAt l i = 0
     (∃ t, exec (.deviceReset true none none links melt) s = .next t ∧ left t ∧ t.host.ready = true ∧
       t.host.failed = false ∧ t.host.step = 7 ∧ t.links.up = links.links ∧ t.host.linked = links.pcie ∧ t.power.frac = melt ∧
       t.host.features = if s.host.life = .blank then 15 else 0) ∧
     (∃ t, exec (.deviceReset false stack bank links melt) s = .next t ∧ left t ∧
       t.host.ready = false ∧ t.host.recovery = true ∧ t.host.step = 0) ∧
     (stack.isSome = true → ∃ t, exec (.deviceReset true stack bank links melt) s = .next t ∧ left t ∧
       t.host.ready = false ∧ t.host.failed = true ∧ t.host.step = 2) ∧
     (bank.isSome = true → ∃ t, exec (.deviceReset true none bank links melt) s = .next t ∧ left t ∧
       t.host.ready = false ∧ t.host.failed = true ∧ t.host.step = 3))

/-- The mailbox's short commands (R117, R244, R254, R255, R257, R263, R265): a command runs when the mailbox is busy
with its code, has its effect when its arguments are in range, and answers 0 in the first word; otherwise it answers 1
and has none. GO puts what was dumped back into flight, with the bank counters counting again; a debugger's write of a
stopped core needs the WRITE feature and its read the READ feature. No translation cache keeps a page of a context
that CTXNEW or CTXFREE names (R11). That CTXNEW refuses a resident context and CTXFREE one that is not is the model's
choice (log entry 35), and so is that a debugger's write is an act from outside (log entry 27). The places of a
token's fields are PRESUMED in log entry 24. -/
def Obligations.ManagementCommands : Prop :=
  ∀ (ctx : Fin 64) (core : Fin 128) (verified : Bool) (a : DebugAct) (look : DebugView) (r : Fin 16) (v : Word) (s : State),
    let p := s.host
    let arg (k : Nat) : Word := vget p.mbreq (k + 1) 0
    let given (n : Nat) : Prop := p.mbstat = 1 ∧ (p.mbreq[0]).toNat % 256 = n
    let answers (i : Instr) (status : Word) (u : State) : Prop := ∃ t, exec i s = .next t ∧
      t = { u with host := t.host } ∧ t.host.mbrsp[0] = status ∧
      t.host = { u.host with mbstat := 2, mbrsp := t.host.mbrsp, msix := u.host.msix ||| 1 }
    let power (q : Power) : State := { s with power := q }
    let port (q : Port) : State := { s with host := q }
    let coreState (f : Work → Work) : State :=
      { s with cores := s.cores.set core { s.cores[core] with work := f (s.cores[core]).work } }
    let tok := ((List.range 31).map fun k => leBytes 8 (arg k).toNat).flatten
    let key := BitVec.ofNat 64 (leNat ((tok.drop 41).take 8))
    (given 0x02 → arg 0 = BitVec.ofNat 64 ctx.val → (arg 2).toNat ≤ 65536 → s.ctxs[ctx] = none →
      answers .ctxnew 0 (({ s with ctxs := s.ctxs.set ctx (some ⟨arg 1, (arg 2).toNat⟩) } : State).dropContext ctx)) ∧
    ({ s.dropContext ctx with cores := s.cores } = s ∧ ∀ j : Fin 128,
      { (s.dropContext ctx).cores[j] with tlb := (s.cores[j]).tlb } = s.cores[j] ∧
      ∀ z, z ∈ ((s.dropContext ctx).cores[j]).tlb ↔ z ∈ (s.cores[j]).tlb ∧ z.ctx ≠ ctx) ∧
    (given 0x02 → 64 ≤ (arg 0).toNat ∨ 65536 < (arg 2).toNat → answers .ctxnew 1 s) ∧
    (given 0x03 → arg 0 = BitVec.ofNat 64 ctx.val → (s.ctxs[ctx]).isSome = true →
      (∀ (c : Fin 128) (q : Fin 4), ∀ n ∈ ((s.cores[c]).work.queues[q]).nodes, n.ctx ≠ ctx) →
      answers .ctxfree 0 (({ s with ctxs := s.ctxs.set ctx none } : State).dropContext ctx)) ∧
    (∀ (c : Fin 128) (q : Fin 4) (n : Node), given 0x03 → arg 0 = BitVec.ofNat 64 ctx.val →
      n ∈ ((s.cores[c]).work.queues[q]).nodes → n.ctx = ctx → answers .ctxfree 1 s) ∧
    (given 0x05 → 1 ≤ (arg 0).toNat → (arg 0).toNat ≤ 65535 →
      answers .watchdog 0 { s with watchdog := (arg 0).toNat }) ∧
    (given 0x08 → verified = true → p.life ≠ .retired → (tok.drop 1).take 32 = p.identity → key ∉ p.keys →
      answers (.token verified) 0 (port { p with
        keys := p.keys ++ [key]
        features := p.features ||| BitVec.ofNat 4 (leNat ((tok.drop 33).take 8)) })) ∧
    (given 0x08 → verified = false ∨ p.life = .retired ∨ (tok.drop 1).take 32 ≠ p.identity ∨ key ∈ p.keys → answers (.token verified) 1 s) ∧
    (given 0x09 → arg 0 = BitVec.ofNat 64 core.val → p.features.getLsbD 0 = true → arg 1 = 1 →
      answers .stop 0 (coreState fun w => { w with dbg := some (.brk (arg 5)), dbgSeen := 0, dbgFrom := none })) ∧
    (given 0x09 → arg 0 = BitVec.ofNat 64 core.val → p.features.getLsbD 0 = true → arg 1 = 0 →
      (arg 3).toNat < 2 ^ 32 → 1 ≤ (arg 4).toNat → (arg 4).toNat ≤ 65535 →
      answers .stop 0 (coreState fun w => { w with
        dbg := some (.cycle (arg 2) (arg 3).toNat (arg 4).toNat), dbgSeen := 0, dbgFrom := none })) ∧
    (given 0x09 → p.features.getLsbD 0 = false → answers .stop 1 s) ∧
    (given 0x0A → arg 0 = BitVec.ofNat 64 core.val →
      let running (c : Core) : Core :=
        let c' : Core := { c.work.dump.foldl Core.reinject c with work := { c.work with stopped := false, dump := [] } }
        { c' with bcmFixed := if c'.frozen then c'.bcmFixed else [] }
      let held (c : Core) : List Nat := (c.opened.map fun o => o.hold.toList).flatten
      let runsOn (c : Core) : State := { s with
        cores := s.cores.set core (running c)
        holds := s.holds.filter fun h => !((held c).contains h.1) || (held (running c)).contains h.1 }
      let c := s.cores[core]
      (c.work.stopped = true → answers .go 0 (runsOn c)) ∧ (c.work.stopped = false → answers .go 1 s)) ∧
    (s.core.work.stopped = true → p.features.getLsbD 2 = true → outsideStep (.debug (.named r v)) s =
      .next (s.upd fun c => { c with regs := { c.regs with n := c.regs.n.set r v } })) ∧
    (s.core.work.stopped = false ∨ p.features.getLsbD 2 = false → outsideStep (.debug a) s = .next s) ∧
    (s.core.work.stopped = true → p.features.getLsbD 1 = true → outsideStep (.view (.named r)) s =
      .next (port { p with debugSeen := leBytes 8 (s.core.regs.n[r]).toNat })) ∧
    (s.core.work.stopped = false ∨ p.features.getLsbD 1 = false → outsideStep (.view look) s = .next s) ∧
    (given 0x0B → (arg 0).toNat ≤ 4095 → 1 ≤ (arg 1).toNat → (arg 1).toNat ≤ 64 → ∃ routes,
      answers .podcfg 0 { s with links := { s.links with id := (arg 0).toNat, pod := (arg 1).toNat, routes } }) ∧
    (given 0x0C → (arg 0).toNat ≤ 3200 → answers .pcap 0 (power { s.power with pcapNext := (arg 0).toNat })) ∧
    (given 0x0C → 3200 < (arg 0).toNat → answers .pcap 1 s) ∧
    (given 0x0D → (arg 0).toNat ≤ 32 → answers .spmax 0 (power { s.power with spmax := (arg 0).toNat })) ∧
    (given 0x0D → 32 < (arg 0).toNat → answers .spmax 1 s) ∧
    (∀ e, given 0x0E → s.log[(arg 0).toNat]? = some e → answers .logread 0 s) ∧
    (given 0x0E → s.log.length ≤ (arg 0).toNat → answers .logread 1 s)

/-- Loading, clearing, resetting, saving and resuming (R25, R26, R37, R51, R125, R133, R214, R224, R225, R287): an
accepted block joins the kernels and its image stands in free code memory; a refused one answers its load error and
changes nothing, but that a header which the port refuses is logged under the management core; QCLEAR removes a held
head; CORERESET frees a double-faulted core; PREEMPT of a busy core waits for its invocation's end, and an idle one
saves its record and enters its handler, or is refused where the record cannot be written; RESUME restores a record's
walk, queues and node, which goes on from the slice of its WID. Neither loads nor resumes before the device is ready
(R25). Where an image stands is free (log entry 8); the record beside the saved one, and that a command before ready
answers 1, are the model's (log entries 31 and 61). The core's state after CORERESET is log entry 38, and load error 2
for an image shorter than its header log entry 41. -/
def Obligations.LoadsSavesAndResumes : Prop :=
  ∀ (parts : KernelParts) (ctx : Fin 64) (core : Fin 128) (img : List Byte) (s : State),
    let p := s.host
    let arg (k : Nat) : Word := vget p.mbreq (k + 1) 0
    let given (n : Nat) : Prop := p.mbstat = 1 ∧ (p.mbreq[0]).toNat % 256 = n
    let answered (t : State) (status : Word) : Prop := t.host.mbstat = 2 ∧ t.host.mbrsp[0] = status
    let word (o : Nat) : Nat := leNat ((img.drop o).take 8)
    let c := s.cores[core]
    let here : State := { s with cur := core }
    let waiting (r : Option (Fin 64 × Word)) : Core := { c with work := { c.work with preempt := r } }
    (given 0x01 → p.ready = false → ∃ t, exec (.load parts) s = .next t ∧ answered t 1 ∧ t = { s with host := t.host }) ∧
    (∀ e, given 0x01 → p.ready = true → arg 0 = BitVec.ofNat 64 ctx.val →
      s.portPlaces ctx .loader (arg 1) 464 = .error e →
      ∃ t x, exec (.load parts) s = .next t ∧ answered t 1 ∧ t.host.mbrsp[1] = 2 ∧ SameMemory s t ∧ t.cores = s.cores ∧
        t.log = s.log ++ [x] ∧ x.addr = arg 1 ∧ x.ctx = ctx.val ∧ x.core = 128) ∧
    (given 0x01 → p.ready = true → arg 0 = BitVec.ofNat 64 ctx.val →
      s.loaderRead ctx (arg 1) 464 = some (img.take 464) →
      (word 0 / 2 ^ 32 ≠ 0x5A4A4B42 ∨ word 0 / 2 ^ 16 % 2 ^ 16 ≠ 1 ∨ imageLength (img.take 464) < 464) → 464 ≤ img.length →
      ∃ t, exec (.load parts) s = .next t ∧ answered t 1 ∧ t.host.mbrsp[1] = 2 ∧ t = { s with host := t.host }) ∧
    (given 0x01 → p.ready = true → arg 0 = BitVec.ofNat 64 ctx.val →
      s.loaderRead ctx (arg 1) 464 = some (img.take 464) → 464 ≤ imageLength (img.take 464) →
      word 0 / 2 ^ 32 = 0x5A4A4B42 → word 0 / 2 ^ 16 % 2 ^ 16 = 1 →
      s.loaderRead ctx (arg 1) (imageLength (img.take 464)) = some img → Memory.wf s.code →
      (∀ e, s.loadError ctx (arg 2) parts img = some e →
        ∃ t, exec (.load parts) s = .next t ∧ answered t 1 ∧ t.host.mbrsp[1] = BitVec.ofNat 64 e ∧
          t = { s with host := t.host }) ∧
      (s.loadError ctx (arg 2) parts img = none →
        ∃ t k, exec (.load parts) s = .next t ∧ answered t 0 ∧ t.kernels = s.kernels ++ [k] ∧ k.ctx = ctx ∧
          k.addr = arg 1 ∧ t.cores = s.cores ∧ ∃ base, k.base = BitVec.ofNat 64 base ∧ base % 32 = 0 ∧
          s.codeTop ≤ base ∧ t.codeTop = base + img.length ∧
          ∀ a, readByte t.code a = if base ≤ a ∧ a < base + img.length then img.getD (a - base) 0
            else readByte s.code a)) ∧
    (∀ (q : Fin 4) (n : Node) (ns : List Node) (h : Nat), given 0x04 → arg 0 = BitVec.ofNat 64 core.val →
      arg 1 = BitVec.ofNat 64 q.val → (c.work.queues[q]).nodes = n :: ns →
      (c.work.queues[q]).head.held = some h → c.work.cur = none →
      ∃ t, exec .qclear s = .next t ∧ answered t 0 ∧ ((t.cores[core]).work.queues[q]).nodes = ns ∧
        ((t.cores[core]).work.queues[q]).head = Head.fresh s.time ∧ SameMemory s t) ∧
    (given 0x0F → arg 0 = BitVec.ofNat 64 core.val → c.work.run = .doubleFault →
      ∃ t, exec .corereset s = .next t ∧ answered t 0 ∧ (t.cores[core]).work.run = .idle ∧
        (t.cores[core]).work.cur = none ∧ (t.cores[core]).regs.sup = false ∧
        (t.cores[core]).trap.inh = false ∧ (t.cores[core]).trap.pending = [] ∧ (t.cores[core]).pend = []) ∧
    (given 0x06 → arg 0 = BitVec.ofNat 64 core.val → arg 1 = BitVec.ofNat 64 ctx.val → (arg 2).toNat % 128 = 0 →
      c.work.run = .running → c.work.preempting = none →
      exec .preempt s = .next { s with cores := s.cores.set core (waiting (some (ctx, arg 2))) }) ∧
    (∀ u, given 0x06 → arg 0 = BitVec.ofNat 64 core.val → arg 1 = BitVec.ofNat 64 ctx.val →
      (arg 2).toNat % 128 = 0 → c.work.run = .idle → c.work.stopped = false → c.work.preempting = none →
      c.work.cur = none → c.trap.tvb ≠ 0 → c.trap.inh = false →
      (here.writeRecord ctx (arg 2) = .ok u → ∃ t, exec .preempt s = .next t ∧ t.host.mbstat = 1 ∧ SameMemory u t ∧
        (t.cores[core]).trap.tcode = 0x1A ∧ (t.cores[core]).trap.tinfo = arg 2 ∧
        (t.cores[core]).trap.inh = true ∧ (t.cores[core]).regs.sup = true ∧
        (t.cores[core]).fetch.line = c.trap.tvb ∧ (t.cores[core]).work.run = .running ∧
        (t.cores[core]).work.preempting = some (ctx, arg 2) ∧
        (t.cores[core]).work.cpState = .idle ∧ ∀ q : Fin 4, ((t.cores[core]).work.queues[q]).nodes = []) ∧
      (∀ e, here.writeRecord ctx (arg 2) = .error e → ∃ t, exec .preempt s = .next t ∧ answered t 1 ∧ SameMemory s t ∧
        t.cores = s.cores.set core (waiting none) ∧ t.log.length = s.log.length + 1)) ∧
    (given 0x06 → arg 0 = BitVec.ofNat 64 core.val → arg 1 = BitVec.ofNat 64 ctx.val → (arg 2).toNat % 128 = 0 →
      c.work.run ≠ .doubleFault → c.work.preempting.isSome = true → exec .preempt s = .next s) ∧
    (given 0x07 → arg 0 = BitVec.ofNat 64 core.val → arg 1 = BitVec.ofNat 64 ctx.val → (arg 2).toNat % 128 = 0 →
      p.ready = true → c.vacant = true → s.readPort ctx true (arg 2) 0x1930 = .ok img →
      word 0 / 2 ^ 32 = s.devid.toNat / 2 ^ 32 → word 0 % 256 = 1 →
      let nodes (t : State) : Prop := ∀ q : Fin 4, q ≠ 0 → ((t.cores[core]).work.queues[q]).nodes.length =
        min 16 (word 0x28 / 2 ^ (5 * (q.val - 1)) % 32) +
          if word 0x20 / 2 ^ 16 % 2 = 1 ∧ word 0x20 / 2 ^ 17 % 4 = q.val then 1 else 0
      let walk (t : State) : Prop := answered t 0 ∧ SameMemory s t ∧
        (t.cores[core]).work.cp = BitVec.ofNat 64 (word 8) ∧
        (t.cores[core]).work.cpState = (if word 8 = 0 then .idle else .running) ∧ nodes t
      (word 0x20 / 2 ^ 16 % 2 = 0 → ∃ t, exec .resume s = .next t ∧ walk t ∧ (t.cores[core]).work.cur = none) ∧
      (word 0x20 / 2 ^ 16 % 2 = 1 →
        (∃ k ∈ s.kernels, k.ctx = Fin.ofNat 64 (word 0x60) ∧ k.addr = BitVec.ofNat 64 (word 0x88)) →
        ∃ t y k, exec .resume s = .next t ∧ walk t ∧ (t.cores[core]).work.cur = some y ∧ k ∈ s.kernels ∧
          y.node.img = imgOf ((img.drop 0x80).take 128) ∧ y.j = word 0x20 % 256 ∧
          y.p = word 0x20 / 2 ^ 8 % 256 ∧ y.next = y.node.sliceOf k.widths (BitVec.ofNat 64 (word 0x10)) ∧
          y.last = y.next + word 0x18 ∧ y.running = false ∧
          ∀ a : Fin 3, y.carry[a] = BitVec.ofNat 64 (word (0x30 + 8 * a.val)))) ∧
    (∀ e, given 0x07 → arg 0 = BitVec.ofNat 64 core.val → arg 1 = BitVec.ofNat 64 ctx.val → (arg 2).toNat % 128 = 0 →
      p.ready = true → c.vacant = true → s.readPort ctx true (arg 2) 0x1930 = .error e →
      ∃ t, exec .resume s = .next t ∧ answered t 1 ∧ t.cores = s.cores ∧ SameMemory s t ∧
        t.log.length = s.log.length + 1) ∧
    (given 0x07 → p.ready = false → ∃ t, exec .resume s = .next t ∧ answered t 1 ∧ t = { s with host := t.host })

/-- The graph fetcher and the head of a queue (R27-R32, R36, R38, R39, R50): a block read joins queue 0, a
JUMP redirects the walk, a failed read stops it; the error of a head is the lowest of NE1 to NE7 whose condition its
block, its kernel block and its addresses meet; a head with an error is held and reported, one of other cores
leaves, an END ends the walk, any other waits for its dependences; a counter at its target meets one; a predicate
that is not zero lets the node start, and zero skips it; a head that stands too long is reported once. That a report
raises MSI-X vector 2 follows R264 (log entry 37). Every word of a block is the one that stands there or the one
from before the walk (R28, log entry 62). That a skipped node makes its queue the one served is log entry 65, that a
NEXT which is no multiple of 128 is taken as it is, log entry 64, and the number that a node has in its walk, log entry
19. -/
def Obligations.GraphsAndNodeHeads : Prop :=
  ∀ (q : Fin 4) (second : Bool) (bs : List Byte) (n : Node) (ns : List Node) (e : Nat) (s : State),
    let c := s.core
    let w := c.work
    let x := w.queues[q]
    let queue (t : State) (j : Fin 4) : CmdQ := t.core.work.queues[j]
    let places := s.blockPlaces w.cpCtx w.cp
    let block : Node := { img := imgOf (s.blockWords places bs), ctx := w.cpCtx, launch := w.cpLaunch
                          index := w.cpIndex, addr := w.cp }
    let wordOf (l : List Byte) (j : Nat) : Word := BitVec.ofNat 64 (leNat ((l.drop (8 * j)).take 8))
    let kind (m : Node) : Nat := (m.img[0]).toNat % 16
    let keeps (t : State) : Prop := SameMemory s t ∧ SameRegs s t ∧ t.time = s.time ∧
      ∀ j : Fin 4, j ≠ q → queue t j = queue s j
    let held (t : State) (e : Nat) : Prop := (queue t q).nodes = x.nodes ∧ (queue t q).head.held = some e ∧
      t.host.msix = s.host.msix ||| 6 ∧ t.log.length = s.log.length + 1
    let unread (t : State) : Prop := (queue t q).nodes = x.nodes ∧ (queue t q).head.held = some 5 ∧
      t.host.msix = s.host.msix ||| 6 ∧ t.log.length = s.log.length + 2
    -- the block of the head by its fields (R29)
    let word (i : Fin 16) : Nat := (n.img[i]).toNat
    let fld (i : Fin 16) (lo bits : Nat) : Nat := word i / 2 ^ lo % 2 ^ bits
    let on (bit : Nat) : Prop := fld 0 bit 1 = 1
    let level (l : Nat) : Nat := fld 3 (16 * l) 16
    let perm (k : Nat) : Nat := fld 0 (20 + 2 * k) 2
    let nlev := fld 0 16 3
    let launches : Prop := kind n = 1 ∨ kind n = 2
    let part : Prop := launches ∧ fld (if s.cur.val < 64 then 4 else 5) (s.cur.val % 64) 1 = 1
    let accepted (k : Kernel) : Prop := k.ctx = n.ctx ∧ k.addr.toNat = word 1
    let newest (k : Kernel) : Prop := ∃ l r, s.kernels = l ++ k :: r ∧ accepted k ∧ ∀ z ∈ r, ¬ accepted z
    -- an address of some bytes that is enabled fails for a kind of access, or lacks right R where that is needed
    let fails (i : Fin 16) (bytes : Nat) (a : GKind) (needR : Prop) : Prop :=
      match s.translate n.ctx a n.img[i] [(word i % 2 ^ 48, bytes)] with
      | .error _ => True
      | .ok z => needR ∧ z.word2.getLsbD 0 = false
    let err (e : Nat) : Prop :=
      (e = 1 ∧ (kind n = 0 ∨ 4 < kind n ∨ fld 0 4 4 ≠ 0 ∨ fld 0 13 3 ≠ 0 ∨ fld 0 19 1 ≠ 0 ∨ fld 0 28 36 ≠ 0 ∨
        (kind n ≠ 3 ∧ word 15 ≠ 0) ∨ (¬ on 9 ∧ (word 8 ≠ 0 ∨ word 9 ≠ 0)) ∨ (¬ on 10 ∧ (word 10 ≠ 0 ∨ word 11 ≠ 0)) ∨
        (¬ on 8 ∧ word 12 ≠ 0) ∨ (¬ on 11 ∧ (word 6 ≠ 0 ∨ word 7 ≠ 0)) ∨
        ((kind n = 3 ∨ kind n = 4) ∧ (on 8 ∨ on 9 ∨ on 10)))) ∨
      (e = 2 ∧ part ∧ ∀ k ∈ s.kernels, ¬ accepted k) ∨
      (e = 3 ∧ part ∧ ∃ k, newest k ∧ (4 < nlev ∨ k.widths.length < nlev ∨ (∃ l, l < nlev ∧ ∀ d, d < nlev → perm d ≠ l) ∨
        (∃ d, nlev ≤ d ∧ d < 4 ∧ (perm d ≠ 0 ∨ level d ≠ 0)) ∨
        (∃ l, l < nlev ∧ 2 ^ k.widths.getD l 0 <
          word 2 / 2 ^ (k.widths.take l).sum % 2 ^ k.widths.getD l 0 + level l))) ∨
      (e = 4 ∧ launches ∧ word 4 = 0 ∧ word 5 = 0) ∨
      (e = 5 ∧ part ∧ ((on 11 ∧ fails 6 8 .counter False) ∨ (on 9 ∧ fails 8 8 .load False) ∨
        (on 10 ∧ fails 10 8 .load False) ∨ (on 8 ∧ fails 12 4 .load True))) ∨
      (e = 6 ∧ part ∧ ((on 11 ∧ word 6 % 8 ≠ 0) ∨ (on 9 ∧ word 8 % 8 ≠ 0) ∨ (on 10 ∧ word 10 % 8 ≠ 0) ∨
        (on 8 ∧ word 12 % 4 ≠ 0))) ∨
      (e = 7 ∧ (kind n = 3 ∨ (kind n = 4 ∧ q ≠ 0)))
    (s.nodeError q n = some e ↔ err e ∧ ∀ e', e' < e → ¬ err e') ∧
    (s.readPort w.cpCtx true w.cp 128 = .ok bs → ∀ j : Fin 16, block.img[j] = wordOf bs j.val ∨
      block.img[j] = wordOf (places.map (readByte w.cpOld)) j.val) ∧
    (w.cpState = .running → (w.queues[0]).nodes.length < 16 → s.readPort w.cpCtx true w.cp 128 = .ok bs →
      (kind block ≠ 3 → ∃ t, exec .graphFetch s = .next t ∧ SameMemory s t ∧ SameRegs s t ∧
        (queue t 0).nodes = (w.queues[0]).nodes ++ [block] ∧ t.core.work.cp = w.cp + 128 ∧
        t.core.work.cpIndex = w.cpIndex + 1 ∧
        t.core.work.cpState = if kind block = 4 then .ended else .running) ∧
      (kind block = 3 → ∃ t, exec .graphFetch s = .next t ∧ SameMemory s t ∧
        t.core.work = { w with cp := block.img[15] })) ∧
    (∀ y, w.cpState = .running → (w.queues[0]).nodes.length < 16 → s.readPort w.cpCtx true w.cp 128 = .error y →
      ∃ t, exec .graphFetch s = .next t ∧ SameMemory s t ∧ t.core.work = { w with cpState := .fetchError } ∧
        t.host.msix = s.host.msix ||| 6) ∧
    (x.nodes = n :: ns → x.head.checked = false → x.head.held = none →
      (s.nodeError q n = some e → ∃ t, exec (.nodeHeadCheck q) s = .next t ∧ keeps t ∧ held t e) ∧
      (s.nodeError q n = none → kind n ≠ 4 → n.has s.cur = false →
        ∃ t, exec (.nodeHeadCheck q) s = .next t ∧ keeps t ∧ (queue t q).nodes = ns ∧
          (queue t q).head = Head.fresh s.time) ∧
      (s.nodeError q n = none → kind n = 4 →
        ∃ t, exec (.nodeHeadCheck q) s = .next t ∧ keeps t ∧ (queue t q).nodes = ns ∧
          t.core.work.cpState = .idle) ∧
      (s.nodeError q n = none → kind n ≠ 4 → n.has s.cur = true →
        ∃ t, exec (.nodeHeadCheck q) s = .next t ∧ keeps t ∧ (queue t q).nodes = x.nodes ∧
          (queue t q).head.checked = true ∧ (queue t q).head.dep0 = !n.dep0 ∧
          (queue t q).head.dep1 = !n.dep1)) ∧
    (x.nodes = n :: ns → x.head.checked = true → x.head.held = none →
      (if second then x.head.dep1 else x.head.dep0) = false →
      (s.readPort n.ctx false (n.depAdr second) 8 = .ok bs →
        ∃ t, exec (.dependenceRead q second) s = .next t ∧ keeps t ∧ (queue t q).nodes = x.nodes ∧
          ((n.depTgt second).toNat ≤ leNat bs →
            (queue t q).head.dep0 = (x.head.dep0 || !second) ∧ (queue t q).head.dep1 = (x.head.dep1 || second)) ∧
          (leNat bs < (n.depTgt second).toNat → t = s)) ∧
      (∀ y, s.readPort n.ctx false (n.depAdr second) 8 = .error y →
        ∃ t, exec (.dependenceRead q second) s = .next t ∧ keeps t ∧ unread t)) ∧
    (x.nodes = n :: ns → x.head.checked = true → x.head.dep0 = true → x.head.dep1 = true → x.head.ready = false →
      x.head.held = none →
      (s.readPort n.ctx true n.predAdr 4 = .ok bs → leNat bs ≠ 0 →
        ∃ t, exec (.predicateRead q) s = .next t ∧ keeps t ∧ (queue t q).nodes = x.nodes ∧
          (queue t q).head = { x.head with ready := true }) ∧
      (s.readPort n.ctx true n.predAdr 4 = .ok bs → leNat bs = 0 → w.cur = none →
        ∃ t d, exec (.predicateRead q) s = .next t ∧ keeps t ∧ (queue t q).nodes = ns ∧
          t.core.work.posts = w.posts ++ [d] ∧ d.node = n ∧ d.writes = false ∧ t.core.work.served = q) ∧
      (∀ y, s.readPort n.ctx true n.predAdr 4 = .error y →
        ∃ t, exec (.predicateRead q) s = .next t ∧ keeps t ∧ unread t)) ∧
    (x.nodes ≠ [] → x.head.held = none → x.head.reported = false →
      s.watchdog * 2500000 < (s.time - x.head.since).toNat →
      ∃ t, exec (.nodeWatchdog q) s = .next t ∧ keeps t ∧ (queue t q).nodes = x.nodes ∧
        (queue t q).head = { x.head with reported := true } ∧ t.host.msix = s.host.msix ||| 4)

/-- Invocations and posts (R34, R37, R40-R46, R74, R82, R86, R87, R158, R162, R166, R175, R203, R204, R227, R230,
R341): an idle core starts the node at the head of the ready queue in turn, when its launch offset is over, with the
registers, mode, engines and matrix state that every invocation finds, and with the unit-pad data of its kernel; an
invocation whose engines have joined gives up its tokens and queues and goes on with the next slice, or leaves the
node; the first node that may retire adds its delta to its counter. In a staged node its records change hands, the
balancer chooses the core's next stage and reserves its output record, and with none eligible the core waits; the node
ends on the die, and every core there leaves it, once no slice, record or invocation is left; it does not start beside
another staged node of its kernel. That records are taken in and freed as they are here is log entries 32 and 77, that
stores to the pad come before its data 78, what a bad granule of the pad does to the data and the WID 79, the order of
the posts 84, and that the queue in turn waits alone 85. -/
def Obligations.InvocationsStartAndEnd : Prop :=
  ∀ (q : Nat) (n : Node) (ns : List Node) (ki : Nat) (k : Kernel) (st : StageInfo) (p : Progress) (post : Post)
    (posts : List Post) (x : Xlat) (as : List Nat) (sx : Staged) (s : State),
    let c := s.core
    let w := c.work
    let first := n.rank s.cur * n.slices / n.partCount
    let next := (n.rank s.cur + 1) * n.slices / n.partCount
    let covers (d : Nat × List Byte) (a : Nat) : Prop := d.1 ≤ a ∧ a < d.1 + d.2.length
    let stages := k.stages.length
    let more : Bool := decide (p.next < p.last)
    -- the records of the node once the invocation has ended
    let ring (y : Nat) : List RecSt := ((sx.rings.getD y []).zipIdx).map fun z =>
      if y = p.stage ∧ p.inRec = some z.2 then .free else if y = p.stage + 1 ∧ p.outRec = some z.2 then .valid else z.1
    let now : Staged := { sx with rings := (List.range stages).map ring }
    let ending : Prop := w.run = .ending ∧ w.stopped = false ∧ w.cur = some p ∧ w.preempt = none ∧ c.nextTrap = none ∧
      c.joined 62 = true ∧ s.kernels[p.kernel]? = some k
    let waiting : Prop := w.run = .idle ∧ w.stopped = false ∧ w.cur = some p ∧ s.kernels[p.kernel]? = some k ∧
      k.stages[p.stage]? = some st ∧ k.dataU = [] ∧ 2 ≤ stages
    let mine : Prop := 2 ≤ stages ∧ s.staged = [sx] ∧ sx.names s.die p.node ∧ sx.ended = false ∧
      sx.rings.length = stages ∧ sx.passed.length = stages
    let starts : Prop := w.run = .idle ∧ w.stopped = false ∧ w.preempt = none ∧ w.cur = none ∧ s.nextQueue = some q ∧
      (c.cmdq q).nodes = n :: ns ∧ (n.img[0]).toNat % 16 = 1 ∧ (c.cmdq q).head.readyAt.toNat ≤ s.time.toNat ∧
      s.kernelOf n = some ki ∧ s.kernels[ki]? = some k ∧ first ≠ next
    let slot (y : Nat) (i : Option Nat) : Word := match i, k.stages[y]? with
      | some i, some g => BitVec.ofNat 64 (g.ring + 64 + i * g.rsize)
      | _, _ => 0
    (starts → k.stages = [st] →
      ∃ t, exec .invocationStart s = .next t ∧
        t.core.regs.n = vgen 16 (fun i => if i = 0 then n.img[13] else if i = 1 then n.img[14] else 0) ∧
        t.core.regs.q = Vector.replicate 16 0 ∧ t.core.regs.k = Vector.replicate 4 false ∧
        t.core.regs.sup = k.super ∧ t.core.regs.wid = n.wid k.widths first ∧
        t.core.fetch.line = k.base + st.entry ∧ t.core.fetch.lane = 1 ∧ t.core.fetch.first = true ∧
        t.core.fetch.opened = false ∧ t.core.fetch.loops = [] ∧ t.core.eng.active = 0 ∧
        (∀ e f : Eng, t.core.eng.tok e f = 0 ∧ (t.core.queue e).entries = []) ∧
        t.core.eng.params = Vector.replicate 6 (Vector.replicate 16 0) ∧
        t.core.eng.pace = k.pace ∧ t.core.eng.paceWritten = k.pace ∧
        (∀ j, j < 64 → (t.core.me.slot j).st = .free ∧ (t.core.me.slot j).bind = none ∧
          t.core.me.tag j = AccTag.reset) ∧
        t.core.me.shadow = Vector.replicate 6 NestLevel.initial ∧ t.core.me.mon = monDefaults ∧
        t.core.me.spec = none ∧ t.core.work.run = .running ∧
        SettledBut s t (.u s.cur) (k.dataU.map fun d => (List.range d.2.length).map (d.1 + ·)).flatten ∧
        ((s.padAt (.u s.cur)).bad = [] → ∀ d ∈ k.dataU, ∀ i b, d.2[i]? = some b →
          (∀ z ∈ k.dataU, covers z (d.1 + i) → z = d) → t.byteAt (.u s.cur) (d.1 + i) = b)) ∧
    (ending → p.outRec = none → k.stages = [st] →
      ∃ t, exec .invocationEnd s = .next t ∧ t.core.work.run = .idle ∧ t.core.eng.active = 0 ∧
        t.core.fetch.loops = [] ∧ (∀ e f : Eng, t.core.eng.tok e f = 0 ∧ (t.core.queue e).entries = []) ∧
        (p.next < p.last → t.core.work.cur = some { p with
          running := false, chosen := false, carry := vgen 3 (fun i => vget c.regs.n (12 + i) 0) }) ∧
        (p.last ≤ p.next → t.core.work.cur = none ∧ (t.core.cmdq p.q.val).nodes = (c.cmdq p.q.val).nodes.tail ∧
          ∃ d, t.core.work.posts = w.posts ++ [d] ∧ d.node = p.node ∧ d.writes = true ∧ d.failed = false)) ∧
    -- a staged node
    (starts → 2 ≤ stages → k.dataU = [] → s.staged = [] → (k.stages[1]?.map StageInfo.depth).getD 0 ≠ 0 →
      ∃ t z i, exec .invocationStart s = .next t ∧ t.core.work.run = .running ∧ t.core.regs.wid = n.wid k.widths first ∧
        t.core.regs.n[2] = 0 ∧ t.core.regs.n[3] = slot 1 (some i) ∧ t.core.regs.n[4] = 0 ∧ t.staged = [z] ∧
        z.names s.die n ∧ z.ended = false ∧ z.left = [] ∧ z.img = n.img ∧
        i < (k.stages[1]?.map StageInfo.depth).getD 0 ∧
        ∀ y g j, y ≠ 0 → k.stages[y]? = some g → j < g.depth → (z.rings.getD y []).length = g.depth ∧
          (z.rings.getD y [])[j]? = some (if y = 1 ∧ j = i then .reserved else .free)) ∧
    (w.run = .idle → w.cur = none → (c.cmdq q).nodes = n :: ns → q < 4 → (∀ j, j < 4 → j ≠ q → (c.cmdq j).head.ready = false) →
      (n.img[0]).toNat % 16 = 1 → s.kernelOf n = some ki → s.kernels[ki]? = some k → 2 ≤ stages → sx ∈ s.staged →
      sx.die = s.die → sx.kernel = ki → sx.rings ≠ [] → sx.ended = false → ¬ sx.names s.die n →
      exec .invocationStart s = .next s) ∧
    (waiting → p.chosen = true →
      ∃ t, exec .invocationStart s = .next t ∧ t.core.work.run = .running ∧ t.core.fetch.line = k.base + st.entry ∧
        t.core.fetch.lane = 1 ∧
        t.core.regs.n = vgen 16 (fun i => if i = 0 then p.node.img[13] else if i = 1 then p.node.img[14]
          else if i = 2 then slot p.stage p.inRec else if i = 3 then slot (p.stage + 1) p.outRec
          else if i = 4 then BitVec.ofNat 64 p.stage else if 12 ≤ i then vget p.carry (i - 12) 0 else 0) ∧
        (p.stage = 0 → t.core.regs.wid = p.node.wid k.widths p.next) ∧
        (p.stage ≠ 0 → t.core.regs.wid = BitVec.ofNat 64 (leNat ((List.range 8).map fun b =>
          readByte (s.padAt (.d s.die)).mem ((slot p.stage p.inRec).toNat + b)))) ∧
        t.core.work.cur = some { p with next := if p.stage = 0 then p.next + 1 else p.next, running := true }) ∧
    (waiting → p.chosen = false → mine →
      (∀ y, StageChoice sx stages more y →
        ∃ t, exec .invocationStart s = .next t ∧ t.core.work.run = .running ∧ t.core.regs.n[4] = BitVec.ofNat 64 y) ∧
      ((∀ y, ¬ StageOpen sx stages more y) → exec .invocationStart s = .next s)) ∧
    (ending → p.outRec = none ∨ c.liveCopies = [] → mine →
      ∃ t, exec .invocationEnd s = .next t ∧ t.core.work.run = .idle ∧
        (∀ y, StageChoice now stages more y →
          ∃ p' z, t.core.work.cur = some p' ∧ p'.node = p.node ∧ p'.next = p.next ∧ p'.last = p.last ∧
            p'.chosen = true ∧ p'.running = false ∧ p'.stage = y ∧ t.staged = [z] ∧ z.ended = false ∧
            z.passed.getD y 0 = 0 ∧
            (∀ d, d < stages → d ≠ y → (StageOpen now stages more d → z.passed.getD d 0 = sx.passed.getD d 0 + 1) ∧
              (¬ StageOpen now stages more d → z.passed.getD d 0 = sx.passed.getD d 0)) ∧
            (y = 0 → p'.inRec = none) ∧
            (y ≠ 0 → ∃ i, p'.inRec = some i ∧ (ring y)[i]? = some .valid ∧ (z.rings.getD y [])[i]? = some .inUse) ∧
            (y + 1 = stages → p'.outRec = none) ∧
            (y + 1 < stages → ∃ i, p'.outRec = some i ∧ (ring (y + 1))[i]? = some .free ∧
              (z.rings.getD (y + 1) [])[i]? = some .reserved) ∧
            ∀ d i, d < stages → ¬ (d = y ∧ p'.inRec = some i) → ¬ (d = y + 1 ∧ p'.outRec = some i) →
              (z.rings.getD d [])[i]? = (ring d)[i]?) ∧
        ((∀ y, ¬ StageOpen now stages more y) → sx.takes s.cur → s.cur.val ∉ sx.left →
          (more = true ∨ ∃ y, y < stages ∧ ∃ r ∈ ring y, r ≠ .free) →
          ∃ p', t.core.work.cur = some p' ∧ p'.node = p.node ∧ p'.next = p.next ∧ p'.chosen = false ∧
            p'.running = false) ∧
        ((∀ y, ∀ r ∈ ring y, r = .free) → more = false → sx.takes s.cur →
          (∀ j : Fin 128, sx.takes j → j ≠ s.cur → (j.val ∈ sx.left ∧ s.cores[j].work.cur = none) ∨
            ∃ p', s.cores[j].work.cur = some p' ∧ sx.names (j.val / 64) p'.node ∧ p'.running = false ∧ p'.last ≤ p'.next) →
          (t.core.cmdq p.q.val).nodes = (c.cmdq p.q.val).nodes.tail ∧
          (∃ d, t.core.work.posts = w.posts ++ [d] ∧ d.node = p.node ∧ d.writes = true ∧ d.failed = false) ∧
          ∀ j : Fin 128, sx.takes j → t.cores[j].work.cur = none)) ∧
    (w.posts = post :: posts → s.postReady post = true → post.node.post = false →
      ∃ t, exec .nodePost s = .next t ∧ SameMemory s t ∧ SameRegs s t ∧ t.core.work = { w with posts := posts }) ∧
    (w.posts = post :: posts → s.postReady post = true → post.node.post = true →
      s.translate post.node.ctx .counter post.node.doneAdr [(post.node.doneAdr.toNat % 2 ^ 48, 8)] = .ok x →
      x.places (post.node.doneAdr.toNat % 2 ^ 48) 8 = some as → as.Nodup → s.firstBad .g as = none →
      leNat (as.map (s.byteAt .g)) + post.node.doneDelta.toNat < 2 ^ 64 →
      ∃ t, exec .nodePost s = .next t ∧ SameRegs s t ∧ t.core.work = { w with posts := posts } ∧
        as.map (t.byteAt .g) = leBytes 8 (leNat (as.map (s.byteAt .g)) + post.node.doneDelta.toNat) ∧
        ∀ l i, ¬ (l = .g ∧ i ∈ as) → t.byteAt l i = s.byteAt l i)

/-- Power events (R232, R233, R237, R241, R242, R244, R246, R248-R250, R254, R255): an armed detector alarms once,
starts both spans and stops ballast for the second, and the spans end, and it arms again; a lane group goes to
sleep; the governor sets a level below 4 for every core, with no ballast while a halving span runs; a window of
2,500,000 ticks closes on its cap, and energy over it counts only where ballast ran; at SPLIM every lease is revoked
and traps its cores, but not before the requests of the instant; a lease expires at its own time; a granted switch
sets divisor 3, of a core in an exposed deterministic line at its next FIRST, and one that has not come in 12,500 ticks
is made then; a core whose armed cycle has come stops, with what is in flight dumped. What the governor decides is
free (log entry 21); the fraction melted is an argument (log entry 22). A reading is taken once a period (R242), and
a lease trap is owed from the lease's end for 2,500 ticks at most (R248, log entry 80). What a dump holds is log
entry 27. -/
def Obligations.PowerAndDebugEvents : Prop :=
  ∀ (g : Fin 4) (frac : BitVec 16) (l : Lease) (line cyc : Word) (n occ : Nat) (s : State),
    let k := s.cluster
    let droop (t : State) (j : Nat) : Droop := vget t.power.droop j Droop.reset
    let d := droop s k
    let onlyDroop (t : State) : Prop := t.cores = s.cores ∧ SameMemory s t ∧ ∀ j, j ≠ k → droop t j = droop s j
    let bit (c : Fin 128) (m : BitVec 32) : Bool := m.getLsbD (c.val / 4)
    -- the core executes a line of an exposed deterministic region
    let inLine (c : Fin 128) : Prop := (s.cores[c]).deterministic = true ∧
      ((s.cores[c]).work.run = .running ∨ (s.cores[c]).work.run = .ending)
    let due := s.servedAfter (-1) = false ∧ s.power.readings < s.time.toNat / 25000 ∧ s.power.expiredAt ≠ some s.time
    (d.armed = true → ∃ t, exec .droopAlarm s = .next t ∧ onlyDroop t ∧
      droop t k = { d with armed := false, cnt := satAdd32 d.cnt 1, stretching := d.str != 0
                           halving := d.half != 0 } ∧
      (∀ j : Fin 32, t.power.ballast.getLsbD j.val =
        (s.power.ballast.getLsbD j.val && !(decide (j.val = k) && d.half != 0)))) ∧
    (d.stretching = true → ∃ t, exec .droopStretchEnd s = .next t ∧ onlyDroop t ∧
      droop t k = { d with stretching := false }) ∧
    (d.halving = true → ∃ t, exec .droopHalvingEnd s = .next t ∧ onlyDroop t ∧
      droop t k = { d with halving := false }) ∧
    (d.armed = false → ∃ t, exec .droopRearm s = .next t ∧ onlyDroop t ∧ droop t k = { d with armed := true }) ∧
    (s.core.vec.gated[g] = false → ∃ t, exec (.laneGroupGate g) s = .next t ∧ SameMemory s t ∧ OnlyCore s t ∧
      t.core = { s.core with vec := { s.core.vec with gated := s.core.vec.gated.set g true } }) ∧
    (∃ t, exec .governorInterval s = .next t ∧ t.cores = s.cores ∧ SameMemory s t ∧
      (∀ c : Fin 128, t.power.restraint[c] < 4) ∧
      (∀ j : Fin 32, (s.power.droop[j]).halving = true → t.power.ballast.getLsbD j.val = false) ∧
      t.power.ballastRan = (s.power.ballastRan || t.power.ballast != 0) ∧
      { t.power with restraint := s.power.restraint, ballast := s.power.ballast,
                     ballastRan := s.power.ballastRan } = s.power) ∧
    (s.time.toNat / 2500000 ≤ s.power.windows → exec .powerCapWindow s = .next s) ∧
    (s.power.windows < s.time.toNat / 2500000 → ∃ t, exec .powerCapWindow s = .next t ∧
      t.power.pcap = s.power.pcapNext ∧ t.power.windows = s.time.toNat / 2500000 ∧ t.cores = s.cores ∧
      SameMemory s t ∧ (s.power.ballastRan = false → t.power.capover = s.power.capover ∧ t.log = s.log)) ∧
    s.power.cap = s.power.pcap + 50 * popcount 32 s.power.sprinting.toNat ∧
    (s.servedAfter (-1) = true ∨ s.time.toNat / 25000 ≤ s.power.readings ∨ s.power.expiredAt = some s.time →
      exec (.meltUpdate frac) s = .next s) ∧
    (due → (∀ l ∈ s.power.leases, l.due s.time = false) →
      frac.toNat < s.power.splim.toNat → ∃ t, exec (.meltUpdate frac) s = .next t ∧ t.power.frac = frac ∧
      t.power.readings = s.time.toNat / 25000 ∧
      t.power.leases = s.power.leases ∧ t.cores = s.cores ∧ SameMemory s t) ∧
    (due → s.power.leases = [l] → s.power.splim.toNat ≤ frac.toNat →
      ∃ t, exec (.meltUpdate frac) s = .next t ∧ t.power.leases = [] ∧ SameMemory s t ∧
        ∀ c : Fin 128, (s.cores[c]).takesLeaseTrap = true → bit c l.clusters = true →
          ∃ r ∈ (t.cores[c]).leaseTraps, r.trap.code = 0x11 ∧ r.by_ = s.time + 2500) ∧
    (s.power.leases = [l] → l.expiry.toNat ≤ s.time.toNat →
      ∃ t, exec (.leaseExpiry l.id) s = .next t ∧ t.power.leases = [] ∧ SameMemory s t ∧
        (∀ c : Fin 128, (s.cores[c]).takesLeaseTrap = true → bit c l.clusters = true →
          ∃ r ∈ (t.cores[c]).leaseTraps, r.trap.code = 0x10 ∧ r.by_ = l.expiry + 2500) ∧
        (s.power.refreeze = none → t.power.refreeze = some l.expiry)) ∧
    (∀ r, s.core.leaseTraps = [r] → r.by_.toNat ≤ s.time.toNat → s.core.takesLeaseTrap = true →
      (s.landTraps 1).core.leaseTraps = [] ∧
      (s.landTraps 1).core.trap.pending = s.core.trap.pending ++ [r.trap]) ∧
    (s.power.leases = [l] → s.time.toNat < l.expiry.toNat → exec (.leaseExpiry l.id) s = .next s) ∧
    (s.power.switching.getLsbD k = true → ∃ t, exec .sprintSwitch s = .next t ∧ SameMemory s t ∧
      t.power.switching.getLsbD k = false ∧ t.power.high.getLsbD k = true ∧
      ∀ c : Fin 128, (c.val / 4 ≠ k → t.cores[c] = s.cores[c]) ∧
        (c.val / 4 = k → ¬ inLine c → (t.cores[c]).eng.div = Vector.replicate 6 .d3 ∧ (t.cores[c]).eng.divNext = none) ∧
        (c.val / 4 = k → inLine c → (t.cores[c]).eng.divNext = some .d3 ∧
          (t.cores[c]).eng.div = (s.cores[c]).eng.div)) ∧
    ((∀ j : Fin 32, s.switchDue.power.switching.getLsbD j.val =
        (s.power.switching.getLsbD j.val && decide (s.time.toNat < (s.power.switchBy[j]).toNat))) ∧
      ∀ (j : Fin 32) (c : Fin 128), s.power.switching.getLsbD j.val = true →
        (s.power.switchBy[j]).toNat ≤ s.time.toNat → c.val / 4 = j.val →
        (¬ inLine c → (s.switchDue.cores[c]).eng.div = Vector.replicate 6 .d3) ∧
        (inLine c → (s.switchDue.cores[c]).eng.divNext = some .d3)) ∧
    (s.core.work.dbg = some (.cycle line n occ) → s.core.work.dbgFrom = some cyc → s.core.work.run = .running →
      s.core.work.stopped = false → s.core.trap.inh = false → n ≤ (s.core.regs.cyc - cyc).toNat →
      ∃ t, exec .debugStop s = .next t ∧ t.core.work.stopped = true ∧ t.core.halted = true ∧
        t.core.work.dbg = none ∧ t.core.regs = s.core.regs ∧ SameMemory s t ∧
        ∀ f ∈ s.core.cpy.fills, ∃ x ∈ t.core.work.dump, x.target = .slot f.2.slot ∧ x.value = f.2.bytes) ∧
    (s.core.work.dbg = some (.cycle line n occ) → s.core.work.dbgFrom = some cyc →
      (s.core.regs.cyc - cyc).toNat < n → exec .debugStop s = .next s)

/-- Lines, stores, migration and deterministic adds (R52-R56, R127, R128, R141, R143, R149, R252, R253): a fetch opens
a line whose header passes its checks, after a drain when its mode changes; a pending store with none of its order
before it is performed, the elements of one access in any order; a page that nothing holds moves to a free frame with
its contents, and its entry names the new frame; a closed run applies its adds in order, some in a turn or all. The
frame that a page moves to is an argument (log entry 45). Of the VE, and of deterministic lines, the stores to one
place go in order too (R149, R253). An add over a granule that has become bad is dropped and logged (log entry 79). -/
def Obligations.LinesStoresAndPages : Prop :=
  ∀ (i n page frame entry : Nat) (ctx : Fin 64) (lpddr : Bool) (p : Pending) (r : AfaddRun) (x : AfaddItem) (s : State),
    let f := s.core.fetch
    let h := s.laneWord f.line 0
    let fresh := s.core.work.run = .running ∧ s.core.work.stopped = false ∧ f.draining = false ∧ f.opened = false ∧
      f.resume = false
    let mode : BitVec 2 := BitVec.ofNat 2 h
    let before (q : Pending) : Prop := (q.ve = p.ve ∧ q.cls = p.cls ∧ q.space = p.space) ∨
      ((q.ve = true ∧ p.ve = true ∨ q.det = true ∧ p.det = true) ∧ q.loc = p.loc ∧ ∃ a x y, (a, x) ∈ q.cells ∧ (a, y) ∈ p.cells)
    let sound := headerFault h (f.first || mode != f.lmode) = none
    (fresh → sound → (f.first = true ∨ mode = f.lmode) →
      ∃ t, exec .fetchLine s = .next t ∧ OnlyCore s t ∧ SameRegs s t ∧ t.core.fetch.opened = true ∧
        t.core.fetch.line = f.line ∧ t.core.fetch.lane = f.lane ∧ t.core.fetch.lmode = mode ∧
        (h / 4 % 2 = 1 → t.core.eng.pace = s.core.eng.paceWritten)) ∧
    (fresh → sound → f.first = false → mode ≠ f.lmode → (s.core.trap.inh && s.core.trap.frz) = false →
      ∃ t, exec .fetchLine s = .next t ∧ OnlyCore s t ∧
        t.core = { s.core with fetch := { f with draining := true } }) ∧
    (∀ lane reason, fresh → headerFault h (f.first || mode != f.lmode) = some (lane, reason) → CanTrap s →
      ∃ t, exec .fetchLine s = .next t ∧ OnlyCore s t ∧
        Trapped s t 0x01 (BitVec.ofNat 64 (reason * 256) ||| BitVec.ofNat 64 lane) .cc f.line 0) ∧
    (s.core.work.run = .running → s.core.work.stopped = false → f.draining = true → s.core.drained = true →
      ∃ t, exec .lineDrain s = .next t ∧ t.core.fetch.opened = true ∧ t.core.fetch.draining = false ∧
        t.core.fetch.lmode = mode ∧ t.core.pend = s.core.pend.filter (fun p => !p.ve) ∧ SettledBut s t .g []) ∧
    (s.core.pend[i]? = some p →
      (∀ j q, j < i → s.core.pend[j]? = some q →
        ¬ (before q ∧ q.acc ≠ p.acc)) →
      ∃ t, exec (.accessPerformed i) s = .next t ∧ SameRegs s t ∧ t.core.pend = s.core.pend.eraseIdx i ∧
        (∀ l a, (∀ b, (a, b) ∉ p.cells ∨ l ≠ p.loc) → t.byteAt l a = s.byteAt l a) ∧
        (p.loc.valid = true → (p.cells.map Prod.fst).Nodup → ∀ c ∈ p.cells, t.byteAt p.loc c.1 = c.2)) ∧
    (∀ j q, s.core.pend[i]? = some p → j < i → s.core.pend[j]? = some q →
      (before q ∧ q.acc ≠ p.acc) →
      exec (.accessPerformed i) s = .next s) ∧
    (s.runs[i]? = some r → r.applied = false → r.mask &&& ~~~r.ended = 0 → r.adds = [x] → x.bytes.Nodup →
      x.loc.valid = true → s.firstBad x.loc x.bytes = none →
      ∃ t, exec (.afaddRunApply ⟨i, none⟩) s = .next t ∧ t.cores = s.cores ∧
        t.runs = s.runs.set i { r with adds := [], applied := true } ∧
        (let g := if x.bytes.length = 8 then fF64 else fF32
         x.bytes.map (t.byteAt x.loc) = leBytes x.bytes.length (g.round .rne
          ((g.decode (leNat (x.bytes.map (s.byteAt x.loc)))).add .rne (g.decode x.addend.toNat)))) ∧
        ∀ l a, ¬ (l = x.loc ∧ a ∈ x.bytes) → t.byteAt l a = s.byteAt l a) ∧
    (s.runs[i]? = some r → r.applied = false → r.mask &&& ~~~r.ended = 0 → r.adds = [x] →
      s.firstBad x.loc x.bytes ≠ none →
      ∃ t y, exec (.afaddRunApply ⟨i, none⟩) s = .next t ∧ SameMemory s t ∧ t.log = s.log ++ [y] ∧ y.kind = 3 ∧
        y.addr = x.addr ∧ y.ctx = x.ctx.val ∧ y.core = x.core ∧
        t.runs = s.runs.set i { r with adds := [], applied := true }) ∧
    (s.runs[i]? = some r → r.applied = false → r.mask &&& ~~~r.ended = 0 →
      ∃ t, exec (.afaddRunApply ⟨i, some n⟩) s = .next t ∧ t.cores = s.cores ∧
        t.runs = s.runs.set i
          { r with adds := (sortAdds r.adds).drop n, applied := decide (r.adds.length ≤ n) }) ∧
    (s.runs[i]? = some r → r.applied = true ∨ r.mask &&& ~~~r.ended ≠ 0 →
      exec (.afaddRunApply ⟨i, none⟩) s = .next s) ∧
    (∀ pa old new, s.entryAddr ctx entry 0 = some pa →
      let w2 := s.gWord (pa + 16)
      let at_ := (s.gWord pa).toNat / 8 * 8 + 8 * page
      let d := s.gWord at_
      let d' := BitVec.ofNat 64 (2 ^ 63 + (if lpddr then 2 ^ 62 else 0) + frame)
      let places (y : Word) : Option (List Nat) :=
        ({ ctx, word2 := w2, len := (s.gWord (pa + 8)).toNat % 2 ^ 48, pages := [(page, y)] } : Xlat).places
          (page * 65536) 65536
      wordValid w2 = true → 2 ≤ wordTier w2 → page * 65536 < (s.gWord (pa + 8)).toNat % 2 ^ 48 →
      d.getLsbD 63 = true → d.getLsbD 62 ≠ lpddr → frame < 2 ^ 40 → s.tableBad ctx entry page = false →
      ((wordRights w2).getLsbD 4 = true → ∃ t, exec (.pageMigration ctx entry page frame lpddr) s = .next t ∧
        t.cores = s.cores ∧ SameMemory s t ∧ t.power = { s.power with hotskip := s.power.hotskip + 1 }) ∧
      ((wordRights w2).getLsbD 4 = false →
      (s.holdCount ctx entry ≠ 0 ∨ s.frameFree lpddr (wordSmask w2) frame = false →
        exec (.pageMigration ctx entry page frame lpddr) s = .next s) ∧
      (s.holdCount ctx entry = 0 → s.frameFree lpddr (wordSmask w2) frame = true →
      places d = some old → places d' = some new → new.Nodup →
      (∀ a, at_ ≤ a → a < at_ + 8 → a ∉ new) → s.gmem.bad = [] →
      ∃ t, exec (.pageMigration ctx entry page frame lpddr) s = .next t ∧ t.gWord at_ = d' ∧
        (∀ j : Fin 128, (∀ z ∈ (t.cores[j]).tlb, z ∈ (s.cores[j]).tlb) ∧
          { t.cores[j] with
            tlb := (s.cores[j]).tlb
            work := { (t.cores[j]).work with cpOld := (s.cores[j]).work.cpOld } } = s.cores[j]) ∧
        new.map (t.byteAt .g) = old.map (s.byteAt .g) ∧
        ∀ l a, ¬ (l = .g ∧ (a ∈ new ∨ (at_ ≤ a ∧ a < at_ + 8))) → t.byteAt l a = s.byteAt l a)))
end

