-- ==== Sys2Proof/Laws/State.lean ====
section
/-! SUPPORT. One lemma per field of the state per update of it, so that no proof unfolds a record update; and
what an update of the acting core does to the acting core and to the others. -/
namespace Sys2Proof.Machine

-- Updates of the acting core.

@[simp] theorem State.setCore_upads (s : State) (c : Core) : (s.setCore c).upads = s.upads := rfl
@[simp] theorem State.setCore_kpads (s : State) (c : Core) : (s.setCore c).kpads = s.kpads := rfl
@[simp] theorem State.setCore_dpads (s : State) (c : Core) : (s.setCore c).dpads = s.dpads := rfl
@[simp] theorem State.setCore_gmem (s : State) (c : Core) : (s.setCore c).gmem = s.gmem := rfl
@[simp] theorem State.setCore_code (s : State) (c : Core) : (s.setCore c).code = s.code := rfl
@[simp] theorem State.setCore_codeTop (s : State) (c : Core) : (s.setCore c).codeTop = s.codeTop := rfl
@[simp] theorem State.setCore_ctxs (s : State) (c : Core) : (s.setCore c).ctxs = s.ctxs := rfl
@[simp] theorem State.setCore_holds (s : State) (c : Core) : (s.setCore c).holds = s.holds := rfl
@[simp] theorem State.setCore_nextHold (s : State) (c : Core) : (s.setCore c).nextHold = s.nextHold := rfl
@[simp] theorem State.setCore_kernels (s : State) (c : Core) : (s.setCore c).kernels = s.kernels := rfl
@[simp] theorem State.setCore_staged (s : State) (c : Core) : (s.setCore c).staged = s.staged := rfl
@[simp] theorem State.setCore_barriers (s : State) (c : Core) : (s.setCore c).barriers = s.barriers := rfl
@[simp] theorem State.setCore_runs (s : State) (c : Core) : (s.setCore c).runs = s.runs := rfl
@[simp] theorem State.setCore_host (s : State) (c : Core) : (s.setCore c).host = s.host := rfl
@[simp] theorem State.setCore_power (s : State) (c : Core) : (s.setCore c).power = s.power := rfl
@[simp] theorem State.setCore_links (s : State) (c : Core) : (s.setCore c).links = s.links := rfl
@[simp] theorem State.setCore_log (s : State) (c : Core) : (s.setCore c).log = s.log := rfl
@[simp] theorem State.setCore_watchdog (s : State) (c : Core) : (s.setCore c).watchdog = s.watchdog := rfl
@[simp] theorem State.setCore_time (s : State) (c : Core) : (s.setCore c).time = s.time := rfl
@[simp] theorem State.setCore_turns (s : State) (c : Core) : (s.setCore c).turns = s.turns := rfl
@[simp] theorem State.setCore_cur (s : State) (c : Core) : (s.setCore c).cur = s.cur := rfl
@[simp] theorem State.setCore_steps (s : State) (c : Core) : (s.setCore c).steps = s.steps := rfl
@[simp] theorem State.setCore_fresh (s : State) (c : Core) : (s.setCore c).fresh = s.fresh := rfl
@[simp] theorem State.setCore_pushes (s : State) (c : Core) : (s.setCore c).pushes = s.pushes := rfl
@[simp] theorem State.setCore_dead (s : State) (c : Core) : (s.setCore c).dead = s.dead := rfl

@[simp] theorem State.upd_upads (s : State) (f : Core → Core) : (s.upd f).upads = s.upads := rfl
@[simp] theorem State.upd_kpads (s : State) (f : Core → Core) : (s.upd f).kpads = s.kpads := rfl
@[simp] theorem State.upd_dpads (s : State) (f : Core → Core) : (s.upd f).dpads = s.dpads := rfl
@[simp] theorem State.upd_gmem (s : State) (f : Core → Core) : (s.upd f).gmem = s.gmem := rfl
@[simp] theorem State.upd_code (s : State) (f : Core → Core) : (s.upd f).code = s.code := rfl
@[simp] theorem State.upd_codeTop (s : State) (f : Core → Core) : (s.upd f).codeTop = s.codeTop := rfl
@[simp] theorem State.upd_ctxs (s : State) (f : Core → Core) : (s.upd f).ctxs = s.ctxs := rfl
@[simp] theorem State.upd_holds (s : State) (f : Core → Core) : (s.upd f).holds = s.holds := rfl
@[simp] theorem State.upd_nextHold (s : State) (f : Core → Core) : (s.upd f).nextHold = s.nextHold := rfl
@[simp] theorem State.upd_kernels (s : State) (f : Core → Core) : (s.upd f).kernels = s.kernels := rfl
@[simp] theorem State.upd_staged (s : State) (f : Core → Core) : (s.upd f).staged = s.staged := rfl
@[simp] theorem State.upd_barriers (s : State) (f : Core → Core) : (s.upd f).barriers = s.barriers := rfl
@[simp] theorem State.upd_runs (s : State) (f : Core → Core) : (s.upd f).runs = s.runs := rfl
@[simp] theorem State.upd_host (s : State) (f : Core → Core) : (s.upd f).host = s.host := rfl
@[simp] theorem State.upd_power (s : State) (f : Core → Core) : (s.upd f).power = s.power := rfl
@[simp] theorem State.upd_links (s : State) (f : Core → Core) : (s.upd f).links = s.links := rfl
@[simp] theorem State.upd_log (s : State) (f : Core → Core) : (s.upd f).log = s.log := rfl
@[simp] theorem State.upd_watchdog (s : State) (f : Core → Core) : (s.upd f).watchdog = s.watchdog := rfl
@[simp] theorem State.upd_time (s : State) (f : Core → Core) : (s.upd f).time = s.time := rfl
@[simp] theorem State.upd_turns (s : State) (f : Core → Core) : (s.upd f).turns = s.turns := rfl
@[simp] theorem State.upd_cur (s : State) (f : Core → Core) : (s.upd f).cur = s.cur := rfl
@[simp] theorem State.upd_steps (s : State) (f : Core → Core) : (s.upd f).steps = s.steps := rfl
@[simp] theorem State.upd_fresh (s : State) (f : Core → Core) : (s.upd f).fresh = s.fresh := rfl
@[simp] theorem State.upd_pushes (s : State) (f : Core → Core) : (s.upd f).pushes = s.pushes := rfl
@[simp] theorem State.upd_dead (s : State) (f : Core → Core) : (s.upd f).dead = s.dead := rfl

@[simp] theorem State.updFetch_upads (s : State) (f : Fetch → Fetch) : (s.updFetch f).upads = s.upads := rfl
@[simp] theorem State.updFetch_kpads (s : State) (f : Fetch → Fetch) : (s.updFetch f).kpads = s.kpads := rfl
@[simp] theorem State.updFetch_dpads (s : State) (f : Fetch → Fetch) : (s.updFetch f).dpads = s.dpads := rfl
@[simp] theorem State.updFetch_gmem (s : State) (f : Fetch → Fetch) : (s.updFetch f).gmem = s.gmem := rfl
@[simp] theorem State.updFetch_code (s : State) (f : Fetch → Fetch) : (s.updFetch f).code = s.code := rfl
@[simp] theorem State.updFetch_codeTop (s : State) (f : Fetch → Fetch) : (s.updFetch f).codeTop = s.codeTop := rfl
@[simp] theorem State.updFetch_ctxs (s : State) (f : Fetch → Fetch) : (s.updFetch f).ctxs = s.ctxs := rfl
@[simp] theorem State.updFetch_holds (s : State) (f : Fetch → Fetch) : (s.updFetch f).holds = s.holds := rfl
@[simp] theorem State.updFetch_nextHold (s : State) (f : Fetch → Fetch) : (s.updFetch f).nextHold = s.nextHold := rfl
@[simp] theorem State.updFetch_kernels (s : State) (f : Fetch → Fetch) : (s.updFetch f).kernels = s.kernels := rfl
@[simp] theorem State.updFetch_staged (s : State) (f : Fetch → Fetch) : (s.updFetch f).staged = s.staged := rfl
@[simp] theorem State.updFetch_barriers (s : State) (f : Fetch → Fetch) : (s.updFetch f).barriers = s.barriers := rfl
@[simp] theorem State.updFetch_runs (s : State) (f : Fetch → Fetch) : (s.updFetch f).runs = s.runs := rfl
@[simp] theorem State.updFetch_host (s : State) (f : Fetch → Fetch) : (s.updFetch f).host = s.host := rfl
@[simp] theorem State.updFetch_power (s : State) (f : Fetch → Fetch) : (s.updFetch f).power = s.power := rfl
@[simp] theorem State.updFetch_links (s : State) (f : Fetch → Fetch) : (s.updFetch f).links = s.links := rfl
@[simp] theorem State.updFetch_log (s : State) (f : Fetch → Fetch) : (s.updFetch f).log = s.log := rfl
@[simp] theorem State.updFetch_watchdog (s : State) (f : Fetch → Fetch) : (s.updFetch f).watchdog = s.watchdog := rfl
@[simp] theorem State.updFetch_time (s : State) (f : Fetch → Fetch) : (s.updFetch f).time = s.time := rfl
@[simp] theorem State.updFetch_turns (s : State) (f : Fetch → Fetch) : (s.updFetch f).turns = s.turns := rfl
@[simp] theorem State.updFetch_cur (s : State) (f : Fetch → Fetch) : (s.updFetch f).cur = s.cur := rfl
@[simp] theorem State.updFetch_steps (s : State) (f : Fetch → Fetch) : (s.updFetch f).steps = s.steps := rfl
@[simp] theorem State.updFetch_fresh (s : State) (f : Fetch → Fetch) : (s.updFetch f).fresh = s.fresh := rfl
@[simp] theorem State.updFetch_pushes (s : State) (f : Fetch → Fetch) : (s.updFetch f).pushes = s.pushes := rfl
@[simp] theorem State.updFetch_dead (s : State) (f : Fetch → Fetch) : (s.updFetch f).dead = s.dead := rfl

@[simp] theorem State.updRegs_upads (s : State) (f : Regs → Regs) : (s.updRegs f).upads = s.upads := rfl
@[simp] theorem State.updRegs_kpads (s : State) (f : Regs → Regs) : (s.updRegs f).kpads = s.kpads := rfl
@[simp] theorem State.updRegs_dpads (s : State) (f : Regs → Regs) : (s.updRegs f).dpads = s.dpads := rfl
@[simp] theorem State.updRegs_gmem (s : State) (f : Regs → Regs) : (s.updRegs f).gmem = s.gmem := rfl
@[simp] theorem State.updRegs_code (s : State) (f : Regs → Regs) : (s.updRegs f).code = s.code := rfl
@[simp] theorem State.updRegs_codeTop (s : State) (f : Regs → Regs) : (s.updRegs f).codeTop = s.codeTop := rfl
@[simp] theorem State.updRegs_ctxs (s : State) (f : Regs → Regs) : (s.updRegs f).ctxs = s.ctxs := rfl
@[simp] theorem State.updRegs_holds (s : State) (f : Regs → Regs) : (s.updRegs f).holds = s.holds := rfl
@[simp] theorem State.updRegs_nextHold (s : State) (f : Regs → Regs) : (s.updRegs f).nextHold = s.nextHold := rfl
@[simp] theorem State.updRegs_kernels (s : State) (f : Regs → Regs) : (s.updRegs f).kernels = s.kernels := rfl
@[simp] theorem State.updRegs_staged (s : State) (f : Regs → Regs) : (s.updRegs f).staged = s.staged := rfl
@[simp] theorem State.updRegs_barriers (s : State) (f : Regs → Regs) : (s.updRegs f).barriers = s.barriers := rfl
@[simp] theorem State.updRegs_runs (s : State) (f : Regs → Regs) : (s.updRegs f).runs = s.runs := rfl
@[simp] theorem State.updRegs_host (s : State) (f : Regs → Regs) : (s.updRegs f).host = s.host := rfl
@[simp] theorem State.updRegs_power (s : State) (f : Regs → Regs) : (s.updRegs f).power = s.power := rfl
@[simp] theorem State.updRegs_links (s : State) (f : Regs → Regs) : (s.updRegs f).links = s.links := rfl
@[simp] theorem State.updRegs_log (s : State) (f : Regs → Regs) : (s.updRegs f).log = s.log := rfl
@[simp] theorem State.updRegs_watchdog (s : State) (f : Regs → Regs) : (s.updRegs f).watchdog = s.watchdog := rfl
@[simp] theorem State.updRegs_time (s : State) (f : Regs → Regs) : (s.updRegs f).time = s.time := rfl
@[simp] theorem State.updRegs_turns (s : State) (f : Regs → Regs) : (s.updRegs f).turns = s.turns := rfl
@[simp] theorem State.updRegs_cur (s : State) (f : Regs → Regs) : (s.updRegs f).cur = s.cur := rfl
@[simp] theorem State.updRegs_steps (s : State) (f : Regs → Regs) : (s.updRegs f).steps = s.steps := rfl
@[simp] theorem State.updRegs_fresh (s : State) (f : Regs → Regs) : (s.updRegs f).fresh = s.fresh := rfl
@[simp] theorem State.updRegs_pushes (s : State) (f : Regs → Regs) : (s.updRegs f).pushes = s.pushes := rfl
@[simp] theorem State.updRegs_dead (s : State) (f : Regs → Regs) : (s.updRegs f).dead = s.dead := rfl

@[simp] theorem State.updTrap_upads (s : State) (f : TrapRegs → TrapRegs) : (s.updTrap f).upads = s.upads := rfl
@[simp] theorem State.updTrap_kpads (s : State) (f : TrapRegs → TrapRegs) : (s.updTrap f).kpads = s.kpads := rfl
@[simp] theorem State.updTrap_dpads (s : State) (f : TrapRegs → TrapRegs) : (s.updTrap f).dpads = s.dpads := rfl
@[simp] theorem State.updTrap_gmem (s : State) (f : TrapRegs → TrapRegs) : (s.updTrap f).gmem = s.gmem := rfl
@[simp] theorem State.updTrap_code (s : State) (f : TrapRegs → TrapRegs) : (s.updTrap f).code = s.code := rfl
@[simp] theorem State.updTrap_codeTop (s : State) (f : TrapRegs → TrapRegs) : (s.updTrap f).codeTop = s.codeTop := rfl
@[simp] theorem State.updTrap_ctxs (s : State) (f : TrapRegs → TrapRegs) : (s.updTrap f).ctxs = s.ctxs := rfl
@[simp] theorem State.updTrap_holds (s : State) (f : TrapRegs → TrapRegs) : (s.updTrap f).holds = s.holds := rfl
@[simp] theorem State.updTrap_nextHold (s : State) (f : TrapRegs → TrapRegs) : (s.updTrap f).nextHold = s.nextHold := rfl
@[simp] theorem State.updTrap_kernels (s : State) (f : TrapRegs → TrapRegs) : (s.updTrap f).kernels = s.kernels := rfl
@[simp] theorem State.updTrap_staged (s : State) (f : TrapRegs → TrapRegs) : (s.updTrap f).staged = s.staged := rfl
@[simp] theorem State.updTrap_barriers (s : State) (f : TrapRegs → TrapRegs) : (s.updTrap f).barriers = s.barriers := rfl
@[simp] theorem State.updTrap_runs (s : State) (f : TrapRegs → TrapRegs) : (s.updTrap f).runs = s.runs := rfl
@[simp] theorem State.updTrap_host (s : State) (f : TrapRegs → TrapRegs) : (s.updTrap f).host = s.host := rfl
@[simp] theorem State.updTrap_power (s : State) (f : TrapRegs → TrapRegs) : (s.updTrap f).power = s.power := rfl
@[simp] theorem State.updTrap_links (s : State) (f : TrapRegs → TrapRegs) : (s.updTrap f).links = s.links := rfl
@[simp] theorem State.updTrap_log (s : State) (f : TrapRegs → TrapRegs) : (s.updTrap f).log = s.log := rfl
@[simp] theorem State.updTrap_watchdog (s : State) (f : TrapRegs → TrapRegs) : (s.updTrap f).watchdog = s.watchdog := rfl
@[simp] theorem State.updTrap_time (s : State) (f : TrapRegs → TrapRegs) : (s.updTrap f).time = s.time := rfl
@[simp] theorem State.updTrap_turns (s : State) (f : TrapRegs → TrapRegs) : (s.updTrap f).turns = s.turns := rfl
@[simp] theorem State.updTrap_cur (s : State) (f : TrapRegs → TrapRegs) : (s.updTrap f).cur = s.cur := rfl
@[simp] theorem State.updTrap_steps (s : State) (f : TrapRegs → TrapRegs) : (s.updTrap f).steps = s.steps := rfl
@[simp] theorem State.updTrap_fresh (s : State) (f : TrapRegs → TrapRegs) : (s.updTrap f).fresh = s.fresh := rfl
@[simp] theorem State.updTrap_pushes (s : State) (f : TrapRegs → TrapRegs) : (s.updTrap f).pushes = s.pushes := rfl
@[simp] theorem State.updTrap_dead (s : State) (f : TrapRegs → TrapRegs) : (s.updTrap f).dead = s.dead := rfl

@[simp] theorem State.updEng_upads (s : State) (f : Engines → Engines) : (s.updEng f).upads = s.upads := rfl
@[simp] theorem State.updEng_kpads (s : State) (f : Engines → Engines) : (s.updEng f).kpads = s.kpads := rfl
@[simp] theorem State.updEng_dpads (s : State) (f : Engines → Engines) : (s.updEng f).dpads = s.dpads := rfl
@[simp] theorem State.updEng_gmem (s : State) (f : Engines → Engines) : (s.updEng f).gmem = s.gmem := rfl
@[simp] theorem State.updEng_code (s : State) (f : Engines → Engines) : (s.updEng f).code = s.code := rfl
@[simp] theorem State.updEng_codeTop (s : State) (f : Engines → Engines) : (s.updEng f).codeTop = s.codeTop := rfl
@[simp] theorem State.updEng_ctxs (s : State) (f : Engines → Engines) : (s.updEng f).ctxs = s.ctxs := rfl
@[simp] theorem State.updEng_holds (s : State) (f : Engines → Engines) : (s.updEng f).holds = s.holds := rfl
@[simp] theorem State.updEng_nextHold (s : State) (f : Engines → Engines) : (s.updEng f).nextHold = s.nextHold := rfl
@[simp] theorem State.updEng_kernels (s : State) (f : Engines → Engines) : (s.updEng f).kernels = s.kernels := rfl
@[simp] theorem State.updEng_staged (s : State) (f : Engines → Engines) : (s.updEng f).staged = s.staged := rfl
@[simp] theorem State.updEng_barriers (s : State) (f : Engines → Engines) : (s.updEng f).barriers = s.barriers := rfl
@[simp] theorem State.updEng_runs (s : State) (f : Engines → Engines) : (s.updEng f).runs = s.runs := rfl
@[simp] theorem State.updEng_host (s : State) (f : Engines → Engines) : (s.updEng f).host = s.host := rfl
@[simp] theorem State.updEng_power (s : State) (f : Engines → Engines) : (s.updEng f).power = s.power := rfl
@[simp] theorem State.updEng_links (s : State) (f : Engines → Engines) : (s.updEng f).links = s.links := rfl
@[simp] theorem State.updEng_log (s : State) (f : Engines → Engines) : (s.updEng f).log = s.log := rfl
@[simp] theorem State.updEng_watchdog (s : State) (f : Engines → Engines) : (s.updEng f).watchdog = s.watchdog := rfl
@[simp] theorem State.updEng_time (s : State) (f : Engines → Engines) : (s.updEng f).time = s.time := rfl
@[simp] theorem State.updEng_turns (s : State) (f : Engines → Engines) : (s.updEng f).turns = s.turns := rfl
@[simp] theorem State.updEng_cur (s : State) (f : Engines → Engines) : (s.updEng f).cur = s.cur := rfl
@[simp] theorem State.updEng_steps (s : State) (f : Engines → Engines) : (s.updEng f).steps = s.steps := rfl
@[simp] theorem State.updEng_fresh (s : State) (f : Engines → Engines) : (s.updEng f).fresh = s.fresh := rfl
@[simp] theorem State.updEng_pushes (s : State) (f : Engines → Engines) : (s.updEng f).pushes = s.pushes := rfl
@[simp] theorem State.updEng_dead (s : State) (f : Engines → Engines) : (s.updEng f).dead = s.dead := rfl

@[simp] theorem State.updMe_upads (s : State) (f : Matrix → Matrix) : (s.updMe f).upads = s.upads := rfl
@[simp] theorem State.updMe_kpads (s : State) (f : Matrix → Matrix) : (s.updMe f).kpads = s.kpads := rfl
@[simp] theorem State.updMe_dpads (s : State) (f : Matrix → Matrix) : (s.updMe f).dpads = s.dpads := rfl
@[simp] theorem State.updMe_gmem (s : State) (f : Matrix → Matrix) : (s.updMe f).gmem = s.gmem := rfl
@[simp] theorem State.updMe_code (s : State) (f : Matrix → Matrix) : (s.updMe f).code = s.code := rfl
@[simp] theorem State.updMe_codeTop (s : State) (f : Matrix → Matrix) : (s.updMe f).codeTop = s.codeTop := rfl
@[simp] theorem State.updMe_ctxs (s : State) (f : Matrix → Matrix) : (s.updMe f).ctxs = s.ctxs := rfl
@[simp] theorem State.updMe_holds (s : State) (f : Matrix → Matrix) : (s.updMe f).holds = s.holds := rfl
@[simp] theorem State.updMe_nextHold (s : State) (f : Matrix → Matrix) : (s.updMe f).nextHold = s.nextHold := rfl
@[simp] theorem State.updMe_kernels (s : State) (f : Matrix → Matrix) : (s.updMe f).kernels = s.kernels := rfl
@[simp] theorem State.updMe_staged (s : State) (f : Matrix → Matrix) : (s.updMe f).staged = s.staged := rfl
@[simp] theorem State.updMe_barriers (s : State) (f : Matrix → Matrix) : (s.updMe f).barriers = s.barriers := rfl
@[simp] theorem State.updMe_runs (s : State) (f : Matrix → Matrix) : (s.updMe f).runs = s.runs := rfl
@[simp] theorem State.updMe_host (s : State) (f : Matrix → Matrix) : (s.updMe f).host = s.host := rfl
@[simp] theorem State.updMe_power (s : State) (f : Matrix → Matrix) : (s.updMe f).power = s.power := rfl
@[simp] theorem State.updMe_links (s : State) (f : Matrix → Matrix) : (s.updMe f).links = s.links := rfl
@[simp] theorem State.updMe_log (s : State) (f : Matrix → Matrix) : (s.updMe f).log = s.log := rfl
@[simp] theorem State.updMe_watchdog (s : State) (f : Matrix → Matrix) : (s.updMe f).watchdog = s.watchdog := rfl
@[simp] theorem State.updMe_time (s : State) (f : Matrix → Matrix) : (s.updMe f).time = s.time := rfl
@[simp] theorem State.updMe_turns (s : State) (f : Matrix → Matrix) : (s.updMe f).turns = s.turns := rfl
@[simp] theorem State.updMe_cur (s : State) (f : Matrix → Matrix) : (s.updMe f).cur = s.cur := rfl
@[simp] theorem State.updMe_steps (s : State) (f : Matrix → Matrix) : (s.updMe f).steps = s.steps := rfl
@[simp] theorem State.updMe_fresh (s : State) (f : Matrix → Matrix) : (s.updMe f).fresh = s.fresh := rfl
@[simp] theorem State.updMe_pushes (s : State) (f : Matrix → Matrix) : (s.updMe f).pushes = s.pushes := rfl
@[simp] theorem State.updMe_dead (s : State) (f : Matrix → Matrix) : (s.updMe f).dead = s.dead := rfl

@[simp] theorem State.updVec_upads (s : State) (f : Vec → Vec) : (s.updVec f).upads = s.upads := rfl
@[simp] theorem State.updVec_kpads (s : State) (f : Vec → Vec) : (s.updVec f).kpads = s.kpads := rfl
@[simp] theorem State.updVec_dpads (s : State) (f : Vec → Vec) : (s.updVec f).dpads = s.dpads := rfl
@[simp] theorem State.updVec_gmem (s : State) (f : Vec → Vec) : (s.updVec f).gmem = s.gmem := rfl
@[simp] theorem State.updVec_code (s : State) (f : Vec → Vec) : (s.updVec f).code = s.code := rfl
@[simp] theorem State.updVec_codeTop (s : State) (f : Vec → Vec) : (s.updVec f).codeTop = s.codeTop := rfl
@[simp] theorem State.updVec_ctxs (s : State) (f : Vec → Vec) : (s.updVec f).ctxs = s.ctxs := rfl
@[simp] theorem State.updVec_holds (s : State) (f : Vec → Vec) : (s.updVec f).holds = s.holds := rfl
@[simp] theorem State.updVec_nextHold (s : State) (f : Vec → Vec) : (s.updVec f).nextHold = s.nextHold := rfl
@[simp] theorem State.updVec_kernels (s : State) (f : Vec → Vec) : (s.updVec f).kernels = s.kernels := rfl
@[simp] theorem State.updVec_staged (s : State) (f : Vec → Vec) : (s.updVec f).staged = s.staged := rfl
@[simp] theorem State.updVec_barriers (s : State) (f : Vec → Vec) : (s.updVec f).barriers = s.barriers := rfl
@[simp] theorem State.updVec_runs (s : State) (f : Vec → Vec) : (s.updVec f).runs = s.runs := rfl
@[simp] theorem State.updVec_host (s : State) (f : Vec → Vec) : (s.updVec f).host = s.host := rfl
@[simp] theorem State.updVec_power (s : State) (f : Vec → Vec) : (s.updVec f).power = s.power := rfl
@[simp] theorem State.updVec_links (s : State) (f : Vec → Vec) : (s.updVec f).links = s.links := rfl
@[simp] theorem State.updVec_log (s : State) (f : Vec → Vec) : (s.updVec f).log = s.log := rfl
@[simp] theorem State.updVec_watchdog (s : State) (f : Vec → Vec) : (s.updVec f).watchdog = s.watchdog := rfl
@[simp] theorem State.updVec_time (s : State) (f : Vec → Vec) : (s.updVec f).time = s.time := rfl
@[simp] theorem State.updVec_turns (s : State) (f : Vec → Vec) : (s.updVec f).turns = s.turns := rfl
@[simp] theorem State.updVec_cur (s : State) (f : Vec → Vec) : (s.updVec f).cur = s.cur := rfl
@[simp] theorem State.updVec_steps (s : State) (f : Vec → Vec) : (s.updVec f).steps = s.steps := rfl
@[simp] theorem State.updVec_fresh (s : State) (f : Vec → Vec) : (s.updVec f).fresh = s.fresh := rfl
@[simp] theorem State.updVec_pushes (s : State) (f : Vec → Vec) : (s.updVec f).pushes = s.pushes := rfl
@[simp] theorem State.updVec_dead (s : State) (f : Vec → Vec) : (s.updVec f).dead = s.dead := rfl

@[simp] theorem State.updCpy_upads (s : State) (f : Copies → Copies) : (s.updCpy f).upads = s.upads := rfl
@[simp] theorem State.updCpy_kpads (s : State) (f : Copies → Copies) : (s.updCpy f).kpads = s.kpads := rfl
@[simp] theorem State.updCpy_dpads (s : State) (f : Copies → Copies) : (s.updCpy f).dpads = s.dpads := rfl
@[simp] theorem State.updCpy_gmem (s : State) (f : Copies → Copies) : (s.updCpy f).gmem = s.gmem := rfl
@[simp] theorem State.updCpy_code (s : State) (f : Copies → Copies) : (s.updCpy f).code = s.code := rfl
@[simp] theorem State.updCpy_codeTop (s : State) (f : Copies → Copies) : (s.updCpy f).codeTop = s.codeTop := rfl
@[simp] theorem State.updCpy_ctxs (s : State) (f : Copies → Copies) : (s.updCpy f).ctxs = s.ctxs := rfl
@[simp] theorem State.updCpy_holds (s : State) (f : Copies → Copies) : (s.updCpy f).holds = s.holds := rfl
@[simp] theorem State.updCpy_nextHold (s : State) (f : Copies → Copies) : (s.updCpy f).nextHold = s.nextHold := rfl
@[simp] theorem State.updCpy_kernels (s : State) (f : Copies → Copies) : (s.updCpy f).kernels = s.kernels := rfl
@[simp] theorem State.updCpy_staged (s : State) (f : Copies → Copies) : (s.updCpy f).staged = s.staged := rfl
@[simp] theorem State.updCpy_barriers (s : State) (f : Copies → Copies) : (s.updCpy f).barriers = s.barriers := rfl
@[simp] theorem State.updCpy_runs (s : State) (f : Copies → Copies) : (s.updCpy f).runs = s.runs := rfl
@[simp] theorem State.updCpy_host (s : State) (f : Copies → Copies) : (s.updCpy f).host = s.host := rfl
@[simp] theorem State.updCpy_power (s : State) (f : Copies → Copies) : (s.updCpy f).power = s.power := rfl
@[simp] theorem State.updCpy_links (s : State) (f : Copies → Copies) : (s.updCpy f).links = s.links := rfl
@[simp] theorem State.updCpy_log (s : State) (f : Copies → Copies) : (s.updCpy f).log = s.log := rfl
@[simp] theorem State.updCpy_watchdog (s : State) (f : Copies → Copies) : (s.updCpy f).watchdog = s.watchdog := rfl
@[simp] theorem State.updCpy_time (s : State) (f : Copies → Copies) : (s.updCpy f).time = s.time := rfl
@[simp] theorem State.updCpy_turns (s : State) (f : Copies → Copies) : (s.updCpy f).turns = s.turns := rfl
@[simp] theorem State.updCpy_cur (s : State) (f : Copies → Copies) : (s.updCpy f).cur = s.cur := rfl
@[simp] theorem State.updCpy_steps (s : State) (f : Copies → Copies) : (s.updCpy f).steps = s.steps := rfl
@[simp] theorem State.updCpy_fresh (s : State) (f : Copies → Copies) : (s.updCpy f).fresh = s.fresh := rfl
@[simp] theorem State.updCpy_pushes (s : State) (f : Copies → Copies) : (s.updCpy f).pushes = s.pushes := rfl
@[simp] theorem State.updCpy_dead (s : State) (f : Copies → Copies) : (s.updCpy f).dead = s.dead := rfl

@[simp] theorem State.updWork_upads (s : State) (f : Work → Work) : (s.updWork f).upads = s.upads := rfl
@[simp] theorem State.updWork_kpads (s : State) (f : Work → Work) : (s.updWork f).kpads = s.kpads := rfl
@[simp] theorem State.updWork_dpads (s : State) (f : Work → Work) : (s.updWork f).dpads = s.dpads := rfl
@[simp] theorem State.updWork_gmem (s : State) (f : Work → Work) : (s.updWork f).gmem = s.gmem := rfl
@[simp] theorem State.updWork_code (s : State) (f : Work → Work) : (s.updWork f).code = s.code := rfl
@[simp] theorem State.updWork_codeTop (s : State) (f : Work → Work) : (s.updWork f).codeTop = s.codeTop := rfl
@[simp] theorem State.updWork_ctxs (s : State) (f : Work → Work) : (s.updWork f).ctxs = s.ctxs := rfl
@[simp] theorem State.updWork_holds (s : State) (f : Work → Work) : (s.updWork f).holds = s.holds := rfl
@[simp] theorem State.updWork_nextHold (s : State) (f : Work → Work) : (s.updWork f).nextHold = s.nextHold := rfl
@[simp] theorem State.updWork_kernels (s : State) (f : Work → Work) : (s.updWork f).kernels = s.kernels := rfl
@[simp] theorem State.updWork_staged (s : State) (f : Work → Work) : (s.updWork f).staged = s.staged := rfl
@[simp] theorem State.updWork_barriers (s : State) (f : Work → Work) : (s.updWork f).barriers = s.barriers := rfl
@[simp] theorem State.updWork_runs (s : State) (f : Work → Work) : (s.updWork f).runs = s.runs := rfl
@[simp] theorem State.updWork_host (s : State) (f : Work → Work) : (s.updWork f).host = s.host := rfl
@[simp] theorem State.updWork_power (s : State) (f : Work → Work) : (s.updWork f).power = s.power := rfl
@[simp] theorem State.updWork_links (s : State) (f : Work → Work) : (s.updWork f).links = s.links := rfl
@[simp] theorem State.updWork_log (s : State) (f : Work → Work) : (s.updWork f).log = s.log := rfl
@[simp] theorem State.updWork_watchdog (s : State) (f : Work → Work) : (s.updWork f).watchdog = s.watchdog := rfl
@[simp] theorem State.updWork_time (s : State) (f : Work → Work) : (s.updWork f).time = s.time := rfl
@[simp] theorem State.updWork_turns (s : State) (f : Work → Work) : (s.updWork f).turns = s.turns := rfl
@[simp] theorem State.updWork_cur (s : State) (f : Work → Work) : (s.updWork f).cur = s.cur := rfl
@[simp] theorem State.updWork_steps (s : State) (f : Work → Work) : (s.updWork f).steps = s.steps := rfl
@[simp] theorem State.updWork_fresh (s : State) (f : Work → Work) : (s.updWork f).fresh = s.fresh := rfl
@[simp] theorem State.updWork_pushes (s : State) (f : Work → Work) : (s.updWork f).pushes = s.pushes := rfl
@[simp] theorem State.updWork_dead (s : State) (f : Work → Work) : (s.updWork f).dead = s.dead := rfl

@[simp] theorem State.updAt_upads (s : State) (i : Nat) (f : Core → Core) : (s.updAt i f).upads = s.upads := rfl
@[simp] theorem State.updAt_kpads (s : State) (i : Nat) (f : Core → Core) : (s.updAt i f).kpads = s.kpads := rfl
@[simp] theorem State.updAt_dpads (s : State) (i : Nat) (f : Core → Core) : (s.updAt i f).dpads = s.dpads := rfl
@[simp] theorem State.updAt_gmem (s : State) (i : Nat) (f : Core → Core) : (s.updAt i f).gmem = s.gmem := rfl
@[simp] theorem State.updAt_code (s : State) (i : Nat) (f : Core → Core) : (s.updAt i f).code = s.code := rfl
@[simp] theorem State.updAt_codeTop (s : State) (i : Nat) (f : Core → Core) : (s.updAt i f).codeTop = s.codeTop := rfl
@[simp] theorem State.updAt_ctxs (s : State) (i : Nat) (f : Core → Core) : (s.updAt i f).ctxs = s.ctxs := rfl
@[simp] theorem State.updAt_holds (s : State) (i : Nat) (f : Core → Core) : (s.updAt i f).holds = s.holds := rfl
@[simp] theorem State.updAt_nextHold (s : State) (i : Nat) (f : Core → Core) : (s.updAt i f).nextHold = s.nextHold := rfl
@[simp] theorem State.updAt_kernels (s : State) (i : Nat) (f : Core → Core) : (s.updAt i f).kernels = s.kernels := rfl
@[simp] theorem State.updAt_staged (s : State) (i : Nat) (f : Core → Core) : (s.updAt i f).staged = s.staged := rfl
@[simp] theorem State.updAt_barriers (s : State) (i : Nat) (f : Core → Core) : (s.updAt i f).barriers = s.barriers := rfl
@[simp] theorem State.updAt_runs (s : State) (i : Nat) (f : Core → Core) : (s.updAt i f).runs = s.runs := rfl
@[simp] theorem State.updAt_host (s : State) (i : Nat) (f : Core → Core) : (s.updAt i f).host = s.host := rfl
@[simp] theorem State.updAt_power (s : State) (i : Nat) (f : Core → Core) : (s.updAt i f).power = s.power := rfl
@[simp] theorem State.updAt_links (s : State) (i : Nat) (f : Core → Core) : (s.updAt i f).links = s.links := rfl
@[simp] theorem State.updAt_log (s : State) (i : Nat) (f : Core → Core) : (s.updAt i f).log = s.log := rfl
@[simp] theorem State.updAt_watchdog (s : State) (i : Nat) (f : Core → Core) : (s.updAt i f).watchdog = s.watchdog := rfl
@[simp] theorem State.updAt_time (s : State) (i : Nat) (f : Core → Core) : (s.updAt i f).time = s.time := rfl
@[simp] theorem State.updAt_turns (s : State) (i : Nat) (f : Core → Core) : (s.updAt i f).turns = s.turns := rfl
@[simp] theorem State.updAt_cur (s : State) (i : Nat) (f : Core → Core) : (s.updAt i f).cur = s.cur := rfl
@[simp] theorem State.updAt_steps (s : State) (i : Nat) (f : Core → Core) : (s.updAt i f).steps = s.steps := rfl
@[simp] theorem State.updAt_fresh (s : State) (i : Nat) (f : Core → Core) : (s.updAt i f).fresh = s.fresh := rfl
@[simp] theorem State.updAt_pushes (s : State) (i : Nat) (f : Core → Core) : (s.updAt i f).pushes = s.pushes := rfl
@[simp] theorem State.updAt_dead (s : State) (i : Nat) (f : Core → Core) : (s.updAt i f).dead = s.dead := rfl

@[simp] theorem State.setDest_upads (s : State) (d : Dest) (v : Word) : (s.setDest d v).upads = s.upads := rfl
@[simp] theorem State.setDest_kpads (s : State) (d : Dest) (v : Word) : (s.setDest d v).kpads = s.kpads := rfl
@[simp] theorem State.setDest_dpads (s : State) (d : Dest) (v : Word) : (s.setDest d v).dpads = s.dpads := rfl
@[simp] theorem State.setDest_gmem (s : State) (d : Dest) (v : Word) : (s.setDest d v).gmem = s.gmem := rfl
@[simp] theorem State.setDest_code (s : State) (d : Dest) (v : Word) : (s.setDest d v).code = s.code := rfl
@[simp] theorem State.setDest_codeTop (s : State) (d : Dest) (v : Word) : (s.setDest d v).codeTop = s.codeTop := rfl
@[simp] theorem State.setDest_ctxs (s : State) (d : Dest) (v : Word) : (s.setDest d v).ctxs = s.ctxs := rfl
@[simp] theorem State.setDest_holds (s : State) (d : Dest) (v : Word) : (s.setDest d v).holds = s.holds := rfl
@[simp] theorem State.setDest_nextHold (s : State) (d : Dest) (v : Word) : (s.setDest d v).nextHold = s.nextHold := rfl
@[simp] theorem State.setDest_kernels (s : State) (d : Dest) (v : Word) : (s.setDest d v).kernels = s.kernels := rfl
@[simp] theorem State.setDest_staged (s : State) (d : Dest) (v : Word) : (s.setDest d v).staged = s.staged := rfl
@[simp] theorem State.setDest_barriers (s : State) (d : Dest) (v : Word) : (s.setDest d v).barriers = s.barriers := rfl
@[simp] theorem State.setDest_runs (s : State) (d : Dest) (v : Word) : (s.setDest d v).runs = s.runs := rfl
@[simp] theorem State.setDest_host (s : State) (d : Dest) (v : Word) : (s.setDest d v).host = s.host := rfl
@[simp] theorem State.setDest_power (s : State) (d : Dest) (v : Word) : (s.setDest d v).power = s.power := rfl
@[simp] theorem State.setDest_links (s : State) (d : Dest) (v : Word) : (s.setDest d v).links = s.links := rfl
@[simp] theorem State.setDest_log (s : State) (d : Dest) (v : Word) : (s.setDest d v).log = s.log := rfl
@[simp] theorem State.setDest_watchdog (s : State) (d : Dest) (v : Word) : (s.setDest d v).watchdog = s.watchdog := rfl
@[simp] theorem State.setDest_time (s : State) (d : Dest) (v : Word) : (s.setDest d v).time = s.time := rfl
@[simp] theorem State.setDest_turns (s : State) (d : Dest) (v : Word) : (s.setDest d v).turns = s.turns := rfl
@[simp] theorem State.setDest_cur (s : State) (d : Dest) (v : Word) : (s.setDest d v).cur = s.cur := rfl
@[simp] theorem State.setDest_steps (s : State) (d : Dest) (v : Word) : (s.setDest d v).steps = s.steps := rfl
@[simp] theorem State.setDest_fresh (s : State) (d : Dest) (v : Word) : (s.setDest d v).fresh = s.fresh := rfl
@[simp] theorem State.setDest_pushes (s : State) (d : Dest) (v : Word) : (s.setDest d v).pushes = s.pushes := rfl
@[simp] theorem State.setDest_dead (s : State) (d : Dest) (v : Word) : (s.setDest d v).dead = s.dead := rfl

@[simp] theorem State.advance_upads (s : State)  : (s.advance).upads = s.upads := rfl
@[simp] theorem State.advance_kpads (s : State)  : (s.advance).kpads = s.kpads := rfl
@[simp] theorem State.advance_dpads (s : State)  : (s.advance).dpads = s.dpads := rfl
@[simp] theorem State.advance_gmem (s : State)  : (s.advance).gmem = s.gmem := rfl
@[simp] theorem State.advance_code (s : State)  : (s.advance).code = s.code := rfl
@[simp] theorem State.advance_codeTop (s : State)  : (s.advance).codeTop = s.codeTop := rfl
@[simp] theorem State.advance_ctxs (s : State)  : (s.advance).ctxs = s.ctxs := rfl
@[simp] theorem State.advance_holds (s : State)  : (s.advance).holds = s.holds := rfl
@[simp] theorem State.advance_nextHold (s : State)  : (s.advance).nextHold = s.nextHold := rfl
@[simp] theorem State.advance_kernels (s : State)  : (s.advance).kernels = s.kernels := rfl
@[simp] theorem State.advance_staged (s : State)  : (s.advance).staged = s.staged := rfl
@[simp] theorem State.advance_barriers (s : State)  : (s.advance).barriers = s.barriers := rfl
@[simp] theorem State.advance_runs (s : State)  : (s.advance).runs = s.runs := rfl
@[simp] theorem State.advance_host (s : State)  : (s.advance).host = s.host := rfl
@[simp] theorem State.advance_power (s : State)  : (s.advance).power = s.power := rfl
@[simp] theorem State.advance_links (s : State)  : (s.advance).links = s.links := rfl
@[simp] theorem State.advance_log (s : State)  : (s.advance).log = s.log := rfl
@[simp] theorem State.advance_watchdog (s : State)  : (s.advance).watchdog = s.watchdog := rfl
@[simp] theorem State.advance_time (s : State)  : (s.advance).time = s.time := rfl
@[simp] theorem State.advance_turns (s : State)  : (s.advance).turns = s.turns := rfl
@[simp] theorem State.advance_cur (s : State)  : (s.advance).cur = s.cur := rfl
@[simp] theorem State.advance_steps (s : State)  : (s.advance).steps = s.steps := rfl
@[simp] theorem State.advance_fresh (s : State)  : (s.advance).fresh = s.fresh := rfl
@[simp] theorem State.advance_pushes (s : State)  : (s.advance).pushes = s.pushes := rfl
@[simp] theorem State.advance_dead (s : State)  : (s.advance).dead = s.dead := rfl

@[simp] theorem State.pendTrap_upads (s : State) (t : TrapReq) : (s.pendTrap t).upads = s.upads := rfl
@[simp] theorem State.pendTrap_kpads (s : State) (t : TrapReq) : (s.pendTrap t).kpads = s.kpads := rfl
@[simp] theorem State.pendTrap_dpads (s : State) (t : TrapReq) : (s.pendTrap t).dpads = s.dpads := rfl
@[simp] theorem State.pendTrap_gmem (s : State) (t : TrapReq) : (s.pendTrap t).gmem = s.gmem := rfl
@[simp] theorem State.pendTrap_code (s : State) (t : TrapReq) : (s.pendTrap t).code = s.code := rfl
@[simp] theorem State.pendTrap_codeTop (s : State) (t : TrapReq) : (s.pendTrap t).codeTop = s.codeTop := rfl
@[simp] theorem State.pendTrap_ctxs (s : State) (t : TrapReq) : (s.pendTrap t).ctxs = s.ctxs := rfl
@[simp] theorem State.pendTrap_holds (s : State) (t : TrapReq) : (s.pendTrap t).holds = s.holds := rfl
@[simp] theorem State.pendTrap_nextHold (s : State) (t : TrapReq) : (s.pendTrap t).nextHold = s.nextHold := rfl
@[simp] theorem State.pendTrap_kernels (s : State) (t : TrapReq) : (s.pendTrap t).kernels = s.kernels := rfl
@[simp] theorem State.pendTrap_staged (s : State) (t : TrapReq) : (s.pendTrap t).staged = s.staged := rfl
@[simp] theorem State.pendTrap_barriers (s : State) (t : TrapReq) : (s.pendTrap t).barriers = s.barriers := rfl
@[simp] theorem State.pendTrap_runs (s : State) (t : TrapReq) : (s.pendTrap t).runs = s.runs := rfl
@[simp] theorem State.pendTrap_host (s : State) (t : TrapReq) : (s.pendTrap t).host = s.host := rfl
@[simp] theorem State.pendTrap_power (s : State) (t : TrapReq) : (s.pendTrap t).power = s.power := rfl
@[simp] theorem State.pendTrap_links (s : State) (t : TrapReq) : (s.pendTrap t).links = s.links := rfl
@[simp] theorem State.pendTrap_log (s : State) (t : TrapReq) : (s.pendTrap t).log = s.log := rfl
@[simp] theorem State.pendTrap_watchdog (s : State) (t : TrapReq) : (s.pendTrap t).watchdog = s.watchdog := rfl
@[simp] theorem State.pendTrap_time (s : State) (t : TrapReq) : (s.pendTrap t).time = s.time := rfl
@[simp] theorem State.pendTrap_turns (s : State) (t : TrapReq) : (s.pendTrap t).turns = s.turns := rfl
@[simp] theorem State.pendTrap_cur (s : State) (t : TrapReq) : (s.pendTrap t).cur = s.cur := rfl
@[simp] theorem State.pendTrap_steps (s : State) (t : TrapReq) : (s.pendTrap t).steps = s.steps := rfl
@[simp] theorem State.pendTrap_fresh (s : State) (t : TrapReq) : (s.pendTrap t).fresh = s.fresh := rfl
@[simp] theorem State.pendTrap_pushes (s : State) (t : TrapReq) : (s.pendTrap t).pushes = s.pushes := rfl
@[simp] theorem State.pendTrap_dead (s : State) (t : TrapReq) : (s.pendTrap t).dead = s.dead := rfl

@[simp] theorem State.post_upads (s : State) (p : Pending) : (s.post p).upads = s.upads := rfl
@[simp] theorem State.post_kpads (s : State) (p : Pending) : (s.post p).kpads = s.kpads := rfl
@[simp] theorem State.post_dpads (s : State) (p : Pending) : (s.post p).dpads = s.dpads := rfl
@[simp] theorem State.post_gmem (s : State) (p : Pending) : (s.post p).gmem = s.gmem := rfl
@[simp] theorem State.post_code (s : State) (p : Pending) : (s.post p).code = s.code := rfl
@[simp] theorem State.post_codeTop (s : State) (p : Pending) : (s.post p).codeTop = s.codeTop := rfl
@[simp] theorem State.post_ctxs (s : State) (p : Pending) : (s.post p).ctxs = s.ctxs := rfl
@[simp] theorem State.post_holds (s : State) (p : Pending) : (s.post p).holds = s.holds := rfl
@[simp] theorem State.post_nextHold (s : State) (p : Pending) : (s.post p).nextHold = s.nextHold := rfl
@[simp] theorem State.post_kernels (s : State) (p : Pending) : (s.post p).kernels = s.kernels := rfl
@[simp] theorem State.post_staged (s : State) (p : Pending) : (s.post p).staged = s.staged := rfl
@[simp] theorem State.post_barriers (s : State) (p : Pending) : (s.post p).barriers = s.barriers := rfl
@[simp] theorem State.post_runs (s : State) (p : Pending) : (s.post p).runs = s.runs := rfl
@[simp] theorem State.post_host (s : State) (p : Pending) : (s.post p).host = s.host := rfl
@[simp] theorem State.post_power (s : State) (p : Pending) : (s.post p).power = s.power := rfl
@[simp] theorem State.post_links (s : State) (p : Pending) : (s.post p).links = s.links := rfl
@[simp] theorem State.post_log (s : State) (p : Pending) : (s.post p).log = s.log := rfl
@[simp] theorem State.post_watchdog (s : State) (p : Pending) : (s.post p).watchdog = s.watchdog := rfl
@[simp] theorem State.post_time (s : State) (p : Pending) : (s.post p).time = s.time := rfl
@[simp] theorem State.post_turns (s : State) (p : Pending) : (s.post p).turns = s.turns := rfl
@[simp] theorem State.post_cur (s : State) (p : Pending) : (s.post p).cur = s.cur := rfl
@[simp] theorem State.post_steps (s : State) (p : Pending) : (s.post p).steps = s.steps := rfl
@[simp] theorem State.post_fresh (s : State) (p : Pending) : (s.post p).fresh = s.fresh := rfl
@[simp] theorem State.post_pushes (s : State) (p : Pending) : (s.post p).pushes = s.pushes := rfl
@[simp] theorem State.post_dead (s : State) (p : Pending) : (s.post p).dead = s.dead := rfl

-- Updates of the package.

@[simp] theorem State.draw_cores (s : State)  : (s.draw).cores = s.cores := rfl
@[simp] theorem State.draw_upads (s : State)  : (s.draw).upads = s.upads := rfl
@[simp] theorem State.draw_kpads (s : State)  : (s.draw).kpads = s.kpads := rfl
@[simp] theorem State.draw_dpads (s : State)  : (s.draw).dpads = s.dpads := rfl
@[simp] theorem State.draw_gmem (s : State)  : (s.draw).gmem = s.gmem := rfl
@[simp] theorem State.draw_code (s : State)  : (s.draw).code = s.code := rfl
@[simp] theorem State.draw_codeTop (s : State)  : (s.draw).codeTop = s.codeTop := rfl
@[simp] theorem State.draw_ctxs (s : State)  : (s.draw).ctxs = s.ctxs := rfl
@[simp] theorem State.draw_holds (s : State)  : (s.draw).holds = s.holds := rfl
@[simp] theorem State.draw_nextHold (s : State)  : (s.draw).nextHold = s.nextHold := rfl
@[simp] theorem State.draw_kernels (s : State)  : (s.draw).kernels = s.kernels := rfl
@[simp] theorem State.draw_staged (s : State)  : (s.draw).staged = s.staged := rfl
@[simp] theorem State.draw_barriers (s : State)  : (s.draw).barriers = s.barriers := rfl
@[simp] theorem State.draw_runs (s : State)  : (s.draw).runs = s.runs := rfl
@[simp] theorem State.draw_host (s : State)  : (s.draw).host = s.host := rfl
@[simp] theorem State.draw_power (s : State)  : (s.draw).power = s.power := rfl
@[simp] theorem State.draw_links (s : State)  : (s.draw).links = s.links := rfl
@[simp] theorem State.draw_log (s : State)  : (s.draw).log = s.log := rfl
@[simp] theorem State.draw_watchdog (s : State)  : (s.draw).watchdog = s.watchdog := rfl
@[simp] theorem State.draw_time (s : State)  : (s.draw).time = s.time := rfl
@[simp] theorem State.draw_turns (s : State)  : (s.draw).turns = s.turns := rfl
@[simp] theorem State.draw_cur (s : State)  : (s.draw).cur = s.cur := rfl
@[simp] theorem State.draw_steps (s : State)  : (s.draw).steps = s.steps := rfl
@[simp] theorem State.draw_pushes (s : State)  : (s.draw).pushes = s.pushes := rfl
@[simp] theorem State.draw_dead (s : State)  : (s.draw).dead = s.dead := rfl

@[simp] theorem State.logEvent_cores (s : State) (k sp : Nat) (a : Word) (p c : Nat) (e : Eng) : (s.logEvent k sp a p c e).cores = s.cores := rfl
@[simp] theorem State.logEvent_upads (s : State) (k sp : Nat) (a : Word) (p c : Nat) (e : Eng) : (s.logEvent k sp a p c e).upads = s.upads := rfl
@[simp] theorem State.logEvent_kpads (s : State) (k sp : Nat) (a : Word) (p c : Nat) (e : Eng) : (s.logEvent k sp a p c e).kpads = s.kpads := rfl
@[simp] theorem State.logEvent_dpads (s : State) (k sp : Nat) (a : Word) (p c : Nat) (e : Eng) : (s.logEvent k sp a p c e).dpads = s.dpads := rfl
@[simp] theorem State.logEvent_gmem (s : State) (k sp : Nat) (a : Word) (p c : Nat) (e : Eng) : (s.logEvent k sp a p c e).gmem = s.gmem := rfl
@[simp] theorem State.logEvent_code (s : State) (k sp : Nat) (a : Word) (p c : Nat) (e : Eng) : (s.logEvent k sp a p c e).code = s.code := rfl
@[simp] theorem State.logEvent_codeTop (s : State) (k sp : Nat) (a : Word) (p c : Nat) (e : Eng) : (s.logEvent k sp a p c e).codeTop = s.codeTop := rfl
@[simp] theorem State.logEvent_ctxs (s : State) (k sp : Nat) (a : Word) (p c : Nat) (e : Eng) : (s.logEvent k sp a p c e).ctxs = s.ctxs := rfl
@[simp] theorem State.logEvent_holds (s : State) (k sp : Nat) (a : Word) (p c : Nat) (e : Eng) : (s.logEvent k sp a p c e).holds = s.holds := rfl
@[simp] theorem State.logEvent_nextHold (s : State) (k sp : Nat) (a : Word) (p c : Nat) (e : Eng) : (s.logEvent k sp a p c e).nextHold = s.nextHold := rfl
@[simp] theorem State.logEvent_kernels (s : State) (k sp : Nat) (a : Word) (p c : Nat) (e : Eng) : (s.logEvent k sp a p c e).kernels = s.kernels := rfl
@[simp] theorem State.logEvent_staged (s : State) (k sp : Nat) (a : Word) (p c : Nat) (e : Eng) : (s.logEvent k sp a p c e).staged = s.staged := rfl
@[simp] theorem State.logEvent_barriers (s : State) (k sp : Nat) (a : Word) (p c : Nat) (e : Eng) : (s.logEvent k sp a p c e).barriers = s.barriers := rfl
@[simp] theorem State.logEvent_runs (s : State) (k sp : Nat) (a : Word) (p c : Nat) (e : Eng) : (s.logEvent k sp a p c e).runs = s.runs := rfl
@[simp] theorem State.logEvent_power (s : State) (k sp : Nat) (a : Word) (p c : Nat) (e : Eng) : (s.logEvent k sp a p c e).power = s.power := rfl
@[simp] theorem State.logEvent_links (s : State) (k sp : Nat) (a : Word) (p c : Nat) (e : Eng) : (s.logEvent k sp a p c e).links = s.links := rfl
@[simp] theorem State.logEvent_watchdog (s : State) (k sp : Nat) (a : Word) (p c : Nat) (e : Eng) : (s.logEvent k sp a p c e).watchdog = s.watchdog := rfl
@[simp] theorem State.logEvent_time (s : State) (k sp : Nat) (a : Word) (p c : Nat) (e : Eng) : (s.logEvent k sp a p c e).time = s.time := rfl
@[simp] theorem State.logEvent_turns (s : State) (k sp : Nat) (a : Word) (p c : Nat) (e : Eng) : (s.logEvent k sp a p c e).turns = s.turns := rfl
@[simp] theorem State.logEvent_cur (s : State) (k sp : Nat) (a : Word) (p c : Nat) (e : Eng) : (s.logEvent k sp a p c e).cur = s.cur := rfl
@[simp] theorem State.logEvent_steps (s : State) (k sp : Nat) (a : Word) (p c : Nat) (e : Eng) : (s.logEvent k sp a p c e).steps = s.steps := rfl
@[simp] theorem State.logEvent_fresh (s : State) (k sp : Nat) (a : Word) (p c : Nat) (e : Eng) : (s.logEvent k sp a p c e).fresh = s.fresh := rfl
@[simp] theorem State.logEvent_pushes (s : State) (k sp : Nat) (a : Word) (p c : Nat) (e : Eng) : (s.logEvent k sp a p c e).pushes = s.pushes := rfl
@[simp] theorem State.logEvent_dead (s : State) (k sp : Nat) (a : Word) (p c : Nat) (e : Eng) : (s.logEvent k sp a p c e).dead = s.dead := rfl

@[simp] theorem State.signal_cores (s : State) (v : Nat) : (s.signal v).cores = s.cores := rfl
@[simp] theorem State.signal_upads (s : State) (v : Nat) : (s.signal v).upads = s.upads := rfl
@[simp] theorem State.signal_kpads (s : State) (v : Nat) : (s.signal v).kpads = s.kpads := rfl
@[simp] theorem State.signal_dpads (s : State) (v : Nat) : (s.signal v).dpads = s.dpads := rfl
@[simp] theorem State.signal_gmem (s : State) (v : Nat) : (s.signal v).gmem = s.gmem := rfl
@[simp] theorem State.signal_code (s : State) (v : Nat) : (s.signal v).code = s.code := rfl
@[simp] theorem State.signal_codeTop (s : State) (v : Nat) : (s.signal v).codeTop = s.codeTop := rfl
@[simp] theorem State.signal_ctxs (s : State) (v : Nat) : (s.signal v).ctxs = s.ctxs := rfl
@[simp] theorem State.signal_holds (s : State) (v : Nat) : (s.signal v).holds = s.holds := rfl
@[simp] theorem State.signal_nextHold (s : State) (v : Nat) : (s.signal v).nextHold = s.nextHold := rfl
@[simp] theorem State.signal_kernels (s : State) (v : Nat) : (s.signal v).kernels = s.kernels := rfl
@[simp] theorem State.signal_staged (s : State) (v : Nat) : (s.signal v).staged = s.staged := rfl
@[simp] theorem State.signal_barriers (s : State) (v : Nat) : (s.signal v).barriers = s.barriers := rfl
@[simp] theorem State.signal_runs (s : State) (v : Nat) : (s.signal v).runs = s.runs := rfl
@[simp] theorem State.signal_power (s : State) (v : Nat) : (s.signal v).power = s.power := rfl
@[simp] theorem State.signal_links (s : State) (v : Nat) : (s.signal v).links = s.links := rfl
@[simp] theorem State.signal_log (s : State) (v : Nat) : (s.signal v).log = s.log := rfl
@[simp] theorem State.signal_watchdog (s : State) (v : Nat) : (s.signal v).watchdog = s.watchdog := rfl
@[simp] theorem State.signal_time (s : State) (v : Nat) : (s.signal v).time = s.time := rfl
@[simp] theorem State.signal_turns (s : State) (v : Nat) : (s.signal v).turns = s.turns := rfl
@[simp] theorem State.signal_cur (s : State) (v : Nat) : (s.signal v).cur = s.cur := rfl
@[simp] theorem State.signal_steps (s : State) (v : Nat) : (s.signal v).steps = s.steps := rfl
@[simp] theorem State.signal_fresh (s : State) (v : Nat) : (s.signal v).fresh = s.fresh := rfl
@[simp] theorem State.signal_pushes (s : State) (v : Nat) : (s.signal v).pushes = s.pushes := rfl
@[simp] theorem State.signal_dead (s : State) (v : Nat) : (s.signal v).dead = s.dead := rfl

@[simp] theorem State.updPower_cores (s : State) (f : Power → Power) : (s.updPower f).cores = s.cores := rfl
@[simp] theorem State.updPower_upads (s : State) (f : Power → Power) : (s.updPower f).upads = s.upads := rfl
@[simp] theorem State.updPower_kpads (s : State) (f : Power → Power) : (s.updPower f).kpads = s.kpads := rfl
@[simp] theorem State.updPower_dpads (s : State) (f : Power → Power) : (s.updPower f).dpads = s.dpads := rfl
@[simp] theorem State.updPower_gmem (s : State) (f : Power → Power) : (s.updPower f).gmem = s.gmem := rfl
@[simp] theorem State.updPower_code (s : State) (f : Power → Power) : (s.updPower f).code = s.code := rfl
@[simp] theorem State.updPower_codeTop (s : State) (f : Power → Power) : (s.updPower f).codeTop = s.codeTop := rfl
@[simp] theorem State.updPower_ctxs (s : State) (f : Power → Power) : (s.updPower f).ctxs = s.ctxs := rfl
@[simp] theorem State.updPower_holds (s : State) (f : Power → Power) : (s.updPower f).holds = s.holds := rfl
@[simp] theorem State.updPower_nextHold (s : State) (f : Power → Power) : (s.updPower f).nextHold = s.nextHold := rfl
@[simp] theorem State.updPower_kernels (s : State) (f : Power → Power) : (s.updPower f).kernels = s.kernels := rfl
@[simp] theorem State.updPower_staged (s : State) (f : Power → Power) : (s.updPower f).staged = s.staged := rfl
@[simp] theorem State.updPower_barriers (s : State) (f : Power → Power) : (s.updPower f).barriers = s.barriers := rfl
@[simp] theorem State.updPower_runs (s : State) (f : Power → Power) : (s.updPower f).runs = s.runs := rfl
@[simp] theorem State.updPower_host (s : State) (f : Power → Power) : (s.updPower f).host = s.host := rfl
@[simp] theorem State.updPower_links (s : State) (f : Power → Power) : (s.updPower f).links = s.links := rfl
@[simp] theorem State.updPower_log (s : State) (f : Power → Power) : (s.updPower f).log = s.log := rfl
@[simp] theorem State.updPower_watchdog (s : State) (f : Power → Power) : (s.updPower f).watchdog = s.watchdog := rfl
@[simp] theorem State.updPower_time (s : State) (f : Power → Power) : (s.updPower f).time = s.time := rfl
@[simp] theorem State.updPower_turns (s : State) (f : Power → Power) : (s.updPower f).turns = s.turns := rfl
@[simp] theorem State.updPower_cur (s : State) (f : Power → Power) : (s.updPower f).cur = s.cur := rfl
@[simp] theorem State.updPower_steps (s : State) (f : Power → Power) : (s.updPower f).steps = s.steps := rfl
@[simp] theorem State.updPower_fresh (s : State) (f : Power → Power) : (s.updPower f).fresh = s.fresh := rfl
@[simp] theorem State.updPower_pushes (s : State) (f : Power → Power) : (s.updPower f).pushes = s.pushes := rfl
@[simp] theorem State.updPower_dead (s : State) (f : Power → Power) : (s.updPower f).dead = s.dead := rfl

@[simp] theorem State.updHost_cores (s : State) (f : Port → Port) : (s.updHost f).cores = s.cores := rfl
@[simp] theorem State.updHost_upads (s : State) (f : Port → Port) : (s.updHost f).upads = s.upads := rfl
@[simp] theorem State.updHost_kpads (s : State) (f : Port → Port) : (s.updHost f).kpads = s.kpads := rfl
@[simp] theorem State.updHost_dpads (s : State) (f : Port → Port) : (s.updHost f).dpads = s.dpads := rfl
@[simp] theorem State.updHost_gmem (s : State) (f : Port → Port) : (s.updHost f).gmem = s.gmem := rfl
@[simp] theorem State.updHost_code (s : State) (f : Port → Port) : (s.updHost f).code = s.code := rfl
@[simp] theorem State.updHost_codeTop (s : State) (f : Port → Port) : (s.updHost f).codeTop = s.codeTop := rfl
@[simp] theorem State.updHost_ctxs (s : State) (f : Port → Port) : (s.updHost f).ctxs = s.ctxs := rfl
@[simp] theorem State.updHost_holds (s : State) (f : Port → Port) : (s.updHost f).holds = s.holds := rfl
@[simp] theorem State.updHost_nextHold (s : State) (f : Port → Port) : (s.updHost f).nextHold = s.nextHold := rfl
@[simp] theorem State.updHost_kernels (s : State) (f : Port → Port) : (s.updHost f).kernels = s.kernels := rfl
@[simp] theorem State.updHost_staged (s : State) (f : Port → Port) : (s.updHost f).staged = s.staged := rfl
@[simp] theorem State.updHost_barriers (s : State) (f : Port → Port) : (s.updHost f).barriers = s.barriers := rfl
@[simp] theorem State.updHost_runs (s : State) (f : Port → Port) : (s.updHost f).runs = s.runs := rfl
@[simp] theorem State.updHost_power (s : State) (f : Port → Port) : (s.updHost f).power = s.power := rfl
@[simp] theorem State.updHost_links (s : State) (f : Port → Port) : (s.updHost f).links = s.links := rfl
@[simp] theorem State.updHost_log (s : State) (f : Port → Port) : (s.updHost f).log = s.log := rfl
@[simp] theorem State.updHost_watchdog (s : State) (f : Port → Port) : (s.updHost f).watchdog = s.watchdog := rfl
@[simp] theorem State.updHost_time (s : State) (f : Port → Port) : (s.updHost f).time = s.time := rfl
@[simp] theorem State.updHost_turns (s : State) (f : Port → Port) : (s.updHost f).turns = s.turns := rfl
@[simp] theorem State.updHost_cur (s : State) (f : Port → Port) : (s.updHost f).cur = s.cur := rfl
@[simp] theorem State.updHost_steps (s : State) (f : Port → Port) : (s.updHost f).steps = s.steps := rfl
@[simp] theorem State.updHost_fresh (s : State) (f : Port → Port) : (s.updHost f).fresh = s.fresh := rfl
@[simp] theorem State.updHost_pushes (s : State) (f : Port → Port) : (s.updHost f).pushes = s.pushes := rfl
@[simp] theorem State.updHost_dead (s : State) (f : Port → Port) : (s.updHost f).dead = s.dead := rfl

@[simp] theorem State.addHold_cores (s : State) (c : Fin 64) (e : Nat) (p : Bool) : (s.addHold c e p).cores = s.cores := rfl
@[simp] theorem State.addHold_upads (s : State) (c : Fin 64) (e : Nat) (p : Bool) : (s.addHold c e p).upads = s.upads := rfl
@[simp] theorem State.addHold_kpads (s : State) (c : Fin 64) (e : Nat) (p : Bool) : (s.addHold c e p).kpads = s.kpads := rfl
@[simp] theorem State.addHold_dpads (s : State) (c : Fin 64) (e : Nat) (p : Bool) : (s.addHold c e p).dpads = s.dpads := rfl
@[simp] theorem State.addHold_gmem (s : State) (c : Fin 64) (e : Nat) (p : Bool) : (s.addHold c e p).gmem = s.gmem := rfl
@[simp] theorem State.addHold_code (s : State) (c : Fin 64) (e : Nat) (p : Bool) : (s.addHold c e p).code = s.code := rfl
@[simp] theorem State.addHold_codeTop (s : State) (c : Fin 64) (e : Nat) (p : Bool) : (s.addHold c e p).codeTop = s.codeTop := rfl
@[simp] theorem State.addHold_ctxs (s : State) (c : Fin 64) (e : Nat) (p : Bool) : (s.addHold c e p).ctxs = s.ctxs := rfl
@[simp] theorem State.addHold_kernels (s : State) (c : Fin 64) (e : Nat) (p : Bool) : (s.addHold c e p).kernels = s.kernels := rfl
@[simp] theorem State.addHold_staged (s : State) (c : Fin 64) (e : Nat) (p : Bool) : (s.addHold c e p).staged = s.staged := rfl
@[simp] theorem State.addHold_barriers (s : State) (c : Fin 64) (e : Nat) (p : Bool) : (s.addHold c e p).barriers = s.barriers := rfl
@[simp] theorem State.addHold_runs (s : State) (c : Fin 64) (e : Nat) (p : Bool) : (s.addHold c e p).runs = s.runs := rfl
@[simp] theorem State.addHold_host (s : State) (c : Fin 64) (e : Nat) (p : Bool) : (s.addHold c e p).host = s.host := rfl
@[simp] theorem State.addHold_power (s : State) (c : Fin 64) (e : Nat) (p : Bool) : (s.addHold c e p).power = s.power := rfl
@[simp] theorem State.addHold_links (s : State) (c : Fin 64) (e : Nat) (p : Bool) : (s.addHold c e p).links = s.links := rfl
@[simp] theorem State.addHold_log (s : State) (c : Fin 64) (e : Nat) (p : Bool) : (s.addHold c e p).log = s.log := rfl
@[simp] theorem State.addHold_watchdog (s : State) (c : Fin 64) (e : Nat) (p : Bool) : (s.addHold c e p).watchdog = s.watchdog := rfl
@[simp] theorem State.addHold_time (s : State) (c : Fin 64) (e : Nat) (p : Bool) : (s.addHold c e p).time = s.time := rfl
@[simp] theorem State.addHold_turns (s : State) (c : Fin 64) (e : Nat) (p : Bool) : (s.addHold c e p).turns = s.turns := rfl
@[simp] theorem State.addHold_cur (s : State) (c : Fin 64) (e : Nat) (p : Bool) : (s.addHold c e p).cur = s.cur := rfl
@[simp] theorem State.addHold_steps (s : State) (c : Fin 64) (e : Nat) (p : Bool) : (s.addHold c e p).steps = s.steps := rfl
@[simp] theorem State.addHold_fresh (s : State) (c : Fin 64) (e : Nat) (p : Bool) : (s.addHold c e p).fresh = s.fresh := rfl
@[simp] theorem State.addHold_pushes (s : State) (c : Fin 64) (e : Nat) (p : Bool) : (s.addHold c e p).pushes = s.pushes := rfl
@[simp] theorem State.addHold_dead (s : State) (c : Fin 64) (e : Nat) (p : Bool) : (s.addHold c e p).dead = s.dead := rfl

@[simp] theorem State.dropHolds_cores (s : State) (l : List Nat) : (s.dropHolds l).cores = s.cores := rfl
@[simp] theorem State.dropHolds_upads (s : State) (l : List Nat) : (s.dropHolds l).upads = s.upads := rfl
@[simp] theorem State.dropHolds_kpads (s : State) (l : List Nat) : (s.dropHolds l).kpads = s.kpads := rfl
@[simp] theorem State.dropHolds_dpads (s : State) (l : List Nat) : (s.dropHolds l).dpads = s.dpads := rfl
@[simp] theorem State.dropHolds_gmem (s : State) (l : List Nat) : (s.dropHolds l).gmem = s.gmem := rfl
@[simp] theorem State.dropHolds_code (s : State) (l : List Nat) : (s.dropHolds l).code = s.code := rfl
@[simp] theorem State.dropHolds_codeTop (s : State) (l : List Nat) : (s.dropHolds l).codeTop = s.codeTop := rfl
@[simp] theorem State.dropHolds_ctxs (s : State) (l : List Nat) : (s.dropHolds l).ctxs = s.ctxs := rfl
@[simp] theorem State.dropHolds_nextHold (s : State) (l : List Nat) : (s.dropHolds l).nextHold = s.nextHold := rfl
@[simp] theorem State.dropHolds_kernels (s : State) (l : List Nat) : (s.dropHolds l).kernels = s.kernels := rfl
@[simp] theorem State.dropHolds_staged (s : State) (l : List Nat) : (s.dropHolds l).staged = s.staged := rfl
@[simp] theorem State.dropHolds_barriers (s : State) (l : List Nat) : (s.dropHolds l).barriers = s.barriers := rfl
@[simp] theorem State.dropHolds_runs (s : State) (l : List Nat) : (s.dropHolds l).runs = s.runs := rfl
@[simp] theorem State.dropHolds_host (s : State) (l : List Nat) : (s.dropHolds l).host = s.host := rfl
@[simp] theorem State.dropHolds_power (s : State) (l : List Nat) : (s.dropHolds l).power = s.power := rfl
@[simp] theorem State.dropHolds_links (s : State) (l : List Nat) : (s.dropHolds l).links = s.links := rfl
@[simp] theorem State.dropHolds_log (s : State) (l : List Nat) : (s.dropHolds l).log = s.log := rfl
@[simp] theorem State.dropHolds_watchdog (s : State) (l : List Nat) : (s.dropHolds l).watchdog = s.watchdog := rfl
@[simp] theorem State.dropHolds_time (s : State) (l : List Nat) : (s.dropHolds l).time = s.time := rfl
@[simp] theorem State.dropHolds_turns (s : State) (l : List Nat) : (s.dropHolds l).turns = s.turns := rfl
@[simp] theorem State.dropHolds_cur (s : State) (l : List Nat) : (s.dropHolds l).cur = s.cur := rfl
@[simp] theorem State.dropHolds_steps (s : State) (l : List Nat) : (s.dropHolds l).steps = s.steps := rfl
@[simp] theorem State.dropHolds_fresh (s : State) (l : List Nat) : (s.dropHolds l).fresh = s.fresh := rfl
@[simp] theorem State.dropHolds_pushes (s : State) (l : List Nat) : (s.dropHolds l).pushes = s.pushes := rfl
@[simp] theorem State.dropHolds_dead (s : State) (l : List Nat) : (s.dropHolds l).dead = s.dead := rfl

@[simp] theorem State.setPad_cores (s : State) (l : Loc) (p : Pad) : (s.setPad l p).cores = s.cores := by cases l <;> rfl
@[simp] theorem State.setPad_code (s : State) (l : Loc) (p : Pad) : (s.setPad l p).code = s.code := by cases l <;> rfl
@[simp] theorem State.setPad_codeTop (s : State) (l : Loc) (p : Pad) : (s.setPad l p).codeTop = s.codeTop := by cases l <;> rfl
@[simp] theorem State.setPad_ctxs (s : State) (l : Loc) (p : Pad) : (s.setPad l p).ctxs = s.ctxs := by cases l <;> rfl
@[simp] theorem State.setPad_holds (s : State) (l : Loc) (p : Pad) : (s.setPad l p).holds = s.holds := by cases l <;> rfl
@[simp] theorem State.setPad_nextHold (s : State) (l : Loc) (p : Pad) : (s.setPad l p).nextHold = s.nextHold := by cases l <;> rfl
@[simp] theorem State.setPad_kernels (s : State) (l : Loc) (p : Pad) : (s.setPad l p).kernels = s.kernels := by cases l <;> rfl
@[simp] theorem State.setPad_staged (s : State) (l : Loc) (p : Pad) : (s.setPad l p).staged = s.staged := by cases l <;> rfl
@[simp] theorem State.setPad_barriers (s : State) (l : Loc) (p : Pad) : (s.setPad l p).barriers = s.barriers := by cases l <;> rfl
@[simp] theorem State.setPad_runs (s : State) (l : Loc) (p : Pad) : (s.setPad l p).runs = s.runs := by cases l <;> rfl
@[simp] theorem State.setPad_host (s : State) (l : Loc) (p : Pad) : (s.setPad l p).host = s.host := by cases l <;> rfl
@[simp] theorem State.setPad_power (s : State) (l : Loc) (p : Pad) : (s.setPad l p).power = s.power := by cases l <;> rfl
@[simp] theorem State.setPad_links (s : State) (l : Loc) (p : Pad) : (s.setPad l p).links = s.links := by cases l <;> rfl
@[simp] theorem State.setPad_log (s : State) (l : Loc) (p : Pad) : (s.setPad l p).log = s.log := by cases l <;> rfl
@[simp] theorem State.setPad_watchdog (s : State) (l : Loc) (p : Pad) : (s.setPad l p).watchdog = s.watchdog := by cases l <;> rfl
@[simp] theorem State.setPad_time (s : State) (l : Loc) (p : Pad) : (s.setPad l p).time = s.time := by cases l <;> rfl
@[simp] theorem State.setPad_turns (s : State) (l : Loc) (p : Pad) : (s.setPad l p).turns = s.turns := by cases l <;> rfl
@[simp] theorem State.setPad_cur (s : State) (l : Loc) (p : Pad) : (s.setPad l p).cur = s.cur := by cases l <;> rfl
@[simp] theorem State.setPad_steps (s : State) (l : Loc) (p : Pad) : (s.setPad l p).steps = s.steps := by cases l <;> rfl
@[simp] theorem State.setPad_fresh (s : State) (l : Loc) (p : Pad) : (s.setPad l p).fresh = s.fresh := by cases l <;> rfl
@[simp] theorem State.setPad_pushes (s : State) (l : Loc) (p : Pad) : (s.setPad l p).pushes = s.pushes := by cases l <;> rfl
@[simp] theorem State.setPad_dead (s : State) (l : Loc) (p : Pad) : (s.setPad l p).dead = s.dead := by cases l <;> rfl

@[simp] theorem State.perform_cores (s : State) (l : Loc) (cs : List Host.Cell) : (s.perform l cs).cores = s.cores := by cases l <;> rfl
@[simp] theorem State.perform_code (s : State) (l : Loc) (cs : List Host.Cell) : (s.perform l cs).code = s.code := by cases l <;> rfl
@[simp] theorem State.perform_codeTop (s : State) (l : Loc) (cs : List Host.Cell) : (s.perform l cs).codeTop = s.codeTop := by cases l <;> rfl
@[simp] theorem State.perform_ctxs (s : State) (l : Loc) (cs : List Host.Cell) : (s.perform l cs).ctxs = s.ctxs := by cases l <;> rfl
@[simp] theorem State.perform_holds (s : State) (l : Loc) (cs : List Host.Cell) : (s.perform l cs).holds = s.holds := by cases l <;> rfl
@[simp] theorem State.perform_nextHold (s : State) (l : Loc) (cs : List Host.Cell) : (s.perform l cs).nextHold = s.nextHold := by cases l <;> rfl
@[simp] theorem State.perform_kernels (s : State) (l : Loc) (cs : List Host.Cell) : (s.perform l cs).kernels = s.kernels := by cases l <;> rfl
@[simp] theorem State.perform_staged (s : State) (l : Loc) (cs : List Host.Cell) : (s.perform l cs).staged = s.staged := by cases l <;> rfl
@[simp] theorem State.perform_barriers (s : State) (l : Loc) (cs : List Host.Cell) : (s.perform l cs).barriers = s.barriers := by cases l <;> rfl
@[simp] theorem State.perform_runs (s : State) (l : Loc) (cs : List Host.Cell) : (s.perform l cs).runs = s.runs := by cases l <;> rfl
@[simp] theorem State.perform_host (s : State) (l : Loc) (cs : List Host.Cell) : (s.perform l cs).host = s.host := by cases l <;> rfl
@[simp] theorem State.perform_power (s : State) (l : Loc) (cs : List Host.Cell) : (s.perform l cs).power = s.power := by cases l <;> rfl
@[simp] theorem State.perform_links (s : State) (l : Loc) (cs : List Host.Cell) : (s.perform l cs).links = s.links := by cases l <;> rfl
@[simp] theorem State.perform_log (s : State) (l : Loc) (cs : List Host.Cell) : (s.perform l cs).log = s.log := by cases l <;> rfl
@[simp] theorem State.perform_watchdog (s : State) (l : Loc) (cs : List Host.Cell) : (s.perform l cs).watchdog = s.watchdog := by cases l <;> rfl
@[simp] theorem State.perform_time (s : State) (l : Loc) (cs : List Host.Cell) : (s.perform l cs).time = s.time := by cases l <;> rfl
@[simp] theorem State.perform_turns (s : State) (l : Loc) (cs : List Host.Cell) : (s.perform l cs).turns = s.turns := by cases l <;> rfl
@[simp] theorem State.perform_cur (s : State) (l : Loc) (cs : List Host.Cell) : (s.perform l cs).cur = s.cur := by cases l <;> rfl
@[simp] theorem State.perform_steps (s : State) (l : Loc) (cs : List Host.Cell) : (s.perform l cs).steps = s.steps := by cases l <;> rfl
@[simp] theorem State.perform_fresh (s : State) (l : Loc) (cs : List Host.Cell) : (s.perform l cs).fresh = s.fresh := by cases l <;> rfl
@[simp] theorem State.perform_pushes (s : State) (l : Loc) (cs : List Host.Cell) : (s.perform l cs).pushes = s.pushes := by cases l <;> rfl

@[simp] theorem State.setBad_cores (s : State) (l : Loc) (as : List Nat) (m : Option Nat) : (s.setBad l as m).cores = s.cores := by cases l <;> rfl
@[simp] theorem State.setBad_code (s : State) (l : Loc) (as : List Nat) (m : Option Nat) : (s.setBad l as m).code = s.code := by cases l <;> rfl
@[simp] theorem State.setBad_codeTop (s : State) (l : Loc) (as : List Nat) (m : Option Nat) : (s.setBad l as m).codeTop = s.codeTop := by cases l <;> rfl
@[simp] theorem State.setBad_ctxs (s : State) (l : Loc) (as : List Nat) (m : Option Nat) : (s.setBad l as m).ctxs = s.ctxs := by cases l <;> rfl
@[simp] theorem State.setBad_holds (s : State) (l : Loc) (as : List Nat) (m : Option Nat) : (s.setBad l as m).holds = s.holds := by cases l <;> rfl
@[simp] theorem State.setBad_nextHold (s : State) (l : Loc) (as : List Nat) (m : Option Nat) : (s.setBad l as m).nextHold = s.nextHold := by cases l <;> rfl
@[simp] theorem State.setBad_kernels (s : State) (l : Loc) (as : List Nat) (m : Option Nat) : (s.setBad l as m).kernels = s.kernels := by cases l <;> rfl
@[simp] theorem State.setBad_staged (s : State) (l : Loc) (as : List Nat) (m : Option Nat) : (s.setBad l as m).staged = s.staged := by cases l <;> rfl
@[simp] theorem State.setBad_barriers (s : State) (l : Loc) (as : List Nat) (m : Option Nat) : (s.setBad l as m).barriers = s.barriers := by cases l <;> rfl
@[simp] theorem State.setBad_runs (s : State) (l : Loc) (as : List Nat) (m : Option Nat) : (s.setBad l as m).runs = s.runs := by cases l <;> rfl
@[simp] theorem State.setBad_host (s : State) (l : Loc) (as : List Nat) (m : Option Nat) : (s.setBad l as m).host = s.host := by cases l <;> rfl
@[simp] theorem State.setBad_power (s : State) (l : Loc) (as : List Nat) (m : Option Nat) : (s.setBad l as m).power = s.power := by cases l <;> rfl
@[simp] theorem State.setBad_links (s : State) (l : Loc) (as : List Nat) (m : Option Nat) : (s.setBad l as m).links = s.links := by cases l <;> rfl
@[simp] theorem State.setBad_log (s : State) (l : Loc) (as : List Nat) (m : Option Nat) : (s.setBad l as m).log = s.log := by cases l <;> rfl
@[simp] theorem State.setBad_watchdog (s : State) (l : Loc) (as : List Nat) (m : Option Nat) : (s.setBad l as m).watchdog = s.watchdog := by cases l <;> rfl
@[simp] theorem State.setBad_time (s : State) (l : Loc) (as : List Nat) (m : Option Nat) : (s.setBad l as m).time = s.time := by cases l <;> rfl
@[simp] theorem State.setBad_turns (s : State) (l : Loc) (as : List Nat) (m : Option Nat) : (s.setBad l as m).turns = s.turns := by cases l <;> rfl
@[simp] theorem State.setBad_cur (s : State) (l : Loc) (as : List Nat) (m : Option Nat) : (s.setBad l as m).cur = s.cur := by cases l <;> rfl
@[simp] theorem State.setBad_steps (s : State) (l : Loc) (as : List Nat) (m : Option Nat) : (s.setBad l as m).steps = s.steps := by cases l <;> rfl
@[simp] theorem State.setBad_fresh (s : State) (l : Loc) (as : List Nat) (m : Option Nat) : (s.setBad l as m).fresh = s.fresh := by cases l <;> rfl
@[simp] theorem State.setBad_pushes (s : State) (l : Loc) (as : List Nat) (m : Option Nat) : (s.setBad l as m).pushes = s.pushes := by cases l <;> rfl
@[simp] theorem State.setBad_dead (s : State) (l : Loc) (as : List Nat) (m : Option Nat) : (s.setBad l as m).dead = s.dead := by cases l <;> rfl

@[simp] theorem State.performOne_cores (s : State) (p : Pending) : (s.performOne p).cores = s.cores := by simp [State.performOne]
@[simp] theorem State.performOne_code (s : State) (p : Pending) : (s.performOne p).code = s.code := by simp [State.performOne]
@[simp] theorem State.performOne_codeTop (s : State) (p : Pending) : (s.performOne p).codeTop = s.codeTop := by simp [State.performOne]
@[simp] theorem State.performOne_ctxs (s : State) (p : Pending) : (s.performOne p).ctxs = s.ctxs := by simp [State.performOne]
@[simp] theorem State.performOne_nextHold (s : State) (p : Pending) : (s.performOne p).nextHold = s.nextHold := by simp [State.performOne]
@[simp] theorem State.performOne_kernels (s : State) (p : Pending) : (s.performOne p).kernels = s.kernels := by simp [State.performOne]
@[simp] theorem State.performOne_staged (s : State) (p : Pending) : (s.performOne p).staged = s.staged := by simp [State.performOne]
@[simp] theorem State.performOne_barriers (s : State) (p : Pending) : (s.performOne p).barriers = s.barriers := by simp [State.performOne]
@[simp] theorem State.performOne_runs (s : State) (p : Pending) : (s.performOne p).runs = s.runs := by simp [State.performOne]
@[simp] theorem State.performOne_host (s : State) (p : Pending) : (s.performOne p).host = s.host := by simp [State.performOne]
@[simp] theorem State.performOne_power (s : State) (p : Pending) : (s.performOne p).power = s.power := by simp [State.performOne]
@[simp] theorem State.performOne_links (s : State) (p : Pending) : (s.performOne p).links = s.links := by simp [State.performOne]
@[simp] theorem State.performOne_log (s : State) (p : Pending) : (s.performOne p).log = s.log := by simp [State.performOne]
@[simp] theorem State.performOne_watchdog (s : State) (p : Pending) : (s.performOne p).watchdog = s.watchdog := by simp [State.performOne]
@[simp] theorem State.performOne_time (s : State) (p : Pending) : (s.performOne p).time = s.time := by simp [State.performOne]
@[simp] theorem State.performOne_turns (s : State) (p : Pending) : (s.performOne p).turns = s.turns := by simp [State.performOne]
@[simp] theorem State.performOne_cur (s : State) (p : Pending) : (s.performOne p).cur = s.cur := by simp [State.performOne]
@[simp] theorem State.performOne_steps (s : State) (p : Pending) : (s.performOne p).steps = s.steps := by simp [State.performOne]
@[simp] theorem State.performOne_fresh (s : State) (p : Pending) : (s.performOne p).fresh = s.fresh := by simp [State.performOne]
@[simp] theorem State.performOne_pushes (s : State) (p : Pending) : (s.performOne p).pushes = s.pushes := by simp [State.performOne]

@[simp] theorem State.logFor_cores (s : State) (i k sp : Nat) (a : Word) (p c : Nat) (e : Eng) : (s.logFor i k sp a p c e).cores = s.cores := rfl
@[simp] theorem State.logFor_upads (s : State) (i k sp : Nat) (a : Word) (p c : Nat) (e : Eng) : (s.logFor i k sp a p c e).upads = s.upads := rfl
@[simp] theorem State.logFor_kpads (s : State) (i k sp : Nat) (a : Word) (p c : Nat) (e : Eng) : (s.logFor i k sp a p c e).kpads = s.kpads := rfl
@[simp] theorem State.logFor_dpads (s : State) (i k sp : Nat) (a : Word) (p c : Nat) (e : Eng) : (s.logFor i k sp a p c e).dpads = s.dpads := rfl
@[simp] theorem State.logFor_gmem (s : State) (i k sp : Nat) (a : Word) (p c : Nat) (e : Eng) : (s.logFor i k sp a p c e).gmem = s.gmem := rfl
@[simp] theorem State.logFor_code (s : State) (i k sp : Nat) (a : Word) (p c : Nat) (e : Eng) : (s.logFor i k sp a p c e).code = s.code := rfl
@[simp] theorem State.logFor_codeTop (s : State) (i k sp : Nat) (a : Word) (p c : Nat) (e : Eng) : (s.logFor i k sp a p c e).codeTop = s.codeTop := rfl
@[simp] theorem State.logFor_ctxs (s : State) (i k sp : Nat) (a : Word) (p c : Nat) (e : Eng) : (s.logFor i k sp a p c e).ctxs = s.ctxs := rfl
@[simp] theorem State.logFor_holds (s : State) (i k sp : Nat) (a : Word) (p c : Nat) (e : Eng) : (s.logFor i k sp a p c e).holds = s.holds := rfl
@[simp] theorem State.logFor_nextHold (s : State) (i k sp : Nat) (a : Word) (p c : Nat) (e : Eng) : (s.logFor i k sp a p c e).nextHold = s.nextHold := rfl
@[simp] theorem State.logFor_kernels (s : State) (i k sp : Nat) (a : Word) (p c : Nat) (e : Eng) : (s.logFor i k sp a p c e).kernels = s.kernels := rfl
@[simp] theorem State.logFor_staged (s : State) (i k sp : Nat) (a : Word) (p c : Nat) (e : Eng) : (s.logFor i k sp a p c e).staged = s.staged := rfl
@[simp] theorem State.logFor_barriers (s : State) (i k sp : Nat) (a : Word) (p c : Nat) (e : Eng) : (s.logFor i k sp a p c e).barriers = s.barriers := rfl
@[simp] theorem State.logFor_runs (s : State) (i k sp : Nat) (a : Word) (p c : Nat) (e : Eng) : (s.logFor i k sp a p c e).runs = s.runs := rfl
@[simp] theorem State.logFor_power (s : State) (i k sp : Nat) (a : Word) (p c : Nat) (e : Eng) : (s.logFor i k sp a p c e).power = s.power := rfl
@[simp] theorem State.logFor_links (s : State) (i k sp : Nat) (a : Word) (p c : Nat) (e : Eng) : (s.logFor i k sp a p c e).links = s.links := rfl
@[simp] theorem State.logFor_watchdog (s : State) (i k sp : Nat) (a : Word) (p c : Nat) (e : Eng) : (s.logFor i k sp a p c e).watchdog = s.watchdog := rfl
@[simp] theorem State.logFor_time (s : State) (i k sp : Nat) (a : Word) (p c : Nat) (e : Eng) : (s.logFor i k sp a p c e).time = s.time := rfl
@[simp] theorem State.logFor_turns (s : State) (i k sp : Nat) (a : Word) (p c : Nat) (e : Eng) : (s.logFor i k sp a p c e).turns = s.turns := rfl
@[simp] theorem State.logFor_cur (s : State) (i k sp : Nat) (a : Word) (p c : Nat) (e : Eng) : (s.logFor i k sp a p c e).cur = s.cur := rfl
@[simp] theorem State.logFor_steps (s : State) (i k sp : Nat) (a : Word) (p c : Nat) (e : Eng) : (s.logFor i k sp a p c e).steps = s.steps := rfl
@[simp] theorem State.logFor_fresh (s : State) (i k sp : Nat) (a : Word) (p c : Nat) (e : Eng) : (s.logFor i k sp a p c e).fresh = s.fresh := rfl
@[simp] theorem State.logFor_pushes (s : State) (i k sp : Nat) (a : Word) (p c : Nat) (e : Eng) : (s.logFor i k sp a p c e).pushes = s.pushes := rfl
@[simp] theorem State.logFor_dead (s : State) (i k sp : Nat) (a : Word) (p c : Nat) (e : Eng) : (s.logFor i k sp a p c e).dead = s.dead := rfl

@[simp] theorem State.postAll_upads (s : State) (ps : List Pending) : (s.postAll ps).upads = s.upads := rfl
@[simp] theorem State.postAll_kpads (s : State) (ps : List Pending) : (s.postAll ps).kpads = s.kpads := rfl
@[simp] theorem State.postAll_dpads (s : State) (ps : List Pending) : (s.postAll ps).dpads = s.dpads := rfl
@[simp] theorem State.postAll_gmem (s : State) (ps : List Pending) : (s.postAll ps).gmem = s.gmem := rfl
@[simp] theorem State.postAll_code (s : State) (ps : List Pending) : (s.postAll ps).code = s.code := rfl
@[simp] theorem State.postAll_codeTop (s : State) (ps : List Pending) : (s.postAll ps).codeTop = s.codeTop := rfl
@[simp] theorem State.postAll_ctxs (s : State) (ps : List Pending) : (s.postAll ps).ctxs = s.ctxs := rfl
@[simp] theorem State.postAll_holds (s : State) (ps : List Pending) : (s.postAll ps).holds = s.holds := rfl
@[simp] theorem State.postAll_nextHold (s : State) (ps : List Pending) : (s.postAll ps).nextHold = s.nextHold := rfl
@[simp] theorem State.postAll_kernels (s : State) (ps : List Pending) : (s.postAll ps).kernels = s.kernels := rfl
@[simp] theorem State.postAll_staged (s : State) (ps : List Pending) : (s.postAll ps).staged = s.staged := rfl
@[simp] theorem State.postAll_barriers (s : State) (ps : List Pending) : (s.postAll ps).barriers = s.barriers := rfl
@[simp] theorem State.postAll_runs (s : State) (ps : List Pending) : (s.postAll ps).runs = s.runs := rfl
@[simp] theorem State.postAll_host (s : State) (ps : List Pending) : (s.postAll ps).host = s.host := rfl
@[simp] theorem State.postAll_power (s : State) (ps : List Pending) : (s.postAll ps).power = s.power := rfl
@[simp] theorem State.postAll_links (s : State) (ps : List Pending) : (s.postAll ps).links = s.links := rfl
@[simp] theorem State.postAll_log (s : State) (ps : List Pending) : (s.postAll ps).log = s.log := rfl
@[simp] theorem State.postAll_watchdog (s : State) (ps : List Pending) : (s.postAll ps).watchdog = s.watchdog := rfl
@[simp] theorem State.postAll_time (s : State) (ps : List Pending) : (s.postAll ps).time = s.time := rfl
@[simp] theorem State.postAll_turns (s : State) (ps : List Pending) : (s.postAll ps).turns = s.turns := rfl
@[simp] theorem State.postAll_cur (s : State) (ps : List Pending) : (s.postAll ps).cur = s.cur := rfl
@[simp] theorem State.postAll_steps (s : State) (ps : List Pending) : (s.postAll ps).steps = s.steps := rfl
@[simp] theorem State.postAll_fresh (s : State) (ps : List Pending) : (s.postAll ps).fresh = s.fresh := rfl
@[simp] theorem State.postAll_pushes (s : State) (ps : List Pending) : (s.postAll ps).pushes = s.pushes := rfl
@[simp] theorem State.postAll_dead (s : State) (ps : List Pending) : (s.postAll ps).dead = s.dead := rfl

-- The acting core.

@[simp] theorem State.core_setCore (s : State) (c : Core) : (s.setCore c).core = c := by
  simp [State.core, State.setCore]

@[simp] theorem State.core_upd (s : State) (f : Core → Core) : (s.upd f).core = f s.core := by
  simp [State.upd]

/-- An update of the acting core leaves every other core as it is. -/
theorem State.other_core (s : State) (f : Core → Core) (i : Fin 128) (h : i ≠ s.cur) :
    (s.upd f).cores[i] = s.cores[i] := by
  have h' : s.cur.val ≠ i.val := fun e => h (Fin.ext e.symm)
  simp [State.upd, State.setCore, h']

@[simp] theorem State.core_updFetch (s : State) (f : Fetch → Fetch) :
    (s.updFetch f).core = { s.core with fetch := f s.core.fetch } := by
  simp [State.updFetch]

@[simp] theorem State.core_updRegs (s : State) (f : Regs → Regs) :
    (s.updRegs f).core = { s.core with regs := f s.core.regs } := by
  simp [State.updRegs]

@[simp] theorem State.core_updTrap (s : State) (f : TrapRegs → TrapRegs) :
    (s.updTrap f).core = { s.core with trap := f s.core.trap } := by
  simp [State.updTrap]

@[simp] theorem State.core_updEng (s : State) (f : Engines → Engines) :
    (s.updEng f).core = { s.core with eng := f s.core.eng } := by
  simp [State.updEng]

@[simp] theorem State.core_updMe (s : State) (f : Matrix → Matrix) :
    (s.updMe f).core = { s.core with me := f s.core.me } := by
  simp [State.updMe]

@[simp] theorem State.core_updVec (s : State) (f : Vec → Vec) :
    (s.updVec f).core = { s.core with vec := f s.core.vec } := by
  simp [State.updVec]

@[simp] theorem State.core_updCpy (s : State) (f : Copies → Copies) :
    (s.updCpy f).core = { s.core with cpy := f s.core.cpy } := by
  simp [State.updCpy]

@[simp] theorem State.core_updWork (s : State) (f : Work → Work) :
    (s.updWork f).core = { s.core with work := f s.core.work } := by
  simp [State.updWork]

@[simp] theorem State.core_setDest (s : State) (d : Dest) (v : Word) :
    (s.setDest d v).core = { s.core with regs := s.core.regs.setDest d v } := by
  simp [State.setDest]

@[simp] theorem State.core_advance (s : State) :
    s.advance.core =
      { s.core with
        fetch := { s.core.fetch with lane := s.core.fetch.lane + 1, stalled := false, waited := false, moved := 0 } } := by
  simp [State.advance]

@[simp] theorem State.core_pendTrap (s : State) (t : TrapReq) :
    (s.pendTrap t).core = { s.core with trap := { s.core.trap with pending := s.core.trap.pending ++ [t] } } := by
  simp [State.pendTrap]

@[simp] theorem State.core_draw (s : State)  : (s.draw).core = s.core := rfl
@[simp] theorem State.core_logEvent (s : State) (k sp : Nat) (a : Word) (p c : Nat) (e : Eng) : (s.logEvent k sp a p c e).core = s.core := rfl
@[simp] theorem State.core_logFor (s : State) (i k sp : Nat) (a : Word) (p c : Nat) (e : Eng) : (s.logFor i k sp a p c e).core = s.core := rfl
@[simp] theorem State.core_signal (s : State) (v : Nat) : (s.signal v).core = s.core := rfl
@[simp] theorem State.core_updPower (s : State) (f : Power → Power) : (s.updPower f).core = s.core := rfl
@[simp] theorem State.core_updHost (s : State) (f : Port → Port) : (s.updHost f).core = s.core := rfl
@[simp] theorem State.core_addHold (s : State) (c : Fin 64) (e : Nat) (p : Bool) : (s.addHold c e p).core = s.core := rfl
@[simp] theorem State.core_dropHolds (s : State) (l : List Nat) : (s.dropHolds l).core = s.core := rfl
@[simp] theorem State.core_setPad (s : State) (l : Loc) (p : Pad) : (s.setPad l p).core = s.core := by cases l <;> rfl
@[simp] theorem State.core_perform (s : State) (l : Loc) (cs : List Host.Cell) : (s.perform l cs).core = s.core := by cases l <;> rfl
@[simp] theorem State.core_setBad (s : State) (l : Loc) (as : List Nat) (m : Option Nat) : (s.setBad l as m).core = s.core := by cases l <;> rfl
@[simp] theorem State.core_performOne (s : State) (p : Pending) : (s.performOne p).core = s.core := by
  simp [State.performOne]

end Sys2Proof.Machine
end

