-- ==== Sys2Proof/Laws/Frame.lean ====
section
/-! SUPPORT. Frames: what an update of the acting core leaves alone, and the one thing a completed lane with a
result can do. -/
namespace Sys2Proof.Machine

theorem onlyCore_refl (s : State) : OnlyCore s s := ⟨rfl, fun _ _ => rfl⟩

theorem onlyCore_upd (s : State) (f : Core → Core) : OnlyCore s (s.upd f) :=
  ⟨rfl, fun i h => State.other_core s f i h⟩

theorem OnlyCore.cur_eq {s t : State} (h : OnlyCore s t) : t.cur = s.cur := by
  have := congrArg State.cur h.1
  simpa using this

theorem OnlyCore.trans {s t u : State} (h : OnlyCore s t) (k : OnlyCore t u) : OnlyCore s u := by
  refine ⟨?_, fun i hi => ?_⟩
  · rw [← h.1, ← k.1]
  · rw [k.2 i (by rw [h.cur_eq]; exact hi), h.2 i hi]

/-- An update after an update is one update. -/
theorem State.upd_upd (s : State) (f g : Core → Core) : (s.upd f).upd g = s.upd fun c => g (f c) := by
  simp [State.upd, State.setCore, State.core]

theorem State.upd_id (s : State) : (s.upd fun c => c) = s := by
  simp [State.upd, State.setCore, State.core]

/-- Two updates of the acting core with equal results are equal states. -/
theorem State.upd_congr (s : State) (f g : Core → Core) (h : f s.core = g s.core) : s.upd f = s.upd g := by
  simp [State.upd, h]

theorem State.setDest_advance (s : State) (d : Dest) (v : Word) :
    (s.setDest d v).advance = s.upd fun c =>
      { c with
        regs := c.regs.setDest d v
        fetch := { c.fetch with lane := c.fetch.lane + 1, stalled := false, waited := false, moved := 0 } } := by
  simp [State.setDest, State.advance, State.updRegs, State.updFetch, State.upd_upd]

@[simp] theorem vgen_get {α : Type} (n : Nat) (f : Nat → α) (i : Nat) (h : i < n) : (vgen n f)[i] = f i := by
  simp [vgen]

theorem vget_lt {α : Type} {n : Nat} (v : Vector α n) (i : Nat) (d : α) (h : i < n) : vget v i d = v[i] := by
  simp [vget, h, List.getD_eq_getElem?_getD]

/-- The queue after a push: the value, and every earlier entry one older (R76). -/
theorem Regs.pushQ_get (r : Regs) (v : Word) (i : Fin 16) :
    (r.pushQ v).q[i] = if i = 0 then v else r.q[i - 1] := by
  by_cases h : i = 0
  · subst h; simp [Regs.pushQ]
  · have h0 : i.val ≠ 0 := fun e => h (Fin.ext e)
    have h1 : (i - 1).val = i.val - 1 := by
      have := i.isLt
      simp only [Fin.sub_def]
      show (16 - 1 + i.val) % 16 = i.val - 1
      omega
    have h2 : i.val - 1 < 16 := by omega
    simp only [Regs.pushQ, Fin.getElem_fin, vgen_get _ _ _ i.isLt, h0, if_false, h, h1]
    exact vget_lt _ _ _ h2

theorem Regs.setDest_n (r : Regs) (d : Dest) (v : Word) (i : Fin 16) :
    (r.setDest d v).n[i] = if d = .n i then v else r.n[i] := by
  cases d with
  | push => simp [Regs.setDest, Regs.pushQ]
  | n j =>
    by_cases h : j = i
    · subst h; simp [Regs.setDest]
    · have h' : j.val ≠ i.val := fun e => h (Fin.ext e)
      simp [Regs.setDest, h, h']

theorem Regs.setDest_q (r : Regs) (d : Dest) (v : Word) (i : Fin 16) :
    (r.setDest d v).q[i] = if i = 0 then v else r.q[i - 1] := by
  cases d <;> exact Regs.pushQ_get r v i

/-- The destination rule (R59, R76), as claims state it. -/
theorem delivers_of_regs {s t : State} {d : Dest} {v : Word} (h : t.core.regs = s.core.regs.setDest d v) :
    Delivers s t d v := by
  refine ⟨fun i => ?_, fun i => ?_, ?_⟩
  · rw [h]; exact Regs.setDest_n _ _ _ i
  · rw [h]; exact Regs.setDest_q _ _ _ i
  · rw [h]; cases d <;> rfl

/-- All that a lane with a result does. -/
theorem results_of {i : Instr} {s : State} {d : Dest} {v : Word} (h : exec i s = result d v s) :
    Results i s d v := by
  refine ⟨(s.setDest d v).advance, h, ⟨?_, ?_⟩, ?_, delivers_of_regs ?_⟩
  · rw [State.setDest_advance]; exact onlyCore_upd _ _
  · simp
  · simp [NextLane]
  · simp

theorem Results.congr {i : Instr} {s : State} {d : Dest} {v w : Word} (h : Results i s d v) (e : v = w) :
    Results i s d w := e ▸ h

-- Each named update of the acting core.

theorem onlyCore_updFetch (s : State) (f : Fetch → Fetch) : OnlyCore s (s.updFetch f) := onlyCore_upd _ _
theorem onlyCore_updRegs (s : State) (f : Regs → Regs) : OnlyCore s (s.updRegs f) := onlyCore_upd _ _
theorem onlyCore_updTrap (s : State) (f : TrapRegs → TrapRegs) : OnlyCore s (s.updTrap f) := onlyCore_upd _ _
theorem onlyCore_updEng (s : State) (f : Engines → Engines) : OnlyCore s (s.updEng f) := onlyCore_upd _ _
theorem onlyCore_updMe (s : State) (f : Matrix → Matrix) : OnlyCore s (s.updMe f) := onlyCore_upd _ _
theorem onlyCore_updVec (s : State) (f : Vec → Vec) : OnlyCore s (s.updVec f) := onlyCore_upd _ _
theorem onlyCore_updCpy (s : State) (f : Copies → Copies) : OnlyCore s (s.updCpy f) := onlyCore_upd _ _
theorem onlyCore_updWork (s : State) (f : Work → Work) : OnlyCore s (s.updWork f) := onlyCore_upd _ _
theorem onlyCore_advance (s : State) : OnlyCore s s.advance := onlyCore_upd _ _
theorem onlyCore_setDest (s : State) (d : Dest) (v : Word) : OnlyCore s (s.setDest d v) := onlyCore_upd _ _
theorem onlyCore_pendTrap (s : State) (t : TrapReq) : OnlyCore s (s.pendTrap t) := onlyCore_upd _ _

-- How a lane ends.

@[simp] theorem finish_done (s : State) : finish (.done s) = .next s.advance := rfl
@[simp] theorem finish_stall (s : State) : finish (.stall s) = .next s.stallLane := rfl
@[simp] theorem finish_wait (s : State) : finish (.wait s) = .next s := rfl
@[simp] theorem finish_goes (s : State) : finish (.goes s) = .next s := rfl

/-- A trap that can be taken is one update of the acting core. -/
theorem State.enterTrap_core {s : State} (h : CanTrap s) (t : TrapReq) (line : Word) (lane : Nat) :
    OnlyCore s (s.enterTrap t line lane) ∧ Trapped s (s.enterTrap t line lane) t.code t.info t.eng line lane := by
  unfold State.enterTrap
  rw [if_neg (by simpa [h.2] using h.1)]
  exact ⟨onlyCore_upd _ _, by simp [Trapped, pcOf]⟩

/-- A lane that ends in a trap its handler can take. -/
theorem trapsHere_of {i : Instr} {s : State} {code : Nat} {info : Word} (ht : CanTrap s) (hc : code ≠ 0x14)
    (h : exec i s = finish (.trap code info s)) : TrapsHere i s code (s.laneInfo info) := by
  have k := State.enterTrap_core ht { code, info := s.laneInfo info, eng := .cc } s.core.fetch.line
    s.core.fetch.lane
  refine ⟨_, h, ?_, ?_⟩
  · rw [if_neg hc]; exact k.1
  · rw [if_neg hc]; exact k.2

end Sys2Proof.Machine
end

