-- ==== Sys2Proof/Laws/Late.lean ====
section
/-! SUPPORT. Late results: where none is open nothing of them happens, and what it changes to leave one to come. -/
namespace Sys2Proof.Machine

-- Nothing is open.

theorem State.closeLates_of_none (s : State) (which : Late → Bool) (h : s.core.opened = []) :
    s.closeLates which = s := by
  simp [State.closeLates, h]

theorem State.wordsFirst_of_none (s : State) (i : Instr) (h : s.core.opened = []) : s.wordsFirst i = s := by
  simp [State.wordsFirst, h]

theorem State.settleLate_of_none (s : State) (a : Act) (h : s.core.opened = []) : s.settleLate a = s := by
  simp [State.settleLate, h]

/-- Nothing waits for the turn's core, no lease, window or switch is due, and no port writes: the turn acts in the state
that its time leaves, but for late results and an armed stop. -/
theorem State.begin_of_quiet (s : State) (t : Turn) (hr : (s.pass t.core).host.ready = false)
    (hl : (s.pass t.core).power.leases = []) (hs : (s.pass t.core).power.switching = 0)
    (hw : (s.pass t.core).core.outWrites = []) (ht : (s.pass t.core).core.leaseTraps = [])
    (ho : (s.pass t.core).core.vec.owed = []) (hp : (s.pass t.core).core.work.preempt = none) (hf : t.fill = none)
    (hc : t.cell = none) :
    s.begin t = if ((s.pass t.core).settleLate t.act).core.stopDue then ((s.pass t.core).settleLate t.act).stopCore
      else (s.pass t.core).settleLate t.act := by
  have h : ((((s.pass t.core).takeReading t.act).windowEnd t.act).expireDue t.act.revokes).switchDue.settleCore =
      s.pass t.core := by
    simp [State.takeReading, State.windowEnd, hr, State.expireDue, hl, State.switchDue, hs, State.settleCore, hw, ht,
      State.landWrites, State.landTraps, ho, hp]
  simp only [State.begin, h, hf, State.cellError, hc]

-- A result is left to come.

/-- Leaving a result to come adds it to the core's late results, and a hold of its buffer; nothing else changes. -/
theorem State.open_eq (s : State) (op : LateOp) (d : Dest) : ∃ (o : Late) (hs : List (Nat × Fin 64 × Nat × Bool)) (n : Nat), o.pos = 0 ∧
    s.open_ op d = { s with
      cores := s.cores.set s.cur { s.core with opened := s.core.opened ++ [o] }, holds := hs, nextHold := n } := by
  unfold State.open_
  cases op <;> dsimp only <;> first
    | exact ⟨_, _, _, rfl, rfl⟩
    | (split <;> exact ⟨_, _, _, rfl, rfl⟩)

/-- After an instruction nothing changes but which results of the acting core are still to come, and the holds of their
buffers. -/
theorem State.noteLate_eq (s t : State) (i : Instr) : ∃ (os : List Late) (hs : List (Nat × Fin 64 × Nat × Bool)) (n : Nat),
    s.noteLate t i = { t with
      cores := t.cores.set t.cur { t.core with opened := os }, holds := hs, nextHold := n } := by
  have keep : ∃ (os : List Late) (hs : List (Nat × Fin 64 × Nat × Bool)) (n : Nat), t = { t with
      cores := t.cores.set t.cur { t.core with opened := os }, holds := hs, nextHold := n } :=
    ⟨t.core.opened, t.holds, t.nextHold, by
      have h : t.cores.set t.cur t.core = t.cores := by
        ext j hj; simp only [Vector.getElem_set]; split <;> simp_all [State.core]
      exact congrArg (fun c => { t with cores := c }) h.symm⟩
  have age : ∀ f : Late → Late, ∃ (os : List Late) (hs : List (Nat × Fin 64 × Nat × Bool)) (n : Nat),
      (t.upd fun c => { c with opened := c.opened.map f }) = { t with
        cores := t.cores.set t.cur { t.core with opened := os }, holds := hs, nextHold := n } := fun f =>
    ⟨_, t.holds, t.nextHold, rfl⟩
  have open_ : ∀ (f : Late → Late) (op : LateOp) (d : Dest), ∃ (os : List Late)
      (hs : List (Nat × Fin 64 × Nat × Bool)) (n : Nat),
      (t.upd fun c => { c with opened := c.opened.map f }).open_ op d = { t with
        cores := t.cores.set t.cur { t.core with opened := os }, holds := hs, nextHold := n } := fun f op d => by
    obtain ⟨o, hs, n, -, h⟩ := State.open_eq (t.upd fun c => { c with opened := c.opened.map f }) op d
    exact ⟨_, hs, n, by rw [h]; simp [State.upd, State.setCore, State.core]; rfl⟩
  unfold State.noteLate
  dsimp only
  split
  · exact keep
  · split
    · exact age _
    · split
      · exact keep
      · split
        · split
          · exact open_ _ _ _
          · exact age _
        · exact age _

end Sys2Proof.Machine
end

