-- ==== Sys2Proof/Laws/Memory.lean ====
section
/-! SUPPORT. Memory: a read after a write, the canonical form every memory operation keeps, and what performing
stores leaves alone. -/
namespace Sys2Proof.Machine

-- Sparse storage.

theorem smapGet_nil {V : Type} (k : Nat) : smapGet ([] : SMap V) k = none := rfl

theorem smapGet_cons {V : Type} (m : SMap V) (k' : Nat) (v : V) (k : Nat) :
    smapGet ((k', v) :: m) k = if k = k' then some v else smapGet m k := by
  by_cases h : k = k'
  · simp [smapGet, h]
  · have : (k == k') = false := by simpa using h
    simp [smapGet, List.lookup_cons, h, this]

theorem smapGet_del {V : Type} (m : SMap V) (k j : Nat) :
    smapGet (smapDel m k) j = if j = k then none else smapGet m j := by
  induction m with
  | nil => simp [smapDel, smapGet_nil]
  | cons c m ih =>
    obtain ⟨k', v⟩ := c
    by_cases h : k' = k
    · simp only [smapDel, if_pos h, ih, smapGet_cons]
      by_cases hj : j = k <;> simp_all
    · simp only [smapDel, if_neg h, ih, smapGet_cons]
      by_cases hj : j = k'
      · simp [hj, h]
      · simp [hj]

theorem smapGet_put {V : Type} (m : SMap V) (k j : Nat) (v : V) :
    smapGet (smapPut m k v) j = if j = k then some v else smapGet m j := by
  induction m with
  | nil => simp [smapPut, smapGet_cons, smapGet_nil]
  | cons c m ih =>
    obtain ⟨k', v'⟩ := c
    simp only [smapPut]
    split
    · simp only [smapGet_cons]
    · split
      · rename_i h1 h2; subst h2
        simp only [smapGet_cons]; split <;> rfl
      · rename_i h1 h2
        simp only [smapGet_cons, ih]
        by_cases hj : j = k'
        · simp [hj, Ne.symm h2]
        · simp [hj]

theorem smapGet_set {V : Type} [DecidableEq V] (d : V) (m : SMap V) (k j : Nat) (v : V) :
    (smapGet (smapSet d m k v) j).getD d = if j = k then v else (smapGet m j).getD d := by
  unfold smapSet
  split
  · rename_i h; rw [smapGet_del]; split <;> simp [h]
  · rw [smapGet_put]; split <;> rfl

-- One byte, and many.

/-- A read after a write. -/
theorem readByte_writeByte (m : Memory) (a x : Nat) (b : Byte) :
    readByte (writeByte m a b) x = if x = a then b else readByte m x := smapGet_set unlisted m a x b

theorem writeCells_cons (m : Memory) (c : Host.Cell) (cs : List Host.Cell) :
    writeCells m (c :: cs) = writeCells (writeByte m c.1 c.2) cs := rfl

theorem writeCells_append (m : Memory) (cs ds : List Host.Cell) :
    writeCells m (cs ++ ds) = writeCells (writeCells m cs) ds := by simp [writeCells]

theorem readByte_writeCells_other (m : Memory) (cs : List Host.Cell) (x : Nat)
    (h : ∀ c ∈ cs, c.1 ≠ x) : readByte (writeCells m cs) x = readByte m x := by
  induction cs generalizing m with
  | nil => rfl
  | cons c cs ih =>
    rw [writeCells_cons, ih _ fun d hd => h d (List.mem_cons_of_mem _ hd), readByte_writeByte,
      if_neg fun e => h c List.mem_cons_self e.symm]

/-- A byte after many writes is one of those written, or the one before. -/
theorem readByte_writeCells_or (m : Memory) (cs : List Host.Cell) (x : Nat) :
    readByte (writeCells m cs) x = readByte m x ∨ (x, readByte (writeCells m cs) x) ∈ cs := by
  induction cs generalizing m with
  | nil => exact .inl rfl
  | cons c cs ih =>
    rw [writeCells_cons]
    rcases ih (writeByte m c.1 c.2) with h | h
    · rw [h, readByte_writeByte]
      by_cases hx : x = c.1
      · rw [if_pos hx, hx]; exact .inr List.mem_cons_self
      · rw [if_neg hx]; exact .inl rfl
    · exact .inr (List.mem_cons_of_mem _ h)

theorem leNat_leBytes (w x : Nat) : leNat (leBytes w x) = x % 256 ^ w := by
  induction w generalizing x with
  | zero => simp [leBytes, leNat, Nat.mod_one]
  | succ w ih =>
    rw [leBytes, leNat, ih, Nat.pow_succ', Nat.mod_mul, BitVec.toNat_ofNat]

theorem leBytes_length (w x : Nat) : (leBytes w x).length = w := by
  induction w generalizing x with
  | zero => rfl
  | succ w ih => simp [leBytes, ih]

/-- Bytes written at distinct addresses are read back. -/
theorem map_readByte_zip (m : Memory) (as : List Nat) (bs : List Byte) (hn : as.Nodup)
    (hl : as.length = bs.length) : as.map (readByte (writeCells m (as.zip bs))) = bs := by
  induction as generalizing m bs with
  | nil => simpa using hl.symm
  | cons a as ih =>
    cases bs with
    | nil => simp at hl
    | cons b bs =>
      have ha : a ∉ as := (List.nodup_cons.mp hn).1
      simp only [List.zip_cons_cons, List.map_cons, writeCells_cons]
      congr 1
      · rw [readByte_writeCells_other _ _ _ fun c hc e => by
          have k := (List.of_mem_zip (show (c.1, c.2) ∈ as.zip bs from hc)).1
          rw [e] at k; exact ha k,
          readByte_writeByte, if_pos rfl]
      · exact ih _ _ (List.nodup_cons.mp hn).2 (by simpa using hl)

-- The canonical form.

theorem smapDel_sub (m : Memory) (k : Nat) : (smapDel m k).Sublist m := by
  induction m with
  | nil => exact .slnil
  | cons c m ih =>
    obtain ⟨k', v⟩ := c
    simp only [smapDel]
    split
    · exact ih.cons _
    · exact ih.cons_cons _

theorem Memory.wf_sub {m n : Memory} (h : Memory.wf n) (hs : m.Sublist n) : Memory.wf m :=
  ⟨h.1.sublist hs, fun c hc => h.2 c (hs.mem hc)⟩

theorem mem_smapPut {m : Memory} {k : Nat} {v : Byte} {c : Host.Cell} (h : c ∈ smapPut m k v) :
    c = (k, v) ∨ c ∈ m := by
  induction m with
  | nil => exact .inl (by simpa [smapPut] using h)
  | cons d m ih =>
    obtain ⟨k', v'⟩ := d
    simp only [smapPut] at h
    split at h
    · rcases List.mem_cons.mp h with h | h
      · exact .inl h
      · exact .inr h
    · split at h
      · rcases List.mem_cons.mp h with h | h
        · exact .inl h
        · exact .inr (List.mem_cons_of_mem _ h)
      · rcases List.mem_cons.mp h with h | h
        · exact .inr (h ▸ List.mem_cons_self)
        · exact (ih h).imp id (List.mem_cons_of_mem _)

theorem wf_smapPut {m : Memory} (h : Memory.wf m) (k : Nat) {v : Byte} (hv : v ≠ 0) :
    Memory.wf (smapPut m k v) := by
  refine ⟨?_, fun c hc => ?_⟩
  · have hp := h.1
    clear h
    induction m with
    | nil => simp [smapPut]
    | cons d m ih =>
      obtain ⟨k', v'⟩ := d
      have hd := List.pairwise_cons.mp hp
      simp only [smapPut]
      split
      · rename_i hk
        refine List.pairwise_cons.mpr ⟨fun c hc => ?_, hp⟩
        rcases List.mem_cons.mp hc with hc | hc
        · exact hc ▸ hk
        · exact Nat.lt_trans hk (hd.1 c hc)
      · split
        · rename_i h1 h2; subst h2
          exact List.pairwise_cons.mpr ⟨hd.1, hd.2⟩
        · rename_i h1 h2
          refine List.pairwise_cons.mpr ⟨fun c hc => ?_, ih hd.2⟩
          rcases mem_smapPut hc with hc | hc
          · rw [hc]; show k' < k; omega
          · exact hd.1 c hc
  · rcases mem_smapPut hc with hc | hc
    · rw [hc]; exact hv
    · exact h.2 c hc

theorem wf_writeByte {m : Memory} (h : Memory.wf m) (a : Nat) (b : Byte) : Memory.wf (writeByte m a b) := by
  unfold writeByte smapSet
  split
  · exact Memory.wf_sub h (smapDel_sub m a)
  · rename_i hb; exact wf_smapPut h a hb

theorem wf_writeCells {m : Memory} (h : Memory.wf m) (cs : List Host.Cell) : Memory.wf (writeCells m cs) := by
  induction cs generalizing m with
  | nil => exact h
  | cons c cs ih => exact ih (wf_writeByte h c.1 c.2)

theorem wf_writeBytes {m : Memory} (h : Memory.wf m) (a : Nat) (bs : List Byte) :
    Memory.wf (writeBytes m a bs) := by
  induction bs generalizing m a with
  | nil => exact h
  | cons b bs ih => exact ih (wf_writeByte h a b) _

theorem wf_nil : Memory.wf [] := ⟨.nil, fun _ h => by cases h⟩

theorem mem_cellsFrom {a : Nat} {bs : List Byte} {c : Host.Cell} (h : c ∈ cellsFrom a bs) :
    a ≤ c.1 ∧ c.1 < a + bs.length := by
  induction bs generalizing a with
  | nil => cases h
  | cons b bs ih =>
    rcases List.mem_cons.mp h with h | h
    · subst h; simp
    · have := ih h; simp only [List.length_cons]; omega

theorem cellsFrom_rising (a : Nat) (bs : List Byte) : (cellsFrom a bs).Pairwise fun x y => x.1 < y.1 := by
  induction bs generalizing a with
  | nil => exact .nil
  | cons b bs ih => exact List.pairwise_cons.mpr ⟨fun c hc => (mem_cellsFrom hc).1, ih _⟩

theorem mem_dropWhile_rising {m : Memory} (h : m.Pairwise fun x y => x.1 < y.1) (n : Nat) {c : Host.Cell}
    (hc : c ∈ m.dropWhile fun c => decide (c.1 < n)) : n ≤ c.1 := by
  induction m with
  | nil => cases hc
  | cons d m ih =>
    have hd := List.pairwise_cons.mp h
    rw [List.dropWhile_cons] at hc
    split at hc
    · exact ih hd.2 hc
    · rename_i hk
      have hk : n ≤ d.1 := by simpa using hk
      rcases List.mem_cons.mp hc with e | e
      · exact e ▸ hk
      · exact Nat.le_trans hk (Nat.le_of_lt (hd.1 c e))

theorem mem_takeWhile_lt {m : Memory} {n : Nat} {c : Host.Cell}
    (hc : c ∈ m.takeWhile fun c => decide (c.1 < n)) : c.1 < n := by
  have := List.all_takeWhile (l := m) (p := fun c => decide (c.1 < n))
  rw [List.all_eq_true] at this
  simpa using this c hc

theorem wf_writeRun {m : Memory} (h : Memory.wf m) (a : Nat) (bs : List Byte) : Memory.wf (writeRun m a bs) := by
  unfold writeRun
  constructor
  · rw [List.pairwise_append, List.pairwise_append]
    refine ⟨⟨h.1.sublist (List.takeWhile_sublist _), (cellsFrom_rising a bs).sublist List.filter_sublist,
      fun x hx y hy => ?_⟩, h.1.sublist (List.dropWhile_sublist _), fun x hx y hy => ?_⟩
    · exact Nat.lt_of_lt_of_le (mem_takeWhile_lt hx) (mem_cellsFrom (List.mem_filter.mp hy).1).1
    · have hy := mem_dropWhile_rising h.1 _ hy
      rcases List.mem_append.mp hx with hx | hx
      · exact Nat.lt_of_lt_of_le (mem_takeWhile_lt hx) (by omega)
      · exact Nat.lt_of_lt_of_le (mem_cellsFrom (List.mem_filter.mp hx).1).2 hy
  · intro c hc
    rcases List.mem_append.mp hc with hc | hc
    · rcases List.mem_append.mp hc with hc | hc
      · exact h.2 c ((List.takeWhile_sublist _).mem hc)
      · exact (show c.2 ≠ unlisted from of_decide_eq_true (List.mem_filter.mp hc).2)
    · exact h.2 c ((List.dropWhile_sublist _).mem hc)

-- Places.

theorem vget_vset {α : Type} {n : Nat} (v : Vector α n) (i j : Nat) (x d : α) :
    vget (vset v i x) j d = if j = i ∧ i < n then x else vget v j d := by
  by_cases hj : j < n
  · rw [vget_lt _ _ _ hj, vget_lt _ _ _ hj]
    by_cases h : j = i
    · subst h; simp [vset, hj]
    · simp [vset, h, Ne.symm h]
  · have h1 : vget (vset v i x) j d = d := by simp [vget, hj]
    have h2 : vget v j d = d := by simp [vget, hj]
    rw [h1, h2, if_neg]; omega

theorem State.padAt_setPad (s : State) (l l' : Loc) (p : Pad) :
    (s.setPad l p).padAt l' = if l' = l ∧ l.valid = true then p else s.padAt l' := by
  cases l <;> cases l' <;> simp [State.setPad, State.padAt, Loc.valid, vget_vset]

/-- A unit that is dead no more is no other memory (R129). -/
theorem State.padAt_revive (s : State) (l l' : Loc) (as : List Nat) : (s.revive l as).padAt l' = s.padAt l' := by
  unfold State.revive
  split <;> rfl

/-- A byte after bytes were performed at a place. -/
theorem State.byteAt_perform (s : State) (l l' : Loc) (cs : List Host.Cell) (a : Nat) :
    (s.perform l cs).byteAt l' a =
      if l' = l ∧ l.valid = true then readByte (writeCells (s.padAt l).mem cs) a else s.byteAt l' a := by
  unfold State.byteAt State.perform
  rw [State.padAt_revive, State.padAt_setPad]
  split <;> rfl

theorem State.byteAt_perform_or (s : State) (l l' : Loc) (cs : List Host.Cell) (a : Nat) :
    (s.perform l cs).byteAt l' a = s.byteAt l' a ∨ (l' = l ∧ (a, (s.perform l cs).byteAt l' a) ∈ cs) := by
  rw [State.byteAt_perform]
  split
  · rename_i h
    obtain ⟨h, -⟩ := h; subst h
    exact (readByte_writeCells_or _ cs a).imp id fun k => ⟨rfl, k⟩
  · exact .inl rfl

theorem State.byteAt_perform_other (s : State) (l l' : Loc) (cs : List Host.Cell) (a : Nat)
    (h : l' ≠ l ∨ ∀ c ∈ cs, c.1 ≠ a) : (s.perform l cs).byteAt l' a = s.byteAt l' a := by
  rw [State.byteAt_perform]
  split
  · rename_i k
    obtain ⟨k, -⟩ := k; subst k
    rcases h with h | h
    · exact absurd rfl h
    · exact readByte_writeCells_other _ _ _ h
  · rfl

/-- Bytes performed at distinct addresses of a place that exists are read back. -/
theorem State.map_byteAt_perform (s : State) (l : Loc) (as : List Nat) (bs : List Byte) (hv : l.valid = true)
    (hn : as.Nodup) (hl : as.length = bs.length) :
    as.map ((s.perform l (as.zip bs)).byteAt l) = bs := by
  rw [← map_readByte_zip (s.padAt l).mem as bs hn hl]
  apply List.map_congr_left
  intro a _
  rw [State.byteAt_perform, if_pos ⟨rfl, hv⟩, map_readByte_zip _ _ _ hn hl]

-- Pending stores that are performed.

theorem State.coreAt_cur (s : State) : s.coreAt s.cur.val = s.core := vget_lt _ _ _ s.cur.isLt

theorem State.updAt_acting (s : State) (f : Core → Core) : s.updAt s.cur.val f = s.upd f := by
  have h : vset s.cores s.cur.val (f s.core) = s.cores.set s.cur (f s.core) := by
    ext i hi
    simp only [vset, Vector.getElem_setIfInBounds, Vector.getElem_set]
  simp only [State.updAt, State.upd, State.setCore, State.coreAt_cur, h]

theorem State.performOne_byteAt (s : State) (p : Pending) (l : Loc) (a : Nat) :
    (s.performOne p).byteAt l a = (s.perform p.loc p.cells).byteAt l a := by
  cases l <;> rfl

/-- Whatever performing a list of stores keeps one by one, it keeps as a whole. -/
theorem foldl_performOne_keeps {α : Type} (f : State → α) (h : ∀ s p, f (State.performOne s p) = f s)
    (ps : List Pending) (s : State) : f (ps.foldl State.performOne s) = f s := by
  induction ps generalizing s with
  | nil => rfl
  | cons p ps ih => rw [List.foldl_cons, ih, h]

theorem foldl_performOne_byteAt (ps : List Pending) (s : State) (l : Loc) (a : Nat) :
    (ps.foldl State.performOne s).byteAt l a = s.byteAt l a ∨
      ∃ p ∈ ps, p.loc = l ∧ (a, (ps.foldl State.performOne s).byteAt l a) ∈ p.cells := by
  induction ps generalizing s with
  | nil => exact .inl rfl
  | cons p ps ih =>
    rw [List.foldl_cons]
    rcases ih (s.performOne p) with h | ⟨q, hq, hl, hc⟩
    · rw [h, State.performOne_byteAt]
      rcases State.byteAt_perform_or s p.loc l p.cells a with k | ⟨k1, k2⟩
      · exact .inl k
      · exact .inr ⟨p, List.mem_cons_self, k1.symm, k2⟩
    · exact .inr ⟨q, List.mem_cons_of_mem _ hq, hl, hc⟩


/-- Performing stores of the acting core's thread is performing them at their places and dropping them. -/
theorem State.performWhere_eq (s : State) (test : Pending → Bool) :
    s.performWhere test = ((s.core.pend.filter test).foldl State.performOne s).upd fun c =>
      { c with pend := s.core.pend.filter fun p => !test p } := by
  have hc : ((s.core.pend.filter test).foldl State.performOne s).cur = s.cur :=
    foldl_performOne_keeps State.cur (by simp) _ _
  have hu (t : State) (f : Core → Core) : t.upd f = t.updAt t.cur.val f := (State.updAt_acting t f).symm
  rw [hu]
  simp only [State.performWhere, State.performAt, State.coreAt_cur, hc]

theorem State.performWhere_cur (s : State) (test : Pending → Bool) : (s.performWhere test).cur = s.cur := by
  rw [State.performWhere_eq]; exact foldl_performOne_keeps State.cur (by simp) _ _

theorem State.foldl_performOne_core (s : State) (ps : List Pending) :
    (ps.foldl State.performOne s).core = s.core := by
  refine foldl_performOne_keeps State.core (fun s p => ?_) ps s
  simp [State.core]

/-- The acting core after stores of its thread are performed. -/
theorem State.performWhere_core (s : State) (test : Pending → Bool) :
    (s.performWhere test).core = { s.core with pend := s.core.pend.filter fun p => !test p } := by
  rw [State.performWhere_eq, State.core_upd, State.foldl_performOne_core]

theorem State.performWhere_other (s : State) (test : Pending → Bool) (i : Fin 128) (h : i ≠ s.cur) :
    (s.performWhere test).cores[i] = s.cores[i] := by
  have h2 := foldl_performOne_keeps State.cur (by simp) (s.core.pend.filter test) s
  rw [State.performWhere_eq, State.other_core _ _ _ (by rw [h2]; exact h),
    foldl_performOne_keeps State.cores (by simp)]

theorem State.performWhere_byteAt (s : State) (test : Pending → Bool) (l : Loc) (a : Nat) :
    (s.performWhere test).byteAt l a = s.byteAt l a ∨
      ∃ p ∈ s.core.pend, p.loc = l ∧ (a, (s.performWhere test).byteAt l a) ∈ p.cells := by
  have h : (s.performWhere test).byteAt l a =
      ((s.core.pend.filter test).foldl State.performOne s).byteAt l a := by
    rw [State.performWhere_eq]; cases l <;> rfl
  rw [h]
  rcases foldl_performOne_byteAt (s.core.pend.filter test) s l a with k | ⟨p, hp, k⟩
  · exact .inl k
  · exact .inr ⟨p, (List.mem_filter.mp hp).1, k⟩

@[simp] theorem State.performWhere_power (s : State) (test : Pending → Bool) :
    (s.performWhere test).power = s.power := by
  rw [State.performWhere_eq]; exact foldl_performOne_keeps State.power (by simp) _ _
@[simp] theorem State.performWhere_time (s : State) (test : Pending → Bool) :
    (s.performWhere test).time = s.time := by
  rw [State.performWhere_eq]; exact foldl_performOne_keeps State.time (by simp) _ _
@[simp] theorem State.performWhere_fresh (s : State) (test : Pending → Bool) :
    (s.performWhere test).fresh = s.fresh := by
  rw [State.performWhere_eq]; exact foldl_performOne_keeps State.fresh (by simp) _ _
@[simp] theorem State.performWhere_code (s : State) (test : Pending → Bool) :
    (s.performWhere test).code = s.code := by
  rw [State.performWhere_eq]; exact foldl_performOne_keeps State.code (by simp) _ _

end Sys2Proof.Machine
end

