-- ==== Sys2Proof/Laws/MemWf.lean ====
section
/-! SUPPORT. The canonical form of memory: it holds at reset, and the operations through which every instruction
reaches memory keep it. -/
namespace Sys2Proof.Machine

theorem vget_replicate {α : Type} (n i : Nat) (x : α) : vget (Vector.replicate n x) i x = x := by
  simp [vget, List.getD_eq_getElem?_getD, List.getElem?_replicate]
  split <;> rfl

theorem vget_mem {α : Type} {n : Nat} (v : Vector α n) (i : Nat) (d : α) : vget v i d = d ∨ vget v i d ∈ v.toList := by
  unfold vget
  rw [List.getD_eq_getElem?_getD]
  cases h : v.toList[i]? with
  | none => exact .inl rfl
  | some x => exact .inr (List.mem_of_getElem? h)

/-- The form, as a question about the lists that a state holds. -/
theorem State.memWf_of_lists {s : State} (hu : ∀ p ∈ s.upads.toList, Memory.wf p.mem)
    (hk : ∀ p ∈ s.kpads.toList, Memory.wf p.mem) (hd : ∀ p ∈ s.dpads.toList, Memory.wf p.mem)
    (hg : Memory.wf s.gmem.mem) (hc : Memory.wf s.code)
    (hm : ∀ i : Fin 128, Memory.wf s.cores[i].me.omem ∧ Memory.wf s.cores[i].me.amem) : s.memWf := by
  refine ⟨fun l => ?_, hc, hm⟩
  cases l with
  | u c => rcases vget_mem s.upads c { mem := [], bad := [] } with h | h
           · simp only [State.padAt, h]; exact wf_nil
           · exact hu _ h
  | k c => rcases vget_mem s.kpads c { mem := [], bad := [] } with h | h
           · simp only [State.padAt, h]; exact wf_nil
           · exact hk _ h
  | d c => rcases vget_mem s.dpads c { mem := [], bad := [] } with h | h
           · simp only [State.padAt, h]; exact wf_nil
           · exact hd _ h
  | g => exact hg

theorem State.reset_memWf : State.reset.memWf := by
  refine ⟨fun l => ?_, wf_nil, fun i => ?_⟩
  · have e : (State.reset.padAt l).mem = [] := by
      cases l <;> unfold State.padAt State.reset <;> simp only [vget_replicate]
    rw [e]
    exact wf_nil
  · have e : State.reset.cores[i] = Core.reset := by unfold State.reset; exact Vector.getElem_replicate ..
    rw [e]
    exact ⟨wf_nil, wf_nil⟩

/-- A state with the memories of another one has its form. -/
theorem State.memWf.congr {s t : State} (h : s.memWf) (hp : ∀ l, t.padAt l = s.padAt l) (hc : t.code = s.code)
    (hm : ∀ i : Fin 128, t.cores[i].me = s.cores[i].me) : t.memWf :=
  ⟨fun l => hp l ▸ h.1 l, hc ▸ h.2.1, fun i => hm i ▸ h.2.2 i⟩

theorem State.memWf.setPad {s : State} (h : s.memWf) (l : Loc) {p : Pad} (hp : Memory.wf p.mem) :
    (s.setPad l p).memWf := by
  refine ⟨fun l' => ?_, ?_, fun i => ?_⟩
  · rw [State.padAt_setPad]; split
    · exact hp
    · exact h.1 l'
  · cases l <;> exact h.2.1
  · cases l <;> exact h.2.2 i

theorem State.memWf.perform {s : State} (h : s.memWf) (l : Loc) (cs : List Host.Cell) : (s.perform l cs).memWf :=
  (h.setPad l (wf_writeCells (h.1 l) cs)).congr (fun _ => State.padAt_revive ..) (by cases l <;> rfl) fun _ => by
    cases l <;> rfl

theorem State.memWf.setBad {s : State} (h : s.memWf) (l : Loc) (as : List Nat) (m : Option Nat) :
    (s.setBad l as m).memWf :=
  h.setPad l (h.1 l)

/-- An update of the acting core that keeps the two memories of its matrix engine canonical. -/
theorem State.memWf.upd {s : State} (h : s.memWf) {f : Core → Core}
    (hf : Memory.wf (f s.core).me.omem ∧ Memory.wf (f s.core).me.amem) : (s.upd f).memWf := by
  refine ⟨h.1, h.2.1, fun i => ?_⟩
  by_cases e : i = s.cur
  · subst e
    have : (s.upd f).cores[s.cur] = f s.core := State.core_upd s f
    rw [this]; exact hf
  · rw [State.other_core s f i e]; exact h.2.2 i

/-- An update that leaves the matrix engine alone. -/
theorem State.memWf.upd_me {s : State} (h : s.memWf) {f : Core → Core} (hf : (f s.core).me = s.core.me) :
    (s.upd f).memWf :=
  h.upd (hf ▸ h.2.2 s.cur)

theorem State.memWf.updFetch {s : State} (h : s.memWf) (f : Fetch → Fetch) : (s.updFetch f).memWf := h.upd_me rfl
theorem State.memWf.updRegs {s : State} (h : s.memWf) (f : Regs → Regs) : (s.updRegs f).memWf := h.upd_me rfl
theorem State.memWf.updTrap {s : State} (h : s.memWf) (f : TrapRegs → TrapRegs) : (s.updTrap f).memWf := h.upd_me rfl
theorem State.memWf.updEng {s : State} (h : s.memWf) (f : Engines → Engines) : (s.updEng f).memWf := h.upd_me rfl
theorem State.memWf.updVec {s : State} (h : s.memWf) (f : Vec → Vec) : (s.updVec f).memWf := h.upd_me rfl
theorem State.memWf.updCpy {s : State} (h : s.memWf) (f : Copies → Copies) : (s.updCpy f).memWf := h.upd_me rfl
theorem State.memWf.updWork {s : State} (h : s.memWf) (f : Work → Work) : (s.updWork f).memWf := h.upd_me rfl
theorem State.memWf.setDest {s : State} (h : s.memWf) (d : Dest) (v : Word) : (s.setDest d v).memWf := h.updRegs _
theorem State.memWf.advance {s : State} (h : s.memWf) : s.advance.memWf := h.updFetch _
theorem State.memWf.pendTrap {s : State} (h : s.memWf) (t : TrapReq) : (s.pendTrap t).memWf := h.updTrap _

theorem State.memWf.updMe {s : State} (h : s.memWf) {f : Matrix → Matrix} (ho : Memory.wf (f s.core.me).omem)
    (ha : Memory.wf (f s.core.me).amem) : (s.updMe f).memWf :=
  h.upd ⟨ho, ha⟩

theorem State.memWf.performOne {s : State} (h : s.memWf) (p : Pending) : (s.performOne p).memWf :=
  (h.perform p.loc p.cells).congr (fun l => by cases l <;> rfl) rfl fun _ => rfl

theorem State.memWf.foldl_performOne {s : State} (h : s.memWf) (ps : List Pending) :
    (ps.foldl State.performOne s).memWf := by
  induction ps generalizing s with
  | nil => exact h
  | cons p ps ih => exact ih (h.performOne p)

theorem State.memWf.performWhere {s : State} (h : s.memWf) (test : Pending → Bool) : (s.performWhere test).memWf := by
  rw [State.performWhere_eq]
  exact (h.foldl_performOne _).upd_me rfl

/-- Rows written to an accumulator entry (R165). -/
theorem wf_writeRows {m : Matrix} (h : Memory.wf m.amem) (e w : Nat) (rows : List (List Nat)) :
    Memory.wf (m.writeRows e w rows).amem := by
  unfold Matrix.writeRows
  generalize rows.zipIdx = l
  generalize m.amem = a at h
  induction l generalizing a with
  | nil => exact h
  | cons r l ih => exact ih _ (wf_writeRun h _ _)

theorem State.memWf.settleVe {s : State} (h : s.memWf) (l : Loc) (as : List Nat) : (s.settleVe l as).memWf := by
  unfold State.settleVe
  dsimp only
  split
  · exact h.performWhere _
  · exact h

theorem State.memWf.enginePerform {s : State} (h : s.memWf) (l : Loc) (cs : List Host.Cell) :
    (s.enginePerform l cs).memWf :=
  (h.settleVe l _).perform l cs

/-- What the matrix engine writes to the unit pad (R165). -/
theorem State.memWf.unitWrite {s : State} (h : s.memWf) (a : Nat) (bs : List Byte) : (s.unitWrite a bs).memWf := by
  unfold State.unitWrite
  dsimp only
  have hu := h.settleVe (.u s.cur) ((List.range bs.length).map (a + ·))
  generalize s.settleVe (.u s.cur) ((List.range bs.length).map (a + ·)) = u at hu ⊢
  split
  · refine hu.setPad _ ?_
    exact wf_writeRun (hu.1 _) _ _
  · refine State.memWf.congr (hu.setPad (.u u.cur) (p := { mem := _, bad := _ }) ?_) (fun l => by cases l <;> rfl) rfl
      fun _ => rfl
    exact wf_writeCells (hu.1 _) _

end Sys2Proof.Machine
end

