-- ==== Sys2Proof/Laws/Ops.lean ====
section
/-! SUPPORT. One lemma per shared operation, saying once what it does: the late stall, loads and stores, and the
head entry of an engine. -/
namespace Sys2Proof.Machine

-- A lane or an entry that comes late (R77, R85, R92, R223).

/-- A SCHED_BREAK changes registers and the pending traps of its core, and nothing else of it. -/
theorem State.schedBreak_core (s : State) (e : Eng) : (s.schedBreak e).core =
    { s.core with regs := (s.schedBreak e).core.regs, trap := (s.schedBreak e).core.trap } := by
  unfold State.schedBreak
  dsimp only; split <;> simp

theorem State.schedBreak_cur (s : State) (e : Eng) : (s.schedBreak e).cur = s.cur := by
  unfold State.schedBreak
  dsimp only; split <;> simp

theorem State.schedBreak_other (s : State) (e : Eng) (j : Fin 128) (hj : j ≠ s.cur) :
    (s.schedBreak e).cores[j] = s.cores[j] := by
  unfold State.schedBreak
  dsimp only
  split
  · simp only [State.pendTrap, State.updTrap, State.updRegs]
    rw [State.other_core _ _ _ (by simpa using hj), State.other_core _ _ _ hj]
  · simp only [State.updRegs]; rw [State.other_core _ _ _ hj]

theorem State.schedBreak_byteAt (s : State) (e : Eng) (l : Loc) (a : Nat) :
    (s.schedBreak e).byteAt l a = s.byteAt l a := by
  unfold State.schedBreak
  dsimp only; split <;> cases l <;> rfl

/-- A waiting lane changes registers, the pending traps and the mark of its wait. -/
theorem State.stallLane_core (s : State) : s.stallLane.core =
    { s.core with
      regs := s.stallLane.core.regs, trap := s.stallLane.core.trap
      fetch := { s.core.fetch with waited := s.stallLane.core.fetch.waited } } := by
  unfold State.stallLane
  split
  · rw [State.core_updFetch, State.schedBreak_core]
  · rfl

theorem State.stallLane_cur (s : State) : s.stallLane.cur = s.cur := by
  unfold State.stallLane
  split
  · simp [State.schedBreak_cur]
  · rfl

theorem State.stallLane_other (s : State) (j : Fin 128) (hj : j ≠ s.cur) : s.stallLane.cores[j] = s.cores[j] := by
  unfold State.stallLane
  split
  · simp only [State.updFetch]
    rw [State.other_core _ _ _ (by simpa [State.schedBreak_cur] using hj), State.schedBreak_other _ _ _ hj]
  · rfl

theorem State.stallLane_byteAt (s : State) (l : Loc) (a : Nat) : s.stallLane.byteAt l a = s.byteAt l a := by
  unfold State.stallLane
  split
  · rw [← State.schedBreak_byteAt s .cc l a]; cases l <;> rfl
  · rfl

/-- A late lane changes registers, the pending traps, its mark, and the counter of free values. -/
theorem State.lateLane_core (s : State) : s.lateLane.core =
    { s.core with
      regs := s.lateLane.core.regs, trap := s.lateLane.core.trap
      fetch := { s.core.fetch with stalled := s.lateLane.core.fetch.stalled } } := by
  unfold State.lateLane
  split
  · split
    · rw [State.core_updFetch, State.schedBreak_core]; rfl
    · rfl
  · rfl

/-- Outside exposed regions no lane is late. -/
theorem State.lateLane_of_not_exposed (s : State) (h : s.core.exposed = false) : s.lateLane = s := by
  simp [State.lateLane, h]

-- Loads and stores.

/-- A load whose checks pass (R326). -/
theorem load_done {sp : Space} {w : Width} {d : Dest} {base : Opnd} {off : BitVec 10} {cls : Fin 16} {s : State}
    {loc : Loc} {as : List Nat}
    (h1 : (effective sp (s.operand base) off w).1.toNat % widthBytes w = 0)
    (h2 : (effective sp (s.operand base) off w).2 = false)
    (h3 : s.resolve sp .load (effective sp (s.operand base) off w).1 (widthBytes w) = .ok (loc, as))
    (h4 : s.threadBad loc as = none) :
    load sp w d base off cls s =
      .done ((s.settleRead (sameOrder false cls sp) loc as).setDest d
        (BitVec.ofNat 64 (leNat (as.map (s.threadByte loc))))) := by
  simp only [load, State.loadAt, h1, h2, h3, h4]
  rfl

/-- A store whose checks pass (R356). -/
theorem store_done {sp : Space} {w : Width} {data base : Opnd} {off : BitVec 10} {cls : Fin 16} {s : State}
    {loc : Loc} {as : List Nat}
    (h1 : (effective sp (s.operand base) off w).1.toNat % widthBytes w = 0)
    (h2 : (effective sp (s.operand base) off w).2 = false)
    (h3 : s.resolve sp .store (effective sp (s.operand base) off w).1 (widthBytes w) = .ok (loc, as))
    (h4 : s.partialBad loc as = none) :
    store sp w data base off cls s =
      .done ((if sp = .g then
          s.addHold s.core.ctx ((effective sp (s.operand base) off w).1.toNat / 2 ^ 48) false else s).post
        { ve := false, cls, space := sp, loc, cells := cellsAt as (s.operand data).toNat as.length,
          hold := if sp = .g then some s.nextHold else none, seq := s.core.seq, num := 0, acc := 0,
          det := s.core.deterministic }) := by
  simp only [store, State.storeAt, h1, h2, h3, h4]
  rfl

-- The head entry of an engine.

/-- The entry at the head performs when its work is done (R49). -/
theorem engineOp_done {s s' : State} {e : Eng} {b : LaneB} {i : Instr} {c : Capture}
    {work : Capture → State → EngRes} (h : AtHead s e b i c) (hw : work c s = .done s') :
    engineOp e b s work = .next ((s'.popHead e b.pop).pushHead e b.push) := by
  obtain ⟨h1, h2, -, h4, h5, h6⟩ := h
  unfold engineOp
  obtain ⟨rest, hr⟩ : ∃ rest, (s.core.queue e).entries = .instr i c :: rest := by
    cases hq : (s.core.queue e).entries with
    | nil => simp [hq] at h1
    | cons x rest => simp [hq] at h1; exact ⟨rest, by rw [h1]⟩
  simp [hr, h2, h4, h5, h6, hw]

/-- It starts when an event is to complete it. -/
theorem engineOp_busy {s s' : State} {e : Eng} {b : LaneB} {i : Instr} {c : Capture}
    {work : Capture → State → EngRes} (h : AtHead s e b i c) (hw : work c s = .busy s') :
    engineOp e b s work = .next ((s'.popHead e b.pop).updEng fun g =>
      g.setQueue e { g.queueOf e with phase := .busy, stalls := false }) := by
  obtain ⟨h1, h2, -, h4, h5, h6⟩ := h
  unfold engineOp
  obtain ⟨rest, hr⟩ : ∃ rest, (s.core.queue e).entries = .instr i c :: rest := by
    cases hq : (s.core.queue e).entries with
    | nil => simp [hq] at h1
    | cons x rest => simp [hq] at h1; exact ⟨rest, by rw [h1]⟩
  simp [hr, h2, h4, h5, h6, hw]

/-- It traps, taking no token (R210). -/
theorem engineOp_trap {s s' : State} {e : Eng} {b : LaneB} {i : Instr} {c : Capture}
    {work : Capture → State → EngRes} {code : Nat} {info : Word} (h : AtHead s e b i c)
    (hw : work c s = .trap code info s') :
    engineOp e b s work = .next ((s'.updEng fun g => g.goesOn e).pendTrap { code, info, eng := e }) := by
  obtain ⟨h1, h2, -, h4, h5, h6⟩ := h
  unfold engineOp
  obtain ⟨rest, hr⟩ : ∃ rest, (s.core.queue e).entries = .instr i c :: rest := by
    cases hq : (s.core.queue e).entries with
    | nil => simp [hq] at h1
    | cons x rest => simp [hq] at h1; exact ⟨rest, by rw [h1]⟩
  simp [hr, h2, h4, h5, h6, hw]

-- Places in global memory (R119, R125).

theorem mapM_of_forall {A B : Type} (f : A → Option B) (g : A → B) : ∀ l : List A, (∀ x ∈ l, f x = some (g x)) →
    l.mapM f = some (l.map g)
  | [], _ => rfl
  | a :: l, h => by
    rw [List.mapM_cons, h a List.mem_cons_self, mapM_of_forall f g l fun x hx => h x (List.mem_cons_of_mem _ hx)]
    rfl

/-- A byte of a page that one stack holds (R119). -/
theorem Xlat.phys_of_one (x : Xlat) (p o : Nat) (d : Word) (h : List.lookup p x.pages = some d)
    (h62 : d.getLsbD 62 = false) (hn : popcount 16 (wordSmask x.word2) = 1) (ho : o < 65536)
    (hb : d.toNat % 2 ^ 40 * 65536 + 65536 ≤ stackBytes) :
    x.phys (65536 * p + o) = some (nthSet (List.range 16) (wordSmask x.word2) 0 * 2 ^ 44 +
      (d.toNat % 2 ^ 40 * 65536 + o)) := by
  have e1 : (65536 * p + o) / 65536 = p := by omega
  have e2 : (65536 * p + o) % 65536 = o := by omega
  have e3 := Nat.div_add_mod' o (256 * 2 ^ wordGran x.word2)
  unfold Xlat.phys Xlat.formula
  simp only [e1, e2, h, h62, hn, Nat.div_one, Nat.mod_one, Nat.add_assoc, e3, Bool.false_eq_true, ↓reduceIte,
    Nat.one_ne_zero]
  have : stackBytes ≤ (if nthSet (List.range 16) (wordSmask x.word2) 0 = 16 then tierBytes else stackBytes) := by
    split <;> decide
  rw [if_pos (by omega)]

theorem Xlat.places_of_one (x : Xlat) (p o n : Nat) (d : Word) (h : List.lookup p x.pages = some d)
    (h62 : d.getLsbD 62 = false) (hn : popcount 16 (wordSmask x.word2) = 1) (ho : o + n ≤ 65536)
    (hb : d.toNat % 2 ^ 40 * 65536 + 65536 ≤ stackBytes) :
    x.places (65536 * p + o) n = some ((List.range n).map fun i =>
      nthSet (List.range 16) (wordSmask x.word2) 0 * 2 ^ 44 + (d.toNat % 2 ^ 40 * 65536 + (o + i))) :=
  mapM_of_forall _ _ _ fun i hi => by
    have := List.mem_range.mp hi
    rw [Nat.add_assoc]
    exact x.phys_of_one p (o + i) d h h62 hn (by omega) hb

/-- A page that the LPDDR-6 tier holds (R119). -/
theorem Xlat.places_of_tier (x : Xlat) (p o n : Nat) (d : Word) (h : List.lookup p x.pages = some d)
    (h62 : d.getLsbD 62 = true) (ho : o + n ≤ 65536) (hb : d.toNat % 2 ^ 40 * 65536 + 65536 ≤ tierBytes) :
    x.places (65536 * p + o) n = some ((List.range n).map fun i =>
      16 * 2 ^ 44 + (d.toNat % 2 ^ 40 * 65536 + (o + i))) :=
  mapM_of_forall _ _ _ fun i hi => by
    have := List.mem_range.mp hi
    have e1 : (65536 * p + (o + i)) / 65536 = p := by omega
    have e2 : (65536 * p + (o + i)) % 65536 = o + i := by omega
    rw [Nat.add_assoc]
    unfold Xlat.phys Xlat.formula
    simp only [e1, e2, h, h62, ↓reduceIte]
    rw [if_pos (by omega)]

theorem State.firstBad_of_clean (s : State) (l : Loc) (as : List Nat) (h : (s.padAt l).bad = []) :
    s.firstBad l as = none := by
  unfold State.firstBad
  rw [h]
  induction as with
  | nil => rfl
  | cons a as ih => exact ih

/-- A read of a page that one stack holds, where no granule is bad. -/
theorem State.readPort_of_one (s : State) (ctx : Fin 64) (needR : Bool) (a : Word) (n : Nat) (x : Xlat) (d : Word)
    (ht : s.translate ctx .load a [(a.toNat % 2 ^ 48, n)] = .ok x)
    (hr : (needR && !((wordRights x.word2).getLsbD 0)) = false)
    (h : List.lookup (a.toNat % 2 ^ 48 / 65536) x.pages = some d) (h62 : d.getLsbD 62 = false)
    (hn : popcount 16 (wordSmask x.word2) = 1) (ho : a.toNat % 2 ^ 48 % 65536 + n ≤ 65536)
    (hb : d.toNat % 2 ^ 40 * 65536 + 65536 ≤ stackBytes) (hg : s.gmem.bad = []) :
    s.readPort ctx needR a n = .ok ((List.range n).map fun i =>
      s.seenByte .g (nthSet (List.range 16) (wordSmask x.word2) 0 * 2 ^ 44 +
        (d.toNat % 2 ^ 40 * 65536 + (a.toNat % 2 ^ 48 % 65536 + i)))) := by
  have hp := x.places_of_one _ _ n d h h62 hn ho hb
  rw [show 65536 * (a.toNat % 2 ^ 48 / 65536) + a.toNat % 2 ^ 48 % 65536 = a.toNat % 2 ^ 48 by omega] at hp
  unfold State.readPort
  simp only [ht, hr, hp, s.firstBad_of_clean .g _ hg, Bool.false_eq_true, ↓reduceIte, List.map_map,
    Function.comp_def]

end Sys2Proof.Machine
end

