-- ==== Sys2Proof/Laws/PerInstr.lean ====
section
/-! SUPPORT. One fact for each constructor of the instruction syntax: what kind of words it has, and so how it comes
to run. -/

/-- An instruction with one word is one of the control thread, an instruction with a pair of words goes to an engine
and has lane B of the pair, and neither is an event of the machine (R60, R69). -/
def Sys2Proof.Laws.Routing.Statement (i : Sys2Proof.Instr) : Prop :=
  match Sys2Proof.encode i with
  | none => Sys2Proof.Machine.LaneB.of i = none
  | some (.cc _) => Sys2Proof.Machine.LaneB.of i = none ∧ Sys2Proof.Machine.isEvent i = false
  | some (.pair _ _ _) => (Sys2Proof.Machine.LaneB.of i).isSome = true ∧ Sys2Proof.Machine.isEvent i = false

namespace Sys2Proof.Laws
open Sys2Proof

theorem Routing.deviceReset (sigOk : Bool) (stack bank : Option Nat) (links : Trained) (melt : BitVec 16) :
    Routing.Statement (.deviceReset sigOk stack bank links melt) := rfl
theorem Routing.launch (ptr : Word) (eight : Bool) : Routing.Statement (.launch ptr eight) := rfl
theorem Routing.hostRegisterWrite (off : Nat) (size : Nat) (v : Word) :
    Routing.Statement (.hostRegisterWrite off size v) := rfl
theorem Routing.mbrspRead : Routing.Statement (.mbrspRead) := rfl
theorem Routing.load (parts : KernelParts) : Routing.Statement (.load parts) := rfl
theorem Routing.ctxnew : Routing.Statement (.ctxnew) := rfl
theorem Routing.ctxfree : Routing.Statement (.ctxfree) := rfl
theorem Routing.qclear : Routing.Statement (.qclear) := rfl
theorem Routing.watchdog : Routing.Statement (.watchdog) := rfl
theorem Routing.preempt : Routing.Statement (.preempt) := rfl
theorem Routing.resume : Routing.Statement (.resume) := rfl
theorem Routing.token (verified : Bool) : Routing.Statement (.token verified) := rfl
theorem Routing.stop : Routing.Statement (.stop) := rfl
theorem Routing.go : Routing.Statement (.go) := rfl
theorem Routing.podcfg : Routing.Statement (.podcfg) := rfl
theorem Routing.pcap : Routing.Statement (.pcap) := rfl
theorem Routing.spmax : Routing.Statement (.spmax) := rfl
theorem Routing.logread : Routing.Statement (.logread) := rfl
theorem Routing.corereset : Routing.Statement (.corereset) := rfl
theorem Routing.hostBar2Read (off : Nat) (len : Nat) : Routing.Statement (.hostBar2Read off len) := rfl
theorem Routing.hostBar2Write (off : Nat) (bytes : List Byte) : Routing.Statement (.hostBar2Write off bytes) := rfl
theorem Routing.hostFetchadd (off : Nat) (v : Word) : Routing.Statement (.hostFetchadd off v) := rfl
theorem Routing.graphFetch : Routing.Statement (.graphFetch) := rfl
theorem Routing.nodeHeadCheck (q : Fin 4) : Routing.Statement (.nodeHeadCheck q) := rfl
theorem Routing.dependenceRead (q : Fin 4) (second : Bool) : Routing.Statement (.dependenceRead q second) := rfl
theorem Routing.predicateRead (q : Fin 4) : Routing.Statement (.predicateRead q) := rfl
theorem Routing.invocationStart : Routing.Statement (.invocationStart) := rfl
theorem Routing.invocationEnd : Routing.Statement (.invocationEnd) := rfl
theorem Routing.nodePost : Routing.Statement (.nodePost) := rfl
theorem Routing.nodeWatchdog (q : Fin 4) : Routing.Statement (.nodeWatchdog q) := rfl
theorem Routing.fetchLine : Routing.Statement (.fetchLine) := rfl
theorem Routing.lineDrain : Routing.Statement (.lineDrain) := rfl
theorem Routing.trapEntry : Routing.Statement (.trapEntry) := rfl
theorem Routing.copyBegin (ch : Fin 9) : Routing.Statement (.copyBegin ch) := rfl
theorem Routing.copyComplete (ch : Fin 9) : Routing.Statement (.copyComplete ch) := rfl
theorem Routing.copyFreeze (e : Eng) (ch : Fin 9) : Routing.Statement (.copyFreeze e ch) := rfl
theorem Routing.pageMigration (ctx : Fin 64) (entry : Nat) (page : Nat) (frame : Nat) (lpddr : Bool) :
    Routing.Statement (.pageMigration ctx entry page frame lpddr) := rfl
theorem Routing.mmaCommit : Routing.Statement (.mmaCommit) := rfl
theorem Routing.ladderReplay : Routing.Statement (.ladderReplay) := rfl
theorem Routing.afaddRunApply (part : AddPart) : Routing.Statement (.afaddRunApply part) := rfl
theorem Routing.flitReceive (link : Fin 16) (crcOk retrainOk : Bool) (flit : Option Flit) :
    Routing.Statement (.flitReceive link crcOk retrainOk flit) := rfl
theorem Routing.lsendArrival (i : Nat) : Routing.Statement (.lsendArrival i) := rfl
theorem Routing.lredArrival (part : RedPart) : Routing.Statement (.lredArrival part) := rfl
theorem Routing.leCompletion (k : Nat) : Routing.Statement (.leCompletion k) := rfl
theorem Routing.podBarrierComplete (b : BarAt) : Routing.Statement (.podBarrierComplete b) := rfl
theorem Routing.podRelease (b : BarAt) (cluster : Option (Fin 32)) :
    Routing.Statement (.podRelease b cluster) := rfl
theorem Routing.droopAlarm : Routing.Statement (.droopAlarm) := rfl
theorem Routing.droopStretchEnd : Routing.Statement (.droopStretchEnd) := rfl
theorem Routing.droopHalvingEnd : Routing.Statement (.droopHalvingEnd) := rfl
theorem Routing.laneGroupGate (g : Fin 4) : Routing.Statement (.laneGroupGate g) := rfl
theorem Routing.governorInterval : Routing.Statement (.governorInterval) := rfl
theorem Routing.powerCapWindow : Routing.Statement (.powerCapWindow) := rfl
theorem Routing.meltUpdate (frac : BitVec 16) : Routing.Statement (.meltUpdate frac) := rfl
theorem Routing.leaseExpiry (id : Nat) : Routing.Statement (.leaseExpiry id) := rfl
theorem Routing.sprintSwitch : Routing.Statement (.sprintSwitch) := rfl
theorem Routing.debugStop : Routing.Statement (.debugStop) := rfl
theorem Routing.add (d : Dest) (a b : Opnd) : Routing.Statement (.add d a b) := ⟨rfl, rfl⟩
theorem Routing.sub (d : Dest) (a b : Opnd) : Routing.Statement (.sub d a b) := ⟨rfl, rfl⟩
theorem Routing.mul (d : Dest) (a b : Opnd) : Routing.Statement (.mul d a b) := ⟨rfl, rfl⟩
theorem Routing.mulh (d : Dest) (a b : Opnd) : Routing.Statement (.mulh d a b) := ⟨rfl, rfl⟩
theorem Routing.div (d : Dest) (a b : Opnd) : Routing.Statement (.div d a b) := ⟨rfl, rfl⟩
theorem Routing.rem (d : Dest) (a b : Opnd) : Routing.Statement (.rem d a b) := ⟨rfl, rfl⟩
theorem Routing.and (d : Dest) (a b : Opnd) : Routing.Statement (.and d a b) := ⟨rfl, rfl⟩
theorem Routing.or (d : Dest) (a b : Opnd) : Routing.Statement (.or d a b) := ⟨rfl, rfl⟩
theorem Routing.xor (d : Dest) (a b : Opnd) : Routing.Statement (.xor d a b) := ⟨rfl, rfl⟩
theorem Routing.shl (d : Dest) (a b : Opnd) : Routing.Statement (.shl d a b) := ⟨rfl, rfl⟩
theorem Routing.shr (d : Dest) (a b : Opnd) : Routing.Statement (.shr d a b) := ⟨rfl, rfl⟩
theorem Routing.sra (d : Dest) (a b : Opnd) : Routing.Statement (.sra d a b) := ⟨rfl, rfl⟩
theorem Routing.clz (d : Dest) (a : Opnd) : Routing.Statement (.clz d a) := ⟨rfl, rfl⟩
theorem Routing.popc (d : Dest) (a : Opnd) : Routing.Statement (.popc d a) := ⟨rfl, rfl⟩
theorem Routing.mov (d : Dest) (a : Opnd) : Routing.Statement (.mov d a) := ⟨rfl, rfl⟩
theorem Routing.sel (d : Dest) (a b : Opnd) (k : Fin 4) (inv : Bool) :
    Routing.Statement (.sel d a b k inv) := ⟨rfl, rfl⟩
theorem Routing.cmp (c : Cond) (d : Dest) (a b : Opnd) : Routing.Statement (.cmp c d a b) := ⟨rfl, rfl⟩
theorem Routing.addi (d : Dest) (a : Opnd) (imm : BitVec 16) : Routing.Statement (.addi d a imm) := ⟨rfl, rfl⟩
theorem Routing.andi (d : Dest) (a : Opnd) (imm : BitVec 16) : Routing.Statement (.andi d a imm) := ⟨rfl, rfl⟩
theorem Routing.ori (d : Dest) (a : Opnd) (imm : BitVec 16) : Routing.Statement (.ori d a imm) := ⟨rfl, rfl⟩
theorem Routing.xori (d : Dest) (a : Opnd) (imm : BitVec 16) : Routing.Statement (.xori d a imm) := ⟨rfl, rfl⟩
theorem Routing.cmpi (c : Cond) (d : Dest) (a : Opnd) (imm : BitVec 13) :
    Routing.Statement (.cmpi c d a imm) := ⟨rfl, rfl⟩
theorem Routing.shlImm (d : Dest) (a : Opnd) (amt : BitVec 6) : Routing.Statement (.shlImm d a amt) := ⟨rfl, rfl⟩
theorem Routing.shrImm (d : Dest) (a : Opnd) (amt : BitVec 6) : Routing.Statement (.shrImm d a amt) := ⟨rfl, rfl⟩
theorem Routing.sraImm (d : Dest) (a : Opnd) (amt : BitVec 6) : Routing.Statement (.sraImm d a amt) := ⟨rfl, rfl⟩
theorem Routing.movi (d : Dest) (imm : BitVec 16) : Routing.Statement (.movi d imm) := ⟨rfl, rfl⟩
theorem Routing.movhi (d : Fin 16) (imm : BitVec 16) (pos : BitVec 2) :
    Routing.Statement (.movhi d imm pos) := ⟨rfl, rfl⟩
theorem Routing.wid (d : Dest) (f : BitVec 3) : Routing.Statement (.wid d f) := ⟨rfl, rfl⟩
theorem Routing.srd (d : Dest) (reg : BitVec 16) : Routing.Statement (.srd d reg) := ⟨rfl, rfl⟩
theorem Routing.swr (a : Opnd) (reg : BitVec 16) : Routing.Statement (.swr a reg) := ⟨rfl, rfl⟩
theorem Routing.time (d : Dest) : Routing.Statement (.time d) := ⟨rfl, rfl⟩
theorem Routing.sprint (d : Dest) (mask micros : Opnd) : Routing.Statement (.sprint d mask micros) := ⟨rfl, rfl⟩
theorem Routing.sprel (a : Opnd) : Routing.Statement (.sprel a) := ⟨rfl, rfl⟩
theorem Routing.br (c : Opnd) (disp : BitVec 21) : Routing.Statement (.br c disp) := ⟨rfl, rfl⟩
theorem Routing.jmp (disp : BitVec 21) : Routing.Statement (.jmp disp) := ⟨rfl, rfl⟩
theorem Routing.call (disp : BitVec 21) : Routing.Statement (.call disp) := ⟨rfl, rfl⟩
theorem Routing.ret : Routing.Statement (.ret) := ⟨rfl, rfl⟩
theorem Routing.loop (count : Opnd) (len : BitVec 21) : Routing.Statement (.loop count len) := ⟨rfl, rfl⟩
theorem Routing.guard (k : Fin 4) (a : Opnd) : Routing.Statement (.guard k a) := ⟨rfl, rfl⟩
theorem Routing.fork (mask : BitVec 6) : Routing.Statement (.fork mask) := ⟨rfl, rfl⟩
theorem Routing.join (mask : BitVec 6) : Routing.Statement (.join mask) := ⟨rfl, rfl⟩
theorem Routing.trap (code : BitVec 8) : Routing.Statement (.trap code) := ⟨rfl, rfl⟩
theorem Routing.eret : Routing.Statement (.eret) := ⟨rfl, rfl⟩
theorem Routing.brk (num : BitVec 16) : Routing.Statement (.brk num) := ⟨rfl, rfl⟩
theorem Routing.clkdiv (e : Eng) (v : Divisor) : Routing.Statement (.clkdiv e v) := ⟨rfl, rfl⟩
theorem Routing.pset (e : Eng) (p : Fin 16) (a : Opnd) : Routing.Statement (.pset e p a) := ⟨rfl, rfl⟩
theorem Routing.btset (d : Dest) (entry value : Opnd) (w : BitVec 2) :
    Routing.Statement (.btset d entry value w) := ⟨rfl, rfl⟩
theorem Routing.btswap (d : Dest) (e1 e2 : Opnd) : Routing.Statement (.btswap d e1 e2) := ⟨rfl, rfl⟩
theorem Routing.dead (d : Dest) (addr len : Opnd) : Routing.Statement (.dead d addr len) := ⟨rfl, rfl⟩
theorem Routing.ldu (w : Width) (d : Dest) (base : Opnd) (off : BitVec 10) (cls : Fin 16) :
    Routing.Statement (.ldu w d base off cls) := ⟨rfl, rfl⟩
theorem Routing.stu (w : Width) (data base : Opnd) (off : BitVec 10) (cls : Fin 16) :
    Routing.Statement (.stu w data base off cls) := ⟨rfl, rfl⟩
theorem Routing.ldk (w : Width) (d : Dest) (base : Opnd) (off : BitVec 10) (cls : Fin 16) :
    Routing.Statement (.ldk w d base off cls) := ⟨rfl, rfl⟩
theorem Routing.stk (w : Width) (data base : Opnd) (off : BitVec 10) (cls : Fin 16) :
    Routing.Statement (.stk w data base off cls) := ⟨rfl, rfl⟩
theorem Routing.ldn (w : Width) (d : Dest) (base : Opnd) (off : BitVec 10) (cls : Fin 16) :
    Routing.Statement (.ldn w d base off cls) := ⟨rfl, rfl⟩
theorem Routing.stn (w : Width) (data base : Opnd) (off : BitVec 10) (cls : Fin 16) :
    Routing.Statement (.stn w data base off cls) := ⟨rfl, rfl⟩
theorem Routing.ldd (w : Width) (d : Dest) (base : Opnd) (off : BitVec 10) (cls : Fin 16) :
    Routing.Statement (.ldd w d base off cls) := ⟨rfl, rfl⟩
theorem Routing.std (w : Width) (data base : Opnd) (off : BitVec 10) (cls : Fin 16) :
    Routing.Statement (.std w data base off cls) := ⟨rfl, rfl⟩
theorem Routing.ldg (w : Width) (d : Dest) (base : Opnd) (off : BitVec 10) (cls : Fin 16) :
    Routing.Statement (.ldg w d base off cls) := ⟨rfl, rfl⟩
theorem Routing.stg (w : Width) (data base : Opnd) (off : BitVec 10) (cls : Fin 16) :
    Routing.Statement (.stg w data base off cls) := ⟨rfl, rfl⟩
theorem Routing.aadd (sp : XSpace) (dbl : Bool) (sc : Scope) (data base : Opnd) (cls : Fin 16) :
    Routing.Statement (.aadd sp dbl sc data base cls) := ⟨rfl, rfl⟩
theorem Routing.acas (sp : XSpace) (dbl : Bool) (sc : Scope) (data base cmp : Opnd) (cls : Fin 16) :
    Routing.Statement (.acas sp dbl sc data base cmp cls) := ⟨rfl, rfl⟩
theorem Routing.axch (sp : XSpace) (dbl : Bool) (sc : Scope) (data base : Opnd) (cls : Fin 16) :
    Routing.Statement (.axch sp dbl sc data base cls) := ⟨rfl, rfl⟩
theorem Routing.amax (kind : MaxKind) (sp : XSpace) (dbl : Bool) (sc : Scope) (data base : Opnd) (cls : Fin 16) :
    Routing.Statement (.amax kind sp dbl sc data base cls) := ⟨rfl, rfl⟩
theorem Routing.afadd (sp : XSpace) (dbl : Bool) (sc : Scope) (data base : Opnd) (cls : Fin 16) :
    Routing.Statement (.afadd sp dbl sc data base cls) := ⟨rfl, rfl⟩
theorem Routing.scld (sp : XSpace) (w : Width) (d : Dest) (base : Opnd) :
    Routing.Statement (.scld sp w d base) := ⟨rfl, rfl⟩
theorem Routing.scst (sp : XSpace) (w : Width) (data base : Opnd) :
    Routing.Statement (.scst sp w data base) := ⟨rfl, rfl⟩
theorem Routing.cfence (sc : Scope) (mask : BitVec 16) : Routing.Statement (.cfence sc mask) := ⟨rfl, rfl⟩
theorem Routing.qfence (mask : BitVec 6) : Routing.Statement (.qfence mask) := ⟨rfl, rfl⟩
theorem Routing.drain (sp : CSpace) : Routing.Statement (.drain sp) := ⟨rfl, rfl⟩
theorem Routing.cwait (addr target : Opnd) : Routing.Statement (.cwait addr target) := ⟨rfl, rfl⟩
theorem Routing.ctrinit (addr value : Opnd) : Routing.Statement (.ctrinit addr value) := ⟨rfl, rfl⟩
theorem Routing.arrive (die : Bool) (b : Fin 16) (mask : BitVec 16) :
    Routing.Statement (.arrive die b mask) := ⟨rfl, rfl⟩
theorem Routing.await (die : Bool) (b : Fin 16) (mask : BitVec 16) :
    Routing.Statement (.await die b mask) := ⟨rfl, rfl⟩
theorem Routing.qpush (q : BitVec 2) (core addr : Opnd) : Routing.Statement (.qpush q core addr) := ⟨rfl, rfl⟩
theorem Routing.sta (addr data : Opnd) (mask : BitVec 16) : Routing.Statement (.sta addr data mask) := ⟨rfl, rfl⟩
theorem Routing.ctset (t : Fin 64) (w : Fin 16) (a : Opnd) : Routing.Statement (.ctset t w a) := ⟨rfl, rfl⟩
theorem Routing.xpred (d : Dest) (sig : Opnd) (k : BitVec 3) : Routing.Statement (.xpred d sig k) := ⟨rfl, rfl⟩
theorem Routing.xput (sig value : Opnd) : Routing.Statement (.xput sig value) := ⟨rfl, rfl⟩
theorem Routing.xget (d : Dest) (sig : Opnd) : Routing.Statement (.xget d sig) := ⟨rfl, rfl⟩
theorem Routing.tkpushWrite (a : Opnd) : Routing.Statement (.tkpushWrite a) := ⟨rfl, rfl⟩
theorem Routing.tkpopWrite (a : Opnd) : Routing.Statement (.tkpopWrite a) := ⟨rfl, rfl⟩
theorem Routing.rqrelRetry (a : Opnd) : Routing.Statement (.rqrelRetry a) := rfl
theorem Routing.rqrelRelease (a : Opnd) : Routing.Statement (.rqrelRelease a) := rfl
theorem Routing.mclaim (s : Fin 64) (n : Fin 64) (b : LaneB) : Routing.Statement (.mclaim s n b) := ⟨rfl, rfl⟩
theorem Routing.mrel (s : Fin 64) (n : Fin 64) (b : LaneB) : Routing.Statement (.mrel s n b) := ⟨rfl, rfl⟩
theorem Routing.mzero (e : Fin 64) (n : Fin 64) (b : LaneB) : Routing.Statement (.mzero e n b) := ⟨rfl, rfl⟩
theorem Routing.mfill (s : Fin 64) (p : Fin 16) (b : LaneB) : Routing.Statement (.mfill s p b) := ⟨rfl, rfl⟩
theorem Routing.mwb (e : Fin 64) (p : Fin 16) (b : LaneB) : Routing.Statement (.mwb e p b) := ⟨rfl, rfl⟩
theorem Routing.mnest (level : Fin 6) (f : NestField) (v : BitVec 16) (b : LaneB) :
    Routing.Statement (.mnest level f v b) := ⟨rfl, rfl⟩
theorem Routing.msca (dst part n : Fin 64) (g : QGroup) (p : Fin 16) (k : BitVec 16) (b : LaneB) :
    Routing.Statement (.msca dst part n g p k b) := ⟨rfl, rfl⟩
theorem Routing.mma (f : Fmt) (e sa sb : Fin 64) (g : Option QGroup) (b : LaneB) :
    Routing.Statement (.mma f e sa sb g b) := ⟨rfl, rfl⟩
theorem Routing.mgo (f : Fmt) (c sa sb : Fin 64) (q : Option MgoQ) (b : LaneB) :
    Routing.Statement (.mgo f c sa sb q b) := ⟨rfl, rfl⟩
theorem Routing.mmaLad (f : LadFmt) (e sa sb : Fin 64) (b : LaneB) :
    Routing.Statement (.mmaLad f e sa sb b) := ⟨rfl, rfl⟩
theorem Routing.mladr (s : Fin 64) (lad : Fin 16) (roleB : Bool) (p : Fin 16) (klen : BitVec 16) (b : LaneB) :
    Routing.Statement (.mladr s lad roleB p klen b) := ⟨rfl, rfl⟩
theorem Routing.mmon (f : MonField) (v : BitVec 16) (b : LaneB) : Routing.Statement (.mmon f v b) := ⟨rfl, rfl⟩
theorem Routing.mspec (t : Option SpecTag) (b : LaneB) :
    Routing.Statement (.mspec t b) := by cases t <;> exact ⟨rfl, rfl⟩
theorem Routing.mresolve (f n o : Fin 64) (noTrain : Bool) (p : Fin 16) (b : LaneB) :
    Routing.Statement (.mresolve f n o noTrain p b) := ⟨rfl, rfl⟩
theorem Routing.vadd (v : V3) (b : LaneB) : Routing.Statement (.vadd v b) := ⟨rfl, rfl⟩
theorem Routing.vsub (v : V3) (b : LaneB) : Routing.Statement (.vsub v b) := ⟨rfl, rfl⟩
theorem Routing.vmul (v : V3) (b : LaneB) : Routing.Statement (.vmul v b) := ⟨rfl, rfl⟩
theorem Routing.vfma (v : V4) (b : LaneB) : Routing.Statement (.vfma v b) := ⟨rfl, rfl⟩
theorem Routing.vmin (v : V3) (b : LaneB) : Routing.Statement (.vmin v b) := ⟨rfl, rfl⟩
theorem Routing.vmax (v : V3) (b : LaneB) : Routing.Statement (.vmax v b) := ⟨rfl, rfl⟩
theorem Routing.vabs (v : V2) (b : LaneB) : Routing.Statement (.vabs v b) := ⟨rfl, rfl⟩
theorem Routing.vneg (v : V2) (b : LaneB) : Routing.Statement (.vneg v b) := ⟨rfl, rfl⟩
theorem Routing.vrcp (v : V2) (b : LaneB) : Routing.Statement (.vrcp v b) := ⟨rfl, rfl⟩
theorem Routing.vrsq (v : V2) (b : LaneB) : Routing.Statement (.vrsq v b) := ⟨rfl, rfl⟩
theorem Routing.vexp2 (v : V2) (b : LaneB) : Routing.Statement (.vexp2 v b) := ⟨rfl, rfl⟩
theorem Routing.vlog2 (v : V2) (b : LaneB) : Routing.Statement (.vlog2 v b) := ⟨rfl, rfl⟩
theorem Routing.vcvt (dst : VTy) (rnd : Rnd) (v : V2) (b : LaneB) :
    Routing.Statement (.vcvt dst rnd v b) := ⟨rfl, rfl⟩
theorem Routing.vcmp (c : VCond) (ty : VTy) (mask : Fin 8) (md : Fin 7) (va vb : Fin 256) (b : LaneB) :
    Routing.Statement (.vcmp c ty mask md va vb b) := ⟨rfl, rfl⟩
theorem Routing.vsel (v : V4) (b : LaneB) : Routing.Statement (.vsel v b) := ⟨rfl, rfl⟩
theorem Routing.vand (v : V3) (b : LaneB) : Routing.Statement (.vand v b) := ⟨rfl, rfl⟩
theorem Routing.vor (v : V3) (b : LaneB) : Routing.Statement (.vor v b) := ⟨rfl, rfl⟩
theorem Routing.vxor (v : V3) (b : LaneB) : Routing.Statement (.vxor v b) := ⟨rfl, rfl⟩
theorem Routing.vshl (v : V3) (b : LaneB) : Routing.Statement (.vshl v b) := ⟨rfl, rfl⟩
theorem Routing.vshr (arith : Bool) (v : V3) (b : LaneB) : Routing.Statement (.vshr arith v b) := ⟨rfl, rfl⟩
theorem Routing.vred (op : RedOp) (rnd : Rnd) (v : V2) (b : LaneB) :
    Routing.Statement (.vred op rnd v b) := ⟨rfl, rfl⟩
theorem Routing.vperm (v : V3) (b : LaneB) : Routing.Statement (.vperm v b) := ⟨rfl, rfl⟩
theorem Routing.vbcast (lane : Fin 64) (v : V2) (b : LaneB) : Routing.Statement (.vbcast lane v b) := ⟨rfl, rfl⟩
theorem Routing.viota (ty : VTy) (mask : Fin 8) (vd : Fin 256) (b : LaneB) :
    Routing.Statement (.viota ty mask vd b) := ⟨rfl, rfl⟩
theorem Routing.vmovi (ty : VTy) (mask : Fin 8) (vd : Fin 256) (imm : BitVec 16) (b : LaneB) :
    Routing.Statement (.vmovi ty mask vd imm b) := ⟨rfl, rfl⟩
theorem Routing.vldu (v : VMem) (b : LaneB) : Routing.Statement (.vldu v b) := ⟨rfl, rfl⟩
theorem Routing.vstu (v : VMem) (b : LaneB) : Routing.Statement (.vstu v b) := ⟨rfl, rfl⟩
theorem Routing.vldk (v : VMem) (b : LaneB) : Routing.Statement (.vldk v b) := ⟨rfl, rfl⟩
theorem Routing.vstk (v : VMem) (b : LaneB) : Routing.Statement (.vstk v b) := ⟨rfl, rfl⟩
theorem Routing.vldd (v : VMem) (b : LaneB) : Routing.Statement (.vldd v b) := ⟨rfl, rfl⟩
theorem Routing.vstd (v : VMem) (b : LaneB) : Routing.Statement (.vstd v b) := ⟨rfl, rfl⟩
theorem Routing.vstn (v : VMem) (b : LaneB) : Routing.Statement (.vstn v b) := ⟨rfl, rfl⟩
theorem Routing.vldg (vx : Fin 256) (v : VMem) (b : LaneB) : Routing.Statement (.vldg vx v b) := ⟨rfl, rfl⟩
theorem Routing.vgrow (n8 : BitVec 6) (b : LaneB) : Routing.Statement (.vgrow n8 b) := ⟨rfl, rfl⟩
theorem Routing.vshrink (n8 : BitVec 6) (b : LaneB) : Routing.Statement (.vshrink n8 b) := ⟨rfl, rfl⟩
theorem Routing.vrdacc (int : Bool) (mask : Fin 8) (vd : Fin 256) (e row : Fin 64) (b : LaneB) :
    Routing.Statement (.vrdacc int mask vd e row b) := ⟨rfl, rfl⟩
theorem Routing.ccopy (t : Fin 64) (spec post : Bool) (p : Fin 16) (b : LaneB) :
    Routing.Statement (.ccopy t spec post p b) := ⟨rfl, rfl⟩
theorem Routing.cfill (sp : CSpace) (len pat addr : Fin 16) (b : LaneB) :
    Routing.Statement (.cfill sp len pat addr b) := ⟨rfl, rfl⟩
theorem Routing.cpost (v c : Fin 16) (b : LaneB) : Routing.Statement (.cpost v c b) := ⟨rfl, rfl⟩
theorem Routing.cqnt (s : Fin 64) (b : LaneB) : Routing.Statement (.cqnt s b) := ⟨rfl, rfl⟩
theorem Routing.cmov (src dst : CSpace) (len s d : Fin 16) (b : LaneB) :
    Routing.Statement (.cmov src dst len s d b) := ⟨rfl, rfl⟩
theorem Routing.gcsr (s n : Fin 64) (f : CsrFmt) (p : Fin 16) (b : LaneB) :
    Routing.Statement (.gcsr s n f p b) := ⟨rfl, rfl⟩
theorem Routing.gmap (s : Fin 64) (i j : Fin 16) (b : LaneB) : Routing.Statement (.gmap s i j b) := ⟨rfl, rfl⟩
theorem Routing.grows (n : Fin 4096) (d s x : Fin 16) (len : BitVec 16) (b : LaneB) :
    Routing.Statement (.grows n d s x len b) := ⟨rfl, rfl⟩
theorem Routing.gscat (n : Fin 4096) (d s x : Fin 16) (len : BitVec 16) (b : LaneB) :
    Routing.Statement (.gscat n d s x len b) := ⟨rfl, rfl⟩
theorem Routing.lsend (d s pk : Fin 16) (c : Option (Fin 16)) (len : Fin 4096) (b : LaneB) :
    Routing.Statement (.lsend d s pk c len b) := ⟨rfl, rfl⟩
theorem Routing.lred (half : Bool) (d s pk c : Fin 16) (expect : Fin 16) (len : Fin 4096) (b : LaneB) :
    Routing.Statement (.lred half d s pk c expect len b) := ⟨rfl, rfl⟩
theorem Routing.lbar (bar : Fin 16) (b : LaneB) : Routing.Statement (.lbar bar b) := ⟨rfl, rfl⟩
theorem Routing.accessPerformed (i : Nat) : Routing.Statement (.accessPerformed i) := rfl
theorem Routing.fillComplete (e : Eng) : Routing.Statement (.fillComplete e) := rfl
theorem Routing.droopRearm : Routing.Statement (.droopRearm) := rfl

end Sys2Proof.Laws
end

