-- ==== Sys2Proof/Tests/Slice0.lean ====
section
/-! SUPPORT. Tests: words of the spec's encodings, ill-formed terms, one step on small states, and for every
statement with hypotheses a state and operands that meet them. -/
namespace Sys2Proof.Tests
open Sys2Proof Sys2Proof.Machine

set_option Elab.async false

-- Words of the spec decode to the instructions they stand for. Each word is the spec's own worked encoding
-- (the reference entries, R79 to R220), or is written out from the field table named beside it.

def cc (w : Nat) (i : Instr) : Prop := decodeCC w = .ok i
def pair (e : Eng) (a b : Nat) (i : Instr) : Prop := decodeEngine e a b = .ok i
/-- No pops, no pushes, no guard. -/
def b0 : LaneB := ⟨0, 0, none⟩

/-- Reference entries A to O; MULH, DIV and REM by R316 and R344, AND, OR and the shifts by R63. -/
theorem test_words_arithmetic :
    cc 0x0491A800 (.add (.n 4) (.n 1) (.n 5)) ∧ cc 0x059CA810 (.sub (.n 12) (.n 12) (.n 5)) ∧
    cc 0x055AE020 (.mul (.n 10) (.n 10) (.n 12)) ∧ cc 0x04719030 (.mulh (.n 3) (.n 1) (.n 2)) ∧
    cc 0x04719040 (.div (.n 3) (.n 1) (.n 2)) ∧ cc 0x04719050 (.rem (.n 3) (.n 1) (.n 2)) ∧
    cc 0x04719080 (.and (.n 3) (.n 1) (.n 2)) ∧ cc 0x059CD090 (.or (.n 12) (.n 12) (.n 10)) ∧
    cc 0x043298A0 (.xor (.n 1) (.n 2) (.n 3)) ∧ cc 0x05DEE0C0 (.shl (.n 14) (.n 14) (.n 12)) ∧
    cc 0x05B0A8D0 (.shr (.n 13) (.n 0) (.n 5)) ∧ cc 0x045298E0 (.sra (.n 2) (.n 2) (.n 3)) ∧
    cc 0x04510100 (.clz (.n 2) (.n 1)) ∧ cc 0x04510110 (.popc (.n 2) (.n 1)) ∧
    cc 0x04A10120 (.mov (.n 5) (.q 1)) ∧ cc 0x0491914A (.sel (.n 4) (.n 1) (.n 2) 2 true) ∧
    cc 0x055AB980 (.cmp .eq (.n 10) (.n 10) (.n 7)) := by
  unfold cc; decide

theorem test_words_immediate :
    cc 0x09184000 (.addi (.n 8) (.n 8) 0x4000) ∧ cc 0x0C510003 (.andi (.n 2) (.n 1) 3) ∧
    cc 0x10730081 (.ori (.n 3) (.n 3) 0x81) ∧ cc 0x1494FFFF (.xori (.n 4) (.n 4) 0xFFFF) ∧
    cc 0x18756064 (.cmpi .ltu (.n 3) (.n 5) 100) ∧ cc 0x1D390010 (.shlImm (.n 9) (.n 9) 16) ∧
    cc 0x1D394010 (.shrImm (.n 9) (.n 9) 16) ∧ cc 0x1C528038 (.sraImm (.n 2) (.n 2) 56) ∧
    cc 0x21200001 (.movi (.n 9) 1) ∧ cc 0x24830003 (.movhi 4 3 3) ∧ cc 0x28600001 (.wid (.n 3) 1) ∧
    cc 0x2C200000 (.srd (.n 1) 0) ∧ cc 0x2C800143 (.srd (.n 4) 0x143) ∧
    cc 0x301C0014 (.swr (.n 12) 0x014) ∧ cc 0x301B0051 (.tkpopWrite (.n 11)) ∧
    cc 0x301B0050 (.tkpushWrite (.n 11)) ∧ cc 0x34800000 (.time (.n 4)) ∧ cc 0x37E00000 (.time .push) := by
  unfold cc; decide

theorem test_words_control :
    cc 0x427FFFFE (.br (.n 3) (-2)) ∧ cc 0x441FFFFD (.jmp (-3)) ∧ cc 0x48000005 (.call 5) ∧
    cc 0x4C000000 .ret ∧ cc 0x53400003 (.loop (.n 10) 3) ∧ cc 0x545A0000 (.guard 2 (.n 10)) ∧
    cc 0x58000800 (.fork 2) ∧ cc 0x5C001800 (.join 6) ∧ cc 0x6000002A (.trap 0x2A) ∧
    cc 0x64000000 .eret ∧ cc 0x68000007 (.brk 7) ∧ cc 0x6C800005 (.clkdiv .me .d5) ∧
    cc 0x711D3000 (.pset .ve 3 (.n 13)) ∧ cc 0x38919000 (.sprint (.n 4) (.n 1) (.n 2)) ∧
    cc 0x3C140000 (.sprel (.n 4)) := by
  unfold cc; decide

theorem test_words_memory :
    cc 0x80510100 (.ldu .byte (.n 2) (.n 1) 0x10 0) ∧ cc 0x88538000 (.ldk .word (.n 2) (.n 3) 0 0) ∧
    cc 0x909CBFF1 (.ldn .word (.n 4) (.n 12) (-1) 1) ∧ cc 0x9853C002 (.ldd .dbl (.n 2) (.n 3) 0 2) ∧
    cc 0xA0B1C012 (.ldg .dbl (.n 5) (.n 1) 1 2) ∧ cc 0x86B18010 (.stu .word (.n 5) (.n 1) 1 0) ∧
    cc 0x8E538000 (.stk .word (.n 2) (.n 3) 0 0) ∧ cc 0x967C8001 (.stn .word (.n 3) (.n 12) 0 1) ∧
    cc 0x9F1BC000 (.std .dbl (.n 8) (.n 11) 0 0) ∧ cc 0xA6B1C012 (.stg .dbl (.n 5) (.n 1) 1 2) ∧
    cc 0xAAB105C0 (.aadd .g true .sys (.n 5) (.n 1) 0) ∧
    cc 0xAED2BB21 (.acas .d false .die (.n 6) (.n 2) (.n 7) 1) ∧
    cc 0xB2B10192 (.axch .k true .cluster (.n 5) (.n 1) 2) ∧
    cc 0xB6B10DB0 (.amax .umax .g true .pkg (.n 5) (.n 1) 0) ∧
    cc 0xBAB10540 (.afadd .g false .sys (.n 5) (.n 1) 0) ∧ cc 0xBCD20380 (.scld .d .dbl (.n 6) (.n 2)) ∧
    cc 0xC2B10380 (.scst .d .dbl (.n 5) (.n 1)) := by
  unfold cc; decide

theorem test_words_ordering :
    cc 0xC4020006 (.cfence .die 6) ∧ cc 0xC8006000 (.qfence 0x18) ∧ cc 0xCC000000 (.drain .u) ∧
    cc 0xD014D000 (.cwait (.n 4) (.n 10)) ∧ cc 0xD414A800 (.ctrinit (.n 4) (.n 5)) ∧
    cc 0xD8010002 (.arrive false 0 2) ∧ cc 0xD81AFFFF (.arrive true 3 0xFFFF) ∧
    cc 0xDC010002 (.await false 0 2) ∧ cc 0xE054A800 (.qpush 2 (.n 4) (.n 5)) ∧
    cc 0xE612F001 (.sta (.n 2) (.n 14) 0x8001) ∧ cc 0xE8161440 (.ctset 5 1 (.n 6)) ∧
    cc 0xED380002 (.xpred (.n 9) (.n 8) 2) ∧ cc 0xF018C800 (.xput (.n 8) (.n 9)) ∧
    cc 0xF4960000 (.xget (.n 4) (.n 6)) ∧ cc 0x7456BC00 (.btset (.n 2) (.n 6) (.n 7) 2) ∧
    cc 0x7856B800 (.btswap (.n 2) (.n 6) (.n 7)) ∧ cc 0x7C56B800 (.dead (.n 2) (.n 6) (.n 7)) := by
  unfold cc; decide

theorem test_words_matrix :
    pair .me 0x01000000 0 (.mclaim 0 0 b0) ∧ pair .me 0x02000004 0 (.mrel 0 4 b0) ∧
    pair .me 0x03040001 0x00050000 (.mfill 1 1 ⟨0, 0, some (1, false)⟩) ∧
    pair .me 0x0484FFFF 0 (.mnest 4 .astep (-1) b0) ∧
    pair .me 0x052880A5 0x80 (.msca 10 8 2 .g64 5 128 b0) ∧ pair .me 0x06100003 0 (.mzero 4 3 b0) ∧
    pair .me 0x07000002 0x00100000 (.mwb 0 2 ⟨0, 1, none⟩) ∧
    pair .me 0x12000040 0 (.mma .bf16 0 0 1 none b0) ∧ pair .me 0x100861C0 0 (.mma .f64 2 6 7 none b0) ∧
    pair .me 0x18204140 0x200 (.mma .q8 8 4 5 (some .g64) b0) ∧
    pair .me 0x22000040 0 (.mgo .bf16 0 0 1 none b0) ∧
    pair .me 0x371800C0 0x000D0000 (.mmaLad .e2m1 6 0 3 ⟨0, 0, some (3, false)⟩) ∧
    pair .me 0x40042001 0x80 (.mladr 1 0 true 1 128 b0) ∧ pair .me 0x41600010 0 (.mmon .cexp 16 b0) ∧
    pair .me 0x42000129 0 (.mspec (some ⟨0, 4, true, 9⟩) b0) ∧
    pair .me 0x431030D8 0 (.mresolve 4 3 3 true 8 b0) := by
  unfold pair; decide

theorem test_words_vector_arithmetic :
    pair .ve 0x01030102 0x20200E00 (.vadd ⟨.f32, .rne, 7, 3, 1, 2⟩ ⟨8, 2, none⟩) ∧
    pair .ve 0x02050504 0xE00 (.vsub ⟨.f32, .rne, 7, 5, 5, 4⟩ b0) ∧
    pair .ve 0x03010105 0x1E80 (.vmul ⟨.bf16, .rz, 7, 1, 1, 5⟩ b0) ∧
    pair .ve 0x04850102 0xE48 (.vfma ⟨.f32, .rne, 7, 5, 1, 2, 200⟩ b0) ∧
    pair .ve 0x05040102 0xE00 (.vmin ⟨.f32, .rne, 7, 4, 1, 2⟩ b0) ∧
    pair .ve 0x06040102 0xE00 (.vmax ⟨.f32, .rne, 7, 4, 1, 2⟩ b0) ∧
    pair .ve 0x07070600 0x4E00 (.vabs ⟨.i16, 7, 7, 6⟩ b0) ∧
    pair .ve 0x08070600 0x4E00 (.vneg ⟨.i16, 7, 7, 6⟩ b0) ∧
    pair .ve 0x09050500 0xE00 (.vrcp ⟨.f32, 7, 5, 5⟩ b0) ∧
    pair .ve 0x0A050500 0xE00 (.vrsq ⟨.f32, 7, 5, 5⟩ b0) ∧
    pair .ve 0x0B050500 0xE00 (.vexp2 ⟨.f32, 7, 5, 5⟩ b0) ∧
    pair .ve 0x0C050500 0xE00 (.vlog2 ⟨.f32, 7, 5, 5⟩ b0) ∧
    pair .ve 0x0D070100 0xE01 (.vcvt .bf16 .rne ⟨.f32, 7, 7, 1⟩ b0) ∧
    pair .ve 0x0E010102 0xE04 (.vcmp .gt .f32 7 1 1 2 b0) ∧
    pair .ve 0x0F850102 0xE48 (.vsel ⟨.f32, .rne, 7, 5, 1, 2, 200⟩ b0) ∧
    pair .ve 0x10050504 0x3E00 (.vand ⟨.i32, .rne, 7, 5, 5, 4⟩ b0) ∧
    pair .ve 0x11050504 0x3E00 (.vor ⟨.i32, .rne, 7, 5, 5, 4⟩ b0) ∧
    pair .ve 0x12000000 0x3E00 (.vxor ⟨.i32, .rne, 7, 0, 0, 0⟩ b0) ∧
    pair .ve 0x13020103 0x3E00 (.vshl ⟨.i32, .rne, 7, 2, 1, 3⟩ b0) ∧
    pair .ve 0x14020103 0x3E40 (.vshr true ⟨.i32, .rne, 7, 2, 1, 3⟩ b0) := by
  unfold pair; decide

theorem test_words_vector_moves :
    pair .ve 0x15060500 0x3E02 (.vred .max .rne ⟨.i32, 7, 6, 5⟩ b0) ∧
    pair .ve 0x16020103 0xE00 (.vperm ⟨.f32, .rne, 7, 2, 1, 3⟩ b0) ∧
    pair .ve 0x17020100 0xE3F (.vbcast 63 ⟨.f32, 7, 2, 1⟩ b0) ∧
    pair .ve 0x18010000 0x3E00 (.viota .i32 7 1 b0) ∧
    pair .ve 0x19023F80 0xE00 (.vmovi .f32 7 2 0x3F80 b0) ∧
    pair .ve 0x20050014 0xE00 (.vldu ⟨.f32, 7, 5, 1, 4⟩ b0) ∧
    pair .ve 0x21040006 0x00100E00 (.vstu ⟨.f32, 7, 4, 0, 6⟩ ⟨0, 1, none⟩) ∧
    pair .ve 0x22020023 0x1E00 (.vldk ⟨.bf16, 7, 2, 2, 3⟩ b0) ∧
    pair .ve 0x23020023 0x1E00 (.vstk ⟨.bf16, 7, 2, 2, 3⟩ b0) ∧
    pair .ve 0x24020023 0x1E00 (.vldd ⟨.bf16, 7, 2, 2, 3⟩ b0) ∧
    pair .ve 0x25020023 0x1E00 (.vstd ⟨.bf16, 7, 2, 2, 3⟩ b0) ∧
    pair .ve 0x26090802 0xE00 (.vldg 8 ⟨.f32, 7, 9, 0, 2⟩ b0) ∧
    pair .ve 0x27060015 0xE00 (.vstn ⟨.f32, 7, 6, 1, 5⟩ b0) ∧
    pair .ve 0x30000001 0 (.vgrow 1 b0) ∧ pair .ve 0x31000000 0 (.vshrink 0 b0) ∧
    pair .ve 0x320A0C10 0xE00 (.vrdacc false 7 10 3 1 b0) := by
  unfold pair; decide

theorem test_words_copy_gather_link :
    pair .ce 0x01010004 0 (.ccopy 0 false true 4 b0) ∧ pair .ce 0x010E0004 0 (.ccopy 3 true false 4 b0) ∧
    pair .ce 0x02000210 0 (.cfill .k 2 1 0 b0) ∧ pair .ce 0x03000043 0 (.cpost 4 3 b0) ∧
    pair .ce 0x040C0000 0 (.cqnt 3 b0) ∧ pair .ce 0x05300201 0 (.cmov .k .u 2 0 1 b0) ∧
    pair .ge 0x01081204 0 (.gcsr 2 1 .bf16 4 b0) ∧
    pair .ge 0x02040002 0x00200000 (.gmap 1 0 2 ⟨0, 2, none⟩) ∧
    pair .ge 0x03002345 0x100 (.grows 2 3 4 5 256 b0) ∧ pair .ge 0x04002345 0x100 (.gscat 2 3 4 5 256 b0) ∧
    pair .le 0x01402013 4 (.lsend 1 0 2 (some 3) 4 b0) ∧
    pair .le 0x02002013 0x08000100 (.lred false 1 0 2 3 0 256 ⟨2, 0, none⟩) ∧
    pair .le 0x02802013 0x4010 (.lred true 1 0 2 3 4 16 b0) ∧ pair .le 0x03000003 0 (.lbar 3 b0) := by
  unfold pair; decide

/-- R69: reserved bits 0x12, coded fields 0x13, destinations 0x14, opcodes 0x10, in that order. -/
theorem test_words_refused :
    decodeCC 0x543D0001 = .error 0x12 ∧ decodeCC 0x60000100 = .error 0x12 ∧
    decodeCC 0x06000000 = .error 0x14 ∧ decodeCC 0xFC000000 = .error 0x10 ∧
    decodeCC 0x28600006 = .error 0x13 ∧ decodeEngine .me 0x00000000 0 = .error 0x11 := by decide

-- An ill-formed term for each check of `Instr.wf`.

def self (e : Eng) : LaneB := ⟨BitVec.ofNat 6 (2 ^ e.num), 0, none⟩
def v3 (ty : VTy) (r : Rnd) : V3 := ⟨ty, r, 7, 1, 2, 3⟩
def v2 (ty : VTy) : V2 := ⟨ty, 7, 1, 2⟩
def v4 (ty : VTy) (r : Rnd) : V4 := ⟨ty, r, 7, 1, 2, 3, 4⟩

theorem test_ill_formed_control : ∀ i ∈ [Instr.movhi 1 0 0, .wid .push 6, .srd .push 4, .swr (.n 1) 4,
    .swr (.n 1) 0x50, .swr (.n 1) 0x51, .loop (.n 1) 0, .fork 1, .join 1, .qfence 1, .pset .cc 0 (.n 1), .drain .g,
    .qpush 0 (.n 1) (.n 2), .xpred .push (.n 1) 0, .xpred .push (.n 1) 5], i.wf = false := by decide

theorem test_ill_formed_matrix : ∀ i ∈ [Instr.mclaim 0 1 (self .me), .mrel 0 1 (self .me), .mzero 0 1 (self .me),
    .mfill 0 1 (self .me), .mwb 0 1 (self .me), .mnest 5 .astep 64 b0, .mnest 5 .flags 4 b0,
    .mnest 5 .count 1 (self .me), .msca 0 1 1 .g32 0 1 (self .me), .mmaLad .bf16 0 0 1 (self .me),
    .mladr 0 0 false 0 0 (self .me), .mspec none (self .me), .mresolve 0 1 2 false 0 (self .me),
    .mma .q8 0 0 1 none b0, .mma .bf16 0 0 1 (some .g32) b0, .mma .bf16 0 0 1 none (self .me),
    .mgo .q4 0 0 1 none b0, .mgo .bf16 0 0 1 none (self .me), .mmon .cexp 64 b0, .mmon .topmax 1 (self .me)],
    i.wf = false := by decide

theorem test_ill_formed_vector : ∀ i ∈ [Instr.vadd (v3 .i32 .rz) b0, .vsub (v3 .f32 .rne) (self .ve),
    .vmul (v3 .i8 .ru) b0, .vfma (v4 .i16 .rd) b0, .vfma (v4 .f32 .rne) (self .ve), .vmin (v3 .f32 .rz) b0,
    .vmax (v3 .f32 .rz) b0, .vand (v3 .i32 .rz) b0, .vor (v3 .i32 .rz) b0, .vxor (v3 .i32 .rz) b0,
    .vperm (v3 .f32 .rz) b0, .vabs (v2 .f32) (self .ve), .vneg (v2 .f32) (self .ve), .vrcp (v2 .i32) b0,
    .vrsq (v2 .i16) b0, .vexp2 (v2 .i8) b0, .vlog2 (v2 .i32) b0, .vcvt .f32 .rz (v2 .bf16) b0,
    .vcvt .i32 .rz (v2 .i16) b0, .vcmp .un .i32 7 0 1 2 b0, .vcmp .ltu .f32 7 0 1 2 b0,
    .vcmp .eq .f32 7 0 1 2 (self .ve), .vsel (v4 .f32 .rz) b0, .vshl (v3 .f32 .rne) b0, .vshl (v3 .i32 .rz) b0,
    .vshr true (v3 .bf16 .rne) b0, .vred .min .rz (v2 .f32) b0, .vred .sum .rz (v2 .i32) b0,
    .vbcast 0 (v2 .f32) (self .ve), .viota .i32 7 1 (self .ve), .vmovi .i8 7 1 256 b0, .vgrow 33 b0, .vshrink 33 b0,
    .vldu ⟨.f32, 7, 1, 0, 0⟩ (self .ve), .vldg 1 ⟨.f32, 7, 1, 0, 0⟩ (self .ve),
    .vrdacc false 7 1 0 0 (self .ve)], i.wf = false := by decide

theorem test_ill_formed_copy_gather_link : ∀ i ∈ [Instr.ccopy 0 false false 0 (self .ce), .cfill .u 0 1 2 (self .ce),
    .cpost 0 1 (self .ce), .cqnt 0 (self .ce), .cmov .g .u 0 1 2 b0, .cmov .u .g 0 1 2 b0,
    .cmov .u .k 0 1 2 (self .ce), .gcsr 0 1 .bf16 0 (self .ge), .gmap 0 0 1 (self .ge), .grows 0 0 1 2 0 b0,
    .grows 0 0 1 2 6 b0, .gscat 0 0 1 2 0 b0, .gscat 0 0 1 2 4 (self .ge), .lsend 0 1 2 none 0 (self .le),
    .lred false 0 1 2 3 0 0 (self .le), .lbar 0 (self .le)], i.wf = false := by decide

/-- The bounds themselves are well formed. -/
theorem test_well_formed_bounds : ∀ i ∈ [Instr.movhi 1 0 3, .wid .push 7, .srd .push 0x3FF, .loop (.n 1) 1,
    .xpred .push (.n 1) 4, .mnest 5 .astep 63 b0, .mnest 5 .astep (-63) b0, .mmon .cexp 63 b0, .vgrow 32 b0,
    .vmovi .i8 7 1 255 b0, .vcvt .bf16 .rz (v2 .f32) b0, .grows 0 0 1 2 4 b0], i.wf = true := by decide

-- Small states.

def st (f : Core → Core) : State := State.reset.upd f

/-- A running control thread in supervisor mode with a handler, at lane 1 of an open line. -/
def thread (c : Core) : Core :=
  { c with
    trap := { c.trap with tvb := 64 }, regs := { c.regs with sup := true },
    work := { c.work with run := .running },
    fetch := { c.fetch with line := 4096, lane := 1, opened := true, first := false } }

/-- The thread with register values. -/
def regs (l : List (Fin 16 × Word)) : State :=
  st fun c => let c := thread c
    { c with regs := { c.regs with n := l.foldl (fun v x => v.set x.1 x.2) c.regs.n } }

/-- The same in an exposed line. -/
def exposed (l : List (Fin 16 × Word)) : State :=
  (regs l).updFetch fun f => { f with lmode := 1 }
def deterministic (l : List (Fin 16 × Word)) : State :=
  (regs l).updFetch fun f => { f with lmode := 3 }
def user (s : State) : State := s.updRegs fun r => { r with sup := false }
def handler (s : State) : State := s.updTrap fun r => { r with inh := true }
def loops (l : List LoopEnt) (s : State) : State := s.updFetch fun f => { f with loops := l }

/-- Global memory with one context: buffer 0 may be read and written, buffer 1 holds counters; each is one page of
stack 0, behind a table at 0x1000 and frame lists at 0x2000 and 0x2008. -/
def gcells : List Host.Cell :=
  (([(0x1000, 0x2000), (0x1008, 65536), (0x1010, 2 ^ 48 + 0x23), (0x1020, 0x2008), (0x1028, 65536),
     (0x1030, 2 ^ 48 + 0x24), (0x2000, 2 ^ 63 + 5), (0x2008, 2 ^ 63 + 6)] : List (Nat × Nat)).map
    fun x => cellsFrom x.1 (leBytes 8 x.2)).flatten.filter fun c => c.2 != 0
def global (s : State) : State :=
  { s with gmem := { mem := gcells, bad := [] }, ctxs := s.ctxs.set 0 (some ⟨0x1000, 8⟩) }
def counter : Word := 0x1000000000000

/-- The state after a completed instruction has a property. -/
def after (o : Out) (p : State → Bool) : Bool := match o with | .next t => p t | _ => false

-- Statements on the control core: states that meet their hypotheses, clause by clause.

theorem wit_ImmediateCompareAndMoveResults : (7 : BitVec 3) = 7 ∧ (5 : BitVec 3).toNat < 6 := by decide

theorem wit_TransfersOfControl :
    ((regs [(3, 1)]).core.exposed = false ∧ (regs [(3, 1)]).operand (.n 3) ≠ 0) ∧
    (regs []).operand (.n 3) = 0 ∧
    ((regs [(15, 64)]).core.regs.n[15] ≠ 0 ∧ ((regs [(15, 64)]).core.regs.n[15]).toNat % 32 = 0) ∧
    ((regs []).core.regs.n[15] = 0 ∧ (regs []).core.trap.inh = false) ∧
    ((exposed []).core.exposed = true ∧ CanTrap (exposed [])) := by
  unfold CanTrap; decide

def two : List LoopEnt := [⟨2, 4096, 4⟩, ⟨1, 4128, 3⟩]

theorem wit_LoopsStartGoRoundAndEnd :
    ((loops two (regs [(3, 1)])).core.exposed = false ∧ (loops two (regs [(3, 1)])).operand (.n 3) ≠ 0) ∧
    ((loops two (regs [])).core.fetch.loops.length < 4 ∧
      ∀ l, (loops two (regs [])).core.fetch.loops.getLast? = some l →
        (loops two (regs [])).core.fetch.line.toNat + 32 * (3 : BitVec 21).toNat ≤ l.lastLine.toNat) ∧
    (¬ ((loops (two ++ two) (regs [])).core.fetch.loops.length < 4) ∧ CanTrap (loops (two ++ two) (regs []))) ∧
    ((⟨1, 4128, 3⟩ : LoopEnt).lastLine = 4192 ∧ (⟨1, 4128, 3⟩ : LoopEnt).left ≠ 0) ∧
    ((⟨0, 4128, 3⟩ : LoopEnt).lastLine = 4192 ∧ (⟨0, 4128, 3⟩ : LoopEnt).left = 0) ∧
    (⟨1, 4128, 3⟩ : LoopEnt).lastLine ≠ 4160 := by
  refine ⟨by decide, ⟨by decide, fun l h => ?_⟩, by unfold CanTrap; decide, by decide, by decide, by decide⟩
  have e : (loops two (regs [])).core.fetch.loops.getLast? = some ⟨1, 4128, 3⟩ := by decide
  rw [e] at h
  cases h
  decide

theorem wit_GuardSetsOneGuard : 0x543D0000 < 2 ^ 32 ∧ 0x543D0000 / 2 ^ 26 = 0x15 := by decide

theorem wit_EnginesActivateAndJoin :
    ((regs []).core.exposed = false ∧ (regs []).core.trap.inh = false ∧ (regs []).core.joined 2 = true ∧
      (2 : BitVec 6).getLsbD 2 = false) ∧
    ((regs []).core.joined 4 = true ∧ (4 : BitVec 6).getLsbD 2 = true) ∧
    ((exposed []).core.exposed = true ∧ CanTrap (exposed [])) ∧
    ((regs []).core.regs.sup = true ∧ (regs []).core.deterministic = false) ∧
    ((deterministic []).core.regs.sup = true ∧ (deterministic []).core.deterministic = true ∧
      CanTrap (deterministic [])) := by
  unfold CanTrap; decide

-- Engine queues.

/-- A queue of entries whose head has not started. -/
def entries (l : List QEntry) : EngQ := { entries := l, phase := .ready, step := 0, late := false, full := false, stalls := false }
def queue (e : Eng) (q : EngQ) (s : State) : State := s.updEng fun g => g.setQueue e q
def cap0 : Capture :=
  { params := Vector.replicate 16 0, guard := true, line := 4096, lane := 1, lmode := 0, ctx := 0, wid := 0, seq := 0,
    copy := none }
/-- An engine entry at the head of its queue. -/
def head (e : Eng) (i : Instr) (c : Capture) (s : State) : State := queue e (entries [.instr i c]) s
/-- The VE has still to make a routed store to the unit pad. -/
def owing (s : State) : State := head .ve (.vstu ⟨.f32, 7, 1, 0, 0⟩ b0) cap0 s
/-- A QFENCE of some queues. -/
def fence (m : BitVec 6) : FenceEnt := { id := 0, mask := m, upto := 0, line := 4096, lane := 1, lmode := 0 }

-- Memory. Unit pad of the thread: a store pending, a poisoned granule.

def posted (l : Loc) (as : List Nat) (s : State) : State :=
  s.post { ve := false, cls := 0, space := .u, loc := l, cells := as.map fun a => (a, 7), hold := none, seq := 0, num := 0,
           acc := 0, det := false }
def poisoned (l : Loc) (as : List Nat) (s : State) : State := s.setBad l as none

theorem wit_AddressesAndLocalSpaces : Space.u ≠ .g ∧ Space.g = .g := by decide

/-- An ordinary byte, a byte at the last address of the space, a global double word. -/
theorem wit_LoadsReadTheThread :
    (let s := regs [(1, 0x2FFFF0)]
     let e := effective .u (s.operand (.n 1)) 1 .dbl
     e.1.toNat % widthBytes .dbl = 0 ∧ e.2 = false ∧
     s.resolve .u .load e.1 (widthBytes .dbl) = .ok (.u 0, (List.range 8).map (0x2FFFF8 + ·)) ∧
     s.threadBad (.u 0) ((List.range 8).map (0x2FFFF8 + ·)) = none) ∧
    (let s := global (regs [(1, 8)])
     let e := effective .g (s.operand (.n 1)) (-1) .dbl
     e.1.toNat % widthBytes .dbl = 0 ∧ e.2 = false ∧
     s.resolve .g .load e.1 (widthBytes .dbl) = .ok (.g, (List.range 8).map (0x50000 + ·)) ∧
     s.threadBad .g ((List.range 8).map (0x50000 + ·)) = none) := by decide

theorem wit_StoresArePosted :
    let s := global (regs [(1, 8), (2, 5)])
    let e := effective .g (s.operand (.n 1)) (-1) .dbl
    e.1.toNat % widthBytes .dbl = 0 ∧ e.2 = false ∧
    s.resolve .g .store e.1 (widthBytes .dbl) = .ok (.g, (List.range 8).map (0x50000 + ·)) ∧
    s.partialBad .g ((List.range 8).map (0x50000 + ·)) = none := by decide

/-- The same with buffer 0 on a frame that its stack does not have. -/
def absent (s : State) : State :=
  let l : Loc := .g
  (global s).perform l ((List.range 8).zipWith (fun i b => (0x2000 + i, b)) (leBytes 8 (2 ^ 63 + 2 ^ 20)))

/-- Misaligned; a carry at bit 47; outside the space; a poisoned granule; a frame that is not there. -/
theorem wit_AccessFaultsInOrder :
    CanTrap (regs [(1, 4)]) ∧
    (effective .u ((regs [(1, 4)]).operand (.n 1)) 0 .dbl).1.toNat % widthBytes .dbl ≠ 0 ∧
    (let e := effective .g ((regs [(1, 0xFFFFFFFFFFF8)]).operand (.n 1)) 1 .dbl
     e.1.toNat % widthBytes .dbl = 0 ∧ e.2 = true) ∧
    (let s := regs [(1, 0x300000)]
     let e := effective .u (s.operand (.n 1)) 0 .dbl
     e.1.toNat % widthBytes .dbl = 0 ∧ e.2 = false ∧
     s.resolve .u .load e.1 8 = .error ⟨0x04, infoLocal e.1, none⟩ ∧
     s.resolve .u .store e.1 8 = .error ⟨0x04, infoLocal e.1, none⟩) ∧
    (let s := poisoned (.u 0) [16] (regs [(1, 16)])
     let e := effective .u (s.operand (.n 1)) 0 .word
     e.1.toNat % widthBytes .word = 0 ∧ e.2 = false ∧
     s.resolve .u .load e.1 4 = .ok (.u 0, [16, 17, 18, 19]) ∧
     s.threadBad (.u 0) [16, 17, 18, 19] = some (16, none) ∧
     s.resolve .u .store e.1 4 = .ok (.u 0, [16, 17, 18, 19]) ∧
     s.partialBad (.u 0) [16, 17, 18, 19] = some (16, none)) ∧
    (let s := absent (regs [(1, 0)])
     let e := effective .g (s.operand (.n 1)) 0 .word
     let b : Bad := ⟨0x06, infoG e.1, some (2 ^ 36)⟩
     e.1.toNat % widthBytes .word = 0 ∧ e.2 = false ∧ s.resolve .g .load e.1 4 = .error b ∧
     s.resolve .g .store e.1 4 = .error b) := by
  unfold CanTrap; decide +kernel

theorem wit_AtomicsReadAndWrite :
    (let s := regs [(1, 0xFFFFFC), (2, 1)]
     (s.operand (.n 1)).toNat % 4 = 0 ∧ s.threadBad (.k 0) ((List.range 4).map (0xFFFFFC + ·)) = none ∧
     s.resolve .k (.aadd false) (s.operand (.n 1)) 4 = .ok (.k 0, (List.range 4).map (0xFFFFFC + ·)) ∧
     s.resolve .k .rmw (s.operand (.n 1)) 4 = .ok (.k 0, (List.range 4).map (0xFFFFFC + ·)) ∧
     s.core.deterministic = false) ∧
    (let s := (global (regs [(1, counter), (2, -1)])).perform .g [(0x60000, 5)]
     let as := (List.range 8).map (0x60000 + ·)
     let old := leNat (as.map (s.threadByte .g))
     let v := (s.operand (.n 2)).toNat % 2 ^ (8 * 8)
     s.threadBad .g as = none ∧ s.resolve .g (.aadd true) (s.operand (.n 1)) 8 = .ok (.g, as) ∧
     s.isCounter (s.operand (.n 1)) = true ∧ (old + v) % 2 ^ (8 * 8) < old ∧ CanTrap s) ∧
    (let s := deterministic [(1, 8)]
     s.resolve .k .rmw (s.operand (.n 1)) 8 = .ok (.k 0, (List.range 8).map (8 + ·)) ∧
     s.core.deterministic = true) := by
  unfold CanTrap; decide

/-- Core 0 at position 128; at position 1; the same after an SC access of the region. -/
theorem wit_SequentialAccesses :
    (let s : State := { regs [(1, 8)] with time := 1280 }
     let u := s.performWhere fun _ => true
     (s.operand (.n 1)).toNat % widthBytes .dbl = 0 ∧
     s.resolve .k .load (s.operand (.n 1)) 8 = .ok (.k 0, (List.range 8).map (8 + ·)) ∧
     s.resolve .k .store (s.operand (.n 1)) 8 = .ok (.k 0, (List.range 8).map (8 + ·)) ∧
     s.time.toNat / 10 % 4096 % 128 = s.cur.val ∧ s.core.fetch.scLast ≠ some (s.time.toNat / 10) ∧
     u.firstBad (.k 0) ((List.range 8).map (8 + ·)) = none ∧
     u.partialBad (.k 0) ((List.range 8).map (8 + ·)) = none) ∧
    (let s : State := { regs [(1, 8)] with time := 10 }
     ¬ (s.time.toNat / 10 % 4096 % 128 = s.cur.val) ∧ ¬ (s.core.exposed = true ∧ s.core.fetch.scDone = true)) ∧
    (let s : State := { (exposed [(1, 8)]).updFetch (fun f => { f with scDone := true }) with time := 10 }
     ¬ (s.time.toNat / 10 % 4096 % 128 = s.cur.val) ∧ (s.core.exposed = true ∧ s.core.fetch.scDone = true) ∧
     CanTrap s) ∧
    (owing (regs [])).core.veOwes (fun _ _ => true) = true ∧ (regs []).core.veOwes (fun _ _ => true) = false := by
  unfold CanTrap; decide +kernel

theorem wit_CountersInitAndWait :
    (let s := global (regs [(1, counter), (2, 3)])
     let as := (List.range 8).map (0x60000 + ·)
     (s.operand (.n 1)).toNat % 8 = 0 ∧ s.resolve .g .counter (s.operand (.n 1)) 8 = .ok (.g, as) ∧
     s.ctrBusy s.core.ctx ((s.operand (.n 1)).toNat / 2 ^ 48) = false ∧ s.partialBad .g as = none ∧
     s.threadBad .g as = none ∧ leNat (as.map (s.byteAt .g)) < (s.operand (.n 2)).toNat) ∧
    (let s := (global (regs [(1, counter), (2, 3)])).addHold 0 1 true
     s.ctrBusy s.core.ctx ((s.operand (.n 1)).toNat / 2 ^ 48) = true ∧ CanTrap s) ∧
    (let s := (global (regs [(1, counter), (2, 3)])).perform .g [(0x60000, 3)]
     (s.operand (.n 2)).toNat ≤ leNat (((List.range 8).map (0x60000 + ·)).map (s.byteAt .g))) := by
  unfold CanTrap; decide

-- Ordering.

def copy0 : Copy :=
  { ssp := .u, dsp := .k, src := 0, dst := 0, esize := 8, count := 1, map := none, fill := none, moves := true,
    post := none, spec := false, fail := none, srcX := none, dstX := none, ctrX := none, holds := [], cls := 0, need := [], ctx := 0,
    seq := 0, num := 0, det := false }
def channel (ch : Nat) (x : Channel) (s : State) : State :=
  s.updCpy fun k => { k with channels := vset k.channels ch x }

theorem wit_FencesAndDrains :
    (regs []).core.veOwesMask 1 = false ∧ (owing (regs [])).core.veOwesMask 1 = true ∧
    (∀ k ∈ (regs []).core.liveCopies, k.moves = true → k.dsp ≠ CSpace.u) ∧
    (∃ k ∈ (channel 0 ⟨none, [copy0]⟩ (regs [])).core.liveCopies, k.moves = true ∧ k.dsp = CSpace.k) ∧
    (∀ e ∈ engines, (24 : BitVec 6).getLsbD e.num = true → ((regs []).core.queue e).entries.length < 32) ∧
    (¬ ∀ e ∈ engines, (24 : BitVec 6).getLsbD e.num = true →
      ((queue .ce (entries (List.replicate 32 (.fence (fence 8)))) (regs [])).core.queue e).entries.length < 32) ∧
    (let s := queue .ce (entries [.fence (fence 8)]) (regs [])
     (s.core.queue .ce).entries.head? = some (.fence (fence 8)) ∧ s.core.halted = false ∧ s.core.frozen = false ∧
     Eng.ce ∈ engines ∧ (fence 8).mask.getLsbD Eng.ce.num = true ∧
     ∀ x ∈ engines, (fence 8).mask.getLsbD x.num = true → s.core.fenceReady (fence 8) x = true) ∧
    (let s := queue .ce (entries [.fence (fence 0x18)]) (regs [])
     ¬ ∀ x ∈ engines, (fence 0x18).mask.getLsbD x.num = true → s.core.fenceReady (fence 0x18) x = true) := by
  decide +kernel

/-- A node of cores 0 and 1, and the place of the core in it. -/
def img3 : Vector Word 16 := (Vector.replicate 16 0).set 4 3
def node3 : Node := { Node.none with img := img3 }
def prog3 : Progress :=
  { q := 0, node := node3, seq := 0, kernel := 0, j := 0, p := 2, next := 1, last := 2, carry := Vector.replicate 3 0,
    stage := 0, inRec := none, outRec := none, running := true, chosen := false }
def working (p : Progress) (s : State) : State := s.updWork fun w => { w with cur := some p }

/-- A barrier that core 0 has come to and core 1 has not. -/
theorem wit_BarrierArrivals :
    (∀ c ∈ (working prog3 (regs [])).unitCores false, imgHas (working prog3 (regs [])).barNode.img c = true →
      (smapGet ((working prog3 (regs [])).arrivals false 0) 0).getD 0 ≤
        (smapGet ((working prog3 (regs [])).arrivals false 0) c).getD 0) ∧
    (let s := (working prog3 (regs [])).recordArrival false 0
     ¬ ∀ c ∈ s.unitCores false, imgHas s.barNode.img c = true →
      (smapGet (s.arrivals false 0) 0).getD 0 ≤ (smapGet (s.arrivals false 0) c).getD 0) ∧
    (working prog3 (regs [])).core.veOwesMask 1 = false ∧
    (owing (working prog3 (regs []))).core.veOwesMask 1 = true := by decide +kernel

theorem wit_QueuePushes :
    (let s := regs [(1, 127), (2, 0x2FFF80)]
     s.core.exposed = false ∧ (s.operand (.n 1)).toNat < 128 ∧ (s.operand (.n 2)).toNat % 128 = 0 ∧
     (s.operand (.n 2)).toNat + 128 ≤ 0x300000 ∧ s.threadBad (.u s.cur) ((List.range 128).map (0x2FFF80 + ·)) = none ∧
     (((s.coreAt 127).cmdq 2).nodes).length < 16 ∧ CanTrap s ∧ s.core.veOwes (fun _ sp => sp == .u) = false ∧
     (owing s).core.veOwes (fun _ sp => sp == .u) = true) ∧
    (let s := (regs []).updAt 0 fun c => { c with work := { c.work with
       queues := c.work.queues.set 2 { CmdQ.empty with nodes := List.replicate 16 node3 } } }
     16 ≤ (((s.coreAt 0).cmdq 2).nodes).length) ∧
    (exposed []).core.exposed = true ∧ CanTrap (exposed []) ∧
    127 < ((regs [(1, 128)]).operand (.n 1)).toNat ∧ ((regs [(2, 64)]).operand (.n 2)).toNat % 128 ≠ 0 ∧
    0x300000 < ((regs [(2, 0x300000)]).operand (.n 2)).toNat + 128 := by
  unfold CanTrap; decide +kernel

/-- A template of zeros is a copy of no element. -/
theorem wit_TemplatesAndStarts :
    ((regs [(1, 0x38)]).operand (.n 1)).toNat < 0x40 ∧ ((regs [(1, 0x38)]).operand (.n 1)).toNat % 8 = 0 ∧
    (∃ k s', (regs []).captureCopy 0 0 false false = .ok k s') ∧
    (vget (regs []).core.cpy.channels 7 Channel.none).waiting.length < 4 ∧
    4 ≤ (vget (channel 7 ⟨none, List.replicate 4 copy0⟩ (regs [])).core.cpy.channels 7 Channel.none).waiting.length ∧
    CanTrap (regs [(1, 0x40)]) ∧ 0x40 ≤ ((regs [(1, 0x40)]).operand (.n 1)).toNat ∧
    ((regs [(1, 0x3C)]).operand (.n 1)).toNat < 0x40 ∧ ((regs [(1, 0x3C)]).operand (.n 1)).toNat % 8 ≠ 0 := by
  refine ⟨by decide, by decide, ⟨_, _, rfl⟩, by decide, by decide, by unfold CanTrap; decide, by decide⟩

theorem wit_BufferTableUpdates :
    let s := global (regs [(1, 8), (2, 1)])
    s.core.regs.sup = true ∧ s.entryAddr s.core.ctx (s.operand (.n 1)).toNat 0 = none ∧
    s.entryAddr s.core.ctx (s.operand (.n 2)).toNat 0 = some 0x1020 ∧
    s.entryAddr s.core.ctx (s.operand (.n 2)).toNat 2 = some 0x1030 ∧
    s.holdCount s.core.ctx (s.operand (.n 2)).toNat = 0 ∧
    (s.addHold 0 1 false).holdCount s.core.ctx (s.operand (.n 2)).toNat ≠ 0 ∧
    word2Ok 0x40 = false ∧ word2Ok 0x23 = false ∧ word2Ok (BitVec.ofNat 64 (2 ^ 48 + 0x23)) = true ∧
    s.firstBad .g ((List.range 8).map (0x1030 + ·)) = none ∧
    (poisoned .g [0x1030] s).firstBad .g ((List.range 8).map (0x1030 + ·)) = some (0x1030, none) := by decide +kernel

def garnet0 : Garnet := { tag := 1, cand := ⟨#[(3, 2), (4, 5), (0xFFF, 0), (7, 5)], rfl⟩ }
theorem wit_PredictorEntries :
    (let s := (regs [(1, 4097)]).upd fun c => { c with garnet := [(1, garnet0)] }
     smapGet s.core.garnet ((s.operand (.n 1)).toNat % 4096) = some garnet0 ∧
     garnet0.tag = BitVec.ofNat 16 ((s.operand (.n 1)).toNat / 4096)) ∧
    (1 ≤ (4 : BitVec 3).toNat ∧ (4 : BitVec 3).toNat ≤ 4) ∧
    ¬ (∃ g, smapGet (regs []).core.garnet 0 = some g ∧ g.tag = 0) := by
  refine ⟨by decide +kernel, by decide, fun h => ?_⟩
  obtain ⟨g, h, -⟩ := h
  cases h

-- Traps, modes, system registers.

def pending (l : List TrapReq) (s : State) : State := s.updTrap fun r => { r with pending := l }
def sprintEnd : TrapReq := { code := 0x10, info := 7, eng := .cc }
def engineTrap : TrapReq := { code := 0x09, info := 3, eng := .me }

theorem wit_PendingTrapsAreEntered :
    let s := pending [sprintEnd, engineTrap] (regs [])
    s.core.work.run = .running ∧ s.core.work.stopped = false ∧ CanTrap s ∧ s.core.nextTrap = some engineTrap ∧
    (regs []).core.nextTrap = none ∧
    (let late := (pending [{ code := 0x19, info := 0, eng := .ve }] (regs [])).updEng fun g =>
       g.setQueue .ve { entries [.fence (fence 4)] with stalls := true }
     late.core.stalls .ve = true ∧ late.core.nextTrap = none) ∧
    (1 ≤ s.core.fetch.lane ∧ s.core.fetch.lane < 8 ∧
      route (s.laneWord s.core.fetch.line 0) s.core.fetch.lane ≤ 5) := by
  unfold CanTrap; decide +kernel

theorem wit_DoubleFaultStopsTheCore :
    (handler (regs [])).core.trap.inh = true ∧ State.reset.core.trap.tvb = 0 := by decide

theorem wit_LoopRegistersHoldLoops :
    let ls : List LoopEnt := [⟨2, 4096, 4⟩, ⟨0, 4128, 2 ^ 21 - 1⟩]
    ls.length ≤ 4 ∧ ∀ l ∈ ls, 0 < l.len ∧ l.len < 2 ^ 21 ∧ l.first.toNat % 32 = 0 ∧
      l.first.toNat / 2 ^ 48 = (4100 : Word).toNat / 2 ^ 48 := by decide

theorem wit_SoftwareTrapAndReturn :
    0x6000002A < 2 ^ 32 ∧ 0x6000002A / 2 ^ 26 = 0x18 ∧ (handler (regs [])).core.trap.inh = true ∧
    (let s := loops two (regs [])
     let next := s.core.nextLine
     CanTrap s ∧ s.core.work.preempting = none ∧ s.core.vec.parked = [] ∧ next.fetch.line.toNat % 32 = 0 ∧
     next.fetch.loops.length ≤ 4 ∧ ∀ l ∈ next.fetch.loops, 0 < l.len ∧ l.len < 2 ^ 21 ∧ l.first.toNat % 32 = 0 ∧
       l.first.toNat / 2 ^ 48 = next.fetch.line.toNat / 2 ^ 48) ∧
    (let h := (regs []).updTrap fun r => { r with tpc := 4100 }
     h.core.regs.sup = true ∧ h.core.trap.abort = false ∧ h.core.work.preempting = none ∧
     h.core.trap.tpc.toNat / 4 % 8 ≠ 0) := by
  unfold CanTrap; decide +kernel

theorem wit_ReturnRestoresOrGivesUp :
    (let h := (regs []).updTrap fun r => { r with tpc := 4100 }
     h.core.regs.sup = true ∧ h.core.trap.tpc.toNat / 4 % 8 ≠ 0 ∧ h.core.work.preempting = none ∧
     h.core.trap.abort = false ∧ h.core.vec.parked = []) ∧
    (let h := working prog3 ((regs []).updTrap fun r => { r with tpc := 4100, abort := true })
     h.core.trap.abort = true ∧ h.core.work.cur = some prog3 ∧ h.core.vec.parked = []) ∧
    (regs []).core.trap.tpc.toNat / 4 % 8 = 0 := by decide +kernel

theorem wit_BreakpointsStopOrTrap :
    (let s := (regs []).updWork fun w => { w with dbg := some (.brk 0x80) }
     ∃ m, s.core.work.dbg = some (.brk m) ∧ m.getLsbD ((7 : BitVec 16).toNat % 64) = true) ∧
    (¬ ∃ m, (regs []).core.work.dbg = some (.brk m) ∧ m.getLsbD ((7 : BitVec 16).toNat % 64) = true) ∧
    CanTrap (regs []) ∧ (regs []).core.fetch.lane < 7 ∧
    7 ≤ ((regs []).updFetch fun f => { f with lane := 7 }).core.fetch.lane := by
  refine ⟨⟨0x80, by decide⟩, fun h => ?_, by unfold CanTrap; decide, by decide, by decide⟩
  obtain ⟨m, h, -⟩ := h
  cases h

theorem wit_UserModeRaisesPriv :
    (user (regs [])).core.regs.sup = false ∧ CanTrap (user (regs [])) ∧
    ((user (regs [(1, 1)])).operand (.n 1)).toNat % 4 = 1 ∧ ((user (regs [(1, 2)])).operand (.n 1)).toNat % 4 = 2 ∧
    userReads 0x010 = false ∧ userWrites 0x001 = false := by
  unfold CanTrap; decide

/-- A TRAP in user mode. -/
theorem wit_UserModeCannotRaiseItself :
    isEvent (.trap 1) = false ∧ (user (regs [])).core.regs.sup = false ∧
    ∃ t, exec (.trap 1) (user (regs [])) = .next t := by
  refine ⟨by decide, by decide, ⟨_, rfl⟩⟩

theorem wit_SystemRegistersReadAndWrite : (regs []).core.regs.sup = true := by decide
theorem wit_SchedBreakCount : (regs []).core.regs.sup = true := by decide

def tokens (a b : Eng) (n : Nat) (s : State) : State :=
  s.updEng fun g => { g with tokens := vset g.tokens (6 * a.num + b.num) n }

theorem wit_TokensAndReplayQueue :
    (let s := tokens .ve .cc 1 (tokens .cc .ve 15 (regs [(1, 6)]))
     (Eng.ve ∈ engines ∧ (s.operand (.n 1)).getLsbD Eng.ve.num = true ∧ s.core.fetch.moved.getLsbD Eng.ve.num = false) ∧
     15 ≤ s.core.eng.tok .cc .ve ∧ s.core.eng.tok .cc .me < 15 ∧ 0 < s.core.eng.tok .ve .cc) ∧
    (let s := tokens .me .cc 1 (regs [(1, 6)])
     (∀ e ∈ [Eng.me, .ve], e ∈ engines ∧ (s.operand (.n 1)).getLsbD e.num = true ∧ s.core.fetch.moved.getLsbD e.num = false) ∧
     Eng.me.num < Eng.ve.num ∧ 0 < s.core.eng.tok .me .cc ∧ s.core.eng.tok .ve .cc = 0) ∧
    (regs []).core.regs.sup = true ∧ ((regs [(1, 2)]).operand (.n 1)).toNat % 4 = 2 ∧
    ((regs [(1, 1)]).operand (.n 1)).toNat % 4 = 1 ∧
    (∃ x v, (global (regs [])).gatherPlaces 0 0 0 4 = .ok x ∧
      (global (regs [])).gatherRead (.ok x) = .ok v) ∧
    (∃ e, (regs []).gatherPlaces 0 0 0 4 = .error e) ∧
    ((regs []).core.vec.refuses 1 [0] = false ∧
      ((regs []).updVec fun v => { v with vbad := [32] }).core.vec.refuses 1 [0] = true) := by
  refine ⟨by decide +kernel, by decide +kernel, by decide, by decide, by decide, ⟨_, _, rfl, rfl⟩, ⟨_, rfl⟩, by decide +kernel⟩

def lease7 : Lease := { id := 7, clusters := 3, expiry := 100 }
def leased (s : State) : State := s.updPower fun p => { p with leases := [lease7], nextLease := 8 }

/-- A request of the instant, of core 2, has been served. -/
def served (s : State) : State := s.updPower fun p => { p with lastReq := some (s.time, 2) }

/-- No status; statuses 5, 4, 1, 2 and 3; a live lease of the core's cluster and none. -/
theorem wit_SprintLeases :
    ((regs []).servedAfter 0 = false ∧ (served (regs [])).servedAfter 0 = true ∧
      (served (regs [])).servedAfter 2 = false ∧ (served (regs [])).servedAfter (-1) = true) ∧
    (∀ l ∈ (leased (regs [])).power.leases, (leased (regs [])).time.toNat < l.expiry.toNat) ∧
    (leased (regs [])).power.sprinting = 3 ∧ ((regs [(2, 60000001)]).operand (.n 2)).toNat > 60000000 ∧
    (leased (regs [])).power.sprinting &&& (3 : Word).setWidth 32 ≠ 0 ∧
    (let p := (regs []).power
     ¬ (p.splim.toNat ≤ p.frac.toNat) ∧ p.refreeze.isSome = false ∧
     ¬ (p.spmax < popcount 32 p.sprinting.toNat + popcount 32 (0xFFFFFFFF : Word).toNat)) ∧
    (leased (regs [])).power.leases.find? (fun l => l.id == (7 : Word).toNat && l.clusters.getLsbD (regs []).cluster) =
      some lease7 ∧
    (regs []).power.leases.find? (fun l => l.id == (7 : Word).toNat && l.clusters.getLsbD (regs []).cluster) = none := by
  decide +kernel

-- A turn, routing, encodings, memory.

/-- Lane 1 of the line at 4096 holds `word`, lane 2 `next`, under a header that routes lane 1 by `r`. -/
def turn (a : Act) (r word next : Nat) : State :=
  { regs [] with
    turns := [⟨0, a, none, none⟩]
    code := (cellsFrom 4096 (leBytes 4 (4 + 16 * r) ++ leBytes 4 word ++ leBytes 4 next)).filter fun c => c.2 != 0 }

/-- A control-core lane, a lane pair, an empty lane, a lane that is no instruction, an engine's turn, an event. -/
theorem wit_StepRunsDecodedInstruction :
    (let s := turn .lane 0 0x0491A800 0
     let u := s.takeTurn.2.begin s.takeTurn.1
     (s.takeTurn.1.act = .lane ∧ u.core.halted = false ∧ u.core.work.run = .running ∧ u.core.trapDue = false ∧
       u.core.fetch.draining = false ∧ u.core.fetch.opened = true ∧ u.core.fetch.lane < 8) ∧ CanTrap u ∧
     route (u.laneWord u.core.fetch.line 0) u.core.fetch.lane = 0 ∧
     decodeCC (u.laneWord u.core.fetch.line u.core.fetch.lane) = .ok (.add (.n 4) (.n 1) (.n 5))) ∧
    (let s := turn .lane 5 0x03000003 0
     let u := s.takeTurn.2.begin s.takeTurn.1
     route (u.laneWord u.core.fetch.line 0) u.core.fetch.lane = 5 ∧
     decodeEngine (engOf 5) (u.laneWord u.core.fetch.line u.core.fetch.lane)
       (u.laneWord u.core.fetch.line (u.core.fetch.lane + 1)) = .ok (.lbar 3 b0)) ∧
    (let s := turn .lane 14 0 0
     let u := s.takeTurn.2.begin s.takeTurn.1
     5 < route (u.laneWord u.core.fetch.line 0) u.core.fetch.lane) ∧
    (let s := turn .lane 0 0x543D0001 0
     let u := s.takeTurn.2.begin s.takeTurn.1
     decodeCC (u.laneWord u.core.fetch.line u.core.fetch.lane) = .error 0x12) ∧
    (let s := head .me (.mspec none b0) cap0 (turn (.engine .me) 0 0 0)
     let u := s.takeTurn.2.begin s.takeTurn.1
     s.takeTurn.1.act = .engine .me ∧ u.core.halted = false ∧ u.core.frozen = false ∧
     (u.core.queue .me).entries.head? = some (.instr (.mspec none b0) cap0) ∧ (u.core.queue .me).phase = .ready ∧
     State.readsAt .me (.mspec none b0) cap0 = none) ∧
    (let s := turn (.land 3 0) 0 0 0
     s.takeTurn.1.act = .land 3 0 ∧ (s.takeTurn.2.begin s.takeTurn.1).core.halted = false) ∧
    (let s := turn (.event .mbrspRead) 0 0 0
     isHostEvent .mbrspRead = true ∧ (s.takeTurn.2.begin s.takeTurn.1).host.linked = true) ∧
    (isEvent .droopAlarm = true ∧ (turn (.event .droopAlarm) 0 0 0).takeTurn.1.act = .event .droopAlarm) := by
  unfold CanTrap; decide +kernel

def forked (m : BitVec 6) (s : State) : State := s.updEng fun g => { g with active := m }
def lredX (x : Fin 16) : Instr := .lred false 1 0 2 3 x 16 b0

theorem wit_LanePairsAreRouted :
    (let s := forked 0x3E (regs [])
     LaneB.of (.mspec none b0) = some b0 ∧ s.core.eng.active.getLsbD Eng.me.num = true ∧
     (s.core.queue .me).entries.length < 32 ∧ (∃ k s', s.captureCopy 0 0 false false = .ok k s') ∧
     LaneB.of (.ccopy 0 false false 0 b0) = some b0 ∧ CanTrap s) ∧
    32 ≤ ((queue .me (entries (List.replicate 32 (.fence (fence 2)))) (regs [])).core.queue .me).entries.length ∧
    ¬ ((regs []).core.eng.active.getLsbD Eng.me.num = true) ∧
    decodeEngine .le 0x02002013 0x08000100 = .ok (.lred false 1 0 2 3 0 256 ⟨2, 0, none⟩) ∧
    decodeInLine true .le 0x02002013 0x08000100 = .error 0x13 ∧
    decodeEngine .me 0x42000129 0 = .ok (.mspec (some ⟨0, 4, true, 9⟩) b0) ∧ LaneB.of (lredX 0) = some b0 := by
  refine ⟨⟨by decide, by decide, by decide, ⟨_, _, rfl⟩, by decide, by unfold CanTrap; decide⟩, by decide +kernel,
    by decide, by decide, by decide, by decide, by decide⟩

theorem wit_EncodeAndDecodeAgree :
    (Instr.add (.n 4) (.n 1) (.n 5)).wf = true ∧ encode (.add (.n 4) (.n 1) (.n 5)) = some (.cc 0x0491A800) ∧
    decodeCC 0x0491A800 = .ok (.add (.n 4) (.n 1) (.n 5)) ∧ 0x0491A800 < 2 ^ 32 ∧
    decodeEngine .le 0x03000003 0 = .ok (.lbar 3 b0) := by decide

theorem wit_StepKeepsMemoryCanonical : State.reset.memWf ∧ ∃ t, step State.reset = .next t :=
  ⟨State.reset_memWf, ⟨_, rfl⟩⟩

theorem wit_ResetState : Loc.u 0 ≠ Loc.g ∧ Loc.d 1 ≠ Loc.g := by decide

-- The matrix engine.

def slot (j : Nat) (x : Slot) (s : State) : State :=
  s.updMe fun m => { m with slots := vset m.slots j x }
def filled : Slot := { Slot.reset with st := .filled }

theorem wit_SlotRangesAndMatrixRegisters :
    (let s := head .me (.mclaim 63 1 b0) cap0 (regs [])
     AtHead s .me b0 (.mclaim 63 1 b0) cap0 ∧ 63 + 1 ≤ 64 ∧ (s.core.me.slot 63).st = .free ∧ 64 < 63 + 2) ∧
    (let s := head .me (.mrel 0 1 b0) cap0 (slot 0 filled (regs []))
     AtHead s .me b0 (.mrel 0 1 b0) cap0 ∧ (s.core.me.slot 0).st ≠ .free ∧ (s.core.me.slot 1).st = .free) ∧
    (AtHead (head .me (.mzero 63 1 b0) cap0 (regs [])) .me b0 (.mzero 63 1 b0) cap0 ∧ Memory.wf (regs []).core.me.amem) ∧
    AtHead (head .me (.mnest 5 .count 2 b0) cap0 (regs [])) .me b0 (.mnest 5 .count 2 b0) cap0 ∧
    AtHead (head .me (.mmon .topmax 2 b0) cap0 (regs [])) .me b0 (.mmon .topmax 2 b0) cap0 ∧
    AtHead (head .me (.mspec none b0) cap0 (regs [])) .me b0 (.mspec none b0) cap0 ∧
    (let i : Instr := .mspec (some ⟨0, 4, true, 9⟩) b0
     AtHead (head .me i cap0 (regs [])) .me b0 i cap0 ∧ (cap0.params[9]).toNat % 128 = 0 ∧
     (({ cap0 with params := Vector.replicate 16 64 } : Capture).params[9]).toNat % 128 ≠ 0) ∧
    (let i : Instr := .mladr 0 0 false 1 0 b0
     let s := head .me i cap0 ((slot 0 filled (regs [])).updMe fun m => { m with ladders := m.ladders.set 0 0x8000000000000002 })
     AtHead s .me b0 i cap0 ∧ (s.core.me.slot 0).st ≠ .free ∧ (cap0.params[1]).toNat % 64 = 0 ∧
     (cap0.params[1]).toNat + 128 * 512 ≤ 0x300000) := by
  dsimp only; and_intros <;> decide +kernel

def fill0 : Fill :=
  { slot := 63, bytes := List.replicate 16384 1, zp := none, sat := 0, unf := 0, nan := 0, poison := none, skip := false,
    keepBind := false, ebits := 16, map := none, raw := [], old := none }
def filling (s : State) : State := s.updCpy fun k => { k with fills := [(.me, fill0)] }

/-- Accumulator entry 0 with a poisoned granule. -/
def poisonedEntry (s : State) : State := s.updMe fun m => { m with abad := [0] }

theorem wit_SlotsAreFilled :
    (let i : Instr := .mfill 1 0 b0
     let s := head .me i cap0 (slot 1 { Slot.reset with st := .claimed } (regs []))
     s.memWf ∧ (cap0.params[0]).toNat % 256 = 0 ∧ (cap0.params[0]).toNat + 16384 ≤ 0x300000 ∧
     s.unit.bad = [] ∧ s.core.pend = [] ∧ AtHead s .me b0 i cap0 ∧ (s.core.me.slot 1).st ≠ .free ∧
     (s.core.me.slot 2).st = .free) ∧
    (let s := head .me (.mwb 0 0 b0) cap0 (regs [])
     AtHead s .me b0 (.mwb 0 0 b0) cap0 ∧ s.core.me.entryPoison 0 = false ∧
     (poisonedEntry s).core.me.entryPoison 0 = true) ∧
    (let s := filling (regs [])
     s.core.cpy.fills.find? (fun x => x.1 == Eng.me) = some (.me, fill0) ∧ s.core.frozen = false ∧ fill0.slot < 64 ∧
     fill0.old = none ∧ fill0.map = none ∧ fill0.bytes.length = 16384) := by
  dsimp only
  refine ⟨⟨State.memWf_of_lists ?_ ?_ ?_ ?_ ?_ ?_, ?_⟩, ?_, rfl, by decide +kernel, by decide, rfl, rfl,
    List.length_replicate⟩
  all_goals first | decide +kernel | (and_intros <;> decide +kernel)

def bindA : Bind := { lad := 0, roleB := false, shadow := 0, klen := 64 }
def bindB : Bind := { lad := 0, roleB := true, shadow := 0, klen := 64 }
/-- Slots 0 and 1 filled, bound to a BF16 ladder of one rung where `bound`. -/
def operands (bound : Bool) : State :=
  (slot 0 { filled with bind := if bound then some bindA else none }
    (slot 1 { filled with bind := if bound then some bindB else none } (regs []))).updMe fun m =>
      { m with ladders := m.ladders.set 0 0xFF2 }

theorem wit_TilesAreIssued :
    (let i : Instr := .mma .bf16 0 0 1 none b0
     let s := head .me i cap0 (operands false)
     AtHead s .me b0 i cap0 ∧ (s.core.me.slot 0).st = .filled ∧ (s.core.me.slot 1).st = .filled ∧
     s.tileTag 0 = .ok AccTag.reset ∧ (s.core.me.slot 0).poison = none ∧ (s.core.me.slot 1).poison = none ∧
     s.core.me.obad = [] ∧ s.core.me.entryPoison 0 = false ∧ s.core.me.spec = none ∧
     (s.core.me.slot 2).st ≠ .filled) ∧
    (let i : Instr := .mma .q8 0 0 1 (some .g64) b0
     let s := (slot 0 { filled with poison := some 5 } (head .me i cap0 (operands false))).updMe fun m =>
       { m with spec := some (⟨0, 0, false, 0⟩, 0) }
     ∃ tag, AtHead s .me b0 i cap0 ∧ (0 : Fin 64).val + groups .q8 .g64 ≤ 64 ∧ 64 < 63 + 2 * groups .q8 .g64 ∧
       (s.core.me.slot 0).poison = some 5 ∧ s.core.me.spec ≠ none ∧ s.tileTag 0 = .ok tag ∧
       (⟨0, 0, false, 0⟩ : SpecTag).ebase.val ≤ 0 ∧ s.unit.bad = []) ∧
    (let i : Instr := .mma .q8 0 0 1 (some .g64) b0
     let s := poisonedEntry (head .me i cap0 (operands false))
     AtHead s .me b0 i cap0 ∧ s.core.me.entryPoison 0 = true ∧ s.tileTag 0 = .ok AccTag.reset ∧ s.core.me.obad = []) ∧
    (let i : Instr := .mmaLad .bf16 0 0 1 b0
     let s := head .me i cap0 (operands true)
     AtHead s .me b0 i cap0 ∧ (s.core.me.slot 0).bind = some bindA ∧ (s.core.me.slot 1).bind = some bindB ∧
     bindA.roleB = false ∧ bindB.roleB = true ∧ (s.core.me.ladders[bindA.lad]).toNat % 16 = 2) ∧
    (let i : Instr := .mgo .bf16 0 0 1 none b0
     let s := head .me i cap0 (operands false)
     AtHead s .me b0 i cap0 ∧ s.core.me.work = none ∧ (s.core.me.slot 0).bind = none ∧
     (∀ l : Fin 6, s.core.me.shadow[l].count ≠ 0) ∧ (∀ l : Fin 6, s.core.me.shadow[l].flags.getLsbD 1 = false) ∧
     (∃ l : Fin 6, (s.updMe fun m => { m with shadow := m.shadow.set 5 NestLevel.zero }).core.me.shadow[l].count = 0) ∧
     1 + groups .q8 .g64 ≤ 64 ∧ (64 : Word).toNat % 256 ≠ 0) := by
  dsimp only
  refine ⟨?_, ⟨_, ?_, ?_, ?_, ?_, ?_, rfl, ?_, ?_⟩, ?_, ?_, ?_, ?_, ?_, ?_, ?_, ⟨5, ?_⟩, ?_⟩
  all_goals first | decide +kernel | (and_intros <;> decide +kernel)

def tile0 : Tile :=
  { fmt := .bf16, e := 0, sa := 0, sb := 1, clr := false, lad := none, q := none, part := 0, scale := none, biasA := 0,
    biasB := 0, oldA := none, oldB := none, step := 0, value := [] }
def work0 (t : Option Tile) (r : List Tile) (nest : Bool) : MeWork :=
  { MeWork.none with tile := t, nest, replays := r, rung := 0 }
def multiplying (i : Instr) (w : MeWork) : State :=
  (queue .me { entries [.instr i cap0] with phase := .busy } (operands true)).updMe fun m => { m with work := some w }

theorem wit_TilesCommit :
    (let w := work0 (some tile0) [] false
     let s := multiplying (.mma .bf16 0 0 1 none b0) w
     s.memWf ∧ s.core.me.work = some w ∧ w.tile = some tile0 ∧ w.replays = [] ∧ tile0.lad = none ∧ tile0.q = none ∧
     tile0.e < 64 ∧ tile0.oldA = none ∧ tile0.oldB = none ∧ tile0.value = [] ∧ (s.core.queue .me).phase = .busy ∧
     s.core.engHeld .me = false) ∧
    (let s := (multiplying (.mgo .bf16 0 0 1 none b0) (work0 (some tile0) [] true)).updMe fun m =>
       { m with act := m.act.set 5 { NestLevel.initial with count := 2 } }
     (s.core.me.idx[5]).toNat + 1 < (s.core.me.act[5]).count.toNat) := by
  dsimp only
  refine ⟨⟨State.memWf_of_lists ?_ ?_ ?_ ?_ ?_ ?_, ?_⟩, ?_⟩
  all_goals decide +kernel

theorem wit_ReplaysAndScales :
    (let t : Tile := { tile0 with lad := some (bindA, bindB) }
     let w := work0 none [t] false
     let s := multiplying (.mmaLad .bf16 0 0 1 b0) w
     s.memWf ∧ s.core.me.work = some w ∧ w.tile = none ∧ w.replays = [t] ∧ t.lad = some (bindA, bindB) ∧ t.e < 64 ∧
     (s.core.queue .me).phase = .busy ∧ s.core.engHeld .me = false ∧
     (ladRungs (s.core.me.desc bindA))[w.rung]? = some .bf16 ∧ w.seen = none ∧
     s.passBad bindA (List.range 64) = none ∧ s.passBad bindB (List.range 64) = none ∧
     (poisoned (.u 0) [0] s).passBad bindA (List.range 64) = some (0, none) ∧
     fmtK t.fmt ≤ (w.passes + 1) * fmtK .bf16 ∧ ¬ (fmtK .e2m1 ≤ (w.passes + 1) * fmtK .bf16) ∧
     (ladRungs (s.core.me.desc bindA)).length ≤ w.rung + 1) ∧
    (let i : Instr := .msca 0 8 1 .g32 0 32 b0
     let s := head .me i cap0 (regs [])
     AtHead s .me b0 i cap0 ∧ s.core.me.work = none ∧ 1 = ((32 : BitVec 16).toNat + groupSize .g32 - 1) / groupSize .g32 ∧
     (cap0.params[0]).toNat % 256 = 0 ∧ (cap0.params[0]).toNat + 256 * 1 ≤ 0x300000 ∧ s.unit.bad = [] ∧
     s.core.me.entryPoison 0 = false ∧ s.core.me.entryPoison 8 = false ∧
     (poisonedEntry s).core.me.entryPoison 0 = true) := by
  dsimp only
  refine ⟨⟨State.memWf_of_lists ?_ ?_ ?_ ?_ ?_ ?_, ?_⟩, ?_⟩
  all_goals first | decide +kernel | (and_intros <;> decide +kernel)

/-- One token of one choice; entry 0 is tagged with the expert chosen. -/
def resolving (i : Instr) : State :=
  (head .me i cap0 (regs [])).perform (.u 0)
    [(1, 1), (9, 2), (17, 3), (26, 1), (27, 1), (28, 0)] |>.perform (.u 0) [(27, 0x11), (256, 5), (258, 0x80), (259, 0x3F)]
def resolve0 : Instr := .mresolve 0 1 1 true 0 b0

theorem wit_ResolveEndsSpeculation :
    let s := (resolving resolve0).updMe fun m => m.setTag 0 { mode := 1, id := 5, poison := none, map := [0] }
    let d := resolveDesc ((List.range 32).map fun k => readByte s.unit.mem k)
    s.memWf ∧ AtHead s .me b0 resolve0 cap0 ∧ s.unit.bad = [] ∧ d.ok = true ∧ d.router = 256 ∧ d.miss = 512 ∧
    d.sigs = 768 ∧ d.t = 1 ∧ d.k = 1 ∧ d.tbase = 0 ∧ (s.core.me.tag 0).poison = none ∧ (s.core.me.tag 0).mode ≠ 0 ∧
    (s.core.me.tag 0).rows = [(0, 0)] ∧ s.core.me.work = none ∧ s.core.me.abad = [] ∧ s.core.pend = [] ∧
    List.lookup 5 (choices [leNat ((List.range 4).map fun q => readByte s.unit.mem (256 + q))]) = some 0x3F80 ∧
    ∀ l ∈ [[], [((1 : Word), [5])]],
      let u := s.updMe fun m => { m with work := some { MeWork.none with train := (0, [5]) :: l } }
      AtHead u .me { b0 with pop := 0 } resolve0 cap0 ∧
        u.core.me.work = some { MeWork.none with train := (0, [5]) :: l } := by
  unfold AtHead
  dsimp only
  refine ⟨State.memWf_of_lists ?_ ?_ ?_ ?_ ?_ ?_, ?_⟩
  all_goals decide +kernel

-- The vector engine.

def vector (i : Instr) (c : Capture) : State := head .ve i c ((regs []).updVec fun v => { v with vallot := 256 })

/-- Every vector instruction of these statements at the head of the queue, with the whole allotment and nothing
parked; lane 1 of every mask but m7 is inactive, every lane of m7 active. -/
theorem wit_vector_ready : ∀ i ∈ [Instr.vadd (v3 .f32 .rne) b0, .vsub (v3 .bf16 .rz) b0, .vmul (v3 .i8 .rne) b0,
    .vmin (v3 .f16 .rne) b0, .vmax (v3 .i16 .rne) b0, .vand (v3 .i32 .rne) b0, .vor (v3 .i32 .rne) b0,
    .vxor (v3 .i32 .rne) b0, .vshl (v3 .i32 .rne) b0, .vshr true (v3 .i32 .rne) b0, .vfma (v4 .f32 .rne) b0,
    .vsel (v4 .i32 .rne) b0, .vabs (v2 .f32) b0, .vneg (v2 .i8) b0, .vrcp (v2 .f32) b0, .vrsq (v2 .bf16) b0,
    .vexp2 (v2 .f16) b0, .vlog2 (v2 .f32) b0, .vcvt .i32 .rne (v2 .f32) b0, .vcmp .eq .f32 7 0 1 2 b0,
    .vred .sum .rne (v2 .f32) b0, .vperm (v3 .f32 .rne) b0, .vbcast 63 (v2 .f32) b0, .viota .i8 7 1 b0,
    .vmovi .i32 7 1 0xFFFF b0, .vrdacc false 7 1 63 63 b0],
    VecReady (vector i cap0) b0 i cap0 [1, 2, 3] (uses (vector i cap0) 7 [2, 3] (some 1)) := by
  unfold VecReady AtHead
  decide +kernel

theorem wit_LanewiseArithmetic : tyFloat .f32 = some fF32 ∧ tyFloat .i8 = none := by decide
theorem wit_FunctionsOfOneElement : tyFloat .bf16 = some fBF16 := by decide
theorem wit_ConversionsReductionsAndMoves :
    tyFloat .f16 = some fF16 ∧ tyFloat .f32 = some fF32 ∧ tyFloat .i16 = none ∧ tyFloat .i32 = none := by decide

def parked0 : Parked :=
  { vd := 1, lane := 0, es := 4, ctx := 0, addr := 0, beyond := false, code := 5, hold := none, live := true,
    id := 0, cls := 0 }

theorem wit_RegisterAllotments :
    AtHead (head .ve (.vgrow 32 b0) cap0 (regs [])) .ve b0 (.vgrow 32 b0) cap0 ∧
    AtHead (head .ve (.vshrink 0 b0) cap0 (regs [])) .ve b0 (.vshrink 0 b0) cap0 ∧ (regs []).core.vec.parked = [] ∧
    ((regs []).updVec fun v => { v with parked := [parked0] }).core.vec.parked ≠ [] ∧
    (let i : Instr := .vadd ⟨.f32, .rne, 7, 8, 7, 0⟩ b0
     let s := head .ve i cap0 ((regs []).updVec fun v => { v with vallot := 8 })
     AtHead s .ve b0 i cap0 ∧ s.core.vec.vallot ≤ (8 : Fin 256).val) ∧
    (let i : Instr := .vadd ⟨.f32, .rne, 7, 7, 8, 0⟩ b0
     let s := head .ve i cap0 ((regs []).updVec fun v => { v with vallot := 8 })
     AtHead s .ve b0 i cap0 ∧ (7 : Fin 256).val < s.core.vec.vallot ∧ s.core.vec.vallot ≤ (8 : Fin 256).val) ∧
    (let i : Instr := .vadd ⟨.f32, .rne, 7, 1, 2, 3⟩ b0
     let s := vector i cap0
     let bad (g : Nat) : State := s.updVec fun v => { v with vbad := [g] }
     let held : State := s.updVec fun v => { v with parked := [{ parked0 with vd := 2 }] }
     let lone : State := s.updVec fun v => { v with masks := v.masks.set 0 1 }
     let x := v3Frame ⟨.f32, .rne, 7, 1, 2, 3⟩
     let reads (u : State) : Bool := (x.use u.core.vec).reads.any fun z => u.core.vec.poisoned z.1 z.2
     (∀ u ∈ [s, bad 64, bad 32], AtHead u .ve b0 i cap0 ∧ (∀ f ∈ x.fields, f.2 < u.core.vec.vallot) ∧
       (x.use u.core.vec).held u.core.vec = false ∧ x.bad cap0 u = none) ∧
     (∃ p ∈ held.core.vec.parked, ∃ z ∈ (x.use held.core.vec).reads, z.1 = p.vd) ∧ AtHead held .ve b0 i cap0 ∧
     reads (bad 64) = true ∧ reads (bad 32) = false ∧
     (let j : Instr := .vadd ⟨.f32, .rne, 0, 1, 2, 3⟩ b0
      let y := v3Frame ⟨.f32, .rne, 0, 1, 2, 3⟩
      let u := head .ve j cap0 (lone.updVec fun v => { v with vbad := [32] })
      AtHead u .ve b0 j cap0 ∧ (y.use u.core.vec).held u.core.vec = false ∧
      ((y.use u.core.vec).writes.any fun z => u.core.vec.refuses z.1 z.2) = true ∧
      ((y.use u.core.vec).reads.any fun z => u.core.vec.poisoned z.1 z.2) = false)) ∧
    (let v : VMem := ⟨.f32, 7, 1, 0, 0⟩
     let i : Instr := .vstu v b0
     let c : Capture := { cap0 with params := Vector.replicate 16 2 }
     let s := vector i c
     AtHead s .ve b0 i c ∧ (storeFrame .u v).bad c s = some (0x03, infoLocal 2) ∧
     ((storeFrame .u v).use s.core.vec).held s.core.vec = false ∧
     (let g : VFrame := { fields := [(0, 1), (1, 2)], use := fun x => { onLanes 7 [2] (some 1) x with waits := true }
                          bad := vldgPre v }
      let u := head .ve (.vldg 2 v b0) c (s.updVec fun v => { v with parked := [parked0] })
      AtHead u .ve b0 (.vldg 2 v b0) c ∧ (g.use u.core.vec).waits = true ∧ u.core.vec.parked ≠ [])) := by
  unfold AtHead; dsimp only; and_intros <;> decide +kernel

/-- Every vector instruction with a register has its frame. -/
theorem wit_vecFrame (v : V3) (v4 : V4) (v2 : V2) (m : VMem) (x : Fin 256) : (vecFrame (.vadd v b0)).isSome = true ∧
    vecFrame (.vadd v b0) = some (v3Frame v) ∧ vecFrame (.vfma v4 b0) = some (v4Frame v4) ∧
    vecFrame (.vabs v2 b0) = some (v2Frame v2) ∧ vecFrame (.vstu m b0) = some (storeFrame .u m) ∧
    (vecFrame (.vldg x m b0)).isSome = true ∧ vecFrame (.vgrow 1 b0) = none := ⟨rfl, rfl, rfl, rfl, rfl, rfl, rfl⟩

/-- A read or a write that is refused. -/
def fails {A B : Type} : Except A B → Bool | .error _ => true | .ok _ => false

theorem partialBad_of_clean (s : State) (l : Loc) (as : List Nat) (h : (s.padAt l).bad = []) :
    s.partialBad l as = none := s.firstBad_of_clean l _ h

/-- Loads and stores at the last place of a unit pad, and a gather of buffer 0 by indices of zero. -/
theorem wit_VectorMemory :
    (let v : VMem := ⟨.f32, 7, 1, 0, 0⟩
     let c : Capture := { cap0 with params := Vector.replicate 16 0x2FFF00 }
     (∀ i ∈ [Instr.vldu v b0, .vstu v b0, .vldk v b0, .vstk v b0, .vldd v b0, .vstd v b0, .vstn v b0],
       VecReady (vector i c) b0 i c [1] (uses (vector i c) 7 [1] none) ∧
       VecReady (vector i c) b0 i c [1] (uses (vector i c) 7 [] (some 1)) ∧ (c.params[0]).toNat % 4 = 0) ∧
     (vector (.vldu v b0) c).localAddr .u (c.params[0]) (64 * 4) = some (.u 0, 0x2FFF00) ∧
     (vector (.vldk v b0) c).localAddr .k (c.params[0]) (64 * 4) = some (.k 0, 0x2FFF00) ∧
     (vector (.vldd v b0) c).localAddr .d (c.params[0]) (64 * 4) = some (.d 0, 0x2FFF00) ∧
     (vector (.vstn v b0) c).localAddr .n (c.params[0]) (64 * 4) = some (.u 0, 0x2FFF00) ∧
     (∀ l, l < 64 → (vector (.vldu v b0) c).threadBad (.u 0)
       ((List.range 4).map (0x2FFF00 + l * 4 + ·)) = none) ∧
     (let s := vector (.vstu v b0) c
      (s.padAt (.u 0)).bad = [] ∧ s.partialBad (.u 0) ((s.core.vec.active 7).map fun l =>
        (List.range 4).map (0x2FFF00 + l * 4 + ·)).flatten = none)) ∧
    (let i : Instr := .vldg 2 ⟨.f32, 7, 1, 0, 0⟩ b0
     let s := global (vector i cap0)
     VecReady s b0 i cap0 [1, 2] { uses s 7 [2] (some 1) with waits := true } ∧ s.core.vec.gathered = none ∧
     ∀ l, l < 64 → s.gatherRead (s.gatherPlaces 0 (cap0.params[0]) (s.core.vec.lane 2 l).toNat 4) = .ok 0) := by
  unfold VecReady AtHead
  dsimp only
  refine ⟨⟨?_, ?_, ?_, ?_, ?_, ?_, ?_, partialBad_of_clean _ _ _ ?_⟩, ?_, ?_, ?_⟩ <;> decide +kernel

/-- A gather of an exposed line whose lane 5 has an index outside its buffer. -/
theorem wit_VectorMemory_freeze :
    let i : Instr := .vldg 2 ⟨.f32, 7, 1, 0, 0⟩ b0
    let c : Capture := { cap0 with lmode := 1 }
    let s := (global (vector i c)).updVec fun v => v.writeLanes 2 [(5, 0xFFFF)]
    VecReady s b0 i c [1, 2] { uses s 7 [2] (some 1) with waits := true } ∧ s.core.vec.gathered = none ∧
    c.lmode.getLsbD 0 = true ∧ ((c.params[0]).toNat % 2 ^ 48 % 4 = 0) ∧
    (∀ l, l < 64 → fails (s.gatherRead (s.gatherPlaces 0 (c.params[0]) (s.core.vec.lane 2 l).toNat 4)) = (l == 5)) := by
  unfold VecReady AtHead
  dsimp only
  and_intros <;> decide +kernel

-- Copies, the gather engine, links.

def engines4 : List Instr := [.ccopy 0 false false 0 b0, .cfill .u 0 1 2 b0, .cpost 0 1 b0, .cmov .u .k 0 1 2 b0]
def run0 (k : Copy) : CopyRun :=
  { copy := k, data := List.replicate k.count (List.replicate k.esize 7), written := 0, err := none, froze := none,
    again := false, landed := [] }
/-- A copy of the counter's post, in channel 3. -/
def posting : Copy :=
  { copy0 with post := some (counter, 1),
               ctrX := some { ctx := 0, word2 := 2 ^ 48 + 0x24, len := 65536, pages := [(0, 2 ^ 63 + 6)] } }

theorem wit_CopiesReadWriteAndPost :
    (∀ i ∈ engines4, AtHead (head .ce i { cap0 with copy := some copy0 } (regs [])) .ce b0 i
      { cap0 with copy := some copy0 }) ∧
    (let s := channel 3 ⟨none, [copy0]⟩ (regs [])
     (vget s.core.cpy.channels 3 Channel.none).cur = none ∧
     (vget s.core.cpy.channels 3 Channel.none).waiting = [copy0] ∧ s.core.frozen = false ∧ copy0.map = none ∧
     copy0.fail = none ∧ copy0.fill = none ∧
     s.copyPlace copy0.reads .u none (addOffset .u 0 0).1 8 = some (.u 0, List.range 8) ∧
     (s.performWhere fun z => copy0.need.contains z.num).coreBad (.u 0) (List.range 8) = none ∧
     (∀ z ∈ List.range 8, pendByte s.core.ccPend (.u 0) z = none) ∧ s.core.pend = [] ∧ copy0.spec = false ∧
     ((poisoned (.u 0) [0] s).performWhere fun z => copy0.need.contains z.num).coreBad (.u 0) (List.range 8) =
       some (0, none)) ∧
    (let k : Copy := { copy0 with ssp := .g, src := 0 }
     let s := channel 3 ⟨none, [k]⟩ (regs [])
     s.copyPlace .load .g none (addOffset .g 0 0).1 8 = none) ∧
    (let s := channel 3 ⟨some (run0 copy0), []⟩ (regs [])
     (vget s.core.cpy.channels 3 Channel.none).cur = some (run0 copy0) ∧ (run0 copy0).err = none ∧
     (run0 copy0).again = false ∧ (run0 copy0).landed = [] ∧ (run0 copy0).written = 0 ∧ s.core.frozen = false ∧
     0 < copy0.count ∧ copy0.moves = true ∧ 0 < copy0.esize ∧ (∀ z ∈ s.core.pend, z.ve = false) ∧
     (∀ i, i < copy0.count → copy0.overlap i = none) ∧ (run0 copy0).data.length = copy0.count ∧
     (∀ e ∈ (run0 copy0).data, e.length = copy0.esize) ∧
     s.copyPlace .store copy0.dsp copy0.dstX copy0.dst (copy0.esize * copy0.count) = some (.k 0, List.range 8) ∧
     (List.range 8).Nodup ∧ (s.padAt (.k 0)).bad = []) ∧
    (let s := global (channel 3 ⟨some (run0 posting), []⟩ (regs []))
     ∃ xl, posting.ctrX = some xl ∧ xl.served .counter (counter.toNat % 2 ^ 48) 8 = some ((List.range 8).map (0x60000 + ·)) ∧
       ((List.range 8).map (0x60000 + ·)).Nodup ∧ s.firstBad .g ((List.range 8).map (0x60000 + ·)) = none ∧
       leNat (((List.range 8).map (0x60000 + ·)).map (s.byteAt .g)) + (1 : Word).toNat < 2 ^ 64) ∧
    ({ copy0 with spec := true, fail := some 5 } : Copy).fail = some 5 ∧
    ({ run0 copy0 with err := some (0, 3, 0) } : CopyRun).err = some (0, 3, 0) := by
  dsimp only
  unfold AtHead
  refine ⟨?_, ?_, ?_, ?_, ⟨_, rfl, ?_, ?_, ?_, ?_⟩, rfl, rfl⟩
  all_goals decide +kernel

def bytesAt (a : Nat) (l : List Byte) : List (Nat × Byte) := (List.range l.length).map fun k => (a + k, l.getD k 0)
/-- Bytes of the unit pad. -/
def pad (l : List (Nat × List Byte)) (s : State) : State := s.perform (.u 0) (l.flatMap fun x => bytesAt x.1 x.2)
/-- A matrix of one row and one entry; a map of one BF16 element at 0x100. -/
def csr0 : List (Nat × List Byte) :=
  [(0, leBytes 8 0x40), (8, leBytes 8 0x80), (16, leBytes 8 0xC0), (24, leBytes 8 (2 ^ 32)), (0x44, [1]), (0xC0, [0x80, 0x3F])]
def map0 : List (Nat × List Byte) :=
  [(0, leBytes 8 (1 + 8 + 32 + 512)), (8, [1]), (48, leBytes 4 0x10001), (72, leBytes 8 (3 * 2 ^ 48 + 0x100))]

/-- With no store pending the words of a map are those of the pad. -/
theorem mapWords_of_settled (s : State) (a : Nat) (h : s.core.pend = []) (h' : s.core.cpy.seenBy .ge = none) :
    s.mapWords a = vgen 10 fun k =>
      BitVec.ofNat 64 (leNat (((List.range 8).map (a + 8 * k + ·)).map (s.seenByte (.u s.cur)))) := by
  have ht : s.threadByte (.u s.cur) = s.seenByte (.u s.cur) := by
    funext x; simp [State.threadByte, h, pendByte]
  have hc : s.coreByte (.u s.cur) = s.seenByte (.u s.cur) := by
    funext x; simp [State.coreByte, Core.vePend, h, pendByte]
  simp only [State.mapWords, ht, hc, h', ite_self]

theorem wit_GatheredTiles :
    (let i : Instr := .cqnt 63 b0
     let d := bindA
     let s := head .ce i cap0 (slot 63 { filled with bind := some d } (regs []))
     s.memWf ∧ s.unit.bad = [] ∧ (s.core.me.slot 63).st ≠ .free ∧ AtHead s .ce b0 i cap0 ∧
     (s.core.me.slot 63).bind = some d ∧ d.shadow + 128 * d.klen ≤ 0x300000) ∧
    (let i : Instr := .gcsr 0 1 .bf16 0 b0
     let s := pad csr0 (head .ge i cap0 (slot 0 filled (regs [])))
     let word (a k : Nat) : Nat := leNat ((List.range k).map fun j => readByte s.unit.mem (a + j))
     s.memWf ∧ s.unit.bad = [] ∧ (s.core.me.slot 0).st ≠ .free ∧ AtHead s .ge b0 i cap0 ∧
     word 0 8 = 0x40 ∧ word 8 8 = 0x80 ∧ word 16 8 = 0xC0 ∧ word 24 8 = 2 ^ 32 ∧ word 0x40 4 = 0 ∧ word 0x44 4 = 1) ∧
    (let i : Instr := .gmap 0 0 0 b0
     let s := pad map0 (head .ge i cap0 (slot 0 filled (regs [])))
     let mw : MapWords := vgen 10 fun k =>
       BitVec.ofNat 64 (leNat (((List.range 8).map (0 + 8 * k + ·)).map (s.seenByte (.u s.cur))))
     s.mapWords 0 = mw ∧ s.memWf ∧ s.unit.bad = [] ∧ AtHead s .ge b0 i cap0 ∧ mapOk mw = true ∧ mapLayout mw = 1 ∧ mapSsp mw ≠ 2 ∧
     mapField mw 9 63 50 = 0 ∧ mapBase mw % mapEsize mw = 0 ∧
     s.localAddr (cspace (spaceOfCode (mapSsp mw))) (BitVec.ofNat 64 (mapBase mw)) (mapSpan mw) = some (.u 0, 0x100) ∧
     (s.corePad (.u 0)).bad = []) := by
  dsimp only
  refine ⟨⟨State.memWf_of_lists ?_ ?_ ?_ ?_ ?_ ?_, ?_⟩, ⟨State.memWf_of_lists ?_ ?_ ?_ ?_ ?_ ?_, ?_⟩,
    mapWords_of_settled _ _ (by decide +kernel) (by decide +kernel), State.memWf_of_lists ?_ ?_ ?_ ?_ ?_ ?_, ?_⟩
  all_goals first | decide +kernel | (and_intros <;> decide +kernel)

def capRows : Capture := { cap0 with params := ((Vector.replicate 16 0).set 1 0x2FFFFC).set 2 0x100 }
def rowing (i : Instr) (x : Byte) : State := pad [(0x100, [x, x])] (head .ge i capRows (regs []))

/-- Four bytes at the pad's end by the index 0 and by 0xFFFF: copied, zeroed, scattered and dropped. -/
theorem wit_RowsByIndex :
    (∀ i ∈ [Instr.gscat 0 0 1 2 4 b0, .grows 1 0 1 2 4 b0], ∀ x ∈ [(0 : Byte), 0xFF],
      AtHead (rowing i x) .ge b0 i capRows ∧ (rowing i x).unit.bad = [] ∧ (rowing i x).core.cpy.overwritten = [] ∧
      leNat [readByte (rowing i x).unit.mem 0x100, readByte (rowing i x).unit.mem 0x101] = leNat [x, x] ∧
      (rowing i x).core.pend = []) ∧
    (rowing (.gscat 0 0 1 2 4 b0) 0).memWf := by
  unfold AtHead
  refine ⟨?_, State.memWf_of_lists ?_ ?_ ?_ ?_ ?_ ?_⟩
  all_goals decide +kernel

def message (red : Bool) (expect : Nat) : LinkMsg :=
  { isRed := red, srcPkg := 3, core := 1, seq := 0, src := 0, dstPkg := 0, ctx := 0, wid := 0, target := 0,
    counter := some counter, half := true, expect, payload := List.replicate 64 1, added := [], det := false, via := none }
def command (k : LeCmd) : LeEnt := { cmd := k, push := 1, line := 4096, lane := 1, lmode := 0, full := false }
def linked (cmds : List LeEnt) (s : State) : State := s.updCpy fun k => { k with le := cmds }
def inbox (l : List LinkMsg) (s : State) : State :=
  { (global s).perform .g [(0x1010, 0x33), (0x1030, 0x34)] with links := { s.links with inbox := l } }
/-- The one pod barrier in use, number 3. -/
def podBar (x : PodBar) (s : State) : State := { s with links := { s.links with bars := [{ x with b := 3 }] } }

/-- Pod barrier 3 in use by the core's node. -/
def ownBar (arrived : List Nat) (s : State) : State :=
  podBar { PodBar.reset with launch := s.barNode.launch, index := s.barNode.index, img := s.barNode.img, arrived } s

/-- Sends to this package, over a link that is up, and nowhere; the last pad block; 31 commands in flight. -/
theorem wit_LinkCommands :
    (let i : Instr := .lsend 0 1 2 none 1 b0
     let c : Capture := { cap0 with params := (Vector.replicate 16 0).set 1 0x2FFFC0 }
     let s := head .le i c (linked (List.replicate 31 (command (.msg (message false 0) .sent))) (regs []))
     let u : State := { s with links := { s.links with up := 8, routes := [(5, 3)] } }
     AtHead s .le b0 i c ∧
     (s.core.cpy.le.filter fun z => match z.cmd with | .msg .. => true | _ => false).length < 32 ∧
     (∀ j, j < 64 → smapGet s.unit.bad ((0x2FFFC0 + j) / 8) = none) ∧
     (poisoned (.u 0) [0x2FFFC0] s).coreBad (.u 0) ((List.range 64).map (0x2FFFC0 + ·)) = some (0x2FFFC0, none) ∧
     s.links.reaches s.links.id = true ∧ u.links.reaches 5 = true ∧ 5 ≠ u.links.id ∧ s.links.reaches 5 = false) ∧
    (let i : Instr := .lred true 0 1 2 3 4 1 b0
     AtHead (head .le i cap0 (regs [])) .le b0 i cap0) ∧
    (let i : Instr := .lbar 3 b0
     let s := head .le i cap0 (regs [])
     AtHead s .le b0 i cap0 ∧ s.core.cpy.le = [] ∧ s.links.barOf 3 s.barNode = none) ∧
    (∀ l ∈ [[], [0]],
     let s := ownBar l (head .le (.lbar 3 b0) cap0 (regs []))
     AtHead s .le b0 (.lbar 3 b0) cap0 ∧ s.links.barOf 3 s.barNode = some 0 ∧
     (s.links.bars[0]?).map (fun y => (y.arrived, y.sent)) = some (l, false) ∧ s.cur.val = 0) ∧
    ((regs []).updWork fun w => { w with stopped := true }).core.engHeld .le = true ∧
    (let s := tokens .le .cc 14 (linked [command (.msg (message false 0) .ok)] (regs []))
     s.core.engHeld .le = false ∧ s.core.cpy.le = [command (.msg (message false 0) .ok)] ∧
     ∀ e : Eng, (1 : BitVec 6).getLsbD e.num = true → s.core.eng.tok .le e < 15) ∧
    (∀ st ∈ [LeSt.failed, .again, .sent, .held, .ok],
     let s := linked [command .null, command (.msg (message false 0) st)] (regs [])
     (s.core.cpy.le[1]?).map LeEnt.cmd = some (.msg (message false 0) st)) ∧
    (regs []).links.reaches (message false 0).dstPkg = true := by
  dsimp only
  refine ⟨?_, by unfold AtHead; decide +kernel, ?_, by unfold AtHead; decide +kernel, ?_,
    ⟨?_, rfl, fun e => by cases e <;> decide +kernel⟩, ?_, ?_⟩
  all_goals first | decide +kernel | (and_intros <;> decide +kernel)

theorem wit_ArrivalsAndPodBarriers :
    (let s : State := { regs [] with links := { (regs []).links with up := 8, fails := (regs []).links.fails.set 3 15 } }
     s.links.up.getLsbD (3 : Fin 16).val = true ∧ ¬ (s.links.fails[3] < 15)) ∧
    (∀ x ∈ [message false 0, message true 0, message true 2],
     let s := inbox [x] (regs [])
     s.links.inbox[0]? = some x ∧
     s.landing x = .ok ((List.range 64).map (0x50000 + ·), some ((List.range 8).map (0x60000 + ·))) ∧
     ((List.range 64).map (0x50000 + ·)).Nodup ∧ ((List.range 8).map (0x60000 + ·)).Nodup ∧
     (∀ a ∈ (List.range 8).map (0x60000 + ·), a ∉ (List.range 64).map (0x50000 + ·)) ∧
     s.links.gathers = [] ∧ x.payload.length % 2 = 0 ∧ x.added = [] ∧ s.links.inbox.length = 1 ∧
     (∀ z ∈ s.links.relayed, z.srcPkg ≠ s.links.id)) ∧
    (let x : LinkMsg := { message true 0 with added := [0x50000 / 4] }
     let s := inbox [x] (regs [])
     s.links.inbox[0]? = some x ∧ s.landing x = .ok ((List.range 64).map (0x50000 + ·), some ((List.range 8).map (0x60000 + ·))) ∧
     x.added ≠ []) ∧
    (∀ x ∈ [message false 0, message true 0],
     let s := inbox [{ x with target := 65535 }] (regs [])
     s.links.inbox[0]? = some { x with target := 65535 } ∧
     s.landing { x with target := 65535 } = .error ⟨4, 65535, s.physAt 0 65535⟩) ∧
    (let x := message true 2
     let s := inbox [x] (regs [])
     let u : State := { s with links := { s.links with gathers := [x] } }
     sameGather x x = true ∧ (s.links.gathers.filter (sameGather x)).length + 1 < x.expect ∧
     x.expect ≤ (u.links.gathers.filter (sameGather x)).length + 1 ∧
     (∀ y ∈ u.links.gathers.filter (sameGather x), y.expect = x.expect) ∧
     u.links.gathers.filter (sameGather { x with expect := 0 }) ≠ [] ∧
     ∃ y ∈ u.links.gathers.filter (sameGather { x with expect := 3 }), y.expect ≠ 3) ∧
    (∃ a ∈ (List.range 64).map (0x50000 + ·), a / 4 ∉ [0x50000 / 4]) ∧ (regs []).links.barAt ⟨3, 0⟩ = none ∧
    (let s := podBar { PodBar.reset with sent := true } (regs [])
     ∃ b, s.links.barAt ⟨3, 0⟩ = some (0, b) ∧ b.b = 3 ∧ s.links.bars[0]? = some b ∧ b.sent = true ∧ b.complete = false) ∧
    (let b := { PodBar.reset with complete := true, b := 3 }
     let s := podBar b (regs [])
     let u : State := { s with power := { s.power with podSlot := 1 } }
     s.links.barAt ⟨3, 0⟩ = some (0, b) ∧ b.complete = true ∧ b.received = none ∧
     b.completeAt.toNat + s.power.slotTicks ≤ s.time.toNat ∧ ¬ (b.completeAt.toNat + u.power.slotTicks ≤ u.time.toNat)) ∧
    (let b := { PodBar.reset with complete := true, received := some 0, arrived := [0, 4], b := 3 }
     let s := podBar b (regs [])
     s.links.barAt ⟨3, 0⟩ = some (0, b) ∧ b.received = some 0 ∧ b.complete = true ∧
     (∃ c ∈ b.arrived, c / 4 ≠ 0 ∧ c < 128 ∧ b.reached.getLsbD (c / 4) = false) ∧
     (∀ c ∈ ({ b with arrived := [0] } : PodBar).arrived, c / 4 = 0) ∧
     (0 : Word).toNat + s.phaseTicks 0 (s.pidxAt ((b.arrived.find? fun c => c / 4 == 0).getD 0)) ≤ s.time.toNat ∧
     ¬ (2 ^ 63 + s.phaseTicks 0 (s.pidxAt ((b.arrived.find? fun c => c / 4 == 0).getD 0)) ≤ s.time.toNat)) := by
  dsimp only
  refine ⟨?_, ?_, ?_, ?_, ?_, ⟨0x50004, by decide +kernel, by decide⟩, ?_, ⟨_, rfl, ?_⟩, ?_, ?_⟩
  all_goals decide +kernel

def hosting (f : Port → Port) (s : State) : State := { s with host := f s.host }
def window0 : Window := { gaddr := 0, ctl := 2 ^ 63, size := 65536, base := 0 }
/-- The device ready; a window on buffer 0, and one at 65536 on the counter's page. -/
def hosted : State :=
  hosting (fun p => { p with
    ready := true, win := (p.win.set 0 window0).set 1 { window0 with gaddr := counter, base := 65536 } })
    (inbox [] (regs []))
def busyCp (s : State) : State := s.upd fun c => { c with work := { c.work with cpState := .running } }

theorem wit_HostPortAccesses :
    (hosted.host.ready = true ∧ (128 : Word).toNat % 128 = 0 ∧ (hosted.ctxs[hosted.host.lctx]).isSome = true ∧
      hosted.addressBad hosted.host.lctx 128 128 .load true = false ∧
      (∀ c : Fin 128, (hosted.cores[c]).work.cpState = .idle) ∧
      ∃ c : Fin 128, ((busyCp hosted).cores[c]).work.cpState ≠ .idle) ∧
    ((regs []).host.ready = false ∧ ((regs []).ctxs[(regs []).host.lctx]).isSome = false) ∧
    (let s := hosting (fun p => { p with mbreq := p.mbreq.set 0 15 }) hosted
     s.host.mbstat = 0 ∧ 1 ≤ s.host.code ∧ s.host.code ≤ 15) ∧
    hosted.host.target 131072 = none ∧ 65535 < 2 ^ hosted.host.bar2 ∧ (hosting (fun p => { p with bar2 := 20 }) hosted).host.bar2 = 20 ∧
    (∃ bs, hosted.host.target 65535 = some (0, some 65535) ∧ hosted.readPort 0 true 65535 1 = .ok bs) ∧
    hosted.readPort 0 true 65535 2 = .error ⟨4, 65535, hosted.physAt 0 65535⟩ ∧
    hosted.portPlaces 0 .extWrite 65535 2 = .error ⟨4, 65535, hosted.physAt 0 65535⟩ ∧
    hosted.portPlaces 0 .extPost 0 8 = .error ⟨4, 0, hosted.physAt 0 0⟩ ∧ hosted.host.linked = true ∧
    (hosting (fun p => { p with linked := false }) hosted).host.linked = false ∧ (65532 : Word).toNat % 8 ≠ 0 ∧
    (∃ x, hosted.translate 0 .extWrite 65532 [((65532 : Word).toNat % 2 ^ 48, 4)] = .ok x ∧
      x.places ((65532 : Word).toNat % 2 ^ 48) 4 = some ((List.range 4).map (0x5FFFC + ·)) ∧
      ((List.range 4).map (0x5FFFC + ·)).Nodup ∧ hosted.gmem.bad = [] ∧ hosted.host.target 65532 = some (0, some 65532)) ∧
    (∃ x, hosted.host.target 65536 = some (0, some counter) ∧ counter.toNat % 8 = 0 ∧
      hosted.translate 0 .extPost counter [(counter.toNat % 2 ^ 48, 8)] = .ok x ∧
      x.places (counter.toNat % 2 ^ 48) 8 = some ((List.range 8).map (0x60000 + ·)) ∧
      leNat (((List.range 8).map (0x60000 + ·)).map (hosted.byteAt .g)) + (1 : Word).toNat < 2 ^ 64) := by
  dsimp only
  refine ⟨?_, ?_, ?_, ?_, ?_, ?_, ⟨_, ?_, rfl⟩, ?_, ?_, ?_, ?_, ?_, ?_, ⟨_, rfl, ?_, ?_, ?_, ?_⟩, ⟨_, ?_, ?_, rfl, ?_, ?_⟩⟩
  all_goals decide +kernel

/-- A busy mailbox with a command word and arguments. -/
def commanded (args : List Word) (s : State) : State :=
  hosting (fun p => { p with
    ready := true, mbstat := 1, features := 1, mbreq := vgen 32 fun k => args.getD k 0 }) s

theorem wit_ManagementCommands :
    (let s := commanded [2, 63, 0x1000, 65536] (regs [])
     s.host.mbstat = 1 ∧ (s.host.mbreq[0]).toNat % 256 = 2 ∧ vget s.host.mbreq 1 0 = 63 ∧
     (vget s.host.mbreq 3 0).toNat ≤ 65536 ∧ s.ctxs[(63 : Fin 64)] = none) ∧
    (let s := commanded [2, 64] (regs [])
     (s.host.mbreq[0]).toNat % 256 = 2 ∧ 64 ≤ (vget s.host.mbreq 1 0).toNat) ∧
    (let s := commanded [3, 0] (global (regs []))
     (s.host.mbreq[0]).toNat % 256 = 3 ∧ (s.ctxs[(0 : Fin 64)]).isSome = true ∧
     (∀ (c : Fin 128) (q : Fin 4), ((s.cores[c]).work.queues[q]).nodes = [])) ∧
    (let s := (commanded [3, 0] (global (regs []))).upd fun c =>
       { c with work := { c.work with queues := c.work.queues.set 3 { c.work.queues[3] with nodes := [Node.none] } } }
     Node.none ∈ ((s.cores[(0 : Fin 128)]).work.queues[(3 : Fin 4)]).nodes ∧ Node.none.ctx = 0) ∧
    (let s := commanded [5, 65535] (regs [])
     (s.host.mbreq[0]).toNat % 256 = 5 ∧ 1 ≤ (vget s.host.mbreq 1 0).toNat ∧ (vget s.host.mbreq 1 0).toNat ≤ 65535) ∧
    (let s := commanded [8] (regs [])
     let tok := ((List.range 31).map fun k => leBytes 8 (vget s.host.mbreq (k + 1) 0).toNat).flatten
     s.host.mbstat = 1 ∧ (s.host.mbreq[0]).toNat % 256 = 8 ∧ s.host.life ≠ .retired ∧
     (tok.drop 1).take 32 = s.host.identity ∧ BitVec.ofNat 64 (leNat ((tok.drop 41).take 8)) ∉ s.host.keys) ∧
    (let s := commanded [8, 0x100] (regs [])
     ((((List.range 31).map fun k => leBytes 8 (vget s.host.mbreq (k + 1) 0).toNat).flatten).drop 1).take 32 ≠
       s.host.identity) ∧
    (hosting (fun p => { p with life := .retired }) (commanded [8] (regs []))).host.life = .retired ∧
    (let s := hosting (fun p => { p with keys := [0] }) (commanded [8] (regs []))
     BitVec.ofNat 64 (leNat (((((List.range 31).map fun k => leBytes 8 (vget s.host.mbreq (k + 1) 0).toNat).flatten).drop
       41).take 8)) ∈ s.host.keys) ∧
    (let s := commanded [9, 127, 1, 0, 0, 0, 0x1000] (regs [])
     (s.host.mbreq[0]).toNat % 256 = 9 ∧ vget s.host.mbreq 1 0 = 127 ∧ s.host.features.getLsbD 0 = true ∧
     vget s.host.mbreq 2 0 = 1) ∧
    (let s := commanded [9, 127, 0, 0x1000, 7, 65535] (regs [])
     vget s.host.mbreq 2 0 = 0 ∧ (vget s.host.mbreq 4 0).toNat < 2 ^ 32 ∧ 1 ≤ (vget s.host.mbreq 5 0).toNat ∧
     (vget s.host.mbreq 5 0).toNat ≤ 65535) ∧
    (regs []).host.features.getLsbD 0 = false ∧
    (let s := (commanded [10, 0] (regs [])).upd fun c => { c with work := { c.work with stopped := true } }
     (s.host.mbreq[0]).toNat % 256 = 10 ∧ (s.cores[(0 : Fin 128)]).work.stopped = true ∧
     s.host.features.getLsbD 2 = false ∧ s.core.work.stopped = true ∧ s.host.features.getLsbD 1 = false ∧
     (hosting (fun p => { p with features := 2 }) s).host.features.getLsbD 1 = true ∧ (hosting (fun p => { p with features := 4 }) s).host.features.getLsbD 2 = true ∧
     ((commanded [10, 0] (regs [])).cores[(0 : Fin 128)]).work.stopped = false) ∧
    (let s := commanded [11, 4095, 64] (regs [])
     (s.host.mbreq[0]).toNat % 256 = 11 ∧ (vget s.host.mbreq 1 0).toNat ≤ 4095 ∧ 1 ≤ (vget s.host.mbreq 2 0).toNat ∧
     (vget s.host.mbreq 2 0).toNat ≤ 64) ∧
    ((vget (commanded [12, 3200] (regs [])).host.mbreq 1 0).toNat ≤ 3200 ∧
     3200 < (vget (commanded [12, 3201] (regs [])).host.mbreq 1 0).toNat ∧
     ((commanded [12, 3200] (regs [])).host.mbreq[0]).toNat % 256 = 12) ∧
    ((vget (commanded [13, 32] (regs [])).host.mbreq 1 0).toNat ≤ 32 ∧
     32 < (vget (commanded [13, 33] (regs [])).host.mbreq 1 0).toNat ∧
     ((commanded [13, 32] (regs [])).host.mbreq[0]).toNat % 256 = 13) ∧
    (let s := (commanded [14, 0] (regs [])).logEvent 2 3 0 0 0 .cc
     (s.host.mbreq[0]).toNat % 256 = 14 ∧ (s.log[0]?).isSome = true ∧ (commanded [14, 0] (regs [])).log.length ≤ 0) := by
  refine ⟨?_, ?_, ?_, ?_, ?_, ?_, ?_, ?_, ?_, ?_, ?_, ?_, ?_, ?_, ?_, ?_, ?_⟩
  all_goals try dsimp only
  all_goals and_intros <;> decide +kernel

/-- A block: magic, one stage entered at its one line, the line section and a signature byte. -/
def block0 : List (Nat × Byte) :=
  ([(0, leBytes 8 (0x5A4A4B42 * 2 ^ 32 + 2 ^ 16)), (0x11, [1]), (0x20, leBytes 8 480), (0x1B0, leBytes 8 480),
    (0x1B8, [32]), (0x1C0, leBytes 8 512), (0x1C8, [1])] : List (Nat × List Byte)).flatMap fun x => bytesAt x.1 x.2
def image0 : List Byte := (List.range 513).map fun k => (List.lookup k block0).getD 0
def parts0 : KernelParts :=
  { sigOk := true, tmpl := [], ladders := [], dataU := [], dataK := [], dataD := [], dataG := [],
    buffers := [], tmplRel := [], dataRel := [], room := true }
/-- Bytes of buffer 0. -/
def stored (l : List (Nat × Byte)) (s : State) : State := (global s).perform .g (l.map fun x => (0x50000 + x.1, x.2))
def working0 (f : Work → Work) (s : State) : State := s.upd fun c => { c with work := f c.work }

def stage0 : StageInfo := { entry := 480, ring := 0, depth := 0, rsize := 0, allot := 0 }
def kernel0 : Kernel :=
  { ctx := 0, addr := 0, base := 4096, widths := [8], stages := [stage0], tmpl := [], ladders := [], dataU := [],
    pace := Vector.replicate 6 0, super := false, det := false, pidx := 0 }

/-- The stepping is not known (log entry 4), so neither is the identity in a record. -/
def recordId (d : Word) : Nat := 1 + 2 ^ 32 * (d.toNat / 2 ^ 32)
/-- A record at address 0: with a running node at its first slice, or without one. -/
def recorded (node : Bool) : State :=
  let s := working0 (fun w => { w with run := .idle }) (commanded [7, 0, 0, 0] (global (regs [])))
  { s with
    kernels := [kernel0]
    gmem := { mem := gcells ++ cellsFrom 0x50000 (leBytes 8 (recordId (regs []).devid)) ++
                (if node then [(0x50022, 1)] else []), bad := [] } }

theorem test_recordId (node : Bool) : (List.range 8).map (fun i => (recorded node).seenByte .g (0 * 2 ^ 44 +
    ((BitVec.ofNat 64 (2 ^ 63 + 5)).toNat % 2 ^ 40 * 65536 + ((0 : Word).toNat % 2 ^ 48 % 65536 + i)))) =
    leBytes 8 (recordId (regs []).devid) := by cases node <;> rfl

theorem recordId_high (d : Word) : recordId d / 2 ^ 32 = d.toNat / 2 ^ 32 := by unfold recordId; omega
theorem recordId_low (d : Word) : recordId d % 256 = 1 := by unfold recordId; omega
theorem recordId_read (d : Word) : leNat (leBytes 8 (recordId d)) = recordId d := by
  rw [leNat_leBytes]; unfold recordId; have := d.isLt; omega
theorem devid_of_cur (s t : State) (h : s.cur = t.cur) : s.devid = t.devid := by
  unfold State.devid; rw [h]

/-- The record that RESUME reads. -/
theorem test_recorded (node : Bool) : ∃ img, (recorded node).readPort 0 true 0 0x1930 = .ok img ∧
    leNat ((img.drop 0).take 8) / 2 ^ 32 = (recorded node).devid.toNat / 2 ^ 32 ∧
    leNat ((img.drop 0).take 8) % 256 = 1 ∧ leNat ((img.drop 8).take 8) = 0 ∧
    leNat ((img.drop 0x20).take 8) / 2 ^ 16 % 2 = (if node then 1 else 0) ∧
    leNat ((img.drop 0x60).take 8) = 0 ∧ leNat ((img.drop 0x88).take 8) = 0 := by
  have hx : (match (recorded node).translate 0 .load 0 [((0 : Word).toNat % 2 ^ 48, 0x1930)] with
    | .ok x => (wordRights x.word2).getLsbD 0 && List.lookup 0 x.pages == some (BitVec.ofNat 64 (2 ^ 63 + 5)) &&
        popcount 16 (wordSmask x.word2) == 1 && nthSet (List.range 16) (wordSmask x.word2) 0 == 0
    | .error _ => false) = true := by cases node <;> decide +kernel
  cases h : (recorded node).translate 0 .load 0 [((0 : Word).toNat % 2 ^ 48, 0x1930)] with
  | error e => rw [h] at hx; exact absurd hx Bool.false_ne_true
  | ok x =>
    rw [h] at hx
    simp only [Bool.and_eq_true, beq_iff_eq] at hx
    obtain ⟨⟨⟨hr, hl⟩, hn⟩, h0⟩ := hx
    have hg := (recorded node).readPort_of_one 0 true 0 0x1930 x _ h (by rw [hr]; rfl) hl (by decide +kernel) hn
      (by decide +kernel) (by decide +kernel) rfl
    rw [h0] at hg
    refine ⟨_, hg, ?_, ?_, ?_, ?_, ?_, ?_⟩
    · rw [List.drop_zero, ← List.map_take, List.take_range, show min 8 0x1930 = 8 from rfl, test_recordId, recordId_read,
        devid_of_cur (recorded node) (regs []) (by cases node <;> decide +kernel)]
      exact recordId_high _
    · rw [List.drop_zero, ← List.map_take, List.take_range, show min 8 0x1930 = 8 from rfl, test_recordId,
        recordId_read]
      exact recordId_low _
    all_goals
      rw [← List.map_drop, ← List.map_take, List.take_drop, List.take_range]
      cases node <;> decide +kernel

def saving : State := working0 (fun w => { w with run := .idle }) (commanded [6, 0, 0, 128] (global (regs [])))

/-- A record that is translated, whose fields have places, and over no bad granule, is written. -/
theorem writeRecord_ok (s : State) (ctx : Fin 64) (a : Word) (x : Xlat) (cs : List (List Host.Cell))
    (h : s.translate ctx .store a [(a.toNat % 2 ^ 48, 0x1930)] = .ok x)
    (hc : (s.saveFields.mapM fun f => (x.places (a.toNat % 2 ^ 48 + f.1) f.2.length).map fun as => as.zip f.2) = some cs)
    (hb : (s.padAt .g).bad = []) : s.writeRecord ctx a = .ok (s.perform .g cs.flatten) := by
  simp only [State.writeRecord, h, hc, State.refusedAt, s.firstBad_of_clean .g _ hb]

/-- The same for a state whose fields are known to have places. -/
theorem writeRecord_places (s : State) (ctx : Fin 64) (a : Word) (hb : (s.padAt .g).bad = [])
    (hx : (match s.translate ctx .store a [(a.toNat % 2 ^ 48, 0x1930)] with
      | .ok x => (s.saveFields.mapM fun f => (x.places (a.toNat % 2 ^ 48 + f.1) f.2.length).map fun as =>
          as.zip f.2).isSome
      | .error _ => false) = true) : ∃ u, s.writeRecord ctx a = .ok u := by
  cases h : s.translate ctx .store a [(a.toNat % 2 ^ 48, 0x1930)] with
  | error e => rw [h] at hx; exact absurd hx Bool.false_ne_true
  | ok x =>
    rw [h] at hx
    obtain ⟨cs, hc⟩ := Option.isSome_iff_exists.mp hx
    exact ⟨_, writeRecord_ok s ctx a x cs h hc hb⟩

theorem test_saving : ∃ u, saving.writeRecord 0 128 = .ok u :=
  writeRecord_places saving 0 128 (by decide +kernel) (by decide +kernel)

theorem wit_LoadsSavesAndResumes :
    (let s := stored block0 (commanded [1, 0, 0, 0] (regs []))
     s.host.mbstat = 1 ∧ (s.host.mbreq[0]).toNat % 256 = 1 ∧ s.loaderRead 0 0 464 = some (image0.take 464) ∧
     imageLength (image0.take 464) = 513 ∧ s.loaderRead 0 0 513 = some image0 ∧ Memory.wf s.code ∧
     s.loadError 0 0 parts0 image0 = none ∧ s.loadError 0 1 parts0 image0 = some 15 ∧ s.host.ready = true) ∧
    (let s := hosting (fun p => { p with ready := false }) (commanded [7, 0, 0, 0] (regs []))
     s.host.ready = false ∧ (s.host.mbreq[0]).toNat % 256 = 7) ∧
    (let s := working0 (fun w => { w with queues := w.queues.set 3 { w.queues[3] with
        nodes := [Node.none], head := { w.queues[3].head with held := some 5 } } }) (commanded [4, 0, 3] (regs []))
     (s.host.mbreq[0]).toNat % 256 = 4 ∧ ((s.cores[(0 : Fin 128)]).work.queues[(3 : Fin 4)]).nodes = [Node.none] ∧
     ((s.cores[(0 : Fin 128)]).work.queues[(3 : Fin 4)]).head.held = some 5 ∧ (s.cores[(0 : Fin 128)]).work.cur = none) ∧
    (let s := working0 (fun w => { w with run := .doubleFault }) (commanded [15, 0] (regs []))
     (s.host.mbreq[0]).toNat % 256 = 15 ∧ (s.cores[(0 : Fin 128)]).work.run = .doubleFault) ∧
    (let s := commanded [6, 0, 0, 128] (regs [])
     (s.host.mbreq[0]).toNat % 256 = 6 ∧ (vget s.host.mbreq 3 0).toNat % 128 = 0 ∧
     (s.cores[(0 : Fin 128)]).work.run = .running ∧ (s.cores[(0 : Fin 128)]).work.preempting = none) ∧
    (let c := saving.cores[(0 : Fin 128)]
     c.work.run = .idle ∧ c.work.stopped = false ∧ c.work.preempting = none ∧ c.work.cur = none ∧ c.trap.tvb ≠ 0 ∧
     c.trap.inh = false) ∧
    fails (({ saving with ctxs := Vector.replicate 64 none } : State).writeRecord 0 128) = true ∧
    (let s := working0 (fun w => { w with preempting := some (0, 128) }) (commanded [6, 0, 0, 128] (regs []))
     (s.cores[(0 : Fin 128)]).work.run = .running ∧ (s.cores[(0 : Fin 128)]).work.preempting.isSome = true ∧
     s.host.mbstat = 1) ∧
    fails (({ recorded false with ctxs := Vector.replicate 64 none } : State).readPort 0 true 0 0x1930) = true ∧
    (let s := stored [(0, 1)] (commanded [1, 0, 0, 0] (regs []))
     ∃ bs : List Byte, s.loaderRead 0 0 464 = some (bs.take 464) ∧
       leNat (bs.take 8) / 2 ^ 32 ≠ 0x5A4A4B42 ∧ 464 ≤ bs.length ∧ s.host.ready = true) ∧
    (∀ node, ((recorded node).host.mbreq[0]).toNat % 256 = 7 ∧ ((recorded node).cores[(0 : Fin 128)]).vacant = true ∧
      (recorded node).host.ready = true ∧ (recorded node).kernels = [kernel0] ∧
      kernel0.ctx = Fin.ofNat 64 0 ∧ kernel0.addr = BitVec.ofNat 64 0) := by
  refine ⟨?_, ?_, ?_, ?_, ?_, ?_, ?_, ?_, ?_, ⟨List.replicate 464 0 |>.set 0 1, ?_⟩, ?_⟩
  all_goals decide +kernel

def image (l : List (Fin 16 × Word)) : Vector Word 16 := l.foldl (fun v x => v.set x.1 x.2) (Vector.replicate 16 0)
def nodeAs (l : List (Fin 16 × Word)) : Node := { Node.none with img := image l }
/-- One node in queue q under a head. -/
def queued (q : Fin 4) (n : Node) (h : Head) (s : State) : State :=
  working0 (fun w => { w with queues := w.queues.set q { nodes := [n], seq := 0, head := h } }) s
def head0 : Head := Head.fresh 0
def checked0 : Head := { head0 with checked := true }
def met0 : Head := { checked0 with dep0 := true, dep1 := true }
/-- Two slices on core 0, or on core 64; a post that core 0 makes; the end of a walk. -/
def launch0 : Node := nodeAs [(0, 0x10001), (3, 2), (4, 1)]
def launch64 : Node := nodeAs [(0, 0x10001), (3, 2), (5, 1)]
def post0 : Node := nodeAs [(0, 0x10802), (3, 2), (4, 1), (6, counter), (7, 1)]
def end0 : Node := nodeAs [(0, 4)]

theorem wit_GraphsAndNodeHeads :
    (let s := working0 (fun w => { w with cpState := .running }) (global (regs []))
     (s.core.work.queues[(0 : Fin 4)]).nodes.length < 16 ∧ s.core.work.cpState = .running ∧
     s.readPort s.core.work.cpCtx true s.core.work.cp 128 = .ok (List.replicate 128 0) ∧
     ((imgOf (List.replicate 128 0))[0]).toNat % 16 = 0) ∧
    (let s := working0 (fun w => { w with cpState := .running }) (stored [(0, 3)] (regs []))
     s.readPort s.core.work.cpCtx true s.core.work.cp 128 = .ok (3 :: List.replicate 127 0) ∧
     ((imgOf (3 :: List.replicate 127 0))[0]).toNat % 16 = 3) ∧
    (let s := working0 (fun w => { w with cpState := .running }) (regs [])
     s.core.work.cpState = .running ∧ (s.core.work.queues[(0 : Fin 4)]).nodes.length < 16 ∧ ∃ y, s.readPort s.core.work.cpCtx true s.core.work.cp 128 = .error y) ∧
    (let s := queued 3 Node.none head0 (global (regs []))
     (s.core.work.queues[(3 : Fin 4)]).nodes = [Node.none] ∧ (s.core.work.queues[(3 : Fin 4)]).head.checked = false ∧
     (s.core.work.queues[(3 : Fin 4)]).head.held = none ∧ s.nodeError 3 Node.none = some 1 ∧
     s.nodeError 3 launch64 = none ∧ launch64.has s.cur = false ∧ s.nodeError 0 end0 = none ∧
     ({ s with kernels := [kernel0] } : State).nodeError 3 post0 = none ∧ post0.has s.cur = true) ∧
    (let s := global (regs [])
     let n := nodeAs [(0, 0x402), (10, counter), (11, 0)]
     s.readPort n.ctx false (n.depAdr true) 8 = .ok (List.replicate 8 0) ∧
     (n.depTgt true).toNat ≤ leNat (List.replicate 8 0) ∧ leNat (List.replicate 8 0) < ((1 : Word)).toNat ∧
     checked0.checked = true ∧ checked0.dep1 = false ∧ ∃ y, (regs []).readPort n.ctx false (n.depAdr true) 8 = .error y) ∧
    (let s := stored [(0, 1)] (regs [])
     s.readPort launch0.ctx true launch0.predAdr 4 = .ok [1, 0, 0, 0] ∧ leNat [1, 0, 0, 0] ≠ 0 ∧
     (global (regs [])).readPort launch0.ctx true launch0.predAdr 4 = .ok [0, 0, 0, 0] ∧ leNat [0, 0, 0, 0] = 0 ∧
     s.core.work.cur = none ∧ met0.dep0 = true ∧ met0.dep1 = true ∧ met0.ready = false ∧
     ∃ y, (regs []).readPort launch0.ctx true launch0.predAdr 4 = .error y) ∧
    (let s : State := { queued 3 post0 met0 (regs []) with time := 2 ^ 63 }
     (s.core.work.queues[(3 : Fin 4)]).head.reported = false ∧
     s.watchdog * 2500000 < (s.time - (s.core.work.queues[(3 : Fin 4)]).head.since).toNat) := by
  refine ⟨?_, ?_, ⟨?_, ?_, _, rfl⟩, ?_, ⟨?_, ?_, ?_, ?_, ?_, _, rfl⟩, ⟨?_, ?_, ?_, ?_, ?_, ?_, ?_, ?_, _, rfl⟩, ?_⟩
  all_goals decide +kernel

def loaded (s : State) : State := { s with kernels := [kernel0] }
def progress0 (next : Nat) : Progress :=
  { q := 0, node := launch0, seq := 0, kernel := 0, j := 0, p := 1, next, last := 2, carry := Vector.replicate 3 0,
    stage := 0, inRec := none, outRec := none, running := true, chosen := false }
def posting0 (n : Node) : Post :=
  { q := 0, seq := 0, node := n, det := false, writes := true, since := 0, reported := false, failed := false }

theorem wit_InvocationsStartAndEnd :
    (let s := loaded (queued 3 launch0 { met0 with ready := true } (working0 (fun w => { w with run := .idle }) (regs [])))
     (s.core.work.run = .idle ∧ s.core.work.stopped = false ∧ s.core.work.preempt = none ∧ s.core.work.cur = none) ∧
     s.nextQueue = some 3 ∧ (s.core.cmdq 3).nodes = [launch0] ∧ (launch0.img[0]).toNat % 16 = 1 ∧
     (s.core.cmdq 3).head.readyAt.toNat ≤ s.time.toNat ∧ s.kernelOf launch0 = some 0 ∧
     s.kernels[0]? = some kernel0 ∧ kernel0.stages = [stage0] ∧
     launch0.rank s.cur * launch0.slices / launch0.partCount ≠
       (launch0.rank s.cur + 1) * launch0.slices / launch0.partCount) ∧
    (∀ j ∈ [1, 2],
     let s := loaded (working0 (fun w => { w with run := .ending, cur := some (progress0 j) }) (regs []))
     s.core.work.run = .ending ∧ s.core.work.stopped = false ∧ s.core.work.cur = some (progress0 j) ∧
     s.core.work.preempt = none ∧ s.core.nextTrap = none ∧ s.core.joined 62 = true ∧
     s.kernels[(progress0 j).kernel]? = some kernel0) ∧
    (∀ n ∈ [launch0, post0],
     let s := working0 (fun w => { w with posts := [posting0 n] }) (global (regs []))
     s.core.work.posts = [posting0 n] ∧ s.postReady (posting0 n) = true) ∧
    (launch0.post = false ∧ post0.post = true) ∧
    ∃ x, (global (regs [])).translate 0 .counter counter [(counter.toNat % 2 ^ 48, 8)] = .ok x ∧
      x.places (counter.toNat % 2 ^ 48) 8 = some ((List.range 8).map (0x60000 + ·)) ∧
      (global (regs [])).firstBad .g ((List.range 8).map (0x60000 + ·)) = none ∧
      leNat (((List.range 8).map (0x60000 + ·)).map ((global (regs [])).byteAt .g)) + (1 : Word).toNat < 2 ^ 64 := by
  dsimp only
  refine ⟨?_, ?_, ?_, ?_, ⟨_, rfl, ?_, ?_, ?_⟩⟩
  all_goals decide +kernel

def drooping (d : Droop) (s : State) : State := s.updPower fun p => { p with droop := vset p.droop s.cluster d }

theorem wit_PowerAndDebugEvents :
    (let d := { Droop.reset with armed := true }
     let s := drooping d (regs [])
     (vget s.power.droop s.cluster Droop.reset).armed = true) ∧
    (let d := { Droop.reset with armed := false, stretching := true, halving := true }
     let s := drooping d (regs [])
     let x := vget s.power.droop s.cluster Droop.reset
     x.armed = false ∧ x.stretching = true ∧ x.halving = true) ∧
    ((regs []).updVec fun v => { v with gated := Vector.replicate 4 false }).core.vec.gated[(3 : Fin 4)] = false ∧
    (let s := leased (regs [])
     s.power.leases = [lease7] ∧ (0 : BitVec 16).toNat < s.power.splim.toNat ∧
     s.power.splim.toNat ≤ (0xFFFF : BitVec 16).toNat ∧ (s.cores[(0 : Fin 128)]).takesLeaseTrap = true ∧
     lease7.clusters.getLsbD 0 = true) ∧
    (let s : State := { leased (regs []) with time := 100 }
     lease7.expiry.toNat ≤ s.time.toNat ∧ (leased (regs [])).time.toNat < lease7.expiry.toNat ∧
     (∀ l ∈ (leased (regs [])).power.leases, l.due (leased (regs [])).time = false)) ∧
    (let s : State := { leased (regs []) with time := 25000 }
     let t : State := s.updPower fun p => { p with leases := [{ lease7 with expiry := 30000 }] }
     (t.servedAfter (-1) = false ∧ t.power.readings < t.time.toNat / 25000 ∧ t.power.expiredAt ≠ some t.time) ∧
     (∀ l ∈ t.power.leases, l.due t.time = false) ∧ ¬ ((regs []).power.readings < (regs []).time.toNat / 25000) ∧
     (t.updPower fun p => { p with expiredAt := some 25000 }).power.expiredAt = some t.time) ∧
    (let r : OwedTrap := { by_ := 0, trap := sprintEnd }
     let s := (regs []).upd fun c => { c with leaseTraps := [r] }
     s.core.leaseTraps = [r] ∧ r.by_.toNat ≤ s.time.toNat ∧ s.core.takesLeaseTrap = true) ∧
    ((regs []).servedAfter (-1) = false ∧
      ((regs []).updPower fun p => { p with lastReq := some (0, 0) }).servedAfter (-1) = true) ∧
    ((regs []).time.toNat / 2500000 ≤ (regs []).power.windows ∧ (regs []).power.ballastRan = false ∧
      (regs []).power.windows < ({ regs [] with time := 2500000 } : State).time.toNat / 2500000) ∧
    ((regs []).updPower fun p => { p with switching := 1 }).power.switching.getLsbD (regs []).cluster = true ∧
    ((regs []).core.deterministic = false ∧ (deterministic []).core.deterministic = true) ∧
    (let s := working0 (fun w => { w with dbg := some (.cycle 4096 0 1), dbgFrom := some 0 }) (regs [])
     s.core.work.dbg = some (.cycle 4096 0 1) ∧ s.core.work.dbgFrom = some 0 ∧ s.core.work.run = .running ∧
     s.core.work.stopped = false ∧ s.core.trap.inh = false ∧ 0 ≤ (s.core.regs.cyc - 0).toNat ∧
     (s.core.regs.cyc - 0).toNat < 1) := by
  dsimp only; and_intros <;> decide +kernel

/-- A line with a header, about to be opened. -/
def fetching (h : Nat) (f : Fetch → Fetch) : State :=
  ({ regs [] with code := (cellsFrom 4096 (leBytes 4 h)).filter fun c => c.2 != 0 } : State).updFetch fun x =>
    f { x with opened := false }
/-- A store of the VE to byte 0 of the unit pad. -/
def veStore (cls : Fin 16) (n : Nat) : Pending :=
  { ve := true, cls, space := .u, loc := .u 0, cells := [(0, 7)], hold := none, seq := 0, num := n, acc := n, det := false }
def run1 (b : Nat) : AfaddRun :=
  { launch := 0, index := 0, owner := some 0, mask := 1, ended := 1, applied := false,
    adds := [{ addr := 0, loc := .u 0, bytes := (List.range b).map (0x2FFFF8 + ·), wid := 0, addend := 1, hold := none, core := 0, ctx := 0 }] }
def tiered (w : Byte) : State := (global (regs [])).perform .g [(0x1010, w), (0x1015, 8)]
def page (y : Word) : Xlat := { ctx := 0, word2 := (tiered 0x23).gWord 0x1010, len := 65536, pages := [(0, y)] }

theorem wit_LinesStoresAndPages :
    (∀ s ∈ [fetching 4 fun f => { f with first := true }, fetching 5 fun f => { f with first := false },
        fetching 0 fun f => { f with first := true }],
      s.core.work.run = .running ∧ s.core.work.stopped = false ∧ s.core.fetch.draining = false ∧
      s.core.fetch.opened = false ∧ s.core.fetch.resume = false ∧ CanTrap s) ∧
    (let s := fetching 4 fun f => { f with first := true }
     headerFault (s.laneWord s.core.fetch.line 0) true = none ∧ s.core.fetch.first = true) ∧
    (let s := fetching 5 fun f => { f with first := false }
     headerFault (s.laneWord s.core.fetch.line 0) true = none ∧ s.core.fetch.first = false ∧
     BitVec.ofNat 2 (s.laneWord s.core.fetch.line 0) ≠ s.core.fetch.lmode ∧
     (s.core.trap.inh && s.core.trap.frz) = false) ∧
    (let s := fetching 0 fun f => { f with first := true }
     headerFault (s.laneWord s.core.fetch.line 0) true = some (0, 5)) ∧
    (let s := (fetching 5 id).updFetch fun f => { f with draining := true }
     s.core.fetch.draining = true ∧ s.core.drained = true) ∧
    (let s := posted (.u 0) [0, 1] (regs [])
     (∀ p, s.core.pend[0]? = some p → p.loc.valid = true ∧ (p.cells.map Prod.fst).Nodup) ∧ s.core.pend[0]?.isSome = true) ∧
    (let s := posted (.u 0) [0] (posted (.u 0) [0, 1] (regs []))
     ∃ p q : Pending, s.core.pend[1]? = some p ∧ s.core.pend[0]? = some q ∧
       q.ve = p.ve ∧ q.cls = p.cls ∧ q.space = p.space ∧ q.acc ≠ p.acc) ∧
    (let s := (regs []).upd fun c => { c with pend := [veStore 0 0, veStore 1 1] }
     ∃ p q : Pending, s.core.pend[1]? = some p ∧ s.core.pend[0]? = some q ∧ q.ve = true ∧ p.ve = true ∧ q.loc = p.loc ∧
       q.cls ≠ p.cls ∧ (∃ a x y, (a, x) ∈ q.cells ∧ (a, y) ∈ p.cells) ∧ q.acc ≠ p.acc) ∧
    (∀ b ∈ [4, 8],
     let s : State := { regs [] with runs := [run1 b] }
     s.runs[0]? = some (run1 b) ∧ (run1 b).applied = false ∧ (run1 b).mask &&& ~~~(run1 b).ended = 0 ∧
     3 &&& ~~~(run1 b).ended ≠ 0 ∧
     (∀ x ∈ (run1 b).adds, x.bytes.Nodup ∧ x.loc.valid = true ∧ s.firstBad x.loc x.bytes = none ∧
       (poisoned (.u 0) [0x2FFFF8] s).firstBad x.loc x.bytes = some (0x2FFFF8, none))) ∧
    (∀ w ∈ [(0x23 : Byte).toNat, 0x33],
     let s := tiered (BitVec.ofNat 8 w)
     s.entryAddr 0 0 0 = some 0x1000 ∧ wordValid (s.gWord 0x1010) = true ∧ 2 ≤ wordTier (s.gWord 0x1010) ∧
     (s.gWord 0x1008).toNat % 2 ^ 48 = 65536 ∧ (s.gWord 0x1000).toNat / 8 * 8 = 0x2000 ∧
     (s.gWord 0x2000).getLsbD 63 = true ∧ (s.gWord 0x2000).getLsbD 62 ≠ true ∧ s.holdCount 0 0 = 0 ∧
     s.gmem.bad = [] ∧ s.tableBad 0 0 0 = false ∧ s.frameFree true (wordSmask (s.gWord 0x1010)) 7 = true ∧
     s.frameFree false (wordSmask (s.gWord 0x1010)) 6 = false ∧
     (wordRights (s.gWord 0x1010)).getLsbD 4 = decide (w = 0x33)) ∧
    ∃ old new, (page (BitVec.ofNat 64 (2 ^ 63 + 5))).places 0 65536 = some old ∧
      (page (BitVec.ofNat 64 (2 ^ 63 + 2 ^ 62 + 7))).places 0 65536 = some new ∧ new.Nodup ∧
      ∀ a, 0x2000 ≤ a → a < 0x2008 → a ∉ new := by
  refine ⟨?_, ?_, ?_, ?_, ?_, ?_, ⟨_, _, rfl, rfl, ?_⟩, ⟨_, _, rfl, rfl, rfl, rfl, rfl, by decide, ⟨0, 7, 7, by decide, by decide⟩, by decide⟩, ?_, ?_, _, _,
    (page (BitVec.ofNat 64 (2 ^ 63 + 5))).places_of_one 0 0 65536 (BitVec.ofNat 64 (2 ^ 63 + 5)) rfl (by decide +kernel)
      (by decide +kernel) (by decide) (by decide +kernel),
    (page (BitVec.ofNat 64 (2 ^ 63 + 2 ^ 62 + 7))).places_of_tier 0 0 65536 (BitVec.ofNat 64 (2 ^ 63 + 2 ^ 62 + 7)) rfl
      (by decide +kernel) (by decide) (by decide +kernel), ?_, ?_⟩
  · unfold CanTrap; decide +kernel
  · decide +kernel
  · decide +kernel
  · decide +kernel
  · decide +kernel
  · exact ⟨fun p h => by cases h; decide, by decide +kernel⟩
  · decide +kernel
  · decide +kernel
  · decide +kernel
  · exact List.nodup_range.map fun _ _ h => Nat.add_left_cancel (Nat.add_left_cancel (Nat.add_left_cancel h))
  · intro a _ h2 hm
    obtain ⟨i, -, rfl⟩ := List.mem_map.mp hm
    omega

-- States for the clauses of statements at the ends of their ranges.

/-- RET to an n15 that is no multiple of 32; in a handler, to 0, out of an exposed line, and misaligned. -/
theorem wit_TransfersOfControl_ret :
    (let s := regs [(15, 40)]
     s.core.exposed = false ∧ (s.core.regs.n[15]).toNat % 32 ≠ 0 ∧ CanTrap s) ∧
    ∀ s ∈ [handler (regs []), handler (exposed [(15, 64)]), handler (regs [(15, 40)])],
      s.core.trap.inh = true ∧ (s.core.exposed = true ∨ s.core.regs.n[15] = 0 ∨ (s.core.regs.n[15]).toNat % 32 ≠ 0) := by
  unfold CanTrap; decide

/-- Word 2 of the entries of buffers 0 and 1, and the descriptors of their pages. -/
def word0 : Word := BitVec.ofNat 64 (2 ^ 48 + 0x23)
def word1 : Word := BitVec.ofNat 64 (2 ^ 48 + 0x24)
def desc0 : Word := BitVec.ofNat 64 (2 ^ 63 + 5)

theorem table0 : TableWords (global (regs [])) 0 0 0 word0 65536 desc0 :=
  ⟨by decide +kernel, _, rfl, by decide, by decide +kernel, by decide +kernel, by decide +kernel⟩

/-- A page of one stack, stack 0, holds its bytes one after another. -/
theorem page_places (w2 d : Word) (o : Nat) (h : w2.toNat / 2 ^ 48 = 1) (hg : w2.toNat / 2 ^ 44 % 16 = 0)
    (hd : d.getLsbD 62 = false) (hf : d.toNat % 2 ^ 40 < 700000) (ho : o < 65536) :
    PagePlace w2 d o (d.toNat % 2 ^ 40 * 65536 + o) := by
  have h1 : (List.range 16).countP (Nat.testBit 1) = 1 := by decide
  simp only [PagePlace, h, hg, hd, h1, Bool.false_eq_true, if_false]
  exact ⟨0, by decide, by decide, (Nat.mod_one _).symm, by omega, by omega⟩

/-- No table; an index past it; a poisoned entry; an invalid one; another owner's; rights missing; past LEN, at its
last byte; a page that is not there; a store to a counter; the page's last bytes; a frame past the stack. -/
theorem wit_AddressesAndLocalSpaces_global :
    (65532 % 65536 + 4 ≤ 65536 ∧ cachedPage (global (regs [])).core.tlb 0 0 0 = none) ∧
    (poisoned .g [0x1010] (global (regs []))).tableBad 0 0 0 = true ∧ (regs []).ctxs[(0 : Fin 64)] = none ∧
    (global (regs [])).ctxs[(0 : Fin 64)] = some ⟨0x1000, 8⟩ ∧
    TableWords (global (regs [])) 0 2 0 0 0 0 ∧ (0 : Word).getLsbD 5 = false ∧
    (word0.getLsbD 5 = true ∧ word0.toNat / 2 ^ 36 % 64 = 0 ∧ word0.getLsbD 0 = true ∧ word0.getLsbD 1 = true ∧
      word0.getLsbD 2 = false ∧ word1.getLsbD 2 = true ∧ word1.getLsbD 5 = true) ∧
    (let s := (global (regs [])).perform .g [(0x1014, 0x10)]
     let w : Word := BitVec.ofNat 64 (2 ^ 48 + 2 ^ 36 + 0x23)
     TableWords s 0 0 0 w 65536 desc0 ∧ w.getLsbD 5 = true ∧ w.toNat / 2 ^ 36 % 64 ≠ 0) ∧
    (TableWords (global (regs [])) 0 0 1 word0 65536 (BitVec.ofNat 64 (2 ^ 63 + 6)) ∧ 65536 < 65536 + 1 ∧
      TableWords (global (regs [])) 0 0 0 word0 65536 desc0 ∧ 65532 + 4 ≤ 65536 ∧ desc0.getLsbD 63 = true) ∧
    TableWords ((global (regs [])).perform .g [(0x2007, 0)]) 0 0 0 word0 65536 5 ∧ (5 : Word).getLsbD 63 = false ∧
    TableWords (global (regs [])) 0 1 0 word1 65536 (BitVec.ofNat 64 (2 ^ 63 + 6)) ∧
    (∀ i, i < 4 → PagePlace word0 desc0 (65532 + i) (5 * 65536 + (65532 + i))) ∧
    (TableWords (absent (regs [])) 0 0 0 word0 65536 (BitVec.ofNat 64 (2 ^ 63 + 2 ^ 20)) ∧
      ∀ p, ¬ PagePlace word0 (BitVec.ofNat 64 (2 ^ 63 + 2 ^ 20)) 0 p) ∧
    (let x : Cached := ⟨0, 3, 0, word0, 65536, desc0⟩
     let s := (regs []).upd fun c => { c with tlb := [x] }
     cachedPage s.core.tlb 0 3 0 = some x) := by
  refine ⟨by decide +kernel, by decide +kernel, by decide +kernel, by decide +kernel,
    ⟨by decide +kernel, _, rfl, by decide, by decide +kernel, by decide +kernel, by decide +kernel⟩, by decide, by decide,
    ⟨⟨by decide +kernel, _, rfl, by decide, by decide +kernel, by decide +kernel, by decide +kernel⟩, by decide, by decide⟩,
    ⟨⟨by decide +kernel, _, rfl, by decide, by decide +kernel, by decide +kernel, by decide +kernel⟩, by decide, table0,
      by decide, by decide⟩,
    ⟨by decide +kernel, _, rfl, by decide, by decide +kernel, by decide +kernel, by decide +kernel⟩, by decide,
    ⟨by decide +kernel, _, rfl, by decide, by decide +kernel, by decide +kernel, by decide +kernel⟩,
    fun i h => ?_, ⟨⟨by decide +kernel, _, rfl, by decide, by decide +kernel, by decide +kernel, by decide +kernel⟩, ?_⟩,
    by decide +kernel⟩
  · exact page_places word0 desc0 (65532 + i) (by decide) (by decide) (by decide) (by decide) (by omega)
  · rintro p ⟨stack, -, -, -, h⟩
    have h1 : (List.range 16).countP (Nat.testBit (word0.toNat / 2 ^ 48)) = 1 := by decide
    have h2 : (BitVec.ofNat 64 (2 ^ 63 + 2 ^ 20)).toNat % 2 ^ 40 = 2 ^ 20 := by decide
    rw [h1, h2] at h
    omega

/-- A waiting SC access of eight bytes. -/
def waitingSc (s : State) : State :=
  s.upd fun c => { c with scWait := some { loc := .k 0, bytes := (List.range 8).map (8 + ·), hold := none } }

/-- A new access and one that waits: while the VE owes an access, away from the core's position, once the region has had
one, and at the position. -/
theorem wit_SequentialAccesses_place : ∀ s ∈ [regs [(1, 8)], waitingSc (regs [(1, 8)])],
    let as := (List.range 8).map (8 + ·)
    let place (s : State) (k : GKind) : Prop :=
      (s.core.scWait = none ∧ (s.operand (.n 1)).toNat % 8 = 0 ∧ s.resolve .k k (s.operand (.n 1)) 8 = .ok (.k 0, as)) ∨
      ∃ x, s.core.scWait = some x ∧ x.loc = .k 0 ∧ x.bytes = as
    let early : State := { s with time := 10 }
    let later : State := (early.updFetch fun f => { f with lmode := 1, scDone := true })
    let mine : State := { s with time := 1280 }
    (∀ z ∈ [owing s, early, later, mine], ∀ k ∈ [GKind.load, .store], place z k) ∧
    (owing s).core.veOwes (fun _ _ => true) = true ∧
    (∀ z ∈ [early, later], z.core.veOwes (fun _ _ => true) = false ∧ z.time.toNat / 10 % 4096 % 128 ≠ z.cur.val) ∧
    ¬ (early.core.exposed = true ∧ early.core.fetch.scDone = true) ∧
    (later.core.exposed = true ∧ later.core.fetch.scDone = true ∧ CanTrap later) ∧
    (mine.core.veOwes (fun _ _ => true) = false ∧ mine.time.toNat / 10 % 4096 % 128 = mine.cur.val ∧
      mine.core.fetch.scLast ≠ some (mine.time.toNat / 10) ∧
      (mine.performWhere fun _ => true).firstBad (.k 0) as = none ∧
      (mine.performWhere fun _ => true).partialBad (.k 0) as = none) := by
  have h : ∀ (s : State) (x : ScWait), s.core.scWait = some x → x.loc = .k 0 → x.bytes = (List.range 8).map (8 + ·) →
      ∃ x, s.core.scWait = some x ∧ x.loc = .k 0 ∧ x.bytes = (List.range 8).map (8 + ·) :=
    fun _ x h a b => ⟨x, h, a, b⟩
  intro s hs
  simp only [List.mem_cons, List.not_mem_nil, or_false] at hs
  rcases hs with rfl | rfl
  · refine ⟨?_, by decide +kernel, by decide +kernel, by decide +kernel, by unfold CanTrap; decide +kernel, by decide +kernel⟩
    intro z hz k hk
    left
    revert k z
    decide +kernel
  · refine ⟨?_, by decide +kernel, by decide +kernel, by decide +kernel, by unfold CanTrap; decide +kernel, by decide +kernel⟩
    intro z hz k hk
    right
    refine ⟨⟨.k 0, (List.range 8).map (8 + ·), none⟩, ?_, rfl, rfl⟩
    clear hk
    revert z
    decide +kernel

/-- A fence behind an entry that waits to push to a full token queue. -/
theorem wit_FencesAndDrains_pushing :
    let i : Instr := .cfill .u 0 1 2 b0
    let s := tokens .ce .ve 15 (queue .ce { entries [.instr i cap0, .fence (fence 8)] with phase := .pushing 4 } (regs []))
    s.core.halted = false ∧ s.core.frozen = false ∧ (fence 8).mask.getLsbD Eng.ce.num = true ∧
    (s.core.queue .ce).phase = .pushing 4 ∧ (s.core.queue .ce).entries.take 2 = [.instr i cap0, .fence (fence 8)] ∧
    ((4 : BitVec 6).getLsbD Eng.ve.num = true ∧ 15 ≤ s.core.eng.tok .ce .ve) ∧
    ∀ x ∈ engines, (fence 8).mask.getLsbD x.num = true → s.core.fenceReady (fence 8) x = true := by
  decide +kernel

/-- DEAD: misaligned, of no length, past the table, past LEN, and of one page with and without a hold. -/
theorem wit_BufferTableUpdates_dead :
    let s := global (regs [(2, 65536)])
    (s.core.regs.sup = true ∧ s.entryAddr 0 8 0 = none ∧ (4 : Word).toNat % 65536 ≠ 0) ∧
    (∀ k, 65536 * k < 65536 → TableWords s 0 0 (0 / 65536 + k) word0 65536 desc0) ∧
    (∀ j, j < 65536 → PagePlace word0 desc0 (j % 65536) (5 * 65536 + j)) ∧
    (word0.getLsbD 5 = true ∧ word0.toNat / 2 ^ 36 % 64 = 0 ∧ word0.getLsbD 2 = false ∧ ¬ (65536 < 0 + 65536) ∧
      desc0.getLsbD 63 = true) ∧
    (s.holdCount 0 0 = 0 ∧ (s.addHold 0 0 false).holdCount 0 0 ≠ 0) ∧
    (∀ k, 65536 * k < 65536 → TableWords s 0 1 (0 / 65536 + k) word1 65536 (BitVec.ofNat 64 (2 ^ 63 + 6))) ∧
    word1.getLsbD 2 = true := by
  refine ⟨by decide +kernel, fun k h => ?_, fun j h => ?_, by decide, by decide +kernel, fun k h => ?_, by decide⟩
  · obtain rfl : k = 0 := by omega
    exact ⟨by decide +kernel, _, rfl, by decide, by decide +kernel, by decide +kernel, by decide +kernel⟩
  · rw [Nat.mod_eq_of_lt h]
    exact page_places word0 desc0 j (by decide) (by decide) (by decide) (by decide) h
  · obtain rfl : k = 0 := by omega
    exact ⟨by decide +kernel, _, rfl, by decide, by decide +kernel, by decide +kernel, by decide +kernel⟩

/-- A write on its way that is due; values at the ends of the ranges and outside them. -/
theorem wit_SystemRegistersReadAndWrite_lands :
    (let x : OutWrite := { reg := 0x140, value := 4, by_ := 0 }
     let s := (regs []).upd fun c => { c with outWrites := [x] }
     s.core.outWrites = [x] ∧ x.by_ ≤ s.core.cycles) ∧
    (∀ v ∈ [(4 : BitVec 6), 60], v.toNat % 2 = 0 ∧ 4 ≤ v.toNat ∧ v.toNat ≤ 60) ∧
    (∀ v ∈ [(2 : BitVec 6), 5, 62], ¬ (v.toNat % 2 = 0 ∧ 4 ≤ v.toNat ∧ v.toNat ≤ 60)) ∧
    (regs []).core.regs.sup = true := by decide +kernel

/-- A number of each column of R90 at the ends of its ranges. -/
theorem wit_UserModeRaisesPriv_numbers :
    (∀ n ∈ [0x10, 0x14, 0x20, 0x2F, 0x30, 0x35, 0x38, 0x3D, 0x40, 0x48, 0x50, 0x51],
      userReads n = false ∧ userWrites n = false ∨ n = 0x50 ∨ n = 0x51) ∧
    (∀ n ∈ [0, 3, 0x110, 0x132, 0x150, 0x160, 0x163, 0x168, 0x172, 0x178, 0x179, 0x200, 0x3FF],
      userReads n = true ∧ userWrites n = false) ∧
    ∀ n ∈ [0x100, 0x105, 0x140, 0x144], userReads n = true ∧ userWrites n = true := by decide

/-- A sprint request whose time has come, while one of a higher core has been served in the instant. -/
def sprint0 : Late := { op := .sprint 1 1 0, named := none, pos := 0, stas := 0 }
structure Blocked (s : State) : Prop where
  opened : s.core.opened = [sprint0]
  req : s.power.lastReq = some (s.time, 2)
  cur : s.cur = 0
  runs : s.core.halted = false
  stop : s.core.stopDue = false

theorem Blocked.must {s : State} (h : Blocked s) : s.mustWait sprint0 = true := by
  simp only [State.mustWait, sprint0, State.servedAfter, h.req, h.cur, beq_self_eq_true, Bool.true_and]
  decide

theorem Blocked.close {s : State} (h : Blocked s) (p : Late → Bool) : Blocked (s.closeLates p) := by
  have e : s.closeLates p = s.upd fun c => { c with opened := c.opened.filter fun o => !([].contains o) } := by
    simp only [State.closeLates, h.opened, List.isEmpty_cons, Bool.false_eq_true, if_false, lateUpTo, h.must, Bool.not_true,
      Bool.and_false, List.any_nil, Bool.or_self, List.foldl_nil]
  rw [e]
  refine ⟨?_, ?_, ?_, ?_, ?_⟩
  · simp [h.opened]
  · simpa using h.req
  · simpa using h.cur
  · simpa [Core.halted] using h.runs
  · simpa [Core.stopDue, Core.stopIn] using h.stop

theorem Blocked.draw {s : State} (h : Blocked s) : Blocked s.draw := ⟨h.opened, h.req, h.cur, h.runs, h.stop⟩

theorem Blocked.closeSome {s : State} (h : Blocked s) : Blocked s.closeSome := by
  simp only [State.closeSome, h.opened, List.foldl_cons, List.foldl_nil]
  split
  · exact h.draw.close _
  · exact h.draw

theorem Blocked.settle {s : State} (h : Blocked s) (a : Act) : Blocked (s.settleLate a) := by
  simp only [State.settleLate, h.opened, List.isEmpty_cons, Bool.false_eq_true, if_false, h.runs]
  split
  · exact (h.closeSome.close _).close _
  · exact h.closeSome.close _

theorem Blocked.waits {s : State} (h : Blocked s) : s.waitsLate (.event .trapEntry) = true := by
  simp [State.waitsLate, h.opened, State.turnCloses, h.runs]

/-- A turn that waits; a look at a source; what the outside does. -/
theorem wit_StepRunsDecodedInstruction_waits :
    (let s := (turn (.event .trapEntry) 0 0 0).upd fun c => { c with opened := [sprint0] }
     let t : State := { s with power := { s.power with lastReq := some (s.time + BitVec.ofNat 64 (Config.elapsed s.steps), 2) } }
     (t.takeTurn.2.begin t.takeTurn.1).waitsLate t.takeTurn.1.act = true) ∧
    (∀ a ∈ [Act.look 3, .outside .atomicOp], (turn a 0 0 0).takeTurn.1.act = a ∧
      ((turn a 0 0 0).takeTurn.2.begin (turn a 0 0 0).takeTurn.1).core.halted = false) := by
  refine ⟨?_, by decide +kernel⟩
  intro s t
  have h : Blocked (s := t.takeTurn.2.pass 0) := ⟨rfl, rfl, rfl, rfl, rfl⟩
  have h2 := h.settle (.event .trapEntry)
  have e := (State.begin_of_quiet t.takeTurn.2 t.takeTurn.1 rfl rfl rfl rfl rfl rfl rfl rfl rfl).trans
    (if_neg fun x => Bool.false_ne_true (h2.stop.symm.trans x))
  exact (congrArg (fun z : State => z.waitsLate (.event .trapEntry)) e).trans h2.waits

/-- A fill whose destination passes its space; link parameters that are misaligned. -/
theorem wit_LanePairsAreRouted_traps :
    (let s := forked 0x3E (regs [])
     CanTrap s ∧ s.core.eng.active.getLsbD Eng.ce.num = true ∧ s.core.eng.active.getLsbD Eng.le.num = true) ∧
    ((match (regs []).captureFill .k 64 0 0x1000000 with | .trap code _ => code != 0x14 | _ => false) = true) ∧
    (linkFault { cap0 with params := Vector.replicate 16 4 } 0 1 2 none 1 = some (0x03, infoLocal 4)) := by
  unfold CanTrap; decide +kernel

/-- A ladder tile whose slots bring one SAT each: over the threshold, below the top rung and at it; with the thresholds
off it does not fail. -/
theorem wit_TilesCommit_ladder :
    let t : Tile := { tile0 with lad := some (bindA, bindB), clr := true }
    let w := work0 (some t) [] false
    let s (d : Word) (sat : BitVec 16) : State := (slot 0 { filled with bind := some bindA, sat := 1 }
      (slot 1 { filled with bind := some bindB, sat := 1 } (multiplying (.mmaLad .bf16 0 0 1 b0) w))).updMe fun m =>
        { m with ladders := m.ladders.set 0 d, mon := (Vector.replicate 7 0xFFFF).set 0 sat }
    (∀ d ∈ [(0xFF2 : Word), 0xF72], ∀ sat ∈ [(1 : BitVec 16), 0xFFFF],
      (s d sat).core.me.work = some w ∧ w.tile = some t ∧ t.q = none ∧ t.e < 64 ∧ ((s d sat).core.queue .me).phase = .busy ∧
      (s d sat).core.engHeld .me = false) ∧
    ((s 0xF72 1).core.me.mon[0] ≠ 0xFFFF ∧ ((s 0xF72 1).core.me.mon[0]).toNat <
      ((s 0xF72 1).core.me.slot 0).sat + ((s 0xF72 1).core.me.slot 1).sat) ∧
    (∀ k : Fin 3, (s 0xF72 0xFFFF).core.me.mon[k.val] = 0xFFFF) ∧
    ¬ ((ladRungs ((s 0xF72 1).core.me.desc bindA)).length ≤ 1) ∧ (ladRungs ((s 0xFF2 1).core.me.desc bindA)).length ≤ 1 := by
  dsimp only
  refine ⟨fun d _ sat _ => ⟨rfl, rfl, rfl, by decide, rfl, rfl⟩, by decide +kernel, by decide +kernel, by decide +kernel, by decide +kernel⟩

theorem elemOf_le (rd : Nat → Byte) (bit : Nat) : elemOf rd 8 bit < 256 := by
  simp only [elemOf, show ¬ (8 < 8) by decide, if_false, show 8 / 8 = 1 from rfl, List.range_one, List.map_cons, List.map_nil,
    leNat]
  have := (rd (bit / 8 + 0)).isLt
  omega

/-- A Q tile without and with a scale, whose entry is none of its partials: no sum of products of bytes passes 2^31. -/
theorem wit_TilesCommit_quantized :
    (let t : Tile := { tile0 with fmt := .q8, q := some .g128, part := 1 }
     ∀ sc ∈ [none, some 0],
      let w := work0 (some { t with scale := sc }) [] true
      let s := multiplying (.mgo .q8 0 0 1 (some ⟨1, .g128, 0⟩) b0) w
      s.core.me.work = some w ∧ w.tile = some { t with scale := sc } ∧ t.e < 64 ∧ fmtN t.fmt = 64 ∧
      ¬ (t.part ≤ t.e ∧ t.e < t.part + 256 / 128) ∧ (s.core.queue .me).phase = .busy ∧ s.core.engHeld .me = false) ∧
    ∀ (a b y z : Nat → Nat), (∀ k, a k < 256 ∧ b k < 256) → (∀ k, y k < 256 ∧ z k < 256) →
      let p := ((List.range 128).map fun k => ((a k : Int) - y 0) * ((b k : Int) - z 0)).sum
      p < 2 ^ 31 ∧ -(2 ^ 31) ≤ p := by
  refine ⟨by decide +kernel, fun a b y z h hz => ?_⟩
  have : ∀ l : List Nat, -(65025 * (l.length : Int)) ≤ (l.map fun k => ((a k : Int) - y 0) * ((b k : Int) - z 0)).sum ∧
      (l.map fun k => ((a k : Int) - y 0) * ((b k : Int) - z 0)).sum ≤ 65025 * (l.length : Int) := by
    intro l
    induction l with
    | nil => simp
    | cons k l ih =>
      have h1 := h k
      have h2 := hz 0
      have e : |((a k : Int) - y 0) * ((b k : Int) - z 0)| ≤ 255 * 255 := by
        rw [abs_mul]
        exact mul_le_mul (abs_le.mpr ⟨by omega, by omega⟩) (abs_le.mpr ⟨by omega, by omega⟩) (abs_nonneg _) (by decide)
      have e' := abs_le.mp e
      simp only [List.map_cons, List.sum_cons, List.length_cons]
      push_cast
      constructor <;> linarith [ih.1, ih.2, e'.1, e'.2]
  have := this (List.range 128)
  rw [List.length_range] at this
  push_cast at this
  omega

/-- The shadows of the operands, as a pass would find them. -/
def shadows (s : State) : List Byte × List Byte := (s.shadowBytes bindA, s.shadowBytes bindB)
theorem shadows_of (s t : State) (h : s.unit = t.unit) : shadows s = shadows t := by
  simp only [shadows, State.shadowBytes, h]

def tileL : Tile := { tile0 with lad := some (bindA, bindB) }
/-- A pass at rung 1 of the descriptor, which found these shadows. -/
def passing (d : Word) (sh : List Byte × List Byte) : State :=
  (multiplying (.mmaLad .bf16 0 0 1 b0) (work0 none [tileL] false)).updMe fun m =>
    { m with ladders := m.ladders.set 0 d, work := some { work0 none [tileL] false with seen := some sh, rung := 1 } }
theorem passing_shadows (d : Word) (sh : List Byte × List Byte) : shadows (passing d sh) = shadows (regs []) :=
  shadows_of _ _ rfl

/-- A pass whose shadows are as it found them, the last of its rung: at the top rung, and below it. -/
theorem wit_ReplaysAndScales_pass :
    (∀ d, let sh := shadows (regs [])
      let s := passing d sh
      sh = (s.shadowBytes bindA, s.shadowBytes bindB)) ∧
    (∀ d sh, let s := passing d sh
      s.core.me.work.bind MeWork.seen = some sh ∧ s.core.me.work.map MeWork.replays = some [tileL] ∧ s.core.me.work.map MeWork.passes = some 0 ∧
      tileL.lad = some (bindA, bindB) ∧ (s.core.queue .me).phase = .busy ∧ s.core.engHeld .me = false ∧
      s.core.me.desc bindA = d) ∧
    ((ladRungs 0x222)[1]? = some .bf16 ∧ (ladRungs 0xF22)[1]? = some .bf16) ∧ fmtK tile0.fmt ≤ (0 + 1) * fmtK .bf16 ∧
    ¬ ((ladRungs 0x222).length ≤ 1 + 1) ∧ (ladRungs 0xF22).length ≤ 1 + 1 :=
  ⟨fun d => (passing_shadows d _).symm, fun d sh => ⟨rfl, rfl, rfl, rfl, rfl, rfl, rfl⟩, by decide +kernel, by decide, by decide +kernel,
    by decide +kernel⟩

/-- Elements at the ends of the ranges: 1, 127 and 128, and a value that is no special input of any function. -/
theorem wit_FunctionsOfOneElement_values :
    (∃ m e, fF32.decode 0x3F800000 = .fin false m e ∧ m ≠ 0 ∧ (m : ℚ) * 2 ^ e = 1) ∧
    (∃ m e, fF32.decode 0x42FE0000 = .fin false m e ∧ m ≠ 0 ∧ (m : ℚ) * 2 ^ e = 127) ∧
    (∃ m e, fF32.decode 0x43000000 = .fin false m e ∧ m ≠ 0 ∧ (m : ℚ) * 2 ^ e = 128) ∧
    (2 : ℝ) ^ (-128 : ℤ) < |1| ∧ (0 : ℝ) < 1 ∧ (127 : ℝ) < 128 := by
  refine ⟨⟨2 ^ 23, -23, by decide, by decide, by norm_num⟩, ⟨127 * 2 ^ 17, -17, by decide, by decide, by norm_num⟩,
    ⟨2 ^ 23, -16, by decide, by decide, by norm_num⟩, by norm_num, by norm_num, by norm_num⟩

/-- A command of this package that is to go again; a barrier that is not released; no command at all. -/
theorem wit_LinkCommands_again :
    (let m : LinkMsg := { message false 0 with srcPkg := (regs []).links.id }
     let s := linked [command .null, command (.msg m .again), command (.bar 5 false)] (regs [])
     (s.core.cpy.le[1]?).map LeEnt.cmd = some (.msg m .again) ∧ s.links.reaches m.dstPkg = true ∧ m.srcPkg = s.links.id ∧
     (s.core.cpy.le[2]?).map LeEnt.cmd = some (.bar 5 false) ∧ (s.core.cpy.le[3]?).map LeEnt.cmd = none ∧
     s.core.engHeld .le = false) ∧
    (let s := linked [command (.bar 5 true)] (regs [])
     s.core.cpy.le = [command (.bar 5 true)]) := by
  decide +kernel

/-- A message forwarded for another package over link 3; a gather that is being added; a release that reaches core 0. -/
theorem wit_ArrivalsAndPodBarriers_more :
    (let s : State := { regs [] with links := { (regs []).links with
        up := 8, fails := (regs []).links.fails.set 3 15, relayed := [{ message false 0 with via := some 3 }] } }
     s.links.up.getLsbD (3 : Fin 16).val = true ∧ (∀ z ∈ s.links.relayed, z.srcPkg ≠ s.links.id) ∧
     (s.links.relayed.filter fun z => z.via == some 3) ≠ []) ∧
    (let m := message true 0
     let s := inbox [m, { message true 1 with added := [0x50000 / 4] }] (regs [])
     s.links.inbox[0]? = some m ∧ s.landing m = .ok ((List.range 64).map (0x50000 + ·), some ((List.range 8).map (0x60000 + ·))) ∧
     m.expect = 0 ∧ m.added = [] ∧
     ¬ ∀ (j : Fin 2), j ≠ 0 → sameGather m (s.links.inbox.getD j m) = true → (s.links.inbox.getD j m).expect = 0 ∨
       (s.links.inbox.getD j m).added = []) ∧
    (let s := inbox [message true 2] (regs [])
     ∀ (j : Nat) (x : LinkMsg), s.links.inbox[j]? = some x → j ≠ 0 → sameGather (message true 2) x = true →
      x.expect = 0 ∨ x.added = []) ∧
    (let b := { PodBar.reset with complete := true, received := some 0, arrived := [0], id := 5, b := 3 }
     let s := podBar b (linked [command (.bar 5 false)] (regs []))
     s.links.barAt ⟨3, 0⟩ = some (0, b) ∧ b.complete = true ∧ b.received = some 0 ∧
     (0 : Word).toNat + s.phaseTicks 0 b.pidx ≤ s.time.toNat ∧ (∀ c ∈ b.arrived, c / 4 = 0)) := by
  refine ⟨by decide +kernel, by decide +kernel, ?_, by decide +kernel⟩
  intro s j x h hj
  obtain ⟨k, rfl⟩ : ∃ k, j = k + 1 := ⟨j - 1, by omega⟩
  simp [s, inbox] at h

/-- A header that the loader's port refuses. -/
theorem wit_LoadsSavesAndResumes_refused :
    let s := { commanded [1, 0, 0, 0] (regs []) with ctxs := Vector.replicate 64 none }
    s.host.mbstat = 1 ∧ (s.host.mbreq[0]).toNat % 256 = 1 ∧ s.host.ready = true ∧ fails (s.portPlaces 0 .loader 0 464) = true := by
  decide +kernel

/-- Registers of the switch: a core in an exposed deterministic line, and one outside; a switch that has come due. -/
theorem wit_PowerAndDebugEvents_switch :
    (let s := (deterministic []).updPower fun p => { p with switching := 1 }
     s.power.switching.getLsbD s.cluster = true ∧ s.power.switching.getLsbD 0 = true ∧
     (s.power.switchBy[(0 : Fin 32)]).toNat ≤ s.time.toNat ∧
     ((s.cores[(0 : Fin 128)]).deterministic = true ∧ (s.cores[(0 : Fin 128)]).work.run = .running) ∧
     (s.cores[(1 : Fin 128)]).deterministic = false ∧ (0 : Fin 128).val / 4 = 0) ∧
    (let s : State := (regs []).updWork fun w => { w with dbg := some (.cycle 4096 0 1), dbgFrom := some 0 }
     let t := (s.updRegs fun r => { r with cyc := 0 }).updWork fun w => { w with dbg := some (.cycle 4096 0 0) }
     t.core.work.dbg = some (.cycle 4096 0 0) ∧ t.core.work.dbgFrom = some 0 ∧ 0 ≤ (t.core.regs.cyc - 0).toNat) := by
  decide +kernel

/-- Stores of two deterministic lines to one byte, in two classes; adds of a run over a bad granule. -/
theorem wit_LinesStoresAndPages_det :
    let p (cls : Fin 16) (n : Nat) : Pending := { veStore cls n with ve := false, det := true }
    let s := (regs []).upd fun c => { c with pend := [p 0 0, p 1 1] }
    s.core.pend[1]? = some (p 1 1) ∧ s.core.pend[0]? = some (p 0 0) ∧ (p 0 0).det = true ∧ (p 1 1).det = true ∧
    (p 0 0).loc = (p 1 1).loc ∧ ((0, 7) : Nat × Byte) ∈ (p 0 0).cells ∧ ((0, 7) : Nat × Byte) ∈ (p 1 1).cells ∧
    (p 0 0).acc ≠ (p 1 1).acc := by
  decide +kernel

def stage1 : StageInfo := { entry := 512, ring := 0x1000, depth := 2, rsize := 128, allot := 8 }
/-- A kernel of two stages. -/
def kernel2 : Kernel := { kernel0 with stages := [stage0, stage1] }
/-- The records of the node on die 0: these of ring 1, with no stage passed over. -/
def staged0 (ring : List RecSt) : Staged :=
  { die := 0, kernel := 0, launch := 0, index := 0, owner := none, img := launch0.img, rings := [[], ring], passed := [0, 0],
    left := [], cut := [], ended := false }
def staging (l : List Staged) (s : State) : State := { s with kernels := [kernel2], staged := l }

/-- With slices left and a free record stage 0 is the choice; with a valid record and none left, stage 1 is. -/
theorem choice_first : StageChoice (staged0 [.free, .free]) 2 true 0 := by
  refine Or.inr ⟨fun d h => ?_, ⟨by decide, by simp [StageRatio], Or.inr (by decide)⟩, fun d h => ?_⟩
  · have : d < 2 := h.1.1
    interval_cases d <;> simp [staged0] at h
  · have : d < 2 := h.1
    interval_cases d
    · exact Or.inr ⟨rfl, le_rfl⟩
    · exact Or.inl (by simp [StageRatio, staged0])
theorem choice_last : StageChoice (staged0 [.valid, .free]) 2 false 1 := by
  refine Or.inr ⟨fun d h => ?_, ⟨by decide, ?_, Or.inl rfl⟩, fun d h => ?_⟩
  · have : d < 2 := h.1.1
    interval_cases d <;> simp [staged0] at h
  · change (0 : ℚ) < ((1 : ℕ) : ℚ) / ((2 : ℕ) : ℚ)
    norm_num
  · have : d < 2 := h.1
    interval_cases d
    · have := h.2.1
      simp [StageRatio] at this
    · exact Or.inr ⟨rfl, le_rfl⟩
/-- With neither, none is open. -/
theorem choice_none (y : Nat) : ¬ StageOpen (staged0 [.free, .reserved]) 2 false y := by
  rintro ⟨h, h2, -⟩
  interval_cases y <;> simp [StageRatio, staged0] at h2

/-- A unit pad's data; a first start of a staged node, and one beside another node's; an invocation chosen, one that waits,
and the last of a core, with a next stage, with none open, and at the node's end. -/
theorem wit_InvocationsStartAndEnd_staged :
    (let d : Nat × List Byte := (8, [1, 2])
     let k : Kernel := { kernel0 with dataU := [d] }
     (regs []).unit.bad = [] ∧ d ∈ k.dataU ∧ d.2[1]? = some 2 ∧ ∀ z ∈ k.dataU, z = d) ∧
    (∀ l ∈ [[], [{ staged0 [.free, .free] with launch := 5 }]],
     let s := staging l (queued 3 launch0 { met0 with ready := true } (working0 (fun w => { w with run := .idle }) (regs [])))
     (s.core.work.run = .idle ∧ s.core.work.stopped = false ∧ s.core.work.preempt = none ∧ s.core.work.cur = none) ∧
     (l = [] → s.nextQueue = some 3) ∧ (s.core.cmdq 3).nodes = [launch0] ∧ (launch0.img[0]).toNat % 16 = 1 ∧
     (s.core.cmdq 3).head.readyAt.toNat ≤ s.time.toNat ∧ s.kernelOf launch0 = some 0 ∧ s.kernels[0]? = some kernel2 ∧
     kernel2.stages.length = 2 ∧ kernel2.dataU = [] ∧ s.staged = l ∧ stage1.depth ≠ 0 ∧
     (∀ j, j < 4 → j ≠ 3 → (s.core.cmdq j).head.ready = false) ∧
     launch0.rank s.cur * launch0.slices / launch0.partCount ≠ (launch0.rank s.cur + 1) * launch0.slices / launch0.partCount) ∧
    (launch0.launch ≠ 5 ∧ (regs []).die = 0 ∧ (staged0 [.free, .free]).names 0 launch0) ∧
    (∀ b, let p : Progress := { progress0 1 with running := false, chosen := b }
     let s := staging [staged0 [.free, .free]] (working0 (fun w => { w with run := .idle, cur := some p }) (regs []))
     s.core.work.run = .idle ∧ s.core.work.stopped = false ∧ s.core.work.cur = some p ∧ s.kernels[p.kernel]? = some kernel2 ∧
     kernel2.stages[p.stage]? = some stage0 ∧ s.staged = [staged0 [.free, .free]] ∧ decide (p.next < p.last) = true) ∧
    (∀ r ∈ [[RecSt.valid, .free], [.free, .reserved], [.free, .free]],
     let p : Progress := { progress0 2 with stage := 1 }
     let s := staging [staged0 r] (working0 (fun w => { w with run := .ending, cur := some p }) (regs []))
     s.core.work.run = .ending ∧ s.core.work.stopped = false ∧ s.core.work.cur = some p ∧ s.core.work.preempt = none ∧
     s.core.nextTrap = none ∧ s.core.joined 62 = true ∧ s.kernels[p.kernel]? = some kernel2 ∧ p.outRec = none ∧
     s.staged = [staged0 r] ∧ (staged0 r).ended = false ∧ (staged0 r).rings.length = 2 ∧ (staged0 r).passed.length = 2 ∧
     s.cur = 0 ∧ (0 : Nat) ∉ (staged0 r).left ∧ decide (p.next < p.last) = false) ∧
    (∀ r, (staged0 r).takes 0 ∧ ∀ j : Fin 128, (staged0 r).takes j → j = 0) := by
  refine ⟨by decide +kernel, by decide +kernel, ⟨by decide +kernel, by decide +kernel, ?_⟩, ?_, by decide +kernel, fun r => ?_⟩
  · unfold Staged.names; decide +kernel
  · intro b; cases b <;> decide +kernel
  · have h : (0 / 64 = 0 ∧ (launch0.img[4]).getLsbD (0 % 64) = true) ∧ ∀ j : Fin 128, j.val / 64 = 0 ∧
        (if j.val < 64 then launch0.img[4] else launch0.img[5]).getLsbD (j.val % 64) = true → j = 0 := by decide +kernel
    exact h

end Sys2Proof.Tests
end

section
/-! SUPPORT. The host port: what its operations change and what they leave alone, one lemma per operation and case;
and the statement about it, O54. -/
namespace Sys2Proof.Machine

-- Events as their meanings.

theorem exec_hostRegisterWrite (off size : Nat) (v : Word) (s : State) :
    exec (.hostRegisterWrite off size v) s = execHostRegisterWrite off size v s := rfl
theorem exec_hostBar2Read (off len : Nat) (s : State) :
    exec (.hostBar2Read off len) s = execHostBar2Read off len s := rfl
theorem exec_hostBar2Write (off : Nat) (bytes : List Byte) (s : State) :
    exec (.hostBar2Write off bytes) s = execHostBar2Write off bytes s := rfl
theorem exec_hostFetchadd (off : Nat) (v : Word) (s : State) :
    exec (.hostFetchadd off v) s = execHostFetchadd off v s := rfl

/-- No event of the host happens over a link that did not train (R25). -/
theorem eventStep_of_unlinked {i : Instr} {s : State} (hi : isHostEvent i = true) (h : s.host.linked = false) :
    eventStep i s = .next s := by
  simp [eventStep, hi, h]

-- Memory under updates that do not touch it.

/-- States whose places are the same have the same bytes. -/
theorem sameMemory_of_padAt {s t : State} (h : ∀ l, t.padAt l = s.padAt l) : SameMemory s t :=
  fun l a => by rw [State.byteAt, h, State.byteAt]

theorem State.padAt_updHost (s : State) (f : Port → Port) (l : Loc) : (s.updHost f).padAt l = s.padAt l := by
  cases l <;> rfl

theorem State.padAt_logFor (s : State) (i k sp : Nat) (a : Word) (p c : Nat) (e : Eng) (l : Loc) :
    (s.logFor i k sp a p c e).padAt l = s.padAt l := by
  cases l <;> rfl

theorem sameMemory_updHost (s : State) (f : Port → Port) : SameMemory s (s.updHost f) :=
  sameMemory_of_padAt (s.padAt_updHost f)

theorem sameMemory_refuseHost (s : State) (x : Refused) (ctx : Nat) : SameMemory s (s.refuseHost x ctx) :=
  sameMemory_of_padAt fun l => s.padAt_logFor (l := l) ..

-- The launch port (R261).

/-- A graph pointer that the launch port takes or answers busy. -/
def State.Launchable (s : State) (ptr : Word) : Prop :=
  s.host.ready = true ∧ ptr.toNat % 128 = 0 ∧ (s.ctxs[s.host.lctx]).isSome = true ∧
    s.addressBad s.host.lctx ptr 128 .load true = false

/-- Every core's graph fetcher is idle. -/
def State.Idle (s : State) : Prop := ∀ c : Fin 128, (s.cores[c]).work.cpState = .idle

theorem State.any_busy_iff (s : State) :
    (s.cores.toList.any fun c => c.work.cpState != .idle) = true ↔ ¬ s.Idle := by
  rw [List.any_eq_true, State.Idle, not_forall]
  constructor
  · rintro ⟨c, hc, hb⟩
    obtain ⟨i, hi, rfl⟩ := List.getElem_of_mem hc
    exact ⟨⟨i, by simpa using hi⟩, by simpa using hb⟩
  · rintro ⟨i, hi⟩
    exact ⟨s.cores[i], by simp, by simpa using hi⟩

theorem State.launchCode_of_not_ready {s : State} (h : s.host.ready = false) (ptr : Word) : s.launchCode ptr = 2 := by
  simp [State.launchCode, h]

theorem State.launchCode_of_ready {s : State} (h : s.host.ready = true) (ptr : Word) (bad : ¬ s.Launchable ptr) :
    s.launchCode ptr = 3 := by
  have refused : (ptr.toNat % 128 ≠ 0 || (s.ctxs[s.host.lctx]).isNone ||
      s.addressBad s.host.lctx ptr 128 .load true) = true := by
    by_contra hn
    simp only [Bool.or_eq_true, decide_eq_true_eq, Option.isNone_iff_eq_none, not_or, not_not, Bool.not_eq_true] at hn
    obtain ⟨⟨hp, hc⟩, ha⟩ := hn
    exact bad ⟨h, hp, Option.isSome_iff_ne_none.mpr hc, ha⟩
  rw [State.launchCode, h, if_neg (by decide), if_pos refused]

theorem State.launchCode_of_launchable {s : State} {ptr : Word} (h : s.Launchable ptr) :
    s.launchCode ptr = if (s.cores.toList.any fun c => c.work.cpState != .idle) then 1 else 0 := by
  obtain ⟨hr, hp, hc, ha⟩ := h
  have hc' : (s.ctxs[s.host.lctx]).isNone = false := by simpa using hc
  rw [State.launchCode, hr, hp, ha, hc']
  rfl

theorem State.launchWrite_of_code {s : State} {ptr : Word} {n : BitVec 2} (h : s.launchCode ptr = n) (hn : n ≠ 0) :
    s.launchWrite ptr = { s with host := { s.host with lstat := n } } := by
  rw [State.launchWrite, h]
  exact if_neg hn

theorem State.launchWrite_of_idle {s : State} {ptr : Word} (h : s.Launchable ptr) (hi : s.Idle) :
    s.launchWrite ptr = s.startLaunch ptr := by
  have hb : (s.cores.toList.any fun c => c.work.cpState != .idle) = false :=
    Bool.eq_false_iff.mpr fun hb => s.any_busy_iff.mp hb hi
  simp [State.launchWrite, State.launchCode_of_launchable h, hb]

theorem State.launchWrite_of_busy {s : State} {ptr : Word} (h : s.Launchable ptr) (hi : ¬ s.Idle) :
    s.launchWrite ptr = { s with host := { s.host with lstat := 1 } } :=
  launchWrite_of_code (by rw [launchCode_of_launchable h, if_pos (s.any_busy_iff.mpr hi)]) (by decide)

theorem State.startLaunch_work (s : State) (ptr : Word) (c : Fin 128) :
    ((s.startLaunch ptr).cores[c]).work = { (s.cores[c]).work with
      cp := ptr, cpOld := s.gmem.mem, cpCtx := s.host.lctx, cpState := .running, cpLaunch := s.host.launches + 1,
      cpIndex := 0 } := by
  simp [State.startLaunch]

theorem sameMemory_startLaunch (s : State) (ptr : Word) : SameMemory s (s.startLaunch ptr) :=
  sameMemory_of_padAt fun l => by cases l <;> rfl

-- BAR0 (R259, R260, R263).

/-- An access of BAR0 that completes with Unsupported Request. -/
def BadForm (off size : Nat) : Prop := (size ≠ 4 ∧ size ≠ 8) ∨ off % size ≠ 0 ∨ 0x100000 ≤ off

theorem badForm_iff (off size : Nat) :
    ((size ≠ 4 && size ≠ 8) || off % size ≠ 0 || 0x100000 ≤ off) = true ↔ BadForm off size := by
  simp [BadForm, or_assoc]

theorem write_of_badForm {off size : Nat} (h : BadForm off size) (v : Word) (s : State) :
    exec (.hostRegisterWrite off size v) s = .next (s.complete false []) :=
  if_pos ((badForm_iff off size).mpr h)

theorem State.bar0Read_of_badForm {off size : Nat} (h : BadForm off size) (s : State) :
    s.bar0Read off size = s.complete false [] :=
  if_pos ((badForm_iff off size).mpr h)

theorem State.bar0Read_of_goodForm {off size : Nat} (h : ¬ BadForm off size) (s : State) :
    s.bar0Read off size = s.updHost fun p => { p with
      completion := some (true, ((leBytes 8 (s.bar0Word (off / 8 * 8)).toNat).drop (off % 8)).take size)
      mbstat := if 0x1100 ≤ off ∧ off ≤ 0x11FF then 0 else p.mbstat } := by
  unfold State.bar0Read
  rw [if_neg (mt (badForm_iff off size).mp h)]
  by_cases hr : 0x1100 ≤ off ∧ off ≤ 0x11FF <;>
    simp [between, hr, State.complete, State.updHost]

theorem vset_fin {α : Type} {n : Nat} (v : Vector α n) (i : Fin n) (x : α) : vset v i.val x = v.set i x := by
  ext j hj
  simp only [vset, Vector.getElem_setIfInBounds, Vector.getElem_set]

/-- A write of a whole register keeps nothing of it. -/
theorem mergeWord_whole (old v : Word) : mergeWord old 0 8 v = v := by
  have h : (leBytes 8 old.toNat).drop (0 + 8) = [] := List.drop_eq_nil_of_le (leBytes_length 8 _).le
  rw [mergeWord, h, List.take_zero, List.nil_append, List.append_nil, leNat_leBytes,
    Nat.mod_eq_of_lt (by have := v.isLt; omega), BitVec.ofNat_toNat, BitVec.setWidth_eq]

theorem outsideStep_bar0Read {s : State} (h : s.host.linked = true) (off size : Nat) :
    outsideStep (.bar0Read off size) s = .next (s.bar0Read off size) :=
  congrArg _ (if_pos h)

/-- A write of a whole word of the request buffer. -/
theorem write_request {off : Nat} (h8 : off % 8 = 0) (hr : 0x1000 ≤ off ∧ off ≤ 0x10FF) (v : Word) (s : State) :
    exec (.hostRegisterWrite off 8 v) s =
      .next (s.updHost fun p => { p with mbreq := vset p.mbreq ((off - 0x1000) / 8) v }) := by
  have hform : ¬ BadForm off 8 := by unfold BadForm; omega
  have ha : off / 8 * 8 = off := by omega
  have hin : between off 0x1000 0x10FF = true := by simpa [between] using hr
  rw [exec_hostRegisterWrite, execHostRegisterWrite, if_neg (mt (badForm_iff _ _).mp hform)]
  dsimp only
  rw [ha, h8, if_neg (by omega), if_neg (by omega), if_pos hin]
  simp only [mergeWord_whole]

theorem write_mbreq (k : Fin 32) (v : Word) (s : State) :
    exec (.hostRegisterWrite (0x1000 + 8 * k.val) 8 v) s =
      .next { s with host := { s.host with mbreq := s.host.mbreq.set k v } } := by
  have hk := k.isLt
  rw [write_request (by omega) (by omega), Nat.add_sub_cancel_left, Nat.mul_div_cancel_left _ (by decide)]
  simp only [State.updHost, vset_fin]

theorem write_doorbell {v : Word} (hv : v.getLsbD 0 = true) (s : State) :
    exec (.hostRegisterWrite 0x1200 8 v) s = .next s.doorbell := by
  simp [exec_hostRegisterWrite, execHostRegisterWrite, between, mergeWord_whole, hv]

theorem State.doorbell_of_idle {s : State} (h : s.host.mbstat = 0) (h1 : 1 ≤ s.host.code) (h15 : s.host.code ≤ 15) :
    s.doorbell = { s with host := { s.host with mbstat := 1 } } := by
  have hc : ({ s.host with mbstat := 1 } : Port).code = s.host.code := rfl
  simp only [State.doorbell, State.updHost, hc, h, ne_eq, not_true_eq_false, if_false]
  rw [if_neg (by simp; omega)]

theorem State.doorbell_of_busy {s : State} (h : s.host.mbstat ≠ 0) : s.doorbell = s := if_pos h

/-- Registers of the mailbox's two buffers. -/
theorem State.bar0Word_mbreq (s : State) (k : Fin 32) : s.bar0Word (0x1000 + 8 * k.val) = s.host.mbreq[k] := by
  have hk := k.isLt
  have hin : between (0x1000 + 8 * k.val) 0x1000 0x10FF = true := by simp [between]; omega
  have hi : (0x1000 + 8 * k.val - 0x1000) / 8 = k.val := by omega
  unfold State.bar0Word
  dsimp only
  rw [if_neg (by omega), if_neg (by omega), if_neg (by omega), if_neg (by omega), if_pos hin, hi, vget_lt _ _ _ hk]
  rfl

theorem State.bar0Word_mbrsp (s : State) (k : Fin 32) : s.bar0Word (0x1100 + 8 * k.val) = s.host.mbrsp[k] := by
  have hk := k.isLt
  have hout : between (0x1100 + 8 * k.val) 0x1000 0x10FF = false := by simp [between]; omega
  have hin : between (0x1100 + 8 * k.val) 0x1100 0x11FF = true := by simp [between]; omega
  have hi : (0x1100 + 8 * k.val - 0x1100) / 8 = k.val := by omega
  unfold State.bar0Word
  dsimp only
  rw [if_neg (by omega), if_neg (by omega), if_neg (by omega), if_neg (by omega), hout, if_neg (by decide), if_pos hin,
    hi, vget_lt _ _ _ hk]
  rfl

theorem State.bar0Word_lstat (s : State) : s.bar0Word 0x110 = BitVec.ofNat 64 s.host.lstat.toNat :=
  (BitVec.ofNat_toNat 64 s.host.lstat).symm

theorem State.bar0Word_mbstat (s : State) : s.bar0Word 0x1208 = BitVec.ofNat 64 s.host.mbstat.toNat :=
  (BitVec.ofNat_toNat 64 s.host.mbstat).symm

theorem State.bar0Word_hstat (s : State) : s.bar0Word 8 = BitVec.ofNat 64
    ((if s.host.ready then 1 else 0) + (if s.host.recovery then 2 else 0) + (if s.host.failed then 4 else 0) +
      256 * s.host.step.toNat) := by
  have weigh (b : Bool) (n : Nat) : (if b then n else 0) = b.toNat * n := by cases b <;> simp
  have hstat : s.bar0Word 8 = s.host.hstat := rfl
  rw [hstat, Port.hstat, weigh, weigh, weigh]
  congr 1
  omega

-- BAR2 (R258, R262).

theorem State.bar2Target_of_falls {s : State} {off : Nat} (h : s.host.target off = none ∨ 2 ^ s.host.bar2 ≤ off) :
    s.bar2Target off = .error none := by
  unfold State.bar2Target
  rcases h with h | h
  · simp [h]
  · rw [if_neg (by omega)]

theorem State.bar2Target_of_through {s : State} {off : Nat} {ctx : Fin 64} {a : Word}
    (h : s.host.target off = some (ctx, some a) ∧ off < 2 ^ s.host.bar2) : s.bar2Target off = .ok (ctx, a) := by
  simp [State.bar2Target, h.1, h.2]

/-- The state differs from an earlier one in what the failure of a host access leaves: an entry in the log, and the
completion. -/
def HostFails (s t : State) : Prop :=
  SameMemory s t ∧ t.cores = s.cores ∧ t.host.completion = some (false, []) ∧ t.log.length = s.log.length + 1

theorem State.refuseHost_log_length (s : State) (x : Refused) (ctx : Nat) :
    (s.refuseHost x ctx).log.length = s.log.length + 1 := by
  simp [State.refuseHost, State.logFor]

theorem hostFails_refuseHost (s : State) (x : Refused) (ctx : Nat) :
    HostFails s ((s.refuseHost x ctx).complete false []) :=
  ⟨fun l a => (sameMemory_updHost _ _ l a).trans (sameMemory_refuseHost s x ctx l a), rfl, rfl,
    s.refuseHost_log_length x ctx⟩

theorem mapM_length {A B : Type} {f : A → Option B} {l : List A} {m : List B} (h : l.mapM f = some m) :
    m.length = l.length := by
  induction l generalizing m with
  | nil => simp_all
  | cons a l ih =>
    simp only [List.mapM_cons, Option.bind_eq_bind, Option.bind_eq_some_iff, Option.pure_def, Option.some.injEq] at h
    obtain ⟨b, -, bs, hbs, rfl⟩ := h
    simp [ih hbs]

theorem Xlat.places_length {x : Xlat} {off n : Nat} {as : List Nat} (h : x.places off n = some as) : as.length = n := by
  simpa using mapM_length h

theorem State.portPlaces_of_places {s : State} {ctx : Fin 64} {k : GKind} {a : Word} {n : Nat} {x : Xlat}
    {as : List Nat} (ht : s.translate ctx k a [(a.toNat % 2 ^ 48, n)] = .ok x)
    (hp : x.places (a.toNat % 2 ^ 48) n = some as) :
    s.portPlaces ctx k a n = .ok as := by
  simp only [State.portPlaces, ht, hp]

/-- Bytes performed at distinct places of global memory are read back, and no other byte changes. -/
theorem perform_bytes (s : State) {as : List Nat} {bs : List Byte} (hn : as.Nodup) (hl : as.length = bs.length) :
    as.map ((s.perform .g (as.zip bs)).byteAt .g) = bs ∧
      ∀ l i, ¬ (l = .g ∧ i ∈ as) → (s.perform .g (as.zip bs)).byteAt l i = s.byteAt l i := by
  refine ⟨s.map_byteAt_perform .g as bs rfl hn hl, fun l i h => s.byteAt_perform_other _ _ _ _ ?_⟩
  by_cases hl : l = .g
  · exact .inr fun c hc e => h ⟨hl, e ▸ (List.of_mem_zip (show (c.1, c.2) ∈ as.zip bs from hc)).1⟩
  · exact .inl hl

theorem State.addCounter_of_clean {s : State} {ctx : Fin 64} {k : GKind} {a delta : Word} {as : List Nat}
    (hp : s.portPlaces ctx k a 8 = .ok as) (hg : s.gmem.bad = [])
    (hw : leNat (as.map (s.byteAt .g)) + delta.toNat < 2 ^ 64) :
    s.addCounter ctx k a delta = .ok (leNat (as.map (s.byteAt .g)),
      s.perform .g (as.zip (leBytes 8 (leNat (as.map (s.byteAt .g)) + delta.toNat)))) := by
  simp only [State.addCounter, hp, s.firstBad_of_clean .g as hg, Nat.mod_eq_of_lt hw]
  rw [if_neg (by omega)]
  rfl

section
variable {s : State} {off : Nat} {ctx : Fin 64} {a : Word}

theorem bar2Read_of_falls (h : s.host.target off = none ∨ 2 ^ s.host.bar2 ≤ off) (n : Nat) :
    exec (.hostBar2Read off n) s = .next (s.complete false []) := by
  simp only [exec_hostBar2Read, execHostBar2Read, State.bar2Target_of_falls h]

theorem fetchadd_of_falls (h : s.host.target off = none ∨ 2 ^ s.host.bar2 ≤ off) (v : Word) :
    exec (.hostFetchadd off v) s = .next (s.complete false []) := by
  simp only [exec_hostFetchadd, execHostFetchadd, State.bar2Target_of_falls h]

theorem bar2Write_of_falls (h : s.host.target off = none ∨ 2 ^ s.host.bar2 ≤ off) (bytes : List Byte) :
    exec (.hostBar2Write off bytes) s = .next (s.refuseHost ⟨4, BitVec.ofNat 64 off, 0⟩ 0) := by
  simp only [exec_hostBar2Write, execHostBar2Write, State.bar2Target_of_falls h, Option.getD_none]

variable (h : s.host.target off = some (ctx, some a) ∧ off < 2 ^ s.host.bar2)
include h

theorem bar2Read_of_ok {n : Nat} {bs : List Byte} (hr : s.readPort ctx true a n = .ok bs) :
    exec (.hostBar2Read off n) s = .next (s.complete true bs) := by
  simp only [exec_hostBar2Read, execHostBar2Read, State.bar2Target_of_through h, hr]

theorem bar2Read_of_error {n : Nat} {e : Refused} (hr : s.readPort ctx true a n = .error e) :
    exec (.hostBar2Read off n) s = .next ((s.refuseHost e ctx).complete false []) := by
  simp only [exec_hostBar2Read, execHostBar2Read, State.bar2Target_of_through h, hr]

theorem bar2Write_of_ok {bytes : List Byte} {as : List Nat}
    (hp : s.portPlaces ctx .extWrite a bytes.length = .ok as) (hg : s.gmem.bad = []) :
    exec (.hostBar2Write off bytes) s = .next (s.perform .g (as.zip bytes)) := by
  simp only [exec_hostBar2Write, execHostBar2Write, State.bar2Target_of_through h, hp, State.refusedAt,
    s.firstBad_of_clean .g _ hg]

theorem bar2Write_of_error {bytes : List Byte} {e : Refused}
    (hp : s.portPlaces ctx .extWrite a bytes.length = .error e) :
    exec (.hostBar2Write off bytes) s = .next (s.refuseHost e ctx) := by
  simp only [exec_hostBar2Write, execHostBar2Write, State.bar2Target_of_through h, hp]

theorem fetchadd_of_ok {v : Word} {old : Nat} {t : State} (ha : a.toNat % 8 = 0)
    (hp : s.addCounter ctx .extPost a v = .ok (old, t)) :
    exec (.hostFetchadd off v) s = .next (t.complete true (leBytes 8 old)) := by
  simp only [exec_hostFetchadd, execHostFetchadd, State.bar2Target_of_through h, hp, ha, ne_eq, not_true_eq_false,
    if_false]

/-- A FetchAdd that is not aligned, or whose counter the port refuses, is logged and fails. -/
theorem fetchadd_of_refused {e : Refused} (hp : a.toNat % 8 ≠ 0 ∨ s.portPlaces ctx .extPost a 8 = .error e)
    (v : Word) : ∃ x, exec (.hostFetchadd off v) s = .next ((s.refuseHost x ctx).complete false []) := by
  by_cases ha : a.toNat % 8 = 0
  · have hc : s.addCounter ctx .extPost a v = .error e := by
      simp only [State.addCounter, hp.resolve_left (not_not.mpr ha)]
    exact ⟨e, by simp only [exec_hostFetchadd, execHostFetchadd, State.bar2Target_of_through h, ha, hc, ne_eq,
      not_true_eq_false, if_false]⟩
  · exact ⟨_, by simp only [exec_hostFetchadd, execHostFetchadd, State.bar2Target_of_through h]; exact if_pos ha⟩

end

-- Bring-up (R25, R257, R260).

/-- What every bring-up leaves, whether or not it completes: cores and time as at reset, fuses, identity and keys as
they were, the size of BAR2, and memory of zeros. -/
def ResetLeaves (s : State) (bar2 : Nat) (t : State) : Prop :=
  t.cores = State.reset.cores ∧ t.time = 0 ∧ t.host.life = s.host.life ∧ t.host.identity = s.host.identity ∧
    t.host.keys = s.host.keys ∧ t.host.bar2 = bar2 ∧ ∀ l a, t.byteAt l a = 0

/-- The package as a reset leaves it before its first step. -/
def State.atReset (s : State) (links : Trained) : State :=
  { State.reset with
    host := { Port.reset with life := s.host.life, identity := s.host.identity, keys := s.host.keys
                              bar2 := 20 + links.bar2.val }
    turns := s.turns, cur := s.cur, steps := s.steps, fresh := s.fresh }

/-- The same after step 2, which opens the debug features (R257). -/
def State.afterSignature (s : State) (links : Trained) : State :=
  (s.atReset links).updHost fun p => { p with features := openAtReset s.host.life }

theorem State.byteAt_reset (l : Loc) (a : Nat) : State.reset.byteAt l a = 0 := by
  have h : State.reset.padAt l = { mem := [], bad := [] } := by
    cases l with
    | u c => exact vget_replicate ..
    | k c => exact vget_replicate ..
    | d c => exact vget_replicate ..
    | g => rfl
  rw [State.byteAt, h]
  rfl

theorem resetLeaves_atReset (s : State) (links : Trained) : ResetLeaves s (20 + links.bar2.val) (s.atReset links) :=
  ⟨rfl, rfl, rfl, rfl, rfl, rfl, fun l a => by
    rw [← State.byteAt_reset l a]; exact sameMemory_of_padAt (fun l => by cases l <;> rfl) l a⟩

/-- Logging changes the log and MSI-X alone. -/
def OnlyLogs (s t : State) : Prop := ∃ l m, t = { s with log := l, host := { s.host with msix := m } }

theorem onlyLogs_refl (s : State) : OnlyLogs s s := ⟨s.log, s.host.msix, rfl⟩

theorem OnlyLogs.logEvent {s t : State} (h : OnlyLogs s t) (k sp : Nat) (a : Word) (p c : Nat) (e : Eng) :
    OnlyLogs s (t.logEvent k sp a p c e) := by
  obtain ⟨l, m, rfl⟩ := h
  exact ⟨_, _, rfl⟩

/-- So does the logging of the links that did not train. -/
theorem onlyLogs_logLinks (s : State) (pcie : Bool) (links : BitVec 16) : OnlyLogs s (s.logLinks pcie links) := by
  have first : OnlyLogs s (if pcie then s else s.logEvent 8 0 16 0 0 .le) := by
    split
    · exact onlyLogs_refl s
    · exact (onlyLogs_refl s).logEvent ..
  unfold State.logLinks
  dsimp only
  generalize (if pcie then s else s.logEvent 8 0 16 0 0 .le) = t at first
  generalize List.range 16 = l
  induction l generalizing t with
  | nil => exact first
  | cons i l ih =>
    refine ih _ ?_
    dsimp only
    split
    · exact first
    · exact first.logEvent ..

/-- The package at the end of a bring-up whose every step has completed. -/
def State.broughtUp (s : State) (links : Trained) (melt : BitVec 16) : State :=
  let t := (s.afterSignature links).logLinks links.pcie links.links
  ({ t with
    links := { t.links with up := links.links }
    power := { t.power with frac := melt }
    host := { t.host with linked := links.pcie, step := 7, ready := true } } : State).signal 3

theorem reset_completes (links : Trained) (melt : BitVec 16) (s : State) :
    exec (.deviceReset true none none links melt) s = .next (s.broughtUp links melt) := rfl

theorem reset_unsigned (stack bank : Option Nat) (links : Trained) (melt : BitVec 16) (s : State) :
    exec (.deviceReset false stack bank links melt) s =
      .next (((s.atReset links).bringUpStopped 0 true).reportStep 1 0) := rfl

theorem reset_stack (x : Nat) (bank : Option Nat) (links : Trained) (melt : BitVec 16) (s : State) :
    exec (.deviceReset true (some x) bank links melt) s =
      .next ((((s.afterSignature links).logStep 3 x).bringUpStopped 2 false).reportStep 3 x) := rfl

theorem reset_bank (x : Nat) (links : Trained) (melt : BitVec 16) (s : State) :
    exec (.deviceReset true none (some x) links melt) s =
      .next (((s.afterSignature links).logStep 4 x).bringUpStopped 3 false) := rfl

theorem broughtUp_eq (s : State) (links : Trained) (melt : BitVec 16) :
    ∃ l m, s.broughtUp links melt =
      { s.atReset links with
        log := l
        links := { Links.reset with up := links.links }
        power := { Power.reset with frac := melt }
        host := { (s.atReset links).host with
          msix := m, features := openAtReset s.host.life, linked := links.pcie, step := 7, ready := true } } := by
  obtain ⟨l, m, h⟩ := onlyLogs_logLinks (s.afterSignature links) links.pcie links.links
  rw [State.broughtUp, h]
  exact ⟨l, _, rfl⟩

theorem openAtReset_eq (l : LifeCycle) : openAtReset l = if l = .blank then 15 else 0 := by cases l <;> rfl

-- The statement.

/-- Settles O54: the lemmas above, one for each kind of access and each way it goes, and for a bring-up one for each way it
ends. -/
theorem hostPortAccesses : Obligations.HostPortAccesses := by
  unfold Obligations.HostPortAccesses
  intro ptr v off size k bytes ctx a e x as stack bank links melt s code idle good answer fails badForm falls through
    reg
  refine ⟨rfl, ?launched, ?busy, ?notReady, ?refused, fun h => write_of_badForm h v s, ?badRead, write_mbreq k v s,
    ?doorbell, ?doorbellBusy, ⟨_, rfl, rfl, sameMemory_updHost _ _, rfl, rfl⟩, ?read, ?registers,
    ?atomic, ?unlinked, fun h => ⟨bar2Read_of_falls h size, fetchadd_of_falls h v⟩, fun bs h hr => bar2Read_of_ok h hr,
    fun h hr => ⟨_, bar2Read_of_error h hr, hostFails_refuseHost s e ctx⟩, ?write, ?writeFails, ?fetchadd,
    ?fetchaddFails, ?bringUp⟩
  case launched =>
    intro h hi
    exact ⟨s.startLaunch ptr, congrArg _ (State.launchWrite_of_idle h hi), rfl, sameMemory_startLaunch s ptr,
      s.startLaunch_work ptr⟩
  case busy => exact fun h hi => congrArg _ (State.launchWrite_of_busy h hi)
  case notReady =>
    exact fun h => congrArg _ (State.launchWrite_of_code (State.launchCode_of_not_ready h ptr) (by decide))
  case refused =>
    exact fun h hb => congrArg _ (State.launchWrite_of_code (State.launchCode_of_ready h ptr hb) (by decide))
  case badRead =>
    exact fun h hl => (outsideStep_bar0Read hl off size).trans (congrArg _ (State.bar0Read_of_badForm h s))
  case doorbell => exact fun hv h h1 h15 => by rw [write_doorbell hv, State.doorbell_of_idle h h1 h15]
  case doorbellBusy => exact fun hv h => by rw [write_doorbell hv, State.doorbell_of_busy h]
  case read =>
    intro hf hl
    exact ⟨_, (outsideStep_bar0Read hl off size).trans (congrArg _ (State.bar0Read_of_goodForm hf s)), rfl,
      sameMemory_updHost _ _, rfl, rfl⟩
  case registers =>
    exact ⟨rfl, rfl, rfl, s.bar0Word_lstat, s.bar0Word_mbreq k, s.bar0Word_mbrsp k, rfl,
      s.bar0Word_mbstat, s.bar0Word_hstat⟩
  case atomic => exact fun hl => congrArg _ (if_pos hl)
  case unlinked =>
    intro hl
    exact ⟨congrArg _ (if_neg (by simp [hl])), congrArg _ (if_neg (by simp [hl])),
      eventStep_of_unlinked rfl hl, eventStep_of_unlinked rfl hl, eventStep_of_unlinked rfl hl,
      eventStep_of_unlinked rfl hl, eventStep_of_unlinked rfl hl, eventStep_of_unlinked rfl hl⟩
  case write =>
    intro h ht hp hn hg
    obtain ⟨written, others⟩ := perform_bytes s hn (Xlat.places_length hp)
    exact ⟨_, bar2Write_of_ok h (State.portPlaces_of_places ht hp) hg, by simp, written, others⟩
  case writeFails =>
    rintro (h | ⟨h, hp⟩)
    · exact ⟨_, bar2Write_of_falls h bytes, sameMemory_refuseHost s _ _, rfl, s.refuseHost_log_length ..⟩
    · exact ⟨_, bar2Write_of_error h hp, sameMemory_refuseHost s _ _, rfl, s.refuseHost_log_length ..⟩
  case fetchadd =>
    intro h ha ht hp hn hg hw
    obtain ⟨written, others⟩ := perform_bytes s hn ((Xlat.places_length hp).trans (leBytes_length 8 _).symm)
    have hadd := State.addCounter_of_clean (State.portPlaces_of_places ht hp) hg hw
    exact ⟨_, fetchadd_of_ok h ha hadd, rfl, written, others⟩
  case fetchaddFails =>
    intro h hp
    obtain ⟨r, hr⟩ := fetchadd_of_refused h hp v
    exact ⟨_, hr, hostFails_refuseHost s r ctx⟩
  case bringUp =>
    refine ⟨?_, ⟨_, reset_unsigned .., resetLeaves_atReset s links, rfl, rfl, rfl⟩, fun h => ?_, fun h => ?_⟩
    · obtain ⟨l, m, h⟩ := broughtUp_eq s links melt
      exact ⟨_, reset_completes .., h ▸ resetLeaves_atReset s links, h ▸ rfl, h ▸ rfl, h ▸ rfl, h ▸ rfl, h ▸ rfl,
        h ▸ rfl, h ▸ openAtReset_eq _⟩
    · obtain ⟨x, rfl⟩ := Option.isSome_iff_exists.mp h
      exact ⟨_, reset_stack .., resetLeaves_atReset s links, rfl, rfl, rfl⟩
    · obtain ⟨x, rfl⟩ := Option.isSome_iff_exists.mp h
      exact ⟨_, reset_bank .., resetLeaves_atReset s links, rfl, rfl, rfl⟩

end Sys2Proof.Machine
end

section
/-! SUPPORT. What PSET, FORK, JOIN and CLKDIV do in each case; and the statement about them, O6. -/
namespace Sys2Proof.Machine

-- Engines by number.

theorem Eng.num_lt (e : Eng) : e.num < 6 := by cases e <;> decide

theorem Eng.num_inj {e e' : Eng} : e.num = e'.num ↔ e = e' := by cases e <;> cases e' <;> decide

/-- What is kept for each engine, after the part of one engine is set. -/
theorem vget_vset_eng {α : Type} (v : Vector α 6) (e e' : Eng) (x d : α) :
    vget (vset v e.num x) e'.num d = if e' = e then x else vget v e'.num d := by
  simp only [vget_vset, Eng.num_inj, Eng.num_lt e, and_true]

theorem vget_vset_param (v : Vector (Vector Word 16) 6) (e e' : Eng) (p p' : Fin 16) (x : Word) :
    (vget (vset v e.num ((vget v e.num (Vector.replicate 16 0)).set p x)) e'.num (Vector.replicate 16 0))[p'] =
      if e' = e ∧ p' = p then x else (vget v e'.num (Vector.replicate 16 0))[p'] := by
  rw [vget_vset_eng]
  by_cases he : e' = e
  · subst he
    by_cases hp : p' = p
    · simp [hp]
    · simp [hp, Fin.val_ne_of_ne (Ne.symm hp)]
  · simp [he]

-- Lanes that complete, wait or trap.

/-- Outside exposed regions a lane that waits changes nothing. -/
theorem State.stallLane_of_not_exposed {s : State} (h : s.core.exposed = false) : s.stallLane = s := by
  simp [State.stallLane, h]

theorem scoreboardOnly_of_not_exposed {s : State} (h : s.core.exposed = false) (r : Res) : scoreboardOnly s r = r := by
  simp [scoreboardOnly, h]

theorem scoreboardOnly_of_exposed {s : State} (h : s.core.exposed = true) (r : Res) :
    scoreboardOnly s r = .trap 0x01 (illegalInfo 0x17) s := by
  simp [scoreboardOnly, h]

/-- An exposed lane of an instruction for scoreboard mode alone (R81). -/
theorem trapsHere_of_exposed {i : Instr} {s : State} {r : Res} (h : s.core.exposed = true) (ht : CanTrap s)
    (hi : exec i s = finish (scoreboardOnly s r)) : TrapsHere i s 0x01 (s.laneInfo 0x1700) :=
  trapsHere_of ht (by decide) (by rw [hi, scoreboardOnly_of_exposed h]; rfl)

-- PSET, FORK, JOIN and CLKDIV (R48, R88, R305, R319, R341).

theorem exec_pset (e : Eng) (p : Fin 16) (a : Opnd) (s : State) : exec (.pset e p a) s = execPset e p a s := rfl
theorem exec_fork (mask : BitVec 6) (s : State) : exec (.fork mask) s = execFork mask s := rfl
theorem exec_join (mask : BitVec 6) (s : State) : exec (.join mask) s = execJoin mask s := rfl
theorem exec_clkdiv (e : Eng) (v : Divisor) (s : State) : exec (.clkdiv e v) s = execClkdiv e v s := rfl

theorem execFork_eq (mask : BitVec 6) (s : State) : execFork mask s = .next (s.updEng fun g =>
    { g with active := if s.core.trap.inh then g.active else g.active ||| mask }).advance := by
  by_cases h : s.core.trap.inh = true
  · simp [execFork, h, State.updEng, State.upd_id]
  · simp [execFork, h]

/-- The engines of a mask become inactive. -/
def State.inactivate (s : State) (mask : BitVec 6) : State :=
  s.updEng fun g => { g with active := g.active &&& ~~~mask }

theorem execJoin_of_joined {s : State} {mask : BitVec 6} (he : s.core.exposed = false) (hi : s.core.trap.inh = false)
    (hj : s.core.joined mask = true) : execJoin mask s =
      .next ((if mask.getLsbD 2 then s.performWhere fun p => p.ve else s).inactivate mask).advance := by
  simp only [execJoin, scoreboardOnly_of_not_exposed he, hi, hj]; rfl

theorem execJoin_of_not_joined {s : State} {mask : BitVec 6} (he : s.core.exposed = false)
    (hi : s.core.trap.inh = false) (hj : s.core.joined mask = false) : execJoin mask s = .next s := by
  simp [execJoin, scoreboardOnly_of_not_exposed he, hi, hj, State.stallLane_of_not_exposed he]

theorem execJoin_of_handler {s : State} {mask : BitVec 6} (he : s.core.exposed = false) (hi : s.core.trap.inh = true) :
    execJoin mask s = .next s.advance := by
  simp [execJoin, scoreboardOnly_of_not_exposed he, hi]

theorem execClkdiv_of_sup {s : State} {e : Eng} {v : Divisor} (hs : s.core.regs.sup = true)
    (hd : s.core.deterministic = false) : execClkdiv e v s = .next (s.updEng fun g =>
      { g with div := if s.leased s.cluster = false ∧ v ≠ .d3 then vset g.div e.num v else g.div }).advance := by
  by_cases h : s.leased s.cluster = false ∧ v ≠ .d3
  · simp [execClkdiv, privileged, hs, hd, h]
  · have h' : (s.leased s.cluster || decide (v = .d3)) = true := by
      by_contra hn; exact h (by simpa using hn)
    simp only [execClkdiv, privileged, hs, hd, h', if_neg h]
    simp [State.updEng, State.upd_id]

/-- An update of the engines, and on to the next lane. -/
theorem onlyCore_updEng_advance (s : State) (f : Engines → Engines) : OnlyCore s (s.updEng f).advance :=
  (onlyCore_updEng s f).trans (onlyCore_advance _)

theorem State.updEng_advance_core (s : State) (f : Engines → Engines) : (s.updEng f).advance.core =
    { s.core with
      eng := f s.core.eng
      fetch := { s.core.fetch with lane := s.core.fetch.lane + 1, stalled := false, waited := false, moved := 0 } } := by
  simp

theorem State.byteAt_upd (s : State) (f : Core → Core) (l : Loc) (a : Nat) : (s.upd f).byteAt l a = s.byteAt l a := by
  cases l <;> rfl

/-- JOIN of the VE: its stores are performed. -/
theorem join_ve (s : State) (mask : BitVec 6) :
    let t := ((s.performWhere fun p => p.ve).inactivate mask).advance
    HasPerformed s t (fun q => q.ve) ∧ t.cur = s.cur ∧ (∀ j : Fin 128, j ≠ s.cur → t.cores[j] = s.cores[j]) := by
  intro t
  refine ⟨⟨?_, fun l a => ?_⟩, ?_, fun j hj => ?_⟩
  · simp [t, State.inactivate, State.performWhere_core]
  · exact (State.byteAt_upd _ _ l a).trans (State.byteAt_upd _ _ l a)
  · simp [t, State.inactivate, State.performWhere_cur]
  · have hc := s.performWhere_cur fun p => p.ve
    calc t.cores[j] = ((s.performWhere fun p => p.ve).inactivate mask).cores[j] :=
          State.other_core _ _ _ (by simpa [State.inactivate, hc] using hj)
      _ = (s.performWhere fun p => p.ve).cores[j] := State.other_core _ _ _ (by rw [hc]; exact hj)
      _ = s.cores[j] := s.performWhere_other _ _ hj

/-- Settles O6: one equation for each of the four instructions and each way that JOIN goes. -/
theorem enginesActivateAndJoin : Obligations.EnginesActivateAndJoin := by
  unfold Obligations.EnginesActivateAndJoin
  intro e e' p p' a mask v s par div
  refine ⟨⟨_, exec_pset e p a s, onlyCore_updEng_advance s _, by simp [NextLane], by simp [SameRegs], ?_, by simp⟩,
    ⟨_, (exec_fork mask s).trans (execFork_eq mask s), onlyCore_updEng_advance s _, by simp [NextLane], by simp, by simp⟩,
    fun he hi hj hv => ⟨_, (exec_join mask s).trans (execJoin_of_joined he hi hj), ?_⟩,
    fun he hi hj hv => ⟨_, (exec_join mask s).trans (execJoin_of_joined he hi hj), ?_⟩,
    fun he hi hj => (exec_join mask s).trans (execJoin_of_not_joined he hi hj),
    fun he hi => ⟨_, (exec_join mask s).trans (execJoin_of_handler he hi), onlyCore_advance s, by simp [NextLane], by simp⟩,
    fun he ht => trapsHere_of_exposed he ht (exec_join mask s),
    fun hs hd => ⟨_, (exec_clkdiv e v s).trans (execClkdiv_of_sup hs hd), onlyCore_updEng_advance s _, by simp [NextLane],
      by simp [SameRegs], ?_, by simp⟩,
    fun hs hd ht => trapsHere_of ht (by decide) ?_⟩
  · simp only [par, State.updEng_advance_core]
    exact vget_vset_param ..
  · rw [if_neg (Bool.eq_false_iff.mp hv)]
    exact ⟨onlyCore_updEng_advance s _, by simp [NextLane, State.inactivate], by simp [State.inactivate],
      by simp [State.inactivate]⟩
  · rw [if_pos hv]
    obtain ⟨performed, cur, others⟩ := join_ve s mask
    exact ⟨by simp [NextLane, State.inactivate, State.performWhere_core], performed, cur,
      by simp [State.inactivate, State.performWhere_core], others, by simp [State.inactivate, State.performWhere_core]⟩
  · simp only [div, State.updEng_advance_core]
    by_cases h : s.leased s.cluster = false ∧ v ≠ .d3
    · rw [if_pos h, vget_vset_eng]
      simp only [and_iff_left h]
    · rw [if_neg h, if_neg fun k => h k.2]
  · rw [exec_clkdiv, execClkdiv, privileged, if_pos hs, if_pos hd]

end Sys2Proof.Machine
end

section
/-! SUPPORT. The stores that a read performs, the words of a block, and what QPUSH does in each case; and the statement
about it, O16. -/
namespace Sys2Proof.Machine

-- Cores by number.

theorem State.coreAt_updAt (s : State) (i x : Nat) (f : Core → Core) :
    (s.updAt i f).coreAt x = if x = i ∧ i < 128 then f (s.coreAt i) else s.coreAt x := vget_vset ..

theorem State.coreAt_upd (s : State) (f : Core → Core) (x : Nat) :
    (s.upd f).coreAt x = if x = s.cur.val then f s.core else s.coreAt x := by
  rw [← State.updAt_acting, State.coreAt_updAt, s.coreAt_cur]
  simp only [and_iff_left s.cur.isLt]

theorem State.coreAt_of_ne {s t : State} {x : Nat} (h : ∀ j : Fin 128, j ≠ s.cur → t.cores[j] = s.cores[j])
    (hx : x ≠ s.cur.val) : t.coreAt x = s.coreAt x := by
  unfold State.coreAt
  by_cases hl : x < 128
  · rw [vget_lt _ _ _ hl, vget_lt _ _ _ hl]
    exact h ⟨x, hl⟩ fun e => hx (congrArg Fin.val e)
  · simp [vget, hl]

theorem State.core_of_coreAt {s t : State} (hc : t.cur = s.cur) : t.core = t.coreAt s.cur.val := by
  rw [← hc, t.coreAt_cur]

-- The stores that are performed before a read.

theorem mem_withEarlier {test : Pending → Bool} {p : Pending} {l : List Pending} (hp : p ∈ l) (ht : test p = true) :
    p ∈ withEarlier test l := by
  induction l with
  | nil => cases hp
  | cons x l ih =>
    simp only [withEarlier]
    rcases List.mem_cons.mp hp with rfl | hp
    · simp [ht]
    · split
      · exact List.mem_cons_of_mem _ (ih hp)
      · exact ih hp

theorem Core.upTo_of_test {c : Core} {test : Pending → Bool} {p : Pending} (hp : p ∈ c.pend) (ht : test p = true) :
    c.upTo test p = true := List.contains_iff_mem.mpr (mem_withEarlier hp ht)

/-- A read performs the stores of its test, and perhaps others. -/
theorem State.settleRead_eq (s : State) (test : Pending → Bool) (loc : Loc) (as : List Nat) :
    ∃ which, s.settleRead test loc as = s.performWhere which ∧ ∀ p ∈ s.core.pend, test p = true → which p = true :=
  ⟨_, rfl, fun _ hp ht => Core.upTo_of_test hp (by simp [ht])⟩

theorem State.performWhere_coreAt_work (s : State) (which : Pending → Bool) (x : Nat) :
    ((s.performWhere which).coreAt x).work = (s.coreAt x).work := by
  by_cases hx : x = s.cur.val
  · subst hx
    rw [← State.core_of_coreAt (s.performWhere_cur which), s.performWhere_core, s.coreAt_cur]
  · rw [State.coreAt_of_ne (s.performWhere_other which) hx]

@[simp] theorem State.performWhere_pushes (s : State) (which : Pending → Bool) :
    (s.performWhere which).pushes = s.pushes := by
  rw [State.performWhere_eq]; exact foldl_performOne_keeps State.pushes (by simp) _ _

theorem settledBut_performWhere (s : State) (which : Pending → Bool) : SettledBut s (s.performWhere which) .g [] :=
  fun l a _ => s.performWhere_byteAt which l a

-- The words of a block (R29).

theorem imgOf_get (bs : List Byte) (j : Fin 16) :
    (imgOf bs)[j] = BitVec.ofNat 64 (leNat ((bs.drop (8 * j.val)).take 8)) := vgen_get _ _ _ j.isLt

theorem Node.word_lt (n : Node) (j : Fin 16) : n.word j.val = n.img[j] := vget_lt _ _ _ j.isLt

theorem take_drop_map_range {α : Type} (f : Nat → α) {w n : Nat} (h : w + 8 ≤ n) :
    (((List.range n).map f).drop w).take 8 = (List.range 8).map fun k => f (w + k) := by
  apply List.ext_getElem
  · simp; omega
  · intro i h1 h2
    simp

-- QPUSH (R47, R343).

theorem exec_qpush (q : BitVec 2) (core addr : Opnd) (s : State) :
    exec (.qpush q core addr) s = execQpush q core addr s := rfl

/-- Queue q of core x. -/
def State.queueOf (s : State) (x q : Nat) : List Node := ((s.coreAt x).cmdq q).nodes

theorem State.queueOf_performWhere (s : State) (which : Pending → Bool) (x q : Nat) :
    (s.performWhere which).queueOf x q = s.queueOf x q := by
  rw [State.queueOf, Core.cmdq, State.performWhere_coreAt_work]; rfl

theorem State.queueOf_upd (s : State) {f : Core → Core} (hf : (f s.core).work = s.core.work) (x q : Nat) :
    (s.upd f).queueOf x q = s.queueOf x q := by
  rw [State.queueOf, State.coreAt_upd]
  split
  · rename_i h
    rw [Core.cmdq, hf, ← s.coreAt_cur, h]; rfl
  · rfl

theorem State.queueOf_stallLane (s : State) (x q : Nat) : s.stallLane.queueOf x q = s.queueOf x q := by
  by_cases hx : x = s.cur.val
  · subst hx
    rw [State.queueOf, ← State.core_of_coreAt s.stallLane_cur, s.stallLane_core, State.queueOf, s.coreAt_cur]; rfl
  · rw [State.queueOf, State.coreAt_of_ne s.stallLane_other hx]; rfl

/-- A node joins one queue of one core. -/
theorem State.queueOf_enqueue (s : State) {c q : Nat} (n : Node) (hc : c < 128) (hq : q < 4) (x : Nat) :
    (s.enqueue c q n).queueOf x q = if x = c then s.queueOf c q ++ [n] else s.queueOf x q := by
  rw [State.queueOf, State.enqueue, State.coreAt_updAt]
  by_cases hx : x = c
  · rw [if_pos ⟨hx, hc⟩, if_pos hx, Core.cmdq, vget_vset, if_pos ⟨rfl, hq⟩]; rfl
  · rw [if_neg fun h => hx h.1, if_neg hx]; rfl

/-- Nothing of the acting core but its queues changes by a push. -/
theorem State.enqueue_core (s : State) (c q : Nat) (n : Node) :
    (s.enqueue c q n).core = { s.core with work := (s.enqueue c q n).core.work } := by
  have h : (s.enqueue c q n).core = (s.enqueue c q n).coreAt s.cur.val := State.core_of_coreAt rfl
  rw [h, State.enqueue, State.coreAt_updAt]
  split
  · rename_i hc
    rw [← hc.1, s.coreAt_cur]
  · rw [s.coreAt_cur]

/-- A block that lies in the pad, pushed by a lane in scoreboard mode to a core that exists. -/
theorem execQpush_of_sound {q : BitVec 2} {core addr : Opnd} {s : State} (he : s.core.exposed = false)
    (hc : (s.operand core).toNat < 128) (ha : (s.operand addr).toNat % 128 = 0)
    (hb : (s.operand addr).toNat + 128 ≤ 0x300000) :
    let bytes := (List.range 128).map ((s.operand addr).toNat + ·)
    let s' := s.settleRead (fun p => p.space == .u) (.u s.cur) bytes
    execQpush q core addr s = finish (if s.core.veOwes fun _ sp => sp == .u then .stall s
      else match s.threadBad (.u s.cur) bytes with
      | some _ => .trap 0x0D (infoLocal (s.operand addr)) s
      | none => if 16 ≤ (s'.queueOf (s.operand core).toNat q.toNat).length then .stall s'
        else .done (s'.enqueuePushed (s.operand core).toNat q.toNat (imgOf (bytes.map (s.threadByte (.u s.cur))))
          s'.core.ctx)) := by
  simp only [execQpush, scoreboardOnly_of_not_exposed he, if_neg (Nat.not_lt.mpr (Nat.le_of_lt_succ hc)), ha, ne_eq,
    not_true_eq_false, if_false, State.localAddr, if_pos hb]
  rfl

theorem qpush_of_room {q : BitVec 2} {core addr : Opnd} {s : State} (he : s.core.exposed = false)
    (hc : (s.operand core).toNat < 128) (ha : (s.operand addr).toNat % 128 = 0)
    (hb : (s.operand addr).toNat + 128 ≤ 0x300000) (ho : (s.core.veOwes fun _ sp => sp == .u) = false)
    (hg : s.threadBad (.u s.cur) ((List.range 128).map ((s.operand addr).toNat + ·)) = none)
    (hr : (s.queueOf (s.operand core).toNat q.toNat).length < 16) :
    let img := imgOf (((List.range 128).map ((s.operand addr).toNat + ·)).map (s.threadByte (.u s.cur)))
    ∃ which, (∀ p ∈ s.core.pend, (p.space == .u) = true → which p = true) ∧
      execQpush q core addr s =
        .next ((s.performWhere which).enqueuePushed (s.operand core).toNat q.toNat img s.core.ctx).advance := by
  obtain ⟨which, hw, covers⟩ := s.settleRead_eq (fun p => p.space == .u) (.u s.cur)
    ((List.range 128).map ((s.operand addr).toNat + ·))
  refine ⟨which, covers, ?_⟩
  rw [execQpush_of_sound he hc ha hb, ho, hg, hw]
  simp only [State.queueOf_performWhere, if_neg (Nat.not_le.mpr hr), s.performWhere_core]
  rfl

theorem qpush_of_full {q : BitVec 2} {core addr : Opnd} {s : State} (he : s.core.exposed = false)
    (hc : (s.operand core).toNat < 128) (ha : (s.operand addr).toNat % 128 = 0)
    (hb : (s.operand addr).toNat + 128 ≤ 0x300000) (ho : (s.core.veOwes fun _ sp => sp == .u) = false)
    (hg : s.threadBad (.u s.cur) ((List.range 128).map ((s.operand addr).toNat + ·)) = none)
    (hr : 16 ≤ (s.queueOf (s.operand core).toNat q.toNat).length) :
    ∃ which, execQpush q core addr s = .next (s.performWhere which).stallLane := by
  obtain ⟨which, hw, -⟩ := s.settleRead_eq (fun p => p.space == .u) (.u s.cur)
    ((List.range 128).map ((s.operand addr).toNat + ·))
  refine ⟨which, ?_⟩
  rw [execQpush_of_sound he hc ha hb, ho, hg, hw]
  simp only [State.queueOf_performWhere, if_pos hr]
  rfl

/-- A core that does not exist. -/
theorem execQpush_of_no_core (q : BitVec 2) {core addr : Opnd} {s : State} (he : s.core.exposed = false)
    (hc : 127 < (s.operand core).toNat) :
    execQpush q core addr s = finish (.trap 0x04 (infoLocal (s.operand core)) s) := by
  simp only [execQpush, scoreboardOnly_of_not_exposed he, if_pos hc]

theorem execQpush_of_misaligned (q : BitVec 2) {core addr : Opnd} {s : State} (he : s.core.exposed = false)
    (hc : (s.operand core).toNat ≤ 127) (ha : (s.operand addr).toNat % 128 ≠ 0) :
    execQpush q core addr s = finish (.trap 0x03 (infoLocal (s.operand addr)) s) := by
  simp only [execQpush, scoreboardOnly_of_not_exposed he, if_neg (Nat.not_lt.mpr hc), if_pos ha]

theorem execQpush_of_past_end (q : BitVec 2) {core addr : Opnd} {s : State} (he : s.core.exposed = false)
    (hc : (s.operand core).toNat ≤ 127) (ha : (s.operand addr).toNat % 128 = 0)
    (hb : 0x300000 < (s.operand addr).toNat + 128) :
    execQpush q core addr s = finish (.trap 0x04 (infoLocal (s.operand addr)) s) := by
  simp only [execQpush, scoreboardOnly_of_not_exposed he, if_neg (Nat.not_lt.mpr hc), if_neg (not_not.mpr ha),
    State.localAddr, if_neg (Nat.not_le.mpr hb)]

/-- The node that a push makes of a block. -/
def State.pushedNode (s : State) (img : Vector Word 16) (ctx : Fin 64) : Node :=
  { img, ctx, launch := 0, index := s.pushes, addr := 0 }

theorem State.queueOf_enqueuePushed (s : State) {c q : Nat} (img : Vector Word 16) (ctx : Fin 64) (hc : c < 128)
    (hq : q < 4) (x : Nat) : (s.enqueuePushed c q img ctx).queueOf x q =
      if x = c then s.queueOf c q ++ [s.pushedNode img ctx] else s.queueOf x q :=
  State.queueOf_enqueue { s with pushes := s.pushes + 1 } (s.pushedNode img ctx) hc hq x

theorem State.enqueuePushed_core (s : State) (c q : Nat) (img : Vector Word 16) (ctx : Fin 64) :
    (s.enqueuePushed c q img ctx).core = { s.core with work := (s.enqueuePushed c q img ctx).core.work } :=
  State.enqueue_core { s with pushes := s.pushes + 1 } c q (s.pushedNode img ctx)

/-- Settles O16: what a push does when its queue has room, when it is full, while the VE owes stores, and each trap in
the order of R343. -/
theorem queuePushes : Obligations.QueuePushes := by
  unfold Obligations.QueuePushes
  intro q core addr s c a i queue bytes owes
  refine ⟨fun he hc ha hb ho hg hr => ?_, fun he hc ha hb ho hg hr => ?_, fun he hc ha hb ho => ?_, fun ht =>
    ⟨fun he => trapsHere_of_exposed he ht (exec_qpush q core addr s),
      fun he hc => trapsHere_of ht (by decide) ((exec_qpush ..).trans (execQpush_of_no_core q he hc)),
      fun he hc ha => trapsHere_of ht (by decide) ((exec_qpush ..).trans (execQpush_of_misaligned q he hc ha)),
      fun he hc ha hb => trapsHere_of ht (by decide) ((exec_qpush ..).trans (execQpush_of_past_end q he hc ha hb))⟩⟩
  · obtain ⟨which, covers, hx⟩ := qpush_of_room he hc ha hb ho hg hr
    have pushed (x : Nat) := (s.performWhere which).queueOf_enqueuePushed
      (imgOf (bytes.map (s.threadByte (.u s.cur)))) s.core.ctx hc q.isLt x
    simp only [State.queueOf_performWhere] at pushed
    have kept (u : State) (x : Nat) : u.advance.queueOf x q.toNat = u.queueOf x q.toNat :=
      State.queueOf_upd u rfl x q.toNat
    refine ⟨_, (s.performWhere which).pushedNode _ _, (exec_qpush q core addr s).trans hx, ?_, ?_,
      settledBut_performWhere s which, fun p hp => ?_, (kept _ c).trans ((pushed c).trans (if_pos rfl)),
      fun x h => (kept _ x).trans ((pushed x).trans (if_neg h)), rfl, rfl, by simp [State.pushedNode],
      congrArg (· + 1) (s.performWhere_pushes which), fun w hw => ?_⟩
    · rw [NextLane, State.core_advance, State.enqueuePushed_core, State.performWhere_core]
    · rw [SameRegs, State.core_advance, State.enqueuePushed_core, State.performWhere_core]
    · rw [State.core_advance, State.enqueuePushed_core, State.performWhere_core] at hp
      obtain ⟨hp, hn⟩ := List.mem_filter.mp hp
      exact ⟨hp, fun hu => by simp [covers p hp (by simp [hu])] at hn⟩
    · have h8 : 8 * w + 8 ≤ 128 := by omega
      rw [Node.word_lt _ ⟨w, hw⟩, State.pushedNode, imgOf_get, List.map_map, take_drop_map_range _ h8]
      simp only [Function.comp_apply, Nat.add_assoc]
  · obtain ⟨which, hx⟩ := qpush_of_full he hc ha hb ho hg hr
    refine ⟨_, (exec_qpush q core addr s).trans hx, ?_, fun x => ?_⟩
    · rw [State.stallLane_core, s.performWhere_core]
    · exact ((s.performWhere which).queueOf_stallLane x _).trans (s.queueOf_performWhere ..)
  · rw [exec_qpush, execQpush_of_sound he hc ha hb, show (s.core.veOwes fun _ sp => sp == .u) = true from ho]; rfl

end Sys2Proof.Machine
end

section
/-! SUPPORT. The errors of a node (R31): each as a condition on its block, its kernel block and its addresses. -/
namespace Sys2Proof.Machine

-- The fields of a block (R29).

/-- Word i of the block, and bits of it, as numbers. -/
def Node.num (n : Node) (i : Fin 16) : Nat := (n.img[i]).toNat
def Node.bits (n : Node) (i : Fin 16) (lo w : Nat) : Nat := n.num i / 2 ^ lo % 2 ^ w

theorem Node.field_eq_bits (n : Node) (i : Fin 16) (lo w : Nat) : n.field i.val lo w = n.bits i lo w := by
  rw [Node.field, Node.word_lt]; rfl

theorem Node.word_toNat (n : Node) (i : Fin 16) : (n.word i.val).toNat = n.num i := by
  rw [Node.word_lt]; rfl

theorem Node.word_eq_zero_iff (n : Node) (i : Fin 16) : n.word i.val = 0 ↔ n.num i = 0 := by
  rw [← Node.word_toNat, ← BitVec.toNat_inj]; rfl

theorem getLsbD_iff (x : Word) (i : Nat) : x.getLsbD i = true ↔ x.toNat / 2 ^ i % 2 ^ 1 = 1 := by
  rw [BitVec.getLsbD, Nat.testBit_eq_decide_div_mod_eq, decide_eq_true_iff]; rfl

theorem Node.bit_iff (n : Node) (i : Fin 16) (lo : Nat) : (n.word i.val).getLsbD lo = true ↔ n.bits i lo 1 = 1 := by
  rw [getLsbD_iff, Node.word_toNat]; rfl

/-- The node is a LAUNCH or a POST. -/
def Node.Launches (n : Node) : Prop := (n.img[0]).toNat % 16 = 1 ∨ (n.img[0]).toNat % 16 = 2

theorem Node.kind_eq (n : Node) : n.kind = (n.img[0]).toNat % 16 :=
  (n.field_eq_bits 0 0 4).trans (by simp [Node.bits, Node.num])

theorem Node.launches_iff (n : Node) : (n.kind == 1 || n.kind == 2) = true ↔ n.Launches := by
  simp [Node.kind_eq, Node.Launches]

theorem Node.pred_iff (n : Node) : n.pred = true ↔ n.bits 0 8 1 = 1 := n.bit_iff 0 8
theorem Node.dep0_iff (n : Node) : n.dep0 = true ↔ n.bits 0 9 1 = 1 := n.bit_iff 0 9
theorem Node.dep1_iff (n : Node) : n.dep1 = true ↔ n.bits 0 10 1 = 1 := n.bit_iff 0 10
theorem Node.post_iff (n : Node) : n.post = true ↔ n.bits 0 11 1 = 1 := n.bit_iff 0 11

-- The errors of a node at a head (R31), as conditions on its block.

/-- NE1: a reserved kind, a reserved bit or an unused field that is not zero, or a JUMP or END with dependences or
predicate. -/
def Node.Malformed (n : Node) : Prop :=
  let on (bit : Nat) : Prop := n.bits 0 bit 1 = 1
  (n.img[0]).toNat % 16 = 0 ∨ 4 < (n.img[0]).toNat % 16 ∨ n.bits 0 4 4 ≠ 0 ∨ n.bits 0 13 3 ≠ 0 ∨ n.bits 0 19 1 ≠ 0 ∨
  n.bits 0 28 36 ≠ 0 ∨ ((n.img[0]).toNat % 16 ≠ 3 ∧ n.num 15 ≠ 0) ∨ (¬ on 9 ∧ (n.num 8 ≠ 0 ∨ n.num 9 ≠ 0)) ∨
  (¬ on 10 ∧ (n.num 10 ≠ 0 ∨ n.num 11 ≠ 0)) ∨ (¬ on 8 ∧ n.num 12 ≠ 0) ∨ (¬ on 11 ∧ (n.num 6 ≠ 0 ∨ n.num 7 ≠ 0)) ∨
  (((n.img[0]).toNat % 16 = 3 ∨ (n.img[0]).toNat % 16 = 4) ∧ (on 8 ∨ on 9 ∨ on 10))

theorem Node.malformed_iff (n : Node) : n.malformed = true ↔ n.Malformed := by
  have zero (i : Fin 16) : (n.word i.val != 0) = true ↔ n.num i ≠ 0 := by rw [bne_iff_ne, Ne, n.word_eq_zero_iff]
  have reserved (lo w : Nat) : (n.field 0 lo w != 0) = true ↔ n.bits 0 lo w ≠ 0 := by
    rw [bne_iff_ne, ← n.field_eq_bits]; rfl
  simp only [Node.malformed, Bool.or_eq_true, Bool.and_eq_true, Bool.not_eq_true', ← Bool.not_eq_true, reserved,
    n.pred_iff, n.dep0_iff, n.dep1_iff, n.post_iff, n.kind_eq, beq_iff_eq, bne_iff_ne, decide_eq_true_eq,
    show (n.next ≠ 0) = (n.num 15 ≠ 0) from propext (not_congr (n.word_eq_zero_iff 15)),
    show (n.depAdr false ≠ 0) = (n.num 8 ≠ 0) from propext (not_congr (n.word_eq_zero_iff 8)),
    show (n.depTgt false ≠ 0) = (n.num 9 ≠ 0) from propext (not_congr (n.word_eq_zero_iff 9)),
    show (n.depAdr true ≠ 0) = (n.num 10 ≠ 0) from propext (not_congr (n.word_eq_zero_iff 10)),
    show (n.depTgt true ≠ 0) = (n.num 11 ≠ 0) from propext (not_congr (n.word_eq_zero_iff 11)),
    show (n.predAdr ≠ 0) = (n.num 12 ≠ 0) from propext (not_congr (n.word_eq_zero_iff 12)),
    show (n.doneAdr ≠ 0) = (n.num 6 ≠ 0) from propext (not_congr (n.word_eq_zero_iff 6)),
    show (n.doneDelta ≠ 0) = (n.num 7 ≠ 0) from propext (not_congr (n.word_eq_zero_iff 7))]
  unfold Node.Malformed
  dsimp only
  omega

/-- A kernel block that the node names. -/
def Node.Accepts (n : Node) (k : Kernel) : Prop := k.ctx = n.ctx ∧ k.addr.toNat = n.num 1

/-- The newest of them. -/
def State.Newest (s : State) (n : Node) (k : Kernel) : Prop :=
  ∃ l r, s.kernels = l ++ k :: r ∧ n.Accepts k ∧ ∀ z ∈ r, ¬ n.Accepts z

theorem Node.accepts_iff (n : Node) (k : Kernel) : (k.ctx == n.ctx && k.addr == n.kernel) = true ↔ n.Accepts k := by
  rw [Bool.and_eq_true, beq_iff_eq, beq_iff_eq, Node.Accepts, ← n.word_toNat 1, BitVec.toNat_inj]; rfl

/-- The last place in a list that a test finds, or none. -/
theorem find_last {α : Type} (p : α → Bool) (l : List α) :
    let r := (List.range l.length).reverse.find? fun i => (l[i]?).any p
    (r = none ∧ ∀ k ∈ l, p k = false) ∨
      ∃ i k a b, r = some i ∧ l[i]? = some k ∧ l = a ++ k :: b ∧ p k = true ∧ ∀ z ∈ b, p z = false := by
  induction l using List.reverseRecOn with
  | nil => exact .inl ⟨rfl, by simp⟩
  | append_singleton l x ih =>
    have before : (List.range l.length).reverse.find? (fun i => ((l ++ [x])[i]?).any p) =
        (List.range l.length).reverse.find? fun i => (l[i]?).any p :=
      List.find?_congr fun i hi => by
        rw [List.getElem?_append_left (by simpa using hi)]
    simp only [List.length_append, List.length_singleton, List.range_succ, List.reverse_append, List.reverse_singleton,
      List.singleton_append, List.find?_cons, List.getElem?_concat_length,
      Option.any_some]
    cases hx : p x with
    | true => exact .inr ⟨_, x, l, [], rfl, by simp, rfl, hx, by simp⟩
    | false =>
      rw [before]
      rcases ih with ⟨hn, hk⟩ | ⟨i, k, a, b, hi, hg, rfl, hp, hb⟩
      · exact .inl ⟨hn, by simpa [or_imp, forall_and, hx] using hk⟩
      · refine .inr ⟨i, k, a, b ++ [x], hi, ?_, by simp, hp, by simpa [or_imp, forall_and, hx] using hb⟩
        rw [List.getElem?_append_left (List.getElem?_eq_some_iff.mp hg).1, hg]

theorem State.kernelOf_eq (s : State) (n : Node) : s.kernelOf n = (List.range s.kernels.length).reverse.find? fun i =>
    (s.kernels[i]?).any fun k => k.ctx == n.ctx && k.addr == n.kernel := by
  unfold State.kernelOf
  congr 1
  funext i
  cases s.kernels[i]? <;> rfl

theorem State.kernelOf_cases (s : State) (n : Node) :
    (s.kernelOf n = none ∧ ∀ k ∈ s.kernels, ¬ n.Accepts k) ∨
      ∃ i k, s.kernelOf n = some i ∧ s.kernels[i]? = some k ∧ s.Newest n k := by
  rw [State.kernelOf_eq]
  rcases find_last (fun k => k.ctx == n.ctx && k.addr == n.kernel) s.kernels with ⟨hn, hk⟩ | ⟨i, k, a, b, hi, hg, hl, hp, hb⟩
  · exact .inl ⟨hn, fun k h => by rw [← n.accepts_iff, hk k h]; decide⟩
  · exact .inr ⟨i, k, hi, hg, a, b, hl, (n.accepts_iff k).mp hp, fun z hz => by rw [← n.accepts_iff, hb z hz]; decide⟩

theorem State.Newest.unique {s : State} {n : Node} {k k' : Kernel} (h : s.Newest n k) (h' : s.Newest n k') : k = k' := by
  classical
  have last {k : Kernel} (h : s.Newest n k) : (s.kernels.filter fun k => decide (n.Accepts k)).getLast? = some k := by
    obtain ⟨l, r, hl, hk, hr⟩ := h
    have none_left : r.filter (fun k => decide (n.Accepts k)) = [] :=
      List.filter_eq_nil_iff.mpr fun z hz => by simpa using hr z hz
    rw [hl, List.filter_append, List.filter_cons_of_pos (by simpa using hk), none_left, List.getLast?_concat]
  exact Option.some.inj ((last h).symm.trans (last h'))

/-- NE3: the levels of the node do not agree with the WID fields of a block. -/
def Node.BadNest (n : Node) (k : Kernel) : Prop :=
  4 < n.bits 0 16 3 ∨ k.widths.length < n.bits 0 16 3 ∨
  (∃ l, l < n.bits 0 16 3 ∧ ∀ d, d < n.bits 0 16 3 → n.bits 0 (20 + 2 * d) 2 ≠ l) ∨
  (∃ d, n.bits 0 16 3 ≤ d ∧ d < 4 ∧ (n.bits 0 (20 + 2 * d) 2 ≠ 0 ∨ n.bits 3 (16 * d) 16 ≠ 0)) ∨
  (∃ l, l < n.bits 0 16 3 ∧ 2 ^ k.widths.getD l 0 <
    n.num 2 / 2 ^ (k.widths.take l).sum % 2 ^ k.widths.getD l 0 + n.bits 3 (16 * l) 16)

theorem Node.nestBad_iff (n : Node) (k : Kernel) : n.nestBad k.widths = true ↔ n.BadNest k := by
  have hl : n.nlev = n.bits 0 16 3 := n.field_eq_bits 0 16 3
  have hp (d : Nat) : n.perm d = n.bits 0 (20 + 2 * d) 2 := n.field_eq_bits 0 _ 2
  have hc (l : Nat) : n.count l = n.bits 3 (16 * l) 16 := n.field_eq_bits 3 _ 16
  have hw : n.widBase.toNat = n.num 2 := n.word_toNat 2
  simp only [Node.nestBad, hl, hp, hc, hw, Bool.or_eq_true, decide_eq_true_eq, Bool.not_eq_true', List.all_eq_false,
    List.any_eq_true, List.mem_range, Bool.and_eq_true, bne_iff_ne, beq_iff_eq, not_exists, not_and, Node.BadNest, or_assoc]
  refine or_congr_right (or_congr_right (or_congr_right (or_congr_left ?_)))
  exact exists_congr fun d => and_left_comm

/-- An enabled address fails for an access of some bytes, or lacks right R where that is needed (NE5). -/
def State.Fails (s : State) (n : Node) (i : Fin 16) (bytes : Nat) (a : GKind) (needR : Prop) : Prop :=
  match s.translate n.ctx a n.img[i] [(n.num i % 2 ^ 48, bytes)] with
  | .error _ => True
  | .ok z => needR ∧ z.word2.getLsbD 0 = false

theorem State.addressBad_iff (s : State) (n : Node) (i : Fin 16) (bytes : Nat) (a : GKind) {needR : Bool} {r : Prop}
    (hr : needR = true ↔ r) : s.addressBad n.ctx (n.word i.val) bytes a needR = true ↔ s.Fails n i bytes a r := by
  rw [State.addressBad, State.Fails, Node.word_lt]
  simp only [Node.num]
  cases s.translate n.ctx a n.img[i] [((n.img[i]).toNat % 2 ^ 48, bytes)] with
  | error e => simp
  | ok z => simp [hr, wordRights]

theorem Node.any_addresses (n : Node) (f : Word × Nat × GKind × Bool → Bool) : n.addresses.any f = true ↔
    (n.bits 0 11 1 = 1 ∧ f (n.word 6, 8, .counter, false) = true) ∨ (n.bits 0 9 1 = 1 ∧ f (n.word 8, 8, .load, false) = true) ∨
    (n.bits 0 10 1 = 1 ∧ f (n.word 10, 8, .load, false) = true) ∨ (n.bits 0 8 1 = 1 ∧ f (n.word 12, 4, .load, true) = true) := by
  have one (b : Bool) (x : Word × Nat × GKind × Bool) : (if b then [x] else []).any f = (b && f x) := by
    cases b <;> simp
  simp only [Node.addresses, List.any_append, one, Bool.or_eq_true, Bool.and_eq_true, or_assoc]
  rw [n.pred_iff, n.dep0_iff, n.dep1_iff, n.post_iff]
  rfl

/-- A LAUNCH or POST node in which the acting core takes part. -/
def State.Runs (s : State) (n : Node) : Prop :=
  n.Launches ∧ n.bits (if s.cur.val < 64 then 4 else 5) (s.cur.val % 64) 1 = 1

theorem Node.has_iff (n : Node) (c : Fin 128) :
    n.has c.val = true ↔ n.bits (if c.val < 64 then 4 else 5) (c.val % 64) 1 = 1 := by
  rw [Node.has, imgHas]
  by_cases h : c.val < 64
  · rw [if_pos h, if_pos h, getLsbD_iff, Nat.mod_eq_of_lt h]; rfl
  · rw [if_neg h, if_neg h, getLsbD_iff, show c.val % 64 = c.val - 64 by omega]; rfl

theorem State.runs_iff (s : State) (n : Node) : ((n.kind == 1 || n.kind == 2) && n.has s.cur) = true ↔ s.Runs n := by
  rw [Bool.and_eq_true, n.launches_iff, n.has_iff]; rfl

theorem State.no_kernel_iff (s : State) (n : Node) : (s.kernelOf n).isNone = true ↔ ∀ k ∈ s.kernels, ¬ n.Accepts k := by
  rcases s.kernelOf_cases n with ⟨hn, hk⟩ | ⟨i, k, hi, -, l, r, hl, hk, -⟩
  · simpa [hn] using hk
  · simp only [hi, Option.isNone_some, Bool.false_eq_true, false_iff]
    exact fun h => h k (by simp [hl]) hk

theorem State.no_badNest {s : State} {n : Node} (h : ∀ k ∈ s.kernels, ¬ n.Accepts k) :
    ¬ ∃ k, s.Newest n k ∧ n.BadNest k := by
  rintro ⟨k, ⟨l, r, hl, ha, -⟩, -⟩
  exact h k (by simp [hl]) ha

theorem State.Newest.badNest_iff {s : State} {n : Node} {k : Kernel} (h : s.Newest n k) :
    (∃ k', s.Newest n k' ∧ n.BadNest k') ↔ n.BadNest k :=
  ⟨fun ⟨_, h', hb⟩ => h.unique h' ▸ hb, fun hb => ⟨k, h, hb⟩⟩

/-- NE5 and NE6 of the enabled addresses. -/
def State.AddressFails (s : State) (n : Node) : Prop :=
  (n.bits 0 11 1 = 1 ∧ s.Fails n 6 8 .counter False) ∨ (n.bits 0 9 1 = 1 ∧ s.Fails n 8 8 .load False) ∨
  (n.bits 0 10 1 = 1 ∧ s.Fails n 10 8 .load False) ∨ (n.bits 0 8 1 = 1 ∧ s.Fails n 12 4 .load True)
def Node.Misaligned (n : Node) : Prop :=
  (n.bits 0 11 1 = 1 ∧ n.num 6 % 8 ≠ 0) ∨ (n.bits 0 9 1 = 1 ∧ n.num 8 % 8 ≠ 0) ∨
  (n.bits 0 10 1 = 1 ∧ n.num 10 % 8 ≠ 0) ∨ (n.bits 0 8 1 = 1 ∧ n.num 12 % 4 ≠ 0)

theorem State.addressFails_iff (s : State) (n : Node) :
    (n.addresses.any fun x => s.addressBad n.ctx x.1 x.2.1 x.2.2.1 x.2.2.2) = true ↔ s.AddressFails n := by
  have noR : (false = true) ↔ False := by decide
  rw [n.any_addresses, State.AddressFails, ← s.addressBad_iff n 6 8 .counter noR, ← s.addressBad_iff n 8 8 .load noR,
    ← s.addressBad_iff n 10 8 .load noR, ← s.addressBad_iff n 12 4 .load (needR := true) (by decide)]
  rfl

theorem Node.misaligned_iff (n : Node) :
    (n.addresses.any fun x => x.1.toNat % x.2.1 != 0) = true ↔ n.Misaligned := by
  simp only [n.any_addresses, bne_iff_ne, Node.Misaligned, ← n.word_toNat]; rfl

/-- Error e of R31 is met. -/
def State.NodeErr (s : State) (q : Fin 4) (n : Node) (e : Nat) : Prop :=
  (e = 1 ∧ n.Malformed) ∨ (e = 2 ∧ s.Runs n ∧ ∀ k ∈ s.kernels, ¬ n.Accepts k) ∨
  (e = 3 ∧ s.Runs n ∧ ∃ k, s.Newest n k ∧ n.BadNest k) ∨ (e = 4 ∧ n.Launches ∧ n.num 4 = 0 ∧ n.num 5 = 0) ∨
  (e = 5 ∧ s.Runs n ∧ s.AddressFails n) ∨ (e = 6 ∧ s.Runs n ∧ n.Misaligned) ∨
  (e = 7 ∧ ((n.img[0]).toNat % 16 = 3 ∨ ((n.img[0]).toNat % 16 = 4 ∧ q ≠ 0)))

/-- The lowest number with a property. -/
def Lowest (err : Nat → Prop) (e : Nat) : Prop := err e ∧ ∀ e', e' < e → ¬ err e'

/-- A chain of conditions finds the lowest number: its first link is the condition of the lowest number left. -/
theorem chain_eq_some_iff {err : Nat → Prop} {c : Prop} [Decidable c] {k e : Nat} {o : Option Nat}
    (below : ∀ j, j < k → ¬ err j) (here : c ↔ err k)
    (after : (∀ j, j < k + 1 → ¬ err j) → (o = some e ↔ Lowest err e)) :
    (if c then some k else o) = some e ↔ Lowest err e := by
  by_cases h : c
  · rw [if_pos h, Option.some.injEq]
    refine ⟨fun he => he ▸ ⟨here.mp h, below⟩, fun ⟨he, hl⟩ => ?_⟩
    rcases Nat.lt_trichotomy e k with hlt | heq | hgt
    · exact absurd he (below e hlt)
    · exact heq.symm
    · exact absurd (here.mp h) (hl k hgt)
  · rw [if_neg h]
    refine after fun j hj => ?_
    rcases Nat.lt_succ_iff_lt_or_eq.mp hj with hj | rfl
    · exact below j hj
    · exact mt here.mpr h

theorem State.nodeError_eq_some_iff (s : State) (q : Fin 4) (n : Node) (e : Nat) :
    s.nodeError q n = some e ↔ Lowest (s.NodeErr q n) e := by
  have word (i : Fin 16) : (n.word i.val == 0) = true ↔ n.num i = 0 := by rw [beq_iff_eq, n.word_eq_zero_iff]
  have queue : (q.val != 0) = true ↔ q ≠ 0 := by rw [bne_iff_ne, Ne, Fin.val_eq_zero_iff]
  unfold State.nodeError
  dsimp only
  refine chain_eq_some_iff (k := 1) (fun j hj => ?_) (n.malformed_iff.trans (by simp [State.NodeErr])) fun low1 => ?_
  · simp only [State.NodeErr]; omega
  refine chain_eq_some_iff low1 ?_ fun low2 => chain_eq_some_iff low2 ?_ fun low3 => chain_eq_some_iff low3 ?_ fun low4 =>
    chain_eq_some_iff low4 ?_ fun low5 => chain_eq_some_iff low5 ?_ fun low6 => chain_eq_some_iff low6 ?_ fun low7 => ?_
  · rw [Bool.and_eq_true, s.runs_iff, s.no_kernel_iff]; simp [State.NodeErr]
  · have here : s.NodeErr q n 3 ↔ s.Runs n ∧ ∃ k, s.Newest n k ∧ n.BadNest k := by simp [State.NodeErr]
    rw [Bool.and_eq_true, s.runs_iff, here]
    refine and_congr_right fun _ => ?_
    rcases s.kernelOf_cases n with ⟨hn, hk⟩ | ⟨i, k, hi, hg, hw⟩
    · simpa only [hn, Bool.false_eq_true, false_iff] using State.no_badNest hk
    · simp only [hi, hg, n.nestBad_iff, hw.badNest_iff]
  · have empty : (n.word 4 == 0 && n.word 5 == 0) = true ↔ n.num 4 = 0 ∧ n.num 5 = 0 := by
      rw [Bool.and_eq_true]; exact and_congr (word 4) (word 5)
    rw [Bool.and_assoc, Bool.and_eq_true, n.launches_iff, empty]; simp [State.NodeErr]
  · rw [Bool.and_eq_true, s.runs_iff, s.addressFails_iff]; simp [State.NodeErr]
  · rw [Bool.and_eq_true, s.runs_iff, n.misaligned_iff]; simp [State.NodeErr]
  · rw [Bool.or_eq_true, Bool.and_eq_true, queue, n.kind_eq]; simp [State.NodeErr]
  · refine iff_of_false (by simp) fun ⟨he, _⟩ => ?_
    by_cases h : e < 8
    · exact low7 e h he
    · simp only [State.NodeErr] at he; omega

end Sys2Proof.Machine
end

section
/-! SUPPORT. Reads of the work machinery, and what its updates of a queue and its head leave alone. -/
namespace Sys2Proof.Machine

-- Reads of the work machinery (R27, R28).

/-- A read that succeeds has translated its address to places, and answers their bytes. -/
theorem State.readPort_ok {s : State} {ctx : Fin 64} {needR : Bool} {a : Word} {n : Nat} {bs : List Byte}
    (h : s.readPort ctx needR a n = .ok bs) : ∃ x as, s.translate ctx .load a [(a.toNat % 2 ^ 48, n)] = .ok x ∧
      x.places (a.toNat % 2 ^ 48) n = some as ∧ bs = as.map (s.seenByte .g) := by
  unfold State.readPort at h
  cases ht : s.translate ctx .load a [(a.toNat % 2 ^ 48, n)] with
  | error b => simp only [ht, reduceCtorEq] at h
  | ok x =>
    simp only [ht] at h
    split at h
    · cases h
    · cases hp : x.places (a.toNat % 2 ^ 48) n with
      | none => simp only [hp, reduceCtorEq] at h
      | some as =>
        simp only [hp] at h
        split at h
        · cases h
        · exact ⟨x, as, rfl, hp, (Except.ok.inj h).symm⟩

/-- The places of a block that has been read, as many as its bytes. -/
theorem State.blockPlaces_length {s : State} {ctx : Fin 64} {a : Word} {needR : Bool} {bs : List Byte}
    (h : s.readPort ctx needR a 128 = .ok bs) : (s.blockPlaces ctx a).length = 128 ∧ bs.length = 128 := by
  obtain ⟨x, as, ht, hp, rfl⟩ := State.readPort_ok h
  have hl := Xlat.places_length hp
  rw [State.blockPlaces, ht]
  simp only [hp, Option.getD_some, hl, List.length_map, and_self]

/-- The bytes of one word of a block are all new or all old. -/
theorem State.take_drop_blockWords (s : State) {phys : List Nat} {now : List Byte} {j : Nat}
    (hp : 8 * j + 8 ≤ phys.length) (hn : 8 * j + 8 ≤ now.length) :
    ((s.blockWords phys now).drop (8 * j)).take 8 = if Config.copyChoice (s.fresh + j) then (now.drop (8 * j)).take 8
      else ((phys.map (readByte s.core.work.cpOld)).drop (8 * j)).take 8 := by
  have hw : (s.blockWords phys now).length = min phys.length now.length := by simp [State.blockWords]
  have h8 : (((s.blockWords phys now).drop (8 * j)).take 8).length = 8 := by simp [hw]; omega
  apply List.ext_getElem
  · rw [h8]; split <;> simp <;> omega
  · intro i hi _
    have hi8 : i < 8 := by omega
    have word : (8 * j + i) / 8 = j := by omega
    simp only [List.getElem_take, List.getElem_drop, State.blockWords, List.getElem_map, List.getElem_zipIdx,
      List.getElem_zip, Nat.zero_add, word]
    split <;> simp

/-- Every word of a block is the one that stands there, or the one from before the walk (R28). -/
theorem State.blockWords_word (s : State) {phys : List Nat} {now : List Byte} (hp : phys.length = 128)
    (hn : now.length = 128) (j : Fin 16) :
    (imgOf (s.blockWords phys now))[j] = BitVec.ofNat 64 (leNat ((now.drop (8 * j.val)).take 8)) ∨
    (imgOf (s.blockWords phys now))[j] =
      BitVec.ofNat 64 (leNat (((phys.map (readByte s.core.work.cpOld)).drop (8 * j.val)).take 8)) := by
  have := j.isLt
  rw [imgOf_get, s.take_drop_blockWords (by omega) (by omega)]
  split
  · exact .inl rfl
  · exact .inr rfl

-- Memory and queues under the updates of the work machinery.

theorem sameMemory_upd (s : State) (f : Core → Core) : SameMemory s (s.upd f) := fun l a => s.byteAt_upd f l a

theorem SameMemory.trans {s t u : State} (h : SameMemory s t) (k : SameMemory t u) : SameMemory s u :=
  fun l a => (k l a).trans (h l a)

theorem sameMemory_logEvent (s : State) (k sp : Nat) (a : Word) (p c : Nat) (e : Eng) :
    SameMemory s (s.logEvent k sp a p c e) := sameMemory_of_padAt (s.padAt_logFor _ k sp a p c e)

theorem sameMemory_signal (s : State) (v : Nat) : SameMemory s (s.signal v) :=
  sameMemory_of_padAt fun l => by cases l <;> rfl

theorem vset_get {α : Type} {n : Nat} (v : Vector α n) (i j : Fin n) (x : α) :
    (vset v i.val x)[j] = if j = i then x else v[j] := by
  rw [vset_fin]
  by_cases h : j = i
  · simp [h]
  · simp [h, Fin.val_ne_of_ne (Ne.symm h)]

theorem Core.cmdq_fin (c : Core) (q : Fin 4) : c.cmdq q.val = c.work.queues[q] := vget_lt _ _ _ q.isLt

/-- Memory, registers, time and the other queues of the acting core are as they were. -/
def KeepsAllBut (q : Fin 4) (s t : State) : Prop :=
  SameMemory s t ∧ SameRegs s t ∧ t.time = s.time ∧
    ∀ j : Fin 4, j ≠ q → t.core.work.queues[j] = s.core.work.queues[j]

theorem KeepsAllBut.trans {q : Fin 4} {s t u : State} (h : KeepsAllBut q s t) (k : KeepsAllBut q t u) :
    KeepsAllBut q s u :=
  ⟨h.1.trans k.1, k.2.1.trans h.2.1, k.2.2.1.trans h.2.2.1, fun j hj => (k.2.2.2 j hj).trans (h.2.2.2 j hj)⟩

theorem keepsAllBut_refl (q : Fin 4) (s : State) : KeepsAllBut q s s := ⟨fun _ _ => rfl, rfl, rfl, fun _ _ => rfl⟩

theorem keepsAllBut_updWork {q : Fin 4} (s : State) {f : Work → Work}
    (h : ∀ j : Fin 4, j ≠ q → (f s.core.work).queues[j] = s.core.work.queues[j]) : KeepsAllBut q s (s.updWork f) :=
  ⟨sameMemory_upd s _, by simp [SameRegs], rfl, fun j hj => by rw [State.core_updWork]; exact h j hj⟩

theorem keepsAllBut_logEvent (q : Fin 4) (s : State) (k sp : Nat) (a : Word) (p c : Nat) (e : Eng) :
    KeepsAllBut q s (s.logEvent k sp a p c e) := ⟨sameMemory_logEvent s k sp a p c e, rfl, rfl, fun _ _ => rfl⟩

theorem keepsAllBut_signal (q : Fin 4) (s : State) (v : Nat) : KeepsAllBut q s (s.signal v) :=
  ⟨sameMemory_signal s v, rfl, rfl, fun _ _ => rfl⟩

theorem State.updHead_queue (s : State) (q j : Fin 4) (f : Head → Head) : (s.updHead q f).core.work.queues[j] =
    if j = q then { s.core.work.queues[q] with head := f s.core.work.queues[q].head } else s.core.work.queues[j] := by
  rw [State.updHead, State.core_updWork]
  dsimp only
  rw [vset_get, vget_lt _ _ _ q.isLt]; rfl

theorem keepsAllBut_updHead (s : State) (q : Fin 4) (f : Head → Head) : KeepsAllBut q s (s.updHead q f) :=
  ⟨sameMemory_upd s _, by simp [SameRegs, State.updHead], rfl, fun j hj => by rw [State.updHead_queue, if_neg hj]⟩

/-- The head node leaves its queue. -/
def CmdQ.pop (x : CmdQ) (t : Word) : CmdQ := { nodes := x.nodes.tail, seq := x.seq + 1, head := Head.fresh t }

theorem State.popNode_acting (s : State) (q : Fin 4) : s.popNode s.cur q = s.updWork fun w =>
    { w with queues := vset w.queues q (w.queues[q].pop s.time) } := by
  rw [State.popNode, State.updAt_acting]
  exact s.upd_congr _ _ (by dsimp only; rw [Core.cmdq_fin]; rfl)

theorem State.popNode_queue (s : State) (q j : Fin 4) : (s.popNode s.cur q).core.work.queues[j] =
    if j = q then s.core.work.queues[q].pop s.time else s.core.work.queues[j] := by
  rw [State.popNode_acting, State.core_updWork]
  exact vset_get ..

theorem keepsAllBut_popNode (s : State) (q : Fin 4) : KeepsAllBut q s (s.popNode s.cur q) := by
  rw [State.popNode_acting]
  exact keepsAllBut_updWork s fun j hj => by dsimp only; rw [vset_get, if_neg hj]

theorem State.settleHead_queue (s : State) (q : Fin 4) (n : Node) :
    let x := s.core.work.queues[q]
    let y := (s.settleHead q n).core.work.queues[q]
    y.nodes = x.nodes ∧ y.head.checked = x.head.checked ∧ y.head.dep0 = x.head.dep0 ∧ y.head.dep1 = x.head.dep1 := by
  intro x y
  have hy : y = _ := (State.updHead_queue s q q _).trans (if_pos rfl)
  rw [hy]
  dsimp only
  split <;> exact ⟨rfl, rfl, rfl, rfl⟩

theorem keepsAllBut_settleHead (s : State) (q : Fin 4) (n : Node) : KeepsAllBut q s (s.settleHead q n) :=
  keepsAllBut_updHead s q _

/-- The head of a queue is held with an error, after so many entries of the log, and is reported (R31, R133, R264). -/
def HeldWith (q : Fin 4) (e entries : Nat) (s t : State) : Prop :=
  (t.core.work.queues[q]).nodes = (s.core.work.queues[q]).nodes ∧ (t.core.work.queues[q]).head.held = some e ∧
    t.host.msix = s.host.msix ||| 6 ∧ t.log.length = s.log.length + entries

theorem State.signal_msix (s : State) (v : Nat) : (s.signal v).host.msix = s.host.msix ||| BitVec.ofNat 4 (2 ^ v) := rfl

theorem State.logEvent_msix (s : State) (k sp : Nat) (a : Word) (p c : Nat) (e : Eng) :
    (s.logEvent k sp a p c e).host.msix = s.host.msix ||| 2 := rfl

theorem State.logEvent_length (s : State) (k sp : Nat) (a : Word) (p c : Nat) (e : Eng) :
    (s.logEvent k sp a p c e).log.length = s.log.length + 1 := List.length_append

/-- An entry of the log and a report of an error set vectors 1 and 2 (R264). -/
theorem State.signal_logEvent_msix (s : State) (k sp : Nat) (a : Word) (p c : Nat) (e : Eng) :
    ((s.logEvent k sp a p c e).signal 2).host.msix = s.host.msix ||| 6 := by
  rw [State.signal_msix, State.logEvent_msix, BitVec.or_assoc]
  rfl

theorem State.holdNode_queue (s : State) (q : Fin 4) (e : Nat) : (s.holdNode q e).core.work.queues[q] =
    { s.core.work.queues[q] with head := { s.core.work.queues[q].head with held := some e } } := by
  rw [State.holdNode, State.core_signal, State.core_logEvent, State.updHead_queue, if_pos rfl]

theorem holdNode_holds (s : State) (q : Fin 4) (e : Nat) :
    KeepsAllBut q s (s.holdNode q e) ∧ HeldWith q e 1 s (s.holdNode q e) := by
  refine ⟨((keepsAllBut_updHead s q _).trans (keepsAllBut_logEvent ..)).trans (keepsAllBut_signal ..), ?_, ?_,
    State.signal_logEvent_msix .., State.logEvent_length ..⟩
  · rw [State.holdNode_queue]
  · rw [State.holdNode_queue]

/-- A read that fails is logged as well (R133). -/
theorem refused_holds (s : State) (q : Fin 4) (x : Refused) (ctx : Fin 64) :
    KeepsAllBut q s ((s.logRefused x ctx).holdNode q 5) ∧ HeldWith q 5 2 s ((s.logRefused x ctx).holdNode q 5) := by
  obtain ⟨keeps, nodes, held, msix, log⟩ := holdNode_holds (s.logRefused x ctx) q 5
  refine ⟨(keepsAllBut_logEvent ..).trans keeps, nodes, held, ?_, ?_⟩
  · rw [msix, State.logRefused, State.logEvent_msix, BitVec.or_assoc]; rfl
  · rw [log, State.logRefused, State.logEvent_length]

end Sys2Proof.Machine
end

section
/-! SUPPORT. Leaving a node and the end of a staged node: what they change of a core and of what cores share. -/
namespace Sys2Proof.Machine

-- Leaving a node (R35, R37, R40): what it does to the core, and to what the core shares.

/-- The barriers, runs of adds and staged nodes of t are others than those of s. -/
def SharesAnew (s t : State) : Prop := ∃ bs rs st, t = { s with barriers := bs, runs := rs, staged := st }

theorem SharesAnew.trans {s t u : State} (h : SharesAnew s t) (k : SharesAnew t u) : SharesAnew s u := by
  obtain ⟨_, _, _, rfl⟩ := h
  obtain ⟨_, _, _, rfl⟩ := k
  exact ⟨_, _, _, rfl⟩

theorem sharesAnew_staged (s : State) (st : List Staged) : SharesAnew s { s with staged := st } := ⟨_, _, _, rfl⟩

theorem sharesAnew_ensureStaged (s : State) (n : Node) (i : Nat) : SharesAnew s (s.ensureStaged n i) := by
  unfold State.ensureStaged
  split
  · split
    · exact ⟨_, _, _, rfl⟩
    · exact sharesAnew_staged s _
  · exact ⟨_, _, _, rfl⟩

theorem sharesAnew_markLeft (s : State) (n : Node) (i : Nat) : SharesAnew s (s.markLeft n i) :=
  ((sharesAnew_ensureStaged s n i).trans (sharesAnew_staged _ _)).trans (sharesAnew_staged _ _)

theorem sharesAnew_leaveShared (s : State) (i : Nat) (n : Node) (asCore : Nat) :
    SharesAnew s (s.leaveShared i n asCore) := by
  have barriers : SharesAnew s (s.leaveBarriers i n) := ⟨_, _, _, rfl⟩
  unfold State.leaveShared
  dsimp only
  split
  · have run : SharesAnew (s.leaveBarriers i n) ((s.leaveBarriers i n).endRun n i asCore) := ⟨_, _, _, rfl⟩
    exact (barriers.trans run).trans (sharesAnew_markLeft ..)
  · exact barriers

/-- The post of a node that leaves queue q. -/
def Core.postOf (c : Core) (q : Nat) (n : Node) (writes : Bool) : Post :=
  { q := Fin.ofNat 4 q, seq := (c.cmdq q).seq, node := n, det := n.det, writes, since := (c.cmdq q).head.since
    reported := (c.cmdq q).head.reported, failed := false }

/-- The core once the node at the head of its queue q has left it at a time. -/
def Core.left (c : Core) (t : Word) (q : Nat) (n : Node) (writes : Bool) : Core :=
  { c with work := { c.work with
      queues := vset c.work.queues q ((c.cmdq q).pop t), served := Fin.ofNat 4 q
      posts := c.work.posts ++ [c.postOf q n writes] } }

theorem State.updAt_updAt (s : State) (i : Nat) (f g : Core → Core) :
    (s.updAt i f).updAt i g = s.updAt i fun c => g (f c) := by
  by_cases hi : i < 128
  · have h : (s.updAt i f).coreAt i = f (s.coreAt i) := by rw [State.coreAt_updAt, if_pos ⟨rfl, hi⟩]
    simp only [State.updAt] at h ⊢
    rw [h]
    simp [vset, Vector.setIfInBounds_setIfInBounds]
  · have h (v : Vector Core 128) (x : Core) : vset v i x = v := by
      ext j hj; simp only [vset, Vector.getElem_setIfInBounds]; rw [if_neg (by omega)]
    simp only [State.updAt, h]

theorem State.leaveNode_shares (s : State) (i q : Nat) (n : Node) (writes : Bool) (asCore : Nat) :
    SharesAnew (s.updAt i fun c => c.left s.time q n writes) (s.leaveNode i q n writes asCore) := by
  unfold State.leaveNode State.popNode
  dsimp only
  rw [State.updAt_updAt]
  have h : (s.updAt i fun c => c.left s.time q n writes) = s.updAt i fun c =>
      { { c with work := { c.work with queues := vset c.work.queues q ((c.cmdq q).pop s.time) } } with
        work := { { c.work with queues := vset c.work.queues q ((c.cmdq q).pop s.time) } with
          served := Fin.ofNat 4 q, posts := c.work.posts ++ [(s.coreAt i).postOf q n writes] } } := by
    simp only [State.updAt]; rfl
  rw [h]
  exact sharesAnew_leaveShared ..

/-- t differs from s in barriers, runs of adds, staged nodes, and in the nodes and posts that cores work on. -/
def OnlyNodes (s t : State) : Prop :=
  { t with cores := s.cores, barriers := s.barriers, runs := s.runs, staged := s.staged } = s ∧
  ∀ i, { t.coreAt i with work := { (t.coreAt i).work with
    queues := (s.coreAt i).work.queues, served := (s.coreAt i).work.served, posts := (s.coreAt i).work.posts
    cur := (s.coreAt i).work.cur } } = s.coreAt i

theorem onlyNodes_refl (s : State) : OnlyNodes s s := ⟨rfl, fun _ => rfl⟩

theorem OnlyNodes.trans {s t u : State} (h : OnlyNodes s t) (k : OnlyNodes t u) : OnlyNodes s u := by
  refine ⟨?_, fun i => ?_⟩
  · rw [← h.1, ← k.1]
  · rw [← h.2 i, ← k.2 i]

theorem SharesAnew.onlyNodes {s t : State} (h : SharesAnew s t) : OnlyNodes s t := by
  obtain ⟨_, _, _, rfl⟩ := h
  exact onlyNodes_refl s

/-- An update of one core in the nodes and posts that it works on. -/
theorem onlyNodes_updAt (s : State) (i : Nat) {f : Core → Core} (hf : ∀ c, { f c with work := { (f c).work with
    queues := c.work.queues, served := c.work.served, posts := c.work.posts, cur := c.work.cur } } = c) :
    OnlyNodes s (s.updAt i f) := by
  refine ⟨rfl, fun j => ?_⟩
  rw [State.coreAt_updAt]
  split
  · rename_i h
    obtain ⟨rfl, -⟩ := h
    exact hf _
  · rfl

theorem onlyNodes_leaveNode (s : State) (i q : Nat) (n : Node) (writes : Bool) (asCore : Nat) :
    OnlyNodes s (s.leaveNode i q n writes asCore) :=
  (onlyNodes_updAt s i (f := fun c => c.left s.time q n writes) fun _ => rfl).trans (s.leaveNode_shares i q n writes asCore).onlyNodes

/-- The core that leaves a node, and the others. -/
theorem State.leaveNode_coreAt (s : State) (i q : Nat) (n : Node) (writes : Bool) (asCore x : Nat) :
    (s.leaveNode i q n writes asCore).coreAt x =
      if x = i ∧ i < 128 then (s.coreAt i).left s.time q n writes else s.coreAt x := by
  obtain ⟨_, _, _, h⟩ := s.leaveNode_shares i q n writes asCore
  rw [h]
  exact State.coreAt_updAt s i x fun c => c.left s.time q n writes

/-- Core c leaves a staged node, or nothing happens. -/
theorem State.leaveStaged_cases (s : State) (x : Staged) (c : Nat) :
    s.leaveStaged x c = s ∨ ∃ p, (s.coreAt c).work.cur = some p ∧
      (x.isFor (c / 64) p.node && !p.running) = true ∧
      s.leaveStaged x c = (s.leaveNode c p.q p.node true (p.node.parts.getD p.j c)).updAt c fun k =>
        { k with work := { k.work with cur := none } } := by
  unfold State.leaveStaged
  cases hp : (s.coreAt c).work.cur with
  | none => exact .inl rfl
  | some p =>
    cases hx : x.isFor (c / 64) p.node && !p.running with
    | false => exact .inl (by simp [hx])
    | true => exact .inr ⟨p, rfl, hx, by simp [hx]⟩

theorem onlyNodes_leaveStaged (s : State) (x : Staged) (c : Nat) : OnlyNodes s (s.leaveStaged x c) := by
  rcases s.leaveStaged_cases x c with h | ⟨p, -, -, h⟩
  · rw [h]; exact onlyNodes_refl s
  · rw [h]; exact (onlyNodes_leaveNode ..).trans (onlyNodes_updAt _ _ fun _ => rfl)

/-- A core that stands with no node is left as it is. -/
theorem State.leaveStaged_idle {s : State} {i : Nat} (x : Staged) (c : Nat) (h : (s.coreAt i).work.cur = none) :
    (s.leaveStaged x c).coreAt i = s.coreAt i := by
  rcases s.leaveStaged_cases x c with e | ⟨p, hp, -, e⟩
  · rw [e]
  · have hi : i ≠ c := fun e => by rw [e, hp] at h; cases h
    rw [e, State.coreAt_updAt, if_neg fun k => hi k.1, State.leaveNode_coreAt, if_neg fun k => hi k.1]

/-- What a change of the staged nodes and every core's leave of one keep, the end of staged nodes keeps. -/
theorem State.endStaged_induct {P : State → Prop} {s : State} (die : Nat) (h : P s)
    (staged : ∀ t st, P t → P { t with staged := st }) (leave : ∀ t x c, P t → P (t.leaveStaged x c)) :
    P (s.endStaged die) := by
  have cores (x : Staged) (cs : List Nat) (t : State) (ht : P t) : P (cs.foldl (fun s c => s.leaveStaged x c) t) := by
    induction cs generalizing t with
    | nil => exact ht
    | cons c cs ih => exact ih _ (leave t x c ht)
  unfold State.endStaged
  dsimp only
  generalize (s.staged.filter fun x => x.die == die && s.stagedDone x) = due
  induction due generalizing s with
  | nil => exact h
  | cons x due ih => exact ih (cores x _ _ (staged _ _ h))

theorem onlyNodes_endStaged (s : State) (die : Nat) : OnlyNodes s (s.endStaged die) :=
  State.endStaged_induct die (onlyNodes_refl s) (fun t st h => h.trans (sharesAnew_staged t st).onlyNodes)
    fun t x c h => h.trans (onlyNodes_leaveStaged t x c)

theorem State.endStaged_idle {s : State} {i : Nat} (die : Nat) (h : (s.coreAt i).work.cur = none) :
    (s.endStaged die).coreAt i = s.coreAt i :=
  State.endStaged_induct (P := fun t => t.coreAt i = s.coreAt i) die rfl (fun _ _ ht => ht) fun t x c ht =>
    (State.leaveStaged_idle x c (by rw [ht]; exact h)).trans ht

theorem OnlyNodes.cur_eq {s t : State} (h : OnlyNodes s t) : t.cur = s.cur := (congrArg State.cur h.1 :)
theorem OnlyNodes.time_eq {s t : State} (h : OnlyNodes s t) : t.time = s.time := (congrArg State.time h.1 :)

theorem OnlyNodes.core_eq {s t : State} (h : OnlyNodes s t) : { t.core with work := { t.core.work with
    queues := s.core.work.queues, served := s.core.work.served, posts := s.core.work.posts
    cur := s.core.work.cur } } = s.core := by
  rw [State.core_of_coreAt h.cur_eq, ← s.coreAt_cur]
  exact h.2 s.cur

theorem OnlyNodes.padAt_eq {s t : State} (h : OnlyNodes s t) (l : Loc) : t.padAt l = s.padAt l := by
  have k := congrArg (fun u : State => u.padAt l) h.1
  cases l <;> exact k

theorem OnlyNodes.sameMemory {s t : State} (h : OnlyNodes s t) : SameMemory s t := sameMemory_of_padAt h.padAt_eq

theorem OnlyNodes.sameRegs {s t : State} (h : OnlyNodes s t) : SameRegs s t := (congrArg Core.regs h.core_eq :)

end Sys2Proof.Machine
end

section
/-! SUPPORT. The graph fetcher and the events of a queue's head, one lemma for each way they go; and the statement about
them, O57. -/
namespace Sys2Proof.Machine

-- The graph fetcher (R27, R28, R30).

theorem exec_graphFetch (s : State) : exec .graphFetch s = execGraphFetch s := rfl
theorem exec_nodeHeadCheck (q : Fin 4) (s : State) : exec (.nodeHeadCheck q) s = execNodeHeadCheck q s := rfl
theorem exec_dependenceRead (q : Fin 4) (second : Bool) (s : State) :
    exec (.dependenceRead q second) s = execDependenceRead q second s := rfl
theorem exec_predicateRead (q : Fin 4) (s : State) : exec (.predicateRead q) s = execPredicateRead q s := rfl
theorem exec_nodeWatchdog (q : Fin 4) (s : State) : exec (.nodeWatchdog q) s = execNodeWatchdog q s := rfl

/-- The node that the fetcher makes of the bytes at its pointer. -/
def State.fetchedNode (s : State) (bs : List Byte) : Node :=
  let w := s.core.work
  { img := imgOf (s.blockWords (s.blockPlaces w.cpCtx w.cp) bs), ctx := w.cpCtx, launch := w.cpLaunch, index := w.cpIndex
    addr := w.cp }

section
variable {s : State} (hr : s.core.work.cpState = .running) (hl : (s.core.work.queues[(0 : Fin 4)]).nodes.length < 16)
include hr hl

theorem graphFetch_goes : (s.core.work.cpState ≠ .running || 16 ≤ (s.core.cmdq 0).nodes.length) = false := by
  rw [show s.core.cmdq 0 = s.core.work.queues[(0 : Fin 4)] from s.core.cmdq_fin 0, hr]
  simpa using hl

theorem graphFetch_of_error {e : Refused} (h : s.readPort s.core.work.cpCtx true s.core.work.cp 128 = .error e) :
    execGraphFetch s = .next (((s.updWork fun w => { w with cpState := .fetchError }).logEvent 7 2 s.core.work.cp e.phys
      s.core.work.cpCtx .cc).signal 2) := by
  simp only [execGraphFetch, graphFetch_goes hr hl, h, Bool.false_eq_true, if_false]

theorem graphFetch_of_jump {bs : List Byte} (h : s.readPort s.core.work.cpCtx true s.core.work.cp 128 = .ok bs)
    (hk : (s.fetchedNode bs).kind = 3) : execGraphFetch s =
      .next (({ s with fresh := s.fresh + 16 } : State).updWork fun w => { w with cp := (s.fetchedNode bs).next }) := by
  simp only [State.fetchedNode] at hk
  simp only [execGraphFetch, graphFetch_goes hr hl, h, Bool.false_eq_true, if_false, hk, if_true]
  rfl

theorem graphFetch_of_block {bs : List Byte} (h : s.readPort s.core.work.cpCtx true s.core.work.cp 128 = .ok bs)
    (hk : (s.fetchedNode bs).kind ≠ 3) : execGraphFetch s =
      .next (({ s with fresh := s.fresh + 16 } : State).updWork fun w =>
        { w with
          cp := w.cp + 128, cpIndex := w.cpIndex + 1
          cpState := if (s.fetchedNode bs).kind = 4 then .ended else .running
          queues := vset w.queues 0 ((vget w.queues 0 CmdQ.empty).push (s.fetchedNode bs) s.time) }) := by
  simp only [State.fetchedNode] at hk
  simp only [execGraphFetch, graphFetch_goes hr hl, h, Bool.false_eq_true, if_false, hk]
  rfl

end

-- The head of a queue (R31, R36, R38, R39, R50).

section
variable {s : State} {q : Fin 4} {n : Node} {ns : List Node} (hx : (s.core.work.queues[q]).nodes = n :: ns)
  (hh : (s.core.work.queues[q]).head.held = none)
include hx hh

section
variable (hc : (s.core.work.queues[q]).head.checked = false)
include hc

theorem headCheck_of_error {e : Nat} (he : s.nodeError q n = some e) :
    execNodeHeadCheck q s = .next (s.holdNode q e) := by
  simp only [execNodeHeadCheck, Core.cmdq_fin, hx, hc, hh, he]
  rfl

theorem headCheck_of_end (he : s.nodeError q n = none) (hk : n.kind = 4) : execNodeHeadCheck q s =
    .next ((s.popNode s.cur q).updWork fun w => { w with cpState := .idle }) := by
  simp only [execNodeHeadCheck, Core.cmdq_fin, hx, hc, hh, he, if_pos hk]
  rfl

theorem headCheck_of_other (he : s.nodeError q n = none) (hk : n.kind ≠ 4) (hm : n.has s.cur = false) :
    execNodeHeadCheck q s = .next (s.popNode s.cur q) := by
  simp only [execNodeHeadCheck, Core.cmdq_fin, hx, hc, hh, he, if_neg hk, hm]
  rfl

theorem headCheck_of_mine (he : s.nodeError q n = none) (hk : n.kind ≠ 4) (hm : n.has s.cur = true) :
    execNodeHeadCheck q s = .next ((s.updHead q fun h =>
      { h with checked := true, dep0 := !n.dep0, dep1 := !n.dep1 }).settleHead q n) := by
  simp only [execNodeHeadCheck, Core.cmdq_fin, hx, hc, hh, he, if_neg hk, hm]
  rfl

end

section
variable (hc : (s.core.work.queues[q]).head.checked = true) {second : Bool}
  (hd : (if second then (s.core.work.queues[q]).head.dep1 else (s.core.work.queues[q]).head.dep0) = false)
include hc hd

theorem dependence_of_error {e : Refused} (hr : s.readPort n.ctx false (n.depAdr second) 8 = .error e) :
    execDependenceRead q second s = .next ((s.logRefused e n.ctx).holdNode q 5) := by
  simp only [execDependenceRead, Core.cmdq_fin, hx, hc, hh, hd, hr]
  rfl

theorem dependence_of_early {bs : List Byte} (hr : s.readPort n.ctx false (n.depAdr second) 8 = .ok bs)
    (hl : leNat bs < (n.depTgt second).toNat) : execDependenceRead q second s = .next s := by
  simp only [execDependenceRead, Core.cmdq_fin, hx, hc, hh, hd, hr, if_pos hl]
  rfl

theorem dependence_of_met {bs : List Byte} (hr : s.readPort n.ctx false (n.depAdr second) 8 = .ok bs)
    (hl : (n.depTgt second).toNat ≤ leNat bs) : execDependenceRead q second s =
      .next ((s.updHead q fun h => { h with dep0 := h.dep0 || !second, dep1 := h.dep1 || second }).settleHead q n) := by
  simp only [execDependenceRead, Core.cmdq_fin, hx, hc, hh, hd, hr, if_neg (Nat.not_lt.mpr hl)]
  rfl

end

section
variable (hc : (s.core.work.queues[q]).head.checked = true) (h0 : (s.core.work.queues[q]).head.dep0 = true)
  (h1 : (s.core.work.queues[q]).head.dep1 = true) (hy : (s.core.work.queues[q]).head.ready = false)
include hc h0 h1 hy

theorem predicate_of_error {e : Refused} (hr : s.readPort n.ctx true n.predAdr 4 = .error e) :
    execPredicateRead q s = .next ((s.logRefused e n.ctx).holdNode q 5) := by
  simp only [execPredicateRead, Core.cmdq_fin, hx, hc, h0, h1, hy, hh, hr]
  rfl

theorem predicate_of_zero {bs : List Byte} (hr : s.readPort n.ctx true n.predAdr 4 = .ok bs) (hz : leNat bs = 0) :
    execPredicateRead q s = .next ((s.leaveNode s.cur q n false s.cur).endStaged s.die) := by
  simp only [execPredicateRead, Core.cmdq_fin, hx, hc, h0, h1, hy, hh, hr, if_pos hz]
  rfl

theorem predicate_of_nonzero {bs : List Byte} (hr : s.readPort n.ctx true n.predAdr 4 = .ok bs) (hz : leNat bs ≠ 0) :
    execPredicateRead q s = .next (s.updHead q fun h => { h with ready := true }) := by
  simp only [execPredicateRead, Core.cmdq_fin, hx, hc, h0, h1, hy, hh, hr, if_neg hz]
  rfl

end
end

theorem nodeWatchdog_of_late {s : State} {q : Fin 4} (hn : (s.core.work.queues[q]).nodes ≠ [])
    (hh : (s.core.work.queues[q]).head.held = none) (hr : (s.core.work.queues[q]).head.reported = false)
    (hl : s.watchdog * 2500000 < (s.time - (s.core.work.queues[q]).head.since).toNat) :
    execNodeWatchdog q s = .next ((s.updHead q fun h => { h with reported := true }).signal 2) := by
  have due : decide (s.watchdogTicks < (s.time - (s.core.work.queues[q]).head.since).toNat) = true := decide_eq_true hl
  have some_node : (s.core.work.queues[q]).nodes.isEmpty = false := by simpa using hn
  simp only [execNodeWatchdog, Core.cmdq_fin, hh, hr, due, some_node]
  rfl

/-- A node that is skipped leaves its queue, while its core stands with no other node. -/
theorem skip_node (s : State) (q : Fin 4) (n : Node) (hc : s.core.work.cur = none) :
    let t := (s.leaveNode s.cur q n false s.cur).endStaged s.die
    KeepsAllBut q s t ∧ t.core.work.queues[q] = s.core.work.queues[q].pop s.time ∧
      t.core.work.posts = s.core.work.posts ++ [s.core.postOf q n false] ∧ t.core.work.served = q := by
  intro t
  have nodes : OnlyNodes s t := (onlyNodes_leaveNode ..).trans (onlyNodes_endStaged _ _)
  have left : (s.leaveNode s.cur q n false s.cur).coreAt s.cur.val = s.core.left s.time q n false := by
    rw [State.leaveNode_coreAt, if_pos ⟨rfl, s.cur.isLt⟩, s.coreAt_cur]
  have core : t.core = s.core.left s.time q n false := by
    rw [State.core_of_coreAt nodes.cur_eq]
    exact (State.endStaged_idle s.die (by rw [left]; exact hc)).trans left
  have queues (j : Fin 4) : t.core.work.queues[j] =
      if j = q then s.core.work.queues[q].pop s.time else s.core.work.queues[j] := by
    rw [core, ← s.core.cmdq_fin q]
    exact vset_get ..
  refine ⟨⟨nodes.sameMemory, nodes.sameRegs, nodes.time_eq, fun j hj => (queues j).trans (if_neg hj)⟩,
    (queues q).trans (if_pos rfl), by rw [core]; rfl, ?_⟩
  rw [core]
  exact Fin.ext (Nat.mod_eq_of_lt q.isLt)

/-- Settles O57: the errors of a head by `nodeError_eq_some_iff`, and for every event the equation of each way it goes. -/
theorem graphsAndNodeHeads : Obligations.GraphsAndNodeHeads := by
  unfold Obligations.GraphsAndNodeHeads
  intro q second bs n ns e s c w x queue places block wordOf kind keeps held unread word fld on level perm nlev launches part
    accepted newest fails err
  have kind_eq (m : Node) : kind m = m.kind := m.kind_eq.symm
  refine ⟨s.nodeError_eq_some_iff q n e, fun hr j => ?words, fun hs hl hr => ⟨fun hk => ?block, fun hk => ?jump⟩,
    fun y hs hl hr => ?fetchFails, fun hx hc hh => ⟨fun he => ?error, fun he hk hm => ?other, fun he hk => ?ending,
      fun he hk hm => ?mine⟩, fun hx hc hh hd => ⟨fun hr => ?dependence, fun y hr => ?dependenceFails⟩,
    fun hx hc h0 h1 hy hh => ⟨fun hr hz => ?starts, fun hr hz hn => ?skipped, fun y hr => ?predicateFails⟩,
    fun hn hh hr hl => ?watchdog⟩
  case words =>
    obtain ⟨hp, hn⟩ := State.blockPlaces_length hr
    exact s.blockWords_word hp hn j
  case block =>
    refine ⟨_, (exec_graphFetch s).trans (graphFetch_of_block hs hl hr (kind_eq block ▸ hk)), sameMemory_upd _ _,
      by rw [SameRegs, State.core_updWork]; rfl, ?_, by rw [State.core_updWork]; rfl, by rw [State.core_updWork]; rfl, ?_⟩
    · simp only [queue, State.core_updWork]
      have pushed := (vset_get s.core.work.queues 0 0 ((s.core.cmdq 0).push (s.fetchedNode bs) s.time)).trans (if_pos rfl)
      exact (congrArg CmdQ.nodes pushed :).trans (congrArg (fun y : CmdQ => y.nodes ++ [block]) (s.core.cmdq_fin 0))
    · rw [State.core_updWork, kind_eq]; rfl
  case jump =>
    refine ⟨_, (exec_graphFetch s).trans (graphFetch_of_jump hs hl hr (kind_eq block ▸ hk)), sameMemory_upd _ _, ?_⟩
    rw [State.core_updWork]
    exact congrArg (fun v => { w with cp := v }) (block.word_lt 15)
  case fetchFails =>
    refine ⟨_, (exec_graphFetch s).trans (graphFetch_of_error hs hl hr), ?_,
      by rw [State.core_signal, State.core_logEvent, State.core_updWork], State.signal_logEvent_msix ..⟩
    exact ((keepsAllBut_updWork (q := 0) s fun _ _ => rfl).trans
      ((keepsAllBut_logEvent ..).trans (keepsAllBut_signal ..))).1
  case error =>
    exact ⟨_, (exec_nodeHeadCheck q s).trans (headCheck_of_error hx hh hc he), holdNode_holds s q e⟩
  case other =>
    have popped := (s.popNode_queue q q).trans (if_pos rfl)
    refine ⟨_, (exec_nodeHeadCheck q s).trans (headCheck_of_other hx hh hc he (kind_eq n ▸ hk) hm),
      keepsAllBut_popNode s q, ?_, ?_⟩
    · simp only [queue, popped, CmdQ.pop, show s.core.work.queues[q].nodes = n :: ns from hx, List.tail_cons]
    · simp only [queue, popped, CmdQ.pop]
  case ending =>
    have popped := (s.popNode_queue q q).trans (if_pos rfl)
    refine ⟨_, (exec_nodeHeadCheck q s).trans (headCheck_of_end hx hh hc he (kind_eq n ▸ hk)),
      (keepsAllBut_popNode s q).trans (keepsAllBut_updWork _ fun _ _ => rfl), ?_, by rw [State.core_updWork]⟩
    simp only [queue, State.core_updWork, popped, CmdQ.pop, show s.core.work.queues[q].nodes = n :: ns from hx,
      List.tail_cons]
  case mine =>
    have checked := (s.updHead_queue q q fun h => { h with checked := true, dep0 := !n.dep0, dep1 := !n.dep1 }).trans
      (if_pos rfl)
    obtain ⟨hns, hck, hd0, hd1⟩ := State.settleHead_queue
      (s.updHead q fun h => { h with checked := true, dep0 := !n.dep0, dep1 := !n.dep1 }) q n
    rw [checked] at hns hck hd0 hd1
    exact ⟨_, (exec_nodeHeadCheck q s).trans (headCheck_of_mine hx hh hc he (kind_eq n ▸ hk) hm),
      (keepsAllBut_updHead s q _).trans (keepsAllBut_settleHead _ q n), hns, hck, hd0, hd1⟩
  case dependence =>
    rcases Nat.lt_or_ge (leNat bs) (n.depTgt second).toNat with hl | hl
    · exact ⟨s, (exec_dependenceRead q second s).trans (dependence_of_early hx hh hc hd hr hl), keepsAllBut_refl q s, rfl,
        fun h => absurd h (Nat.not_le.mpr hl), fun _ => rfl⟩
    · have met := (s.updHead_queue q q fun h => { h with dep0 := h.dep0 || !second, dep1 := h.dep1 || second }).trans
        (if_pos rfl)
      obtain ⟨hns, -, hd0, hd1⟩ := State.settleHead_queue
        (s.updHead q fun h => { h with dep0 := h.dep0 || !second, dep1 := h.dep1 || second }) q n
      rw [met] at hns hd0 hd1
      exact ⟨_, (exec_dependenceRead q second s).trans (dependence_of_met hx hh hc hd hr hl),
        (keepsAllBut_updHead s q _).trans (keepsAllBut_settleHead _ q n), hns, fun _ => ⟨hd0, hd1⟩,
        fun h => absurd hl (Nat.not_le.mpr h)⟩
  case dependenceFails =>
    exact ⟨_, (exec_dependenceRead q second s).trans (dependence_of_error hx hh hc hd hr), refused_holds s q y n.ctx⟩
  case starts =>
    have ready := (s.updHead_queue q q fun h => { h with ready := true }).trans (if_pos rfl)
    exact ⟨_, (exec_predicateRead q s).trans (predicate_of_nonzero hx hh hc h0 h1 hy hr hz), keepsAllBut_updHead s q _,
      (congrArg CmdQ.nodes ready :), (congrArg CmdQ.head ready :)⟩
  case skipped =>
    obtain ⟨kept, popped, posts, served⟩ := skip_node s q n hn
    refine ⟨_, _, (exec_predicateRead q s).trans (predicate_of_zero hx hh hc h0 h1 hy hr hz), kept, ?_, posts, rfl, rfl,
      served⟩
    simp only [queue, popped, CmdQ.pop, show s.core.work.queues[q].nodes = n :: ns from hx, List.tail_cons]
  case predicateFails =>
    exact ⟨_, (exec_predicateRead q s).trans (predicate_of_error hx hh hc h0 h1 hy hr), refused_holds s q y n.ctx⟩
  case watchdog =>
    have told := (s.updHead_queue q q fun h => { h with reported := true }).trans (if_pos rfl)
    exact ⟨_, (exec_nodeWatchdog q s).trans (nodeWatchdog_of_late hn hh hr hl),
      (keepsAllBut_updHead s q _).trans (keepsAllBut_signal ..), (congrArg CmdQ.nodes told :), (congrArg CmdQ.head told :), rfl⟩

end Sys2Proof.Machine
end

section
/-! SUPPORT. The stage balancer (R45): ratios, open stages and the choice; and the slots it picks. -/
namespace Sys2Proof.Machine

-- The occupancy ratio of a stage (R45).

theorem Staged.ratio_fst_le (x : Staged) (more : Bool) (st : Nat) : (x.ratio more st).1 ≤ (x.ratio more st).2 := by
  unfold Staged.ratio
  split
  · dsimp only; split <;> decide
  · exact List.length_filter_le ..

theorem stageRatio_eq (x : Staged) (more : Bool) (st : Nat) :
    StageRatio x more st = ((x.ratio more st).1 : ℚ) / (x.ratio more st).2 := by
  unfold StageRatio Staged.ratio
  split
  · cases more <;> simp
  · simp only [ringCount, ← List.countP_eq_length_filter]; rfl

theorem stageRatio_pos_iff (x : Staged) (more : Bool) (st : Nat) :
    0 < StageRatio x more st ↔ 0 < (x.ratio more st).1 := by
  rw [stageRatio_eq]
  constructor
  · intro h
    by_contra h0
    simp [Nat.eq_zero_of_not_pos h0] at h
  · intro h
    have h2 : 0 < (x.ratio more st).2 := Nat.lt_of_lt_of_le h (x.ratio_fst_le more st)
    exact div_pos (by exact_mod_cast h) (by exact_mod_cast h2)

theorem Staged.eligible_iff (x : Staged) {stages : Nat} (more : Bool) {st : Nat} (h : st < stages) :
    x.eligible stages more st = true ↔ StageOpen x stages more st := by
  simp only [Staged.eligible, Bool.and_eq_true, Bool.or_eq_true, decide_eq_true_eq, beq_iff_eq, List.contains_iff_mem,
    StageOpen, stageRatio_pos_iff, h, true_and]

/-- The comparison of two open stages by their fractions. -/
theorem StageOpen.ratio_lt_iff {x : Staged} {stages : Nat} {more : Bool} {b st : Nat} (hb : StageOpen x stages more b)
    (hs : StageOpen x stages more st) :
    (x.ratio more b).1 * (x.ratio more st).2 < (x.ratio more st).1 * (x.ratio more b).2 ↔
      StageRatio x more b < StageRatio x more st := by
  have pos {d : Nat} (hd : StageOpen x stages more d) : (0 : ℚ) < (x.ratio more d).2 := by
    have := Nat.lt_of_lt_of_le ((stageRatio_pos_iff x more d).mp hd.2.1) (x.ratio_fst_le more d)
    exact_mod_cast this
  rw [stageRatio_eq, stageRatio_eq, div_lt_div_iff₀ (pos hb) (pos hs)]
  exact_mod_cast Iff.rfl

-- The balancer's choice (R45).

/-- The first member of a rising list that passes a test is the lowest. -/
theorem find_rising {l : List Nat} (hl : l.Pairwise (· < ·)) {p : Nat → Bool} {a : Nat} (h : l.find? p = some a) :
    a ∈ l ∧ p a = true ∧ ∀ d ∈ l, d < a → p d = false := by
  obtain ⟨ha, as, bs, rfl, has⟩ := List.find?_eq_some_iff_append.mp h
  refine ⟨by simp, ha, fun d hd hlt => ?_⟩
  have after : ∀ d ∈ bs, a < d := (List.pairwise_cons.mp (List.pairwise_append.mp hl).2.1).1
  rcases List.mem_append.mp hd with hd | hd
  · simpa using has d hd
  · rcases List.mem_cons.mp hd with rfl | hd
    · exact absurd hlt (Nat.lt_irrefl _)
    · exact absurd hlt (Nat.lt_asymm (after d hd))

/-- b has the highest value among some numbers, and is the lowest of those that have it. -/
def IsBest (ρ : Nat → ℚ) (l : List Nat) (b : Nat) : Prop :=
  b ∈ l ∧ ∀ d ∈ l, ρ d < ρ b ∨ ρ d = ρ b ∧ b ≤ d

/-- A fold that goes over to every higher value ends at the best. -/
theorem foldl_isBest {ρ : Nat → ℚ} {f : Option Nat → Nat → Option Nat} {l : List Nat} {b : Nat}
    (hl : (b :: l).Pairwise (· < ·))
    (hf : ∀ b' ∈ b :: l, ∀ a ∈ b :: l, f (some b') a = if ρ b' < ρ a then some a else some b') :
    ∃ r, l.foldl f (some b) = some r ∧ IsBest ρ (b :: l) r := by
  induction l generalizing b with
  | nil => exact ⟨b, rfl, by simp, by simp⟩
  | cons a l ih =>
    obtain ⟨hba, hal⟩ := List.pairwise_cons.mp hl
    have hlt : b < a := hba a (by simp)
    rw [List.foldl_cons, hf b (by simp) a (by simp)]
    by_cases h : ρ b < ρ a
    · rw [if_pos h]
      obtain ⟨r, hr, hmem, hbest⟩ := ih hal fun b' hb' a' ha' => hf b' (by simp [hb']) a' (by simp [ha'])
      refine ⟨r, hr, List.mem_cons_of_mem _ hmem, fun d hd => ?_⟩
      rcases List.mem_cons.mp hd with rfl | hd
      · rcases hbest a (by simp) with k | ⟨k, -⟩
        · exact .inl (h.trans k)
        · exact .inl (k ▸ h)
      · exact hbest d hd
    · rw [if_neg h]
      have hbl : (b :: l).Pairwise (· < ·) :=
        List.pairwise_cons.mpr ⟨fun d hd => hba d (by simp [hd]), (List.pairwise_cons.mp hal).2⟩
      obtain ⟨r, hr, hmem, hbest⟩ := ih hbl fun b' hb' a' ha' =>
        hf b' (by rcases List.mem_cons.mp hb' with rfl | k <;> simp [*]) a'
          (by rcases List.mem_cons.mp ha' with rfl | k <;> simp [*])
      refine ⟨r, hr, by rcases List.mem_cons.mp hmem with rfl | k <;> simp [*], fun d hd => ?_⟩
      rcases List.mem_cons.mp hd with rfl | hd
      · exact hbest _ (by simp)
      rcases List.mem_cons.mp hd with rfl | hd
      · rcases hbest b (by simp) with k | ⟨k, hrb⟩
        · exact .inl (lt_of_le_of_lt (not_lt.mp h) k)
        · rcases lt_or_eq_of_le (not_lt.mp h) with h' | h'
          · exact .inl (k ▸ h')
          · exact .inr ⟨h'.trans k, Nat.le_of_lt (Nat.lt_of_le_of_lt hrb hlt)⟩
      · exact hbest d (by simp [hd])

/-- The open stages, rising. -/
def Staged.opens (x : Staged) (stages : Nat) (more : Bool) : List Nat :=
  (List.range stages).filter (x.eligible stages more)

theorem Staged.mem_opens (x : Staged) (stages : Nat) (more : Bool) (st : Nat) :
    st ∈ x.opens stages more ↔ StageOpen x stages more st := by
  rw [Staged.opens, List.mem_filter, List.mem_range]
  constructor
  · rintro ⟨h, he⟩
    exact (x.eligible_iff more h).mp he
  · intro h
    exact ⟨h.1, (x.eligible_iff more h.1).mpr h⟩

theorem Staged.opens_rising (x : Staged) (stages : Nat) (more : Bool) : (x.opens stages more).Pairwise (· < ·) :=
  List.pairwise_lt_range.sublist List.filter_sublist

theorem Staged.choose_cases (x : Staged) (stages : Nat) (more : Bool) :
    (x.choose stages more = none ∧ ∀ st, ¬ StageOpen x stages more st) ∨
      ∃ st, x.choose stages more = some st ∧ StageChoice x stages more st := by
  unfold Staged.choose
  dsimp only
  rw [show (List.range stages).filter (x.eligible stages more) = x.opens stages more from rfl]
  have rising := x.opens_rising stages more
  have mem := x.mem_opens stages more
  cases hf : (x.opens stages more).find? fun st => decide (64 ≤ x.passed.getD st 0) with
  | some st =>
    obtain ⟨hm, hp, hlow⟩ := find_rising rising hf
    refine .inr ⟨st, rfl, .inl ⟨⟨(mem st).mp hm, by simpa using hp⟩, fun d hd ⟨ho, h64⟩ => ?_⟩⟩
    exact of_decide_eq_false (hlow d ((mem d).mpr ho) hd) h64
  | none =>
    have young : ∀ d, ¬ (StageOpen x stages more d ∧ 64 ≤ x.passed.getD d 0) := fun d ⟨ho, h64⟩ =>
      List.find?_eq_none.mp hf d ((mem d).mpr ho) (decide_eq_true h64)
    cases hl : x.opens stages more with
    | nil => exact .inl ⟨rfl, fun st h => by simpa [hl] using (mem st).mpr h⟩
    | cons b l =>
      rw [hl] at rising mem
      obtain ⟨r, hr, hmem, hbest⟩ := foldl_isBest (ρ := StageRatio x more) (f := fun best st => match best with
        | none => some st
        | some b => if (x.ratio more b).1 * (x.ratio more st).2 < (x.ratio more st).1 * (x.ratio more b).2 then some st
          else some b) rising fun b' hb' a ha => by
            simp only [((mem b').mp hb').ratio_lt_iff ((mem a).mp ha)]
      exact .inr ⟨r, hr, .inr ⟨young, (mem r).mp hmem, fun d hd => hbest d ((mem d).mpr hd)⟩⟩

theorem StageChoice.isOpen {x : Staged} {stages : Nat} {more : Bool} {st : Nat} (h : StageChoice x stages more st) :
    StageOpen x stages more st := by
  rcases h with ⟨⟨ho, -⟩, -⟩ | ⟨-, ho, -⟩ <;> exact ho

theorem StageChoice.unique {x : Staged} {stages : Nat} {more : Bool} {a b : Nat} (ha : StageChoice x stages more a)
    (hb : StageChoice x stages more b) : a = b := by
  rcases ha with ⟨oa, la⟩ | ⟨na, pa, ba⟩ <;> rcases hb with ⟨ob, lb⟩ | ⟨nb, pb, bb⟩
  · exact Nat.le_antisymm (Nat.not_lt.mp fun h => la b h ob) (Nat.not_lt.mp fun h => lb a h oa)
  · exact absurd oa (nb a)
  · exact absurd ob (na b)
  · rcases ba b pb with h | ⟨h, hab⟩ <;> rcases bb a pa with k | ⟨k, hba⟩
    · exact absurd h (lt_asymm k)
    · exact absurd h (k ▸ lt_irrefl _)
    · exact absurd k (h ▸ lt_irrefl _)
    · exact Nat.le_antisymm hab hba

theorem Staged.choose_eq_some {x : Staged} {stages : Nat} {more : Bool} {st : Nat} (h : StageChoice x stages more st) :
    x.choose stages more = some st := by
  rcases x.choose_cases stages more with ⟨-, hn⟩ | ⟨y, hy, hc⟩
  · exact absurd h.isOpen (hn st)
  · rw [hy, hc.unique h]

theorem Staged.choose_eq_none {x : Staged} {stages : Nat} {more : Bool} (h : ∀ st, ¬ StageOpen x stages more st) :
    x.choose stages more = none := by
  rcases x.choose_cases stages more with ⟨hn, -⟩ | ⟨y, -, hc⟩
  · exact hn
  · exact absurd hc.isOpen (h y)

-- Records (R43, R45).

theorem Staged.setRec_ring (x : Staged) (st slot : Nat) (r : RecSt) (d : Nat) : (x.setRec st slot r).rings.getD d [] =
    if d = st then (x.rings.getD st []).set slot r else x.rings.getD d [] := by
  simp only [Staged.setRec, List.getD_eq_getElem?_getD, List.getElem?_set]
  by_cases hd : d = st
  · subst hd
    by_cases hl : d < x.rings.length
    · simp [hl]
    · simp [hl]
  · simp [hd, Ne.symm hd]

theorem pickSlot_some {r : List RecSt} {st : RecSt} {n i : Nat} (h : pickSlot r st n = some i) : r[i]? = some st := by
  have hm := List.mem_of_getElem? h
  obtain ⟨hi, hs⟩ := List.mem_filter.mp hm
  have hi := List.mem_range.mp hi
  rw [List.getElem?_eq_getElem hi]
  simpa [List.getD_eq_getElem?_getD, hi] using hs

theorem pickSlot_of_mem {r : List RecSt} {st : RecSt} (h : st ∈ r) (n : Nat) : ∃ i, pickSlot r st n = some i := by
  obtain ⟨j, hj, hst⟩ := List.getElem_of_mem h
  have found : j ∈ (List.range r.length).filter fun i => r.getD i .free == st :=
    List.mem_filter.mpr ⟨List.mem_range.mpr hj, by simp [List.getD_eq_getElem?_getD, hj, hst]⟩
  exact ⟨_, List.getElem?_eq_getElem (Nat.mod_lt _ (List.length_pos_of_mem found))⟩

end Sys2Proof.Machine
end

section
/-! SUPPORT. The records of a staged node (R43, R45) where an invocation ends, and where a core takes them. -/
namespace Sys2Proof.Machine

/-- A ring of a node once an invocation of it has ended (R43): its input slot is free, its output record valid. -/
def Staged.ringAfter (x : Staged) (p : Progress) (y : Nat) : List RecSt :=
  ((x.rings.getD y []).zipIdx).map fun z =>
    if y = p.stage ∧ p.inRec = some z.2 then .free else if y = p.stage + 1 ∧ p.outRec = some z.2 then .valid else z.1

theorem Staged.ringAfter_get (x : Staged) (p : Progress) (y j : Nat) : (x.ringAfter p y)[j]? =
    ((x.rings.getD y [])[j]?).map fun r => if y = p.stage ∧ p.inRec = some j then .free
      else if y = p.stage + 1 ∧ p.outRec = some j then .valid else r := by
  rw [Staged.ringAfter, List.getElem?_map, List.getElem?_zipIdx, Nat.zero_add]
  cases (x.rings.getD y [])[j]? <;> rfl

theorem getElem?_set_eq_map {α : Type} (l : List α) (i j : Nat) (a : α) :
    (l.set i a)[j]? = (l[j]?).map fun r => if i = j then a else r := by
  rw [List.getElem?_set]
  by_cases h : i = j
  · subst h
    by_cases hl : i < l.length
    · simp [hl]
    · simp [hl]
  · simp [h]

/-- A record of a stage and one of the next stage, where there are any, come to new states. -/
def Staged.setRecs (x : Staged) (st : Nat) (inp out : Option Nat) (a b : RecSt) : Staged :=
  let x2 := match inp with | some i => x.setRec st i a | none => x
  match out with | some i => x2.setRec (st + 1) i b | none => x2

theorem Staged.setRecs_eq (x : Staged) (st : Nat) (inp out : Option Nat) (a b : RecSt) :
    x.setRecs st inp out a b = { x with rings := (x.setRecs st inp out a b).rings } := by
  cases inp <;> cases out <;> rfl

theorem Staged.setRecs_length (x : Staged) (st : Nat) (inp out : Option Nat) (a b : RecSt) :
    (x.setRecs st inp out a b).rings.length = x.rings.length := by
  cases inp <;> cases out <;> simp [Staged.setRecs, Staged.setRec]

theorem Staged.setRecs_get (x : Staged) (st : Nat) (inp out : Option Nat) (a b : RecSt) (d j : Nat) :
    ((x.setRecs st inp out a b).rings.getD d [])[j]? = ((x.rings.getD d [])[j]?).map fun r =>
      if d = st ∧ inp = some j then a else if d = st + 1 ∧ out = some j then b else r := by
  have input : ((match inp with | some i => x.setRec st i a | none => x).rings.getD d [])[j]? =
      ((x.rings.getD d [])[j]?).map fun r => if d = st ∧ inp = some j then a else r := by
    cases inp with
    | none => simp
    | some i =>
      rw [Staged.setRec_ring]
      by_cases hd : d = st
      · subst hd; simp [getElem?_set_eq_map]
      · simp [hd]
  cases out with
  | none => simpa [Staged.setRecs] using input
  | some o =>
    unfold Staged.setRecs
    dsimp only
    rw [Staged.setRec_ring]
    by_cases hd : d = st + 1
    · subst hd
      rw [if_pos rfl, getElem?_set_eq_map, input]
      simp
    · simpa [hd] using input

theorem Staged.endRecords_eq (x : Staged) (p : Progress) :
    x.endRecords p = x.setRecs p.stage p.inRec p.outRec .free .valid := rfl

theorem Staged.endRecords_ring (x : Staged) (p : Progress) (y : Nat) :
    (x.endRecords p).rings.getD y [] = x.ringAfter p y := by
  apply List.ext_getElem?
  intro j
  rw [Staged.endRecords_eq, Staged.setRecs_get, Staged.ringAfter_get]

/-- The node with its records after the end of an invocation. -/
def Staged.after (x : Staged) (p : Progress) (stages : Nat) : Staged :=
  { x with rings := (List.range stages).map (x.ringAfter p) }

theorem Staged.endRecords_eq_after {x : Staged} {p : Progress} {stages : Nat} (h : x.rings.length = stages) :
    x.endRecords p = x.after p stages := by
  rw [Staged.endRecords_eq, Staged.setRecs_eq, Staged.after]
  congr 1
  apply List.ext_getElem
  · rw [Staged.setRecs_length, h, List.length_map, List.length_range]
  · intro y h1 h2
    have := x.endRecords_ring p y
    rw [Staged.endRecords_eq, List.getD_eq_getElem _ _ h1] at this
    rw [this, List.getElem_map, List.getElem_range]

/-- The records that the core takes for a stage of a node: one that is valid in, and one that is free out (R43, R45). -/
def Staged.Offers (x : Staged) (stages st : Nat) (inp out : Option Nat) : Prop :=
  (st = 0 → inp = none) ∧ (st ≠ 0 → ∃ i, inp = some i ∧ (x.rings.getD st [])[i]? = some .valid) ∧
  (st + 1 = stages → out = none) ∧
  (st + 1 < stages → ∃ i, out = some i ∧ (x.rings.getD (st + 1) [])[i]? = some .free)

/-- The node once they are taken. -/
def Staged.taken (x : Staged) (st : Nat) (inp out : Option Nat) : Staged := x.setRecs st inp out .inUse .reserved

/-- What the balancer's choice leaves of a node and gives to the core. -/
theorem State.chooseStage_of_choice {s : State} {p : Progress} {x : Staged} {k : Kernel} {st : Nat}
    (hs : s.stagedOf p.node = some x) (hk : s.kernels[p.kernel]? = some k)
    (hc : StageChoice x k.stages.length (decide (p.next < p.last)) st) (atEnd : Bool) :
    ∃ inp out, x.Offers k.stages.length st inp out ∧ s.chooseStage p atEnd =
      (s.draw.draw.updStaged s.die p.node fun _ =>
        (x.aged k.stages.length (decide (p.next < p.last)) atEnd (some st)).taken st inp out,
       some { p with stage := st, inRec := inp, outRec := out, chosen := true }) := by
  obtain ⟨hlt, hpos, hout⟩ := hc.isOpen
  unfold State.chooseStage
  simp only [hs, hk, Staged.choose_eq_some hc]
  refine ⟨_, _, ⟨?_, ?_, ?_, ?_⟩, rfl⟩
  · intro h; rw [if_pos h]
  · intro h
    have hv : .valid ∈ x.rings.getD st [] := by
      have := (stageRatio_pos_iff x _ st).mp hpos
      simp only [Staged.ratio, if_neg h, ringCount] at this
      obtain ⟨r, hr⟩ := List.exists_mem_of_length_pos this
      obtain ⟨hr, hv⟩ := List.mem_filter.mp hr
      rwa [eq_of_beq hv] at hr
    obtain ⟨i, hi⟩ := pickSlot_of_mem hv (if p.node.det || k.det then 0 else s.fresh)
    exact ⟨i, (if_neg h).trans hi, pickSlot_some hi⟩
  · intro h; rw [if_pos h]
  · intro h
    have hf := hout.resolve_left (Nat.ne_of_lt h)
    obtain ⟨i, hi⟩ := pickSlot_of_mem hf ((if p.node.det || k.det then 0 else s.fresh) + 1)
    exact ⟨i, (if_neg (Nat.ne_of_lt h)).trans hi, pickSlot_some hi⟩

theorem State.chooseStage_of_none {s : State} {p : Progress} {x : Staged} {k : Kernel}
    (hs : s.stagedOf p.node = some x) (hk : s.kernels[p.kernel]? = some k)
    (hn : ∀ st, ¬ StageOpen x k.stages.length (decide (p.next < p.last)) st) (atEnd : Bool) :
    s.chooseStage p atEnd =
      (s.updStaged s.die p.node fun _ => x.aged k.stages.length (decide (p.next < p.last)) atEnd none, none) := by
  simp only [State.chooseStage, hs, hk, Staged.choose_eq_none hn]

/-- The passed-over counts (R45). -/
theorem Staged.aged_passed (x : Staged) {stages d : Nat} (more atEnd : Bool) (ch : Option Nat) (hd : d < stages) :
    (x.aged stages more atEnd ch).passed.getD d 0 = if some d = ch then 0
      else x.passed.getD d 0 + if atEnd && x.eligible stages more d then 1 else 0 := by
  simp [Staged.aged, List.getD_eq_getElem?_getD, hd]

end Sys2Proof.Machine
end

section
/-! SUPPORT. The data of the unit pad, and the start of an invocation (R41, R74). -/
namespace Sys2Proof.Machine

-- The data of the unit pad, written before an invocation's first line (R74).

/-- t differs from s in memory, the log and the acting core's pending stores: the machine's work is as it was. -/
structure DataOnly (s t : State) : Prop where
  cur : t.cur = s.cur
  kernels : t.kernels = s.kernels
  staged : t.staged = s.staged
  others : ∀ j : Fin 128, j ≠ s.cur → t.cores[j] = s.cores[j]
  core : ∃ pend, t.core = { s.core with pend := pend }

theorem dataOnly_of_cores {s t : State} (cur : t.cur = s.cur) (kernels : t.kernels = s.kernels)
    (staged : t.staged = s.staged) (cores : t.cores = s.cores) : DataOnly s t :=
  ⟨cur, kernels, staged, fun j _ => by rw [cores], s.core.pend, by simp only [State.core, cores, cur]⟩

theorem DataOnly.trans {s t u : State} (h : DataOnly s t) (k : DataOnly t u) : DataOnly s u := by
  refine ⟨k.cur.trans h.cur, k.kernels.trans h.kernels, k.staged.trans h.staged, fun j hj => ?_, ?_⟩
  · rw [k.others j (h.cur ▸ hj), h.others j hj]
  · obtain ⟨_, hp⟩ := h.core
    obtain ⟨p, kp⟩ := k.core
    exact ⟨p, by rw [kp, hp]⟩

theorem dataOnly_perform (s : State) (l : Loc) (cs : List Host.Cell) : DataOnly s (s.perform l cs) := by
  cases l <;> exact dataOnly_of_cores rfl rfl rfl rfl

theorem State.performWhere_kernels (s : State) (which : Pending → Bool) : (s.performWhere which).kernels = s.kernels := by
  rw [State.performWhere_eq]; exact foldl_performOne_keeps State.kernels (fun s p => (dataOnly_perform s _ _).kernels) _ _

theorem State.performWhere_staged (s : State) (which : Pending → Bool) : (s.performWhere which).staged = s.staged := by
  rw [State.performWhere_eq]; exact foldl_performOne_keeps State.staged (fun s p => (dataOnly_perform s _ _).staged) _ _

theorem dataOnly_performWhere (s : State) (which : Pending → Bool) : DataOnly s (s.performWhere which) :=
  ⟨s.performWhere_cur which, s.performWhere_kernels which, s.performWhere_staged which, s.performWhere_other which,
   _, s.performWhere_core which⟩

/-- No granule of a place is bad: then none is once bytes have been performed anywhere. -/
theorem State.bad_perform {s : State} {l : Loc} (h : (s.padAt l).bad = []) (l' : Loc) (cs : List Host.Cell) :
    ((s.perform l' cs).padAt l).bad = [] := by
  rw [State.perform, State.padAt_revive, State.padAt_setPad]
  split
  · rename_i k
    obtain ⟨rfl, -⟩ := k
    simp [Pad.put, h]
  · exact h

theorem State.bad_performWhere {s : State} {l : Loc} (h : (s.padAt l).bad = []) (which : Pending → Bool) :
    ((s.performWhere which).padAt l).bad = [] := by
  have fold (ps : List Pending) (t : State) (ht : (t.padAt l).bad = []) :
      ((ps.foldl State.performOne t).padAt l).bad = [] := by
    induction ps generalizing t with
    | nil => exact ht
    | cons p ps ih =>
      have one : ((t.performOne p).padAt l).bad = [] := by
        have := State.bad_perform ht p.loc p.cells
        cases l <;> exact this
      exact ih _ one
  rw [State.performWhere_eq]
  have := fold (s.core.pend.filter which) s h
  cases l <;> exact this

/-- A checked write performs bytes of its own, and perhaps logs. -/
theorem State.writeChecked_eq (s : State) (l : Loc) (cells : List Host.Cell) (logged : State → Nat → State) :
    ∃ cs, (∀ c ∈ cs, c ∈ cells) ∧ ((s.writeChecked l cells logged = s.perform l cs) ∨
      ∃ a, s.writeChecked l cells logged = logged (s.perform l cs) a) := by
  unfold State.writeChecked
  dsimp only
  split
  · exact ⟨cells, fun _ h => h, .inl rfl⟩
  · exact ⟨_, fun _ h => (List.mem_filter.mp h).1, .inr ⟨_, rfl⟩⟩

theorem State.writeChecked_of_clean {s : State} {l : Loc} (h : (s.padAt l).bad = []) (cells : List Host.Cell)
    (logged : State → Nat → State) : s.writeChecked l cells logged = s.perform l cells := by
  have none_bad (a : Nat) : (smapGet (s.padAt l).bad (a / l.granule)).isSome = false := by rw [h]; rfl
  have none_found (p : Nat → Bool) (as : List Nat) : as.find? (fun a => false && p a) = none :=
    List.find?_eq_none.mpr (by simp)
  simp only [State.writeChecked, none_bad, none_found]

theorem readByte_cellsFrom (m : Memory) {a i : Nat} {bs : List Byte} {b : Byte} (h : bs[i]? = some b) :
    readByte (writeCells m (cellsFrom a bs)) (a + i) = b := by
  induction bs generalizing a i m with
  | nil => simp at h
  | cons b' bs ih =>
    rw [cellsFrom, writeCells_cons]
    cases i with
    | zero =>
      obtain rfl : b' = b := by simpa using h
      rw [readByte_writeCells_other _ _ _ fun c hc e => by have := (mem_cellsFrom hc).1; omega,
        readByte_writeByte]
      exact if_pos rfl
    | succ i =>
      have := ih (writeByte m a b') (a := a + 1) (i := i) (by simpa using h)
      rwa [Nat.add_assoc, Nat.add_comm 1 i] at this

/-- One run of a kernel's data is written. -/
def State.writeData (ctx : Nat) (s : State) (d : Nat × List Byte) : State :=
  s.writeChecked (.u s.cur) (cellsFrom d.1 d.2) fun s a => s.logEvent 3 3 (BitVec.ofNat 64 a) a ctx .cc

/-- The bytes of a run of data. -/
def dataBytes (d : Nat × List Byte) : List Nat := (List.range d.2.length).map (d.1 + ·)

theorem mem_dataBytes {d : Nat × List Byte} {a : Nat} : a ∈ dataBytes d ↔ d.1 ≤ a ∧ a < d.1 + d.2.length := by
  simp only [dataBytes, List.mem_map, List.mem_range]
  constructor
  · rintro ⟨i, hi, rfl⟩; omega
  · intro h; exact ⟨a - d.1, by omega, by omega⟩

theorem dataOnly_writeData (ctx : Nat) (s : State) (d : Nat × List Byte) : DataOnly s (s.writeData ctx d) := by
  obtain ⟨cs, -, h | ⟨a, h⟩⟩ := s.writeChecked_eq (.u s.cur) (cellsFrom d.1 d.2) fun s a =>
    s.logEvent 3 3 (BitVec.ofNat 64 a) a ctx .cc
  · rw [State.writeData, h]; exact dataOnly_perform ..
  · rw [State.writeData, h]; exact (dataOnly_perform s (.u s.cur) cs).trans (dataOnly_of_cores rfl rfl rfl rfl)

theorem State.writeData_other (ctx : Nat) (s : State) (d : Nat × List Byte) {l : Loc} {a : Nat}
    (h : ¬ (l = .u s.cur ∧ a ∈ dataBytes d)) : (s.writeData ctx d).byteAt l a = s.byteAt l a := by
  obtain ⟨cs, hcs, e⟩ := s.writeChecked_eq (.u s.cur) (cellsFrom d.1 d.2) fun s a =>
    s.logEvent 3 3 (BitVec.ofNat 64 a) a ctx .cc
  have same : (s.writeData ctx d).byteAt l a = (s.perform (.u s.cur) cs).byteAt l a := by
    rcases e with e | ⟨_, e⟩
    · rw [State.writeData, e]
    · rw [State.writeData, e]; cases l <;> rfl
  rw [same]
  refine s.byteAt_perform_other _ _ _ _ ?_
  by_cases hl : l = .u s.cur
  · exact .inr fun c hc e => h ⟨hl, mem_dataBytes.mpr (e ▸ mem_cellsFrom (hcs c hc))⟩
  · exact .inl hl

theorem State.writeData_of_clean {ctx : Nat} {s : State} {d : Nat × List Byte} (h : (s.padAt (.u s.cur)).bad = []) :
    ((s.writeData ctx d).padAt (.u s.cur)).bad = [] ∧
      ∀ i b, d.2[i]? = some b → (s.writeData ctx d).byteAt (.u s.cur) (d.1 + i) = b := by
  rw [State.writeData, State.writeChecked_of_clean h]
  refine ⟨State.bad_perform h .., fun i b hb => ?_⟩
  rw [State.byteAt_perform, if_pos ⟨rfl, by simp [Loc.valid]⟩]
  exact readByte_cellsFrom _ hb

/-- All the data of a kernel are written, where l is the list of its runs. -/
def State.writeAll (ctx : Nat) (s : State) (l : List (Nat × List Byte)) : State := l.foldl (State.writeData ctx) s

theorem dataOnly_writeAll (ctx : Nat) (s : State) (l : List (Nat × List Byte)) : DataOnly s (s.writeAll ctx l) := by
  induction l generalizing s with
  | nil => exact dataOnly_of_cores rfl rfl rfl rfl
  | cons d l ih => exact (dataOnly_writeData ctx s d).trans (ih _)

theorem State.writeAll_other (ctx : Nat) (s : State) (l : List (Nat × List Byte)) {loc : Loc} {a : Nat}
    (h : ¬ (loc = .u s.cur ∧ ∃ d ∈ l, a ∈ dataBytes d)) : (s.writeAll ctx l).byteAt loc a = s.byteAt loc a := by
  induction l generalizing s with
  | nil => rfl
  | cons d l ih =>
    have hc := (dataOnly_writeData ctx s d).cur
    have rest := ih (s.writeData ctx d) (by rw [hc]; exact fun ⟨e, d', hd, ha⟩ => h ⟨e, d', List.mem_cons_of_mem _ hd, ha⟩)
    exact rest.trans (s.writeData_other ctx d fun ⟨e, ha⟩ => h ⟨e, d, List.mem_cons_self, ha⟩)

/-- A byte that one run alone covers has its value from that run, once it is written. -/
theorem State.writeAll_of_clean {ctx : Nat} {s : State} {l : List (Nat × List Byte)}
    (h : (s.padAt (.u s.cur)).bad = []) {d : Nat × List Byte} {i : Nat} {b : Byte} (hb : d.2[i]? = some b)
    (alone : ∀ z ∈ l, d.1 + i ∈ dataBytes z → z = d) (hd : d ∈ l ∨ s.byteAt (.u s.cur) (d.1 + i) = b) :
    (s.writeAll ctx l).byteAt (.u s.cur) (d.1 + i) = b := by
  induction l generalizing s with
  | nil => exact hd.resolve_left (by simp)
  | cons z l ih =>
    have hc := (dataOnly_writeData ctx s z).cur
    obtain ⟨clean, written⟩ := State.writeData_of_clean (ctx := ctx) (d := z) h
    have rest := ih (s := s.writeData ctx z) (by rw [hc]; exact clean) fun y hy => alone y (List.mem_cons_of_mem _ hy)
    rw [hc] at rest
    refine rest ?_
    by_cases hz : z = d
    · exact .inr (by rw [hz] at written ⊢; exact written i b hb)
    · rcases hd with hd | hd
      · exact .inl ((List.mem_cons.mp hd).resolve_left (Ne.symm hz))
      · refine .inr ((s.writeData_other ctx z fun ⟨_, ha⟩ => hz ?_).trans hd)
        exact alone z List.mem_cons_self ha

/-- The state in which an invocation of a kernel finds its data. -/
def State.loaded (s : State) (k : Kernel) (ctx : Nat) : State :=
  (s.performWhere (s.core.upTo fun x => x.loc == .u s.cur)).writeAll ctx k.dataU

theorem dataOnly_loaded (s : State) (k : Kernel) (ctx : Nat) : DataOnly s (s.loaded k ctx) :=
  (dataOnly_performWhere s _).trans (dataOnly_writeAll ..)

theorem settledBut_loaded (s : State) (k : Kernel) (ctx : Nat) :
    SettledBut s (s.loaded k ctx) (.u s.cur) (k.dataU.map dataBytes).flatten := by
  intro l a h
  have cur := s.performWhere_cur (s.core.upTo fun x => x.loc == .u s.cur)
  rw [State.loaded, State.writeAll_other]
  · exact s.performWhere_byteAt _ l a
  · rw [cur]
    rintro ⟨e, d, hd, ha⟩
    exact h ⟨e, List.mem_flatten.mpr ⟨_, List.mem_map_of_mem hd, ha⟩⟩

theorem State.loaded_byte {s : State} (h : (s.padAt (.u s.cur)).bad = []) {k : Kernel} (ctx : Nat) {d : Nat × List Byte}
    (hd : d ∈ k.dataU) {i : Nat} {b : Byte} (hb : d.2[i]? = some b)
    (alone : ∀ z ∈ k.dataU, d.1 + i ∈ dataBytes z → z = d) :
    (s.loaded k ctx).byteAt (.u s.cur) (d.1 + i) = b := by
  have cur := s.performWhere_cur (s.core.upTo fun x => x.loc == .u s.cur)
  have := State.writeAll_of_clean (ctx := ctx) (l := k.dataU)
    (s := s.performWhere (s.core.upTo fun x => x.loc == .u s.cur)) (by rw [cur]; exact State.bad_performWhere h _)
    hb alone (.inl hd)
  rwa [cur] at this

-- The start of an invocation (R41).

/-- The work identifier of an invocation: of its slice, or the first word of its input record (R34, R43). -/
def State.widOf (s : State) (k : Kernel) (p : Progress) : Word :=
  if p.stage = 0 then p.node.wid k.widths p.next
  else BitVec.ofNat 64 (leNat (readBytes (s.padAt (.d s.die)).mem (k.record p.stage p.inRec).toNat 8))

/-- The progress of a core in its node once an invocation has begun: stage 0 takes a slice. -/
def Progress.begun (p : Progress) : Progress := { p with next := if p.stage = 0 then p.next + 1 else p.next }

theorem State.beginInvocation_eq {s : State} {p : Progress} {k : Kernel} (hk : s.kernels[p.kernel]? = some k) :
    s.beginInvocation p = (s.loaded k p.node.ctx.val).upd fun c => c.beginInvocation k p.begun (s.widOf k p) := by
  unfold State.beginInvocation
  rw [hk]
  rfl

/-- What the start of an invocation does to the core that starts it, and that it leaves the rest of the work alone. -/
theorem State.beginInvocation_core {s : State} {p : Progress} {k : Kernel} (hk : s.kernels[p.kernel]? = some k) :
    ∃ pend, (s.beginInvocation p).core =
      { s.core with pend := pend }.beginInvocation k p.begun (s.widOf k p) := by
  obtain ⟨pend, hp⟩ := (dataOnly_loaded s k p.node.ctx.val).core
  exact ⟨pend, by rw [State.beginInvocation_eq hk, State.core_upd, hp]⟩

theorem State.beginInvocation_staged {s : State} {p : Progress} {k : Kernel} (hk : s.kernels[p.kernel]? = some k) :
    (s.beginInvocation p).staged = s.staged := by
  rw [State.beginInvocation_eq hk]; exact (dataOnly_loaded s k _).staged

theorem State.beginInvocation_byteAt {s : State} {p : Progress} {k : Kernel} (hk : s.kernels[p.kernel]? = some k)
    (l : Loc) (a : Nat) : (s.beginInvocation p).byteAt l a = (s.loaded k p.node.ctx.val).byteAt l a := by
  rw [State.beginInvocation_eq hk]; cases l <;> rfl

end Sys2Proof.Machine
end

section
/-! SUPPORT. What a core finds at the start of an invocation, and the start of a staged node (R34, R41, R44, R45). -/
namespace Sys2Proof.Machine

theorem exec_invocationStart (s : State) : exec .invocationStart s = execInvocationStart s := rfl

-- Going on with a node (R34, R45).

theorem Kernel.staged_iff (k : Kernel) : k.staged = true ↔ 2 ≤ k.stages.length := decide_eq_true_iff

theorem Kernel.not_staged {k : Kernel} {st : StageInfo} (h : k.stages = [st]) : k.staged = false := by
  simp [Kernel.staged, h]

theorem State.goOn_of_chosen {s : State} {p : Progress} {k : Kernel} (hk : s.kernels[p.kernel]? = some k)
    (hs : k.staged = true) (hc : p.chosen = true) : s.goOn p = some (s.beginInvocation p) := by
  unfold State.goOn
  rw [hk]
  simp [hs, hc]

theorem State.goOn_of_choice {s u : State} {p p' : Progress} {k : Kernel} (hk : s.kernels[p.kernel]? = some k)
    (hs : k.staged = true) (hc : p.chosen = false) (h : s.chooseStage p false = (u, some p')) :
    s.goOn p = some (u.beginInvocation p') := by
  unfold State.goOn
  rw [hk]
  simp [hs, hc, h]

theorem State.goOn_of_none {s u : State} {p : Progress} {k : Kernel} (hk : s.kernels[p.kernel]? = some k)
    (hs : k.staged = true) (hc : p.chosen = false) (h : s.chooseStage p false = (u, none)) : s.goOn p = none := by
  unfold State.goOn
  rw [hk]
  simp [hs, hc, h]

/-- An idle core with a node goes on with it, or waits. -/
theorem execInvocationStart_of_node {s : State} {p : Progress} (hr : s.core.work.run = .idle)
    (hs : s.core.work.stopped = false) (hp : s.core.work.cur = some p) :
    execInvocationStart s = .next ((s.goOn p).getD s) := by
  simp only [execInvocationStart, hr, hs, hp]
  cases s.goOn p <;> simp

-- The head that starts (R34, R36).

/-- An idle core starts node n, of kernel k, at the head of queue q. -/
structure StartsNode (s : State) (q : Nat) (n : Node) (ki : Nat) (k : Kernel) : Prop where
  idle : s.core.work.run = .idle
  runs : s.core.work.stopped = false
  calm : s.core.work.preempt = none
  free : s.core.work.cur = none
  queue : s.nextQueue = some q
  head : ∃ ns, (s.core.cmdq q).nodes = n :: ns
  launch : n.kind = 1
  due : (s.core.cmdq q).head.readyAt.toNat ≤ s.time.toNat
  named : s.kernelOf n = some ki
  kernel : s.kernels[ki]? = some k

theorem StartsNode.exec_eq {s : State} {q : Nat} {n : Node} {ki : Nat} {k : Kernel} (h : StartsNode s q n ki k) :
    execInvocationStart s = .next (s.startNode q n ki k) := by
  obtain ⟨ns, hn⟩ := h.head
  simp only [execInvocationStart, h.idle, h.runs, h.calm, h.free, h.queue, hn, h.launch, h.named, h.kernel]
  simp [h.due]

/-- The progress of a core that has not begun its share of a node. -/
def State.share (s : State) (q : Nat) (n : Node) (ki : Nat) : Progress :=
  { q := Fin.ofNat 4 q, node := n, seq := (s.core.cmdq q).seq, kernel := ki, j := n.rank s.cur, p := n.partCount
    next := shareStart (n.rank s.cur) n.partCount n.slices, last := shareEnd (n.rank s.cur) n.partCount n.slices
    carry := Vector.replicate 3 0, stage := 0, inRec := none, outRec := none, running := false, chosen := false }

theorem State.startNode_plain {s : State} {q : Nat} {n : Node} {ki : Nat} {k : Kernel} (hk : k.staged = false)
    (hne : shareStart (n.rank s.cur) n.partCount n.slices ≠ shareEnd (n.rank s.cur) n.partCount n.slices) :
    s.startNode q n ki k = s.beginInvocation (s.share q n ki) := by
  simp only [State.startNode, hk, if_neg hne]
  rfl

-- What a core finds at the start (R41).

section
variable (c : Core) (k : Kernel) (p : Progress) (wid : Word)

theorem Core.begin_tok (e f : Eng) : (c.beginInvocation k p wid).eng.tok e f = 0 := vget_replicate ..

theorem Core.begin_queue (e : Eng) : ((c.beginInvocation k p wid).queue e).entries = [] := by
  rw [Core.queue]
  exact congrArg EngQ.entries (vget_replicate 6 e.num EngQ.empty)

theorem Core.begin_slot {j : Nat} (hj : j < 64) : ((c.beginInvocation k p wid).me.slot j).st = .free ∧
    ((c.beginInvocation k p wid).me.slot j).bind = none := by
  rw [Matrix.slot, vget_lt _ _ _ hj]
  simp [Core.beginInvocation]

theorem Core.begin_tag (j : Nat) : (c.beginInvocation k p wid).me.tag j = AccTag.reset := vget_replicate ..

theorem Core.begin_regs : (c.beginInvocation k p wid).regs.n = vgen 16 fun i =>
    if i = 0 then p.node.img[13] else if i = 1 then p.node.img[14] else if i = 2 then k.record p.stage p.inRec
    else if i = 3 then k.record (p.stage + 1) p.outRec else if i = 4 then BitVec.ofNat 64 p.stage
    else if 12 ≤ i then vget p.carry (i - 12) 0 else 0 := by
  have w13 : p.node.word 13 = p.node.img[13] := p.node.word_lt 13
  have w14 : p.node.word 14 = p.node.img[14] := p.node.word_lt 14
  rw [← w13, ← w14]
  rfl

theorem Core.begin_reg_lt {i : Nat} (h2 : 1 < i) (h5 : i < 5) : (c.beginInvocation k p wid).regs.n[i]'(by omega) =
    if i = 2 then k.record p.stage p.inRec else if i = 3 then k.record (p.stage + 1) p.outRec
    else BitVec.ofNat 64 p.stage := by
  simp only [Core.begin_regs, vgen_get]
  rw [if_neg (by omega), if_neg (by omega)]
  split
  · rfl
  · split
    · rfl
    · rw [if_pos (by omega)]

theorem Core.begin_line {st : StageInfo} (h : k.stages[p.stage]? = some st) :
    (c.beginInvocation k p wid).fetch.line = k.base + st.entry := by
  simp [Core.beginInvocation, List.getD_eq_getElem?_getD, h]

end

theorem Kernel.record_none (k : Kernel) (y : Nat) : k.record y none = 0 := rfl

/-- The registers at the first slice of a node. -/
theorem State.share_regs (s : State) (q : Nat) (n : Node) (ki : Nat) (c : Core) (k : Kernel) (wid : Word) :
    (c.beginInvocation k (s.share q n ki).begun wid).regs.n =
      vgen 16 fun i => if i = 0 then n.img[13] else if i = 1 then n.img[14] else 0 := by
  rw [Core.begin_regs]
  congr 1
  funext i
  simp [State.share, Progress.begun, Kernel.record_none, vget_replicate]

-- A staged node's start (R44, R45).

/-- A new record of a staged node, with its rings. -/
def State.newStaged (s : State) (n : Node) (ki : Nat) (k : Kernel) : Staged :=
  { die := s.die, kernel := ki, launch := n.launch, index := n.index
    owner := if n.launch = 0 then some s.cur.val else none, img := n.img
    rings := k.stages.zipIdx.map fun g => if g.2 = 0 then [] else List.replicate g.1.depth .free
    passed := List.replicate k.stages.length 0, left := [], cut := [], ended := false }

section
variable {s : State} {n : Node} {ki : Nat} {k : Kernel}

theorem State.newStaged_isFor : (s.newStaged n ki k).isFor s.die n = true := by
  simp [State.newStaged, Staged.isFor]

theorem State.newStaged_ring {y : Nat} {g : StageInfo} (hy : y ≠ 0) (hg : k.stages[y]? = some g) :
    (s.newStaged n ki k).rings.getD y [] = List.replicate g.depth .free := by
  simp [State.newStaged, List.getD_eq_getElem?_getD, hg, hy]

theorem State.newStaged_no_valid (y : Nat) : ((s.newStaged n ki k).rings.getD y []).count .valid = 0 := by
  cases hg : k.stages[y]? with
  | none => simp [State.newStaged, List.getD_eq_getElem?_getD, hg]
  | some g =>
    by_cases hy : y = 0
    · subst hy; simp [State.newStaged, List.getD_eq_getElem?_getD, hg]
    · rw [State.newStaged_ring hy hg]; simp [List.count_replicate]

/-- At a new node stage 0 is chosen, where its output ring has a slot. -/
theorem State.newStaged_choice (h2 : 2 ≤ k.stages.length)
    (hd : (k.stages[1]?.map StageInfo.depth).getD 0 ≠ 0) :
    StageChoice (s.newStaged n ki k) k.stages.length true 0 := by
  obtain ⟨g, hg⟩ : ∃ g, k.stages[1]? = some g := ⟨_, List.getElem?_eq_getElem h2⟩
  have hdepth : g.depth ≠ 0 := by simpa [hg] using hd
  have young (d : Nat) : (s.newStaged n ki k).passed.getD d 0 = 0 := by
    simp [State.newStaged, List.getD_eq_getElem?_getD, List.getElem?_replicate]
    split <;> rfl
  have first : StageOpen (s.newStaged n ki k) k.stages.length true 0 := by
    refine ⟨by omega, by simp [StageRatio], .inr ?_⟩
    rw [State.newStaged_ring (by decide) hg]
    exact List.mem_replicate.mpr ⟨hdepth, rfl⟩
  refine .inr ⟨fun d h => by have := h.2; rw [young] at this; omega, first, fun d h => ?_⟩
  by_cases h0 : d = 0
  · exact .inr ⟨by rw [h0], Nat.zero_le _⟩
  · have := h.2.1
    rw [StageRatio, if_neg h0, State.newStaged_no_valid] at this
    simp at this

/-- The state once the node's record stands with its rings. -/
theorem State.ensureStaged_new (hs : s.staged = []) (hn : s.kernelOf n = some ki) (hk : s.kernels[ki]? = some k)
    (h2 : k.staged = true) : (s.ensureStaged n s.cur).updStaged s.die n (fun x =>
      if x.rings.isEmpty then
        { x with
          rings := k.stages.zipIdx.map fun g => if g.2 = 0 then [] else List.replicate g.1.depth .free,
          passed := List.replicate k.stages.length 0 }
      else x) = { s with staged := [s.newStaged n ki k] } := by
  have new : s.ensureStaged n s.cur = { s with staged := [{ s.newStaged n ki k with rings := [], passed := [] }] } := by
    simp [State.ensureStaged, hn, hk, h2, hs, State.newStaged, State.die]
  rw [new]
  have named : ({ s.newStaged n ki k with rings := [], passed := [] } : Staged).isFor s.die n = true :=
    State.newStaged_isFor (ki := ki) (k := k)
  simp only [State.updStaged, List.map_cons, List.map_nil, named, if_true]
  rfl

end

theorem State.endStaged_eq_self {s : State} {die : Nat} (h : ∀ x ∈ s.staged, s.stagedDone x = false) :
    s.endStaged die = s := by
  have none_due : s.staged.filter (fun x => x.die == die && s.stagedDone x) = [] :=
    List.filter_eq_nil_iff.mpr fun x hx => by simp [h x hx]
  simp only [State.endStaged, none_due, List.foldl_nil]

/-- A node with a record that is not free has not ended. -/
theorem State.stagedDone_of_record {s : State} {x : Staged} {y i : Nat} {r : RecSt}
    (h : (x.rings.getD y [])[i]? = some r) (hr : r ≠ .free) : s.stagedDone x = false := by
  have hy : y < x.rings.length := by
    by_contra hy
    simp [List.getD_eq_getElem?_getD, Nat.not_lt.mp hy] at h
  have ring : x.rings.getD y [] ∈ x.rings := by simp [List.getD_eq_getElem?_getD, hy]
  have some_used : (x.rings.all fun r => r.all (· == .free)) = false := by
    rw [Bool.eq_false_iff]
    intro all
    have := List.all_eq_true.mp (List.all_eq_true.mp all _ ring) r (List.mem_of_getElem? h)
    exact hr (eq_of_beq this)
  simp [State.stagedDone, some_used]

theorem State.updStaged_single {s : State} {x : Staged} {die : Nat} {n : Node} (hs : s.staged = [x])
    (hx : x.isFor die n = true) (f : Staged → Staged) : s.updStaged die n f = { s with staged := [f x] } := by
  simp [State.updStaged, hs, hx]

theorem State.stagedOf_single {s : State} {x : Staged} {n : Node} (hs : s.staged = [x])
    (hx : x.isFor s.die n = true) : s.stagedOf n = some x := by
  simp [State.stagedOf, hs, hx]

/-- The staged node of a die once the balancer has chosen a stage of it and taken its records. -/
def Staged.chosen (x : Staged) (stages : Nat) (more atEnd : Bool) (st : Nat) (inp out : Option Nat) : Staged :=
  (x.aged stages more atEnd (some st)).taken st inp out

theorem Staged.chosen_get (x : Staged) (stages : Nat) (more atEnd : Bool) (st : Nat) (inp out : Option Nat) (d j : Nat) :
    ((x.chosen stages more atEnd st inp out).rings.getD d [])[j]? = ((x.rings.getD d [])[j]?).map fun r =>
      if d = st ∧ inp = some j then .inUse else if d = st + 1 ∧ out = some j then .reserved else r :=
  Staged.setRecs_get ..

theorem Staged.chosen_eq (x : Staged) (stages : Nat) (more atEnd : Bool) (st : Nat) (inp out : Option Nat) :
    x.chosen stages more atEnd st inp out = { x.aged stages more atEnd (some st) with
      rings := (x.chosen stages more atEnd st inp out).rings } := Staged.setRecs_eq ..

/-- A staged node of whose records one has just been taken has not ended. -/
theorem Staged.chosen_not_done {x : Staged} {stages st : Nat} {more atEnd : Bool} {inp out : Option Nat} (s : State)
    (h2 : 2 ≤ stages) (hst : st < stages) (ho : x.Offers stages st inp out) :
    s.stagedDone (x.chosen stages more atEnd st inp out) = false := by
  obtain ⟨-, hin, -, hout⟩ := ho
  by_cases h0 : st = 0
  · obtain ⟨i, rfl, hi⟩ := hout (by omega)
    exact State.stagedDone_of_record (y := st + 1) (i := i) (r := .reserved)
      (by rw [Staged.chosen_get, hi]; simp) (by decide)
  · obtain ⟨i, rfl, hi⟩ := hin h0
    exact State.stagedDone_of_record (y := st) (i := i) (r := .inUse)
      (by rw [Staged.chosen_get, hi]; simp) (by decide)

/-- The balancer's choice, where the die has one staged node. -/
theorem State.chooseStage_single {s : State} {p : Progress} {x : Staged} {k : Kernel} {st : Nat}
    (hs : s.staged = [x]) (hx : x.isFor s.die p.node = true) (hk : s.kernels[p.kernel]? = some k)
    (hc : StageChoice x k.stages.length (decide (p.next < p.last)) st) (atEnd : Bool) :
    ∃ inp out, x.Offers k.stages.length st inp out ∧ s.chooseStage p atEnd =
      ({ s.draw.draw with
          staged := [x.chosen k.stages.length (decide (p.next < p.last)) atEnd st inp out] },
       some { p with stage := st, inRec := inp, outRec := out, chosen := true }) := by
  obtain ⟨inp, out, ho, h⟩ := State.chooseStage_of_choice (State.stagedOf_single hs hx) hk hc atEnd
  exact ⟨inp, out, ho, by rw [h, State.updStaged_single (s := s.draw.draw) hs hx]; rfl⟩

/-- A staged node's start: the core chooses stage 0, and with it an output record. -/
theorem State.startNode_staged {s : State} (q : Nat) {n : Node} {ki : Nat} {k : Kernel} (hs : s.staged = [])
    (hn : s.kernelOf n = some ki) (hk : s.kernels[ki]? = some k) (h2 : 2 ≤ k.stages.length)
    (hd : (k.stages[1]?.map StageInfo.depth).getD 0 ≠ 0)
    (hlt : shareStart (n.rank s.cur) n.partCount n.slices < shareEnd (n.rank s.cur) n.partCount n.slices) :
    ∃ (u : State) (i : Nat), ((s.newStaged n ki k).rings.getD 1 [])[i]? = some .free ∧
      s.startNode q n ki k = u.beginInvocation { s.share q n ki with outRec := some i, chosen := true } ∧
      u.kernels = s.kernels ∧
      u.staged = [(s.newStaged n ki k).chosen k.stages.length true false 0 none (some i)] := by
  have hk2 : k.staged = true := k.staged_iff.mpr h2
  let s1 : State := ({ s with staged := [s.newStaged n ki k] } : State).updWork fun w =>
    { w with served := Fin.ofNat 4 q, cur := some (s.share q n ki) }
  have more : decide ((s.share q n ki).next < (s.share q n ki).last) = true := decide_eq_true hlt
  obtain ⟨inp, out, ho, choice⟩ := State.chooseStage_single (s := s1) (p := s.share q n ki) rfl
    State.newStaged_isFor hk (by rw [more]; exact State.newStaged_choice h2 hd) false
  have not_done (t : State) := Staged.chosen_not_done (more := true) (atEnd := false) t h2 (by omega) ho
  rw [more] at choice
  obtain ⟨i, rfl, hi⟩ := ho.2.2.2 (by omega)
  obtain rfl := ho.1 rfl
  have goes := State.goOn_of_choice (s := s1) (p := s.share q n ki) hk hk2 rfl choice
  have start : s.startNode q n ki k = ((s1.goOn (s.share q n ki)).getD s1).endStaged s.die := by
    have found : ({ s with staged := [s.newStaged n ki k] } : State).stagedOf n = some (s.newStaged n ki k) :=
      State.stagedOf_single rfl State.newStaged_isFor
    simp only [State.startNode, hk2, State.ensureStaged_new hs hn hk hk2, found]
    rfl
  refine ⟨{ s1.draw.draw with staged := [(s.newStaged n ki k).chosen k.stages.length true false 0 none (some i)] }, i, hi,
    (start.trans (congrArg (fun t => (t.getD s1).endStaged s.die) goes)).trans
    (State.endStaged_eq_self fun x hx => ?_), rfl, rfl⟩
  rw [State.beginInvocation_staged (k := k) hk] at hx
  rw [List.mem_singleton.mp hx]
  exact not_done _

end Sys2Proof.Machine
end

section
/-! SUPPORT. Each way an idle core starts an invocation, or waits. -/
namespace Sys2Proof.Machine

theorem Staged.isFor_iff (x : Staged) (die : Nat) (n : Node) : x.isFor die n = true ↔ x.names die n := by
  simp [Staged.isFor, Staged.names, and_assoc]

-- Each way an invocation starts (R34, R41, R44, R45).

theorem StartsNode.of_head {s : State} {q : Nat} {n : Node} {ns : List Node} {ki : Nat} {k : Kernel}
    (h : s.core.work.run = .idle ∧ s.core.work.stopped = false ∧ s.core.work.preempt = none ∧
      s.core.work.cur = none ∧ s.nextQueue = some q ∧ (s.core.cmdq q).nodes = n :: ns ∧ (n.img[0]).toNat % 16 = 1 ∧
      (s.core.cmdq q).head.readyAt.toNat ≤ s.time.toNat ∧ s.kernelOf n = some ki ∧ s.kernels[ki]? = some k ∧
      n.rank s.cur * n.slices / n.partCount ≠ (n.rank s.cur + 1) * n.slices / n.partCount) :
    StartsNode s q n ki k ∧
      shareStart (n.rank s.cur) n.partCount n.slices < shareEnd (n.rank s.cur) n.partCount n.slices := by
  obtain ⟨idle, runs, calm, free, queue, head, launch, due, named, kernel, some⟩ := h
  refine ⟨⟨idle, runs, calm, free, queue, ⟨ns, head⟩, n.kind_eq.trans launch, due, named, kernel⟩, ?_⟩
  refine Nat.lt_of_le_of_ne (Nat.div_le_div_right ?_) some
  exact Nat.mul_le_mul_right _ (Nat.le_succ _)

/-- A plain node's start: the core, and the bytes of the unit pad. -/
theorem StartsNode.plain {s : State} {q : Nat} {n : Node} {ki : Nat} {k : Kernel} {st : StageInfo}
    (h : StartsNode s q n ki k) (hk : k.stages = [st])
    (hlt : shareStart (n.rank s.cur) n.partCount n.slices < shareEnd (n.rank s.cur) n.partCount n.slices) :
    ∃ (t : State) (c : Core), exec .invocationStart s = .next t ∧
      t.core = c.beginInvocation k (s.share q n ki).begun
        (n.wid k.widths (shareStart (n.rank s.cur) n.partCount n.slices)) ∧
      (∀ l a, t.byteAt l a = (s.loaded k n.ctx.val).byteAt l a) := by
  obtain ⟨pend, hc⟩ := State.beginInvocation_core (s := s) (p := s.share q n ki) h.kernel
  refine ⟨s.beginInvocation (s.share q n ki), _, ?_, hc, fun l a => State.beginInvocation_byteAt h.kernel l a⟩
  rw [exec_invocationStart, h.exec_eq, State.startNode_plain (Kernel.not_staged hk) (Nat.ne_of_lt hlt)]

/-- R44: the one queue that is ready waits for another staged node of its kernel. -/
theorem State.nextQueue_of_blocked {s : State} {q ki : Nat} {n : Node} {ns : List Node} {k : Kernel} {x : Staged}
    (hq : (s.core.cmdq q).nodes = n :: ns) (others : ∀ j, j < 4 → j ≠ q → (s.core.cmdq j).head.ready = false)
    (hl : n.kind = 1) (hn : s.kernelOf n = some ki) (hk : s.kernels[ki]? = some k) (h2 : 2 ≤ k.stages.length)
    (hx : x ∈ s.staged) (hd : x.die = s.die) (hki : x.kernel = ki) (hr : x.rings ≠ []) (he : x.ended = false)
    (hne : ¬ x.names s.die n) : s.nextQueue = none := by
  have not_for : x.isFor s.die n = false := Bool.eq_false_iff.mpr fun h => hne ((x.isFor_iff _ n).mp h)
  have blocked : s.stagedBlocks n = true := by
    simp only [State.stagedBlocks, hn, hk, Bool.and_eq_true, List.any_eq_true]
    exact ⟨k.staged_iff.mpr h2, x, hx, by simp [hd, hki, hr, he, not_for]⟩
  refine List.find?_eq_none.mpr fun j hj => ?_
  obtain ⟨i, -, rfl⟩ := List.mem_map.mp hj
  by_cases hji : (s.core.work.served.val + 1 + i) % 4 = q
  · simp [hji, hq, hl, blocked]
  · have := others _ (Nat.mod_lt _ (by decide)) hji
    cases hc : (s.core.cmdq ((s.core.work.served.val + 1 + i) % 4)).nodes <;> simp [hc, this]

theorem execInvocationStart_of_no_queue {s : State} (hc : s.core.work.cur = none) (hq : s.nextQueue = none) :
    execInvocationStart s = .next s := by
  simp only [execInvocationStart, hc, hq]
  split <;> rfl

/-- A core goes on with the stage that is chosen for it. -/
theorem goesOn_chosen {s : State} {p : Progress} {k : Kernel} (hr : s.core.work.run = .idle)
    (hs : s.core.work.stopped = false) (hp : s.core.work.cur = some p) (hk : s.kernels[p.kernel]? = some k)
    (h2 : 2 ≤ k.stages.length) (hc : p.chosen = true) :
    ∃ (t : State) (c : Core), exec .invocationStart s = .next t ∧
      t.core = c.beginInvocation k p.begun (s.widOf k p) := by
  obtain ⟨pend, hc'⟩ := State.beginInvocation_core (s := s) (p := p) hk
  refine ⟨_, _, ?_, hc'⟩
  rw [exec_invocationStart, execInvocationStart_of_node hr hs hp, State.goOn_of_chosen hk (k.staged_iff.mpr h2) hc]
  rfl

/-- A core that waits in a staged node goes on with the balancer's choice. -/
theorem goesOn_choice {s : State} {p : Progress} {k : Kernel} {x : Staged} {y : Nat} (hr : s.core.work.run = .idle)
    (hs : s.core.work.stopped = false) (hp : s.core.work.cur = some p) (hk : s.kernels[p.kernel]? = some k)
    (h2 : 2 ≤ k.stages.length) (hc : p.chosen = false) (hx : s.staged = [x]) (hf : x.isFor s.die p.node = true)
    (hy : StageChoice x k.stages.length (decide (p.next < p.last)) y) :
    ∃ (t : State) (c : Core) (p' : Progress) (wid : Word), exec .invocationStart s = .next t ∧ p'.stage = y ∧
      t.core = c.beginInvocation k p' wid := by
  obtain ⟨inp, out, -, choice⟩ := State.chooseStage_single hx hf hk hy false
  obtain ⟨pend, hc'⟩ := State.beginInvocation_core (k := k)
    (s := { s.draw.draw with staged := [x.chosen k.stages.length (decide (p.next < p.last)) false y inp out] })
    (p := { p with stage := y, inRec := inp, outRec := out, chosen := true }) hk
  refine ⟨_, _, _, _, ?_, rfl, hc'⟩
  rw [exec_invocationStart, execInvocationStart_of_node hr hs hp,
    State.goOn_of_choice hk (k.staged_iff.mpr h2) hc choice]
  rfl

theorem goesOn_waits {s : State} {p : Progress} {k : Kernel} {x : Staged} (hr : s.core.work.run = .idle)
    (hs : s.core.work.stopped = false) (hp : s.core.work.cur = some p) (hk : s.kernels[p.kernel]? = some k)
    (h2 : 2 ≤ k.stages.length) (hc : p.chosen = false) (hx : s.staged = [x]) (hf : x.isFor s.die p.node = true)
    (hy : ∀ y, ¬ StageOpen x k.stages.length (decide (p.next < p.last)) y) : exec .invocationStart s = .next s := by
  rw [exec_invocationStart, execInvocationStart_of_node hr hs hp, State.goOn_of_none hk (k.staged_iff.mpr h2) hc
    (State.chooseStage_of_none (State.stagedOf_single hx hf) hk hy false)]
  rfl

end Sys2Proof.Machine
end

section
/-! SUPPORT. The core at the end of an invocation, and how cores leave a staged node (R42, R46). -/
namespace Sys2Proof.Machine

-- The core at the end of an invocation (R42).

theorem Core.end_work (c : Core) : c.endInvocation.work = { c.work with dbgFrom := none } := by
  unfold Core.endInvocation
  dsimp only
  split <;> rfl

theorem Core.end_active (c : Core) : c.endInvocation.eng.active = 0 := rfl
theorem Core.end_loops (c : Core) : c.endInvocation.fetch.loops = [] := rfl
theorem Core.end_tok (c : Core) (e f : Eng) : c.endInvocation.eng.tok e f = 0 := vget_replicate ..

theorem Core.end_queue (c : Core) (e : Eng) : (c.endInvocation.queue e).entries = [] := by
  rw [Core.queue]
  exact congrArg EngQ.entries (vget_replicate 6 e.num EngQ.empty)

/-- The progress with the registers that the next invocation takes over. -/
def Progress.handedOn (p : Progress) (c : Core) : Progress :=
  { p with carry := vgen 3 fun i => vget c.regs.n (12 + i) 0 }

/-- u is s once an invocation has given up the core's transient state. -/
structure GivenUp (s u : State) : Prop where
  cur : u.cur = s.cur
  kernels : u.kernels = s.kernels
  staged : u.staged = s.staged
  others : ∀ j : Fin 128, j ≠ s.cur → u.cores[j] = s.cores[j]
  core : ∃ pend, u.core = ({ s.core with pend := pend } : Core).endInvocation

theorem GivenUp.work {s u : State} (h : GivenUp s u) : u.core.work = { s.core.work with dbgFrom := none } := by
  obtain ⟨_, hc⟩ := h.core
  rw [hc, Core.end_work]

/-- The end of an invocation comes when its engines have joined and its record is written. -/
theorem execInvocationEnd_eq {s : State} {p : Progress} (hr : s.core.work.run = .ending)
    (hs : s.core.work.stopped = false) (hp : s.core.work.cur = some p) (ht : s.core.nextTrap = none)
    (hj : s.core.joined 62 = true) (hw : s.core.recordWritten p = true) :
    ∃ u, GivenUp s u ∧ execInvocationEnd s = .next (u.afterInvocation (p.handedOn s.core)).tryPreempt := by
  let v := s.performWhere fun x => x.ve || (p.outRec.isSome && x.space == .d)
  have keeps : DataOnly s v := dataOnly_performWhere s _
  obtain ⟨pend, hc⟩ := keeps.core
  have same : p.handedOn v.core = p.handedOn s.core := by rw [hc]; rfl
  refine ⟨v.upd Core.endInvocation,
    ⟨keeps.cur, keeps.kernels, keeps.staged, fun j hj => ?_, pend, by rw [State.core_upd, hc]⟩, ?_⟩
  · rw [State.other_core _ _ _ (by rw [keeps.cur]; exact hj), keeps.others j hj]
  · rw [← same]
    simp only [execInvocationEnd, hr, hs, hp, ht, hj, hw]
    rfl

theorem State.tryPreempt_of_calm {s : State} (h : s.core.work.preempt = none) : s.tryPreempt = s := by
  unfold State.tryPreempt
  rw [h]

theorem Core.recordWritten_of {c : Core} {p : Progress} (h : p.outRec = none ∨ c.liveCopies = []) :
    c.recordWritten p = true := by
  rcases h with h | h <;> simp [Core.recordWritten, h]

-- After the invocation (R35, R36).

/-- The core is idle with its node, and the stages of the die's other nodes have been passed over. -/
def State.idled (u : State) (p : Progress) : State :=
  (u.ageStages u.die fun x => x.isFor u.die p.node).updWork fun w =>
    { w with run := .idle, cur := some { p with running := false, chosen := false } }

theorem State.idled_core (u : State) (p : Progress) : (u.idled p).core = { u.core with
    work := { u.core.work with run := .idle, cur := some { p with running := false, chosen := false } } } :=
  State.core_updWork ..

theorem State.idled_cores (u : State) (p : Progress) (j : Fin 128) (hj : j ≠ u.cur) :
    (u.idled p).cores[j] = u.cores[j] := State.other_core _ _ j hj

theorem State.afterInvocation_more {u : State} {p : Progress} {k : Kernel} (hk : u.kernels[p.kernel]? = some k)
    (hs : k.staged = false) (hlt : p.next < p.last) : u.afterInvocation p = u.idled p := by
  unfold State.afterInvocation
  rw [hk]
  simp [hs, hlt, State.idled]

theorem State.afterInvocation_last {u : State} {p : Progress} {k : Kernel} (hk : u.kernels[p.kernel]? = some k)
    (hs : k.staged = false) (hle : p.last ≤ p.next) : u.afterInvocation p =
      ((u.idled p).leaveNode u.cur p.q p.node true (p.node.parts.getD p.j u.cur)).updWork fun w =>
        { w with cur := none } := by
  unfold State.afterInvocation
  rw [hk]
  simp only [hs, if_neg (Nat.not_lt.mpr hle)]
  rfl

/-- The queue that a node leaves. -/
theorem Core.left_queue (c : Core) (t : Word) (q : Fin 4) (n : Node) (writes : Bool) :
    ((c.left t q.val n writes).cmdq q.val).nodes = (c.cmdq q.val).nodes.tail := by
  have h : (c.left t q.val n writes).cmdq q.val = (c.cmdq q.val).pop t := by
    rw [Core.cmdq, Core.left, vget_vset, if_pos ⟨rfl, q.isLt⟩]
  rw [h]; rfl

/-- The core has left the node of p at its queue: its post waits. -/
def LeftNode (c d : Core) (p : Progress) : Prop :=
  d.work.cur = none ∧ (d.cmdq p.q.val).nodes = (c.cmdq p.q.val).nodes.tail ∧
    ∃ x : Post, d.work.posts = c.work.posts ++ [x] ∧ x.node = p.node ∧ x.writes = true ∧ x.failed = false

theorem leftNode_left (c : Core) (t : Word) (p : Progress) :
    LeftNode c { c.left t p.q.val p.node true with
      work := { (c.left t p.q.val p.node true).work with cur := none } } p :=
  ⟨rfl, c.left_queue t p.q p.node true, _, rfl, rfl, rfl, rfl⟩

theorem LeftNode.of_queues {c c' d : Core} {p : Progress} (h : LeftNode c' d p)
    (hq : c'.work.queues = c.work.queues) (hp : c'.work.posts = c.work.posts) : LeftNode c d p := by
  unfold LeftNode Core.cmdq at h ⊢
  rwa [hq, hp] at h

/-- The state in which a core of a staged node, whose records have changed hands, looks for its next stage. -/
def State.choosing (u : State) (p : Progress) : State :=
  (u.idled p).updStaged u.die p.node fun x => x.endRecords p

/-- The core takes the balancer's choice, and a node whose end has come is left. -/
def State.afterChoice (v : State) (p : Progress) : State :=
  let r := v.chooseStage { p with running := false, chosen := false } true
  State.endStaged (match r.2 with
    | some p' => r.1.updWork fun w => { w with cur := some p' }
    | none => r.1) v.die

theorem State.afterInvocation_staged {u : State} {p : Progress} {k : Kernel} (hk : u.kernels[p.kernel]? = some k)
    (hs : k.staged = true) : u.afterInvocation p = (u.choosing p).afterChoice p := by
  unfold State.afterInvocation
  rw [hk]
  simp only [hs]
  rfl

theorem State.afterChoice_of_some {v w : State} {p p' : Progress}
    (h : v.chooseStage { p with running := false, chosen := false } true = (w, some p')) :
    v.afterChoice p = (w.updWork fun x => { x with cur := some p' }).endStaged v.die := by
  unfold State.afterChoice
  rw [h]

theorem State.afterChoice_of_none {v w : State} {p : Progress}
    (h : v.chooseStage { p with running := false, chosen := false } true = (w, none)) :
    v.afterChoice p = w.endStaged v.die := by
  unfold State.afterChoice
  rw [h]

theorem State.ageStages_single {u : State} {x : Staged} (hs : u.staged = [x]) {but : Staged → Bool}
    (hx : but x = true) (die : Nat) : (u.ageStages die but).staged = [x] := by
  simp [State.ageStages, hs, hx]

/-- The one staged node of the die, once its records have changed hands. -/
theorem State.choosing_staged {u : State} {p : Progress} {x : Staged} (hs : u.staged = [x])
    (hx : x.isFor u.die p.node = true) : (u.choosing p).staged = [x.endRecords p] := by
  have aged : (u.idled p).staged = [x] := State.ageStages_single (but := fun y => y.isFor u.die p.node) hs hx u.die
  rw [State.choosing, State.updStaged_single aged hx]

theorem State.choosing_coreAt (u : State) (p : Progress) (j : Nat) : (u.choosing p).coreAt j =
    if j = u.cur.val then (u.idled p).core else u.coreAt j := by
  by_cases hj : j = u.cur.val
  · rw [if_pos hj, hj]
    exact (State.core_of_coreAt (s := u) (t := u.idled p) rfl).symm
  · rw [if_neg hj]
    exact State.coreAt_of_ne (s := u) (t := u.idled p) (fun i hi => u.idled_cores p i hi) hj

-- The end of a staged node on its die (R46).

theorem State.endStaged_single {s : State} {x : Staged} {die : Nat} (hs : s.staged = [x]) (hd : x.die = die)
    (done : s.stagedDone x = true) : s.endStaged die =
      x.parts.foldl (fun s c => s.leaveStaged x c) { s with staged := [{ x with ended := true }] } := by
  have due : s.staged.filter (fun x => x.die == die && s.stagedDone x) = [x] := by simp [hs, hd, done]
  simp only [State.endStaged, due, List.foldl_cons, List.foldl_nil]
  simp [hs]

theorem State.leaveStaged_other (s : State) (x : Staged) {c i : Nat} (hi : i ≠ c) :
    (s.leaveStaged x c).coreAt i = s.coreAt i := by
  rcases s.leaveStaged_cases x c with e | ⟨p, -, -, e⟩
  · rw [e]
  · rw [e, State.coreAt_updAt, if_neg fun k => hi k.1, State.leaveNode_coreAt, if_neg fun k => hi k.1]

theorem State.leaveStaged_self {s : State} {x : Staged} {c : Nat} {p : Progress} (hc : c < 128)
    (hp : (s.coreAt c).work.cur = some p) (hx : x.isFor (c / 64) p.node = true) (hr : p.running = false) :
    LeftNode (s.coreAt c) ((s.leaveStaged x c).coreAt c) p := by
  have e : s.leaveStaged x c = (s.leaveNode c p.q p.node true (p.node.parts.getD p.j c)).updAt c fun k =>
      { k with work := { k.work with cur := none } } := by
    unfold State.leaveStaged
    rw [hp]
    simp [hx, hr]
  rw [e, State.coreAt_updAt, if_pos ⟨rfl, hc⟩, State.leaveNode_coreAt, if_pos ⟨rfl, hc⟩]
  exact leftNode_left ..

/-- Cores that stand with a node leave it, one after another. -/
theorem State.leaveAll_idle {s : State} {x : Staged} (cs : List Nat) {i : Nat} (h : (s.coreAt i).work.cur = none) :
    (cs.foldl (fun s c => s.leaveStaged x c) s).coreAt i = s.coreAt i := by
  induction cs generalizing s with
  | nil => rfl
  | cons c cs ih =>
    have step := State.leaveStaged_idle x c h
    exact (ih (by rw [step]; exact h)).trans step

theorem State.leaveAll_stands {s : State} {x : Staged} {cs : List Nat} {i : Nat} {p : Progress} (hi : i ∈ cs)
    (h128 : i < 128) (hp : (s.coreAt i).work.cur = some p) (hx : x.isFor (i / 64) p.node = true)
    (hr : p.running = false) : LeftNode (s.coreAt i) ((cs.foldl (fun s c => s.leaveStaged x c) s).coreAt i) p := by
  induction cs generalizing s with
  | nil => cases hi
  | cons c cs ih =>
    by_cases hc : i = c
    · subst hc
      have left := State.leaveStaged_self h128 hp hx hr
      rw [List.foldl_cons, State.leaveAll_idle cs left.1]
      exact left
    · have step := s.leaveStaged_other x hc
      have := ih ((List.mem_cons.mp hi).resolve_left hc) (s := s.leaveStaged x c) (by rw [step]; exact hp)
      rwa [step] at this

/-- The participants are the cores that take part. -/
theorem Staged.mem_parts {x : Staged} {c : Nat} (hd : x.die < 2) : c ∈ x.parts ↔ x.takes c := by
  unfold Staged.parts Staged.takes
  cases x.owner with
  | some o => simp
  | none =>
    simp only [List.mem_filter, List.mem_map, List.mem_range, imgHas]
    constructor
    · rintro ⟨⟨j, hj, rfl⟩, h⟩
      refine ⟨by omega, ?_⟩
      split at h
      · rename_i hc
        rw [if_pos hc, Nat.mod_eq_of_lt hc]; exact h
      · rename_i hc
        rw [if_neg hc, show (x.die * 64 + j) % 64 = x.die * 64 + j - 64 by omega]; exact h
    · rintro ⟨hc, h⟩
      refine ⟨⟨c % 64, Nat.mod_lt _ (by decide), by omega⟩, ?_⟩
      split at h
      · rename_i hl
        rw [if_pos hl]; rwa [Nat.mod_eq_of_lt hl] at h
      · rename_i hl
        rw [if_neg hl]; rwa [show c % 64 = c - 64 by omega] at h

end Sys2Proof.Machine
end

section
/-! SUPPORT. The next stage of a core, and when a staged node has ended (R45, R46). -/
namespace Sys2Proof.Machine

-- The next stage of a core at the end of an invocation (R42, R45), where the die has one staged node.

/-- The progress of a core that the balancer has given a stage and its records. -/
def Progress.given (p : Progress) (st : Nat) (inp out : Option Nat) : Progress :=
  { p with running := false, stage := st, inRec := inp, outRec := out, chosen := true }

section
variable {v : State} {p : Progress} {x : Staged} {k : Kernel}

theorem State.afterChoice_takes {y : Nat} (hs : v.staged = [x]) (hx : x.isFor v.die p.node = true)
    (hk : v.kernels[p.kernel]? = some k) (h2 : 2 ≤ k.stages.length)
    (hc : StageChoice x k.stages.length (decide (p.next < p.last)) y) :
    ∃ inp out, x.Offers k.stages.length y inp out ∧
      (v.afterChoice p).staged = [x.chosen k.stages.length (decide (p.next < p.last)) true y inp out] ∧
      (v.afterChoice p).core =
        { v.core with work := { v.core.work with cur := some (p.given y inp out) } } := by
  obtain ⟨inp, out, ho, h⟩ := State.chooseStage_single (p := { p with running := false, chosen := false }) hs hx hk hc true
  have taken : v.afterChoice p = (State.updWork { v.draw.draw with
      staged := [x.chosen k.stages.length (decide (p.next < p.last)) true y inp out] } fun w =>
        { w with cur := some (p.given y inp out) }) := by
    refine (State.afterChoice_of_some h).trans (State.endStaged_eq_self fun z hz => ?_)
    rw [List.mem_singleton.mp hz]
    exact Staged.chosen_not_done _ h2 hc.isOpen.1 ho
  exact ⟨inp, out, ho, by rw [taken]; rfl, by rw [taken, State.core_updWork]; rfl⟩

/-- No stage is open: the core keeps its progress. -/
theorem State.afterChoice_none (hs : v.staged = [x]) (hx : x.isFor v.die p.node = true)
    (hk : v.kernels[p.kernel]? = some k)
    (hn : ∀ y, ¬ StageOpen x k.stages.length (decide (p.next < p.last)) y) :
    v.afterChoice p =
      ({ v with staged := [x.aged k.stages.length (decide (p.next < p.last)) true none] } : State).endStaged v.die := by
  rw [State.afterChoice_of_none (State.chooseStage_of_none (p := { p with running := false, chosen := false })
    (State.stagedOf_single hs hx) hk hn true), State.updStaged_single hs hx]

end

-- When a staged node has ended (R46).

theorem State.slicesLeft_of_cur {s : State} {x : Staged} {c : Nat} {p : Progress}
    (hp : (s.coreAt c).work.cur = some p) (hx : x.isFor (c / 64) p.node = true) :
    s.slicesLeft x c = if x.left.contains c then 0 else p.last - p.next := by
  unfold State.slicesLeft
  dsimp only
  rw [hp]
  simp only [hx, if_true]

/-- A participant with slices left keeps the node from its end. -/
theorem State.stagedDone_of_slices {s : State} {x : Staged} {c : Nat} (hc : c ∈ x.parts)
    (h : s.slicesLeft x c ≠ 0) : s.stagedDone x = false := by
  have some_left : (x.parts.all fun c => s.slicesLeft x c == 0 && !(s.runsStaged x c)) = false := by
    rw [Bool.eq_false_iff]
    intro all
    have := List.all_eq_true.mp all c hc
    simp [h] at this
  simp [State.stagedDone, some_left]

/-- Core c has no slice left of a staged node and no invocation of it. -/
def State.Stands (s : State) (x : Staged) (c : Nat) : Prop :=
  (c ∈ x.left ∧ (s.coreAt c).work.cur = none) ∨
    ∃ p, (s.coreAt c).work.cur = some p ∧ x.isFor (c / 64) p.node = true ∧ p.running = false ∧ p.last ≤ p.next

theorem State.Stands.nothing_left {s : State} {x : Staged} {c : Nat} (h : s.Stands x c) :
    s.slicesLeft x c = 0 ∧ s.runsStaged x c = false := by
  rcases h with ⟨hl, hc⟩ | ⟨p, hc, hx, hr, hle⟩
  · exact ⟨by simp [State.slicesLeft, hl], by simp [State.runsStaged, hc]⟩
  · refine ⟨?_, by simp [State.runsStaged, hc, hr]⟩
    rw [State.slicesLeft_of_cur hc hx, Nat.sub_eq_zero_of_le hle, ite_self]

theorem State.stagedDone_of_stands {s : State} {x : Staged} (he : x.ended = false) (hr : x.rings ≠ [])
    (free : ∀ r ∈ x.rings, ∀ a ∈ r, a = .free) (stand : ∀ c ∈ x.parts, s.Stands x c) : s.stagedDone x = true := by
  simp only [State.stagedDone, Bool.and_eq_true, List.all_eq_true, Bool.not_eq_true', List.isEmpty_eq_false_iff,
    beq_iff_eq]
  exact ⟨⟨⟨he, hr⟩, fun c hc => (stand c hc).nothing_left⟩, free⟩

/-- At the end of a staged node every participant leaves it. -/
theorem State.endStaged_leaves {s : State} {x : Staged} (hs : s.staged = [x]) (hd : x.die = s.die)
    (he : x.ended = false) (hr : x.rings ≠ []) (free : ∀ r ∈ x.rings, ∀ a ∈ r, a = .free)
    (stand : ∀ c ∈ x.parts, s.Stands x c) (part : ∀ c ∈ x.parts, c < 128) :
    (∀ c ∈ x.parts, ((s.endStaged s.die).coreAt c).work.cur = none) ∧
    ∀ c p, c ∈ x.parts → (s.coreAt c).work.cur = some p → LeftNode (s.coreAt c) ((s.endStaged s.die).coreAt c) p := by
  rw [State.endStaged_single hs hd (State.stagedDone_of_stands he hr free stand)]
  have leaves (c : Nat) (p : Progress) (hc : c ∈ x.parts) (hp : (s.coreAt c).work.cur = some p) :
      LeftNode (s.coreAt c) ((x.parts.foldl (fun (s : State) c => s.leaveStaged x c)
        { s with staged := [{ x with ended := true }] }).coreAt c) p := by
    rcases stand c hc with ⟨-, h⟩ | ⟨p', h, hx, hrun, -⟩
    · rw [h] at hp; cases hp
    · obtain rfl : p' = p := Option.some.inj (h.symm.trans hp)
      exact State.leaveAll_stands hc (part c hc) h hx hrun
  refine ⟨fun c hc => ?_, leaves⟩
  cases hp : (s.coreAt c).work.cur with
  | none =>
    exact (congrArg (fun c : Core => c.work.cur) (State.leaveAll_idle
      (s := { s with staged := [{ x with ended := true }] }) x.parts hp)).trans hp
  | some p => exact (leaves c p hc hp).1

/-- Where every record is free, no stage is open to a core that has no slice left. -/
theorem StageOpen.not_of_free {x : Staged} {stages : Nat} (free : ∀ y, ∀ r ∈ x.rings.getD y [], r = .free) (y : Nat) :
    ¬ StageOpen x stages false y := by
  rintro ⟨-, hpos, -⟩
  unfold StageRatio at hpos
  split at hpos
  · simp at hpos
  · have none_valid : (x.rings.getD y []).count .valid = 0 :=
      List.count_eq_zero.mpr fun h => by cases free y _ h
    rw [none_valid] at hpos
    simp at hpos

end Sys2Proof.Machine
end

section
/-! SUPPORT. Each way an invocation ends. -/
namespace Sys2Proof.Machine

-- Each way an invocation ends (R42, R43, R45, R46).

/-- The acting core ends an invocation now. -/
structure Ends (s : State) (p : Progress) (k : Kernel) : Prop where
  ending : s.core.work.run = .ending
  runs : s.core.work.stopped = false
  node : s.core.work.cur = some p
  calm : s.core.work.preempt = none
  no_trap : s.core.nextTrap = none
  joined : s.core.joined 62 = true
  kernel : s.kernels[p.kernel]? = some k
  written : s.core.recordWritten p = true

theorem Ends.next {s : State} {p : Progress} {k : Kernel} (h : Ends s p k) :
    ∃ u, GivenUp s u ∧ exec .invocationEnd s = .next (u.afterInvocation (p.handedOn s.core)).tryPreempt :=
  execInvocationEnd_eq h.ending h.runs h.node h.no_trap h.joined h.written

/-- What every end of an invocation leaves of its core. -/
def EndedCore (c : Core) : Prop :=
  c.work.run = .idle ∧ c.eng.active = 0 ∧ c.fetch.loops = [] ∧
    ∀ e f : Eng, c.eng.tok e f = 0 ∧ (c.queue e).entries = []

theorem GivenUp.endedCore {s u : State} (h : GivenUp s u) (p : Progress) : EndedCore (u.idled p).core := by
  obtain ⟨pend, hc⟩ := h.core
  rw [State.idled_core, hc]
  exact ⟨rfl, Core.end_active _, Core.end_loops _, fun e f => ⟨Core.end_tok _ e f, Core.end_queue _ e⟩⟩

theorem GivenUp.idled_work {s u : State} (h : GivenUp s u) (p : Progress) : (u.idled p).core.work =
    { s.core.work with dbgFrom := none, run := .idle, cur := some { p with running := false, chosen := false } } := by
  rw [State.idled_core, h.work]

/-- The next slice of a plain node. -/
theorem Ends.plain_more {s : State} {p : Progress} {k : Kernel} (h : Ends s p k) (hk : k.staged = false)
    (hlt : p.next < p.last) : ∃ t, exec .invocationEnd s = .next t ∧ EndedCore t.core ∧
      t.core.work.cur = some { p.handedOn s.core with running := false, chosen := false } := by
  obtain ⟨u, hu, he⟩ := h.next
  have work := hu.idled_work (p.handedOn s.core)
  refine ⟨u.idled (p.handedOn s.core), ?_, hu.endedCore _, by rw [work]⟩
  rw [he, State.afterInvocation_more (p := p.handedOn s.core) (hu.kernels ▸ h.kernel) hk hlt, State.tryPreempt_of_calm]
  rw [work]; exact h.calm

/-- The last slice of a plain node: the core leaves it. -/
theorem Ends.plain_last {s : State} {p : Progress} {k : Kernel} (h : Ends s p k) (hk : k.staged = false)
    (hle : p.last ≤ p.next) : ∃ t, exec .invocationEnd s = .next t ∧ EndedCore t.core ∧
      LeftNode s.core t.core p := by
  obtain ⟨u, hu, he⟩ := h.next
  let v := u.idled (p.handedOn s.core)
  have work : v.core.work = _ := hu.idled_work (p.handedOn s.core)
  have ended : EndedCore v.core := hu.endedCore _
  let t := (v.leaveNode u.cur p.q p.node true (p.node.parts.getD p.j u.cur)).updWork fun w => { w with cur := none }
  have left : t.core = { v.core.left v.time p.q.val p.node true with
      work := { (v.core.left v.time p.q.val p.node true).work with cur := none } } := by
    have left : (v.leaveNode u.cur p.q p.node true (p.node.parts.getD p.j u.cur)).core =
        v.core.left v.time p.q.val p.node true := by
      rw [State.core_of_coreAt (s := v) (onlyNodes_leaveNode ..).cur_eq, State.leaveNode_coreAt,
        if_pos ⟨rfl, u.cur.isLt⟩]
      exact congrArg (fun c : Core => c.left v.time p.q.val p.node true) v.coreAt_cur
    rw [State.core_updWork, left]
  refine ⟨t, ?_, by rw [left]; exact ended, ?_⟩
  · rw [he, State.afterInvocation_last (p := p.handedOn s.core) (hu.kernels ▸ h.kernel) hk hle]
    refine congrArg _ (State.tryPreempt_of_calm (s := t) ?_)
    rw [left]
    exact (congrArg Work.preempt work).trans h.calm
  · rw [left]
    exact (leftNode_left v.core v.time p).of_queues (congrArg Work.queues work :) (congrArg Work.posts work :)

/-- In v the core of s, whose invocation has ended, looks for its next stage of the one staged node of its die. -/
structure Looks (s : State) (p : Progress) (x : Staged) (v : State) : Prop where
  cur : v.cur = s.cur
  kernels : v.kernels = s.kernels
  staged : v.staged = [x]
  work : v.core.work = { s.core.work with dbgFrom := none, run := .idle
                                          cur := some { p with running := false, chosen := false } }
  others : ∀ j, j ≠ s.cur.val → v.coreAt j = s.coreAt j

theorem Ends.looks {s : State} {p : Progress} {k : Kernel} {x : Staged} (h : Ends s p k) (hk : k.staged = true)
    (hs : s.staged = [x]) (hx : x.isFor s.die p.node = true) (hl : x.rings.length = k.stages.length) :
    ∃ v, Looks s (p.handedOn s.core) (x.after p k.stages.length) v ∧
      exec .invocationEnd s = .next (v.afterChoice (p.handedOn s.core)).tryPreempt := by
  obtain ⟨u, hu, he⟩ := h.next
  have hdie : u.die = s.die := congrArg (fun c : Fin 128 => c.val / 64) hu.cur
  refine ⟨u.choosing (p.handedOn s.core), ⟨hu.cur, hu.kernels, ?_, hu.idled_work _, fun j hj => ?_⟩, ?_⟩
  · rw [State.choosing_staged (p := p.handedOn s.core) (hu.staged.trans hs) (by rw [hdie]; exact hx)]
    exact congrArg (fun z => [z]) (Staged.endRecords_eq_after (p := p) hl)
  · rw [State.choosing_coreAt, if_neg (by rw [hu.cur]; exact hj)]
    exact State.coreAt_of_ne hu.others hj
  · rw [he, State.afterInvocation_staged (p := p.handedOn s.core) (hu.kernels ▸ h.kernel) hk]

theorem Looks.die_eq {s v : State} {p : Progress} {x : Staged} (h : Looks s p x v) : v.die = s.die :=
  congrArg (fun c : Fin 128 => c.val / 64) h.cur

section
variable {s : State} {p : Progress} {k : Kernel} {x : Staged}

/-- The core takes the stage that the balancer chooses. -/
theorem Ends.staged_takes {y : Nat} (h : Ends s p k) (h2 : 2 ≤ k.stages.length)
    (hs : s.staged = [x]) (hx : x.isFor s.die p.node = true) (hl : x.rings.length = k.stages.length)
    (hc : StageChoice (x.after p k.stages.length) k.stages.length (decide (p.next < p.last)) y) :
    ∃ t inp out, exec .invocationEnd s = .next t ∧ (x.after p k.stages.length).Offers k.stages.length y inp out ∧
      t.core.work.run = .idle ∧ t.core.work.cur = some ((p.handedOn s.core).given y inp out) ∧
      t.staged = [(x.after p k.stages.length).chosen k.stages.length (decide (p.next < p.last)) true y inp out] := by
  obtain ⟨v, hv, he⟩ := h.looks (k.staged_iff.mpr h2) hs hx hl
  obtain ⟨inp, out, ho, staged, core⟩ := State.afterChoice_takes (p := p.handedOn s.core) hv.staged
    (by rw [hv.die_eq]; exact hx) (hv.kernels ▸ h.kernel) h2 hc
  refine ⟨v.afterChoice (p.handedOn s.core), inp, out, ?_, ho, ?_, by rw [core], staged⟩
  · refine he.trans (congrArg _ (State.tryPreempt_of_calm ?_))
    rw [core]; exact (congrArg Work.preempt hv.work :).trans h.calm
  · rw [core]; exact (congrArg Work.run hv.work :)

/-- No stage is open to the core: the node may have ended. -/
theorem Ends.staged_none (h : Ends s p k) (h2 : 2 ≤ k.stages.length)
    (hs : s.staged = [x]) (hx : x.isFor s.die p.node = true) (hl : x.rings.length = k.stages.length)
    (hn : ∀ y, ¬ StageOpen (x.after p k.stages.length) k.stages.length (decide (p.next < p.last)) y) :
    ∃ v, Looks s (p.handedOn s.core)
        ((x.after p k.stages.length).aged k.stages.length (decide (p.next < p.last)) true none) v ∧
      exec .invocationEnd s = .next (v.endStaged s.die) ∧ (v.endStaged s.die).core.work.run = .idle := by
  obtain ⟨v, hv, he⟩ := h.looks (k.staged_iff.mpr h2) hs hx hl
  let now := (x.after p k.stages.length).aged k.stages.length (decide (p.next < p.last)) true none
  let w : State := { v with staged := [now] }
  have hw : v.afterChoice (p.handedOn s.core) = w.endStaged s.die := hv.die_eq ▸ State.afterChoice_none
    (p := p.handedOn s.core) hv.staged (by rw [hv.die_eq]; exact hx) (hv.kernels ▸ h.kernel) hn
  have only := (onlyNodes_endStaged w s.die).core_eq
  have work : w.core.work = _ := hv.work
  refine ⟨w, ⟨hv.cur, hv.kernels, rfl, work, hv.others⟩, ?_, ?_⟩
  · rw [he, hw, State.tryPreempt_of_calm]
    exact ((congrArg (fun c : Core => c.work.preempt) only :).trans (congrArg Work.preempt work :)).trans h.calm
  · exact (congrArg (fun c : Core => c.work.run) only :).trans (congrArg Work.run work :)

end

section
variable {s v : State} {p : Progress} {x : Staged}

theorem Looks.coreAt_cur (h : Looks s p x v) : v.coreAt s.cur.val = v.core := by
  rw [← h.cur]; exact v.coreAt_cur

theorem Looks.stands_at (h : Looks s p x v) :
    (v.coreAt s.cur.val).work.cur = some { p with running := false, chosen := false } := by
  rw [h.coreAt_cur, h.work]

/-- While a slice or a record is left, the core stands with the node. -/
theorem Looks.waits (h : Looks s p x v) (hx : x.isFor s.die p.node = true) (hd : x.die < 2) (ht : x.takes s.cur)
    (hl : s.cur.val ∉ x.left)
    (left : p.next < p.last ∨ ∃ y, ∃ r ∈ x.rings.getD y [], r ≠ .free) :
    (v.endStaged s.die).core.work.cur = some { p with running := false, chosen := false } := by
  have not_done : v.stagedDone x = false := by
    rcases left with lt | ⟨y, r, hr, hne⟩
    · refine State.stagedDone_of_slices ((Staged.mem_parts hd).mpr ht) ?_
      rw [State.slicesLeft_of_cur h.stands_at hx, if_neg (by simpa using hl)]
      exact Nat.sub_ne_zero_of_lt lt
    · obtain ⟨i, hi⟩ := List.mem_iff_getElem?.mp hr
      exact State.stagedDone_of_record hi hne
  rw [State.endStaged_eq_self fun z hz => by
    rw [h.staged] at hz; rw [List.mem_singleton.mp hz]; exact not_done]
  rw [← h.coreAt_cur]
  exact h.stands_at

/-- With nothing left every participant leaves the node. -/
theorem Looks.leaves (h : Looks s p x v) (hx : x.isFor s.die p.node = true) (he : x.ended = false)
    (hr : x.rings ≠ []) (free : ∀ r ∈ x.rings, ∀ a ∈ r, a = .free) (hle : p.last ≤ p.next) (ht : x.takes s.cur)
    (part : ∀ j, x.takes j → j < 128) (others : ∀ j, x.takes j → j ≠ s.cur.val → s.Stands x j) :
    LeftNode s.core (v.endStaged s.die).core p ∧
      ∀ j, x.takes j → ((v.endStaged s.die).coreAt j).work.cur = none := by
  have die : x.die = s.die := ((x.isFor_iff _ _).mp hx).1
  have hd : x.die < 2 := by rw [die]; exact Nat.div_lt_of_lt_mul s.cur.isLt
  have stand : ∀ c ∈ x.parts, v.Stands x c := by
    intro c hc
    by_cases e : c = s.cur.val
    · exact e ▸ .inr ⟨_, h.stands_at, hx, rfl, hle⟩
    · have := others c ((Staged.mem_parts hd).mp hc) e
      unfold State.Stands at this ⊢
      rwa [h.others c e]
  obtain ⟨gone, left⟩ := State.endStaged_leaves h.staged (die.trans h.die_eq.symm) he hr free stand fun c hc =>
    part c ((Staged.mem_parts hd).mp hc)
  rw [h.die_eq] at gone left
  refine ⟨?_, fun j hj => gone j ((Staged.mem_parts hd).mpr hj)⟩
  have mine := left s.cur.val _ ((Staged.mem_parts hd).mpr ht) h.stands_at
  rw [h.coreAt_cur] at mine
  have core : (v.endStaged s.die).core = (v.endStaged s.die).coreAt s.cur.val :=
    State.core_of_coreAt ((onlyNodes_endStaged v s.die).cur_eq.trans h.cur)
  rw [core]
  exact mine.of_queues (congrArg Work.queues h.work :) (congrArg Work.posts h.work :)

end

end Sys2Proof.Machine
end

section
/-! SUPPORT. The first of the posts retires (R37, R40). -/
namespace Sys2Proof.Machine

theorem exec_nodePost (s : State) : exec .nodePost s = execNodePost s := rfl

-- The first of the posts retires (R37, R40).

theorem execNodePost_of_ready {s : State} {post : Post} {posts : List Post} (hp : s.core.work.posts = post :: posts)
    (hr : s.postReady post = true) : execNodePost s = .next (s.retire 0 post) := by
  have first : ∀ f : Nat → Bool, f 0 = true → (List.range (post :: posts).length).find? f = some 0 := by
    intro f hf
    rw [List.length_cons, List.range_succ_eq_map, List.find?_cons, hf]
  simp only [execNodePost, hp]
  rw [first _ hr]
  rfl

/-- The first post goes. -/
def State.dropPost (s : State) : State := s.updWork fun w => { w with posts := w.posts.eraseIdx 0 }

theorem State.dropPost_work {s : State} {post : Post} {posts : List Post} (hp : s.core.work.posts = post :: posts) :
    s.dropPost.core.work = { s.core.work with posts := posts } := by
  rw [State.dropPost, State.core_updWork, hp]; rfl

theorem State.retire_silent {s : State} {post : Post} (h : post.node.post = false) : s.retire 0 post = s.dropPost := by
  simp [State.retire, h, State.dropPost]

theorem State.addCounter_of_good {s : State} {ctx : Fin 64} {k : GKind} {a delta : Word} {as : List Nat}
    (hp : s.portPlaces ctx k a 8 = .ok as) (hg : s.firstBad .g as = none)
    (hw : leNat (as.map (s.byteAt .g)) + delta.toNat < 2 ^ 64) :
    s.addCounter ctx k a delta = .ok (leNat (as.map (s.byteAt .g)),
      s.perform .g (as.zip (leBytes 8 (leNat (as.map (s.byteAt .g)) + delta.toNat)))) := by
  simp only [State.addCounter, hp, hg, Nat.mod_eq_of_lt hw]
  rw [if_neg (Nat.not_lt.mpr (Nat.le_add_right ..))]
  rfl

theorem State.retire_post {s u : State} {post : Post} {old : Nat} (h : post.node.post = true)
    (hc : s.addCounter post.node.ctx .counter post.node.doneAdr post.node.doneDelta = .ok (old, u)) :
    s.retire 0 post = u.dropPost := by
  simp only [State.retire, h, hc]
  rfl

theorem State.byteAt_dropPost (s : State) (l : Loc) (a : Nat) : s.dropPost.byteAt l a = s.byteAt l a := by
  cases l <;> rfl

/-- The addition of a post to its counter. -/
theorem nodePost_adds {s : State} {post : Post} {posts : List Post} {x : Xlat} {as : List Nat}
    (hp : s.core.work.posts = post :: posts) (hr : s.postReady post = true) (hn : post.node.post = true)
    (ht : s.translate post.node.ctx .counter post.node.doneAdr [(post.node.doneAdr.toNat % 2 ^ 48, 8)] = .ok x)
    (has : x.places (post.node.doneAdr.toNat % 2 ^ 48) 8 = some as) (nd : as.Nodup) (hg : s.firstBad .g as = none)
    (hw : leNat (as.map (s.byteAt .g)) + post.node.doneDelta.toNat < 2 ^ 64) :
    ∃ t, exec .nodePost s = .next t ∧ SameRegs s t ∧ t.core.work = { s.core.work with posts := posts } ∧
      as.map (t.byteAt .g) = leBytes 8 (leNat (as.map (s.byteAt .g)) + post.node.doneDelta.toNat) ∧
      ∀ l i, ¬ (l = .g ∧ i ∈ as) → t.byteAt l i = s.byteAt l i := by
  have adds := State.addCounter_of_good (State.portPlaces_of_places ht has) hg hw
  obtain ⟨written, others⟩ := perform_bytes s (bs := leBytes 8 (leNat (as.map (s.byteAt .g)) + post.node.doneDelta.toNat))
    nd (by rw [Xlat.places_length has, leBytes_length])
  let u := s.perform .g (as.zip (leBytes 8 (leNat (as.map (s.byteAt .g)) + post.node.doneDelta.toNat)))
  have core : u.core = s.core := State.core_perform ..
  refine ⟨u.dropPost, ?_, ?_, ?_, ?_, fun l i h => ?_⟩
  · rw [exec_nodePost, execNodePost_of_ready hp hr, State.retire_post hn adds]
  · rw [SameRegs, State.dropPost, State.core_updWork, core]
  · rw [State.dropPost_work (s := u) (core ▸ hp), core]
  · rw [← written]
    exact List.map_congr_left fun i _ => State.byteAt_dropPost ..
  · rw [State.byteAt_dropPost]
    exact others l i h

theorem nodePost_silent {s : State} {post : Post} {posts : List Post} (hp : s.core.work.posts = post :: posts)
    (hr : s.postReady post = true) (hn : post.node.post = false) :
    ∃ t, exec .nodePost s = .next t ∧ SameMemory s t ∧ SameRegs s t ∧
      t.core.work = { s.core.work with posts := posts } := by
  refine ⟨_, ?_, fun l a => State.byteAt_dropPost s l a, ?_, State.dropPost_work hp⟩
  · rw [exec_nodePost, execNodePost_of_ready hp hr, State.retire_silent hn]
  · exact (congrArg Core.regs (State.core_updWork ..) :)

end Sys2Proof.Machine
end

section
/-! SUPPORT. What a staged node's start and an invocation's end in it leave, in the words of the records. -/
namespace Sys2Proof.Machine

-- What a staged node's start and end leave, in the words of the records.

/-- A staged node's start: the registers name the records, of which the output record alone is taken. -/
theorem StartsNode.staged {s : State} {q : Nat} {n : Node} {ki : Nat} {k : Kernel} (h : StartsNode s q n ki k)
    (h2 : 2 ≤ k.stages.length) (hs : s.staged = []) (hd : (k.stages[1]?.map StageInfo.depth).getD 0 ≠ 0)
    (hlt : shareStart (n.rank s.cur) n.partCount n.slices < shareEnd (n.rank s.cur) n.partCount n.slices) :
    ∃ (t : State) (i : Nat) (c : Core) (p : Progress), exec .invocationStart s = .next t ∧
      i < (k.stages[1]?.map StageInfo.depth).getD 0 ∧ p.stage = 0 ∧ p.inRec = none ∧ p.outRec = some i ∧
      t.core = c.beginInvocation k p (n.wid k.widths (shareStart (n.rank s.cur) n.partCount n.slices)) ∧
      t.staged = [(s.newStaged n ki k).chosen k.stages.length true false 0 none (some i)] := by
  obtain ⟨u, i, hi, start, kernels, staged⟩ := State.startNode_staged q hs h.named h.kernel h2 hd hlt
  have hk : u.kernels[ki]? = some k := kernels ▸ h.kernel
  obtain ⟨pend, hc⟩ := State.beginInvocation_core (s := u)
    (p := { s.share q n ki with outRec := some i, chosen := true }) hk
  obtain ⟨g, hg⟩ : ∃ g, k.stages[1]? = some g := ⟨_, List.getElem?_eq_getElem h2⟩
  refine ⟨_, i, _, _, by rw [exec_invocationStart, h.exec_eq, start], ?_, rfl, rfl, rfl, hc,
    (State.beginInvocation_staged hk).trans staged⟩
  rw [State.newStaged_ring (by decide) hg] at hi
  obtain ⟨hl, -⟩ := List.getElem?_eq_some_iff.mp hi
  simpa [hg] using hl

/-- The rings of a new node, once the output record of its first invocation is taken. -/
theorem State.newStaged_chosen_ring {s : State} {n : Node} {ki : Nat} {k : Kernel} {y : Nat} {g : StageInfo}
    (hy : y ≠ 0) (hg : k.stages[y]? = some g) (i : Nat) :
    let z := (s.newStaged n ki k).chosen k.stages.length true false 0 none (some i)
    (z.rings.getD y []).length = g.depth ∧ ∀ j, j < g.depth →
      (z.rings.getD y [])[j]? = some (if y = 1 ∧ j = i then .reserved else .free) := by
  dsimp only
  constructor
  · have ring : ((s.newStaged n ki k).chosen k.stages.length true false 0 none (some i)).rings.getD y [] =
        if y = 1 then ((s.newStaged n ki k).rings.getD 1 []).set i .reserved
        else (s.newStaged n ki k).rings.getD y [] := Staged.setRec_ring ..
    rw [ring]
    split
    · rename_i h1
      subst h1
      rw [State.newStaged_ring hy hg, List.length_set, List.length_replicate]
    · rw [State.newStaged_ring hy hg, List.length_replicate]
  · intro j hj
    rw [Staged.chosen_get, State.newStaged_ring hy hg, List.getElem?_replicate, if_pos hj]
    simp [hy, eq_comm]

theorem Staged.after_ring (x : Staged) (p : Progress) {stages y : Nat} (hy : y < stages) :
    (x.after p stages).rings.getD y [] = x.ringAfter p y := by
  simp [Staged.after, List.getD_eq_getElem?_getD, hy]

theorem Staged.after_free {x : Staged} {p : Progress} (stages : Nat) (free : ∀ y, ∀ r ∈ x.ringAfter p y, r = .free)
    (y : Nat) : ∀ r ∈ (x.after p stages).rings.getD y [], r = .free := by
  by_cases hy : y < stages
  · rw [x.after_ring p hy]; exact free y
  · simp [Staged.after, List.getD_eq_getElem?_getD, hy]

theorem Staged.takes_lt {x : Staged} {c j : Nat} (hd : x.die < 2) (hc : c < 128) (ht : x.takes c) (hj : x.takes j) :
    j < 128 := by
  unfold Staged.takes at ht hj
  cases ho : x.owner with
  | some o =>
    rw [ho] at ht hj
    dsimp only at ht hj
    omega
  | none =>
    rw [ho] at hj
    obtain ⟨hj, -⟩ := hj
    omega

section
variable {s : State} {p : Progress} {k : Kernel} {x : Staged}

/-- The node on the die once the records of an ended invocation have changed hands, and a stage of it is chosen. -/
def Staged.next (x : Staged) (p : Progress) (stages y : Nat) (inp out : Option Nat) : Staged :=
  (x.after p stages).chosen stages (decide (p.next < p.last)) true y inp out

theorem Staged.next_ended (x : Staged) (p : Progress) (stages y : Nat) (inp out : Option Nat) :
    (x.next p stages y inp out).ended = x.ended := by
  rw [Staged.next, Staged.chosen_eq]; rfl

/-- The counts of the stages that were passed over (R45). -/
theorem Staged.next_passed (x : Staged) (p : Progress) {stages d : Nat} (y : Nat) (inp out : Option Nat)
    (hd : d < stages) : (x.next p stages y inp out).passed.getD d 0 = if d = y then 0 else x.passed.getD d 0 +
      if (x.after p stages).eligible stages (decide (p.next < p.last)) d then 1 else 0 := by
  rw [Staged.next, Staged.chosen_eq]
  exact (Staged.aged_passed _ _ _ _ hd).trans (by simp only [Option.some.injEq, Bool.true_and]; rfl)

theorem Staged.next_passed_chosen (x : Staged) (p : Progress) {stages y : Nat} (inp out : Option Nat)
    (hy : y < stages) : (x.next p stages y inp out).passed.getD y 0 = 0 :=
  (x.next_passed p y inp out hy).trans (if_pos rfl)

theorem Staged.next_passed_other (x : Staged) (p : Progress) {stages y d : Nat} (inp out : Option Nat)
    (hd : d < stages) (hne : d ≠ y) :
    (StageOpen (x.after p stages) stages (decide (p.next < p.last)) d →
      (x.next p stages y inp out).passed.getD d 0 = x.passed.getD d 0 + 1) ∧
    (¬ StageOpen (x.after p stages) stages (decide (p.next < p.last)) d →
      (x.next p stages y inp out).passed.getD d 0 = x.passed.getD d 0) := by
  rw [x.next_passed p y inp out hd, if_neg hne, ← (x.after p stages).eligible_iff _ hd]
  exact ⟨fun open_ => by rw [if_pos open_], fun shut => by rw [if_neg shut]; rfl⟩

theorem Staged.next_get (x : Staged) (p : Progress) {stages d : Nat} (y : Nat) (inp out : Option Nat)
    (hd : d < stages) (j : Nat) : ((x.next p stages y inp out).rings.getD d [])[j]? =
      ((x.ringAfter p d)[j]?).map fun r =>
        if d = y ∧ inp = some j then .inUse else if d = y + 1 ∧ out = some j then .reserved else r := by
  rw [Staged.next, Staged.chosen_get, x.after_ring p hd]

/-- Every record that the choice does not take stays as it is. -/
theorem Staged.next_get_kept (x : Staged) (p : Progress) {stages y d i : Nat} {inp out : Option Nat} (hd : d < stages)
    (hin : ¬ (d = y ∧ inp = some i)) (hout : ¬ (d = y + 1 ∧ out = some i)) :
    ((x.next p stages y inp out).rings.getD d [])[i]? = (x.ringAfter p d)[i]? := by
  rw [x.next_get p y inp out hd]
  simp only [if_neg hin, if_neg hout, Option.map_id']

/-- The states of the records of the stage that the core goes on with. -/
theorem Staged.next_records {y : Nat} {inp out : Option Nat} {stages : Nat} (hy : y < stages)
    (ho : (x.after p stages).Offers stages y inp out) :
    (y = 0 → inp = none) ∧
    (y ≠ 0 → ∃ i, inp = some i ∧ (x.ringAfter p y)[i]? = some .valid ∧
      ((x.next p stages y inp out).rings.getD y [])[i]? = some .inUse) ∧
    (y + 1 = stages → out = none) ∧
    (y + 1 < stages → ∃ i, out = some i ∧ (x.ringAfter p (y + 1))[i]? = some .free ∧
      ((x.next p stages y inp out).rings.getD (y + 1) [])[i]? = some .reserved) := by
  obtain ⟨first, input, last, output⟩ := ho
  refine ⟨first, fun h => ?_, last, fun h => ?_⟩
  · obtain ⟨i, rfl, hi⟩ := input h
    rw [x.after_ring p hy] at hi
    exact ⟨i, rfl, hi, by rw [x.next_get p y _ _ hy, hi]; simp⟩
  · obtain ⟨i, rfl, hi⟩ := output h
    rw [x.after_ring p h] at hi
    exact ⟨i, rfl, hi, by rw [x.next_get p y _ _ h, hi]; simp⟩

/-- The end of the node on its die, where no record is left and every other participant is ready for it. -/
theorem Looks.ends {v : State} {stages : Nat} (h2 : 2 ≤ stages)
    (hv : Looks s p ((x.after p stages).aged stages (decide (p.next < p.last)) true none) v)
    (hx : x.isFor s.die p.node = true) (he : x.ended = false) (free : ∀ y, ∀ r ∈ x.ringAfter p y, r = .free)
    (hle : p.last ≤ p.next) (ht : x.takes s.cur)
    (others : ∀ j : Fin 128, x.takes j → j ≠ s.cur → (j.val ∈ x.left ∧ s.cores[j].work.cur = none) ∨
      ∃ p', s.cores[j].work.cur = some p' ∧ x.names (j.val / 64) p'.node ∧ p'.running = false ∧ p'.last ≤ p'.next) :
    LeftNode s.core (v.endStaged s.die).core p ∧
      ∀ j : Fin 128, x.takes j → (v.endStaged s.die).cores[j].work.cur = none := by
  have hd : x.die < 2 := by rw [((x.isFor_iff _ _).mp hx).1]; exact Nat.div_lt_of_lt_mul s.cur.isLt
  have part {j : Nat} : x.takes j → j < 128 := Staged.takes_lt hd s.cur.isLt ht
  have rings : (x.after p stages).rings ≠ [] := by
    simp only [Staged.after, ne_eq, List.map_eq_nil_iff, List.range_eq_nil]
    omega
  have all_free : ∀ r ∈ (x.after p stages).rings, ∀ a ∈ r, a = .free := by
    intro r hr
    obtain ⟨y, -, rfl⟩ := List.mem_map.mp hr
    exact free y
  obtain ⟨left, gone⟩ := hv.leaves hx he rings all_free hle ht (fun _ => part) fun j hj hne => by
    have at_ : s.coreAt j = s.cores[j]'(part hj) := vget_lt _ _ _ (part hj)
    rcases others ⟨j, part hj⟩ hj fun e => hne (congrArg Fin.val e) with ⟨hl, hc⟩ | ⟨p', hc, hn, hr, hle⟩
    · exact .inl ⟨hl, by rw [at_]; exact hc⟩
    · exact .inr ⟨p', by rw [at_]; exact hc, (x.isFor_iff _ _).mpr hn, hr, hle⟩
  refine ⟨left, fun j hj => ?_⟩
  have at_ : (v.endStaged s.die).coreAt j.val = (v.endStaged s.die).cores[j] := vget_lt _ _ _ j.isLt
  rw [← at_]
  exact gone j.val hj

end

end Sys2Proof.Machine
end

section
/-! The statement about invocations and posts, O58. -/
namespace Sys2Proof.Machine

/-- Settles O58: the starts by `StartsNode` and the ways a core goes on with a node, the ends by `Ends` and `Looks`, with
the balancer's choice as `StageChoice` has it. -/
theorem invocationsStartAndEnd : Obligations.InvocationsStartAndEnd := by
  unfold Obligations.InvocationsStartAndEnd
  intro q n ns ki k st p post posts x as sx s c w first next covers stages more ring now ending waiting mine starts slot
  have slot_eq (y : Nat) (i : Option Nat) : slot y i = k.record y i := rfl
  refine ⟨?plain, ?plainEnd, ?staged, ?blocked, ?chosen, ?choice, ?stagedEnd, nodePost_silent, nodePost_adds⟩
  case plain =>
    intro hs hk
    obtain ⟨h, hlt⟩ := StartsNode.of_head hs
    obtain ⟨t, c', he, hc, hb⟩ := h.plain hk hlt
    refine ⟨t, he, ?_⟩
    rw [hc]
    refine ⟨s.share_regs q n ki c' k _, rfl, rfl, rfl, rfl, Core.begin_line _ _ _ _ (by rw [hk]; rfl), rfl, rfl, rfl,
      rfl, rfl, fun e f => ⟨c'.begin_tok .., c'.begin_queue ..⟩, rfl, rfl, rfl,
      fun j hj => ⟨(c'.begin_slot k _ _ hj).1, (c'.begin_slot k _ _ hj).2, c'.begin_tag ..⟩, rfl, rfl, rfl, rfl, ?_, ?_⟩
    · intro l a h
      rw [hb]
      exact settledBut_loaded s k _ l a h
    · intro bad d hd i b hi alone
      rw [hb]
      exact State.loaded_byte bad _ hd hi fun z hz hm => alone z hz (mem_dataBytes.mp hm)
  case plainEnd =>
    rintro ⟨run, runs, node, calm, no_trap, joined, kernel⟩ ho hk
    have h : Ends s p k := ⟨run, runs, node, calm, no_trap, joined, kernel, Core.recordWritten_of (.inl ho)⟩
    rcases Nat.lt_or_ge p.next p.last with hlt | hle
    · obtain ⟨t, he, ⟨idle, active, loops, queues⟩, cur⟩ := h.plain_more (Kernel.not_staged hk) hlt
      exact ⟨t, he, idle, active, loops, queues, fun _ => cur, fun hle => absurd hlt (Nat.not_lt.mpr hle)⟩
    · obtain ⟨t, he, ⟨idle, active, loops, queues⟩, left⟩ := h.plain_last (Kernel.not_staged hk) hle
      exact ⟨t, he, idle, active, loops, queues, fun hlt => absurd hlt (Nat.not_lt.mpr hle), fun _ => left⟩
  case staged =>
    intro hs h2 _ hnone hd
    obtain ⟨h, hlt⟩ := StartsNode.of_head hs
    obtain ⟨t, i, c', p', he, hi, stage, inRec, outRec, hc, staged⟩ := h.staged h2 hnone hd hlt
    refine ⟨t, _, i, he, by rw [hc]; rfl, by rw [hc]; rfl, ?_, ?_, ?_, staged, ⟨rfl, rfl, rfl⟩, rfl, rfl, rfl, hi, ?_⟩
    · rw [hc, Core.begin_reg_lt _ _ _ _ (i := 2) (by decide) (by decide), if_pos rfl, stage, inRec]; rfl
    · rw [hc, Core.begin_reg_lt _ _ _ _ (i := 3) (by decide) (by decide), slot_eq, stage, outRec]; rfl
    · rw [hc, Core.begin_reg_lt _ _ _ _ (i := 4) (by decide) (by decide), stage]; rfl
    · intro y g j hy hg hj
      obtain ⟨length, states⟩ := State.newStaged_chosen_ring (s := s) (n := n) (ki := ki) hy hg i
      exact ⟨length, states j hj⟩
  case blocked =>
    intro _ hc hq hq4 others hl hn hk h2 hx hd hki hr he hne
    exact execInvocationStart_of_no_queue hc (State.nextQueue_of_blocked hq others (n.kind_eq.trans hl) hn hk h2 hx hd hki
      hr he hne)
  case chosen =>
    rintro ⟨idle, runs, node, hk, hst, -, h2⟩ hc
    obtain ⟨t, c', he, core⟩ := goesOn_chosen idle runs node hk h2 hc
    refine ⟨t, he, ?_⟩
    rw [core]
    refine ⟨rfl, Core.begin_line _ _ _ _ hst, rfl, ?_, ?_, ?_, rfl⟩
    · rw [Core.begin_regs]
      simp only [slot_eq]
      rfl
    · intro h0
      exact if_pos h0
    · intro h0
      rw [slot_eq]
      exact if_neg h0
  case choice =>
    rintro ⟨idle, runs, node, hk, -, -, h2⟩ hc ⟨-, hs, hx, -⟩
    have hf := (sx.isFor_iff _ p.node).mpr hx
    refine ⟨fun y hy => ?_, goesOn_waits idle runs node hk h2 hc hs hf⟩
    obtain ⟨t, c', p', wid, he, rfl, core⟩ := goesOn_choice idle runs node hk h2 hc hs hf hy
    refine ⟨t, he, by rw [core]; rfl, ?_⟩
    rw [core]
    exact Core.begin_reg_lt c' k p' wid (i := 4) (by decide) (by decide)
  case stagedEnd =>
    rintro ⟨run, runs, node, calm, no_trap, joined, kernel⟩ ho ⟨h2, hs, hx, he, hl, -⟩
    have h : Ends s p k := ⟨run, runs, node, calm, no_trap, joined, kernel, Core.recordWritten_of ho⟩
    have hf := (sx.isFor_iff _ p.node).mpr hx
    rcases (sx.after p stages).choose_cases stages more with ⟨-, hn⟩ | ⟨y, -, hy⟩
    · obtain ⟨v, hv, he', idle⟩ := h.staged_none h2 hs hf hl hn
      refine ⟨_, he', idle, fun y hy => absurd hy.isOpen (hn y), fun _ ht hleft left => ?_, fun free hm ht others => ?_⟩
      · have hd : sx.die < 2 := by rw [hx.1]; exact Nat.div_lt_of_lt_mul s.cur.isLt
        refine ⟨_, hv.waits hf hd ht hleft ?_, rfl, rfl, rfl, rfl⟩
        rcases left with hm | ⟨y, hy, r, hr, hne⟩
        · exact .inl (of_decide_eq_true hm)
        · exact .inr ⟨y, r, (congrArg (r ∈ ·) (sx.after_ring p hy)).mpr hr, hne⟩
      · obtain ⟨⟨-, nodes, posts⟩, gone⟩ := Looks.ends h2 hv hf he free (Nat.not_lt.mp (of_decide_eq_false hm)) ht others
        exact ⟨nodes, posts, gone⟩
    · obtain ⟨t, inp, out, he', ho', idle, cur, staged⟩ := h.staged_takes h2 hs hf hl hy
      refine ⟨t, he', idle, fun y' hy' => ?_, fun hn => absurd hy.isOpen (hn y), fun free hm => ?_⟩
      · obtain rfl := hy'.unique hy
        obtain ⟨first, input, last, output⟩ := Staged.next_records hy.isOpen.1 ho'
        exact ⟨_, sx.next p stages y' inp out, cur, rfl, rfl, rfl, rfl, rfl, rfl, staged, (sx.next_ended ..).trans he,
          sx.next_passed_chosen p inp out hy.isOpen.1, fun d hd hne => sx.next_passed_other p inp out hd hne,
          first, input, last, output, fun d i hd hin hout => sx.next_get_kept p hd hin hout⟩
      · exact absurd hy.isOpen (by rw [hm]; exact StageOpen.not_of_free (Staged.after_free stages free) y)

end Sys2Proof.Machine
end

section
/-! SUPPORT. The fields of a word (R2), the coded fields of R59 and R60, and lane B (R64): a field of a sum of placed
fields is the one that stands there. -/
namespace Sys2Proof

-- Fields of a word (R2).

theorem fld_top {x rest hi lo : Nat} (hx : x < 2 ^ (hi + 1 - lo)) (hr : rest < 2 ^ lo) :
    fld (x * 2 ^ lo + rest) hi lo = x := by
  rw [fld, Nat.add_comm, Nat.add_mul_div_right _ _ (by positivity), Nat.div_eq_of_lt hr, Nat.zero_add,
    Nat.mod_eq_of_lt hx]

theorem fld_mul {x hi lo : Nat} (hx : x < 2 ^ (hi + 1 - lo)) : fld (x * 2 ^ lo) hi lo = x :=
  fld_top (rest := 0) hx (by positivity)

theorem fld_tail {x k rest hi lo : Nat} (h : hi < k) : fld (x * 2 ^ k + rest) hi lo = fld rest hi lo := by
  unfold fld
  by_cases hl : lo ≤ hi + 1
  · obtain ⟨c, rfl⟩ := Nat.exists_eq_add_of_le' h
    obtain ⟨m, hm⟩ := Nat.exists_eq_add_of_le hl
    rw [show x * 2 ^ (c + (hi + 1)) = 2 ^ lo * (x * 2 ^ c * 2 ^ m) by rw [hm]; ring,
      Nat.mul_add_div (by positivity), show hi + 1 - lo = m by omega, Nat.mul_add_mod']
  · rw [show hi + 1 - lo = 0 by omega, Nat.pow_zero, Nat.mod_one, Nat.mod_one]

theorem fld_mul_zero {x k hi lo : Nat} (h : hi < k) : fld (x * 2 ^ k) hi lo = 0 := by
  rw [← Nat.add_zero (x * 2 ^ k), fld_tail h, fld, Nat.zero_div, Nat.zero_mod]

theorem fld_zero {w hi lo : Nat} (h : w < 2 ^ lo) : fld w hi lo = 0 := by
  rw [fld, Nat.div_eq_of_lt h, Nat.zero_mod]

theorem fld_self {x hi : Nat} (h : x < 2 ^ (hi + 1)) : fld x hi 0 = x := by
  rw [fld, Nat.pow_zero, Nat.div_one, Nat.sub_zero, Nat.mod_eq_of_lt h]

theorem ofNat_tail {n x k rest : Nat} (h : n ≤ k) : BitVec.ofNat n (x * 2 ^ k + rest) = BitVec.ofNat n rest := by
  obtain ⟨c, rfl⟩ := Nat.exists_eq_add_of_le' h
  apply BitVec.eq_of_toNat_eq
  rw [BitVec.toNat_ofNat, BitVec.toNat_ofNat, Nat.pow_add, ← Nat.mul_assoc, Nat.mul_add_mod']

-- Coded fields (R59, R60).

theorem Opnd.code_lt (a : Opnd) : a.code < 32 := by
  cases a <;> simp only [Opnd.code] <;> omega

theorem Dest.code_lt (d : Dest) : d.code < 32 := by
  cases d <;> simp only [Dest.code] <;> omega

theorem opndOf_code (a : Opnd) : opndOf a.code = a := by
  cases a <;> rename_i i <;> revert i <;> decide

theorem code_opndOf {x : Nat} (h : x < 32) : (opndOf x).code = x := by
  revert x; decide

theorem withDest_code (d : Dest) (k : Dest → Instr) : withDest d.code k = .ok (k d) := by
  cases d with
  | n i => simp [withDest, Dest.code]
  | push => rfl

theorem of_withDest {x : Nat} {k : Dest → Instr} {i : Instr} (h : withDest x k = .ok i) :
    ∃ d : Dest, d.code = x ∧ i = k d := by
  unfold withDest at h
  split at h
  · next hl => cases h; exact ⟨_, by simp only [Dest.code, Fin.val_ofNat, Nat.mod_eq_of_lt hl], rfl⟩
  split at h
  · next he => cases h; exact ⟨.push, he.symm, rfl⟩
  · cases h

theorem checked_eq_ok {z : Nat} {c : Bool} {r : Except Nat Instr} {i : Instr} :
    checked z c r = .ok i ↔ z = 0 ∧ c = true ∧ r = .ok i := by
  unfold checked
  split
  · next h => simp [h]
  · next h => cases c <;> simp_all

theorem XSpace.code_lt (x : XSpace) : x.code < 3 := by cases x <;> decide
theorem Width.code_lt (x : Width) : x.code < 4 := by cases x <;> decide
theorem Scope.code_lt (x : Scope) : x.code < 5 := by cases x <;> decide
theorem MaxKind.code_lt (x : MaxKind) : x.code < 4 := by cases x <;> decide
theorem CSpace.code_lt (x : CSpace) : x.code < 4 := by cases x <;> decide
theorem Divisor.code_lt (x : Divisor) : x.code < 16 := by cases x <;> decide
theorem VTy.code_lt (x : VTy) : x.code < 6 := by cases x <;> decide
theorem Rnd.code_lt (x : Rnd) : x.code < 4 := by cases x <;> decide
theorem Fmt.code_lt (x : Fmt) : x.code < 11 := by cases x <;> decide
theorem CsrFmt.code_lt (x : CsrFmt) : x.code < 6 := by cases x <;> decide
theorem QGroup.code_lt (x : QGroup) : x.code < 4 := by cases x <;> decide
theorem NestField.code_lt (x : NestField) : x.code < 6 := by cases x <;> decide
theorem MonField.code_lt (x : MonField) : x.code < 7 := by cases x <;> decide
theorem VCond.code_lt (x : VCond) : x.code < 8 := by cases x <;> decide
theorem RedOp.code_lt (x : RedOp) : x.code < 3 := by cases x <;> decide
theorem Cond.code_lt (x : Cond) : x.code < 6 := by cases x <;> decide
theorem atomWidth_lt (x : Bool) : atomWidth x < 4 := by cases x <;> decide

theorem xspaceOf_code (x : XSpace) : xspaceOf x.code = x := by cases x <;> rfl
theorem widthOf_code (x : Width) : widthOf x.code = x := by cases x <;> rfl
theorem scopeOf_code (x : Scope) : scopeOf x.code = x := by cases x <;> rfl
theorem maxKindOf_code (x : MaxKind) : maxKindOf x.code = x := by cases x <;> rfl
theorem cspaceOf_code (x : CSpace) : cspaceOf x.code = x := by cases x <;> rfl
theorem divOf_code (x : Divisor) : divOf x.code = x := by cases x <;> rfl
theorem vtyOf_code (x : VTy) : vtyOf x.code = x := by cases x <;> rfl
theorem rndOf_code (x : Rnd) : rndOf x.code = x := by cases x <;> rfl
theorem fmtOf_code (x : Fmt) : fmtOf x.code = x := by cases x <;> rfl
theorem csrFmtOf_code (x : CsrFmt) : csrFmtOf x.code = x := by cases x <;> rfl
theorem qgroupOf_code (x : QGroup) : qgroupOf x.code = x := by cases x <;> rfl
theorem nestFieldOf_code (x : NestField) : nestFieldOf x.code = x := by cases x <;> rfl
theorem monFieldOf_code (x : MonField) : monFieldOf x.code = x := by cases x <;> rfl
theorem vcondOf_code (x : VCond) : vcondOf x.code = x := by cases x <;> rfl
theorem redOpOf_code (x : RedOp) : redOpOf x.code = x := by cases x <;> rfl
theorem condOf_code (x : Cond) : condOf x.code = x := by cases x <;> rfl
theorem engOf_num (x : Eng) : engOf x.num = x := by cases x <;> rfl

-- Lane B (R64).

theorem LaneB.code_fields (b : LaneB) (l : Nat) (h : l < 2 ^ 16) :
    fld (b.code + l) 31 26 = b.pop.toNat ∧ fld (b.code + l) 25 20 = b.push.toNat := by
  unfold code fld
  split
  · omega
  · next k inv _ => have := inv.toNat_lt; omega

theorem laneBOf_code (b : LaneB) {l : Nat} (h : l < 2 ^ 16) : laneBOf (b.code + l) = b := by
  obtain ⟨hpop, hpush⟩ := b.code_fields l h
  obtain ⟨pop, push, _ | ⟨k, inv⟩⟩ := b
  · rw [laneBOf, hpop, hpush, if_neg (by simp only [LaneB.code, fld]; omega)]
    simp only [BitVec.ofNat_toNat, BitVec.setWidth_eq]
  · have := inv.toNat_lt
    rw [laneBOf, hpop, hpush, if_pos (by simp only [LaneB.code, fld]; omega),
      show fld _ 19 18 = k.val by simp only [LaneB.code, fld]; omega,
      show fld _ 17 17 = inv.toNat by simp only [LaneB.code, fld]; omega]
    simp only [BitVec.ofNat_toNat, BitVec.setWidth_eq, Fin.ofNat_val_eq_self, Bool.toNat_eq_one, Bool.decide_eq_true]

theorem LaneB.code_guard (b : LaneB) {l : Nat} (h : l < 2 ^ 16) (h0 : fld (b.code + l) 16 16 = 0) :
    fld (b.code + l) 19 17 = 0 := by
  obtain ⟨pop, push, _ | ⟨k, inv⟩⟩ := b <;> simp only [LaneB.code, fld] at * <;> omega

theorem code_laneBOf {b : Nat} (h : b < 2 ^ 32) (hg : fld b 16 16 = 0 → fld b 19 17 = 0) :
    (laneBOf b).code + fld b 15 0 = b := by
  unfold laneBOf LaneB.code
  split_ifs with h1
  · have h17 : (decide (fld b 17 17 = 1)).toNat = fld b 17 17 := by
      have : fld b 17 17 < 2 := Nat.mod_lt _ (by decide)
      interval_cases fld b 17 17 <;> rfl
    simp only [h17, BitVec.toNat_ofNat, Fin.val_ofNat]
    simp only [fld] at *
    omega
  · simp only [BitVec.toNat_ofNat, fld] at *
    omega

/-- Bit n of the field that begins at bit k (R64: bit e of a mask is engine e). -/
theorem fld_bit {w hi k n : Nat} (h : k + n ≤ hi) :
    fld w (k + n) (k + n) = ((BitVec.ofNat (hi + 1 - k) (fld w hi k)).getLsbD n).toNat := by
  rw [fld, Nat.add_sub_cancel_left, BitVec.getLsbD_ofNat, fld, Nat.testBit_mod_two_pow, Nat.testBit_div_two_pow,
    decide_eq_true (show n < hi + 1 - k by omega), Bool.true_and, Bool.true_and, Nat.toNat_testBit, Nat.add_comm,
    pow_one]

theorem engChecked_eq_ok {e : Eng} {b z : Nat} {c : Bool} {k : LaneB → Instr} {i : Instr} :
    engChecked e b z c k = .ok i ↔ z = 0 ∧ (fld b 16 16 = 0 → fld b 19 17 = 0) ∧ c = true ∧
      (laneBOf b).ok e = true ∧ k (laneBOf b) = i := by
  have he := Machine.Eng.num_lt e
  have hpop := fld_bit (w := b) (hi := 31) (k := 26) (n := e.num) (by omega)
  have hpush := fld_bit (w := b) (hi := 25) (k := 20) (n := e.num) (by omega)
  have hok : fld b (26 + e.num) (26 + e.num) + fld b (20 + e.num) (20 + e.num) = 0 ↔ (laneBOf b).ok e = true := by
    rw [Nat.add_eq_zero_iff, hpop, hpush, Bool.toNat_eq_zero, Bool.toNat_eq_zero, LaneB.ok, laneBOf]
    simp
  have hzero : z + (if fld b 16 16 = 0 then fld b 19 17 else 0) = 0 ↔ z = 0 ∧ (fld b 16 16 = 0 → fld b 19 17 = 0) := by
    split_ifs with hg <;> simp [hg]
  simp only [engChecked, ne_eq, hzero, hok]
  by_cases hz : z = 0 ∧ (fld b 16 16 = 0 → fld b 19 17 = 0)
  · rw [if_neg (not_not.mpr hz)]
    cases c <;> by_cases hb : (laneBOf b).ok e = true <;> simp [hz.1, hb, and_iff_right hz.2]
  · simp only [hz, not_false_eq_true, if_true, reduceCtorEq, false_iff]
    exact fun ⟨h0, hg, _⟩ => hz ⟨h0, hg⟩

/-- A lane pair whose lane B has the fields of B and the bits l beside them. -/
theorem engChecked_code {e : Eng} {B : LaneB} {l z : Nat} {c : Bool} {k : LaneB → Instr} (hl : l < 2 ^ 16)
    (hz : z = 0) (hc : c = true) (hB : B.ok e = true) : engChecked e (B.code + l) z c k = .ok (k B) := by
  rw [engChecked_eq_ok, laneBOf_code B hl]
  exact ⟨hz, B.code_guard hl, hc, hB, rfl⟩

theorem LaneB.code_eq (b : LaneB) : b.code = (b.code / 2 ^ 16) * 2 ^ 16 := by
  unfold code
  split <;> omega

theorem LaneB.fld_low (b : LaneB) {l hi lo : Nat} (h : hi < 16) : fld (b.code + l) hi lo = fld l hi lo := by
  rw [b.code_eq, fld_tail h]

theorem LaneB.ofNat_low (b : LaneB) (l : Nat) : BitVec.ofNat 16 (b.code + l) = BitVec.ofNat 16 l := by
  rw [b.code_eq, ofNat_tail (Nat.le_refl 16)]

end Sys2Proof
end

section
/-! SUPPORT. The words of a control-core instruction decode to it (R60-R63), one lemma per form of its fields. -/
namespace Sys2Proof

theorem slotOf_val (x : Fin 64) : slotOf x.val = x := Fin.ofNat_val_eq_self x
theorem vregOf_val (x : Fin 256) : vregOf x.val = x := Fin.ofNat_val_eq_self x
theorem paramOf_val (x : Fin 16) : paramOf x.val = x := Fin.ofNat_val_eq_self x

/-- The words of i, when it is well formed, decode to it. -/
def Decodes (i : Instr) : Prop := ∀ w : Words, i.wf = true → encode i = some w → decodeWords w = .ok i

theorem decodeWords_cc (w : Nat) : decodeWords (.cc w) = decodeCC w := rfl

/-- An event has no words. -/
theorem Decodes.of_none {i : Instr} (h : encode i = none) : Decodes i := fun w _ hw => by rw [h] at hw; cases hw

-- Control-core lanes (R60-R63): the R group.

theorem decodes_r2 (d : Dest) (a b : Opnd) :
    ∀ f ∈ [Instr.add, .sub, .mul, .mulh, .div, .rem, .and, .or, .xor, .shl, .shr, .sra], Decodes (f d a b) := by
  intro f hf w hwf h
  have := d.code_lt; have := a.code_lt; have := b.code_lt
  fin_cases hf
  all_goals
    cases h
    simp (disch := omega) only [rWord, decodeWords_cc, decodeCC, decodeR, Nat.add_assoc, fld_top, fld_tail,
      fld_zero, checked_eq_ok, and_self, withDest_code, opndOf_code]

theorem decodes_r1 (d : Dest) (a : Opnd) :
    ∀ f ∈ [Instr.clz, .popc, .mov], Decodes (f d a) := by
  intro f hf w hwf h
  have := d.code_lt; have := a.code_lt
  fin_cases hf
  all_goals
    cases h
    simp (disch := omega) only [rWord, decodeWords_cc, decodeCC, decodeR, Nat.add_assoc, fld_top, fld_tail,
      fld_zero, checked_eq_ok, and_self, withDest_code, opndOf_code]

theorem decodes_sel (d : Dest) (a b : Opnd) (k : Fin 4) (inv : Bool) : Decodes (.sel d a b k inv) := by
  intro w hwf h
  have := d.code_lt; have := a.code_lt; have := b.code_lt; have := inv.toNat_lt
  cases h
  rw [show k.val * 4 + inv.toNat * 2 = k.val * 2 ^ 2 + inv.toNat * 2 ^ 1 from rfl]
  simp (disch := omega) only [rWord, decodeWords_cc, decodeCC, decodeR, Nat.add_assoc, fld_top, fld_mul, fld_tail,
    fld_mul_zero, checked_eq_ok, and_self, withDest_code, opndOf_code, Fin.ofNat_val_eq_self, Bool.toNat_eq_one,
    Bool.decide_eq_true]

theorem decodes_cmp (c : Cond) (d : Dest) (a b : Opnd) : Decodes (.cmp c d a b) := by
  intro w hwf h
  have := d.code_lt; have := a.code_lt; have := b.code_lt
  cases c
  all_goals
    cases h
    simp (disch := omega) only [rWord, decodeWords_cc, decodeCC, decodeR, Cond.code, Nat.reduceAdd, Nat.add_assoc,
      fld_top, fld_tail, fld_zero, checked_eq_ok, and_self, withDest_code, opndOf_code]

-- Immediates and system registers (R62).

theorem decodes_imm (d : Dest) (a : Opnd) (imm : BitVec 16) :
    ∀ f ∈ [Instr.addi, .andi, .ori, .xori], Decodes (f d a imm) := by
  intro f hf w hwf h
  have := d.code_lt; have := a.code_lt
  fin_cases hf
  all_goals
    cases h
    simp (disch := omega) only [ccWord, decodeWords_cc, decodeCC, Nat.add_assoc, fld_top, fld_tail, ofNat_tail,
      BitVec.ofNat_toNat, BitVec.setWidth_eq, withDest_code, opndOf_code]

theorem decodes_cmpi (c : Cond) (d : Dest) (a : Opnd) (imm : BitVec 13) : Decodes (.cmpi c d a imm) := by
  intro w hwf h
  have := c.code_lt; have := d.code_lt; have := a.code_lt
  cases h
  simp (disch := omega) only [ccWord, decodeWords_cc, decodeCC, Nat.add_assoc, fld_top, fld_tail, ofNat_tail,
    checked_eq_ok, and_self, decide_true, BitVec.ofNat_toNat, BitVec.setWidth_eq, withDest_code, opndOf_code,
    condOf_code, Cond.code_lt]

theorem decodes_shift (d : Dest) (a : Opnd) (amt : BitVec 6) :
    ∀ f ∈ [Instr.shlImm, .shrImm, .sraImm], Decodes (f d a amt) := by
  intro f hf w hwf h
  have := d.code_lt; have := a.code_lt
  have h1 : 2 ^ 14 + amt.toNat = 1 * 2 ^ 14 + amt.toNat := by rw [Nat.one_mul]
  fin_cases hf
  all_goals
    cases h
    simp (disch := omega) only [ccWord, decodeWords_cc, decodeCC, Nat.add_assoc, fld_top, fld_tail, fld_zero,
      ofNat_tail, checked_eq_ok, and_self, decide_true, BitVec.ofNat_toNat, BitVec.setWidth_eq, withDest_code,
      opndOf_code, Nat.reduceLT, h1]

theorem decodes_movi (d : Dest) (imm : BitVec 16) : Decodes (.movi d imm) := by
  intro w hwf h
  have := d.code_lt
  cases h
  simp (disch := omega) only [ccWord, decodeWords_cc, decodeCC, Nat.add_assoc, fld_top, fld_tail, fld_zero,
    ofNat_tail, checked_eq_ok, and_self, BitVec.ofNat_toNat, BitVec.setWidth_eq, withDest_code]

theorem decodes_movhi (d : Fin 16) (imm : BitVec 16) (pos : BitVec 2) : Decodes (.movhi d imm pos) := by
  intro w hwf h
  cases h
  simp (disch := omega) only [ccWord, decodeWords_cc, decodeCC, Nat.add_assoc, fld_top, fld_tail, fld_zero,
    ofNat_tail, checked_eq_ok, true_and, and_true, BitVec.ofNat_toNat, BitVec.setWidth_eq, Fin.isLt, if_true,
    Fin.ofNat_val_eq_self]
  simpa [Instr.wf, ← BitVec.toNat_inj] using hwf

theorem decodes_wid (d : Dest) (f : BitVec 3) : Decodes (.wid d f) := by
  intro w hwf h
  have := d.code_lt
  cases h
  simp (disch := omega) only [ccWord, decodeWords_cc, decodeCC, Nat.add_assoc, fld_top, fld_tail, fld_self,
    fld_zero, ofNat_tail, checked_eq_ok, true_and, and_true, BitVec.ofNat_toNat, BitVec.setWidth_eq, withDest_code]
  simpa [Instr.wf, ← BitVec.toNat_inj] using hwf

theorem decodes_srd (d : Dest) (reg : BitVec 16) : Decodes (.srd d reg) := by
  intro w hwf h
  have := d.code_lt
  cases h
  simp (disch := omega) only [ccWord, decodeWords_cc, decodeCC, Nat.add_assoc, fld_top, fld_tail, fld_self,
    fld_zero, ofNat_tail, checked_eq_ok, true_and, and_true, BitVec.ofNat_toNat, BitVec.setWidth_eq, withDest_code,
    Nat.zero_mul, Nat.zero_add]
  exact hwf

theorem decodes_swr (a : Opnd) (reg : BitVec 16) : Decodes (.swr a reg) := by
  intro w hwf h
  have := a.code_lt
  cases h
  simp only [Instr.wf, Bool.and_eq_true, bne_iff_ne] at hwf
  obtain ⟨⟨hl, hpush⟩, hpop⟩ := hwf
  have h50 : reg.toNat ≠ 0x50 := fun h => hpush (BitVec.eq_of_toNat_eq h)
  have h51 : reg.toNat ≠ 0x51 := fun h => hpop (BitVec.eq_of_toNat_eq h)
  simp (disch := omega) only [ccWord, decodeWords_cc, decodeCC, Nat.add_assoc, fld_top, fld_tail, fld_self,
    fld_zero, ofNat_tail, checked_eq_ok, and_self, BitVec.ofNat_toNat, BitVec.setWidth_eq, opndOf_code, hl,
    if_neg h50, if_neg h51]

theorem decodes_tokenWrite (a : Opnd) :
    ∀ f ∈ [Instr.tkpushWrite, .tkpopWrite], Decodes (f a) := by
  intro f hf w hwf h
  have := a.code_lt
  fin_cases hf
  all_goals
    cases h
    simp (disch := omega) only [ccWord, decodeWords_cc, decodeCC, Nat.add_assoc, fld_top, fld_tail, fld_self,
      fld_zero, ofNat_tail, checked_eq_ok, true_and, opndOf_code]
    exact ⟨by decide, rfl⟩

-- The control thread.

theorem decodes_time (d : Dest) : Decodes (.time d) := by
  intro w hwf h
  have := d.code_lt
  cases h
  have h0 : 0x0D * 2 ^ 26 + d.code * 2 ^ 21 + 0 * 2 ^ 16 + 0 = 0x0D * 2 ^ 26 + d.code * 2 ^ 21 := by
    omega
  rw [ccWord, h0]
  simp (disch := omega) only [decodeWords_cc, decodeCC, fld_top, fld_mul, fld_tail, fld_mul_zero, checked_eq_ok,
    and_self, withDest_code]

theorem decodes_d2 (d : Dest) (a b : Opnd) :
    ∀ f ∈ [Instr.sprint, .btswap, .dead], Decodes (f d a b) := by
  intro f hf w hwf h
  have := d.code_lt; have := a.code_lt; have := b.code_lt
  fin_cases hf
  all_goals
    cases h
    simp (disch := omega) only [ccWord, decodeWords_cc, decodeCC, Nat.add_assoc, fld_top, fld_mul, fld_tail,
      fld_mul_zero, checked_eq_ok, and_self, withDest_code, opndOf_code, beq_self_eq_true]

theorem decodes_btset (d : Dest) (a b : Opnd) (k : BitVec 2) : Decodes (.btset d a b k) := by
  intro w hwf h
  have := d.code_lt; have := a.code_lt; have := b.code_lt
  cases h
  simp (disch := omega) only [ccWord, decodeWords_cc, decodeCC, Nat.add_assoc, fld_top, fld_mul, fld_tail,
    fld_mul_zero, checked_eq_ok, and_self, withDest_code, opndOf_code, BitVec.ofNat_toNat, BitVec.setWidth_eq]

theorem decodes_sprel (a : Opnd) : Decodes (.sprel a) := by
  intro w hwf h
  have := a.code_lt
  cases h
  simp (disch := omega) only [ccWord, decodeWords_cc, decodeCC, Nat.add_assoc, fld_top, fld_tail, fld_zero,
    checked_eq_ok, and_self, opndOf_code]

theorem decodes_br (c : Opnd) (disp : BitVec 21) : Decodes (.br c disp) := by
  intro w hwf h
  have := c.code_lt
  cases h
  simp (disch := omega) only [decodeWords_cc, decodeCC, Nat.add_assoc, fld_top, fld_tail, ofNat_tail, opndOf_code,
    BitVec.ofNat_toNat, BitVec.setWidth_eq]

theorem decodes_jump (disp : BitVec 21) :
    ∀ f ∈ [Instr.jmp, .call], Decodes (f disp) := by
  intro f hf w hwf h
  fin_cases hf
  all_goals
    cases h
    simp (disch := omega) only [decodeWords_cc, decodeCC, fld_top, fld_tail, fld_zero, ofNat_tail, checked_eq_ok,
      and_self, BitVec.ofNat_toNat, BitVec.setWidth_eq]

theorem decodes_return : ∀ f ∈ [Instr.ret, .eret], Decodes f := by
  intro f hf w hwf h
  fin_cases hf <;> cases h <;> rfl

theorem decodes_loop (c : Opnd) (len : BitVec 21) : Decodes (.loop c len) := by
  intro w hwf h
  have := c.code_lt
  cases h
  simp (disch := omega) only [decodeWords_cc, decodeCC, Nat.add_assoc, fld_top, fld_tail, fld_self, ofNat_tail,
    checked_eq_ok, true_and, and_true, opndOf_code, BitVec.ofNat_toNat, BitVec.setWidth_eq]
  simpa [Instr.wf, ← BitVec.toNat_inj] using hwf

theorem decodes_guard (k : Fin 4) (a : Opnd) : Decodes (.guard k a) := by
  intro w hwf h
  have := a.code_lt
  cases h
  simp (disch := omega) only [ccWord, decodeWords_cc, decodeCC, Nat.add_assoc, fld_top, fld_tail, fld_zero,
    checked_eq_ok, and_self, opndOf_code, Fin.ofNat_val_eq_self]

theorem decodes_engineMask (m : BitVec 6) :
    ∀ f ∈ [Instr.fork, .join, .qfence], Decodes (f m) := by
  intro f hf w hwf h
  fin_cases hf
  all_goals
    cases h
    have h0 : m.toNat % 2 = 0 := by simpa [Instr.wf, BitVec.getLsbD, Nat.testBit_zero] using hwf
    simp (disch := omega) only [ccWord, decodeWords_cc, decodeCC, Nat.add_assoc, fld_top, fld_mul, fld_tail,
      fld_mul_zero, fld_zero, checked_eq_ok, and_self, and_true, BitVec.ofNat_toNat, BitVec.setWidth_eq]
    simp only [fld]
    omega

theorem decodes_trap (n : BitVec 8) : Decodes (.trap n) := by
  intro w hwf h
  cases h
  simp (disch := omega) only [ccWord, decodeWords_cc, decodeCC, Nat.add_assoc, fld_top, fld_tail, fld_zero,
    ofNat_tail, checked_eq_ok, and_self, BitVec.ofNat_toNat, BitVec.setWidth_eq]

theorem decodes_brk (n : BitVec 16) : Decodes (.brk n) := by
  intro w hwf h
  cases h
  simp (disch := omega) only [ccWord, decodeWords_cc, decodeCC, Nat.add_assoc, fld_top, fld_tail, fld_zero,
    ofNat_tail, checked_eq_ok, and_self, BitVec.ofNat_toNat, BitVec.setWidth_eq]

theorem decodes_clkdiv (e : Eng) (v : Divisor) : Decodes (.clkdiv e v) := by
  intro w hwf h
  have := Machine.Eng.num_lt e; have := v.code_lt
  cases h
  simp (disch := omega) only [decodeWords_cc, decodeCC, Nat.add_assoc, fld_top, fld_tail, fld_self, fld_zero,
    checked_eq_ok, true_and, and_true, decide_true, engOf_num, divOf_code, Machine.Eng.num_lt, Bool.true_and]
  cases v <;> rfl

theorem decodes_pset (e : Eng) (p : Fin 16) (a : Opnd) : Decodes (.pset e p a) := by
  intro w hwf h
  cases h
  have := Machine.Eng.num_lt e; have := a.code_lt
  have he : 1 ≤ e.num := by
    cases e with
    | cc => cases hwf
    | me | ve | ce | ge | le => decide
  simp (disch := omega) only [decodeWords_cc, decodeCC, Nat.add_assoc, fld_top, fld_mul, fld_tail, fld_mul_zero,
    fld_zero, checked_eq_ok, true_and, and_true, decide_true, opndOf_code, engOf_num, Fin.ofNat_val_eq_self, he,
    Bool.true_and]
  exact decide_eq_true (by omega)

-- Loads, stores and atomics (R60).

theorem decodes_load (wd : Width) (d : Dest) (base : Opnd) (off : BitVec 10) (cls : Fin 16) :
    ∀ f ∈ [Instr.ldu, .ldk, .ldn, .ldd, .ldg], Decodes (f wd d base off cls) := by
  intro f hf w hwf h
  have := wd.code_lt; have := d.code_lt; have := base.code_lt
  fin_cases hf
  all_goals
    cases h
    simp (disch := omega) only [ccWord, mWord, decodeWords_cc, decodeCC, Nat.add_assoc, fld_top, fld_tail, fld_self,
      opndOf_code, withDest_code, BitVec.ofNat_toNat, BitVec.setWidth_eq, widthOf_code, Fin.ofNat_val_eq_self]

theorem decodes_store (wd : Width) (data base : Opnd) (off : BitVec 10) (cls : Fin 16) :
    ∀ f ∈ [Instr.stu, .stk, .stn, .std, .stg], Decodes (f wd data base off cls) := by
  intro f hf w hwf h
  have := wd.code_lt; have := data.code_lt; have := base.code_lt
  fin_cases hf
  all_goals
    cases h
    simp (disch := omega) only [ccWord, mWord, decodeWords_cc, decodeCC, Nat.add_assoc, fld_top, fld_tail, fld_self,
      opndOf_code, BitVec.ofNat_toNat, BitVec.setWidth_eq, widthOf_code, Fin.ofNat_val_eq_self]

theorem decodes_atomic (sp : XSpace) (dbl : Bool) (sc : Scope) (data base : Opnd) (cls : Fin 16) :
    ∀ f ∈ [Instr.aadd, .axch, .afadd], Decodes (f sp dbl sc data base cls) := by
  intro f hf w hwf h
  have := sp.code_lt; have := atomWidth_lt dbl; have := sc.code_lt; have := data.code_lt; have := base.code_lt
  fin_cases hf
  all_goals
    cases h
    simp (disch := omega) only [ccWord, xWord, decodeWords_cc, decodeCC, decodeAtomic, Nat.add_assoc, fld_top,
      fld_tail, fld_self, fld_zero, checked_eq_ok, true_and, decide_true, opndOf_code, xspaceOf_code, scopeOf_code,
      Fin.ofNat_val_eq_self, XSpace.code_lt, Scope.code_lt]
    cases dbl <;> exact ⟨rfl, rfl⟩

theorem decodes_acas (sp : XSpace) (dbl : Bool) (sc : Scope) (data base cmp : Opnd) (cls : Fin 16) :
    Decodes (.acas sp dbl sc data base cmp cls) := by
  intro w hwf h
  have := sp.code_lt; have := atomWidth_lt dbl; have := sc.code_lt; have := data.code_lt; have := base.code_lt
  have := cmp.code_lt
  cases h
  simp (disch := omega) only [ccWord, xWord, decodeWords_cc, decodeCC, decodeAtomic, Nat.add_assoc, fld_top,
    fld_tail, fld_self, checked_eq_ok, true_and, decide_true, opndOf_code, xspaceOf_code, scopeOf_code,
    Fin.ofNat_val_eq_self, XSpace.code_lt, Scope.code_lt]
  cases dbl <;> exact ⟨rfl, rfl⟩

theorem decodes_amax (kind : MaxKind) (sp : XSpace) (dbl : Bool) (sc : Scope) (data base : Opnd) (cls : Fin 16) :
    Decodes (.amax kind sp dbl sc data base cls) := by
  intro w hwf h
  have := sp.code_lt; have := atomWidth_lt dbl; have := sc.code_lt; have := data.code_lt; have := base.code_lt
  have := kind.code_lt
  cases h
  simp (disch := omega) only [ccWord, xWord, decodeWords_cc, decodeCC, decodeAtomic, Nat.add_assoc, fld_top,
    fld_tail, fld_self, fld_zero, checked_eq_ok, true_and, decide_true, opndOf_code, xspaceOf_code, scopeOf_code,
    Fin.ofNat_val_eq_self, XSpace.code_lt, Scope.code_lt, maxKindOf_code]
  cases dbl <;> exact ⟨rfl, rfl⟩

theorem decodes_scld (sp : XSpace) (wd : Width) (d : Dest) (base : Opnd) : Decodes (.scld sp wd d base) := by
  intro w hwf h
  have := sp.code_lt; have := wd.code_lt; have := d.code_lt; have := base.code_lt
  cases h
  simp (disch := omega) only [ccWord, xWord, decodeWords_cc, decodeCC, Nat.add_assoc, fld_top, fld_tail, fld_zero,
    checked_eq_ok, and_self, decide_true, opndOf_code, withDest_code, xspaceOf_code, widthOf_code, XSpace.code_lt]

theorem decodes_scst (sp : XSpace) (wd : Width) (data base : Opnd) : Decodes (.scst sp wd data base) := by
  intro w hwf h
  have := sp.code_lt; have := wd.code_lt; have := data.code_lt; have := base.code_lt
  cases h
  simp (disch := omega) only [ccWord, xWord, decodeWords_cc, decodeCC, Nat.add_assoc, fld_top, fld_tail, fld_zero,
    checked_eq_ok, and_self, decide_true, opndOf_code, xspaceOf_code, widthOf_code, XSpace.code_lt]

-- Ordering, counters, queues, templates, predictor.

theorem decodes_cfence (sc : Scope) (m : BitVec 16) : Decodes (.cfence sc m) := by
  intro w hwf h
  have := sc.code_lt
  cases h
  simp (disch := omega) only [ccWord, decodeWords_cc, decodeCC, Nat.add_assoc, fld_top, fld_tail, fld_zero,
    ofNat_tail, checked_eq_ok, and_self, decide_true, BitVec.ofNat_toNat, BitVec.setWidth_eq, scopeOf_code,
    Scope.code_lt]

theorem decodes_drain (sp : CSpace) : Decodes (.drain sp) := by
  intro w hwf h
  cases h
  revert hwf
  cases sp <;> decide

theorem decodes_a2 (a b : Opnd) :
    ∀ f ∈ [Instr.cwait, .ctrinit, .xput], Decodes (f a b) := by
  intro f hf w hwf h
  have := a.code_lt; have := b.code_lt
  fin_cases hf
  all_goals
    cases h
    simp (disch := omega) only [ccWord, decodeWords_cc, decodeCC, Nat.add_assoc, fld_top, fld_mul, fld_tail,
      fld_mul_zero, fld_zero, checked_eq_ok, and_self, opndOf_code]

theorem decodes_barrier (die : Bool) (b : Fin 16) (m : BitVec 16) :
    ∀ f ∈ [Instr.arrive, .await], Decodes (f die b m) := by
  intro f hf w hwf h
  have := die.toNat_lt
  fin_cases hf
  all_goals
    cases h
    simp (disch := omega) only [decodeWords_cc, decodeCC, Nat.add_assoc, fld_top, fld_tail, fld_zero, ofNat_tail,
      checked_eq_ok, true_and, BitVec.ofNat_toNat, BitVec.setWidth_eq, Fin.ofNat_val_eq_self]
    cases die <;> exact ⟨rfl, rfl⟩

theorem decodes_qpush (q : BitVec 2) (core addr : Opnd) : Decodes (.qpush q core addr) := by
  intro w hwf h
  have := core.code_lt; have := addr.code_lt
  cases h
  simp (disch := omega) only [ccWord, decodeWords_cc, decodeCC, Nat.add_assoc, fld_top, fld_mul, fld_tail,
    fld_mul_zero, fld_zero, checked_eq_ok, true_and, and_true, opndOf_code, BitVec.ofNat_toNat, BitVec.setWidth_eq]
  simpa [Instr.wf, ← BitVec.toNat_inj] using hwf

theorem decodes_sta (a data : Opnd) (m : BitVec 16) : Decodes (.sta a data m) := by
  intro w hwf h
  have := a.code_lt; have := data.code_lt
  cases h
  simp (disch := omega) only [ccWord, decodeWords_cc, decodeCC, Nat.add_assoc, fld_top, fld_tail, fld_self,
    opndOf_code]
  rw [Nat.div_add_mod', BitVec.ofNat_toNat, BitVec.setWidth_eq]

theorem decodes_ctset (t : Fin 64) (k : Fin 16) (a : Opnd) : Decodes (.ctset t k a) := by
  intro w hwf h
  have := a.code_lt
  cases h
  simp (disch := omega) only [ccWord, decodeWords_cc, decodeCC, Nat.add_assoc, fld_top, fld_mul, fld_tail,
    fld_mul_zero, fld_zero, checked_eq_ok, and_self, opndOf_code, Fin.ofNat_val_eq_self]

theorem decodes_xpred (d : Dest) (sig : Opnd) (k : BitVec 3) : Decodes (.xpred d sig k) := by
  intro w hwf h
  have := d.code_lt; have := sig.code_lt
  cases h
  simp (disch := omega) only [ccWord, decodeWords_cc, decodeCC, Nat.add_assoc, fld_top, fld_tail, fld_self,
    fld_zero, ofNat_tail, checked_eq_ok, true_and, and_true, opndOf_code, withDest_code, BitVec.ofNat_toNat,
    BitVec.setWidth_eq]
  exact hwf

theorem decodes_xget (d : Dest) (sig : Opnd) : Decodes (.xget d sig) := by
  intro w hwf h
  have := d.code_lt; have := sig.code_lt
  cases h
  simp (disch := omega) only [ccWord, decodeWords_cc, decodeCC, Nat.add_assoc, fld_top, fld_tail, fld_zero,
    checked_eq_ok, and_self, opndOf_code, withDest_code]

end Sys2Proof
end

section
/-! SUPPORT. The lane pair of an engine instruction decodes to it (R64-R68), one lemma per form of its fields. -/
namespace Sys2Proof

theorem decodeWords_me (a b : Nat) : decodeWords (.pair .me a b) = decodeME a b := rfl
theorem decodeWords_ve (a b : Nat) : decodeWords (.pair .ve a b) = decodeVE a b := rfl
theorem decodeWords_ce (a b : Nat) : decodeWords (.pair .ce a b) = decodeCE a b := rfl
theorem decodeWords_ge (a b : Nat) : decodeWords (.pair .ge a b) = decodeGE a b := rfl
theorem decodeWords_le (a b : Nat) : decodeWords (.pair .le a b) = decodeLE a b := rfl

-- The matrix engine (R66-R68).

/-- The products without a ladder (R67): the opcode's low half is the format's index. -/
def decodeProduct (a b : Nat) : Except Nat Instr :=
  let f1 := slotOf (fld a 23 18); let f2 := slotOf (fld a 17 12); let f3 := slotOf (fld a 11 6)
  let lo := fld b 15 0; let ix := fld a 27 24
  let chk := engChecked .me b
  if fld a 31 28 = 1 && ix < 8 then chk (fld a 5 0 + lo) true (.mma (fmtOf ix) f1 f2 f3 none)
  else if fld a 31 28 = 1 && ix < 11 then
    chk (fld a 5 0 + fld b 15 10 + fld b 7 0) (fld b 9 8 != 0)
      (.mma (fmtOf ix) f1 f2 f3 (some (qgroupOf (fld b 9 8))))
  else if fld a 31 28 = 2 && ix < 8 then
    chk (fld a 5 0 + lo) true (.mgo (fmtOf ix) f1 f2 f3 none)
  else if fld a 31 28 = 2 && ix < 11 then
    chk (fld a 5 0 + fld b 3 0) (fld b 9 8 != 0)
      (.mgo (fmtOf ix) f1 f2 f3
        (some { part := slotOf (fld b 15 10), g := qgroupOf (fld b 9 8),
                p := paramOf (fld b 7 4) }))
  else .error 0x11

theorem decodeME_product {a b : Nat} (h1 : 16 ≤ fld a 31 24) (h2 : fld a 31 24 < 48) :
    decodeME a b = decodeProduct a b := by
  simp only [decodeME]
  split
  case h_15 => rfl
  all_goals omega

theorem Fmt.code_lt_eight {f : Fmt} (h : f.isQ = false) : f.code < 8 := by
  revert h; cases f <;> decide

theorem Fmt.eight_le_code {f : Fmt} (h : f.isQ = true) : 8 ≤ f.code := by
  revert h; cases f <;> decide

theorem QGroup.code_ne_zero (g : QGroup) : (g.code != 0) = true := by cases g <;> rfl

theorem decodes_slots (s n : Fin 64) (B : LaneB) : ∀ f ∈ [Instr.mclaim, .mrel, .mzero], Decodes (f s n B) := by
  intro f hf w hwf h
  fin_cases hf
  all_goals
    cases h
    simp (disch := omega) only [meWord, pairOf, decodeWords_me, decodeME, Nat.zero_mul, Nat.zero_add, Nat.add_assoc,
      fld_top, fld_tail, fld_self, fld_zero, LaneB.fld_low, slotOf_val]
    exact engChecked_code (l := 0) (by decide) rfl rfl hwf

theorem decodes_slotParam (s : Fin 64) (p : Fin 16) (B : LaneB) : ∀ f ∈ [Instr.mfill, .mwb], Decodes (f s p B) := by
  intro f hf w hwf h
  fin_cases hf
  all_goals
    cases h
    simp (disch := omega) only [meWord, pairOf, decodeWords_me, decodeME, Nat.zero_mul, Nat.zero_add, Nat.add_assoc,
      fld_top, fld_tail, fld_self, fld_zero, LaneB.fld_low, slotOf_val, paramOf_val]
    exact engChecked_code (l := 0) (by decide) rfl rfl hwf

theorem decodes_mnest (l : Fin 6) (f : NestField) (v : BitVec 16) (B : LaneB) : Decodes (.mnest l f v B) := by
  intro w hwf h
  cases h
  have := f.code_lt
  obtain ⟨hv, hB⟩ := Bool.and_eq_true_iff.mp hwf
  simp (disch := omega) only [pairOf, decodeWords_me, decodeME, Nat.add_assoc, fld_top, fld_tail, fld_zero,
    LaneB.fld_low, ofNat_tail, nestFieldOf_code, BitVec.ofNat_toNat, BitVec.setWidth_eq, Fin.ofNat_val_eq_self,
    NestField.code_lt, decide_true]
  refine engChecked_code (l := 0) (by decide) ?_ (by simpa using hv) hB
  cases f with
  | flags =>
    have hv : v.toNat < 4 := of_decide_eq_true hv
    simp (disch := omega) only [fld_zero]
    rfl
  | _ => rfl

theorem decodes_msca (d pt n : Fin 64) (g : QGroup) (p : Fin 16) (k : BitVec 16) (B : LaneB) :
    Decodes (.msca d pt n g p k B) := by
  intro w hwf h
  cases h
  have := g.code_lt
  simp (disch := omega) only [meWord, pairOf, decodeWords_me, decodeME, Nat.add_assoc, fld_top, fld_tail, fld_self,
    LaneB.ofNat_low, slotOf_val, paramOf_val, qgroupOf_code, BitVec.ofNat_toNat, BitVec.setWidth_eq]
  exact engChecked_code (by omega) rfl g.code_ne_zero hwf

theorem decodes_mma (f : Fmt) (e sa sb : Fin 64) (g : Option QGroup) (B : LaneB) : Decodes (.mma f e sa sb g B) := by
  intro w hwf h
  have := f.code_lt
  obtain ⟨hg, hB⟩ := Bool.and_eq_true_iff.mp hwf
  have hop : (0x10 + f.code) * 2 ^ 24 = 1 * 2 ^ 28 + f.code * 2 ^ 24 := by omega
  cases g with
  | none =>
    cases h
    have hf : f.code < 8 := Fmt.code_lt_eight (by simpa using hg)
    rw [meWord, pairOf, decodeWords_me, decodeME_product (by simp only [fld]; omega) (by simp only [fld]; omega),
    decodeProduct, hop]
    simp (disch := omega) only [Nat.zero_add, Nat.add_assoc, fld_top, fld_tail, fld_zero, LaneB.fld_low, slotOf_val,
      fmtOf_code, hf, decide_true, Bool.and_self, if_true]
    exact engChecked_code (l := 0) (by decide) rfl rfl hB
  | some g =>
    cases h
    have := g.code_lt
    have hf : 8 ≤ f.code := Fmt.eight_le_code (by simpa using hg)
    rw [meWord, pairOf, decodeWords_me, decodeME_product (by simp only [fld]; omega) (by simp only [fld]; omega),
    decodeProduct, hop]
    simp (disch := omega) only [Nat.zero_add, Nat.add_assoc, fld_top, fld_tail, fld_mul, fld_mul_zero, fld_zero,
      LaneB.fld_low, slotOf_val, fmtOf_code, qgroupOf_code, Nat.not_lt.mpr hf, Fmt.code_lt, decide_true,
      decide_false, Bool.and_self, Bool.and_false, Bool.false_eq_true, if_true, if_false]
    exact engChecked_code (by omega) rfl g.code_ne_zero hB

theorem decodes_mgo (f : Fmt) (c sa sb : Fin 64) (q : Option MgoQ) (B : LaneB) : Decodes (.mgo f c sa sb q B) := by
  intro w hwf h
  have := f.code_lt
  obtain ⟨hq, hB⟩ := Bool.and_eq_true_iff.mp hwf
  have hop : (0x20 + f.code) * 2 ^ 24 = 2 * 2 ^ 28 + f.code * 2 ^ 24 := by omega
  cases q with
  | none =>
    cases h
    have hf : f.code < 8 := Fmt.code_lt_eight (by simpa using hq)
    rw [meWord, pairOf, decodeWords_me, decodeME_product (by simp only [fld]; omega) (by simp only [fld]; omega),
    decodeProduct, hop]
    simp (disch := omega) only [Nat.zero_add, Nat.add_assoc, fld_top, fld_tail, fld_zero, LaneB.fld_low, slotOf_val,
      fmtOf_code, hf, decide_true, Bool.and_self, if_true,
      Nat.reduceEqDiff, decide_false, Bool.false_and, Bool.false_eq_true, if_false]
    exact engChecked_code (l := 0) (by decide) rfl rfl hB
  | some q =>
    cases h
    obtain ⟨part, g, p⟩ := q
    have := g.code_lt
    have hf : 8 ≤ f.code := Fmt.eight_le_code (by simpa using hq)
    rw [meWord, pairOf, decodeWords_me, decodeME_product (by simp only [fld]; omega) (by simp only [fld]; omega),
    decodeProduct, hop]
    simp (disch := omega) only [Nat.zero_add, Nat.add_assoc, fld_top, fld_tail, fld_mul, fld_mul_zero, fld_zero,
      LaneB.fld_low, slotOf_val, paramOf_val, fmtOf_code, qgroupOf_code, Nat.not_lt.mpr hf, Fmt.code_lt,
      decide_true, decide_false, Bool.and_self, Bool.and_false, Bool.false_eq_true, if_true, if_false,
      Nat.reduceEqDiff, Bool.false_and]
    exact engChecked_code (by omega) rfl g.code_ne_zero hB

theorem decodes_mmaLad (f : LadFmt) (e sa sb : Fin 64) (B : LaneB) : Decodes (.mmaLad f e sa sb B) := by
  intro w hwf h
  cases f
  all_goals
    cases h
    simp (disch := omega) only [meWord, pairOf, decodeWords_me, decodeME, LadFmt.code, Nat.reduceAdd, Nat.zero_add,
      Nat.add_assoc, fld_top, fld_tail, fld_zero, LaneB.fld_low, slotOf_val]
    exact engChecked_code (l := 0) (by decide) rfl rfl hwf

theorem decodes_mladr (s : Fin 64) (lad : Fin 16) (role : Bool) (p : Fin 16) (k : BitVec 16) (B : LaneB) :
    Decodes (.mladr s lad role p k B) := by
  intro w hwf h
  cases h
  have := role.toNat_lt
  simp (disch := omega) only [pairOf, decodeWords_me, decodeME, Nat.add_assoc, fld_top, fld_tail, fld_self,
    fld_zero, LaneB.ofNat_low, slotOf_val, paramOf_val, BitVec.ofNat_toNat, BitVec.setWidth_eq,
    Bool.toNat_eq_one, Bool.decide_eq_true, Fin.ofNat_val_eq_self]
  exact engChecked_code (by omega) rfl rfl hwf

theorem decodes_mmon (f : MonField) (v : BitVec 16) (B : LaneB) : Decodes (.mmon f v B) := by
  intro w hwf h
  cases h
  have := f.code_lt
  obtain ⟨hv, hB⟩ := Bool.and_eq_true_iff.mp hwf
  simp (disch := omega) only [pairOf, decodeWords_me, decodeME, fld_top, fld_tail, fld_self, fld_zero,
    LaneB.fld_low, ofNat_tail, monFieldOf_code, BitVec.ofNat_toNat, BitVec.setWidth_eq,
    MonField.code_lt, decide_true, Bool.true_and]
  refine engChecked_code (l := 0) (by decide) rfl ?_ hB
  cases f with
  | cexp => exact hv
  | _ => rfl

theorem decodes_mspec (t : Option SpecTag) (B : LaneB) : Decodes (.mspec t B) := by
  intro w hwf h
  cases t with
  | none =>
    cases h
    simp (disch := omega) only [pairOf, decodeWords_me, decodeME, fld_top, fld_tail, fld_zero, LaneB.fld_low, if_true]
    exact engChecked_code (l := 0) (by decide) rfl rfl hwf
  | some t =>
    cases h
    obtain ⟨xbase, ebase, conf, p⟩ := t
    have := conf.toNat_lt
    simp (disch := omega) only [pairOf, decodeWords_me, decodeME, Nat.add_assoc, fld_top, fld_tail, fld_zero,
      fld_self, LaneB.fld_low, slotOf_val, paramOf_val, BitVec.ofNat_toNat, BitVec.setWidth_eq]
    rw [if_neg (by omega)]
    cases conf <;> exact engChecked_code (l := 0) (by decide) rfl rfl hwf

theorem decodes_mresolve (f n o : Fin 64) (noTrain : Bool) (p : Fin 16) (B : LaneB) :
    Decodes (.mresolve f n o noTrain p B) := by
  intro w hwf h
  cases h
  have := noTrain.toNat_lt
  simp (disch := omega) only [meWord, pairOf, decodeWords_me, decodeME, Nat.add_assoc, fld_top, fld_tail, fld_self,
    fld_zero, LaneB.fld_low, slotOf_val, paramOf_val,
    Bool.toNat_eq_one, Bool.decide_eq_true]
  exact engChecked_code (l := 0) (by decide) rfl rfl hwf

-- The vector engine (R65, R364).

theorem rndOk_false {r : Rnd} (h : rndOk false r = true) : r.code = 0 := by
  rw [eq_of_beq (h : (r == .rne) = true)]
  rfl

/-- A rounding field that may be nonzero only where the type rounds (R364). -/
theorem roundingField_zero {rounds c : Bool} {r : Rnd} (h : rndOk rounds r = true) (hc : rounds = true → c = true) :
    (if c = true then 0 else r.code) = 0 := by
  cases c with
  | true => rfl
  | false =>
    cases rounds with
    | true => cases hc rfl
    | false => exact rndOk_false h

theorem VTy.code_lt_three (t : VTy) : (t.code < 3) = (t.isFloat = true) := by cases t <;> decide
theorem VTy.three_le_code (t : VTy) : (3 ≤ t.code) = (t.isFloat = false) := by cases t <;> decide

theorem decodes_arith (v : V3) (B : LaneB) : ∀ f ∈ [Instr.vadd, .vsub, .vmul], Decodes (f v B) := by
  intro f hf w hwf h
  obtain ⟨ty, rnd, mask, vd, va, vb⟩ := v
  have := ty.code_lt; have := rnd.code_lt
  fin_cases hf
  all_goals
    cases h
    obtain ⟨hr, hB⟩ := Bool.and_eq_true_iff.mp hwf
    simp (disch := omega) only [v3Word, pairOf, decodeWords_ve, decodeVE, Nat.add_assoc, fld_top, fld_tail,
      fld_self, fld_zero, LaneB.fld_low, vtyOf_code, rndOf_code, vregOf_val, Fin.ofNat_val_eq_self,
      VTy.code_lt, decide_true, VTy.code_lt_three, Bool.decide_eq_true]
    refine engChecked_code (by omega) ?_ rfl hB
    rw [roundingField_zero hr fun h => by rw [h, Bool.true_or]]

theorem decodes_v3 (v : V3) (B : LaneB) :
    ∀ f ∈ [Instr.vmin, .vmax, .vand, .vor, .vxor, .vperm], Decodes (f v B) := by
  intro f hf w hwf h
  obtain ⟨ty, rnd, mask, vd, va, vb⟩ := v
  have := ty.code_lt; have := rnd.code_lt
  fin_cases hf
  all_goals
    cases h
    obtain ⟨hr, hB⟩ := Bool.and_eq_true_iff.mp hwf
    simp (disch := omega) only [v3Word, pairOf, decodeWords_ve, decodeVE, Nat.add_assoc, fld_top, fld_tail,
      fld_self, fld_zero, LaneB.fld_low, vtyOf_code, rndOf_code, vregOf_val, Fin.ofNat_val_eq_self,
      VTy.code_lt, decide_true]
    exact engChecked_code (by omega) (by rw [rndOk_false hr]) rfl hB

theorem decodes_v4 (v : V4) (B : LaneB) : ∀ f ∈ [Instr.vfma, .vsel], Decodes (f v B) := by
  intro f hf w hwf h
  obtain ⟨ty, rnd, mask, vd, va, vb, vc⟩ := v
  have := ty.code_lt; have := rnd.code_lt
  fin_cases hf
  all_goals
    cases h
    obtain ⟨hr, hB⟩ := Bool.and_eq_true_iff.mp hwf
    simp (disch := omega) only [v4Word, pairOf, decodeWords_ve, decodeVE, Nat.add_assoc, fld_top, fld_tail,
      fld_self, LaneB.fld_low, vtyOf_code, rndOf_code, vregOf_val, Fin.ofNat_val_eq_self,
      VTy.code_lt, decide_true, VTy.code_lt_three, Bool.decide_eq_true, Nat.div_add_mod']
  · exact engChecked_code (by omega) (roundingField_zero hr fun h => by rw [h, Bool.true_or]) rfl hB
  · exact engChecked_code (by omega) (rndOk_false hr) rfl hB

theorem decodes_v2 (v : V2) (B : LaneB) : ∀ f ∈ [Instr.vabs, .vneg], Decodes (f v B) := by
  intro f hf w hwf h
  obtain ⟨ty, mask, vd, va⟩ := v
  have := ty.code_lt
  fin_cases hf
  all_goals
    cases h
    simp (disch := omega) only [v2Word, pairOf, decodeWords_ve, decodeVE, Rnd.code, Nat.zero_mul, Nat.zero_add,
      Nat.add_assoc, fld_top, fld_tail, fld_mul, fld_mul_zero, fld_zero, LaneB.fld_low, vtyOf_code, vregOf_val,
      Fin.ofNat_val_eq_self,
      VTy.code_lt, decide_true]
    exact engChecked_code (by omega) rfl rfl hwf

theorem decodes_function (v : V2) (B : LaneB) : ∀ f ∈ [Instr.vrcp, .vrsq, .vexp2, .vlog2], Decodes (f v B) := by
  intro f hf w hwf h
  obtain ⟨ty, mask, vd, va⟩ := v
  have := ty.code_lt
  fin_cases hf
  all_goals
    cases h
    obtain ⟨ht, hB⟩ := Bool.and_eq_true_iff.mp hwf
    simp (disch := omega) only [v2Word, pairOf, decodeWords_ve, decodeVE, Rnd.code, Nat.zero_mul, Nat.zero_add,
      Nat.add_assoc, fld_top, fld_tail, fld_mul, fld_mul_zero, fld_zero, LaneB.fld_low, vtyOf_code, vregOf_val,
      Fin.ofNat_val_eq_self,
      VTy.code_lt_three, Bool.decide_eq_true]
    exact engChecked_code (by omega) rfl ht hB

theorem decodes_vcvt (dst : VTy) (r : Rnd) (v : V2) (B : LaneB) : Decodes (.vcvt dst r v B) := by
  intro w hwf h
  obtain ⟨ty, mask, vd, va⟩ := v
  have := ty.code_lt; have := dst.code_lt; have := r.code_lt
  cases h
  obtain ⟨hr, hB⟩ := Bool.and_eq_true_iff.mp hwf
  simp (disch := omega) only [v2Word, pairOf, decodeWords_ve, decodeVE, Nat.add_assoc, fld_top, fld_tail, fld_mul,
    fld_mul_zero, fld_self, fld_zero, LaneB.fld_low, vtyOf_code, rndOf_code, vregOf_val, Fin.ofNat_val_eq_self,
    VTy.code_lt, decide_true, Bool.and_self]
  refine engChecked_code (by omega) ?_ rfl hB
  rw [roundingField_zero hr fun h => by rw [h, Bool.or_true]]

theorem decodes_vcmp (c : VCond) (ty : VTy) (mask : Fin 8) (md : Fin 7) (va vb : Fin 256) (B : LaneB) :
    Decodes (.vcmp c ty mask md va vb B) := by
  intro w hwf h
  have := ty.code_lt; have := c.code_lt
  cases h
  obtain ⟨hc, hB⟩ := Bool.and_eq_true_iff.mp hwf
  simp (disch := omega) only [pairOf, decodeWords_ve, decodeVE, Nat.add_assoc, fld_top, fld_tail, fld_self,
    fld_zero, LaneB.fld_low, vtyOf_code, vcondOf_code, vregOf_val, Fin.ofNat_val_eq_self,
    VTy.code_lt, VCond.code_lt, VTy.code_lt_three, Fin.isLt, decide_true, Bool.decide_eq_true, Bool.true_and]
  refine engChecked_code (by omega) rfl ?_ hB
  revert hc
  cases ty <;> cases c <;> decide

theorem decodes_vshl (v : V3) (B : LaneB) : Decodes (.vshl v B) := by
  intro w hwf h
  obtain ⟨ty, rnd, mask, vd, va, vb⟩ := v
  have := ty.code_lt; have := rnd.code_lt
  cases h
  simp only [Instr.wf, Bool.and_eq_true, Bool.not_eq_true'] at hwf
  obtain ⟨⟨ht, hr⟩, hB⟩ := hwf
  simp (disch := omega) only [v3Word, pairOf, decodeWords_ve, decodeVE, Nat.add_assoc, fld_top, fld_tail, fld_self,
    fld_zero, LaneB.fld_low, vtyOf_code, rndOf_code, vregOf_val, Fin.ofNat_val_eq_self,
    VTy.code_lt, VTy.three_le_code, ht, decide_true, Bool.and_self]
  exact engChecked_code (by omega) (by rw [rndOk_false hr]) rfl hB

theorem decodes_vshr (arith : Bool) (v : V3) (B : LaneB) : Decodes (.vshr arith v B) := by
  intro w hwf h
  obtain ⟨ty, rnd, mask, vd, va, vb⟩ := v
  have := ty.code_lt; have := rnd.code_lt; have := arith.toNat_lt
  cases h
  simp only [Instr.wf, Bool.and_eq_true, Bool.not_eq_true'] at hwf
  obtain ⟨⟨ht, hr⟩, hB⟩ := hwf
  simp (disch := omega) only [v3Word, pairOf, decodeWords_ve, decodeVE, Nat.add_assoc, fld_top, fld_tail, fld_mul,
    fld_mul_zero, fld_self, LaneB.fld_low, vtyOf_code, rndOf_code, vregOf_val, Fin.ofNat_val_eq_self,
    VTy.code_lt, VTy.three_le_code, ht, decide_true, Bool.and_self, Bool.toNat_eq_one, Bool.decide_eq_true]
  exact engChecked_code (by omega) (by rw [rndOk_false hr]) rfl hB

theorem decodes_vred (op : RedOp) (r : Rnd) (v : V2) (B : LaneB) : Decodes (.vred op r v B) := by
  intro w hwf h
  obtain ⟨ty, mask, vd, va⟩ := v
  have := ty.code_lt; have := op.code_lt; have := r.code_lt
  cases h
  obtain ⟨hr, hB⟩ := Bool.and_eq_true_iff.mp hwf
  simp (disch := omega) only [v2Word, pairOf, decodeWords_ve, decodeVE, Nat.add_assoc, fld_top, fld_tail, fld_mul,
    fld_mul_zero, fld_self, LaneB.fld_low, vtyOf_code, rndOf_code, redOpOf_code, vregOf_val, Fin.ofNat_val_eq_self,
    VTy.code_lt, RedOp.code_lt, VTy.code_lt_three, decide_true, Bool.decide_eq_true, Bool.and_self]
  refine engChecked_code (by omega) ?_ rfl hB
  rw [roundingField_zero hr fun h => ?_]
  obtain ⟨hs, ht⟩ := Bool.and_eq_true_iff.mp h
  rw [ht, eq_of_beq hs]
  rfl

theorem decodes_vbcast (l : Fin 64) (v : V2) (B : LaneB) : Decodes (.vbcast l v B) := by
  intro w hwf h
  obtain ⟨ty, mask, vd, va⟩ := v
  have := ty.code_lt
  cases h
  simp (disch := omega) only [v2Word, pairOf, decodeWords_ve, decodeVE, Rnd.code, Nat.zero_mul, Nat.zero_add,
    Nat.add_assoc, fld_top, fld_tail, fld_mul, fld_mul_zero, fld_self, fld_zero, LaneB.fld_low, vtyOf_code,
    slotOf_val, vregOf_val, Fin.ofNat_val_eq_self,
    VTy.code_lt, decide_true]
  exact engChecked_code (by omega) rfl rfl hwf

theorem decodes_viota (ty : VTy) (mask : Fin 8) (vd : Fin 256) (B : LaneB) : Decodes (.viota ty mask vd B) := by
  intro w hwf h
  have := ty.code_lt
  cases h
  simp (disch := omega) only [pairOf, decodeWords_ve, decodeVE, Nat.add_assoc, fld_top, fld_tail, fld_mul,
    fld_mul_zero, LaneB.fld_low, vtyOf_code, vregOf_val, Fin.ofNat_val_eq_self,
    VTy.code_lt, decide_true]
  exact engChecked_code (by omega) rfl rfl hwf

theorem decodes_vmovi (ty : VTy) (mask : Fin 8) (vd : Fin 256) (imm : BitVec 16) (B : LaneB) :
    Decodes (.vmovi ty mask vd imm B) := by
  intro w hwf h
  have := ty.code_lt
  cases h
  obtain ⟨hi, hB⟩ := Bool.and_eq_true_iff.mp hwf
  simp (disch := omega) only [pairOf, decodeWords_ve, decodeVE, Nat.add_assoc, fld_top, fld_tail, fld_mul,
    fld_mul_zero, LaneB.fld_low, vtyOf_code, vregOf_val, Fin.ofNat_val_eq_self,
    VTy.code_lt, decide_true, ofNat_tail, BitVec.ofNat_toNat, BitVec.setWidth_eq]
  refine engChecked_code (by omega) ?_ rfl hB
  cases ty with
  | i8 =>
    have hi : imm.toNat < 256 := of_decide_eq_true hi
    simp (disch := omega) only [fld_zero]
    rfl
  | _ => rfl

theorem decodes_vmem (v : VMem) (B : LaneB) :
    ∀ f ∈ [Instr.vldu, .vstu, .vldk, .vstk, .vldd, .vstd, .vstn], Decodes (f v B) := by
  intro f hf w hwf h
  obtain ⟨ty, mask, v, cls, p⟩ := v
  have := ty.code_lt
  fin_cases hf
  all_goals
    cases h
    simp (disch := omega) only [vmWord, pairOf, decodeWords_ve, decodeVE, Nat.zero_mul, Nat.zero_add, Nat.add_assoc,
      fld_top, fld_tail, fld_mul, fld_mul_zero, fld_self, fld_zero, LaneB.fld_low, vtyOf_code, vregOf_val,
      paramOf_val, Fin.ofNat_val_eq_self,
      VTy.code_lt, decide_true]
    exact engChecked_code (by omega) rfl rfl hwf

theorem decodes_vldg (vx : Fin 256) (v : VMem) (B : LaneB) : Decodes (.vldg vx v B) := by
  intro w hwf h
  obtain ⟨ty, mask, v, cls, p⟩ := v
  have := ty.code_lt
  cases h
  simp (disch := omega) only [vmWord, pairOf, decodeWords_ve, decodeVE, Nat.add_assoc, fld_top, fld_tail, fld_mul,
    fld_mul_zero, fld_self, LaneB.fld_low, vtyOf_code, vregOf_val, paramOf_val, Fin.ofNat_val_eq_self,
    VTy.code_lt, decide_true]
  exact engChecked_code (by omega) rfl rfl hwf

theorem decodes_allot (n : BitVec 6) (B : LaneB) : ∀ f ∈ [Instr.vgrow, .vshrink], Decodes (f n B) := by
  intro f hf w hwf h
  fin_cases hf
  all_goals
    cases h
    obtain ⟨hn, hB⟩ := Bool.and_eq_true_iff.mp hwf
    simp (disch := omega) only [pairOf, decodeWords_ve, decodeVE, fld_top, fld_tail, fld_self, fld_zero,
      LaneB.fld_low, ofNat_tail, BitVec.ofNat_toNat, BitVec.setWidth_eq]
    exact engChecked_code (l := 0) (by decide) rfl hn hB

theorem decodes_vrdacc (int : Bool) (mask : Fin 8) (vd : Fin 256) (e row : Fin 64) (B : LaneB) :
    Decodes (.vrdacc int mask vd e row B) := by
  intro w hwf h
  cases int
  all_goals
    cases h
    simp (disch := omega) only [pairOf, decodeWords_ve, decodeVE, Nat.add_assoc, Bool.false_eq_true, if_true,
      if_false, fld_top, fld_tail, fld_mul, fld_mul_zero, fld_zero, LaneB.fld_low, vregOf_val, slotOf_val,
      Fin.ofNat_val_eq_self]
    exact engChecked_code (by omega) rfl rfl hwf

-- The copy, gather and link engines.

theorem decodes_ccopy (t : Fin 64) (spec post : Bool) (p : Fin 16) (B : LaneB) :
    Decodes (.ccopy t spec post p B) := by
  intro w hwf h
  have := spec.toNat_lt; have := post.toNat_lt
  cases h
  simp (disch := omega) only [pairOf, decodeWords_ce, decodeCE, Nat.add_assoc, fld_top, fld_tail, fld_self,
    fld_zero, LaneB.fld_low, slotOf_val, paramOf_val, Bool.toNat_eq_one, Bool.decide_eq_true]
  exact engChecked_code (l := 0) (by decide) rfl rfl hwf

theorem decodes_cfill (sp : CSpace) (len pat addr : Fin 16) (B : LaneB) : Decodes (.cfill sp len pat addr B) := by
  intro w hwf h
  have := sp.code_lt
  cases h
  simp (disch := omega) only [pairOf, p3, decodeWords_ce, decodeCE, Nat.add_assoc, fld_top, fld_tail, fld_self,
    fld_zero, LaneB.fld_low, cspaceOf_code, paramOf_val]
  exact engChecked_code (l := 0) (by decide) rfl rfl hwf

theorem decodes_cpost (v c : Fin 16) (B : LaneB) : Decodes (.cpost v c B) := by
  intro w hwf h
  cases h
  simp (disch := omega) only [pairOf, decodeWords_ce, decodeCE, fld_top, fld_tail, fld_self, fld_zero,
    LaneB.fld_low, paramOf_val]
  exact engChecked_code (l := 0) (by decide) rfl rfl hwf

theorem decodes_cqnt (s : Fin 64) (B : LaneB) : Decodes (.cqnt s B) := by
  intro w hwf h
  cases h
  simp (disch := omega) only [pairOf, decodeWords_ce, decodeCE, fld_top, fld_tail, fld_mul, fld_mul_zero, fld_zero,
    LaneB.fld_low, slotOf_val]
  exact engChecked_code (l := 0) (by decide) rfl rfl hwf

theorem decodes_cmov (src dst : CSpace) (len s d : Fin 16) (B : LaneB) : Decodes (.cmov src dst len s d B) := by
  intro w hwf h
  have := src.code_lt; have := dst.code_lt
  cases h
  obtain ⟨hsp, hB⟩ := Bool.and_eq_true_iff.mp hwf
  simp (disch := omega) only [pairOf, p3, decodeWords_ce, decodeCE, Nat.add_assoc, fld_top, fld_tail, fld_self,
    fld_zero, LaneB.fld_low, cspaceOf_code, paramOf_val]
  refine engChecked_code (l := 0) (by decide) rfl ?_ hB
  revert hsp
  cases src <;> cases dst <;> decide

theorem decodes_gcsr (s n : Fin 64) (f : CsrFmt) (p : Fin 16) (B : LaneB) : Decodes (.gcsr s n f p B) := by
  intro w hwf h
  have := f.code_lt
  cases h
  simp (disch := omega) only [pairOf, decodeWords_ge, decodeGE, Nat.add_assoc, fld_top, fld_tail, fld_self,
    fld_zero, LaneB.fld_low, csrFmtOf_code, slotOf_val, paramOf_val]
  exact engChecked_code (l := 0) (by decide) rfl (by cases f <;> rfl) hwf

theorem decodes_gmap (s : Fin 64) (i j : Fin 16) (B : LaneB) : Decodes (.gmap s i j B) := by
  intro w hwf h
  cases h
  simp (disch := omega) only [pairOf, decodeWords_ge, decodeGE, Nat.add_assoc, fld_top, fld_tail, fld_self,
    fld_zero, LaneB.fld_low, slotOf_val, paramOf_val]
  exact engChecked_code (l := 0) (by decide) rfl rfl hwf

theorem decodes_rows (n : Fin 4096) (d s x : Fin 16) (len : BitVec 16) (B : LaneB) :
    ∀ f ∈ [Instr.grows, .gscat], Decodes (f n d s x len B) := by
  intro f hf w hwf h
  fin_cases hf
  all_goals
    cases h
    obtain ⟨hl, hB⟩ := Bool.and_eq_true_iff.mp hwf
    simp (disch := omega) only [pairOf, p3, decodeWords_ge, decodeGE, Nat.add_assoc, fld_top, fld_tail, fld_self,
      LaneB.fld_low, LaneB.ofNat_low, paramOf_val, Fin.ofNat_val_eq_self, BitVec.ofNat_toNat, BitVec.setWidth_eq]
    exact engChecked_code (by omega) rfl (by simpa [← BitVec.toNat_inj] using hl) hB

theorem decodes_lsend (d s pk : Fin 16) (c : Option (Fin 16)) (len : Fin 4096) (B : LaneB) :
    Decodes (.lsend d s pk c len B) := by
  intro w hwf h
  cases c
  all_goals
    cases h
    simp (disch := omega) only [pairOf, p3, decodeWords_le, decodeLE, Option.isSome, Option.getD,
      Bool.false_eq_true, if_true, if_false, Nat.add_assoc, fld_top, fld_tail, fld_self, fld_zero, LaneB.fld_low,
      paramOf_val, Fin.ofNat_val_eq_self, Nat.reduceEqDiff]
    exact engChecked_code (by omega) rfl rfl hwf

theorem decodes_lred (half : Bool) (d s pk c ex : Fin 16) (len : Fin 4096) (B : LaneB) :
    Decodes (.lred half d s pk c ex len B) := by
  intro w hwf h
  have := half.toNat_lt
  cases h
  simp (disch := omega) only [pairOf, p3, decodeWords_le, decodeLE, Nat.add_assoc, fld_top, fld_tail, fld_self,
    fld_zero, LaneB.fld_low, paramOf_val, Fin.ofNat_val_eq_self, Bool.toNat_eq_one, Bool.decide_eq_true]
  exact engChecked_code (by omega) rfl rfl hwf

theorem decodes_lbar (bar : Fin 16) (B : LaneB) : Decodes (.lbar bar B) := by
  intro w hwf h
  cases h
  simp (disch := omega) only [pairOf, decodeWords_le, decodeLE, fld_top, fld_tail, fld_self, fld_zero,
    LaneB.fld_low, paramOf_val]
  exact engChecked_code (l := 0) (by decide) rfl rfl hwf

/-- The words of every well-formed instruction decode to it. -/
theorem decodes (i : Instr) : Decodes i := by
  cases i with
  | add d a b | sub d a b | mul d a b | mulh d a b | div d a b | rem d a b | and d a b | or d a b | xor d a b
  | shl d a b | shr d a b | sra d a b => exact decodes_r2 d a b _ (by simp)
  | clz d a | popc d a | mov d a => exact decodes_r1 d a _ (by simp)
  | sel => apply decodes_sel
  | cmp => apply decodes_cmp
  | addi d a imm | andi d a imm | ori d a imm | xori d a imm => exact decodes_imm d a imm _ (by simp)
  | cmpi => apply decodes_cmpi
  | shlImm d a amt | shrImm d a amt | sraImm d a amt => exact decodes_shift d a amt _ (by simp)
  | movi => apply decodes_movi
  | movhi => apply decodes_movhi
  | wid => apply decodes_wid
  | srd => apply decodes_srd
  | swr => apply decodes_swr
  | tkpushWrite a | tkpopWrite a => exact decodes_tokenWrite a _ (by simp)
  | time => apply decodes_time
  | sprint d a b | btswap d a b | dead d a b => exact decodes_d2 d a b _ (by simp)
  | btset => apply decodes_btset
  | sprel => apply decodes_sprel
  | br => apply decodes_br
  | jmp disp | call disp => exact decodes_jump disp _ (by simp)
  | ret | eret => exact decodes_return _ (by simp)
  | loop => apply decodes_loop
  | guard => apply decodes_guard
  | fork m | join m | qfence m => exact decodes_engineMask m _ (by simp)
  | trap => apply decodes_trap
  | brk => apply decodes_brk
  | clkdiv => apply decodes_clkdiv
  | pset => apply decodes_pset
  | ldu wd d base off cls | ldk wd d base off cls | ldn wd d base off cls | ldd wd d base off cls
  | ldg wd d base off cls => exact decodes_load wd d base off cls _ (by simp)
  | stu wd data base off cls | stk wd data base off cls | stn wd data base off cls | std wd data base off cls
  | stg wd data base off cls => exact decodes_store wd data base off cls _ (by simp)
  | aadd sp dbl sc data base cls | axch sp dbl sc data base cls | afadd sp dbl sc data base cls =>
    exact decodes_atomic sp dbl sc data base cls _ (by simp)
  | acas => apply decodes_acas
  | amax => apply decodes_amax
  | scld => apply decodes_scld
  | scst => apply decodes_scst
  | cfence => apply decodes_cfence
  | drain => apply decodes_drain
  | cwait a b | ctrinit a b | xput a b => exact decodes_a2 a b _ (by simp)
  | arrive die b m | await die b m => exact decodes_barrier die b m _ (by simp)
  | qpush => apply decodes_qpush
  | sta => apply decodes_sta
  | ctset => apply decodes_ctset
  | xpred => apply decodes_xpred
  | xget => apply decodes_xget
  | mclaim s n B | mrel s n B | mzero s n B => exact decodes_slots s n B _ (by simp)
  | mfill s p B | mwb s p B => exact decodes_slotParam s p B _ (by simp)
  | mnest => apply decodes_mnest
  | msca => apply decodes_msca
  | mma => apply decodes_mma
  | mgo => apply decodes_mgo
  | mmaLad => apply decodes_mmaLad
  | mladr => apply decodes_mladr
  | mmon => apply decodes_mmon
  | mspec => apply decodes_mspec
  | mresolve => apply decodes_mresolve
  | vadd v B | vsub v B | vmul v B => exact decodes_arith v B _ (by simp)
  | vmin v B | vmax v B | vand v B | vor v B | vxor v B | vperm v B => exact decodes_v3 v B _ (by simp)
  | vfma v B | vsel v B => exact decodes_v4 v B _ (by simp)
  | vabs v B | vneg v B => exact decodes_v2 v B _ (by simp)
  | vrcp v B | vrsq v B | vexp2 v B | vlog2 v B => exact decodes_function v B _ (by simp)
  | vcvt => apply decodes_vcvt
  | vcmp => apply decodes_vcmp
  | vshl => apply decodes_vshl
  | vshr => apply decodes_vshr
  | vred => apply decodes_vred
  | vbcast => apply decodes_vbcast
  | viota => apply decodes_viota
  | vmovi => apply decodes_vmovi
  | vldu v B | vstu v B | vldk v B | vstk v B | vldd v B | vstd v B | vstn v B => exact decodes_vmem v B _ (by simp)
  | vldg => apply decodes_vldg
  | vgrow n B | vshrink n B => exact decodes_allot n B _ (by simp)
  | vrdacc => apply decodes_vrdacc
  | ccopy => apply decodes_ccopy
  | cfill => apply decodes_cfill
  | cpost => apply decodes_cpost
  | cqnt => apply decodes_cqnt
  | cmov => apply decodes_cmov
  | gcsr => apply decodes_gcsr
  | gmap => apply decodes_gmap
  | grows n d s x len B | gscat n d s x len B => exact decodes_rows n d s x len B _ (by simp)
  | lsend => apply decodes_lsend
  | lred => apply decodes_lred
  | lbar => apply decodes_lbar
  | _ => exact .of_none rfl

end Sys2Proof
end

section
/-! SUPPORT. A word that decodes is the word of the instruction it decodes to (R60-R63): every bit is in a
field of it. -/
namespace Sys2Proof

-- The other direction: the codes of decoded fields.

theorem fld_lt {w hi lo n : Nat} (h : 2 ^ (hi + 1 - lo) = n) : fld w hi lo < n := by
  rw [fld, h]
  exact Nat.mod_lt _ (h ▸ by positivity)

/-- A field is its upper and its lower part, side by side. -/
theorem fld_split (w hi m p lo : Nat) (hm : m = p + 1 := by rfl) (hl : lo ≤ m := by decide)
    (hh : m ≤ hi + 1 := by decide) :
    fld w hi lo = fld w hi m * 2 ^ (m - lo) + fld w p lo := by
  subst hm
  have h1 : 2 ^ (hi + 1 - lo) = 2 ^ (p + 1 - lo) * 2 ^ (hi + 1 - (p + 1)) := by
    rw [← Nat.pow_add]; congr 1; omega
  have h2 : 2 ^ (p + 1) = 2 ^ lo * 2 ^ (p + 1 - lo) := by
    rw [← Nat.pow_add]; congr 1; omega
  rw [fld, fld, fld, h1, h2, Nat.mod_mul, Nat.div_div_eq_div_mul]
  ring

/-- A word of 32 bits is its op, two fields of five bits and a low half. -/
theorem word_split {w : Nat} (hw : w < 2 ^ 32) :
    w = fld w 31 26 * 2 ^ 26 + fld w 25 21 * 2 ^ 21 + fld w 20 16 * 2 ^ 16 + fld w 15 0 := by
  simp only [fld]; omega

theorem code_opndOf_fld {w hi lo : Nat} (h : 2 ^ (hi + 1 - lo) = 32) : (opndOf (fld w hi lo)).code = fld w hi lo :=
  code_opndOf (fld_lt h)

theorem toNat_ofNat_fld (n w : Nat) : (BitVec.ofNat (n + 1) w).toNat = fld w n 0 := by
  rw [BitVec.toNat_ofNat, fld, Nat.pow_zero, Nat.div_one, Nat.sub_zero]

theorem toNat_ofNat_of_fld {n w hi lo : Nat} (h : n = hi + 1 - lo) :
    (BitVec.ofNat n (fld w hi lo)).toNat = fld w hi lo := by
  rw [BitVec.toNat_ofNat, fld, ← h, Nat.mod_mod]

theorem val_ofNat_fld {n w hi lo : Nat} [NeZero n] (h : 2 ^ (hi + 1 - lo) = n) :
    (Fin.ofNat n (fld w hi lo)).val = fld w hi lo := by
  rw [Fin.val_ofNat, fld, h, Nat.mod_mod]

theorem toNat_decide_fld {w hi : Nat} : (decide (fld w hi hi = 1)).toNat = fld w hi hi := by
  have h : fld w hi hi < 2 := fld_lt (by rw [Nat.add_sub_cancel_left, Nat.pow_one])
  interval_cases fld w hi hi <;> rfl

theorem code_condOf {x : Nat} (h : x < 6) : (condOf x).code = x := by revert x; decide
theorem code_xspaceOf {x : Nat} (h : x < 3) : (xspaceOf x).code = x := by revert x; decide
theorem code_widthOf {x : Nat} (h : x < 4) : (widthOf x).code = x := by revert x; decide
theorem code_scopeOf {x : Nat} (h : x < 5) : (scopeOf x).code = x := by revert x; decide
theorem code_maxKindOf {x : Nat} (h : x < 4) : (maxKindOf x).code = x := by revert x; decide
theorem code_cspaceOf {x : Nat} (h : x < 4) : (cspaceOf x).code = x := by revert x; decide
theorem code_vtyOf {x : Nat} (h : x < 6) : (vtyOf x).code = x := by revert x; decide
theorem code_rndOf {x : Nat} (h : x < 4) : (rndOf x).code = x := by revert x; decide
theorem code_fmtOf {x : Nat} (h : x < 11) : (fmtOf x).code = x := by revert x; decide
theorem code_nestFieldOf {x : Nat} (h : x < 6) : (nestFieldOf x).code = x := by revert x; decide
theorem code_monFieldOf {x : Nat} (h : x < 7) : (monFieldOf x).code = x := by revert x; decide
theorem code_vcondOf {x : Nat} (h : x < 8) : (vcondOf x).code = x := by revert x; decide
theorem code_redOpOf {x : Nat} (h : x < 3) : (redOpOf x).code = x := by revert x; decide
theorem num_engOf {x : Nat} (h : x < 6) : (engOf x).num = x := by revert x; decide
theorem code_qgroupOf {x : Nat} (h : x < 4) (h0 : x ≠ 0) : (qgroupOf x).code = x := by
  revert h0
  interval_cases x <;> decide
theorem code_csrFmtOf {x : Nat} (h2 : 2 ≤ x) (h5 : x ≤ 5) : (csrFmtOf x).code = x := by
  interval_cases x <;> rfl
theorem code_divOf {x : Nat} (h : divLegal x = true) (hx : x < 16) : (divOf x).code = x := by
  revert h
  interval_cases x <;> decide

-- The words of R60's formats, from their fields.

theorem cc_of_eq {n w : Nat} (h : n = w) : some (Words.cc n) = some (.cc w) := by rw [h]

theorem ccWord_of_fields {w op f1 f2 low : Nat} (hw : w < 2 ^ 32) (hop : fld w 31 26 = op) (h1 : f1 = fld w 25 21)
    (h2 : f2 = fld w 20 16) (hl : low = fld w 15 0) : some (ccWord op f1 f2 low) = some (.cc w) := by
  subst hop h1 h2 hl
  simp only [ccWord, fld]
  congr 2
  omega

theorem rWord_of_fields {w func d a b low : Nat} (hw : w < 2 ^ 32) (hop : fld w 31 26 = 1) (hf : fld w 10 4 = func)
    (hd : d = fld w 25 21) (ha : a = fld w 20 16) (hb : b = fld w 15 11) (hl : low = fld w 3 0) :
    some (rWord func d a b low) = some (.cc w) := by
  subst hf hd ha hb hl
  rw [fld] at hop
  simp only [rWord, fld]
  congr 2
  omega

theorem mWord_of_fields {w op f1 : Nat} (hw : w < 2 ^ 32) (hop : fld w 31 26 = op) (h1 : f1 = fld w 25 21) :
    some (mWord op f1 (opndOf (fld w 20 16)) (widthOf (fld w 15 14)) (BitVec.ofNat 10 (fld w 13 4))
      (Fin.ofNat 16 (fld w 3 0))) = some (.cc w) := by
  refine ccWord_of_fields hw hop h1 (code_opndOf_fld rfl) ?_
  rw [code_widthOf (fld_lt rfl), toNat_ofNat_of_fld, val_ofNat_fld]
  · simp only [fld]
    omega
  all_goals rfl

theorem xWord_of_fields {w op f1 width scope cmp cls : Nat} (hw : w < 2 ^ 32) (hop : fld w 31 26 = op)
    (h1 : f1 = fld w 25 21) (hsp : fld w 10 9 < 3) (hwd : width = fld w 8 7) (hsc : scope = fld w 6 4)
    (hcmp : cmp = fld w 15 11) (hcls : cls = fld w 3 0) :
    some (xWord op (xspaceOf (fld w 10 9)) width scope f1 (opndOf (fld w 20 16)) cmp cls) = some (.cc w) := by
  subst hwd hsc hcmp hcls
  refine ccWord_of_fields hw hop h1 (code_opndOf_fld rfl) ?_
  rw [code_xspaceOf hsp]
  simp only [fld]
  omega

/-- The words of i are the word w, and i is well formed. -/
def EncodesCC (w : Nat) (i : Instr) : Prop := i.wf = true ∧ encode i = some (.cc w)

theorem encodesCC_of_decodeR {w : Nat} {i : Instr} (hw : w < 2 ^ 32) (hop : fld w 31 26 = 1)
    (h : decodeR w = .ok i) : EncodesCC w i := by
  simp only [decodeR] at h
  have ha : (opndOf (fld w 20 16)).code = fld w 20 16 := code_opndOf_fld rfl
  have hb : (opndOf (fld w 15 11)).code = fld w 15 11 := code_opndOf_fld rfl
  split at h
  case h_13 hf | h_14 hf | h_15 hf =>
    obtain ⟨hz, -, h⟩ := checked_eq_ok.mp h
    obtain ⟨d, hd, rfl⟩ := of_withDest h
    exact ⟨rfl, rWord_of_fields hw hop hf hd ha (by omega) (by omega)⟩
  case h_16 hf =>
    obtain ⟨hz, -, h⟩ := checked_eq_ok.mp h
    obtain ⟨d, hd, rfl⟩ := of_withDest h
    have hk : (Fin.ofNat 4 (fld w 3 2)).val = fld w 3 2 := val_ofNat_fld rfl
    have hinv : (decide (fld w 1 1 = 1)).toNat = fld w 1 1 := toNat_decide_fld
    have := fld_split w 3 2 1 0; have := fld_split w 1 1 0 0
    exact ⟨rfl, rWord_of_fields hw hop hf hd ha hb (by omega)⟩
  case h_23 => cases h
  all_goals
    rename_i hf
    obtain ⟨hz, -, h⟩ := checked_eq_ok.mp h
    obtain ⟨d, hd, rfl⟩ := of_withDest h
    exact ⟨rfl, rWord_of_fields hw hop hf hd ha hb hz.symm⟩

theorem encodesCC_of_decodeAtomic {w zeros op cmp : Nat} {i : Instr}
    {k : XSpace → Bool → Scope → Opnd → Opnd → Fin 16 → Instr}
    (hw : w < 2 ^ 32) (hop : fld w 31 26 = op) (h : decodeAtomic w zeros k = .ok i)
    (hcmp : zeros = 0 → cmp = fld w 15 11)
    (hk : ∀ sp dbl sc x a c, (k sp dbl sc x a c).wf = true ∧
      encode (k sp dbl sc x a c) = some (xWord op sp (atomWidth dbl) sc.code x.code a cmp c.val)) : EncodesCC w i := by
  obtain ⟨hz, hc, h⟩ := checked_eq_ok.mp h
  simp only [Bool.and_eq_true, decide_eq_true_eq] at hc
  obtain ⟨⟨hsp, hwd⟩, hsc⟩ := hc
  cases h
  refine ⟨(hk ..).1, (hk ..).2.trans (xWord_of_fields hw hop (code_opndOf_fld rfl) hsp ?_ (code_scopeOf hsc) (hcmp hz)
    (val_ofNat_fld rfl))⟩
  have h4 : fld w 8 7 < 4 := fld_lt rfl
  unfold atomWidth
  split
  · next h3 => exact (of_decide_eq_true h3).symm
  · next h3 =>
    have h3 : fld w 8 7 ≠ 3 := fun h => h3 (decide_eq_true h)
    omega

theorem encodesCC_of_decodeCC {w : Nat} {i : Instr} (hw : w < 2 ^ 32) (h : decodeCC w = .ok i) : EncodesCC w i := by
  simp only [decodeCC] at h
  have hx : (opndOf (fld w 25 21)).code = fld w 25 21 := code_opndOf_fld rfl
  have ha : (opndOf (fld w 20 16)).code = fld w 20 16 := code_opndOf_fld rfl
  have hb : (opndOf (fld w 15 11)).code = fld w 15 11 := code_opndOf_fld rfl
  have himm : (BitVec.ofNat 16 w).toNat = fld w 15 0 := toNat_ofNat_fld 15 w
  have hword := word_split hw
  have hdisp : (BitVec.ofNat 21 w).toNat = fld w 20 0 := toNat_ofNat_fld 20 w
  split at h
  case h_1 hop => exact encodesCC_of_decodeR hw hop h
  case h_2 hop | h_3 hop | h_4 hop | h_5 hop =>
    obtain ⟨d, hd, rfl⟩ := of_withDest h
    exact ⟨rfl, ccWord_of_fields hw hop hd ha himm⟩
  case h_32 hop | h_34 hop | h_36 hop | h_38 hop | h_40 hop =>
    obtain ⟨d, hd, rfl⟩ := of_withDest h
    exact ⟨rfl, mWord_of_fields hw hop hd⟩
  case h_33 hop | h_35 hop | h_37 hop | h_39 hop | h_41 hop =>
    cases h
    exact ⟨rfl, mWord_of_fields hw hop hx⟩
  case h_42 hop | h_44 hop | h_46 hop =>
    exact encodesCC_of_decodeAtomic hw hop h (fun hz => hz.symm) fun _ _ _ _ _ _ => ⟨rfl, rfl⟩
  case h_43 hop =>
    exact encodesCC_of_decodeAtomic hw hop h (fun _ => hb) fun _ _ _ _ _ _ => ⟨rfl, rfl⟩
  case h_45 hop =>
    have hk := code_maxKindOf (x := fld w 12 11) (fld_lt rfl)
    have := fld_split w 15 13 12 11
    exact encodesCC_of_decodeAtomic hw hop h (fun hz => by omega) fun _ _ _ _ _ _ => ⟨rfl, rfl⟩
  case h_6 hop =>
    obtain ⟨-, hc, h⟩ := checked_eq_ok.mp h
    obtain ⟨d, hd, rfl⟩ := of_withDest h
    refine ⟨rfl, ccWord_of_fields hw hop hd ha ?_⟩
    rw [code_condOf (of_decide_eq_true hc), toNat_ofNat_fld, fld_split w 15 13 12 0]
  case h_7 hop =>
    obtain ⟨hz, hc, h⟩ := checked_eq_ok.mp h
    obtain ⟨d, hd, rfl⟩ := of_withDest h
    have hamt : (BitVec.ofNat 6 w).toNat = fld w 5 0 := toNat_ofNat_fld 5 w
    have hc := of_decide_eq_true hc
    have := fld_split w 15 14 13 0; have := fld_split w 13 6 5 0
    split
    case h_1 h0 => exact ⟨rfl, ccWord_of_fields hw hop hd ha (by omega)⟩
    case h_2 h1 => exact ⟨rfl, ccWord_of_fields hw hop hd ha (by omega)⟩
    case h_3 h0 h1 =>
      replace h0 : fld w 15 14 ≠ 0 := h0
      replace h1 : fld w 15 14 ≠ 1 := h1
      exact ⟨rfl, ccWord_of_fields hw hop hd ha (by omega)⟩
  case h_8 hop =>
    obtain ⟨hz, -, h⟩ := checked_eq_ok.mp h
    obtain ⟨d, hd, rfl⟩ := of_withDest h
    exact ⟨rfl, ccWord_of_fields hw hop hd hz.symm himm⟩
  case h_9 hop =>
    obtain ⟨hz, hc, h⟩ := checked_eq_ok.mp h
    split at h
    case isFalse => cases h
    case isTrue hd =>
      cases h
      have hpos : (BitVec.ofNat 2 (fld w 17 16)).toNat = fld w 17 16 := toNat_ofNat_of_fld rfl
      have := fld_split w 20 18 17 16
      exact ⟨by simpa [Instr.wf, ← BitVec.toNat_inj, hpos] using hc,
        ccWord_of_fields hw hop (Nat.mod_eq_of_lt hd) (by omega) himm⟩
  case h_10 hop =>
    obtain ⟨hz, hc, h⟩ := checked_eq_ok.mp h
    obtain ⟨d, hd, rfl⟩ := of_withDest h
    have hf : (BitVec.ofNat 3 w).toNat = fld w 2 0 := toNat_ofNat_fld 2 w
    have := fld_split w 20 16 15 3; have := fld_split w 15 3 2 0
    exact ⟨by simpa [Instr.wf, ← BitVec.toNat_inj, hf] using hc, ccWord_of_fields hw hop hd (by omega) (by omega)⟩
  case h_11 hop =>
    obtain ⟨hz, hc, h⟩ := checked_eq_ok.mp h
    obtain ⟨d, hd, rfl⟩ := of_withDest h
    exact ⟨by rw [Instr.wf, himm]; exact hc, ccWord_of_fields hw hop hd hz.symm himm⟩
  case h_12 hop =>
    obtain ⟨hz, hc, h⟩ := checked_eq_ok.mp h
    split_ifs at h with h50 h51
    · cases h
      exact ⟨rfl, ccWord_of_fields hw hop hz.symm ha h50.symm⟩
    · cases h
      exact ⟨rfl, ccWord_of_fields hw hop hz.symm ha h51.symm⟩
    · cases h
      refine ⟨?_, ccWord_of_fields hw hop hz.symm ha himm⟩
      simp [Instr.wf, ← BitVec.toNat_inj, himm, hc, h50, h51]
  case h_13 hop =>
    obtain ⟨hz, -, h⟩ := checked_eq_ok.mp h
    obtain ⟨d, hd, rfl⟩ := of_withDest h
    have := fld_split w 20 16 15 0
    exact ⟨rfl, ccWord_of_fields hw hop hd (by omega) (by omega)⟩
  case h_14 hop =>
    obtain ⟨hz, hc, h⟩ := checked_eq_ok.mp h
    obtain ⟨d, hd, rfl⟩ := of_withDest h
    have hc := eq_of_beq hc
    have := fld_split w 15 11 10 0; have := fld_split w 10 8 7 0
    exact ⟨rfl, ccWord_of_fields hw hop hd ha (by omega)⟩
  case h_30 hop | h_31 hop =>
    obtain ⟨hz, -, h⟩ := checked_eq_ok.mp h
    obtain ⟨d, hd, rfl⟩ := of_withDest h
    have := fld_split w 15 11 10 0
    exact ⟨rfl, ccWord_of_fields hw hop hd ha (by omega)⟩
  case h_15 hop =>
    obtain ⟨hz, -, h⟩ := checked_eq_ok.mp h
    cases h
    exact ⟨rfl, ccWord_of_fields hw hop (by omega) ha (by omega)⟩
  case h_16 hop =>
    cases h
    have := fld_split w 20 16 15 0
    exact ⟨rfl, cc_of_eq (by omega)⟩
  case h_17 hop | h_18 hop =>
    obtain ⟨hz, -, h⟩ := checked_eq_ok.mp h
    cases h
    have := fld_split w 20 16 15 0
    exact ⟨rfl, cc_of_eq (by omega)⟩
  case h_19 hop | h_25 hop =>
    obtain ⟨hz, -, h⟩ := checked_eq_ok.mp h
    cases h
    have := fld_split w 25 21 20 0; have := fld_split w 20 16 15 0
    exact ⟨rfl, cc_of_eq (by omega)⟩
  case h_20 hop =>
    obtain ⟨-, hc, h⟩ := checked_eq_ok.mp h
    cases h
    have := fld_split w 20 16 15 0
    exact ⟨by simpa [Instr.wf, ← BitVec.toNat_inj, hdisp] using hc, cc_of_eq (by omega)⟩
  case h_21 hop =>
    obtain ⟨hz, -, h⟩ := checked_eq_ok.mp h
    cases h
    have hk : (Fin.ofNat 4 (fld w 22 21)).val = fld w 22 21 := val_ofNat_fld rfl
    have := fld_split w 25 23 22 21
    exact ⟨rfl, ccWord_of_fields hw hop (by omega) ha (by omega)⟩
  case h_22 hop | h_23 hop | h_50 hop =>
    obtain ⟨hz, -, h⟩ := checked_eq_ok.mp h
    cases h
    have hm : (BitVec.ofNat 6 (fld w 15 10)).toNat = fld w 15 10 := toNat_ofNat_of_fld rfl
    have := fld_split w 25 21 20 16; have := fld_split w 15 10 9 0; have := fld_split w 15 11 10 10
    have h0 : fld w 15 10 % 2 = 0 := by omega
    exact ⟨by simp [Instr.wf, BitVec.getLsbD, hm, Nat.testBit_zero, h0],
      ccWord_of_fields hw hop (by omega) (by omega) (by omega)⟩
  case h_24 hop =>
    obtain ⟨hz, -, h⟩ := checked_eq_ok.mp h
    cases h
    have hn : (BitVec.ofNat 8 w).toNat = fld w 7 0 := toNat_ofNat_fld 7 w
    have := fld_split w 25 16 15 8; have := fld_split w 25 21 20 16; have := fld_split w 15 8 7 0
    exact ⟨rfl, ccWord_of_fields hw hop (by omega) (by omega) (by omega)⟩
  case h_26 hop =>
    obtain ⟨hz, -, h⟩ := checked_eq_ok.mp h
    cases h
    have := fld_split w 25 21 20 16
    exact ⟨rfl, ccWord_of_fields hw hop (by omega) (by omega) himm⟩
  case h_27 hop =>
    obtain ⟨hz, hc, h⟩ := checked_eq_ok.mp h
    cases h
    simp only [Bool.and_eq_true, decide_eq_true_eq] at hc
    have := num_engOf hc.1; have := code_divOf hc.2 (fld_lt rfl)
    have := fld_split w 25 23 22 21; have := fld_split w 22 21 20 4; have := fld_split w 20 16 15 4
    have := fld_split w 15 4 3 0
    exact ⟨rfl, cc_of_eq (by omega)⟩
  case h_28 hop =>
    obtain ⟨hz, hc, h⟩ := checked_eq_ok.mp h
    cases h
    simp only [Bool.and_eq_true, decide_eq_true_eq] at hc
    obtain ⟨h1, h5⟩ := hc
    have he : (engOf (fld w 25 23)).num = fld w 25 23 := num_engOf (by omega)
    have hp : (Fin.ofNat 16 (fld w 15 12)).val = fld w 15 12 := val_ofNat_fld rfl
    have := fld_split w 25 23 22 21; have := fld_split w 15 12 11 0
    refine ⟨?_, cc_of_eq (by omega)⟩
    rw [Instr.wf, bne_iff_ne]
    intro h0
    rw [h0, Eng.num] at he
    omega
  case h_29 hop =>
    obtain ⟨hz, -, h⟩ := checked_eq_ok.mp h
    obtain ⟨d, hd, rfl⟩ := of_withDest h
    have hk : (BitVec.ofNat 2 (fld w 10 9)).toNat = fld w 10 9 := toNat_ofNat_of_fld rfl
    have := fld_split w 15 11 10 0; have := fld_split w 10 9 8 0
    exact ⟨rfl, ccWord_of_fields hw hop hd ha (by omega)⟩
  case h_47 hop =>
    obtain ⟨hz, hc, h⟩ := checked_eq_ok.mp h
    obtain ⟨d, hd, rfl⟩ := of_withDest h
    have := fld_split w 6 4 3 0
    exact ⟨rfl, xWord_of_fields hw hop hd (of_decide_eq_true hc) (code_widthOf (fld_lt rfl)) (by omega) (by omega)
      (by omega)⟩
  case h_48 hop =>
    obtain ⟨hz, hc, h⟩ := checked_eq_ok.mp h
    cases h
    have := fld_split w 6 4 3 0
    exact ⟨rfl, xWord_of_fields hw hop hx (of_decide_eq_true hc) (code_widthOf (fld_lt rfl)) (by omega) (by omega)
      (by omega)⟩
  case h_49 hop =>
    obtain ⟨hz, hc, h⟩ := checked_eq_ok.mp h
    cases h
    have hsc := code_scopeOf (of_decide_eq_true hc)
    have := fld_split w 25 21 20 19; have := fld_split w 20 19 18 16
    exact ⟨rfl, ccWord_of_fields hw hop (by omega) (by omega) himm⟩
  case h_51 hop =>
    obtain ⟨hz, hc, h⟩ := checked_eq_ok.mp h
    have hc := of_decide_eq_true hc
    cases h
    have := fld_split w 25 16 15 2; have := fld_split w 25 21 20 16; have := fld_split w 15 2 1 0
    have hlow : fld w 15 0 = fld w 1 0 := by omega
    split
    case h_1 h0 => exact ⟨rfl, ccWord_of_fields hw hop (by omega) (by omega) (hlow.trans h0).symm⟩
    case h_2 h1 => exact ⟨rfl, ccWord_of_fields hw hop (by omega) (by omega) (hlow.trans h1).symm⟩
    case h_3 h0 h1 =>
      replace h0 : fld w 1 0 ≠ 0 := h0
      replace h1 : fld w 1 0 ≠ 1 := h1
      have h2 : fld w 1 0 = 2 := by omega
      exact ⟨rfl, ccWord_of_fields hw hop (by omega) (by omega) (hlow.trans h2).symm⟩
  case h_52 hop | h_53 hop | h_60 hop =>
    obtain ⟨hz, -, h⟩ := checked_eq_ok.mp h
    cases h
    have := fld_split w 15 11 10 0
    exact ⟨rfl, ccWord_of_fields hw hop (by omega) ha (by omega)⟩
  case h_54 hop | h_55 hop =>
    obtain ⟨hz, hc, h⟩ := checked_eq_ok.mp h
    cases h
    simp only [Bool.or_eq_true, beq_iff_eq] at hc
    have hdie : (decide (fld w 18 16 = 2)).toNat + 1 = fld w 18 16 := by
      rcases hc with hc | hc <;> rw [hc] <;> rfl
    have hbar : (Fin.ofNat 16 (fld w 22 19)).val = fld w 22 19 := val_ofNat_fld rfl
    have := fld_split w 25 23 22 21; have := fld_split w 22 21 20 19; have := fld_split w 20 19 18 16
    exact ⟨rfl, cc_of_eq (by omega)⟩
  case h_56 hop =>
    obtain ⟨hz, hc, h⟩ := checked_eq_ok.mp h
    cases h
    have hq : (BitVec.ofNat 2 (fld w 22 21)).toNat = fld w 22 21 := toNat_ofNat_of_fld rfl
    have := fld_split w 25 23 22 21; have := fld_split w 15 11 10 0
    exact ⟨by simpa [Instr.wf, ← BitVec.toNat_inj, hq] using hc, ccWord_of_fields hw hop (by omega) ha (by omega)⟩
  case h_57 hop =>
    cases h
    have h5 : fld w 25 21 < 32 := fld_lt rfl
    have h11 : fld w 10 0 < 2048 := fld_lt rfl
    have hm : (BitVec.ofNat 16 (fld w 25 21 * 2048 + fld w 10 0)).toNat = fld w 25 21 * 2048 + fld w 10 0 := by
      rw [BitVec.toNat_ofNat]; omega
    have := fld_split w 15 11 10 0
    exact ⟨rfl, ccWord_of_fields hw hop (by omega) ha (by omega)⟩
  case h_58 hop =>
    obtain ⟨hz, -, h⟩ := checked_eq_ok.mp h
    cases h
    have ht : (Fin.ofNat 64 (fld w 15 10)).val = fld w 15 10 := val_ofNat_fld rfl
    have hk : (Fin.ofNat 16 (fld w 9 6)).val = fld w 9 6 := val_ofNat_fld rfl
    have := fld_split w 15 10 9 0; have := fld_split w 9 6 5 0
    exact ⟨rfl, ccWord_of_fields hw hop (by omega) ha (by omega)⟩
  case h_59 hop =>
    obtain ⟨hz, hc, h⟩ := checked_eq_ok.mp h
    obtain ⟨d, hd, rfl⟩ := of_withDest h
    have hk : (BitVec.ofNat 3 w).toNat = fld w 2 0 := toNat_ofNat_fld 2 w
    have := fld_split w 15 3 2 0
    exact ⟨by rw [Instr.wf, hk]; exact hc, ccWord_of_fields hw hop hd ha (by omega)⟩
  case h_61 hop =>
    obtain ⟨hz, -, h⟩ := checked_eq_ok.mp h
    obtain ⟨d, hd, rfl⟩ := of_withDest h
    exact ⟨rfl, ccWord_of_fields hw hop hd ha hz.symm⟩
  case h_62 => cases h

end Sys2Proof
end

section
/-! SUPPORT. A lane pair that decodes is the pair of the instruction it decodes to (R64-R69); and the
statement about both directions, O35. -/
namespace Sys2Proof

theorem val_slotOf {a hi lo : Nat} (h : 2 ^ (hi + 1 - lo) = 64) :
    (slotOf (fld a hi lo)).val = fld a hi lo := val_ofNat_fld h
theorem val_vregOf {a hi lo : Nat} (h : 2 ^ (hi + 1 - lo) = 256) :
    (vregOf (fld a hi lo)).val = fld a hi lo := val_ofNat_fld h
theorem val_paramOf {a hi lo : Nat} (h : 2 ^ (hi + 1 - lo) = 16) :
    (paramOf (fld a hi lo)).val = fld a hi lo := val_ofNat_fld h

-- The formats of a lane pair, from their fields (R64-R67).

theorem pairOf_of_fields {e : Eng} {a b op lowA lowB : Nat} (ha : a < 2 ^ 32) (hb : b < 2 ^ 32)
    (hg : fld b 16 16 = 0 → fld b 19 17 = 0) (hop : fld a 31 24 = op) (hA : lowA = fld a 23 0)
    (hB : lowB = fld b 15 0) : some (pairOf e op lowA (laneBOf b) lowB) = some (.pair e a b) := by
  subst hop hA hB
  rw [pairOf, code_laneBOf hb hg]
  congr 2
  simp only [fld]
  omega

theorem meWord_of_fields {a b op f1 f2 f3 low lowB : Nat} (ha : a < 2 ^ 32) (hb : b < 2 ^ 32)
    (hg : fld b 16 16 = 0 → fld b 19 17 = 0) (hop : fld a 31 24 = op) (h1 : f1 = fld a 23 18) (h2 : f2 = fld a 17 12)
    (h3 : f3 = fld a 11 6) (hl : low = fld a 5 0) (hB : lowB = fld b 15 0) :
    some (meWord op f1 f2 f3 low (laneBOf b) lowB) = some (.pair .me a b) := by
  have := fld_split a 23 18 17 0; have := fld_split a 17 12 11 0; have := fld_split a 11 6 5 0
  exact pairOf_of_fields ha hb hg hop (by omega) hB

/-- The words of i are the lane pair a and b of the engine e, and i is well formed. -/
def EncodesPair (e : Eng) (a b : Nat) (i : Instr) : Prop := i.wf = true ∧ encode i = some (.pair e a b)

theorem isQ_fmtOf_low {x : Nat} (h : x < 8) : (fmtOf x).isQ = false := by revert x; decide

theorem isQ_fmtOf_high {x : Nat} (h8 : 8 ≤ x) (h : x < 11) : (fmtOf x).isQ = true := by
  interval_cases x <;> rfl

theorem encodesPair_of_decodeProduct {a b : Nat} {i : Instr} (ha : a < 2 ^ 32) (hb : b < 2 ^ 32)
    (h : decodeProduct a b = .ok i) : EncodesPair .me a b i := by
  have h1 := val_slotOf (a := a) (hi := 23) (lo := 18) rfl
  have h2 := val_slotOf (a := a) (hi := 17) (lo := 12) rfl
  have h3 := val_slotOf (a := a) (hi := 11) (lo := 6) rfl
  have hop := fld_split a 31 28 27 24
  have := fld_split b 15 10 9 0; have := fld_split b 9 8 7 0; have := fld_split b 7 4 3 0
  simp only [decodeProduct, Bool.and_eq_true, decide_eq_true_eq] at h
  split_ifs at h with hma hmaQ hgo hgoQ
  · obtain ⟨hz, hg, -, hB, rfl⟩ := engChecked_eq_ok.mp h
    have hf := code_fmtOf (x := fld a 27 24) (by omega)
    exact ⟨by rw [Instr.wf, isQ_fmtOf_low hma.2, hB]; rfl,
      meWord_of_fields ha hb hg (by omega) h1 h2 h3 (by omega) (by dsimp only; omega)⟩
  · obtain ⟨hz, hg, hc, hB, rfl⟩ := engChecked_eq_ok.mp h
    have hf := code_fmtOf (x := fld a 27 24) (by omega)
    have hq := code_qgroupOf (x := fld b 9 8) (fld_lt rfl) (by simpa using hc)
    exact ⟨by rw [Instr.wf, isQ_fmtOf_high (by omega) hmaQ.2, hB]; rfl,
      meWord_of_fields ha hb hg (by omega) h1 h2 h3 (by omega) (by dsimp only; omega)⟩
  · obtain ⟨hz, hg, -, hB, rfl⟩ := engChecked_eq_ok.mp h
    have hf := code_fmtOf (x := fld a 27 24) (by omega)
    exact ⟨by rw [Instr.wf, isQ_fmtOf_low hgo.2, hB]; rfl,
      meWord_of_fields ha hb hg (by omega) h1 h2 h3 (by omega) (by dsimp only; omega)⟩
  · obtain ⟨hz, hg, hc, hB, rfl⟩ := engChecked_eq_ok.mp h
    have hf := code_fmtOf (x := fld a 27 24) (by omega)
    have hq := code_qgroupOf (x := fld b 9 8) (fld_lt rfl) (by simpa using hc)
    have hpart := val_slotOf (a := b) (hi := 15) (lo := 10) rfl
    have hp := val_paramOf (a := b) (hi := 7) (lo := 4) rfl
    exact ⟨by rw [Instr.wf, isQ_fmtOf_high (by omega) hgoQ.2, hB]; rfl,
      meWord_of_fields ha hb hg (by omega) h1 h2 h3 (by omega) (by dsimp only; omega)⟩

theorem encodesPair_of_decodeME {a b : Nat} {i : Instr} (ha : a < 2 ^ 32) (hb : b < 2 ^ 32)
    (h : decodeME a b = .ok i) : EncodesPair .me a b i := by
  have h1 := val_slotOf (a := a) (hi := 23) (lo := 18) rfl
  have h2 := val_slotOf (a := a) (hi := 17) (lo := 12) rfl
  have h3 := val_slotOf (a := a) (hi := 11) (lo := 6) rfl
  have h4 := val_slotOf (a := a) (hi := 5) (lo := 0) rfl
  have hp := val_paramOf (a := a) (hi := 3) (lo := 0) rfl
  have hbimm : (BitVec.ofNat 16 b).toNat = fld b 15 0 := toNat_ofNat_fld 15 b
  have haimm : (BitVec.ofNat 16 a).toNat = fld a 15 0 := toNat_ofNat_fld 15 a
  simp only [decodeME] at h
  split at h
  case h_1 hop | h_2 hop | h_6 hop =>
    obtain ⟨hz, hg, -, hB, rfl⟩ := engChecked_eq_ok.mp h
    have := fld_split a 17 12 11 6
    exact ⟨hB, meWord_of_fields ha hb hg hop h1 (by omega) (by omega) h4 (by omega)⟩
  case h_3 hop | h_7 hop =>
    obtain ⟨hz, hg, -, hB, rfl⟩ := engChecked_eq_ok.mp h
    have := fld_split a 17 12 11 4; have := fld_split a 11 6 5 4; have := fld_split a 5 4 3 0
    exact ⟨hB, meWord_of_fields ha hb hg hop h1 (by omega) (by omega) (by omega) (by omega)⟩
  case h_4 hop =>
    obtain ⟨hz, hg, hc, hB, rfl⟩ := engChecked_eq_ok.mp h
    simp only [Bool.and_eq_true, decide_eq_true_eq] at hc
    obtain ⟨⟨h6, hf⟩, hv⟩ := hc
    have hl : (Fin.ofNat 6 (fld a 23 21)).val = fld a 23 21 := Nat.mod_eq_of_lt h6
    have := code_nestFieldOf hf
    have := fld_split a 23 21 20 0; have := fld_split a 20 18 17 0; have := fld_split a 17 16 15 0
    exact ⟨Bool.and_eq_true_iff.mpr ⟨hv, hB⟩, pairOf_of_fields ha hb hg hop (by omega) (by omega)⟩
  case h_5 hop =>
    obtain ⟨-, hg, hc, hB, rfl⟩ := engChecked_eq_ok.mp h
    have := code_qgroupOf (x := fld a 5 4) (fld_lt rfl) (by simpa using hc)
    have := fld_split a 5 4 3 0
    exact ⟨hB, meWord_of_fields ha hb hg hop h1 h2 h3 (by omega) hbimm⟩
  case h_8 hop | h_9 hop | h_10 hop =>
    obtain ⟨hz, hg, -, hB, rfl⟩ := engChecked_eq_ok.mp h
    exact ⟨hB, meWord_of_fields ha hb hg hop h1 h2 h3 (by omega) (by omega)⟩
  case h_11 hop =>
    obtain ⟨hz, hg, -, hB, rfl⟩ := engChecked_eq_ok.mp h
    have hlad : (Fin.ofNat 16 (fld a 17 14)).val = fld a 17 14 := val_ofNat_fld rfl
    have hrole : (decide (fld a 13 13 = 1)).toNat = fld a 13 13 := toNat_decide_fld
    have := fld_split a 23 18 17 0; have := fld_split a 17 14 13 0; have := fld_split a 13 13 12 0
    have := fld_split a 12 4 3 0
    exact ⟨hB, pairOf_of_fields ha hb hg hop (by omega) hbimm⟩
  case h_12 hop =>
    obtain ⟨hz, hg, hc, hB, rfl⟩ := engChecked_eq_ok.mp h
    simp only [Bool.and_eq_true, decide_eq_true_eq, Bool.or_eq_true, bne_iff_ne] at hc
    obtain ⟨h7, hv⟩ := hc
    have hf := code_monFieldOf h7
    have := fld_split a 23 20 19 0; have := fld_split a 19 16 15 0
    refine ⟨?_, pairOf_of_fields ha hb hg hop (by omega) (by omega)⟩
    rw [Instr.wf, hB, haimm, Bool.and_true, Bool.or_eq_true, bne_iff_ne, decide_eq_true_eq]
    refine hv.imp_left fun h6 hcexp => h6 ?_
    rw [hcexp] at hf
    exact hf.symm
  case h_13 hop =>
    split_ifs at h with h0
    · obtain ⟨hz, hg, -, hB, rfl⟩ := engChecked_eq_ok.mp h
      have := fld_split a 23 6 5 0; have := fld_split a 5 4 3 0
      exact ⟨hB, pairOf_of_fields ha hb hg hop (by omega) (by omega)⟩
    · obtain ⟨hz, hg, hc, hB, rfl⟩ := engChecked_eq_ok.mp h
      have h4 : fld a 5 4 < 4 := fld_lt rfl
      have hx : (BitVec.ofNat 12 (fld a 23 12)).toNat = fld a 23 12 := toNat_ofNat_of_fld rfl
      have := fld_split a 23 12 11 0; have := fld_split a 11 6 5 0; have := fld_split a 5 4 3 0
      have hconf : 1 + (decide (fld a 5 4 = 2)).toNat = fld a 5 4 := by
        revert h0 hc
        interval_cases fld a 5 4 <;> decide
      exact ⟨hB, pairOf_of_fields ha hb hg hop (by dsimp only; omega) (by omega)⟩
  case h_14 hop =>
    obtain ⟨hz, hg, -, hB, rfl⟩ := engChecked_eq_ok.mp h
    have hnt : (decide (fld a 4 4 = 1)).toNat = fld a 4 4 := toNat_decide_fld
    have := fld_split a 5 5 4 0; have := fld_split a 4 4 3 0
    exact ⟨hB, meWord_of_fields ha hb hg hop h1 h2 h3 (by omega) (by omega)⟩
  case h_15 => exact encodesPair_of_decodeProduct ha hb h

-- The vector engine (R65).

theorem veWord_of_fields {a b op lowA t m r imm : Nat} (ha : a < 2 ^ 32) (hb : b < 2 ^ 32)
    (hg : fld b 16 16 = 0 → fld b 19 17 = 0) (hop : fld a 31 24 = op) (hA : lowA = fld a 23 0) (ht : t = fld b 15 12)
    (hm : m = fld b 11 9) (hr : r = fld b 8 7) (hi : imm = fld b 6 0) :
    some (pairOf .ve op lowA (laneBOf b) (t * 2 ^ 12 + m * 2 ^ 9 + r * 2 ^ 7 + imm)) = some (.pair .ve a b) := by
  have := fld_split b 15 12 11 0; have := fld_split b 11 9 8 0; have := fld_split b 8 7 6 0
  exact pairOf_of_fields ha hb hg hop hA (by omega)

theorem v3Word_of_fields {a b op imm : Nat} {rnd : Rnd} (ha : a < 2 ^ 32) (hb : b < 2 ^ 32)
    (hg : fld b 16 16 = 0 → fld b 19 17 = 0) (hop : fld a 31 24 = op) (ht : fld b 15 12 < 6)
    (hr : rnd.code = fld b 8 7) (hi : imm = fld b 6 0) :
    some (v3Word op ⟨vtyOf (fld b 15 12), rnd, Fin.ofNat 8 (fld b 11 9), vregOf (fld a 23 16), vregOf (fld a 15 8),
      vregOf (fld a 7 0)⟩ (laneBOf b) imm) =
      some (.pair .ve a b) := by
  refine veWord_of_fields ha hb hg hop ?_ (code_vtyOf ht) (val_ofNat_fld rfl) hr hi
  have := fld_split a 23 16 15 0; have := fld_split a 15 8 7 0
  have := val_vregOf (a := a) (hi := 23) (lo := 16) rfl
  have := val_vregOf (a := a) (hi := 15) (lo := 8) rfl
  have := val_vregOf (a := a) (hi := 7) (lo := 0) rfl
  dsimp only
  omega

theorem v2Word_of_fields {a b op imm : Nat} {rnd : Rnd} (ha : a < 2 ^ 32) (hb : b < 2 ^ 32)
    (hg : fld b 16 16 = 0 → fld b 19 17 = 0) (hop : fld a 31 24 = op) (h0 : fld a 7 0 = 0) (ht : fld b 15 12 < 6)
    (hr : rnd.code = fld b 8 7) (hi : imm = fld b 6 0) :
    some (v2Word op rnd ⟨vtyOf (fld b 15 12), Fin.ofNat 8 (fld b 11 9), vregOf (fld a 23 16), vregOf (fld a 15 8)⟩
      (laneBOf b) imm) = some (.pair .ve a b) := by
  refine veWord_of_fields ha hb hg hop ?_ (code_vtyOf ht) (val_ofNat_fld rfl) hr hi
  have := fld_split a 23 16 15 0; have := fld_split a 15 8 7 0
  have := val_vregOf (a := a) (hi := 23) (lo := 16) rfl
  have := val_vregOf (a := a) (hi := 15) (lo := 8) rfl
  dsimp only
  omega

theorem v4Word_of_fields {a b op : Nat} {rnd : Rnd} (ha : a < 2 ^ 32) (hb : b < 2 ^ 32)
    (hg : fld b 16 16 = 0 → fld b 19 17 = 0) (hop : fld a 31 24 = op) (ht : fld b 15 12 < 6)
    (hr : rnd.code = fld b 8 7) :
    some (v4Word op ⟨vtyOf (fld b 15 12), rnd, Fin.ofNat 8 (fld b 11 9), Fin.ofNat 128 (fld a 22 16), vregOf (fld a 15 8),
      vregOf (fld a 7 0), vregOf (fld a 23 23 * 128 + fld b 6 0)⟩ (laneBOf b)) = some (.pair .ve a b) := by
  have h7 : fld b 6 0 < 128 := fld_lt rfl
  have h1 : fld a 23 23 < 2 := fld_lt rfl
  have hc : (vregOf (fld a 23 23 * 128 + fld b 6 0)).val = fld a 23 23 * 128 + fld b 6 0 := Nat.mod_eq_of_lt (by omega)
  refine veWord_of_fields ha hb hg hop ?_ (code_vtyOf ht) (val_ofNat_fld rfl) hr (by dsimp only; omega)
  have := fld_split a 23 23 22 0; have := fld_split a 22 16 15 0; have := fld_split a 15 8 7 0
  have : (Fin.ofNat 128 (fld a 22 16)).val = fld a 22 16 := val_ofNat_fld rfl
  have := val_vregOf (a := a) (hi := 15) (lo := 8) rfl
  have := val_vregOf (a := a) (hi := 7) (lo := 0) rfl
  dsimp only
  omega

theorem vmWord_of_fields {a b op vx : Nat} (ha : a < 2 ^ 32) (hb : b < 2 ^ 32)
    (hg : fld b 16 16 = 0 → fld b 19 17 = 0) (hop : fld a 31 24 = op) (ht : fld b 15 12 < 6)
    (hx : vx = fld a 15 8) (h0 : fld b 8 0 = 0) :
    some (vmWord op vx ⟨vtyOf (fld b 15 12), Fin.ofNat 8 (fld b 11 9), vregOf (fld a 23 16), paramOf (fld a 7 4),
      paramOf (fld a 3 0)⟩ (laneBOf b)) =
      some (.pair .ve a b) := by
  have := code_vtyOf ht
  have : (Fin.ofNat 8 (fld b 11 9)).val = fld b 11 9 := val_ofNat_fld rfl
  have := fld_split b 15 12 11 0; have := fld_split b 11 9 8 0
  have := fld_split a 23 16 15 0; have := fld_split a 15 8 7 0; have := fld_split a 7 4 3 0
  have := val_vregOf (a := a) (hi := 23) (lo := 16) rfl
  have := val_paramOf (a := a) (hi := 7) (lo := 4) rfl
  have := val_paramOf (a := a) (hi := 3) (lo := 0) rfl
  exact pairOf_of_fields ha hb hg hop (by dsimp only; omega) (by dsimp only; omega)

theorem isFloat_vtyOf {x : Nat} (h : x < 6) : (vtyOf x).isFloat = decide (x < 3) := by revert x; decide

theorem rndOk_of_field {rounds c : Bool} {x z : Nat} (h : z + (if c = true then 0 else x) = 0)
    (hc : c = true → rounds = true) : rndOk rounds (rndOf x) = true := by
  cases c with
  | true => rw [rndOk, hc rfl, Bool.true_or]
  | false =>
    have h0 : x = 0 := (Nat.add_eq_zero_iff.mp h).2
    rw [rndOk, h0]
    exact Bool.or_true _

theorem encodesPair_of_decodeVE {a b : Nat} {i : Instr} (ha : a < 2 ^ 32) (hb : b < 2 ^ 32)
    (h : decodeVE a b = .ok i) : EncodesPair .ve a b i := by
  have h1 := val_slotOf (a := a) (hi := 23) (lo := 18) rfl
  have hrnd := code_rndOf (x := fld b 8 7) (fld_lt rfl)
  simp only [decodeVE] at h
  split at h
  case h_1 hop | h_2 hop | h_3 hop =>
    obtain ⟨hz, hg, hc, hB, rfl⟩ := engChecked_eq_ok.mp h
    have ht := of_decide_eq_true hc
    refine ⟨?_, v3Word_of_fields ha hb hg hop ht hrnd (by omega)⟩
    rw [Instr.wf, isFloat_vtyOf ht, hB, Bool.and_true]
    exact rndOk_of_field hz fun h => by simpa [Nat.not_le.mpr ht] using h
  case h_4 hop =>
    obtain ⟨hz, hg, hc, hB, rfl⟩ := engChecked_eq_ok.mp h
    have ht := of_decide_eq_true hc
    refine ⟨?_, v4Word_of_fields ha hb hg hop ht hrnd⟩
    rw [Instr.wf, isFloat_vtyOf ht, hB, Bool.and_true]
    exact rndOk_of_field ((Nat.zero_add _).trans hz) fun h => by simpa [Nat.not_le.mpr ht] using h
  case h_5 hop | h_6 hop | h_16 hop | h_17 hop | h_18 hop | h_22 hop =>
    obtain ⟨hz, hg, hc, hB, rfl⟩ := engChecked_eq_ok.mp h
    obtain ⟨hi, hr⟩ := Nat.add_eq_zero_iff.mp hz
    refine ⟨?_, v3Word_of_fields ha hb hg hop (of_decide_eq_true hc) hrnd hi.symm⟩
    rw [Instr.wf, hB, hr]
    rfl
  case h_7 hop | h_8 hop =>
    obtain ⟨hz, hg, hc, hB, rfl⟩ := engChecked_eq_ok.mp h
    exact ⟨hB, v2Word_of_fields ha hb hg hop (by omega) (of_decide_eq_true hc) (by rw [Rnd.code]; omega) (by omega)⟩
  case h_9 hop | h_10 hop | h_11 hop | h_12 hop =>
    obtain ⟨hz, hg, hc, hB, rfl⟩ := engChecked_eq_ok.mp h
    have ht : fld b 15 12 < 6 := Nat.lt_trans (of_decide_eq_true hc) (by decide)
    exact ⟨by rw [Instr.wf, isFloat_vtyOf ht, hB, hc]; rfl,
      v2Word_of_fields ha hb hg hop (by omega) ht (by rw [Rnd.code]; omega) (by omega)⟩
  case h_13 hop =>
    obtain ⟨hz, hg, hc, hB, rfl⟩ := engChecked_eq_ok.mp h
    simp only [Bool.and_eq_true, decide_eq_true_eq] at hc
    obtain ⟨ht, hd⟩ := hc
    have := code_vtyOf hd
    have := fld_split b 6 4 3 0
    refine ⟨?_, v2Word_of_fields ha hb hg hop (by omega) ht hrnd (by omega)⟩
    rw [Instr.wf, hB, Bool.and_true]
    exact rndOk_of_field hz fun h => by simpa [Nat.not_le.mpr ht, Nat.not_le.mpr hd] using h
  case h_14 hop =>
    obtain ⟨hz, hg, hc, hB, rfl⟩ := engChecked_eq_ok.mp h
    simp only [Bool.and_eq_true, decide_eq_true_eq] at hc
    obtain ⟨⟨⟨⟨ht, hm⟩, hi⟩, hun⟩, hltu⟩ := hc
    have hcond := code_vcondOf hi
    have hmd : (Fin.ofNat 7 (fld a 23 16)).val = fld a 23 16 := Nat.mod_eq_of_lt hm
    have hmask : (Fin.ofNat 8 (fld b 11 9)).val = fld b 11 9 := val_ofNat_fld rfl
    have := fld_split a 23 16 15 0; have := fld_split a 15 8 7 0
    have := val_vregOf (a := a) (hi := 15) (lo := 8) rfl
    have := val_vregOf (a := a) (hi := 7) (lo := 0) rfl
    have := code_vtyOf ht
    have := fld_split b 15 12 11 0; have := fld_split b 11 9 8 0; have := fld_split b 8 7 6 0
    refine ⟨?_, pairOf_of_fields ha hb hg hop (by omega) (by omega)⟩
    refine Bool.and_eq_true_iff.mpr ⟨?_, hB⟩
    rw [isFloat_vtyOf ht]
    clear hcond
    revert hun hltu
    generalize decide (fld b 15 12 < 3) = float
    interval_cases fld b 6 0 <;> cases float <;> decide
  case h_15 hop =>
    obtain ⟨hz, hg, hc, hB, rfl⟩ := engChecked_eq_ok.mp h
    refine ⟨?_, v4Word_of_fields ha hb hg hop (of_decide_eq_true hc) hrnd⟩
    rw [Instr.wf, hB, hz]
    rfl
  case h_19 hop =>
    obtain ⟨hz, hg, hc, hB, rfl⟩ := engChecked_eq_ok.mp h
    obtain ⟨hi, hr⟩ := Nat.add_eq_zero_iff.mp hz
    simp only [Bool.and_eq_true, decide_eq_true_eq] at hc
    refine ⟨?_, v3Word_of_fields ha hb hg hop hc.2 hrnd hi.symm⟩
    rw [Instr.wf, isFloat_vtyOf hc.2, hB, hr, decide_eq_false (Nat.not_lt.mpr hc.1)]
    rfl
  case h_20 hop =>
    obtain ⟨hz, hg, hc, hB, rfl⟩ := engChecked_eq_ok.mp h
    obtain ⟨hi, hr⟩ := Nat.add_eq_zero_iff.mp hz
    simp only [Bool.and_eq_true, decide_eq_true_eq] at hc
    have har : (decide (fld b 6 6 = 1)).toNat = fld b 6 6 := toNat_decide_fld
    have := fld_split b 6 6 5 0
    refine ⟨?_, v3Word_of_fields ha hb hg hop hc.2 hrnd (by omega)⟩
    rw [Instr.wf, isFloat_vtyOf hc.2, hB, hr, decide_eq_false (Nat.not_lt.mpr hc.1)]
    rfl
  case h_21 hop =>
    obtain ⟨hz, hg, hc, hB, rfl⟩ := engChecked_eq_ok.mp h
    simp only [Bool.and_eq_true, decide_eq_true_eq] at hc
    obtain ⟨ht, hi⟩ := hc
    refine ⟨?_, v2Word_of_fields ha hb hg hop (by omega) ht hrnd (code_redOpOf hi)⟩
    rw [Instr.wf, isFloat_vtyOf ht, hB, Bool.and_true]
    refine rndOk_of_field hz fun h => ?_
    simp only [Nat.not_le.mpr ht, decide_false, Bool.or_false, Bool.and_eq_true, decide_eq_true_eq] at h
    obtain ⟨hfloat, hsum⟩ := h
    rw [hsum, decide_eq_true hfloat]
    rfl
  case h_23 hop =>
    obtain ⟨hz, hg, hc, hB, rfl⟩ := engChecked_eq_ok.mp h
    have := val_slotOf (a := b) (hi := 5) (lo := 0) rfl
    have := fld_split b 6 6 5 0
    exact ⟨hB, v2Word_of_fields ha hb hg hop (by omega) (of_decide_eq_true hc) (by rw [Rnd.code]; omega) (by omega)⟩
  case h_24 hop =>
    obtain ⟨hz, hg, hc, hB, rfl⟩ := engChecked_eq_ok.mp h
    have := code_vtyOf (of_decide_eq_true hc)
    have hmask : (Fin.ofNat 8 (fld b 11 9)).val = fld b 11 9 := val_ofNat_fld rfl
    have := val_vregOf (a := a) (hi := 23) (lo := 16) rfl
    have := fld_split a 23 16 15 0
    have := fld_split b 15 12 11 0; have := fld_split b 11 9 8 0; have := fld_split b 8 7 6 0
    exact ⟨hB, pairOf_of_fields ha hb hg hop (by omega) (by omega)⟩
  case h_25 hop =>
    obtain ⟨hz, hg, hc, hB, rfl⟩ := engChecked_eq_ok.mp h
    have ht := of_decide_eq_true hc
    have := code_vtyOf ht
    have hmask : (Fin.ofNat 8 (fld b 11 9)).val = fld b 11 9 := val_ofNat_fld rfl
    have himm : (BitVec.ofNat 16 a).toNat = fld a 15 0 := toNat_ofNat_fld 15 a
    have := val_vregOf (a := a) (hi := 23) (lo := 16) rfl
    have := fld_split a 23 16 15 0
    have := fld_split b 15 12 11 0; have := fld_split b 11 9 8 0; have := fld_split b 8 7 6 0
    have := fld_split a 15 8 7 0
    have h8 : fld a 7 0 < 256 := fld_lt rfl
    refine ⟨?_, pairOf_of_fields ha hb hg hop (by omega) (by omega)⟩
    rw [Instr.wf, hB, himm, Bool.and_true, Bool.or_eq_true, bne_iff_ne, decide_eq_true_eq]
    by_cases h5 : fld b 15 12 = 5
    · rw [if_pos h5] at hz
      exact .inr (by omega)
    · refine .inl fun hi8 => h5 ?_
      rw [← code_vtyOf ht, hi8]
      rfl
  case h_26 hop | h_27 hop | h_28 hop | h_29 hop | h_30 hop | h_31 hop | h_32 hop =>
    obtain ⟨hz, hg, hc, hB, rfl⟩ := engChecked_eq_ok.mp h
    exact ⟨hB, vmWord_of_fields ha hb hg hop (of_decide_eq_true hc) (by omega) (by omega)⟩
  case h_33 hop =>
    obtain ⟨hz, hg, hc, hB, rfl⟩ := engChecked_eq_ok.mp h
    exact ⟨hB, vmWord_of_fields ha hb hg hop (of_decide_eq_true hc) (val_vregOf rfl) hz⟩
  case h_34 hop | h_35 hop =>
    obtain ⟨hz, hg, hc, hB, rfl⟩ := engChecked_eq_ok.mp h
    have hn : (BitVec.ofNat 6 a).toNat = fld a 5 0 := toNat_ofNat_fld 5 a
    have := fld_split a 23 6 5 0
    exact ⟨by rw [Instr.wf, hn, hB, hc]; rfl, pairOf_of_fields ha hb hg hop (by omega) (by omega)⟩
  case h_36 hop =>
    obtain ⟨hz, hg, hc, hB, rfl⟩ := engChecked_eq_ok.mp h
    simp only [Bool.or_eq_true, beq_iff_eq] at hc
    have hmask : (Fin.ofNat 8 (fld b 11 9)).val = fld b 11 9 := val_ofNat_fld rfl
    have := val_vregOf (a := a) (hi := 23) (lo := 16) rfl
    have := val_slotOf (a := a) (hi := 15) (lo := 10) rfl
    have := val_slotOf (a := a) (hi := 9) (lo := 4) rfl
    have := fld_split a 23 16 15 0; have := fld_split a 15 10 9 0; have := fld_split a 9 4 3 0
    have := fld_split b 15 12 11 0; have := fld_split b 11 9 8 0
    have hint : (if decide (fld b 15 12 = 3) = true then 3 else 0) = fld b 15 12 := by
      rcases hc with hc | hc <;> rw [hc] <;> rfl
    exact ⟨hB, pairOf_of_fields ha hb hg hop (by omega) (by omega)⟩
  case h_37 => cases h

-- The copy, gather and link engines.

theorem encodesPair_of_decodeCE {a b : Nat} {i : Instr} (ha : a < 2 ^ 32) (hb : b < 2 ^ 32)
    (h : decodeCE a b = .ok i) : EncodesPair .ce a b i := by
  have hs := val_slotOf (a := a) (hi := 23) (lo := 18) rfl
  have hp2 := val_paramOf (a := a) (hi := 11) (lo := 8) rfl
  have hp1 := val_paramOf (a := a) (hi := 7) (lo := 4) rfl
  have hp0 := val_paramOf (a := a) (hi := 3) (lo := 0) rfl
  have h11 := fld_split a 11 8 7 0; have h7 := fld_split a 7 4 3 0
  simp only [decodeCE] at h
  split at h
  case h_1 hop =>
    obtain ⟨hz, hg, -, hB, rfl⟩ := engChecked_eq_ok.mp h
    have hspec : (decide (fld a 17 17 = 1)).toNat = fld a 17 17 := toNat_decide_fld
    have hpost : (decide (fld a 16 16 = 1)).toNat = fld a 16 16 := toNat_decide_fld
    have := fld_split a 23 18 17 0; have := fld_split a 17 17 16 0; have := fld_split a 16 16 15 0
    have := fld_split a 15 4 3 0
    exact ⟨hB, pairOf_of_fields ha hb hg hop (by omega) (by omega)⟩
  case h_2 hop =>
    obtain ⟨hz, hg, -, hB, rfl⟩ := engChecked_eq_ok.mp h
    have := code_cspaceOf (x := fld a 23 22) (fld_lt rfl)
    have := fld_split a 23 22 21 0; have := fld_split a 21 12 11 0
    exact ⟨hB, pairOf_of_fields ha hb hg hop (by rw [p3]; omega) (by omega)⟩
  case h_3 hop =>
    obtain ⟨hz, hg, -, hB, rfl⟩ := engChecked_eq_ok.mp h
    have := fld_split a 23 8 7 0
    exact ⟨hB, pairOf_of_fields ha hb hg hop (by omega) (by omega)⟩
  case h_4 hop =>
    obtain ⟨hz, hg, -, hB, rfl⟩ := engChecked_eq_ok.mp h
    have := fld_split a 23 18 17 0
    exact ⟨hB, pairOf_of_fields ha hb hg hop (by omega) (by omega)⟩
  case h_5 hop =>
    obtain ⟨hz, hg, hc, hB, rfl⟩ := engChecked_eq_ok.mp h
    simp only [Bool.and_eq_true, bne_iff_ne] at hc
    have hx := code_cspaceOf (x := fld a 23 22) (fld_lt rfl)
    have hy := code_cspaceOf (x := fld a 21 20) (fld_lt rfl)
    have := fld_split a 23 22 21 0; have := fld_split a 21 20 19 0; have := fld_split a 19 12 11 0
    refine ⟨?_, pairOf_of_fields ha hb hg hop (by rw [p3]; omega) (by omega)⟩
    simp only [Instr.wf, hB, Bool.and_true, Bool.and_eq_true, bne_iff_ne]
    exact ⟨fun h => hc.1 (by rw [← hx, h]; rfl), fun h => hc.2 (by rw [← hy, h]; rfl)⟩
  case h_6 => cases h

theorem encodesPair_of_decodeGE {a b : Nat} {i : Instr} (ha : a < 2 ^ 32) (hb : b < 2 ^ 32)
    (h : decodeGE a b = .ok i) : EncodesPair .ge a b i := by
  have hs := val_slotOf (a := a) (hi := 23) (lo := 18) rfl
  have hn := val_slotOf (a := a) (hi := 17) (lo := 12) rfl
  have hrows : (Fin.ofNat 4096 (fld a 23 12)).val = fld a 23 12 := val_ofNat_fld rfl
  have hp2 := val_paramOf (a := a) (hi := 11) (lo := 8) rfl
  have hp1 := val_paramOf (a := a) (hi := 7) (lo := 4) rfl
  have hp0 := val_paramOf (a := a) (hi := 3) (lo := 0) rfl
  have h23 := fld_split a 23 12 11 0; have h11 := fld_split a 11 8 7 0; have h7 := fld_split a 7 4 3 0
  have hlen : (BitVec.ofNat 16 b).toNat = fld b 15 0 := toNat_ofNat_fld 15 b
  simp only [decodeGE] at h
  split at h
  case h_1 hop =>
    obtain ⟨hz, hg, hc, hB, rfl⟩ := engChecked_eq_ok.mp h
    simp only [Bool.and_eq_true, decide_eq_true_eq] at hc
    have := code_csrFmtOf hc.1 hc.2
    have := fld_split a 23 18 17 12
    exact ⟨hB, pairOf_of_fields ha hb hg hop (by omega) (by omega)⟩
  case h_2 hop =>
    obtain ⟨hz, hg, -, hB, rfl⟩ := engChecked_eq_ok.mp h
    have := fld_split a 23 18 17 0; have := fld_split a 17 8 7 0
    exact ⟨hB, pairOf_of_fields ha hb hg hop (by omega) (by omega)⟩
  case h_3 hop | h_4 hop =>
    obtain ⟨-, hg, hc, hB, rfl⟩ := engChecked_eq_ok.mp h
    refine ⟨?_, pairOf_of_fields ha hb hg hop (by rw [p3]; omega) hlen⟩
    simpa [Instr.wf, hB, ← BitVec.toNat_inj, hlen] using hc
  case h_5 => cases h

theorem encodesPair_of_decodeLE {a b : Nat} {i : Instr} (ha : a < 2 ^ 32) (hb : b < 2 ^ 32)
    (h : decodeLE a b = .ok i) : EncodesPair .le a b i := by
  have hpk := val_paramOf (a := a) (hi := 15) (lo := 12) rfl
  have hs := val_paramOf (a := a) (hi := 11) (lo := 8) rfl
  have hd := val_paramOf (a := a) (hi := 7) (lo := 4) rfl
  have hc := val_paramOf (a := a) (hi := 3) (lo := 0) rfl
  have h11 := fld_split a 11 8 7 0; have h7 := fld_split a 7 4 3 0
  have hlen : (Fin.ofNat 4096 (fld b 11 0)).val = fld b 11 0 := val_ofNat_fld rfl
  have hb15 := fld_split b 15 12 11 0
  simp only [decodeLE] at h
  split at h
  case h_1 hop =>
    obtain ⟨hz, hg, -, hB, rfl⟩ := engChecked_eq_ok.mp h
    have := fld_split a 23 23 22 0; have := fld_split a 22 22 21 0; have := fld_split a 21 16 15 0
    have := fld_split a 15 12 11 0
    have h22 : fld a 22 22 < 2 := fld_lt rfl
    refine ⟨hB, pairOf_of_fields ha hb hg hop ?_ (by omega)⟩
    by_cases h1 : fld a 22 22 = 1
    · rw [if_pos h1, p3]
      dsimp only [Option.isSome, Option.getD]
      rw [if_pos rfl]
      omega
    · have h0 : fld a 22 22 = 0 := by omega
      rw [if_pos h0] at hz
      rw [if_neg h1, p3]
      dsimp only [Option.isSome, Option.getD]
      rw [if_neg Bool.false_ne_true, Fin.val_zero, Nat.zero_mul, Nat.zero_add, Nat.add_zero]
      omega
  case h_2 hop =>
    obtain ⟨hz, hg, -, hB, rfl⟩ := engChecked_eq_ok.mp h
    have hhalf : (decide (fld a 23 23 = 1)).toNat = fld a 23 23 := toNat_decide_fld
    have := val_paramOf (a := b) (hi := 15) (lo := 12) rfl
    have := fld_split a 23 23 22 0; have := fld_split a 22 16 15 0; have := fld_split a 15 12 11 0
    exact ⟨hB, pairOf_of_fields ha hb hg hop (by rw [p3]; omega) (by omega)⟩
  case h_3 hop =>
    obtain ⟨hz, hg, -, hB, rfl⟩ := engChecked_eq_ok.mp h
    have := fld_split a 23 4 3 0
    exact ⟨hB, pairOf_of_fields ha hb hg hop (by omega) (by omega)⟩
  case h_4 => cases h

theorem encodesPair_of_decodeEngine {e : Eng} {a b : Nat} {i : Instr} (ha : a < 2 ^ 32) (hb : b < 2 ^ 32)
    (h : decodeEngine e a b = .ok i) : EncodesPair e a b i := by
  cases e with
  | cc => cases h
  | me => exact encodesPair_of_decodeME ha hb h
  | ve => exact encodesPair_of_decodeVE ha hb h
  | ce => exact encodesPair_of_decodeCE ha hb h
  | ge => exact encodesPair_of_decodeGE ha hb h
  | le => exact encodesPair_of_decodeLE ha hb h

/-- Settles O35: the words of each instruction decode by their fields, and each arm of the decoder keeps every bit of
its word in a field of its instruction. -/
theorem encodeAndDecodeAgree : Obligations.EncodeAndDecodeAgree := by
  unfold Obligations.EncodeAndDecodeAgree
  exact ⟨fun i w hwf h => decodes i w hwf h, fun _ _ hw h => encodesCC_of_decodeCC hw h,
    fun _ _ _ _ ha hb h => encodesPair_of_decodeEngine ha hb h⟩

end Sys2Proof
end

section
/-! SUPPORT. Where BR, JMP, CALL and RET take the control thread (R58, R81, R296, R299, R323, R345). -/
namespace Sys2Proof.Machine

-- Targets.

/-- The displacement of R58 counts lines of 32 bytes, with its sign. -/
theorem Core.target_eq (c : Core) (disp : BitVec 21) :
    c.target disp = c.fetch.line + BitVec.ofInt 64 (32 * disp.toInt) := by
  have h : sext 21 disp * 32 = BitVec.ofInt 64 (32 * disp.toInt) := by
    apply BitVec.eq_of_toInt_eq
    rw [BitVec.toInt_mul, sext, BitVec.toInt_signExtend_of_le (by decide), BitVec.toInt_ofInt, Int.mul_comm]
    rfl
  rw [Core.target, h]

theorem Core.goTo_line (c : Core) (t : Word) : (c.goTo t).fetch.line = t ∧ (c.goTo t).fetch.lane = 1 ∧
    (c.goTo t).fetch.opened = false := ⟨rfl, rfl, rfl⟩

theorem goesTo_goTo {t : State} {c : Core} {line : Word} (h : t.core = c.goTo line) : GoesTo t line := by
  rw [GoesTo, h]
  exact c.goTo_line line

/-- Loops that a transfer leaves change the loops and the copied bank counters alone. -/
theorem Core.leaveLoops_frame (c : Core) (t : Word) :
    { c.leaveLoops t with fetch := c.fetch, bcmSnap := c.bcmSnap, snapOpen := c.snapOpen,
                          snapFrozen := c.snapFrozen } = c := by
  unfold Core.leaveLoops
  dsimp only
  split <;> rfl

theorem onlyFetch_jump (s : State) (t : Word) : OnlyFetch s (s.jump t) := by
  refine ⟨onlyCore_upd _ _, ?_⟩
  rw [State.jump, State.core_upd]
  exact s.core.leaveLoops_frame t

theorem goesTo_jump (s : State) (t : Word) : GoesTo (s.jump t) t :=
  goesTo_goTo (State.core_upd _ _)

-- BR, JMP and CALL.

theorem exec_br (c : Opnd) (disp : BitVec 21) (s : State) : exec (.br c disp) s = execBr c disp s := rfl
theorem exec_jmp (disp : BitVec 21) (s : State) : exec (.jmp disp) s = .next (s.jump (s.core.target disp)) := rfl
theorem exec_call (disp : BitVec 21) (s : State) : exec (.call disp) s = execCall disp s := rfl
theorem exec_ret (s : State) : exec .ret s = execRet s := rfl

theorem execBr_taken {c : Opnd} {s : State} (disp : BitVec 21) (he : s.core.exposed = false) (h : s.operand c ≠ 0) :
    execBr c disp s = .next (s.jump (s.core.target disp)) := by
  rw [execBr, scoreboardOnly_of_not_exposed he, if_pos h, finish_goes]

theorem execBr_not_taken {c : Opnd} {s : State} (disp : BitVec 21) (he : s.core.exposed = false)
    (h : s.operand c = 0) : execBr c disp s = .next s.advance := by
  rw [execBr, scoreboardOnly_of_not_exposed he, if_neg (not_not_intro h), finish_done]

theorem onlyRegs_advance (s : State) : OnlyRegs s s.advance :=
  ⟨onlyCore_advance s, by rw [State.core_advance]⟩

/-- CALL links to the line after its own and keeps the loops (R58, R299). -/
theorem call_goes (disp : BitVec 21) (s : State) :
    ∃ t, exec (.call disp) s = .next t ∧ OnlyRegs s t ∧ GoesTo t (s.core.target disp) ∧
      t.core.fetch.loops = s.core.fetch.loops ∧
      t.core.regs = { s.core.regs with n := s.core.regs.n.set 15 (s.core.fetch.line + 32) } := by
  let u := s.updRegs fun r => { r with n := r.n.set 15 (s.core.fetch.line + 32) }
  have hu : (u.upd fun c => c.goTo (s.core.target disp)).core = u.core.goTo (s.core.target disp) := State.core_upd _ _
  have hc : u.core = { s.core with
      regs := { s.core.regs with n := s.core.regs.n.set 15 (s.core.fetch.line + 32) } } := State.core_updRegs _ _
  refine ⟨_, rfl, ⟨(onlyCore_updRegs _ _).trans (onlyCore_upd _ _), ?_⟩, goesTo_goTo hu, ?_, ?_⟩ <;>
    rw [hu, hc] <;> rfl

-- RET.

variable {s : State}

theorem execRet_goes (he : s.core.exposed = false) (h0 : s.core.regs.n[15] ≠ 0)
    (ha : (s.core.regs.n[15]).toNat % 32 = 0) :
    execRet s = .next (s.upd fun c => c.goTo s.core.regs.n[15]) := by
  simp only [execRet, scoreboardOnly_of_not_exposed he, if_neg h0, if_neg (not_not_intro ha), finish_goes]

theorem execRet_ends (he : s.core.exposed = false) (h0 : s.core.regs.n[15] = 0) (hi : s.core.trap.inh = false) :
    execRet s = .next (s.updWork fun w => { w with run := .ending }) := by
  simp only [execRet, scoreboardOnly_of_not_exposed he, if_pos h0, hi, finish_goes, Bool.false_eq_true, if_false]

theorem execRet_misaligned (he : s.core.exposed = false) (ha : (s.core.regs.n[15]).toNat % 32 ≠ 0) :
    execRet s = finish (.trap 0x03 (infoLocal s.core.regs.n[15]) s) := by
  have h0 : s.core.regs.n[15] ≠ 0 := fun h => ha (by rw [h]; rfl)
  simp only [execRet, scoreboardOnly_of_not_exposed he, if_neg h0, if_pos ha]

/-- RET traps in a handler for each of its three reasons: it is exposed, it would end the invocation, or its target is
misaligned (R58, R81, R345). -/
theorem execRet_traps (hi : s.core.trap.inh = true)
    (h : s.core.exposed = true ∨ s.core.regs.n[15] = 0 ∨ (s.core.regs.n[15]).toNat % 32 ≠ 0) :
    ∃ code info, execRet s = finish (.trap code info s) := by
  by_cases he : s.core.exposed = true
  · exact ⟨_, _, by rw [execRet, scoreboardOnly_of_exposed he]⟩
  have he' : s.core.exposed = false := by simpa using he
  rcases h with h | h0 | ha
  · exact absurd h he
  · exact ⟨0x01, illegalInfo 0x17, by
      simp only [execRet, scoreboardOnly_of_not_exposed he', if_pos h0, hi, if_true]⟩
  · exact ⟨_, _, execRet_misaligned he' ha⟩

/-- A double fault stops the core in place: its traps, registers and fetch position are frozen (R214). -/
theorem State.doubleFault_core (s : State) : s.doubleFault.core =
    { s.core with work := { s.core.work with run := .doubleFault, preempt := none } } := by
  have h : ((s.updWork fun w => { w with run := .doubleFault, preempt := none }).logEvent 5 0 s.core.fetch.line 0
      s.core.ctx .cc).core = { s.core with work := { s.core.work with run := .doubleFault, preempt := none } } := by
    rw [State.core_logEvent, State.core_updWork]
  unfold State.doubleFault
  dsimp only
  split
  · rw [State.respond, State.core_signal]
    exact h
  · exact h

theorem finish_trap_in_handler (hi : s.core.trap.inh = true) (code : Nat) (info : Word) :
    finish (.trap code info s) = .next s.doubleFault := by
  simp [finish, State.syncTrap, State.enterTrap, hi]

theorem ret_double_faults (hi : s.core.trap.inh = true)
    (h : s.core.exposed = true ∨ s.core.regs.n[15] = 0 ∨ (s.core.regs.n[15]).toNat % 32 ≠ 0) :
    ∃ t, exec .ret s = .next t ∧ t.core.work.run = .doubleFault ∧ t.core.trap = s.core.trap ∧
      t.core.regs = s.core.regs ∧ t.core.fetch = s.core.fetch := by
  obtain ⟨code, info, hr⟩ := execRet_traps hi h
  refine ⟨s.doubleFault, by rw [exec_ret, hr, finish_trap_in_handler hi], ?_⟩
  rw [State.doubleFault_core]
  exact ⟨rfl, rfl, rfl, rfl⟩

theorem ret_goes (he : s.core.exposed = false) (h0 : s.core.regs.n[15] ≠ 0)
    (ha : (s.core.regs.n[15]).toNat % 32 = 0) :
    ∃ t, exec .ret s = .next t ∧ OnlyRegs s t ∧ SameRegs s t ∧ GoesTo t s.core.regs.n[15] ∧
      t.core.fetch.loops = s.core.fetch.loops := by
  have hc : (s.upd fun c => c.goTo s.core.regs.n[15]).core = s.core.goTo s.core.regs.n[15] := State.core_upd _ _
  refine ⟨_, (exec_ret s).trans (execRet_goes he h0 ha), ⟨onlyCore_upd _ _, ?_⟩, ?_, goesTo_goTo hc, ?_⟩
  · rw [hc]; rfl
  · rw [SameRegs, hc]; rfl
  · rw [hc]; rfl

/-- Settles O3: each instruction has its equation, and a trap of RET in a handler is a double fault. -/
theorem transfersOfControl : Obligations.TransfersOfControl := by
  unfold Obligations.TransfersOfControl
  intro c disp s line target n15
  have ht : s.core.target disp = target := s.core.target_eq disp
  refine ⟨fun he h => ?_, fun he h => ?_, ?_, ht ▸ call_goes disp s, ret_goes, fun he h0 hi => ?_,
    fun he ha hc => ?_, ret_double_faults, fun he hc => ⟨?_, ?_⟩⟩
  · exact ⟨_, (exec_br c disp s).trans (execBr_taken disp he h), onlyFetch_jump _ _, ht ▸ goesTo_jump _ _⟩
  · exact ⟨_, (exec_br c disp s).trans (execBr_not_taken disp he h), onlyRegs_advance s,
      by rw [SameRegs, State.core_advance], by rw [NextLane, State.core_advance]⟩
  · exact ⟨_, exec_jmp disp s, onlyFetch_jump _ _, ht ▸ goesTo_jump _ _⟩
  · exact ⟨_, (exec_ret s).trans (execRet_ends he h0 hi), onlyCore_updWork _ _, State.core_updWork _ _⟩
  · exact trapsHere_of hc (by decide) ((exec_ret s).trans (execRet_misaligned he ha))
  · exact trapsHere_of_exposed he hc (exec_br c disp s)
  · exact trapsHere_of_exposed he hc (exec_ret s)

end Sys2Proof.Machine
end

section
/-! SUPPORT. Effective addresses and local spaces (R61, R114, R115), and the places of the bytes of a translated page
(R119). -/
namespace Sys2Proof.Machine

-- Effective addresses (R61).

theorem toInt_widthBytes (w : Width) : (BitVec.ofNat 64 (widthBytes w)).toInt = widthBytes w := by
  cases w <;> decide

theorem effective_of_local {sp : Space} (h : sp ≠ .g) (base : Word) (off : BitVec 10) (w : Width) :
    effective sp base off w = (BitVec.ofInt 64 (base.toInt + off.toInt * widthBytes w), false) := by
  rw [effective, if_neg h]
  refine Prod.ext (BitVec.eq_of_toInt_eq ?_) rfl
  simp only
  rw [BitVec.toInt_add, BitVec.toInt_mul, sext, BitVec.toInt_signExtend_of_le (by decide), BitVec.toInt_ofInt,
    toInt_widthBytes, Int.add_bmod_bmod]

/-- The buffer number and the offset of the address that `effective` forms in G. -/
theorem effective_toNat (base : Word) (sum : Int) :
    (BitVec.ofNat 64 (base.toNat / 2 ^ 48 * 2 ^ 48 + (sum % 2 ^ 48).toNat)).toNat =
      base.toNat / 2 ^ 48 * 2 ^ 48 + (sum % 2 ^ 48).toNat := by
  have := base.isLt
  rw [BitVec.toNat_ofNat, Nat.mod_eq_of_lt (by omega)]

-- The local spaces (R114, R115).

theorem resolve_of_local {s : State} {sp : Space} {a : Word} {n : Nat} (k : GKind) (hg : sp ≠ .g) {P : Prop}
    [Decidable P] {l : Loc} {o : Nat} (h : s.localAddr sp a n = if P then some (l, o) else none) :
    s.resolve sp k a n = if P then .ok (l, (List.range n).map (o + ·)) else .error ⟨0x04, infoLocal a, none⟩ := by
  rw [State.resolve, if_neg hg, h]
  by_cases hp : P
  · simp [hp]
  · simp [hp]

theorem State.localAddr_n (s : State) (a : Word) (n : Nat) : s.localAddr .n a n =
    if a.toNat < 0x1000000 ∧ a.toNat % 0x400000 + n ≤ 0x300000
    then some (.u (s.cur.val / 4 * 4 + a.toNat / 0x400000), a.toNat % 0x400000) else none := by
  simp only [State.localAddr, State.cluster, Bool.and_eq_true, decide_eq_true_eq]
  rfl

-- The stacks of an HBM4E page (R119).

/-- The set bits of a mask below n. -/
theorem popcount_eq_countP (n m : Nat) : popcount n m = (List.range n).countP m.testBit := by
  induction n generalizing m with
  | zero => rfl
  | succ n ih =>
    rw [popcount, ih, List.range_succ_eq_map, List.countP_cons, List.countP_map, Nat.add_comm]
    congr 1
    · exact List.countP_congr fun i _ => by simp [Nat.testBit_succ]
    · rcases Nat.mod_two_eq_zero_or_one m with h | h <;> simp [h]

/-- `nthSet` finds the bit before which k bits of the mask are set. -/
theorem nthSet_spec (m : Nat) : ∀ n a k, k < ((List.range' a n).countP m.testBit) →
    ∃ j, j < n ∧ nthSet (List.range' a n) m k = a + j ∧ m.testBit (a + j) = true ∧
      (List.range' a j).countP m.testBit = k
  | 0, _, _, h => by simp at h
  | n + 1, a, k, h => by
    rw [List.range'_succ, List.countP_cons] at h
    rw [List.range'_succ]
    by_cases hb : m.testBit a = true
    · have hb' : m / 2 ^ a % 2 = 1 := by simpa [Nat.testBit_eq_decide_div_mod_eq] using hb
      cases k with
      | zero => exact ⟨0, by omega, by simp [nthSet, hb'], by simpa using hb, rfl⟩
      | succ k =>
        obtain ⟨j, hj, hn, ht, hc⟩ := nthSet_spec m n (a + 1) k (by simp [hb] at h; exact h)
        refine ⟨j + 1, by omega, by simp only [nthSet, hb', if_true, hn]; omega, ?_, ?_⟩
        · rw [show a + (j + 1) = a + 1 + j by omega]; exact ht
        · rw [List.range'_succ, List.countP_cons, hc, hb]; rfl
    · have hb' : ¬ m / 2 ^ a % 2 = 1 := by simpa [Nat.testBit_eq_decide_div_mod_eq] using hb
      obtain ⟨j, hj, hn, ht, hc⟩ := nthSet_spec m n (a + 1) k (by simpa [hb] using h)
      refine ⟨j + 1, by omega, by simp only [nthSet, hb', if_false, hn]; omega, ?_, ?_⟩
      · rw [show a + (j + 1) = a + 1 + j by omega]; exact ht
      · rw [List.range'_succ, List.countP_cons, hc, if_neg hb, Nat.add_zero]

/-- A set bit is known by the number of set bits before it. -/
theorem testBit_unique {m i j : Nat} (hi : m.testBit i = true) (hj : m.testBit j = true)
    (h : (List.range i).countP m.testBit = (List.range j).countP m.testBit) : i = j := by
  refine Nat.count_injective (p := fun b => m.testBit b = true) hi hj ?_
  simpa [Nat.count] using h

/-- The stack whose turn it is among those of a mask. -/
theorem nthSet_eq_iff {m k : Nat} (hk : k < popcount 16 m) (stack : Nat) : nthSet (List.range 16) m k = stack ↔
    stack < 16 ∧ m.testBit stack = true ∧ (List.range stack).countP m.testBit = k := by
  rw [popcount_eq_countP, List.range_eq_range'] at hk
  obtain ⟨j, hj, hn, ht, hc⟩ := nthSet_spec m 16 0 k hk
  rw [Nat.zero_add] at hn ht
  rw [List.range_eq_range', hn]
  constructor
  · rintro rfl
    exact ⟨hj, ht, by rw [List.range_eq_range', hc]⟩
  · rintro ⟨-, h, h'⟩
    exact testBit_unique ht h (by rw [h', List.range_eq_range', hc])

/-- The place that the model gives a byte of a translated page is the one of R119. -/
theorem Xlat.phys_iff_pagePlace (x : Xlat) {page o : Nat} {d : Word} (h : List.lookup page x.pages = some d)
    (ho : o < 65536) (p : Nat) : x.phys (65536 * page + o) = some p ↔ PagePlace x.word2 d o p := by
  have e1 : (65536 * page + o) / 65536 = page := by omega
  have e2 : (65536 * page + o) % 65536 = o := by omega
  have hstack : stackBytes = 48 * 10 ^ 9 := rfl
  have htier : tierBytes = 2 * 10 ^ 12 := rfl
  unfold Xlat.phys Xlat.formula PagePlace
  simp only [e1, e2, h]
  by_cases h62 : d.getLsbD 62 = true
  · simp only [h62, if_true, htier, Option.ite_none_right_eq_some, Option.some.injEq]
    exact ⟨fun ⟨hb, hp⟩ => ⟨hp.symm, hb⟩, fun ⟨hp, hb⟩ => ⟨hb, hp.symm⟩⟩
  rw [if_neg h62, if_neg h62]
  simp only [← popcount_eq_countP 16]
  show _ ↔ ∃ stack, stack < 16 ∧ (wordSmask x.word2).testBit stack = true ∧ _ ∧ _
  by_cases hn : popcount 16 (wordSmask x.word2) = 0
  · simp only [hn, if_true, reduceCtorEq, false_iff]
    rintro ⟨stack, h16, ht, -⟩
    rw [popcount_eq_countP] at hn
    exact absurd ht (List.countP_eq_zero.mp hn stack (List.mem_range.mpr h16))
  have hturn (stack : Nat) :=
    nthSet_eq_iff (Nat.mod_lt (o / (256 * 2 ^ wordGran x.word2)) (Nat.pos_of_ne_zero hn)) stack
  simp only [if_neg hn, Option.ite_none_right_eq_some, Option.some.injEq]
  constructor
  · rintro ⟨hb, rfl⟩
    obtain ⟨h16, ht, hc⟩ := (hturn _).mp rfl
    rw [if_neg (by omega)] at hb
    exact ⟨_, h16, ht, hc, rfl, hb⟩
  · rintro ⟨stack, h16, ht, hc, rfl, hb⟩
    rw [(hturn stack).mpr ⟨h16, ht, hc⟩, if_neg (by omega)]
    exact ⟨hb, rfl⟩

end Sys2Proof.Machine
end

section
/-! SUPPORT. The checks of an access within one page of a buffer, in their order (R117-R120, R123, R125, R131), and
the statement O7. -/
namespace Sys2Proof.Machine

-- What a page's words say (R117, R118, R120, R123).

/-- The rights of an entry allow an access (R120). -/
def RightsAllow (w2 : Word) : GKind → Prop
  | .load => w2.getLsbD 0 = true ∨ w2.getLsbD 2 = true
  | .store => w2.getLsbD 1 = true ∧ ¬ w2.getLsbD 2 = true
  | .aadd dbl => (w2.getLsbD 2 = true ∧ dbl = true) ∨
      (w2.getLsbD 0 = true ∧ w2.getLsbD 1 = true ∧ ¬ w2.getLsbD 2 = true)
  | .rmw => w2.getLsbD 0 = true ∧ w2.getLsbD 1 = true ∧ ¬ w2.getLsbD 2 = true
  | .counter => w2.getLsbD 2 = true
  | .spec => w2.getLsbD 0 = true ∧ w2.getLsbD 3 = true
  | .extWrite => w2.getLsbD 1 = true ∧ w2.getLsbD 4 = true ∧ ¬ w2.getLsbD 2 = true
  | .extPost => w2.getLsbD 2 = true ∧ w2.getLsbD 4 = true
  | .loader => True

/-- A counter buffer, and an access that may not touch one (R120, R292). -/
def CounterRefuses (w2 : Word) (k : GKind) : Prop :=
  w2.getLsbD 2 = true ∧ (k = .store ∨ k = .rmw ∨ k = .aadd false)

theorem wordRights_getLsbD (w2 : Word) {i : Nat} (h : i < 5) : (wordRights w2).getLsbD i = w2.getLsbD i := by
  simp [wordRights, h]

/-- The three answers of `rightsFault`. -/
theorem rightsFault_cases (w2 : Word) (k : GKind) :
    (rightsFault k (wordRights w2) = some 0x06 ∧ ¬ RightsAllow w2 k ∧ ¬ CounterRefuses w2 k) ∨
    (rightsFault k (wordRights w2) = some 0x12 ∧ CounterRefuses w2 k) ∨
    (rightsFault k (wordRights w2) = none ∧ RightsAllow w2 k ∧ ¬ CounterRefuses w2 k) := by
  unfold rightsFault CounterRefuses
  simp only [wordRights_getLsbD, Nat.reduceLT]
  cases k with
  | aadd dbl => cases dbl <;> simp only [RightsAllow] <;> grind
  | load | store | rmw | counter | spec | extWrite | extPost | loader => simp only [RightsAllow]; grind

/-- What an access to G reports where its translation fails. -/
def pageFault (a : Word) (code : Nat) : Bad := ⟨code, infoG a, none⟩

-- An access within one page.

theorem rangePages_page {off n : Nat} (hn : 0 < n) (hp : off % 65536 + n ≤ 65536) :
    rangePages [(off, n)] = [off / 65536] := by
  have e : (off + n - 1) / 65536 - off / 65536 + 1 = 1 := by omega
  simp only [rangePages, List.map_cons, List.map_nil, if_neg (Nat.pos_iff_ne_zero.mp hn), e, List.range_one]
  rfl

theorem infoG_in_page {a : Word} {o : Nat} (h : o / 65536 = a.toNat % 2 ^ 48 / 65536) :
    infoG (BitVec.ofNat 64 (a.toNat / 2 ^ 48 * 2 ^ 48 + o % 2 ^ 48)) = infoG a := by
  have := a.isLt
  unfold infoG
  rw [BitVec.toNat_ofNat, Nat.mod_eq_of_lt (by omega)]
  congr 2
  omega

/-- The first address that fails in a page is the access's own, as far as TINFO shows it. -/
theorem infoG_self (a : Word) (o : Nat) (h : o = a.toNat % 2 ^ 48) :
    infoG (BitVec.ofNat 64 (a.toNat / 2 ^ 48 * 2 ^ 48 + o % 2 ^ 48)) = infoG a :=
  infoG_in_page (by rw [h])

section
variable {s : State} {cache : List Cached} {ctx : Fin 64} {k : GKind} {a : Word} {n : Nat}
  (hn : 0 < n) (hp : a.toNat % 2 ^ 48 % 65536 + n ≤ 65536)
include hn hp

theorem translateIn_page_poisoned
    (hc : cachedPage cache ctx (a.toNat / 2 ^ 48) (a.toNat % 2 ^ 48 / 65536) = none)
    (ht : s.tableBad ctx (a.toNat / 2 ^ 48) (a.toNat % 2 ^ 48 / 65536) = true) :
    s.translateIn cache ctx k a [(a.toNat % 2 ^ 48, n)] = .error (pageFault a 0x0D) := by
  simp [-Nat.reducePow, State.translateIn, rangePages_page hn hp, hc, ht, pageFault]
  exact infoG_self a _ (by omega)

theorem passesLen_page {x : Cached} (hx : x.page = a.toNat % 2 ^ 48 / 65536) :
    passesLen [x] (a.toNat % 2 ^ 48, n) =
      if x.len < a.toNat % 2 ^ 48 + n then some (max (a.toNat % 2 ^ 48) x.len) else none := by
  have hend : (a.toNat % 2 ^ 48 + n - 1) / 65536 = a.toNat % 2 ^ 48 / 65536 := by omega
  by_cases hl : x.len < a.toNat % 2 ^ 48 + n
  · have hpage : x.len < (a.toNat % 2 ^ 48 / 65536 + 1) * 65536 := by omega
    simp [-Nat.reducePow, passesLen, Nat.pos_iff_ne_zero.mp hn, hx, hend, hl, hpage]
  · simp [-Nat.reducePow, passesLen, Nat.pos_iff_ne_zero.mp hn, hx, hend, hl]

/-- The entry stands beyond the table, or there is none (R117). -/
theorem translateIn_page_beyond
    (hc : cachedPage cache ctx (a.toNat / 2 ^ 48) (a.toNat % 2 ^ 48 / 65536) = none)
    (ht : s.entryAddr ctx (a.toNat / 2 ^ 48) 0 = none) :
    s.translateIn cache ctx k a [(a.toNat % 2 ^ 48, n)] = .error (pageFault a 0x05) := by
  simp [-Nat.reducePow, State.translateIn, rangePages_page hn hp, hc, ht, pageFault, State.tableBad, State.pageOf,
    State.tablePage]
  rw [Nat.div_add_mod', BitVec.ofNat_toNat, BitVec.setWidth_eq]

/-- The checks of R123 and R292 on the words of the page, in their order. -/
theorem translateIn_page {x : Cached} (hx : x.page = a.toNat % 2 ^ 48 / 65536)
    (hc : cachedPage cache ctx (a.toNat / 2 ^ 48) (a.toNat % 2 ^ 48 / 65536) = none →
      s.tableBad ctx (a.toNat / 2 ^ 48) (a.toNat % 2 ^ 48 / 65536) = false)
    (hg : s.pageOf cache ctx (a.toNat / 2 ^ 48) (a.toNat % 2 ^ 48 / 65536) = some x) :
    s.translateIn cache ctx k a [(a.toNat % 2 ^ 48, n)] =
      if wordValid x.word2 = false then .error (pageFault a 0x05)
      else if wordOwner x.word2 ≠ ctx.val ∨ rightsFault k (wordRights x.word2) = some 0x06 then
        .error (pageFault a 0x06)
      else if x.len < a.toNat % 2 ^ 48 + n then .error (pageFault a 0x07)
      else if x.desc.getLsbD 63 = false then .error (pageFault a 0x05)
      else (rightsFault k (wordRights x.word2)).elim
        (.ok { ctx, word2 := x.word2, len := x.len, pages := [(a.toNat % 2 ^ 48 / 65536, x.desc)] })
        fun code => .error (pageFault a code) := by
  have hpo : ((cachedPage cache ctx (a.toNat / 2 ^ 48) (a.toNat % 2 ^ 48 / 65536)).isNone &&
      s.tableBad ctx (a.toNat / 2 ^ 48) (a.toNat % 2 ^ 48 / 65536)) = false := by
    cases h : cachedPage cache ctx (a.toNat / 2 ^ 48) (a.toNat % 2 ^ 48 / 65536) with
    | none => rw [hc h]; rfl
    | some _ => rfl
  have hat : max (a.toNat % 2 ^ 48) (x.page * 65536) = a.toNat % 2 ^ 48 := by omega
  have hself := infoG_self a _ rfl
  have hlen (hl : x.len < a.toNat % 2 ^ 48 + n) :
      infoG (BitVec.ofNat 64 (a.toNat / 2 ^ 48 * 2 ^ 48 + max (a.toNat % 2 ^ 48) x.len % 2 ^ 48)) = infoG a :=
    infoG_in_page (by omega)
  unfold State.translateIn
  simp only [rangePages_page hn hp, List.isEmpty_cons, Bool.false_eq_true, if_false, List.find?_cons, hpo,
    List.find?_nil, List.mapM_cons, List.mapM_nil, hg, Option.pure_def, Option.bind_eq_bind, Option.bind_some, hself,
    List.findSome?_cons, List.findSome?_nil, passesLen_page hn hp hx, List.contains_cons, hx, beq_self_eq_true,
    Bool.true_or, Bool.true_and, List.filter_cons, if_true, List.filter_nil, List.map_cons, List.map_nil,
    List.head?_cons, Option.map_some, Option.getD_some, pageFault]
  cases hv : wordValid x.word2 with
  | false => simp only [Bool.not_false, if_true, hat, hself]
  | true =>
  by_cases ho : wordOwner x.word2 ≠ ctx.val ∨ rightsFault k (wordRights x.word2) = some 0x06
  · have hb : (decide (wordOwner x.word2 ≠ ctx.val) || rightsFault k (wordRights x.word2) == some 0x06) = true := by
      simpa using ho
    simp only [Bool.not_true, hb, hat, hself, if_pos ho, Bool.true_eq_false, if_false]
  · have hb : (decide (wordOwner x.word2 ≠ ctx.val) || rightsFault k (wordRights x.word2) == some 0x06) = false := by
      simpa using ho
    by_cases hl : x.len < a.toNat % 2 ^ 48 + n
    · simp only [Bool.not_true, hb, if_neg ho, if_pos hl, Bool.true_eq_false, if_false, hlen hl]
    · cases hd : x.desc.getLsbD 63 with
      | false => simp only [Bool.not_true, Bool.not_false, hb, if_neg ho, if_neg hl, Bool.true_eq_false, if_false,
          if_true, hat, hself]
      | true =>
        simp only [Bool.not_true, hb, if_neg ho, if_neg hl, Bool.true_eq_false, if_false]
        cases rightsFault k (wordRights x.word2) <;> rfl

end

section
variable {s : State} {cache : List Cached} {ctx : Fin 64} {k : GKind} {a : Word} {n : Nat}

/-- The words of a page that are read are those of the cache, or else those of memory, free of poison (R124, R131). -/
theorem pageOf_of_words {buf page len : Nat} {w2 d : Word}
    (h : cachedPage cache ctx buf page = some ⟨ctx, buf, page, w2, len, d⟩ ∨
      (cachedPage cache ctx buf page = none ∧ TableWords s ctx buf page w2 len d)) :
    s.pageOf cache ctx buf page = some ⟨ctx, buf, page, w2, len, d⟩ ∧
      (cachedPage cache ctx buf page = none → s.tableBad ctx buf page = false) := by
  rcases h with h | ⟨h, hbad, x, hx, hsize, rfl, rfl, rfl⟩
  · exact ⟨by simp only [State.pageOf, h], fun hn => by rw [hn] at h; cases h⟩
  · refine ⟨?_, fun _ => hbad⟩
    simp only [State.pageOf, h, State.tablePage, State.entryAddr, hx, if_pos hsize, Option.map_some, Nat.mul_zero,
      Nat.add_zero]

theorem entryAddr_of_beyond {buf : Nat} (h : ∀ x, s.ctxs[ctx] = some x → x.size ≤ buf) :
    s.entryAddr ctx buf 0 = none := by
  unfold State.entryAddr
  split
  next x hx => exact if_neg (Nat.not_lt.mpr (h x hx))
  next => rfl

theorem resolve_of_fault {b : Bad}
    (h : s.translateIn s.core.tlb s.core.ctx k a [(a.toNat % 2 ^ 48, n)] = .error b) :
    s.resolve .g k a n = .error b := by
  simp only [State.resolve, if_true, State.ccTranslate, h]

theorem resolve_of_places {x : Xlat} {as : List Nat}
    (h : s.translateIn s.core.tlb s.core.ctx k a [(a.toNat % 2 ^ 48, n)] = .ok x)
    (hp : x.places (a.toNat % 2 ^ 48) n = some as) : s.resolve .g k a n = .ok (.g, as) := by
  simp only [State.resolve, if_true, State.ccTranslate, h, hp]

/-- The port refuses an access with a byte on a frame that does not exist (R125). -/
theorem resolve_of_no_places {x : Xlat}
    (h : s.translateIn s.core.tlb s.core.ctx k a [(a.toNat % 2 ^ 48, n)] = .ok x)
    (hp : x.places (a.toNat % 2 ^ 48) n = none) :
    s.resolve .g k a n = .error ⟨0x06, infoG a, some (x.logged (a.toNat % 2 ^ 48))⟩ := by
  simp only [State.resolve, if_true, State.ccTranslate, h, hp]

end

-- The places of the bytes of an access (R119).

theorem exists_of_mapM {A B : Type} {f : A → Option B} {l : List A} {bs : List B} (h : l.mapM f = some bs) {x : A}
    (hx : x ∈ l) : ∃ b, f x = some b := by
  induction l generalizing bs with
  | nil => cases hx
  | cons y l ih =>
    simp only [List.mapM_cons, Option.bind_eq_bind, Option.bind_eq_some_iff] at h
    obtain ⟨b, hb, bs', hbs, -⟩ := h
    rcases List.mem_cons.mp hx with rfl | hx
    · exact ⟨b, hb⟩
    · exact ih hbs hx

section
variable {x : Xlat} {off n : Nat} {d : Word} (h : List.lookup (off / 65536) x.pages = some d)
  (hp : off % 65536 + n ≤ 65536)
include h hp

theorem phys_in_page {i : Nat} (hi : i < n) (p : Nat) :
    x.phys (off + i) = some p ↔ PagePlace x.word2 d (off % 65536 + i) p := by
  rw [← x.phys_iff_pagePlace h (by omega)]
  congr! 2
  omega

theorem places_of_pagePlace {as : List Nat} (hl : as.length = n)
    (ha : ∀ i, i < n → ∃ p, as[i]? = some p ∧ PagePlace x.word2 d (off % 65536 + i) p) :
    x.places off n = some as := by
  have hphys : ∀ i ∈ List.range n, x.phys (off + i) = some (as.getD i 0) := fun i hi => by
    obtain ⟨p, hpi, hplace⟩ := ha i (List.mem_range.mp hi)
    rw [List.getD_eq_getElem?_getD, hpi]
    exact (phys_in_page h hp (List.mem_range.mp hi) p).mpr hplace
  rw [Xlat.places, mapM_of_forall _ _ _ hphys]
  refine congrArg some (List.ext_getElem (by simp [hl]) fun i hi hi' => ?_)
  simp [List.getD_eq_getElem?_getD, hi']

theorem places_of_no_pagePlace (hn : ∃ i, i < n ∧ ∀ p, ¬ PagePlace x.word2 d (off % 65536 + i) p) :
    x.places off n = none := by
  obtain ⟨i, hi, hno⟩ := hn
  by_contra hne
  obtain ⟨as, has⟩ := Option.ne_none_iff_exists'.mp hne
  obtain ⟨p, hphys⟩ := exists_of_mapM has (List.mem_range.mpr hi)
  exact hno p ((phys_in_page h hp hi p).mp hphys)

end

/-- Settles O7: the checks of a page's words in their order, and the places of R119. -/
theorem addressesAndLocalSpaces : Obligations.AddressesAndLocalSpaces := by
  unfold Obligations.AddressesAndLocalSpaces
  refine ⟨fun sp base off w => ⟨fun h => ?_, fun h => ?_⟩, fun s k a n => ?_, ?_⟩
  · rw [effective_of_local h]
    exact ⟨rfl, rfl⟩
  · subst h
    simp only [effective, if_true, effective_toNat, Bool.or_eq_true, decide_eq_true_eq]
    exact ⟨by omega, by omega, trivial⟩
  · exact ⟨resolve_of_local k (by decide) rfl, resolve_of_local k (by decide) (s.localAddr_n a n),
      resolve_of_local k (by decide) rfl, resolve_of_local k (by decide) rfl⟩
  intro s k a n w2 d len ctx buf off page raises cached reads right allowed counter entry mine within present hn hp
  have hallow : allowed ↔ RightsAllow w2 k := by cases k <;> rfl
  have hfault (code : Nat) (h : s.translateIn s.core.tlb ctx k a [(off, n)] = .error (pageFault a code)) :
      raises code := resolve_of_fault h
  have hcheck (hr : reads) := translateIn_page (k := k) hn hp rfl (pageOf_of_words hr).2 (pageOf_of_words hr).1
  have hrefused : rightsFault k (wordRights w2) = some 0x06 ↔ ¬ (allowed ∨ counter) := by
    rcases rightsFault_cases w2 k with ⟨hr, ha, hc⟩ | ⟨hr, hc⟩ | ⟨hr, ha, hc⟩
    · exact iff_of_true hr (by rw [hallow]; exact fun h => h.elim ha hc)
    · exact iff_of_false (by rw [hr]; decide) (not_not_intro (.inr hc))
    · exact iff_of_false (by rw [hr]; decide) (not_not_intro (.inl (hallow.mpr ha)))
  have hvalid (h : right 5) : ¬ wordValid w2 = false := by rw [wordValid, h]; decide
  have hmine (h : mine) : ¬ (wordOwner w2 ≠ ctx.val ∨ rightsFault k (wordRights w2) = some 0x06) := by
    rw [hrefused]
    exact not_or.mpr ⟨not_not_intro h.2.1, not_not_intro h.2.2⟩
  have hwithin (h : within) := (hcheck h.1.1.1).trans ((if_neg (hvalid h.1.1.2)).trans
    ((if_neg (hmine h.1)).trans (if_neg (Nat.not_lt.mpr h.2))))
  have hpresent (h : present) := (hwithin h.1).trans (if_neg (by rw [h.2]; decide))
  have hplaces (h : present) (hc : ¬ counter) : s.translateIn s.core.tlb ctx k a [(off, n)] =
      .ok { ctx, word2 := w2, len, pages := [(page, d)] } := by
    rw [hpresent h]
    rcases rightsFault_cases w2 k with ⟨hr, -, -⟩ | ⟨-, hc'⟩ | ⟨hr, -, -⟩
    · exact absurd h.1.1.2.2 (hrefused.mp hr)
    · exact absurd hc' hc
    · rw [hr]; rfl
  have hlookup : List.lookup (off / 65536) [(page, d)] = some d := List.lookup_cons_self
  refine ⟨fun hc ht => ?_, fun hc hb => ?_, fun hr h5 => ?_, fun h hm => ?_, fun h hl => ?_, fun h hd => ?_,
    fun h hc => ?_, fun as h hc hl ha => ?_, fun h hc hno => ?_⟩
  · exact hfault _ (translateIn_page_poisoned hn hp hc ht)
  · exact hfault _ (translateIn_page_beyond hn hp hc (entryAddr_of_beyond hb))
  · exact hfault _ ((hcheck hr).trans (if_pos (eq_false_of_ne_true h5)))
  · exact hfault _ ((hcheck h.1).trans ((if_neg (hvalid h.2)).trans (if_pos (hm.imp_right hrefused.mpr))))
  · exact hfault _ ((hcheck h.1.1).trans ((if_neg (hvalid h.1.2)).trans ((if_neg (hmine h)).trans (if_pos hl))))
  · exact hfault _ ((hwithin h).trans (if_pos hd))
  · refine hfault _ ((hpresent h).trans ?_)
    rcases rightsFault_cases w2 k with ⟨-, -, hc'⟩ | ⟨hr, -⟩ | ⟨-, -, hc'⟩
    · exact absurd hc hc'
    · rw [hr]; rfl
    · exact absurd hc hc'
  · exact resolve_of_places (hplaces h hc) (places_of_pagePlace hlookup hp hl ha)
  · exact ⟨_, resolve_of_no_places (hplaces h hc) (places_of_no_pagePlace hlookup hp hno)⟩

end Sys2Proof.Machine
end

section
/-! SUPPORT. Routing of an engine's lane pair (R57, R69, R80, R123, R268, R271, R300): what a capture leaves unchanged,
and the cases of a pair of an active engine. -/
namespace Sys2Proof.Machine

-- What a capture leaves unchanged (R123).

/-- Nothing has changed but the table of holds. -/
def OnlyHolds (s t : State) : Prop := ∃ (h : List (Nat × Fin 64 × Nat × Bool)) (n : Nat),
  t = { s with holds := h, nextHold := n }

theorem onlyHolds_refl (s : State) : OnlyHolds s s := ⟨s.holds, s.nextHold, rfl⟩

theorem OnlyHolds.addHold {s t : State} (h : OnlyHolds s t) (c : Fin 64) (e : Nat) (p : Bool) :
    OnlyHolds s (t.addHold c e p) := by
  obtain ⟨l, n, rfl⟩ := h
  exact ⟨_, _, rfl⟩

theorem onlyHolds_takeHolds (s : State) (l : List (Nat × Bool)) : OnlyHolds s (s.takeHolds l).1 := by
  suffices h : ∀ (acc : State × List Nat), OnlyHolds s acc.1 → OnlyHolds s
      (l.foldl (fun acc h => (acc.1.addHold acc.1.core.ctx h.1 h.2, acc.2 ++ [acc.1.nextHold])) acc).1 from
    h _ (onlyHolds_refl s)
  induction l with
  | nil => exact fun _ h => h
  | cons x l ih => exact fun acc h => ih _ (h.addHold _ _ _)

/-- A capture takes holds, or does nothing. -/
def Prep.Holds (s : State) : Prep → Prop
  | .ok _ t => OnlyHolds s t
  | .trap _ _ => True

theorem prepare_holds (s : State) (k : Copy) (n m : Nat) : (s.prepare k n m).Holds s := by
  unfold State.prepare
  dsimp only
  split
  · trivial
  split
  · trivial
  split
  · trivial
  · exact onlyHolds_takeHolds _ _

/-- A check before a capture (R135, R300, R304, R307). -/
theorem Prep.holds_check {s : State} {P : Prop} [Decidable P] {code : Nat} {info : Word} {p : Prep} (h : p.Holds s) :
    (if P then .trap code info else p : Prep).Holds s := by
  split
  · trivial
  · exact h

theorem captureCopy_holds (s : State) (t off : Nat) (spec post : Bool) : (s.captureCopy t off spec post).Holds s := by
  unfold State.captureCopy
  dsimp only
  iterate 6 refine Prep.holds_check ?_
  exact prepare_holds _ _ _ _

theorem captureFill_holds (s : State) (sp : CSpace) (len pat addr : Word) :
    (s.captureFill sp len pat addr).Holds s := by
  unfold State.captureFill
  iterate 3 refine Prep.holds_check ?_
  exact prepare_holds _ _ _ _

theorem captureMove_holds (s : State) (x y : CSpace) (len a d : Word) : (s.captureMove x y len a d).Holds s := by
  unfold State.captureMove
  iterate 5 refine Prep.holds_check ?_
  exact prepare_holds _ _ _ _

-- The two kinds of pairs that are checked at routing.

/-- The capture of a copy that a pair issues (R300, R304, R307, R309). -/
def State.routeCapture (s : State) (c : Capture) : Instr → Option Prep
  | .ccopy t sp po p _ => some (s.captureCopy t.val ((c.param p).toNat % 2 ^ 56) sp po)
  | .cfill sp len pat addr _ => some (s.captureFill sp (c.param len) (c.param pat) (c.param addr))
  | .cpost v k _ => some (s.capturePost (c.param v) (c.param k))
  | .cmov x y len a d _ => some (s.captureMove x y (c.param len) (c.param a) (c.param d))
  | _ => none

/-- The check of a link command's parameters (R268). -/
def Capture.routeFault (c : Capture) : Instr → Option (Nat × Word)
  | .lsend d a pk k len _ => linkFault c d a pk k len
  | .lred _ d a pk k _ len _ => linkFault c d a pk (some k) len
  | _ => none

theorem routeCapture_holds {s : State} {c : Capture} {i : Instr} {p : Prep} (h : s.routeCapture c i = some p) :
    p.Holds s := by
  unfold State.routeCapture at h
  split at h
  · cases h; exact captureCopy_holds _ _ _ _ _
  · cases h; exact captureFill_holds _ _ _ _ _
  · cases h; exact prepare_holds _ _ _ _
  · cases h; exact captureMove_holds _ _ _ _ _ _
  · cases h

/-- A link command captures no copy. -/
theorem routeCapture_of_routeFault {s : State} {c : Capture} {i : Instr} {f : Nat × Word}
    (h : c.routeFault i = some f) : s.routeCapture c i = none := by
  unfold Capture.routeFault at h
  split at h
  · rfl
  · rfl
  · cases h

/-- The pair's guard as it is captured (R80). -/
def routeGuard (i : Instr) (r : Regs) : Bool :=
  match LaneB.of i with
  | some b => guardValue b r
  | none => true

/-- The entry joins its queue in t, and fetch goes on behind lane B; or the lane of s waits for room (R57). -/
def State.routeInto (s : State) (e : Eng) (i : Instr) (c : Capture) (t : State) : Res :=
  if 32 ≤ (s.core.queue e).entries.length then .stall s
  else .done (t.updEng fun g =>
    g.setQueue e { s.core.queue e with entries := (s.core.queue e).entries ++ [.instr i c] }).advance

/-- How a pair of an active engine is routed: the checks of a guarded pair, and then its place in the queue. -/
def State.routeActive (s : State) (e : Eng) (i : Instr) (c : Capture) : Option Prep → Option (Nat × Word) → Res
  | some (.trap code info), _ => .trap code info s
  | some (.ok k t), _ => s.routeInto e i { c with copy := some k } t
  | none, some (code, info) => .trap code info s
  | none, none => s.routeInto e i c s

section
variable {e : Eng} {i : Instr} {s : State}

theorem routePair_inactive (h : s.core.eng.active.getLsbD e.num = false) :
    routePair e i s = .trap 0x01 (illegalInfo 0x16) s := by
  simp only [routePair, h, Bool.not_false, if_true]

/-- A copy that is captured while its queue is full is not captured after all. -/
theorem ite_stall (P : Prop) [Decidable P] (t : State) (r : Res) :
    (if P then .stall s else if P then .stall t else r : Res) = if P then .stall s else r := by
  split_ifs <;> rfl

theorem routePair_active (ha : s.core.eng.active.getLsbD e.num = true) {g : Bool}
    (hg : routeGuard i s.core.regs = g) : routePair e i s =
    s.routeActive e i (s.core.capture e g)
      (if g = true then s.routeCapture (s.core.capture e g) i else none)
      (if g = true then (s.core.capture e g).routeFault i else none) := by
  cases i with
  | ccopy _ _ _ _ b | cfill _ _ _ _ b | cpost _ _ b | cmov _ _ _ _ _ b =>
    have hb : guardValue b s.core.regs = g := hg
    simp only [routePair, ha, LaneB.of, hb, Bool.not_true, Bool.false_eq_true, if_false, State.routeCapture, ite_stall]
    cases g with
    | false => rfl
    | true =>
      simp only [Bool.not_true, Bool.false_eq_true, if_false, if_true]
      split <;> simp only [*] <;> rfl
  | lsend _ _ _ _ _ b | lred _ _ _ _ _ _ _ b =>
    have hb : guardValue b s.core.regs = g := hg
    simp only [routePair, ha, LaneB.of, hb, Bool.not_true, Bool.false_eq_true, if_false, Capture.routeFault]
    cases g with
    | false => rfl
    | true =>
      simp only [if_true]
      split <;> simp only [*] <;> rfl
  | _ =>
    subst hg
    simp only [routePair, ha, Bool.not_true, Bool.false_eq_true, if_false, State.routeCapture, Capture.routeFault,
      ite_self]
    rfl
end

end Sys2Proof.Machine
end

section
/-! SUPPORT. A pair that has joined its queue, the EXPECT of an LRED (R268), and the statement O33. -/
namespace Sys2Proof.Machine

-- A pair that has joined its queue.

theorem OnlyHolds.core_eq {s t : State} (h : OnlyHolds s t) : t.core = s.core := by
  obtain ⟨l, n, rfl⟩ := h
  rfl

theorem OnlyHolds.sameMemory {s t : State} (h : OnlyHolds s t) : SameMemory s t := by
  obtain ⟨l, n, rfl⟩ := h
  exact sameMemory_of_padAt fun l => by cases l <;> rfl

/-- The state behind both lanes of a pair whose entry has joined its queue. -/
def State.joined (s : State) (e : Eng) (i : Instr) (c : Capture) (t : State) : State :=
  ((t.updEng fun g => g.setQueue e { s.core.queue e with
    entries := (s.core.queue e).entries ++ [.instr i c] }).advance).advance

section
variable {e : Eng} {i : Instr} {s t : State} {c : Capture}

theorem finish_routeInto_of_room (h : (s.core.queue e).entries.length < 32) :
    finish (s.routeInto e i c t) = .next (s.joined e i c t) := by
  rw [State.routeInto, if_neg (Nat.not_le.mpr h), finish_done, State.joined]

theorem finish_routeInto_of_full (h : 32 ≤ (s.core.queue e).entries.length) :
    finish (s.routeInto e i c t) = .next s.stallLane := by
  rw [State.routeInto, if_pos h, finish_stall]

theorem State.joined_core (h : t.core = s.core) : (s.joined e i c t).core = { s.core with
    eng := s.core.eng.setQueue e { s.core.queue e with entries := (s.core.queue e).entries ++ [.instr i c] }
    fetch := { s.core.fetch with
      lane := s.core.fetch.lane + 2, stalled := false, waited := false, moved := 0 } } := by
  rw [State.joined, State.core_advance, State.core_advance, State.core_updEng, h]

theorem State.joined_queue (h : t.core = s.core) : ((s.joined e i c t).core.queue e).entries =
    (s.core.queue e).entries ++ [.instr i c] := by
  rw [State.joined_core h]
  simp only [Core.queue, Engines.setQueue, vget_vset_eng, if_true]

theorem State.joined_queue_other (h : t.core = s.core) {x : Eng} (hx : x ≠ e) :
    (s.joined e i c t).core.queue x = s.core.queue x := by
  rw [State.joined_core h]
  simp only [Core.queue, Engines.setQueue, vget_vset_eng, if_neg hx]

theorem onlyCore_joined : OnlyCore t (s.joined e i c t) :=
  ((onlyCore_updEng _ _).trans (onlyCore_advance _)).trans (onlyCore_advance _)

theorem sameMemory_joined : SameMemory t (s.joined e i c t) := fun l a => by
  rw [State.joined]
  exact ((State.byteAt_upd _ _ l a).trans (State.byteAt_upd _ _ l a)).trans (State.byteAt_upd _ _ l a)

/-- A trap that the handler can take ends the lane there (R57, R211). -/
theorem routeLane_traps {code : Nat} {info : Word} (ht : CanTrap s) (hc : code ≠ 0x14)
    (h : routePair e i s = .trap code info s) : ∃ t, routeLane e i s = .next t ∧ OnlyCore s t ∧
      Trapped s t code (s.laneInfo info) .cc s.core.fetch.line s.core.fetch.lane := by
  obtain ⟨hcore, htrapped⟩ := State.enterTrap_core ht { code, info := s.laneInfo info, eng := .cc } s.core.fetch.line
    s.core.fetch.lane
  refine ⟨_, ?_, hcore, htrapped⟩
  rw [routeLane, h, finish, if_neg hc, State.syncTrap]

end

-- EXPECT (R268).

/-- A pair of the link engine with op 2 is an LRED, whose EXPECT is in bits 15:12 of its lane B (R268). -/
theorem decodeLE_two {a b : Nat} {i : Instr} (hop : fld a 31 24 = 2) (h : decodeLE a b = .ok i) :
    ∃ half d s pk c len B, i = .lred half d s pk c (paramOf (fld b 15 12)) len B := by
  unfold decodeLE at h
  simp only [hop] at h
  obtain ⟨-, -, -, -, rfl⟩ := engChecked_eq_ok.mp h
  exact ⟨_, _, _, _, _, _, _, rfl⟩

/-- An LRED is a pair with op 2. -/
theorem of_decodeLE_lred {a b : Nat} {half : Bool} {d src pk ctr x : Fin 16} {len : Fin 4096} {B : LaneB}
    (h : decodeLE a b = .ok (.lred half d src pk ctr x len B)) : fld a 31 24 = 2 ∧ x = paramOf (fld b 15 12) := by
  unfold decodeLE at h
  dsimp only at h
  split at h
  case h_1 => obtain ⟨-, -, -, -, h⟩ := engChecked_eq_ok.mp h; cases h
  case h_2 hop => obtain ⟨-, -, -, -, h⟩ := engChecked_eq_ok.mp h; cases h; exact ⟨hop, rfl⟩
  case h_3 => obtain ⟨-, -, -, -, h⟩ := engChecked_eq_ok.mp h; cases h
  case h_4 => cases h

theorem decodeInLine_of_ok {e : Eng} {a b : Nat} {i : Instr} (det : Bool) (h : decodeEngine e a b = .ok i) :
    decodeInLine det e a b =
      if e = .le ∧ fld a 31 24 = 2 ∧ (fld b 15 12 = 0 ↔ det = true) then .error 0x13 else .ok i := by
  simp only [decodeInLine, h]
  congr 1
  cases det <;> simp [and_assoc]

theorem paramOf_eq_zero {w : Nat} : paramOf (fld w 15 12) = 0 ↔ fld w 15 12 = 0 := by
  have h := val_paramOf (a := w) (hi := 15) (lo := 12) rfl
  rw [Fin.ext_iff, h]
  rfl

/-- Settles O33: how the pair of an active engine is routed, and what EXPECT asks of an LRED. -/
theorem lanePairsAreRouted : Obligations.LanePairsAreRouted := by
  unfold Obligations.LanePairsAreRouted
  refine ⟨?_, fun e i s ha ht => routeLane_traps ht (by decide) (routePair_inactive ha), ?_, ?_⟩
  · intro e i b s q active guarded par joins trapsWith captures refused hb ha
    have hg : routeGuard i s.core.regs = guarded := by
      rw [routeGuard, hb]
      rfl
    have hroute := routePair_active (i := i) ha hg
    have hcaptures : s.routeCapture (s.core.capture e guarded) i = captures := by cases i <;> rfl
    have hrefused : (s.core.capture e guarded).routeFault i = refused := by cases i <;> rfl
    rw [hcaptures, hrefused] at hroute
    have hjoins (t : State) (copy : Option Copy) (h : t.core = s.core) :
        joins copy (s.joined e i { s.core.capture e guarded with copy } t) :=
      ⟨_, State.joined_queue h, fun x hx => State.joined_queue_other h hx, by rw [State.joined_core h],
        rfl, rfl, rfl, rfl, rfl, rfl, rfl, rfl⟩
    have hregs (t : State) (c : Capture) (h : t.core = s.core) : SameRegs s (s.joined e i c t) := by
      rw [SameRegs, State.joined_core h]
    refine ⟨fun h => ?_, fun k s' hgd hc => ?_, fun code info ht hcode hgd h => ?_⟩
    · have hput : routePair e i s = s.routeInto e i (s.core.capture e guarded) s := by
        rw [hroute]
        rcases h with h | ⟨hc, hr⟩
        · rw [h]; rfl
        · rw [hc, hr, ite_self, ite_self]; rfl
      refine ⟨fun hroom => ⟨_, ?_, onlyCore_joined, hregs s _ rfl, hjoins s none rfl⟩, fun hfull => ?_⟩
      · rw [routeLane, hput, finish_routeInto_of_room hroom]
        rfl
      · rw [routeLane, hput, finish_routeInto_of_full hfull]
    · have hholds : OnlyHolds s s' := routeCapture_holds (hcaptures.trans hc)
      have hput : routePair e i s = s.routeInto e i { s.core.capture e guarded with copy := some k } s' := by
        rw [hroute, if_pos hgd, hc]; rfl
      refine ⟨fun hroom => ⟨_, ?_, hregs s' _ hholds.core_eq, fun l x => ?_, ?_, hjoins s' (some k) hholds.core_eq⟩,
        fun hfull => ?_⟩
      · rw [routeLane, hput, finish_routeInto_of_room hroom]
      · exact (sameMemory_joined l x).trans (hholds.sameMemory l x)
      · rfl
      · rw [routeLane, hput, finish_routeInto_of_full hfull]
    · refine routeLane_traps ht hcode ?_
      rw [hroute, if_pos hgd, if_pos hgd]
      rcases h with h | h
      · rw [h]; rfl
      · have hc : captures = none := hcaptures ▸ routeCapture_of_routeFault (hrefused.trans h)
        rw [hc, h]; rfl
  · intro det a w half d src pk ctr x len b _ _ h
    obtain ⟨hop, rfl⟩ := of_decodeLE_lred h
    rw [decodeInLine_of_ok det h]
    simp only [hop, paramOf_eq_zero, true_and]
  · intro det e a w i h hl _ _
    rw [decodeInLine_of_ok det h, if_neg]
    rintro ⟨rfl, hop, -⟩
    obtain ⟨half, d, s, pk, c, len, B, rfl⟩ := decodeLE_two hop h
    exact hl _ _ _ _ _ _ _ _ rfl

end Sys2Proof.Machine
end

section
/-! SUPPORT. A line that is fetched, drained and opened (R53, R55, R56), and a pending store that is performed (R141,
R143, R149, R253). -/
namespace Sys2Proof.Machine

theorem exec_fetchLine (s : State) : exec .fetchLine s = execFetchLine s := rfl
theorem exec_lineDrain (s : State) : exec .lineDrain s = execLineDrain s := rfl
theorem exec_accessPerformed (i : Nat) (s : State) : exec (.accessPerformed i) s = execAccessPerformed i s := rfl

-- Lines open (R53, R55, R56).

/-- The core looks at the header of the line that it stands at. -/
def AtHeader (s : State) : Prop :=
  s.core.work.run = .running ∧ s.core.work.stopped = false ∧ s.core.fetch.draining = false ∧
  s.core.fetch.opened = false ∧ s.core.fetch.resume = false

section
variable {s : State}

theorem execFetchLine_of_atHeader (h : AtHeader s) : execFetchLine s = .next s.startLine := by
  obtain ⟨hrun, hstopped, hdraining, hopened, -⟩ := h
  simp [execFetchLine, hrun, hstopped, hdraining, hopened]

theorem startLine_of_fault (h : AtHeader s) {lane reason : Nat}
    (hf : headerFault (s.laneWord s.core.fetch.line 0) (s.core.fetch.first ||
      lineMode (s.laneWord s.core.fetch.line 0) != s.core.fetch.lmode) = some (lane, reason)) :
    s.startLine = s.illegalAtFetch lane reason := by
  obtain ⟨-, -, -, -, hresume⟩ := h
  simp only [State.startLine, hresume, Bool.not_false, Bool.true_and, hf]

section
variable (h : AtHeader s) (hf : headerFault (s.laneWord s.core.fetch.line 0) (s.core.fetch.first ||
  lineMode (s.laneWord s.core.fetch.line 0) != s.core.fetch.lmode) = none)
include h hf

theorem startLine_opens
    (hm : s.core.fetch.first = true ∨ lineMode (s.laneWord s.core.fetch.line 0) = s.core.fetch.lmode) :
    s.startLine = s.upd fun c => c.openLine (s.laneWord s.core.fetch.line 0) := by
  obtain ⟨-, -, -, -, hresume⟩ := h
  simp only [State.startLine, hresume, Bool.not_false, Bool.true_and, hf]
  rcases hm with hm | hm <;> simp [hm]

/-- A mode that changes within a region waits for the engines to drain (R56). -/
theorem startLine_drains (hfirst : s.core.fetch.first = false)
    (hm : lineMode (s.laneWord s.core.fetch.line 0) ≠ s.core.fetch.lmode)
    (hi : (s.core.trap.inh && s.core.trap.frz) = false) :
    s.startLine = s.updFetch fun f => { f with draining := true } := by
  obtain ⟨-, -, -, -, hresume⟩ := h
  have hchanged : (lineMode (s.laneWord s.core.fetch.line 0) != s.core.fetch.lmode) = true := by simpa using hm
  rw [hfirst, Bool.false_or, hchanged] at hf
  simp only [State.startLine, hresume, Bool.not_false, Bool.true_and, hchanged, hfirst, Bool.false_or, hf, hi, if_true]

end

theorem Core.openLine_frame (c : Core) (h : Nat) : (c.openLine h).regs = c.regs ∧
    (c.openLine h).fetch.opened = true ∧ (c.openLine h).fetch.draining = false ∧
    (c.openLine h).fetch.line = c.fetch.line ∧ (c.openLine h).fetch.lane = c.fetch.lane ∧
    (c.openLine h).fetch.lmode = BitVec.ofNat 2 h ∧ (c.openLine h).pend = c.pend := by
  unfold Core.openLine
  dsimp only
  split <;> exact ⟨rfl, rfl, rfl, rfl, rfl, rfl, rfl⟩

/-- A line with FIRST that no handler returns into begins a region (R53, R227). -/
theorem Core.openLine_pace (c : Core) {h : Nat} (hf : h / 4 % 2 = 1) (hr : c.fetch.resume = false) :
    (c.openLine h).eng.pace = c.eng.paceWritten := by
  have he : (lineFirst h && (!c.fetch.resume || (c.fetch.lane == 1 && !c.fetch.entered))) = true := by
    simp [lineFirst, hf, hr]
  unfold Core.openLine
  simp only [he, if_true]
  rfl

theorem execLineDrain_of_drained (hrun : s.core.work.run = .running) (hs : s.core.work.stopped = false)
    (hd : s.core.fetch.draining = true) (hq : s.core.drained = true) : execLineDrain s =
      .next ((s.performWhere fun p => p.ve).upd fun c => c.openLine (s.laneWord s.core.fetch.line 0)) := by
  simp [execLineDrain, hrun, hs, hd, hq]

-- Pending stores (R141, R143, R149, R253).

/-- A store that goes before another: one of its engine, class and space, or one to a byte of it whose order is
fixed. -/
theorem Pending.goesBefore_iff (q p : Pending) : q.goesBefore p = true ↔
    (q.ve = p.ve ∧ q.cls = p.cls ∧ q.space = p.space) ∨
      ((q.ve = true ∧ p.ve = true ∨ q.det = true ∧ p.det = true) ∧ q.loc = p.loc ∧
        ∃ a x y, (a, x) ∈ q.cells ∧ (a, y) ∈ p.cells) := by
  have hcells : (q.cells.any fun c => p.cells.any fun d => d.1 == c.1) = true ↔
      ∃ a x y, (a, x) ∈ q.cells ∧ (a, y) ∈ p.cells := by
    simp only [List.any_eq_true, beq_iff_eq]
    constructor
    · rintro ⟨⟨a, x⟩, hx, ⟨a', y⟩, hy, rfl⟩
      exact ⟨_, _, _, hx, hy⟩
    · rintro ⟨a, x, y, hx, hy⟩
      exact ⟨_, hx, _, hy, rfl⟩
  simp only [Pending.goesBefore, sameOrder, Pending.meets, Bool.or_eq_true, Bool.and_eq_true, beq_iff_eq, hcells,
    and_assoc]

variable {i : Nat} {p : Pending}

theorem execAccessPerformed_of_first (hp : s.core.pend[i]? = some p)
    (h : ∀ j q, j < i → s.core.pend[j]? = some q → ¬ (q.goesBefore p = true ∧ q.acc ≠ p.acc)) :
    execAccessPerformed i s = .next ((s.performOne p).upd fun c => { c with pend := s.core.pend.eraseIdx i }) := by
  have hany : ((s.core.pend.take i).any fun x => x.goesBefore p && x.acc != p.acc) = false := by
    rw [List.any_eq_false]
    intro q hq hb
    obtain ⟨j, hjq⟩ := List.mem_iff_getElem?.mp hq
    rw [List.getElem?_take, Option.ite_none_right_eq_some] at hjq
    exact h j q hjq.1 hjq.2 (by simpa using hb)
  simp only [execAccessPerformed, hp, hany, Bool.false_eq_true, if_false]

theorem execAccessPerformed_of_later {j : Nat} {q : Pending} (hp : s.core.pend[i]? = some p) (hj : j < i)
    (hq : s.core.pend[j]? = some q) (h : q.goesBefore p = true ∧ q.acc ≠ p.acc) :
    execAccessPerformed i s = .next s := by
  have hany : ((s.core.pend.take i).any fun x => x.goesBefore p && x.acc != p.acc) = true := by
    rw [List.any_eq_true]
    exact ⟨q, List.mem_iff_getElem?.mpr ⟨j, by rw [List.getElem?_take_of_lt hj, hq]⟩, by simpa using h⟩
  simp only [execAccessPerformed, hp, hany, if_true]

theorem performOne_upd_byteAt (f : Core → Core) (l : Loc) (a : Nat) :
    ((s.performOne p).upd f).byteAt l a = (s.perform p.loc p.cells).byteAt l a := by
  rw [State.byteAt_upd, State.performOne_byteAt]

/-- Cells at distinct addresses of a place that exists are performed as they are. -/
theorem State.byteAt_perform_mem {l : Loc} {cs : List Host.Cell} (hv : l.valid = true)
    (hn : (cs.map Prod.fst).Nodup) {c : Host.Cell} (hc : c ∈ cs) : (s.perform l cs).byteAt l c.1 = c.2 := by
  have hzip : (cs.map Prod.fst).zip (cs.map Prod.snd) = cs := by
    exact (List.zip_of_prod rfl rfl).symm
  have h := s.map_byteAt_perform l (cs.map Prod.fst) (cs.map Prod.snd) hv hn (by simp)
  rw [hzip, List.map_map] at h
  exact List.map_inj_left.mp h c hc

end

section
variable {s : State}

theorem fetchLine_opens (h : AtHeader s) (hf : headerFault (s.laneWord s.core.fetch.line 0) (s.core.fetch.first ||
      lineMode (s.laneWord s.core.fetch.line 0) != s.core.fetch.lmode) = none)
    (hm : s.core.fetch.first = true ∨ lineMode (s.laneWord s.core.fetch.line 0) = s.core.fetch.lmode) :
    ∃ t, exec .fetchLine s = .next t ∧ OnlyCore s t ∧ SameRegs s t ∧ t.core.fetch.opened = true ∧
      t.core.fetch.line = s.core.fetch.line ∧ t.core.fetch.lane = s.core.fetch.lane ∧
      t.core.fetch.lmode = BitVec.ofNat 2 (s.laneWord s.core.fetch.line 0) ∧
      (s.laneWord s.core.fetch.line 0 / 4 % 2 = 1 → t.core.eng.pace = s.core.eng.paceWritten) := by
  refine ⟨_, (exec_fetchLine s).trans (execFetchLine_of_atHeader h), ?_⟩
  rw [startLine_opens h hf hm, SameRegs, State.core_upd]
  obtain ⟨hregs, hopened, -, hline, hlane, hmode, -⟩ := s.core.openLine_frame (s.laneWord s.core.fetch.line 0)
  exact ⟨onlyCore_upd _ _, hregs, hopened, hline, hlane, hmode, fun h4 => s.core.openLine_pace h4 h.2.2.2.2⟩

theorem lineDrain_opens (hrun : s.core.work.run = .running) (hs : s.core.work.stopped = false)
    (hd : s.core.fetch.draining = true) (hq : s.core.drained = true) :
    ∃ t, exec .lineDrain s = .next t ∧ t.core.fetch.opened = true ∧ t.core.fetch.draining = false ∧
      t.core.fetch.lmode = BitVec.ofNat 2 (s.laneWord s.core.fetch.line 0) ∧
      t.core.pend = s.core.pend.filter (fun p => !p.ve) ∧ SettledBut s t .g [] := by
  refine ⟨_, (exec_lineDrain s).trans (execLineDrain_of_drained hrun hs hd hq), ?_⟩
  rw [State.core_upd]
  obtain ⟨-, hopened, hdraining, -, -, hmode, hpend⟩ :=
    (s.performWhere fun p => p.ve).core.openLine_frame (s.laneWord s.core.fetch.line 0)
  refine ⟨hopened, hdraining, hmode, hpend.trans (by rw [State.performWhere_core]), fun l a ha => ?_⟩
  rw [State.byteAt_upd]
  exact settledBut_performWhere s _ l a ha

theorem accessPerformed_performs {i : Nat} {p : Pending} (hp : s.core.pend[i]? = some p)
    (h : ∀ j q, j < i → s.core.pend[j]? = some q → ¬ (q.goesBefore p = true ∧ q.acc ≠ p.acc)) :
    ∃ t, exec (.accessPerformed i) s = .next t ∧ SameRegs s t ∧ t.core.pend = s.core.pend.eraseIdx i ∧
      (∀ l a, (∀ b, (a, b) ∉ p.cells ∨ l ≠ p.loc) → t.byteAt l a = s.byteAt l a) ∧
      (p.loc.valid = true → (p.cells.map Prod.fst).Nodup → ∀ c ∈ p.cells, t.byteAt p.loc c.1 = c.2) := by
  refine ⟨_, (exec_accessPerformed i s).trans (execAccessPerformed_of_first hp h), ?_⟩
  rw [SameRegs, State.core_upd, State.core_performOne]
  refine ⟨rfl, rfl, fun l a hla => ?_, fun hv hn c hc => ?_⟩
  · rw [performOne_upd_byteAt]
    refine s.byteAt_perform_other _ _ _ _ ?_
    by_cases hl : l = p.loc
    · exact .inr fun c hc e => (hla c.2).elim (fun hnot => hnot (e ▸ hc)) fun hne => hne hl
    · exact .inl hl
  · rw [performOne_upd_byteAt]
    exact State.byteAt_perform_mem hv hn hc

end

end Sys2Proof.Machine
end

section
/-! SUPPORT. The adds of a deterministic run (R252), and one that is dropped over a bad granule (R132, R133). -/
namespace Sys2Proof.Machine

theorem exec_afaddRunApply (part : AddPart) (s : State) :
    exec (.afaddRunApply part) s = execAfaddRunApply part s := rfl

/-- What an add keeps: the cores and the runs. -/
theorem State.applyAdd_cores_runs (s : State) (x : AfaddItem) :
    (s.applyAdd x).cores = s.cores ∧ (s.applyAdd x).runs = s.runs := by
  unfold State.applyAdd
  split
  · exact ⟨rfl, rfl⟩
  · exact ⟨State.perform_cores _ _ _, State.perform_runs _ _ _⟩

theorem foldl_applyAdd_cores_runs (l : List AfaddItem) (s : State) :
    (l.foldl State.applyAdd s).cores = s.cores ∧ (l.foldl State.applyAdd s).runs = s.runs := by
  induction l generalizing s with
  | nil => exact ⟨rfl, rfl⟩
  | cons x l ih =>
    obtain ⟨hc, hr⟩ := ih (s.applyAdd x)
    obtain ⟨hc', hr'⟩ := s.applyAdd_cores_runs x
    exact ⟨hc.trans hc', hr.trans hr'⟩

theorem insertAdd_length (x : AfaddItem) (l : List AfaddItem) : (insertAdd x l).length = l.length + 1 := by
  induction l with
  | nil => rfl
  | cons y l ih =>
    rw [insertAdd]
    split
    · rfl
    · rw [List.length_cons, ih, List.length_cons]

theorem sortAdds_length (l : List AfaddItem) : (sortAdds l).length = l.length := by
  suffices h : ∀ acc, (l.foldl (fun acc x => insertAdd x acc) acc).length = acc.length + l.length from
    (h []).trans (Nat.zero_add _)
  induction l with
  | nil => exact fun _ => rfl
  | cons x l ih =>
    intro acc
    rw [List.foldl_cons, ih, insertAdd_length, List.length_cons]
    omega

section
variable {s : State} {i : Nat} {r : AfaddRun} {x : AfaddItem}

theorem execAfaddRunApply_of_closed (part : Option Nat) (hr : s.runs[i]? = some r) (ha : r.applied = false)
    (hm : r.mask &&& ~~~r.ended = 0) : execAfaddRunApply ⟨i, part⟩ s =
      .next { ((sortAdds r.adds).take (part.getD r.adds.length)).foldl State.applyAdd s with
        runs := s.runs.set i { r with
          adds := (sortAdds r.adds).drop (part.getD r.adds.length)
          applied := decide (r.adds.length ≤ part.getD r.adds.length) } } := by
  simp only [execAfaddRunApply, hr, ha, hm, ne_eq, not_true_eq_false, decide_false, Bool.or_self, Bool.false_eq_true,
    if_false, sortAdds_length, (foldl_applyAdd_cores_runs _ s).2]

theorem execAfaddRunApply_of_open (part : Option Nat) (hr : s.runs[i]? = some r)
    (h : r.applied = true ∨ r.mask &&& ~~~r.ended ≠ 0) : execAfaddRunApply ⟨i, part⟩ s = .next s := by
  have hb : (r.applied || decide (r.mask &&& ~~~r.ended ≠ 0)) = true := by simpa using h
  simp only [execAfaddRunApply, hr, hb, if_true]

/-- A run of one add applies it. -/
theorem execAfaddRunApply_of_one (hr : s.runs[i]? = some r) (ha : r.applied = false)
    (hm : r.mask &&& ~~~r.ended = 0) (hx : r.adds = [x]) : execAfaddRunApply ⟨i, none⟩ s =
      .next { s.applyAdd x with runs := s.runs.set i { r with adds := [], applied := true } } := by
  rw [execAfaddRunApply_of_closed none hr ha hm, hx]
  rfl

theorem State.applyAdd_of_clean (h : s.firstBad x.loc x.bytes = none) : s.applyAdd x =
    (s.perform x.loc (x.bytes.zip (leBytes x.bytes.length (floatAdd (if x.bytes.length = 8 then fF64 else fF32)
      (leNat (x.bytes.map (s.byteAt x.loc))) x.addend.toNat)))).dropHolds x.hold.toList := by
  simp only [State.applyAdd, h, cellsAt]

/-- An add over a bad granule is dropped, and the refused store logged (R132, R133). -/
theorem State.applyAdd_of_bad (h : s.firstBad x.loc x.bytes ≠ none) : ∃ space phys,
    s.applyAdd x = (s.logFor x.core 3 space x.addr phys x.ctx .cc).dropHolds x.hold.toList := by
  obtain ⟨⟨a, m⟩, hb⟩ := Option.ne_none_iff_exists'.mp h
  unfold State.applyAdd
  rw [hb]
  exact ⟨_, _, rfl⟩

theorem byteAt_runs (s : State) (rs : List AfaddRun) (l : Loc) (a : Nat) :
    ({ s with runs := rs } : State).byteAt l a = s.byteAt l a := by cases l <;> rfl

theorem byteAt_dropHolds (s : State) (hs : List Nat) (l : Loc) (a : Nat) :
    (s.dropHolds hs).byteAt l a = s.byteAt l a := by cases l <;> rfl

theorem afaddRunApply_one (hr : s.runs[i]? = some r) (ha : r.applied = false)
    (hm : r.mask &&& ~~~r.ended = 0) (hx : r.adds = [x]) (hn : x.bytes.Nodup) (hv : x.loc.valid = true)
    (hb : s.firstBad x.loc x.bytes = none) :
    ∃ t, exec (.afaddRunApply ⟨i, none⟩) s = .next t ∧ t.cores = s.cores ∧
      t.runs = s.runs.set i { r with adds := [], applied := true } ∧
      x.bytes.map (t.byteAt x.loc) = leBytes x.bytes.length (floatAdd (if x.bytes.length = 8 then fF64 else fF32)
        (leNat (x.bytes.map (s.byteAt x.loc))) x.addend.toNat) ∧
      ∀ l a, ¬ (l = x.loc ∧ a ∈ x.bytes) → t.byteAt l a = s.byteAt l a := by
  refine ⟨_, (exec_afaddRunApply _ s).trans (execAfaddRunApply_of_one hr ha hm hx), (s.applyAdd_cores_runs x).1, rfl,
    ?_, fun l a hla => ?_⟩
  · rw [State.applyAdd_of_clean hb]
    exact s.map_byteAt_perform _ _ _ hv hn (leBytes_length _ _).symm
  · rw [byteAt_runs, State.applyAdd_of_clean hb, byteAt_dropHolds]
    refine s.byteAt_perform_other _ _ _ _ ?_
    by_cases hl : l = x.loc
    · exact .inr fun c hc e => hla ⟨hl, e ▸ (List.of_mem_zip (show (c.1, c.2) ∈ _ from hc)).1⟩
    · exact .inl hl

theorem afaddRunApply_bad (hr : s.runs[i]? = some r) (ha : r.applied = false)
    (hm : r.mask &&& ~~~r.ended = 0) (hx : r.adds = [x]) (hb : s.firstBad x.loc x.bytes ≠ none) :
    ∃ t y, exec (.afaddRunApply ⟨i, none⟩) s = .next t ∧ SameMemory s t ∧ t.log = s.log ++ [y] ∧ y.kind = 3 ∧
      y.addr = x.addr ∧ y.ctx = x.ctx.val ∧ y.core = x.core ∧
      t.runs = s.runs.set i { r with adds := [], applied := true } := by
  obtain ⟨space, phys, he⟩ := State.applyAdd_of_bad hb
  refine ⟨_, { kind := 3, space, addr := x.addr, phys, ctx := x.ctx, core := x.core, eng := .cc, time := s.time },
    (exec_afaddRunApply _ s).trans (execAfaddRunApply_of_one hr ha hm hx), fun l a => ?_, ?_, rfl, rfl, rfl, rfl, rfl⟩
  · rw [byteAt_runs, he, byteAt_dropHolds]
    cases l <;> rfl
  · rw [he]
    rfl

end

end Sys2Proof.Machine
end

section
/-! SUPPORT. A page that moves to another frame (R127, R128), and the statement O60. -/
namespace Sys2Proof.Machine

theorem exec_pageMigration (ctx : Fin 64) (entry page frame : Nat) (lpddr : Bool) (s : State) :
    exec (.pageMigration ctx entry page frame lpddr) s = execPageMigration ctx entry page frame lpddr s := rfl

theorem State.byteAt_updPower (s : State) (f : Power → Power) (l : Loc) (a : Nat) :
    (s.updPower f).byteAt l a = s.byteAt l a := by cases l <;> rfl

section
variable {s : State} {ctx : Fin 64} {entry page frame pa : Nat} {lpddr : Bool}

/-- The page may move as far as its table words say (R127). -/
def Movable (s : State) (ctx : Fin 64) (entry page frame pa : Nat) (lpddr : Bool) : Prop :=
  s.entryAddr ctx entry 0 = some pa ∧ wordValid (s.gWord (pa + 16)) = true ∧ 2 ≤ wordTier (s.gWord (pa + 16)) ∧
  page * 65536 < (s.gWord (pa + 8)).toNat % 2 ^ 48 ∧
  (s.gWord ((s.gWord pa).toNat / 8 * 8 + 8 * page)).getLsbD 63 = true ∧
  (s.gWord ((s.gWord pa).toNat / 8 * 8 + 8 * page)).getLsbD 62 ≠ lpddr ∧ frame < 2 ^ 40 ∧
  s.tableBad ctx entry page = false

/-- The place of the page's descriptor. -/
def State.descAddr (s : State) (pa page : Nat) : Nat := (s.gWord pa).toNat / 8 * 8 + 8 * page

/-- The places of the page's bytes where its descriptor is d. -/
def State.pagePlaces (s : State) (ctx : Fin 64) (pa page : Nat) (d : Word) : Option (List Nat) :=
  ({ ctx, word2 := s.gWord (pa + 16), len := (s.gWord (pa + 8)).toNat % 2 ^ 48, pages := [(page, d)] } : Xlat).places
    (page * 65536) 65536

/-- The new descriptor of a page that has moved to a frame. -/
def movedDesc (lpddr : Bool) (frame : Nat) : Word :=
  BitVec.ofNat 64 (2 ^ 63 + (if lpddr then 2 ^ 62 else 0) + frame)

theorem State.putWord_of_clean {u : State} (h : u.gmem.bad = []) (a : Nat) (v : Word) :
    u.putWord a v = some (u.perform .g (cellsFrom a (leBytes 8 v.toNat))) := by
  simp only [State.putWord, State.firstBad_of_clean _ .g _ h, Option.isSome_none, Bool.false_eq_true, if_false]

/-- The state after a page has moved: its bytes are copied, with those that a graph walk may still find and the dead
units among them, its descriptor names the new frame, and cached copies of the page's words are dropped (R127,
R129). -/
def State.pageMoved (s : State) (ctx : Fin 64) (entry page : Nat) (old new : List Nat) (at_ : Nat) (d : Word) : State :=
  (({ s.perform .g (new.zip (old.map (s.byteAt .g))) with
      cores := s.cores.map fun c => { c with work := { c.work with
        cpOld := writeCells c.work.cpOld (new.zip (old.map (readByte c.work.cpOld))) } }
      dead := (s.perform .g (new.zip (old.map (s.byteAt .g)))).dead ++
        ((old.zip new).filter fun a => a.2 % 2048 == 0 && s.dead.contains (a.1 / 2048)).map (·.2 / 2048) } :
    State).perform .g (cellsFrom at_ (leBytes 8 d.toNat))).dropCached
      fun x => x.ctx == ctx && x.buf == entry && x.page == page

/-- The checks of the table words that `execPageMigration` makes first. -/
theorem Movable.checks (h : Movable s ctx entry page frame pa lpddr) :
    (s.tableBad ctx entry page || !(wordValid (s.gWord (pa + 16))) || decide (wordTier (s.gWord (pa + 16)) < 2) ||
      decide ((s.gWord (pa + 8)).toNat % 2 ^ 48 ≤ page * 65536) ||
      !((s.gWord ((s.gWord pa).toNat / 8 * 8 + 8 * page)).getLsbD 63) ||
      (s.gWord ((s.gWord pa).toNat / 8 * 8 + 8 * page)).getLsbD 62 == lpddr || decide (2 ^ 40 ≤ frame)) = false := by
  obtain ⟨-, hv, ht, hl, h63, h62, hf, hb⟩ := h
  simp only [hb, hv, Nat.not_lt.mpr ht, Nat.not_le.mpr hl, h63, beq_false_of_ne h62, Nat.not_le.mpr hf, Bool.not_true,
    Bool.or_self, decide_false]

theorem execPageMigration_of_pinned (h : Movable s ctx entry page frame pa lpddr)
    (hp : (wordRights (s.gWord (pa + 16))).getLsbD 4 = true) : execPageMigration ctx entry page frame lpddr s =
      .next (s.updPower fun p => { p with hotskip := p.hotskip + 1 }) := by
  rw [execPageMigration, h.1]
  exact (if_neg (by rw [h.checks]; decide)).trans (if_pos hp)

section
variable (h : Movable s ctx entry page frame pa lpddr) (hp : (wordRights (s.gWord (pa + 16))).getLsbD 4 = false)
include h hp

theorem execPageMigration_of_busy
    (hb : s.holdCount ctx entry ≠ 0 ∨ s.frameFree lpddr (wordSmask (s.gWord (pa + 16))) frame = false) :
    execPageMigration ctx entry page frame lpddr s = .next s := by
  have hbusy : (decide (s.holdCount ctx entry ≠ 0) ||
      !(s.frameFree lpddr (wordSmask (s.gWord (pa + 16))) frame)) = true := by simpa using hb
  rw [execPageMigration, h.1]
  exact (if_neg (by rw [h.checks]; decide)).trans ((if_neg (by rw [hp]; decide)).trans (if_pos hbusy))

theorem execPageMigration_of_free {old new : List Nat} (hh : s.holdCount ctx entry = 0)
    (hfree : s.frameFree lpddr (wordSmask (s.gWord (pa + 16))) frame = true)
    (hold : s.pagePlaces ctx pa page (s.gWord (s.descAddr pa page)) = some old)
    (hnew : s.pagePlaces ctx pa page (movedDesc lpddr frame) = some new) (hg : s.gmem.bad = []) :
    execPageMigration ctx entry page frame lpddr s =
      .next (s.pageMoved ctx entry page old new (s.descAddr pa page) (movedDesc lpddr frame)) := by
  have hmarks : ((old.zip new).filterMap fun a => (smapGet s.gmem.bad (a.1 / 32)).map fun m => (a.2, m)) = [] := by
    rw [hg]
    exact List.filterMap_eq_nil_iff.mpr fun _ _ => rfl
  rw [execPageMigration, h.1]
  refine (if_neg (by rw [h.checks]; decide)).trans ((if_neg (by rw [hp]; decide)).trans
    ((if_neg (by rw [hh, hfree]; decide)).trans ?_))
  extract_lets d' map
  have hmap : map (s.gWord (s.descAddr pa page)) = some old := hold
  have hmap' : map d' = some new := hnew
  clear_value map
  split
  next o n ho hn =>
    obtain rfl : old = o := Option.some.inj (hmap.symm.trans ho)
    obtain rfl : new = n := Option.some.inj (hmap'.symm.trans hn)
    dsimp only
    rw [hmarks, List.foldl_nil, State.putWord_of_clean]
    · simp only [State.pageMoved, State.perform_cores, d', movedDesc, State.descAddr]
    · exact State.bad_perform (l := .g) hg _ _
  next hne => exact absurd hmap' (hne _ _ hmap)

end

end

-- What a move of a page leaves (R127).

theorem readBytes_cellsFrom (m : Memory) (a : Nat) (bs : List Byte) :
    readBytes (writeCells m (cellsFrom a bs)) a bs.length = bs := by
  refine List.ext_getElem (by simp [readBytes]) fun i h h' => ?_
  simp only [readBytes, List.getElem_map, List.getElem_range]
  exact readByte_cellsFrom m (List.getElem?_eq_getElem h')

theorem gWord_perform (u : State) (a : Nat) (v : Word) :
    (u.perform .g (cellsFrom a (leBytes 8 v.toNat))).gWord a = v := by
  have hread := readBytes_cellsFrom u.gmem.mem a (leBytes 8 v.toNat)
  rw [leBytes_length] at hread
  have hmem : (u.perform .g (cellsFrom a (leBytes 8 v.toNat))).gmem.mem =
      writeCells u.gmem.mem (cellsFrom a (leBytes 8 v.toNat)) := rfl
  rw [State.gWord, hmem, hread, leNat_leBytes, show (256 : Nat) ^ 8 = 2 ^ 64 from rfl,
    Nat.mod_eq_of_lt v.isLt, BitVec.ofNat_toNat, BitVec.setWidth_eq]

section
variable (s : State) (ctx : Fin 64) (entry page : Nat) (old new : List Nat) (at_ : Nat) (d : Word)

theorem State.pageMoved_gWord : (s.pageMoved ctx entry page old new at_ d).gWord at_ = d := by
  have hdrop (u : State) (gone : Cached → Bool) : (u.dropCached gone).gWord at_ = u.gWord at_ := rfl
  rw [State.pageMoved, hdrop, gWord_perform]

theorem State.pageMoved_core (j : Fin 128) :
    (∀ z ∈ ((s.pageMoved ctx entry page old new at_ d).cores[j]).tlb, z ∈ (s.cores[j]).tlb) ∧
    { (s.pageMoved ctx entry page old new at_ d).cores[j] with
      tlb := (s.cores[j]).tlb
      work := { ((s.pageMoved ctx entry page old new at_ d).cores[j]).work with
        cpOld := (s.cores[j]).work.cpOld } } = s.cores[j] := by
  have hc : (s.pageMoved ctx entry page old new at_ d).cores[j] = { s.cores[j] with
      tlb := (s.cores[j]).tlb.filter fun x => !(x.ctx == ctx && x.buf == entry && x.page == page)
      work := { (s.cores[j]).work with
        cpOld := writeCells (s.cores[j]).work.cpOld (new.zip (old.map (readByte (s.cores[j]).work.cpOld))) } } := by
    simp only [State.pageMoved, State.dropCached, State.perform_cores, Fin.getElem_fin, Vector.getElem_map]
  rw [hc]
  exact ⟨fun z hz => (List.mem_filter.mp hz).1, rfl⟩

theorem State.pageMoved_byteAt {l : Loc} {a : Nat} (h : ¬ (l = .g ∧ at_ ≤ a ∧ a < at_ + 8)) :
    (s.pageMoved ctx entry page old new at_ d).byteAt l a =
      (s.perform .g (new.zip (old.map (s.byteAt .g)))).byteAt l a := by
  have hdrop (u : State) (gone : Cached → Bool) : (u.dropCached gone).byteAt l a = u.byteAt l a := by
    cases l <;> rfl
  rw [State.pageMoved, hdrop, State.byteAt_perform_other]
  · cases l <;> rfl
  · by_cases hl : l = .g
    · refine .inr fun c hc e => h ⟨hl, ?_⟩
      have := mem_cellsFrom hc
      rw [leBytes_length, e] at this
      exact this
    · exact .inl hl

end

theorem pageMigration_moves {s : State} {ctx : Fin 64} {entry page frame pa : Nat} {lpddr : Bool}
    (h : Movable s ctx entry page frame pa lpddr) (hp : (wordRights (s.gWord (pa + 16))).getLsbD 4 = false)
    {old new : List Nat} (hh : s.holdCount ctx entry = 0)
    (hfree : s.frameFree lpddr (wordSmask (s.gWord (pa + 16))) frame = true)
    (hold : s.pagePlaces ctx pa page (s.gWord (s.descAddr pa page)) = some old)
    (hnew : s.pagePlaces ctx pa page (movedDesc lpddr frame) = some new) (hn : new.Nodup)
    (hd : ∀ a, s.descAddr pa page ≤ a → a < s.descAddr pa page + 8 → a ∉ new) (hg : s.gmem.bad = []) :
    ∃ t, exec (.pageMigration ctx entry page frame lpddr) s = .next t ∧
      t.gWord (s.descAddr pa page) = movedDesc lpddr frame ∧
      (∀ j : Fin 128, (∀ z ∈ (t.cores[j]).tlb, z ∈ (s.cores[j]).tlb) ∧
        { t.cores[j] with
          tlb := (s.cores[j]).tlb
          work := { (t.cores[j]).work with cpOld := (s.cores[j]).work.cpOld } } = s.cores[j]) ∧
      new.map (t.byteAt .g) = old.map (s.byteAt .g) ∧
      ∀ l a, ¬ (l = .g ∧ (a ∈ new ∨ (s.descAddr pa page ≤ a ∧ a < s.descAddr pa page + 8))) →
        t.byteAt l a = s.byteAt l a := by
  have hmove := execPageMigration_of_free h hp hh hfree hold hnew hg
  have hlen : new.length = (old.map (s.byteAt .g)).length := by
    rw [List.length_map, Xlat.places_length hnew, Xlat.places_length hold]
  obtain ⟨hnewBytes, hother⟩ := perform_bytes s hn hlen
  refine ⟨_, (exec_pageMigration ..).trans hmove, State.pageMoved_gWord .., fun j => State.pageMoved_core .., ?_,
    fun l a hla => ?_⟩
  · rw [← hnewBytes]
    refine List.map_congr_left fun a ha => State.pageMoved_byteAt _ _ _ _ _ _ _ _ ?_
    rintro ⟨-, hlo, hhi⟩
    exact hd a hlo hhi ha
  · rw [State.pageMoved_byteAt _ _ _ _ _ _ _ _ fun ⟨hl, hin⟩ => hla ⟨hl, .inr hin⟩]
    exact hother l a fun ⟨hl, ha⟩ => hla ⟨hl, .inl ha⟩

/-- Settles O60: the header that opens a line, the order of the stores, the adds of a run, and the page that moves. -/
theorem linesStoresAndPages : Obligations.LinesStoresAndPages := by
  unfold Obligations.LinesStoresAndPages
  intro i n page frame entry ctx lpddr p r x s f h fresh mode before sound
  have hbefore (q : Pending) : before q ↔ q.goesBefore p = true := (q.goesBefore_iff p).symm
  refine ⟨fun hfresh hs hm => fetchLine_opens hfresh hs hm, fun hfresh hs hfirst hm hi => ?_,
    fun lane reason hfresh hf ht => ?_, fun hrun hs hd hq => lineDrain_opens hrun hs hd hq,
    fun hp hb => accessPerformed_performs hp fun j q hj hq => ?_, fun j q hp hj hq hb => ?_,
    fun hr ha hm hx hn hv hb => afaddRunApply_one hr ha hm hx hn hv hb,
    fun hr ha hm hx hb => afaddRunApply_bad hr ha hm hx hb, fun hr ha hm => ?_, fun hr ho => ?_, ?_⟩
  · refine ⟨_, (exec_fetchLine s).trans (execFetchLine_of_atHeader hfresh), ?_⟩
    rw [startLine_drains hfresh hs hfirst hm hi]
    exact ⟨onlyCore_updFetch _ _, State.core_updFetch _ _⟩
  · refine ⟨_, (exec_fetchLine s).trans (execFetchLine_of_atHeader hfresh), ?_⟩
    rw [startLine_of_fault hfresh hf]
    exact State.enterTrap_core ht _ _ _
  · rw [← hbefore]
    exact hb j q hj hq
  · rw [hbefore] at hb
    exact (exec_accessPerformed i s).trans (execAccessPerformed_of_later hp hj hq hb)
  · exact ⟨_, (exec_afaddRunApply _ s).trans (execAfaddRunApply_of_closed (some n) hr ha hm),
      (foldl_applyAdd_cores_runs _ s).1, rfl⟩
  · exact (exec_afaddRunApply _ s).trans (execAfaddRunApply_of_open none hr ho)
  · intro pa old new hpa w2 at_ d d' places hv ht hl h63 h62 hf hb
    have hmovable : Movable s ctx entry page frame pa lpddr := ⟨hpa, hv, ht, hl, h63, h62, hf, hb⟩
    refine ⟨fun hpin => ?_, fun hpin => ⟨fun hbusy => ?_, fun hh hfree hold hnew hn hd hg => ?_⟩⟩
    · exact ⟨_, (exec_pageMigration ..).trans (execPageMigration_of_pinned hmovable hpin), rfl,
        s.byteAt_updPower _, rfl⟩
    · exact (exec_pageMigration ..).trans (execPageMigration_of_busy hmovable hpin hbusy)
    · exact pageMigration_moves hmovable hpin hh hfree hold hnew hn hd hg

end Sys2Proof.Machine
end

section
/-! SUPPORT. The privilege of the acting core: its mode and its trap vector (R86). One lemma per shared operation that
leaves it as it is. -/
namespace Sys2Proof.Machine

/-- The acting core, its trap vector and its mode (R86, R216). -/
def State.privilege (s : State) : Fin 128 × Word × Bool := (s.cur, s.core.trap.tvb, s.core.regs.sup)

/-- An update of the acting core that keeps the mode and the trap vector. -/
theorem privilege_upd {s : State} {f : Core → Core} (ht : (f s.core).trap.tvb = s.core.trap.tvb)
    (hr : (f s.core).regs.sup = s.core.regs.sup) : (s.upd f).privilege = s.privilege := by
  rw [State.privilege, State.core_upd, ht, hr]
  rfl

/-- States with the same acting core have the same privilege. -/
theorem privilege_of_core {s t : State} (hc : t.cur = s.cur) (h : t.core = s.core) : t.privilege = s.privilege := by
  rw [State.privilege, hc, h]
  rfl

-- Updates of one part of the acting core.

@[simp] theorem privilege_updFetch (s : State) (f : Fetch → Fetch) : (s.updFetch f).privilege = s.privilege :=
  privilege_upd rfl rfl
@[simp] theorem privilege_updEng (s : State) (f : Engines → Engines) : (s.updEng f).privilege = s.privilege :=
  privilege_upd rfl rfl
@[simp] theorem privilege_updMe (s : State) (f : Matrix → Matrix) : (s.updMe f).privilege = s.privilege :=
  privilege_upd rfl rfl
@[simp] theorem privilege_updVec (s : State) (f : Vec → Vec) : (s.updVec f).privilege = s.privilege :=
  privilege_upd rfl rfl
@[simp] theorem privilege_updCpy (s : State) (f : Copies → Copies) : (s.updCpy f).privilege = s.privilege :=
  privilege_upd rfl rfl
@[simp] theorem privilege_updWork (s : State) (f : Work → Work) : (s.updWork f).privilege = s.privilege :=
  privilege_upd rfl rfl

theorem privilege_updRegs {s : State} {f : Regs → Regs} (h : (f s.core.regs).sup = s.core.regs.sup) :
    (s.updRegs f).privilege = s.privilege :=
  privilege_upd rfl h

theorem privilege_updTrap {s : State} {f : TrapRegs → TrapRegs} (h : (f s.core.trap).tvb = s.core.trap.tvb) :
    (s.updTrap f).privilege = s.privilege :=
  privilege_upd h rfl

@[simp] theorem privilege_setDest (s : State) (d : Dest) (v : Word) : (s.setDest d v).privilege = s.privilege :=
  privilege_updRegs (by cases d <;> rfl)
@[simp] theorem privilege_advance (s : State) : s.advance.privilege = s.privilege := privilege_updFetch _ _
@[simp] theorem privilege_pendTrap (s : State) (t : TrapReq) : (s.pendTrap t).privilege = s.privilege :=
  privilege_updTrap rfl
@[simp] theorem privilege_post (s : State) (p : Pending) : (s.post p).privilege = s.privilege := privilege_upd rfl rfl
@[simp] theorem privilege_postAll (s : State) (ps : List Pending) : (s.postAll ps).privilege = s.privilege :=
  privilege_upd rfl rfl

-- Updates outside the cores.

@[simp] theorem privilege_logEvent (s : State) (k sp : Nat) (a : Word) (p c : Nat) (e : Eng) :
    (s.logEvent k sp a p c e).privilege = s.privilege := rfl
@[simp] theorem privilege_updPower (s : State) (f : Power → Power) : (s.updPower f).privilege = s.privilege := rfl
@[simp] theorem privilege_updDroop (s : State) (k : Nat) (f : Droop → Droop) :
    (s.updDroop k f).privilege = s.privilege := rfl
@[simp] theorem privilege_addHold (s : State) (c : Fin 64) (e : Nat) (p : Bool) :
    (s.addHold c e p).privilege = s.privilege := rfl
@[simp] theorem privilege_dropHolds (s : State) (l : List Nat) : (s.dropHolds l).privilege = s.privilege := rfl
@[simp] theorem privilege_setPad (s : State) (l : Loc) (p : Pad) : (s.setPad l p).privilege = s.privilege := by
  cases l <;> rfl
@[simp] theorem privilege_perform (s : State) (l : Loc) (cs : List Host.Cell) :
    (s.perform l cs).privilege = s.privilege := by
  cases l <;> rfl

/-- Performing stores changes what is pending of the acting core, and of its registers nothing (R141). -/
@[simp] theorem privilege_performWhere (s : State) (test : Pending → Bool) :
    (s.performWhere test).privilege = s.privilege := by
  rw [State.privilege, s.performWhere_cur, s.performWhere_core]
  rfl

@[simp] theorem privilege_settle (s : State) (ve : Bool) (cls : Fin 16) (sp : Space) (loc : Loc) (as : List Nat) :
    (s.settle ve cls sp loc as).privilege = s.privilege := privilege_performWhere _ _
@[simp] theorem privilege_settleRead (s : State) (test : Pending → Bool) (loc : Loc) (as : List Nat) :
    (s.settleRead test loc as).privilege = s.privilege := privilege_performWhere _ _

@[simp] theorem privilege_settleVe (s : State) (l : Loc) (as : List Nat) : (s.settleVe l as).privilege = s.privilege := by
  rw [State.settleVe]
  split
  · exact privilege_performWhere _ _
  · rfl

-- What a lane or an entry that waits leaves (R77, R85, R92).

/-- A SCHED_BREAK counts in SBCNT and may make a trap pending: neither the mode nor the vector changes. -/
@[simp] theorem privilege_schedBreak (s : State) (e : Eng) : (s.schedBreak e).privilege = s.privilege := by
  have hr : (s.updRegs fun r => { r with sbcnt := satAdd32 r.sbcnt 1 }).privilege = s.privilege := privilege_updRegs rfl
  unfold State.schedBreak
  dsimp only
  split
  · rw [privilege_pendTrap, hr]
  · exact hr

@[simp] theorem privilege_stallLane (s : State) : s.stallLane.privilege = s.privilege := by
  unfold State.stallLane
  split
  · rw [privilege_updFetch, privilege_schedBreak]
  · rfl

@[simp] theorem privilege_doubleFault (s : State) : s.doubleFault.privilege = s.privilege := by
  have hc : s.doubleFault.cur = s.cur := by unfold State.doubleFault; dsimp only; split <;> rfl
  rw [State.privilege, hc, s.doubleFault_core]
  rfl

end Sys2Proof.Machine
end

section
/-! SUPPORT. How an engine's entry ends, and the privilege of the core with it: its work, its pops and its pushes leave
the mode and the trap vector as they are, and its traps wait for the control thread (R49, R86, R210). -/
namespace Sys2Proof.Machine

/-- The state in which an engine's work ends. -/
def EngRes.state : EngRes → State
  | .done s | .busy s | .sent s | .owes s | .more s | .stall s | .trap _ _ s | .freeze _ _ _ _ s => s

@[simp] theorem EngRes.state_done (s : State) : (EngRes.done s).state = s := rfl
@[simp] theorem EngRes.state_busy (s : State) : (EngRes.busy s).state = s := rfl
@[simp] theorem EngRes.state_sent (s : State) : (EngRes.sent s).state = s := rfl
@[simp] theorem EngRes.state_owes (s : State) : (EngRes.owes s).state = s := rfl
@[simp] theorem EngRes.state_more (s : State) : (EngRes.more s).state = s := rfl
@[simp] theorem EngRes.state_stall (s : State) : (EngRes.stall s).state = s := rfl
@[simp] theorem EngRes.state_trap (code : Nat) (info : Word) (s : State) : (EngRes.trap code info s).state = s := rfl
@[simp] theorem EngRes.state_freeze (k sp : Nat) (a : Word) (p : Nat) (s : State) :
    (EngRes.freeze k sp a p s).state = s := rfl

@[simp] theorem privilege_popHead (s : State) (e : Eng) (m : BitVec 6) : (s.popHead e m).privilege = s.privilege :=
  privilege_updEng _ _

@[simp] theorem privilege_flushVe (s : State) (e : Eng) (m : BitVec 6) : (s.flushVe e m).privilege = s.privilege := by
  unfold State.flushVe
  split
  · exact privilege_performWhere _ _
  · rfl

@[simp] theorem privilege_stallPush (s : State) (e : Eng) : (s.stallPush e).privilege = s.privilege := by
  unfold State.stallPush
  dsimp only
  split
  · split
    · rw [privilege_updEng, privilege_schedBreak]
    · rfl
  · rfl

@[simp] theorem privilege_pushHead (s : State) (e : Eng) (m : BitVec 6) : (s.pushHead e m).privilege = s.privilege := by
  unfold State.pushHead
  dsimp only
  split
  · rw [privilege_updEng, privilege_flushVe]
  · rw [privilege_stallPush, privilege_updEng, privilege_flushVe]

@[simp] theorem privilege_engineError (s : State) (e : Eng) (k sp : Nat) (a : Word) (p c : Nat) :
    (s.engineError e k sp a p c).privilege = s.privilege := by
  rw [State.engineError, privilege_logEvent, privilege_updCpy]

/-- An engine's instruction keeps the privilege where its work does (R49, R80, R210). -/
theorem engineOp_privilege {e : Eng} {b : LaneB} {s t : State} {work : Capture → State → EngRes}
    (hw : ∀ c u, (work c u).state.privilege = u.privilege) (h : engineOp e b s work = .next t) :
    t.privilege = s.privilege := by
  unfold engineOp at h
  dsimp only at h
  split at h
  case h_2 => cases h; rfl
  case h_1 c _ _ =>
    have hc := hw c s
    split at h
    · cases h; rfl
    split at h
    · cases h; rfl
    split at h
    · -- a nullified entry
      split at h <;> cases h <;> simp
    · split at h <;> rename_i hr <;> rw [hr] at hc <;> cases h <;> simpa using hc

end Sys2Proof.Machine
end

section
/-! SUPPORT. The vector engine's instructions keep the privilege of the core (R86, R219, R365). -/
namespace Sys2Proof.Machine

@[simp] theorem privilege_alarm (s : State) (f : Droop → Droop) : (s.alarm f).privilege = s.privilege := by
  unfold State.alarm
  dsimp only
  split <;> rfl

@[simp] theorem privilege_wake (s : State) (lanes : List Nat) : (s.wake lanes).privilege = s.privilege := by
  unfold State.wake
  dsimp only
  split
  · rfl
  split
  · rw [privilege_alarm, privilege_updVec]
  · exact privilege_updVec _ _

@[simp] theorem privilege_park (s : State) (p : Parked) (e : GatherBad) : (s.park p e).privilege = s.privilege := by
  unfold State.park
  dsimp only
  rw [privilege_updVec]
  split <;> split <;> rfl

@[simp] theorem privilege_gatherFreeze (s : State) (ctx : Fin 64) (got : List (Nat × Nat)) (e : GatherBad) :
    (s.gatherFreeze ctx got e).privilege = s.privilege := by
  unfold State.gatherFreeze
  dsimp only
  rw [privilege_updVec]
  split <;> rfl

/-- A fold of steps that keep the privilege keeps it. -/
theorem privilege_foldl {α : Type} {f : State → α → State} (h : ∀ s x, (f s x).privilege = s.privilege) (l : List α)
    (s : State) : (l.foldl f s).privilege = s.privilege := by
  induction l generalizing s with
  | nil => rfl
  | cons x l ih => rw [List.foldl_cons, ih, h]

@[simp] theorem privilege_foldl_park (g : State → Nat × GatherBad → Parked) (l : List (Nat × GatherBad))
    (s : State) : (l.foldl (fun s x => s.park (g s x) x.2) s).privilege = s.privilege :=
  privilege_foldl (fun s x => privilege_park s (g s x) x.2) l s

/-- A vector instruction keeps the privilege where its work does: its checks wake lane groups and log alone. -/
theorem veAccess_privilege {b : LaneB} {s t : State} {regs : List (Nat × Nat)} {use : Vec → VUse} {m : Fin 8}
    {pre : Capture → State → Option (Nat × Word)} {work : Capture → State → EngRes}
    (hw : ∀ c u, (work c u).state.privilege = u.privilege) (h : veAccess b s regs use m pre work = .next t) :
    t.privilege = s.privilege := by
  refine engineOp_privilege (fun c u => ?_) h
  dsimp only
  split
  · rfl
  split
  · rfl
  split
  · exact privilege_wake _ _
  split
  · exact privilege_wake _ _
  split
  · exact privilege_wake _ _
  · rw [hw, privilege_wake]

theorem regResult_privilege (f : Vec → Vec) (c : Capture) (s : State) :
    (regResult f c s).state.privilege = s.privilege := privilege_updVec _ _

section
variable {v : V3} {w : V2} {x : V4} {m : VMem} {b : LaneB} {s t : State}

theorem v3Op_privilege {f : Nat → Nat → Nat} (h : v3Op v b f s = .next t) : t.privilege = s.privilege := by
  unfold v3Op veOp at h
  exact veAccess_privilege (regResult_privilege _) h
theorem v2Op_privilege {f : Nat → Nat} (h : v2Op w b f s = .next t) : t.privilege = s.privilege := by
  unfold v2Op veOp at h
  exact veAccess_privilege (regResult_privilege _) h
theorem v4Op_privilege {f : Nat → Nat → Nat → Nat} (h : v4Op x b f s = .next t) : t.privilege = s.privilege := by
  unfold v4Op veOp at h
  exact veAccess_privilege (regResult_privilege _) h

theorem vecLoad_privilege {sp : Space} (h : vecLoad sp m b s = .next t) : t.privilege = s.privilege := by
  unfold vecLoad at h
  refine veAccess_privilege (fun c u => ?_) h
  dsimp only
  split
  · rfl
  split
  · rfl
  · rw [EngRes.state_done, privilege_updVec, privilege_settleRead]

theorem vecStore_privilege {sp : Space} (h : vecStore sp m b s = .next t) : t.privilege = s.privilege := by
  unfold vecStore at h
  refine veAccess_privilege (fun c u => ?_) h
  dsimp only
  split
  · rfl
  split
  · rfl
  · rw [EngRes.state_done, privilege_postAll]

theorem execVldg_privilege {vx : Fin 256} (h : execVldg vx m b s = .next t) : t.privilege = s.privilege := by
  unfold execVldg at h
  refine veAccess_privilege (fun c u => ?_) h
  dsimp only
  split
  · split
    · simp
    · simp only [EngRes.state_owes, apply_ite State.privilege, privilege_pendTrap, privilege_foldl_park, privilege_updVec,
        privilege_settleRead, privilege_dropHolds, ite_self]
  · simp
end

end Sys2Proof.Machine
end

section
/-! SUPPORT. The matrix engine's instructions keep the privilege of the core (R86, R162-R188, R206). -/
namespace Sys2Proof.Machine

@[simp] theorem privilege_unitWrite (s : State) (a : Nat) (bs : List Byte) :
    (s.unitWrite a bs).privilege = s.privilege := by
  unfold State.unitWrite
  dsimp only
  split
  · rw [privilege_setPad, privilege_settleVe]
  · rw [privilege_logEvent, privilege_setPad, privilege_settleVe]

@[simp] theorem privilege_setStep (s : State) (e : Eng) (n : Nat) : (s.setStep e n).privilege = s.privilege :=
  privilege_updEng _ _
@[simp] theorem privilege_startFill (s : State) (e : Eng) (f : Fill) : (s.startFill e f).privilege = s.privilege :=
  privilege_updCpy _ _
@[simp] theorem privilege_setWork (s : State) (w : Option MeWork) : (s.setWork w).privilege = s.privilege :=
  privilege_updMe _ _

@[simp] theorem privilege_monitor (s : State) (n : Counts) (ladder : Bool) (step : Nat) :
    (s.monitor n ladder step).privilege = s.privilege := by
  unfold State.monitor
  dsimp only
  split <;> simp

-- Tiles and the nest (R162, R166-R168).

/-- The state in which a tile starts, from the one that asks for it. -/
def TileStart.state (s : State) : TileStart → State
  | .trap _ _ => s
  | .poisoned t | .go _ t => t

/-- A tile that starts tags its entry, and that is all (R204). -/
theorem startTile_privilege (k : TileKind) (f : Fmt) (e sa sb : Nat) (clr : Bool) (q : Option QGroup) (part : Nat)
    (scale : Option Word) (step : Nat) (s : State) :
    ((startTile k f e sa sb clr q part scale step s).state s).privilege = s.privilege := by
  unfold startTile
  dsimp only
  repeat' split
  all_goals simp only [TileStart.state, privilege_updMe]

/-- A tile's start, as what goes on from it needs it. -/
theorem startTile_poisoned_privilege {k : TileKind} {f : Fmt} {e sa sb part step : Nat} {clr : Bool}
    {q : Option QGroup} {scale : Option Word} {s u : State}
    (h : startTile k f e sa sb clr q part scale step s = .poisoned u) : u.privilege = s.privilege := by
  have := startTile_privilege k f e sa sb clr q part scale step s
  rwa [h] at this

theorem startTile_go_privilege {k : TileKind} {f : Fmt} {e sa sb part step : Nat} {clr : Bool}
    {q : Option QGroup} {scale : Option Word} {s u : State} {t : Tile}
    (h : startTile k f e sa sb clr q part scale step s = .go t u) : u.privilege = s.privilege := by
  have := startTile_privilege k f e sa sb clr q part scale step s
  rwa [h] at this

theorem issueOne_privilege (k : TileKind) (f : Fmt) (e sa sb : Nat) (q : Option QGroup) (s : State) :
    (issueOne k f e sa sb q s).state.privilege = s.privilege := by
  unfold issueOne
  split
  · rfl
  · exact startTile_poisoned_privilege ‹_›
  · rw [EngRes.state_busy, privilege_setWork, startTile_go_privilege ‹_›]

@[simp] theorem privilege_entryPerformed (s : State) (e : Eng) : (s.entryPerformed e).privilege = s.privilege :=
  privilege_updEng _ _

@[simp] theorem privilege_tilesDone (s : State) (w : MeWork) : (s.tilesDone w).privilege = s.privilege := by
  unfold State.tilesDone
  split <;> simp

@[simp] theorem privilege_afterTile (s : State) (t : Option Tile) : (s.afterTile t).privilege = s.privilege := by
  unfold State.afterTile
  dsimp only
  split
  · rfl
  split
  · split <;> simp
  · simp

theorem nestRun_privilege (f : Fmt) (c sa sb : Fin 64) (q : Option MgoQ) (sbase : Word) (s : State) :
    (nestRun f c sa sb q sbase s).state.privilege = s.privilege := by
  unfold nestRun
  dsimp only
  split
  · rfl
  split
  · rfl
  split
  · rfl
  split
  · simp
  split
  · rfl
  · simp [startTile_poisoned_privilege ‹_›]
  · simp [startTile_go_privilege ‹_›]

-- MRESOLVE (R200, R207).

@[simp] theorem privilege_resolveEffect (s : State) (d : ResolveDesc) (range : List Nat) (o : Nat) (noTrain : Bool)
    (chosen : List (List (Nat × Nat))) : (s.resolveEffect d range o noTrain chosen).privilege = s.privilege := by
  unfold State.resolveEffect
  dsimp only
  split <;> simp

/-- The predictor's training is the core's, and leaves its registers alone (R200). -/
theorem trainOne_privilege (s : State) (x : Word × List Nat) (rest : List (Word × List Nat)) :
    (s.trainOne x rest).state.privilege = s.privilege := by
  have h (pk : Nat) : (s.upd fun c => c.train x.1 x.2 pk).privilege = s.privilege := privilege_upd rfl rfl
  unfold State.trainOne
  dsimp only
  split <;> simp [h]

theorem startTraining_privilege (s : State) (d : ResolveDesc) (noTrain : Bool) (chosen : List (List (Nat × Nat)))
    (sigs : List Nat) : (s.startTraining d noTrain chosen sigs).state.privilege = s.privilege := by
  unfold State.startTraining
  simp only [apply_ite EngRes.state, apply_ite State.privilege, EngRes.state_done, EngRes.state_more, privilege_setWork,
    ite_self]

-- The instructions.

section
variable {b : LaneB} {s t : State}

theorem execMclaim_privilege {sl n : Fin 64} (h : execMclaim sl n b s = .next t) : t.privilege = s.privilege := by
  refine engineOp_privilege (fun c u => ?_) h
  dsimp only
  split <;> simp

theorem execMrel_privilege {sl n : Fin 64} (h : execMrel sl n b s = .next t) : t.privilege = s.privilege := by
  refine engineOp_privilege (fun c u => ?_) h
  dsimp only
  split <;> simp

theorem execMzero_privilege {e n : Fin 64} (h : execMzero e n b s = .next t) : t.privilege = s.privilege := by
  refine engineOp_privilege (fun c u => ?_) h
  dsimp only
  split <;> simp

theorem execMfill_privilege {sl : Fin 64} {p : Fin 16} (h : execMfill sl p b s = .next t) :
    t.privilege = s.privilege := by
  refine engineOp_privilege (fun c u => ?_) h
  dsimp only
  repeat' split
  all_goals simp

theorem execMwb_privilege {e : Fin 64} {p : Fin 16} (h : execMwb e p b s = .next t) : t.privilege = s.privilege := by
  refine engineOp_privilege (fun c u => ?_) h
  dsimp only
  repeat' split
  all_goals simp

theorem execMspec_privilege {x : Option SpecTag} (h : execMspec x b s = .next t) : t.privilege = s.privilege := by
  refine engineOp_privilege (fun c u => ?_) h
  dsimp only
  repeat' split
  all_goals simp

theorem execMladr_privilege {sl : Fin 64} {lad p : Fin 16} {roleB : Bool} {klen : BitVec 16}
    (h : execMladr sl lad roleB p klen b s = .next t) : t.privilege = s.privilege := by
  refine engineOp_privilege (fun c u => ?_) h
  dsimp only
  repeat' split
  all_goals simp

theorem execMgo_privilege {f : Fmt} {c sa sb : Fin 64} {q : Option MgoQ} (h : execMgo f c sa sb q b s = .next t) :
    t.privilege = s.privilege := by
  unfold execMgo at h
  refine engineOp_privilege (fun cap u => ?_) h
  dsimp only
  simp only [apply_ite EngRes.state, apply_ite State.privilege, EngRes.state_done, EngRes.state_trap, nestRun_privilege,
    privilege_updMe, ite_self]

theorem execMsca_privilege {dst part n : Fin 64} {g : QGroup} {p : Fin 16} {k : BitVec 16}
    (h : execMsca dst part n g p k b s = .next t) : t.privilege = s.privilege := by
  unfold execMsca at h
  refine engineOp_privilege (fun c u => ?_) h
  dsimp only
  repeat' split
  all_goals simp

theorem execMresolve_privilege {f n o : Fin 64} {noTrain : Bool} {p : Fin 16}
    (h : execMresolve f n o noTrain p b s = .next t) : t.privilege = s.privilege := by
  unfold execMresolve at h
  refine engineOp_privilege (fun c u => ?_) h
  dsimp only
  split
  · exact trainOne_privilege _ _ _
  · repeat' split
    all_goals simp [startTraining_privilege]
end

end Sys2Proof.Machine
end

section
/-! SUPPORT. The instructions of the copy, the gather and the link engine keep the privilege of the core (R86, R196,
R267, R273). -/
namespace Sys2Proof.Machine

-- The copy engine.

@[simp] theorem privilege_updChannel (s : State) (ch : Nat) (f : Channel → Channel) :
    (s.updChannel ch f).privilege = s.privilege := privilege_updCpy _ _

theorem startCopy_privilege (c : Capture) (s : State) : (startCopy c s).state.privilege = s.privilege := by
  unfold startCopy
  split <;> simp

section
variable {b : LaneB} {s t : State}

theorem execCqnt_privilege {sl : Fin 64} (h : execCqnt sl b s = .next t) : t.privilege = s.privilege := by
  refine engineOp_privilege (fun c u => ?_) h
  dsimp only
  split
  · rfl
  split
  · rfl
  split
  · rfl
  · rw [EngRes.state_busy, privilege_startFill]
end

-- The gather engine.

@[simp] theorem privilege_seenDone (s : State) (e : Eng) : (s.seenDone e).privilege = s.privilege := privilege_updCpy _ _

@[simp] theorem privilege_frozenRead (sp : Nat) (x : Nat × Option Nat) (s : State) :
    (frozenRead sp x s).state.privilege = s.privilege := rfl

@[simp] theorem privilege_putRowWord (s : State) (a : Nat) (bs : List Byte) :
    (s.putRowWord a bs).privilege = s.privilege := by
  rw [State.putRowWord, privilege_unitWrite, privilege_updCpy]

@[simp] theorem privilege_clearRow (s : State) (dst len : Nat) : (s.clearRow dst len).privilege = s.privilege := by
  rw [State.clearRow, privilege_setPad, privilege_settleVe]

theorem privilege_rowWord (s : State) (det : Bool) (a : Nat) : (s.rowWord det a).2.privilege = s.privilege := by
  unfold State.rowWord
  dsimp only
  split <;> rfl

@[simp] theorem privilege_moveRow (s : State) (det : Bool) (src dst len : Nat) :
    (s.moveRow det src dst len).privilege = s.privilege := by
  unfold State.moveRow
  rw [privilege_foldl fun s i => ?_]
  · rfl
  · rw [privilege_putRowWord, privilege_rowWord]

theorem privilege_putRowWords (s : State) (at_ : Nat → Nat) (bs : List Byte) (l : List Nat) :
    (l.foldl (fun s j => s.putRowWord (at_ j) bs) s).privilege = s.privilege :=
  privilege_foldl (fun _ _ => privilege_putRowWord ..) l s

theorem rowStep_privilege (scatter det : Bool) (d sr x : Word) (len i : Nat) (s : State) :
    (rowStep scatter det d sr x len i s).state.privilege = s.privilege := by
  unfold rowStep
  dsimp only
  repeat' split
  all_goals simp only [EngRes.state_trap, EngRes.state_more, EngRes.state_freeze, privilege_frozenRead,
    privilege_putRowWords, privilege_clearRow, privilege_moveRow]

section
variable {b : LaneB} {s t : State}

theorem execGcsr_privilege {sl n : Fin 64} {f : CsrFmt} {p : Fin 16} (h : execGcsr sl n f p b s = .next t) :
    t.privilege = s.privilege := by
  unfold execGcsr at h
  refine engineOp_privilege (fun c u => ?_) h
  dsimp only
  repeat' split
  all_goals simp only [EngRes.state_trap, EngRes.state_stall, EngRes.state_busy, privilege_frozenRead,
    privilege_startFill, privilege_schedBreak]

theorem execGmap_privilege {sl : Fin 64} {i j : Fin 16} (h : execGmap sl i j b s = .next t) :
    t.privilege = s.privilege := by
  have drawn (u : State) (n : Nat) : ({ u.seenDone .ge with fresh := n } : State).privilege = u.privilege :=
    privilege_seenDone u .ge
  refine engineOp_privilege (fun c u => ?_) h
  dsimp only
  repeat' split
  all_goals simp only [EngRes.state_trap, EngRes.state_freeze, EngRes.state_busy, privilege_frozenRead,
    privilege_startFill, drawn]

theorem rowsOp_privilege {scatter : Bool} {n : Fin 4096} {d sr x : Fin 16} {len : BitVec 16}
    (h : rowsOp scatter n d sr x len b s = .next t) : t.privilege = s.privilege := by
  unfold rowsOp at h
  refine engineOp_privilege (fun c u => ?_) h
  dsimp only
  split
  · rfl
  split
  · rfl
  split
  · rfl
  have hrow := rowStep_privilege scatter (c.lmode == 3) (c.param d) (c.param sr) (c.param x) len.toNat
    (s.core.queue .ge).step u
  split
  · rename_i v hv
    rw [hv, EngRes.state_more] at hrow
    simp only [apply_ite EngRes.state, apply_ite State.privilege, EngRes.state_more, EngRes.state_done,
      privilege_setStep, privilege_updCpy, hrow, ite_self]
  · exact hrow
end

-- The link engine.

@[simp] theorem privilege_mixWords (s : State) (det : Bool) (w : Nat) (old new : List Byte) :
    (s.mixWords det w old new).2.privilege = s.privilege := rfl

@[simp] theorem privilege_seenMix (s : State) (e : Eng) (det : Bool) (now : List Byte) :
    (s.seenMix e det now).2.privilege = s.privilege := by
  unfold State.seenMix
  split
  · split <;> rfl
  · rfl

/-- An update of any core that keeps the mode and the trap vector. -/
theorem privilege_updAt {s : State} {i : Nat} {f : Core → Core} (ht : ∀ c, (f c).trap.tvb = c.trap.tvb)
    (hr : ∀ c, (f c).regs.sup = c.regs.sup) : (s.updAt i f).privilege = s.privilege := by
  have hc : (s.updAt i f).core = if s.cur.val = i ∧ i < 128 then f (s.coreAt i) else s.core := by
    rw [State.core_of_coreAt (s.updAt_cur i f), State.coreAt_updAt, s.coreAt_cur]
  rw [State.privilege, hc]
  split
  · rename_i h
    rw [ht, hr, ← h.1, s.coreAt_cur]
    rfl
  · rfl

@[simp] theorem privilege_completion (s : State) (pkg core seq : Nat) (ok : Bool) :
    (s.completion pkg core seq ok).privilege = s.privilege := by
  unfold State.completion
  split
  · exact privilege_updAt (fun _ => rfl) fun _ => rfl
  · rfl

@[simp] theorem privilege_dispatch (s : State) (m : LinkMsg) : (s.dispatch m).privilege = s.privilege := by
  unfold State.dispatch
  split
  · rfl
  split
  · rfl
  · exact privilege_completion ..

theorem startLink_privilege (isRed half : Bool) (d src pk : Fin 16) (ctr : Option (Fin 16)) (expect : Nat)
    (len : Fin 4096) (b : LaneB) (c : Capture) (s : State) :
    (startLink isRed half d src pk ctr expect len b c s).state.privilege = s.privilege := by
  unfold startLink
  dsimp only
  split
  · rfl
  split
  · rfl
  · simp

theorem startBarrier_privilege (bar : Fin 16) (mask : LaneB) (c : Capture) (s : State) :
    (startBarrier bar mask c s).state.privilege = s.privilege := by
  unfold startBarrier
  dsimp only
  split
  · rfl
  split
  · rfl
  · rw [EngRes.state_sent, privilege_updCpy]
    rfl

end Sys2Proof.Machine
end

section
/-! SUPPORT. How a lane of the control thread ends from user mode (R86, R210, R214): it keeps the privilege of its core, or
enters the handler, which records user mode. -/
namespace Sys2Proof.Machine

/-- The state in which a lane ends, before it goes on, waits or traps. -/
def Res.state : Res → State
  | .done s | .stall s | .wait s | .goes s | .trap _ _ s => s

@[simp] theorem Res.state_done (s : State) : (Res.done s).state = s := rfl
@[simp] theorem Res.state_stall (s : State) : (Res.stall s).state = s := rfl
@[simp] theorem Res.state_wait (s : State) : (Res.wait s).state = s := rfl
@[simp] theorem Res.state_goes (s : State) : (Res.goes s).state = s := rfl
@[simp] theorem Res.state_trap (code : Nat) (info : Word) (s : State) : (Res.trap code info s).state = s := rfl

/-- From user mode in s, the core of t has the trap vector it had, and is in supervisor mode only at the entry of its
handler, which holds user mode as the mode before. -/
def Confined (s t : State) : Prop :=
  t.cur = s.cur ∧ t.core.trap.tvb = s.core.trap.tvb ∧
    (t.core.regs.sup = true → t.core.fetch.line = s.core.trap.tvb ∧ t.core.fetch.lane = 1 ∧
      t.core.trap.inh = true ∧ t.core.trap.psup = false)

section
variable {s t u : State} (hu : s.core.regs.sup = false)
include hu

theorem confined_of_privilege (h : t.privilege = s.privilege) : Confined s t := by
  obtain ⟨hc, ht, hr⟩ : t.cur = s.cur ∧ t.core.trap.tvb = s.core.trap.tvb ∧ t.core.regs.sup = s.core.regs.sup := by
    simpa [State.privilege] using h
  exact ⟨hc, ht, fun hs => absurd hs (by rw [hr, hu]; decide)⟩

/-- A trap is taken at TVB in supervisor mode, with the mode before in PSUP, or stops the core (R211, R214). -/
theorem confined_enterTrap (h : u.privilege = s.privilege) (r : TrapReq) (line : Word) (lane : Nat) :
    Confined s (u.enterTrap r line lane) := by
  unfold State.enterTrap
  split
  · exact confined_of_privilege hu ((privilege_doubleFault u).trans h)
  · obtain ⟨hc, ht, hr⟩ : u.cur = s.cur ∧ u.core.trap.tvb = s.core.trap.tvb ∧ u.core.regs.sup = s.core.regs.sup := by
      simpa [State.privilege] using h
    rw [Confined, State.core_upd]
    exact ⟨hc, ht, fun _ => ⟨ht, rfl, rfl, hr.trans hu⟩⟩

theorem confined_finish {r : Res} (ht : finish r = .next t) (h : r.state.privilege = s.privilege) : Confined s t := by
  cases r with
  | done v => cases ht; exact confined_of_privilege hu ((privilege_advance v).trans h)
  | stall v => cases ht; exact confined_of_privilege hu ((privilege_stallLane v).trans h)
  | wait v => cases ht; exact confined_of_privilege hu h
  | goes v => cases ht; exact confined_of_privilege hu h
  | trap code info v => cases ht; exact confined_enterTrap hu h _ _ _

/-- What only a supervisor may do ends in user mode in a trap of the state as it is (R86). -/
theorem confined_privileged {r : Res} (ht : finish (privileged s r) = .next t) : Confined s t := by
  refine confined_finish hu ht ?_
  rw [privileged, hu]
  rfl
end

-- Transfers, loops and engines.

@[simp] theorem scoreboardOnly_privilege {s : State} {r : Res} (h : r.state.privilege = s.privilege) :
    (scoreboardOnly s r).state.privilege = s.privilege := by
  unfold scoreboardOnly
  split
  · rfl
  · exact h

@[simp] theorem privilege_jump (s : State) (t : Word) : (s.jump t).privilege = s.privilege := by
  obtain ⟨hc, h⟩ := onlyFetch_jump s t
  have ht : (s.jump t).core.trap = s.core.trap := (congrArg Core.trap h :)
  have hr : (s.jump t).core.regs = s.core.regs := (congrArg Core.regs h :)
  rw [State.privilege, hc.cur_eq, ht, hr]
  rfl

@[simp] theorem privilege_goTo (s : State) (t : Word) : (s.upd fun c => c.goTo t).privilege = s.privilege :=
  privilege_upd rfl rfl

theorem Core.nextLine_frame (c : Core) : c.nextLine.trap = c.trap ∧ c.nextLine.regs = c.regs := by
  unfold Core.nextLine
  dsimp only
  split
  · exact ⟨rfl, rfl⟩
  · split <;> exact ⟨rfl, rfl⟩

@[simp] theorem privilege_nextLine (s : State) : (s.upd Core.nextLine).privilege = s.privilege :=
  privilege_upd (congrArg TrapRegs.tvb s.core.nextLine_frame.1) (congrArg Regs.sup s.core.nextLine_frame.2)

theorem Core.afterLane_frame (c : Core) : c.afterLane.trap = c.trap ∧ c.afterLane.regs = c.regs := by
  unfold Core.afterLane
  split
  · exact c.nextLine_frame
  · exact ⟨rfl, rfl⟩

@[simp] theorem privilege_afterLane (s : State) : (s.upd Core.afterLane).privilege = s.privilege :=
  privilege_upd (congrArg TrapRegs.tvb s.core.afterLane_frame.1) (congrArg Regs.sup s.core.afterLane_frame.2)

-- Loads and stores.

/-- A failed access logs a port violation, and that is all (R125, R133). -/
@[simp] theorem trapBad_privilege (b : Bad) (sp : Space) (a : Word) (s : State) :
    (trapBad b sp a s).state.privilege = s.privilege := by
  rw [trapBad, Res.state_trap]
  split <;> rfl

theorem load_privilege (sp : Space) (w : Width) (d : Dest) (base : Opnd) (off : BitVec 10) (cls : Fin 16) (s : State) :
    (load sp w d base off cls s).state.privilege = s.privilege := by
  unfold load State.loadAt
  dsimp only
  repeat' split
  all_goals simp

theorem store_privilege (sp : Space) (w : Width) (data base : Opnd) (off : BitVec 10) (cls : Fin 16) (s : State) :
    (store sp w data base off cls s).state.privilege = s.privilege := by
  unfold store State.storeAt
  dsimp only
  repeat' split
  all_goals simp

-- Sequentially consistent accesses (R146-R148, R347).

@[simp] theorem privilege_wheelStall (s : State) : s.wheelStall.privilege = s.privilege := privilege_updFetch _ _
@[simp] theorem privilege_wheelIssue (s : State) : s.wheelIssue.privilege = s.privilege := privilege_updFetch _ _

@[simp] theorem privilege_endScWait (s : State) : s.endScWait.privilege = s.privilege := by
  unfold State.endScWait
  split
  · rfl
  · exact privilege_upd rfl rfl

@[simp] theorem privilege_waitSc (s : State) (sp : Space) (a : Word) (loc : Loc) (as : List Nat) :
    (s.waitSc sp a loc as).privilege = s.privilege := by
  unfold State.waitSc
  split
  · rfl
  · refine (privilege_upd rfl rfl).trans ?_
    split <;> rfl

theorem scAccess_privilege {sp : Space} {a : Word} {loc : Loc} {as : List Nat} {s : State} {k : State → Res}
    (hk : ∀ u, (k u).state.privilege = u.privilege) : (scAccess sp a loc as s k).state.privilege = s.privilege := by
  unfold scAccess
  dsimp only
  split
  · simp
  split <;> simp [hk]

theorem scPlace_privilege {sp : Space} {kind : GKind} {a : Word} {n : Nat} {s : State} {k : Loc → List Nat → Res}
    (hk : ∀ loc as, (k loc as).state.privilege = s.privilege) :
    (scPlace sp kind a n s k).state.privilege = s.privilege := by
  unfold scPlace
  split
  · exact hk _ _
  split
  · rfl
  split
  · exact trapBad_privilege ..
  · exact hk _ _

theorem counterChecked_privilege {a : Word} {s : State} {k : List Nat → Res}
    (hk : ∀ as, (k as).state.privilege = s.privilege) : (counterChecked a s k).state.privilege = s.privilege := by
  unfold counterChecked
  split
  · rfl
  split
  · exact trapBad_privilege ..
  · exact hk _

-- Atomics (R291, R292).

theorem atomicAt_privilege {sp : XSpace} {dbl : Bool} {k : GKind} {a : Word} {cls : Fin 16} {counter : Nat → Bool}
    {s : State} {f : Loc → List Nat → Nat → State → Res}
    (hf : ∀ loc as old u, (f loc as old u).state.privilege = u.privilege) :
    (atomicAt sp dbl k a cls counter s f).state.privilege = s.privilege := by
  unfold atomicAt
  dsimp only
  repeat' split
  all_goals simp [hf]

@[simp] theorem atomicDone_privilege (loc : Loc) (as : List Nat) (old : Nat) (new : Option Nat) (s : State) :
    (atomicDone loc as old new s).state.privilege = s.privilege := by
  unfold atomicDone
  dsimp only
  split <;> simp

@[simp] theorem privilege_updRun (s : State) (f : AfaddRun → AfaddRun) : (s.updRun f).privilege = s.privilege := by
  unfold State.updRun
  split
  · rfl
  · split <;> rfl

end Sys2Proof.Machine
end

section
/-! SUPPORT. From user mode every instruction of the control thread keeps the privilege of the core or enters the handler
(R86, R211, R214). -/
namespace Sys2Proof.Machine

-- What single lanes leave.

@[simp] theorem privilege_recordArrival (s : State) (die : Bool) (b : Fin 16) :
    (s.recordArrival die b).privilege = s.privilege := by
  unfold State.recordArrival
  dsimp only
  split <;> rfl

theorem privilege_enqueuePushed (s : State) (core q : Nat) (img : Vector Word 16) (ctx : Fin 64) :
    (s.enqueuePushed core q img ctx).privilege = s.privilege := by
  unfold State.enqueuePushed State.enqueue
  exact privilege_updAt (s := { s with pushes := s.pushes + 1 }) (fun _ => rfl) fun _ => rfl

theorem privilege_captured {s v : State} {t off : Nat} {spec post : Bool} {k : Copy}
    (h : s.captureCopy t off spec post = .ok k v) : v.privilege = s.privilege := by
  have hh := captureCopy_holds s t off spec post
  rw [h] at hh
  exact privilege_of_core (by obtain ⟨_, _, rfl⟩ := hh; rfl) hh.core_eq

@[simp] theorem privilege_sysClear (s : State) (n : Nat) : (s.sysClear n).privilege = s.privilege := by
  unfold State.sysClear
  split
  · exact privilege_updRegs rfl
  repeat' split
  all_goals simp

@[simp] theorem privilege_readSnap (s : State) (k : Nat) : (s.readSnap k).2.privilege = s.privilege := by
  unfold State.readSnap
  split
  · rfl
  split
  · exact privilege_upd rfl rfl
  · rfl

@[simp] theorem privilege_readBcm (s : State) (k : Nat) : (s.readBcm k).2.privilege = s.privilege := by
  rw [State.readBcm]
  exact (privilege_upd rfl rfl).trans (privilege_readSnap s k)

theorem sysWrite_pace (s : State) {n : Nat} (hlo : 0x100 ≤ n) (hhi : n ≤ 0x105) (v : Word) :
    s.sysWrite n v = s.updEng fun e =>
      { e with paceWritten := vset e.paceWritten (n - 0x100) (BitVec.ofNat 8 v.toNat) } := by
  interval_cases n <;> rfl

/-- A register that user mode may write is a pace register, one outside the core, or an action register (R90). -/
theorem sysWrite_privilege {s : State} {n : Nat} (h : userWrites n = true) (ho : outsideCore n = false) (v : Word) :
    (s.sysWrite n v).privilege = s.privilege := by
  have hn : n = 0x50 ∨ n = 0x51 ∨ (0x100 ≤ n ∧ n ≤ 0x105) := by
    simp only [userWrites, outsideCore, between, Bool.or_eq_true, Bool.and_eq_true, decide_eq_true_eq,
      Bool.or_eq_false_iff, Bool.and_eq_false_iff, decide_eq_false_iff_not] at h ho
    omega
  obtain rfl | rfl | ⟨hlo, hhi⟩ := hn
  · rfl
  · rfl
  · rw [sysWrite_pace s hlo hhi, privilege_updEng]

theorem sendWrite_privilege (s : State) (n : Nat) (v : Word) : (s.sendWrite n v).privilege = s.privilege :=
  privilege_upd rfl rfl

/-- Tokens move in the engines' queues; the marks are in the fetch state. -/
theorem moveTokens_privilege {can : Engines → Eng → Bool} {mv : Engines → Eng → Engines} {mark : State → Eng → State}
    (hm : ∀ u e, (mark u e).privilege = u.privilege) (es : List Eng) (s : State) :
    (moveTokens can mv mark es s).state.privilege = s.privilege := by
  induction es generalizing s with
  | nil => rfl
  | cons e es ih =>
    rw [moveTokens]
    split
    · rw [ih, hm, privilege_updEng]
    · rfl

/-- An update of every core that keeps the mode and the trap vector of each. -/
theorem privilege_cores {s : State} {f : Nat → Core} (ht : (f s.cur.val).trap.tvb = s.core.trap.tvb)
    (hr : (f s.cur.val).regs.sup = s.core.regs.sup) :
    ({ s with cores := vgen 128 f } : State).privilege = s.privilege := by
  have hc : ({ s with cores := vgen 128 f } : State).core = f s.cur.val := vgen_get _ _ _ s.cur.isLt
  rw [State.privilege, hc, ht, hr]
  rfl

theorem privilege_grant (s : State) (clusters : BitVec 32) (us : Word) :
    (s.grant clusters us).privilege = s.privilege := by
  unfold State.grant
  refine (privilege_cores ?_ ?_).trans (privilege_updPower _ _)
  · dsimp only
    split <;> rw [State.coreAt_cur]
  · dsimp only
    split <;> rw [State.coreAt_cur]

theorem privilege_endLease (s : State) (l : Lease) (at_ : Word) : (s.endLease l at_).privilege = s.privilege := by
  unfold State.endLease
  refine (privilege_cores ?_ ?_).trans (privilege_updPower _ _)
  · dsimp only
    split <;> rw [State.coreAt_cur]
  · dsimp only
    split <;> rw [State.coreAt_cur]

theorem privilege_answerSprint (s : State) (m us : Word) : (s.answerSprint m us).2.privilege = s.privilege := by
  unfold State.answerSprint
  dsimp only
  split
  · rfl
  · exact (privilege_grant ..).trans (privilege_updPower _ _)

theorem privilege_stopCore (s : State) : s.stopCore.privilege = s.privilege := privilege_updWork _ _

-- The lanes.

section
variable {s t : State} (hu : s.core.regs.sup = false)
include hu

theorem confined_result {d : Dest} {v : Word} (h : result d v s = .next t) : Confined s t :=
  confined_finish hu h (privilege_setDest s d v)

theorem confined_execTime {d : Dest} (h : execTime d s = .next t) : Confined s t := by
  refine confined_finish hu h ?_
  rw [Res.state_done, privilege_updRegs rfl, privilege_setDest]

theorem confined_execBr {c : Opnd} {disp : BitVec 21} (h : execBr c disp s = .next t) : Confined s t :=
  confined_finish hu h (scoreboardOnly_privilege (by split <;> simp))

theorem confined_execJmp {disp : BitVec 21} (h : execJmp disp s = .next t) : Confined s t :=
  confined_finish hu h (privilege_jump s _)

theorem confined_execCall {disp : BitVec 21} (h : execCall disp s = .next t) : Confined s t := by
  unfold execCall at h
  refine confined_finish hu h ?_
  rw [Res.state_goes, privilege_goTo]
  exact privilege_updRegs rfl

theorem confined_execRet (h : execRet s = .next t) : Confined s t := by
  refine confined_finish hu h (scoreboardOnly_privilege ?_)
  repeat' split
  all_goals simp

theorem confined_execLoop {count : Opnd} {len : BitVec 21} (h : execLoop count len s = .next t) : Confined s t := by
  refine confined_finish hu h ?_
  repeat' split
  all_goals simp

theorem confined_execGuard {k : Fin 4} {a : Opnd} (h : execGuard k a s = .next t) : Confined s t := by
  unfold execGuard at h
  refine confined_finish hu h ?_
  rw [Res.state_done]
  exact privilege_updRegs rfl

theorem confined_execFork {mask : BitVec 6} (h : execFork mask s = .next t) : Confined s t := by
  refine confined_finish hu h ?_
  rw [Res.state_done]
  split
  · rfl
  · exact privilege_updEng _ _

theorem confined_execJoin {mask : BitVec 6} (h : execJoin mask s = .next t) : Confined s t := by
  refine confined_finish hu h (scoreboardOnly_privilege ?_)
  dsimp only
  repeat' split
  all_goals simp

/-- TRAP enters the handler at once or, where that cannot be, stops the core (R361). -/
theorem confined_execTrap {code : BitVec 8} (h : execTrap code s = .next t) : Confined s t := by
  obtain rfl : s.trapNextLine 0x17 (s.laneInfo (BitVec.ofNat 64 (code.toNat * 256))) = t := by
    simpa only [execTrap, finish_goes, Host.Outcome.next.injEq] using h
  unfold State.trapNextLine
  split
  · exact confined_of_privilege hu (privilege_doubleFault s)
  · exact confined_enterTrap hu (privilege_nextLine s) ..

/-- BRK stops the core or traps at the lane after (R254, R297). -/
theorem confined_execBrk {num : BitVec 16} (h : execBrk num s = .next t) : Confined s t := by
  unfold execBrk at h
  rw [finish_goes, Host.Outcome.next.injEq] at h
  subst h
  split_ifs
  · exact confined_of_privilege hu ((privilege_stopCore _).trans (privilege_afterLane s))
  · exact confined_of_privilege hu (privilege_doubleFault s)
  · exact confined_enterTrap hu (privilege_afterLane s) ..

theorem confined_execPset {e : Eng} {p : Fin 16} {a : Opnd} (h : execPset e p a s = .next t) : Confined s t := by
  unfold execPset at h
  refine confined_finish hu h ?_
  rw [Res.state_done, privilege_updEng]

theorem confined_execXput {sig value : Opnd} (h : execXput sig value s = .next t) : Confined s t := by
  unfold execXput at h
  refine confined_finish hu h ?_
  rw [Res.state_done]
  exact privilege_upd rfl rfl

theorem confined_execCtset {x : Fin 64} {w : Fin 16} {a : Opnd} (h : execCtset x w a s = .next t) : Confined s t := by
  unfold execCtset at h
  refine confined_finish hu h ?_
  rw [Res.state_done, privilege_updCpy]

theorem confined_load {sp : Space} {w : Width} {d : Dest} {base : Opnd} {off : BitVec 10} {cls : Fin 16}
    (h : finish (load sp w d base off cls s) = .next t) : Confined s t :=
  confined_finish hu h (load_privilege ..)

theorem confined_store {sp : Space} {w : Width} {data base : Opnd} {off : BitVec 10} {cls : Fin 16}
    (h : finish (store sp w data base off cls s) = .next t) : Confined s t :=
  confined_finish hu h (store_privilege ..)

theorem confined_atomic {sp : XSpace} {dbl : Bool} {k : GKind} {a : Word} {cls : Fin 16} {counter : Nat → Bool}
    {new : Nat → Option Nat} (h : finish (atomicAt sp dbl k a cls counter s fun loc as old u =>
      atomicDone loc as old (new old) u) = .next t) : Confined s t :=
  confined_finish hu h (atomicAt_privilege fun _ _ _ _ => atomicDone_privilege ..)

theorem confined_execAfadd {sp : XSpace} {dbl : Bool} {sc : Scope} {data base : Opnd} {cls : Fin 16}
    (h : execAfadd sp dbl sc data base cls s = .next t) : Confined s t := by
  refine confined_finish hu h (atomicAt_privilege fun loc as old u => ?_)
  dsimp only
  split
  · rw [Res.state_done, privilege_setDest, privilege_updRun]
    split <;> rfl
  · exact atomicDone_privilege ..

theorem confined_execScld {sp : XSpace} {w : Width} {d : Dest} {base : Opnd} (h : execScld sp w d base s = .next t) :
    Confined s t := by
  refine confined_finish hu h (scPlace_privilege fun _ _ => scAccess_privilege fun _ => ?_)
  split <;> simp

theorem confined_execScst {sp : XSpace} {w : Width} {data base : Opnd} (h : execScst sp w data base s = .next t) :
    Confined s t := by
  refine confined_finish hu h (scPlace_privilege fun _ _ => scAccess_privilege fun _ => ?_)
  split <;> simp

theorem confined_execCtrinit {addr value : Opnd} (h : execCtrinit addr value s = .next t) : Confined s t := by
  refine confined_finish hu h (counterChecked_privilege fun _ => ?_)
  repeat' split
  all_goals simp

theorem confined_execCwait {addr target : Opnd} (h : execCwait addr target s = .next t) : Confined s t := by
  refine confined_finish hu h (counterChecked_privilege fun _ => ?_)
  repeat' split
  all_goals rfl

theorem confined_execCfence {sc : Scope} {mask : BitVec 16} (h : execCfence sc mask s = .next t) : Confined s t := by
  refine confined_finish hu h ?_
  split <;> simp

theorem confined_execQfence {mask : BitVec 6} (h : execQfence mask s = .next t) : Confined s t := by
  refine confined_finish hu h ?_
  dsimp only
  split
  · rfl
  · rw [Res.state_done]
    exact privilege_upd rfl rfl

theorem confined_execDrain {sp : CSpace} (h : execDrain sp s = .next t) : Confined s t := by
  refine confined_finish hu h ?_
  split <;> rfl

theorem confined_execArrive {die : Bool} {b : Fin 16} {mask : BitVec 16} (h : execArrive die b mask s = .next t) :
    Confined s t := by
  refine confined_finish hu h ?_
  split <;> simp

theorem confined_execAwait {die : Bool} {b : Fin 16} {mask : BitVec 16} (h : execAwait die b mask s = .next t) :
    Confined s t := by
  refine confined_finish hu h ?_
  split <;> rfl

theorem confined_execQpush {q : BitVec 2} {core addr : Opnd} (h : execQpush q core addr s = .next t) :
    Confined s t := by
  refine confined_finish hu h (scoreboardOnly_privilege ?_)
  dsimp only
  repeat' split
  all_goals simp [privilege_enqueuePushed]

theorem confined_execSta {addr data : Opnd} {mask : BitVec 16} (h : execSta addr data mask s = .next t) :
    Confined s t := by
  refine confined_finish hu h ?_
  dsimp only
  split
  · rfl
  split
  · rfl
  split
  · rfl
  split
  · rfl
  · rename_i hcap _
    rw [Res.state_done, privilege_updChannel, privilege_updCpy, privilege_captured hcap]

theorem confined_execSrd {d : Dest} {reg : BitVec 16} (h : execSrd d reg s = .next t) : Confined s t := by
  refine confined_finish hu h ?_
  dsimp only
  repeat' split
  all_goals simp

theorem confined_execSwr {a : Opnd} {reg : BitVec 16} (h : execSwr a reg s = .next t) : Confined s t := by
  refine confined_finish hu h ?_
  rw [hu]
  split
  · rfl
  · rename_i hw
    rw [Res.state_done]
    split
    · exact sendWrite_privilege ..
    · exact sysWrite_privilege (by simpa using hw) (by simp_all) _

theorem confined_execTkpushWrite {a : Opnd} (h : execTkpushWrite a s = .next t) : Confined s t :=
  confined_finish hu h ((moveTokens_privilege (fun u e => by simp [State.markPushed, State.markMoved]) _ _).trans
    (privilege_performWhere s _))

theorem confined_execTkpopWrite {a : Opnd} (h : execTkpopWrite a s = .next t) : Confined s t :=
  confined_finish hu h (moveTokens_privilege (fun u _ => privilege_updFetch u _) _ _)

theorem confined_execSprint {d : Dest} {mask micros : Opnd} (h : execSprint d mask micros s = .next t) :
    Confined s t := by
  refine confined_finish hu h ?_
  dsimp only
  split
  · rfl
  · rw [Res.state_done, privilege_setDest, privilege_answerSprint]

theorem confined_execSprel {a : Opnd} (h : execSprel a s = .next t) : Confined s t := by
  refine confined_finish hu h ?_
  split
  · rfl
  · rw [Res.state_done]
    split
    · exact privilege_endLease ..
    · rfl
end

end Sys2Proof.Machine
end

section
/-! SUPPORT. No instruction of a program raises the mode or moves the trap vector (R86). -/
namespace Sys2Proof.Machine

/-- A vector instruction whose work only writes registers. -/
theorem veOp_regResult_privilege {b : LaneB} {s t : State} {regs : List (Nat × Nat)} {use : Vec → VUse} {m : Fin 8}
    {f : Vec → Vec} (h : veOp b s regs use m (regResult f) = .next t) : t.privilege = s.privilege :=
  veAccess_privilege (regResult_privilege f) h

section
variable {b : LaneB} {s t : State}

theorem execVred_privilege {op : RedOp} {rnd : Rnd} {v : V2} (h : execVred op rnd v b s = .next t) :
    t.privilege = s.privilege := by
  unfold execVred at h
  exact veOp_regResult_privilege h

theorem execVperm_privilege {v : V3} (h : execVperm v b s = .next t) : t.privilege = s.privilege := by
  unfold execVperm at h
  exact veOp_regResult_privilege h

theorem execVbcast_privilege {lane : Fin 64} {v : V2} (h : execVbcast lane v b s = .next t) :
    t.privilege = s.privilege := by
  unfold execVbcast at h
  exact veOp_regResult_privilege h

theorem execVrdacc_privilege {int : Bool} {mask : Fin 8} {vd : Fin 256} {e row : Fin 64}
    (h : execVrdacc int mask vd e row b s = .next t) : t.privilege = s.privilege := by
  unfold execVrdacc veOp at h
  refine veAccess_privilege (fun c u => ?_) h
  split
  · rfl
  · rw [EngRes.state_done, privilege_updVec]

theorem exec_vsel (v : V4) (b : LaneB) (s : State) : exec (.vsel v b) s = execVsel v b s := rfl
theorem exec_vshl (v : V3) (b : LaneB) (s : State) : exec (.vshl v b) s = execVshl v b s := rfl
theorem exec_vshr (arith : Bool) (v : V3) (b : LaneB) (s : State) : exec (.vshr arith v b) s = execVshr arith v b s :=
  rfl

theorem vsel_privilege {v : V4} (h : exec (.vsel v b) s = .next t) : t.privilege = s.privilege := by
  rw [exec_vsel, execVsel] at h
  exact v4Op_privilege h

theorem vshl_privilege {v : V3} (h : exec (.vshl v b) s = .next t) : t.privilege = s.privilege := by
  rw [exec_vshl, execVshl] at h
  exact v3Op_privilege h

theorem vshr_privilege {arith : Bool} {v : V3} (h : exec (.vshr arith v b) s = .next t) :
    t.privilege = s.privilege := by
  rw [exec_vshr, execVshr] at h
  exact v3Op_privilege h

theorem allotment_privilege {f : Vec → Vec} (h : engineOp .ve b s (fun _ u =>
    if u.core.vec.parked.isEmpty then .done (u.updVec f) else .stall u) = .next t) : t.privilege = s.privilege := by
  refine engineOp_privilege (fun c u => ?_) h
  split
  · exact privilege_updVec _ _
  · rfl

theorem meSetting_privilege {f : Matrix → Matrix} (h : engineOp .me b s (fun _ u => .done (u.updMe f)) = .next t) :
    t.privilege = s.privilege := by
  refine engineOp_privilege (fun _ u => ?_) h
  exact privilege_updMe u f

theorem issue_privilege {k : TileKind} {f : Fmt} {e sa sb : Nat} {q : Option QGroup}
    (h : engineOp .me b s (fun _ u => issueOne k f e sa sb q u) = .next t) : t.privilege = s.privilege :=
  engineOp_privilege (fun _ u => issueOne_privilege k f e sa sb q u) h
end

/-- An instruction of the control thread: those that are no event and enter no engine's queue. -/
theorem exec_lane_confined {i : Instr} {s t : State} (hi : isEvent i = false) (hb : LaneB.of i = none)
    (hu : s.core.regs.sup = false) (h : exec i s = .next t) : Confined s t := by
  cases i <;> cases hi <;> cases hb
  case add | sub | mul | mulh | div | rem | and | or | xor | shl | shr | sra | clz | popc | mov | sel | cmp | addi | andi
    | ori | xori | cmpi | shlImm | shrImm | sraImm | movi | movhi | wid | xpred | xget => exact confined_result hu h
  case time => exact confined_execTime hu h
  case srd => exact confined_execSrd hu h
  case swr => exact confined_execSwr hu h
  case sprint => exact confined_execSprint hu h
  case sprel => exact confined_execSprel hu h
  case br => exact confined_execBr hu h
  case jmp => exact confined_execJmp hu h
  case call => exact confined_execCall hu h
  case ret => exact confined_execRet hu h
  case loop => exact confined_execLoop hu h
  case guard => exact confined_execGuard hu h
  case fork => exact confined_execFork hu h
  case join => exact confined_execJoin hu h
  case trap => exact confined_execTrap hu h
  case brk => exact confined_execBrk hu h
  case eret | clkdiv | btset | btswap | dead | rqrelRetry | rqrelRelease => exact confined_privileged hu h
  case pset => exact confined_execPset hu h
  case ldu | ldk | ldn | ldd | ldg => exact confined_load hu h
  case stu | stk | stn | std | stg => exact confined_store hu h
  case aadd | acas | axch | amax => exact confined_atomic hu h
  case afadd _ _ sc _ _ _ => exact confined_execAfadd (sc := sc) hu h
  case scld => exact confined_execScld hu h
  case scst => exact confined_execScst hu h
  case cfence sc _ => exact confined_execCfence (sc := sc) hu h
  case qfence => exact confined_execQfence hu h
  case drain => exact confined_execDrain hu h
  case cwait => exact confined_execCwait hu h
  case ctrinit => exact confined_execCtrinit hu h
  case arrive => exact confined_execArrive hu h
  case await _ _ mask => exact confined_execAwait (mask := mask) hu h
  case qpush => exact confined_execQpush hu h
  case sta => exact confined_execSta hu h
  case ctset => exact confined_execCtset hu h
  case xput => exact confined_execXput hu h
  case tkpushWrite => exact confined_execTkpushWrite hu h
  case tkpopWrite => exact confined_execTkpopWrite hu h

/-- An engine's instruction keeps the privilege of its core. -/
theorem exec_engine_privilege {i : Instr} {s t : State} (hb : (LaneB.of i).isSome = true) (h : exec i s = .next t) :
    t.privilege = s.privilege := by
  cases i <;> cases hb
  case mclaim => exact execMclaim_privilege h
  case mrel => exact execMrel_privilege h
  case mzero => exact execMzero_privilege h
  case mfill => exact execMfill_privilege h
  case mwb => exact execMwb_privilege h
  case mnest | mmon => exact meSetting_privilege h
  case msca => exact execMsca_privilege h
  case mma | mmaLad => exact issue_privilege h
  case mgo => exact execMgo_privilege h
  case mladr => exact execMladr_privilege h
  case mspec => exact execMspec_privilege h
  case mresolve => exact execMresolve_privilege h
  case vadd | vsub | vmul | vmin | vmax | vand | vor | vxor => exact v3Op_privilege h
  case vshl => exact vshl_privilege h
  case vshr => exact vshr_privilege h
  case vfma => exact v4Op_privilege h
  case vsel => exact vsel_privilege h
  case vabs | vneg | vrcp | vrsq | vexp2 | vlog2 | vcvt => exact v2Op_privilege h
  case vcmp | viota | vmovi => exact veOp_regResult_privilege h
  case vred => exact execVred_privilege h
  case vperm => exact execVperm_privilege h
  case vbcast => exact execVbcast_privilege h
  case vldu | vldk | vldd => exact vecLoad_privilege h
  case vstu | vstk | vstd | vstn => exact vecStore_privilege h
  case vldg => exact execVldg_privilege h
  case vgrow | vshrink => exact allotment_privilege h
  case vrdacc int _ _ _ _ _ => exact execVrdacc_privilege (int := int) h
  case ccopy | cfill | cpost | cmov => exact engineOp_privilege startCopy_privilege h
  case cqnt => exact execCqnt_privilege h
  case gcsr => exact execGcsr_privilege h
  case gmap => exact execGmap_privilege h
  case grows | gscat => exact rowsOp_privilege h
  case lsend | lred => exact engineOp_privilege (fun c u => startLink_privilege _ _ _ _ _ _ _ _ _ c u) h
  case lbar => exact engineOp_privilege (fun c u => startBarrier_privilege _ _ c u) h

/-- From user mode every instruction of a program is confined. -/
theorem exec_confined {i : Instr} {s t : State} (hi : isEvent i = false) (hu : s.core.regs.sup = false)
    (h : exec i s = .next t) : Confined s t := by
  cases hb : LaneB.of i with
  | none => exact exec_lane_confined hi hb hu h
  | some b => exact confined_of_privilege hu (exec_engine_privilege (hb ▸ rfl) h)

end Sys2Proof.Machine
end

section
namespace Sys2Proof.Machine

/-- Settles O27: from user mode a lane or an entry keeps the mode and the trap vector, or enters the handler. -/
theorem userModeCannotRaiseItself : Obligations.UserModeCannotRaiseItself := by
  unfold Obligations.UserModeCannotRaiseItself
  intro i s t hi hu h
  exact exec_confined hi hu h

end Sys2Proof.Machine
end

section
/-! SUPPORT. LOOP, the loops that a transfer leaves, and the end of a line (R82, R328, R394). -/
namespace Sys2Proof.Machine

-- The loops that a transfer leaves.

theorem LoopEnt.covers_iff (l : LoopEnt) (t : Word) :
    l.covers t = true ↔ l.first.toNat ≤ t.toNat ∧ t.toNat ≤ l.lastLine.toNat := by
  simp [LoopEnt.covers]

/-- The loops that stay: those that are left go from the inner end, up to the first that holds the target. -/
theorem Core.leaveLoops_loops (c : Core) (t : Word) :
    (c.leaveLoops t).fetch.loops = c.fetch.loops.rdropWhile fun l => !(l.covers t) := by
  have hpre := List.rdropWhile_prefix (fun l => !(l.covers t)) c.fetch.loops
  unfold Core.leaveLoops
  dsimp only
  split
  · rename_i h
    exact (hpre.eq_of_length h).symm
  · rfl

theorem jump_loops (s : State) (t : Word) :
    (s.jump t).core.fetch.loops = s.core.fetch.loops.rdropWhile fun l => !(l.covers t) := by
  rw [State.jump, State.core_upd]
  exact s.core.leaveLoops_loops t

/-- A list is what stays of it before what is dropped at its right end: the one ends in a member that fails the test, all of
the other pass it. -/
theorem rdropWhile_split {α : Type} (p : α → Bool) (l : List α) :
    ∃ n ≤ l.length, l.rdropWhile p = l.take n ∧ (∀ x ∈ l.drop n, p x = true) ∧
      ∀ x, (l.take n).getLast? = some x → p x = false := by
  have hsplit : l.rdropWhile p ++ l.rtakeWhile p = l := List.rdropWhile_append_rtakeWhile
  have htake : l.take (l.rdropWhile p).length = l.rdropWhile p :=
    (congrArg (List.take _) hsplit).symm.trans List.take_left
  have hdrop : l.drop (l.rdropWhile p).length = l.rtakeWhile p :=
    (congrArg (List.drop _) hsplit).symm.trans List.drop_left
  refine ⟨(l.rdropWhile p).length, (List.rdropWhile_prefix p l).length_le, htake.symm, fun x hx => ?_, fun x hx => ?_⟩
  · rw [hdrop] at hx
    exact List.mem_rtakeWhile_imp hx
  · rw [htake] at hx
    have hne : l.rdropWhile p ≠ [] := fun h => by simp [h] at hx
    rw [List.getLast?_eq_some_getLast hne, Option.some.injEq] at hx
    subst hx
    exact Bool.eq_false_iff.mpr (List.rdropWhile_last_not p l hne)

/-- A transfer keeps the outer loops down to the innermost that holds the target (R82). -/
theorem jump_keeps_loops (s : State) (t : Word) : ∃ n ≤ s.core.fetch.loops.length,
    (s.jump t).core.fetch.loops = s.core.fetch.loops.take n ∧
    (∀ l ∈ s.core.fetch.loops.drop n, ¬ (l.first.toNat ≤ t.toNat ∧ t.toNat ≤ l.lastLine.toNat)) ∧
    ∀ l, (s.core.fetch.loops.take n).getLast? = some l → l.first.toNat ≤ t.toNat ∧ t.toNat ≤ l.lastLine.toNat := by
  obtain ⟨n, hn, htake, hout, hin⟩ := rdropWhile_split (fun l => !(l.covers t)) s.core.fetch.loops
  refine ⟨n, hn, (jump_loops s t).trans htake, fun l hl => ?_, fun l hl => ?_⟩
  · rw [← LoopEnt.covers_iff]
    simpa using hout l hl
  · rw [← LoopEnt.covers_iff]
    simpa using hin l hl

-- LOOP.

/-- A LOOP may be active with three others around it, in the body of the innermost. -/
def LoopFits (c : Core) (len : BitVec 21) : Prop :=
  c.fetch.loops.length < 4 ∧
    ∀ l, c.fetch.loops.getLast? = some l → c.fetch.line.toNat + 32 * len.toNat ≤ l.lastLine.toNat

theorem loopIllegal_iff (c : Core) (len : BitVec 21) : loopIllegal c len = true ↔ ¬ LoopFits c len := by
  rw [loopIllegal, LoopFits]
  cases c.fetch.loops.getLast? <;> simp; omega

theorem execLoop_of_zero {a : Opnd} {len : BitVec 21} {s : State} (hf : LoopFits s.core len) (h : s.operand a = 0) :
    execLoop a len s = .next (s.updFetch fun f =>
      { f with skip := some (f.line + BitVec.ofNat 64 (32 * (len.toNat + 1))) }).advance := by
  rw [execLoop, if_neg (by rw [loopIllegal_iff]; exact not_not_intro hf), if_pos h, finish_done,
    BitVec.ofNat_mul]
  rfl

theorem execLoop_of_pos {a : Opnd} {len : BitVec 21} {s : State} (hf : LoopFits s.core len) (h : s.operand a ≠ 0) :
    execLoop a len s = .next (s.updFetch fun f => { f with
      loops := f.loops ++ [{ left := s.operand a - 1, first := f.line + 32, len := len.toNat }] }).advance := by
  rw [execLoop, if_neg (by rw [loopIllegal_iff]; exact not_not_intro hf), if_neg h, finish_done]

theorem execLoop_of_illegal {a : Opnd} {len : BitVec 21} {s : State} (hf : ¬ LoopFits s.core len) :
    execLoop a len s = finish (.trap 0x01 0x1800 s) := by
  rw [execLoop, if_pos ((loopIllegal_iff _ _).mpr hf)]
  rfl

theorem onlyRegs_updFetch_advance (s : State) (f : Fetch → Fetch) : OnlyRegs s (s.updFetch f).advance :=
  ⟨(onlyCore_updFetch s f).trans (onlyCore_advance _), by rw [State.core_advance, State.core_updFetch]⟩

-- The end of a line.

/-- The innermost loop does not end here: the loops around it are tested, and it stays (R394). -/
theorem loopAdvance_of_elsewhere {line : Word} {l : LoopEnt} (ls : List LoopEnt) (h : l.lastLine ≠ line) :
    (loopAdvance line (ls ++ [l])).1 = (loopAdvance line ls).1 ++ [l] ∧
      (loopAdvance line (ls ++ [l])).2.1 = (loopAdvance line ls).2.1 := by
  rw [loopAdvance, List.reverse_concat, loopAdvance.go, if_neg h]
  exact ⟨rfl, rfl⟩

/-- It ends here with passes left: fetch goes round. -/
theorem loopAdvance_of_left {line : Word} {l : LoopEnt} (ls : List LoopEnt) (h : l.lastLine = line) (hl : l.left ≠ 0) :
    (loopAdvance line (ls ++ [l])).1 = ls ++ [{ l with left := l.left - 1 }] ∧
      (loopAdvance line (ls ++ [l])).2.1 = l.first := by
  rw [loopAdvance, List.reverse_concat, loopAdvance.go, if_pos h, if_neg hl, List.reverse_reverse]
  exact ⟨rfl, rfl⟩

/-- It is over: the loop around it is tested at the same line (R328). -/
theorem loopAdvance_of_over {line : Word} {l : LoopEnt} (ls : List LoopEnt) (h : l.lastLine = line) (hl : l.left = 0) :
    (loopAdvance line (ls ++ [l])).1 = (loopAdvance line ls).1 ∧
      (loopAdvance line (ls ++ [l])).2.1 = (loopAdvance line ls).2.1 := by
  rw [loopAdvance, List.reverse_concat, loopAdvance.go, if_pos h, if_pos hl]
  exact ⟨rfl, rfl⟩

/-- Settles O4: the loops that a transfer keeps are those of `rdropWhile`; LOOP by its cases; the end of a line by the
innermost loop. -/
theorem loopsStartGoRoundAndEnd : Obligations.LoopsStartGoRoundAndEnd := by
  unfold Obligations.LoopsStartGoRoundAndEnd
  refine ⟨?_, ?_, ?_⟩
  · intro c disp i s target inside hi
    have ht : s.core.target disp = target := s.core.target_eq disp
    have hexec : exec i s = .next (s.jump target) := by
      rw [← ht]
      obtain rfl | ⟨rfl, he, h⟩ := hi
      · exact exec_jmp disp s
      · exact (exec_br c disp s).trans (execBr_taken disp he h)
    obtain ⟨m, hm, hkept, hout, hin⟩ := jump_keeps_loops s target
    exact ⟨_, m, hexec, hm, hkept, hout, hin⟩
  · intro a len s f n fits
    refine ⟨fun hf => ?_, fun hf ht => trapsHere_of ht (by decide) (execLoop_of_illegal hf)⟩
    by_cases h : n = 0
    · refine ⟨_, execLoop_of_zero hf h, onlyRegs_updFetch_advance _ _, ?_, ?_, ?_, fun _ => ?_, fun hn => absurd h hn⟩ <;>
        simp [SameRegs, f]
    · refine ⟨_, execLoop_of_pos hf h, onlyRegs_updFetch_advance _ _, ?_, ?_, ?_, fun hn => absurd hn h, fun _ => ?_⟩ <;>
        simp [SameRegs, f, n]
  · intro line ls l
    exact ⟨rfl, rfl, loopAdvance_of_elsewhere ls, loopAdvance_of_left ls, loopAdvance_of_over ls⟩

end Sys2Proof.Machine
end

section
/-! SUPPORT. The words of GUARD, and what it does (R79). -/
namespace Sys2Proof

theorem decodeCC_of_guard {w : Nat} (h : fld w 31 26 = 0x15) : decodeCC w =
    checked (fld w 25 23 + fld w 15 0) true (.ok (.guard (Fin.ofNat 4 (fld w 22 21)) (opndOf (fld w 20 16)))) := by
  unfold decodeCC
  rw [h]
  rfl

theorem decodeCC_guard (w : Nat) (h : w / 2 ^ 26 = 0x15) :
    decodeCC w = if w / 2 ^ 23 % 8 ≠ 0 ∨ w % 2 ^ 16 ≠ 0 then .error 0x12
      else .ok (.guard (Fin.ofNat 4 (w / 2 ^ 21)) (opndOf (w / 2 ^ 16 % 32))) := by
  have hop : fld w 31 26 = 0x15 := congrArg (· % 2 ^ 6) h
  have hz : fld w 25 23 + fld w 15 0 ≠ 0 ↔ w / 2 ^ 23 % 8 ≠ 0 ∨ w % 2 ^ 16 ≠ 0 := by
    simp only [fld]
    omega
  have hk : Fin.ofNat 4 (fld w 22 21) = Fin.ofNat 4 (w / 2 ^ 21) := Fin.ext (Nat.mod_mod _ _)
  rw [decodeCC_of_guard hop, checked, if_pos rfl, hk]
  simp only [hz]
  rfl

namespace Machine

/-- GUARD writes one guard of the thread, and the lane completes (R79). -/
theorem exec_guard (k : Fin 4) (a : Opnd) (s : State) :
    exec (.guard k a) s = .next (s.updRegs fun r => { r with k := r.k.set k (s.operand a != 0) }).advance := rfl

/-- Settles O5: the word by its fields, the effect by the one register that is written. -/
theorem guardSetsOneGuard : Obligations.GuardSetsOneGuard := by
  unfold Obligations.GuardSetsOneGuard
  refine ⟨fun w _ h => decodeCC_guard w h, rfl, fun k a s => ⟨_, exec_guard k a s, ⟨?_, ?_⟩, ?_, ?_, fun j hj => ?_, ?_⟩⟩
  · exact (onlyCore_updRegs s _).trans (onlyCore_advance _)
  · rw [State.core_advance, State.core_updRegs]
  · rw [NextLane, State.core_advance, State.core_updRegs]
  · rw [State.core_advance, State.core_updRegs]
    simp
  · rw [State.core_advance, State.core_updRegs]
    exact Vector.getElem_set_ne k.isLt j.isLt fun h => hj (Fin.ext h.symm)
  · rw [State.core_advance, State.core_updRegs]

/-- Settles O34: each of the six words decodes by computation. -/
theorem specWordsDecode : Obligations.SpecWordsDecode := by
  unfold Obligations.SpecWordsDecode
  exact ⟨rfl, rfl, rfl, rfl, rfl, rfl⟩

end Machine
end Sys2Proof
end

section
/-! SUPPORT. How SRD and SWR go on with a register: by R90's columns, and by where the register stands (R90, R352,
R353). -/
namespace Sys2Proof.Machine

theorem between_iff (n lo hi : Nat) : between n lo hi = true ↔ lo ≤ n ∧ n ≤ hi := by simp [between]

/-- A 16-bit register number is read back from its field. -/
theorem toNat_reg {n : Nat} (h : n < 2 ^ 16) : (BitVec.ofNat 16 n).toNat = n := by
  rw [BitVec.toNat_ofNat, Nat.mod_eq_of_lt h]

/-- The core may read register n: in supervisor mode, or by R90's user column. -/
def State.MayRead (s : State) (n : Nat) : Prop := s.core.regs.sup = true ∨ userReads n = true

/-- The core may write register n. -/
def State.MayWrite (s : State) (n : Nat) : Prop := s.core.regs.sup = true ∨ userWrites n = true

section
variable {s : State} {d : Dest} {a : Opnd} {n : Nat}

theorem exec_srd (d : Dest) (r : BitVec 16) (s : State) : exec (.srd d r) s = execSrd d r s := rfl
theorem exec_swr (a : Opnd) (r : BitVec 16) (s : State) : exec (.swr a r) s = execSwr a r s := rfl

theorem exec_srd_of_priv (hn : n < 2 ^ 16) (hs : s.core.regs.sup = false) (hu : userReads n = false) :
    exec (.srd d (BitVec.ofNat 16 n)) s = finish (.trap 0x02 0 s) := by
  rw [exec_srd, execSrd, toNat_reg hn, if_pos (by rw [hs, hu]; rfl)]

theorem exec_swr_of_priv (hn : n < 2 ^ 16) (hs : s.core.regs.sup = false) (hu : userWrites n = false) :
    exec (.swr a (BitVec.ofNat 16 n)) s = finish (.trap 0x02 0 s) := by
  rw [exec_swr, execSwr, toNat_reg hn, if_pos (by rw [hs, hu]; rfl)]

theorem State.MayRead.passes (h : s.MayRead n) : ¬ (!s.core.regs.sup && !(userReads n)) = true := by
  rcases h with h | h <;> simp [h]

theorem State.MayWrite.passes (h : s.MayWrite n) : ¬ (!s.core.regs.sup && !(userWrites n)) = true := by
  rcases h with h | h <;> simp [h]

/-- A register that is no bank-conflict counter is pushed as it stands, and cleared where it is RC. -/
theorem exec_srd_of_register (hr : s.MayRead n) (hn : n < 0x200) :
    exec (.srd d (BitVec.ofNat 16 n)) s = .next ((s.sysClear n).setDest d (s.sysRead n)).advance := by
  rw [exec_srd, execSrd, toNat_reg (by omega), if_neg hr.passes, if_neg (by rw [between_iff]; omega),
    if_neg (by rw [between_iff]; omega), finish_done]

theorem exec_srd_of_counter (hr : s.MayRead n) (hlo : 0x200 ≤ n) (hhi : n ≤ 0x2FF) :
    exec (.srd d (BitVec.ofNat 16 n)) s =
      .next ((s.readBcm (n - 0x200)).2.setDest d (s.readBcm (n - 0x200)).1).advance := by
  rw [exec_srd, execSrd, toNat_reg (by omega), if_neg hr.passes, if_pos ((between_iff ..).mpr ⟨hlo, hhi⟩), finish_done]

theorem exec_srd_of_snapshot (hr : s.MayRead n) (hlo : 0x300 ≤ n) (hhi : n ≤ 0x3FF) :
    exec (.srd d (BitVec.ofNat 16 n)) s =
      .next ((s.readSnap (n - 0x300)).2.setDest d (s.readSnap (n - 0x300)).1).advance := by
  rw [exec_srd, execSrd, toNat_reg (by omega), if_neg hr.passes, if_neg (by rw [between_iff]; omega),
    if_pos ((between_iff ..).mpr ⟨hlo, hhi⟩), finish_done]

theorem exec_swr_of_inside (hw : s.MayWrite n) (hn : n < 2 ^ 16) (ho : outsideCore n = false) :
    exec (.swr a (BitVec.ofNat 16 n)) s = .next (s.sysWrite n (s.operand a)).advance := by
  rw [exec_swr, execSwr, toNat_reg hn, if_neg hw.passes, if_neg (by rw [ho]; decide), finish_done]

theorem exec_swr_of_outside (hw : s.MayWrite n) (hn : n < 2 ^ 16) (ho : outsideCore n = true) :
    exec (.swr a (BitVec.ofNat 16 n)) s = .next (s.sendWrite n (s.operand a)).advance := by
  rw [exec_swr, execSwr, toNat_reg hn, if_neg hw.passes, if_pos ho, finish_done]

/-- A register that a read does not clear is pushed, and nothing else changes. -/
theorem results_srd (hr : s.MayRead n) (hn : n < 0x200) (hc : s.sysClear n = s) :
    Results (.srd d (BitVec.ofNat 16 n)) s d (s.sysRead n) :=
  results_of (by rw [exec_srd_of_register hr hn, hc]; rfl)
end

/-- A lane that completes after u, which kept the fetch state. -/
theorem nextLane_advance {s u : State} (h : u.core.fetch = s.core.fetch) : NextLane s u.advance := by
  rw [NextLane, State.core_advance, h]

theorem nextLane_setDest_advance {s u : State} (d : Dest) (v : Word) (h : u.core.fetch = s.core.fetch) :
    NextLane s (u.setDest d v).advance := nextLane_advance (by rw [State.core_setDest, h])

theorem sameMemory_setDest_advance (s : State) (d : Dest) (v : Word) : SameMemory s (s.setDest d v).advance := by
  rw [State.setDest_advance]
  exact sameMemory_upd _ _

end Sys2Proof.Machine
end

section
/-! SUPPORT. SBCNT (R92). -/
namespace Sys2Proof.Machine

theorem satAdd32_toNat (x : BitVec 32) (n : Nat) : (satAdd32 x n).toNat = min (x.toNat + n) 0xFFFFFFFF := by
  rw [satAdd32, BitVec.toNat_ofNat]
  omega

theorem Regs.setDest_sbcnt (r : Regs) (d : Dest) (v : Word) : (r.setDest d v).sbcnt = r.sbcnt := by cases d <;> rfl

theorem State.schedBreak_sbcnt (s : State) (e : Eng) :
    (s.schedBreak e).core.regs.sbcnt = satAdd32 s.core.regs.sbcnt 1 := by
  unfold State.schedBreak
  dsimp only
  split <;> simp

/-- Settles O29: the count by its saturating sum, the read by RC, the write by the read-only column. -/
theorem schedBreakCount : Obligations.SchedBreakCount := by
  unfold Obligations.SchedBreakCount
  refine ⟨fun i => ?_, fun e d a s => ⟨?_, ⟨_, exec_srd_of_register (.inr rfl) (by decide), ?_, ?_, ?_⟩, fun hs =>
    ⟨_, exec_swr_of_inside (.inl hs) (by decide) rfl, nextLane_advance rfl, ?_⟩⟩⟩
  · rw [State.reset]
    simp [Core.reset, Regs.reset]
  · rw [State.schedBreak_sbcnt, satAdd32_toNat]
  · exact nextLane_setDest_advance d _ (by rw [State.sysClear, if_pos rfl, State.core_updRegs])
  · rw [State.core_advance, State.core_setDest, Regs.setDest_sbcnt, State.sysClear, if_pos rfl, State.core_updRegs]
  · rw [State.core_advance, State.core_setDest]
    refine (Regs.setDest_q _ d _ 0).trans ?_
    rw [if_pos rfl, BitVec.ofNat_toNat]
    rfl
  · rw [State.core_advance]
    rfl

end Sys2Proof.Machine
end

section
/-! SUPPORT. The supervisor instructions in user mode (R86, R90). -/
namespace Sys2Proof.Machine

theorem userReads_iff (n : Nat) : userReads n = true ↔ n ≤ 3 ∨ (0x100 ≤ n ∧ n ≤ 0x105) ∨ (0x110 ≤ n ∧ n ≤ 0x12F) ∨
    (0x130 ≤ n ∧ n ≤ 0x132) ∨ (0x140 ≤ n ∧ n ≤ 0x144) ∨ (0x150 ≤ n ∧ n ≤ 0x152) ∨ (0x160 ≤ n ∧ n ≤ 0x163) ∨
    (0x168 ≤ n ∧ n ≤ 0x16A) ∨ (0x170 ≤ n ∧ n ≤ 0x172) ∨ (0x178 ≤ n ∧ n ≤ 0x179) ∨ (0x200 ≤ n ∧ n ≤ 0x3FF) := by
  simp only [userReads, Bool.or_eq_true, between_iff, Nat.zero_le, true_and, or_assoc]

theorem userWrites_iff (n : Nat) : userWrites n = true ↔
    (0x50 ≤ n ∧ n ≤ 0x51) ∨ (0x100 ≤ n ∧ n ≤ 0x105) ∨ (0x140 ≤ n ∧ n ≤ 0x144) := by
  simp only [userWrites, Bool.or_eq_true, between_iff, or_assoc]

/-- What only a supervisor may do raises PRIV in user mode. -/
theorem trapsHere_of_privileged {i : Instr} {s : State} {r : Res} (hu : s.core.regs.sup = false) (ht : CanTrap s)
    (h : exec i s = finish (privileged s r)) : TrapsHere i s 0x02 (s.laneInfo 0) :=
  trapsHere_of ht (by decide) (by rw [h, privileged, hu, if_neg (by decide)])

-- Reads and writes that user mode makes.

@[simp] theorem State.core_updDroop (s : State) (k : Nat) (f : Droop → Droop) : (s.updDroop k f).core = s.core := rfl

theorem State.sysClear_fetch (s : State) (n : Nat) : (s.sysClear n).core.fetch = s.core.fetch := by
  unfold State.sysClear
  repeat' split
  all_goals simp

theorem sameMemory_updDroop (s : State) (k : Nat) (f : Droop → Droop) : SameMemory s (s.updDroop k f) :=
  sameMemory_of_padAt fun l => by cases l <;> rfl

theorem sameMemory_draw (s : State) : SameMemory s s.draw := sameMemory_of_padAt fun l => by cases l <;> rfl

theorem sameMemory_sysClear (s : State) (n : Nat) : SameMemory s (s.sysClear n) := by
  unfold State.sysClear
  split
  · exact sameMemory_upd _ _
  split
  · exact sameMemory_updDroop _ _ _
  repeat' split
  · exact sameMemory_upd _ _
  · exact sameMemory_upd _ _
  · exact sameMemory_upd _ _
  · exact fun _ _ => rfl

/-- A look at a bank-conflict counter changes counters of the core alone. -/
theorem State.readSnap_keeps (s : State) (k : Nat) :
    (s.readSnap k).2.core.fetch = s.core.fetch ∧ SameMemory s (s.readSnap k).2 := by
  unfold State.readSnap
  split
  · exact ⟨rfl, fun _ _ => rfl⟩
  split
  · exact ⟨by rw [State.core_upd]; rfl, (sameMemory_draw s).trans (sameMemory_upd _ _)⟩
  · exact ⟨rfl, fun _ _ => rfl⟩

theorem State.readBcm_keeps (s : State) (k : Nat) :
    (s.readBcm k).2.core.fetch = s.core.fetch ∧ SameMemory s (s.readBcm k).2 := by
  obtain ⟨hf, hm⟩ := s.readSnap_keeps k
  rw [State.readBcm]
  exact ⟨by rw [State.core_upd]; exact hf, (hm.trans (sameMemory_draw _)).trans (sameMemory_upd _ _)⟩

/-- A read of a register of R90's user column completes in every mode. -/
theorem srd_completes {s : State} {n : Nat} (d : Dest) (h : userReads n = true) :
    ∃ t, exec (.srd d (BitVec.ofNat 16 n)) s = .next t ∧ NextLane s t ∧ SameMemory s t := by
  have completes {u : State} (v : Word) (hf : u.core.fetch = s.core.fetch) (hm : SameMemory s u) :
      NextLane s (u.setDest d v).advance ∧ SameMemory s (u.setDest d v).advance :=
    ⟨nextLane_setDest_advance d v hf, hm.trans (sameMemory_setDest_advance u d v)⟩
  have hr : s.MayRead n := .inr h
  have hn : n < 0x200 ∨ (0x200 ≤ n ∧ n ≤ 0x2FF) ∨ (0x300 ≤ n ∧ n ≤ 0x3FF) := by
    rw [userReads_iff] at h
    omega
  obtain hn | ⟨hlo, hhi⟩ | ⟨hlo, hhi⟩ := hn
  · exact ⟨_, exec_srd_of_register hr hn, completes _ (s.sysClear_fetch n) (sameMemory_sysClear s n)⟩
  · obtain ⟨hf, hm⟩ := s.readBcm_keeps (n - 0x200)
    exact ⟨_, exec_srd_of_counter hr hlo hhi, completes _ hf hm⟩
  · obtain ⟨hf, hm⟩ := s.readSnap_keeps (n - 0x300)
    exact ⟨_, exec_srd_of_snapshot hr hlo hhi, completes _ hf hm⟩

/-- An update of the acting core that keeps its registers and its fetch state, and on to the next lane. -/
theorem advance_upd_keeps {s : State} {f : Core → Core} (hf : (f s.core).fetch = s.core.fetch)
    (hr : (f s.core).regs = s.core.regs) :
    NextLane s (s.upd f).advance ∧ SameRegs s (s.upd f).advance ∧ SameMemory s (s.upd f).advance :=
  ⟨nextLane_advance (by rw [State.core_upd, hf]), by rw [SameRegs, State.core_advance, State.core_upd, hr],
    (sameMemory_upd s f).trans (sameMemory_upd _ _)⟩

/-- A write of a pace register, or of a droop register of the cluster, completes in every mode. -/
theorem swr_completes {s : State} {n : Nat} (a : Opnd) (h : (0x100 ≤ n ∧ n ≤ 0x105) ∨ (0x140 ≤ n ∧ n ≤ 0x144)) :
    ∃ t, exec (.swr a (BitVec.ofNat 16 n)) s = .next t ∧ NextLane s t ∧ SameRegs s t ∧ SameMemory s t := by
  have hw : s.MayWrite n := .inr ((userWrites_iff n).mpr (.inr h))
  obtain ⟨hlo, hhi⟩ | hout := h
  · refine ⟨_, exec_swr_of_inside hw (by omega) (by interval_cases n <;> rfl), ?_⟩
    rw [sysWrite_pace s hlo hhi]
    exact advance_upd_keeps rfl rfl
  · have ho : outsideCore n = true := by
      simp only [outsideCore, Bool.or_eq_true, between_iff]
      omega
    exact ⟨_, exec_swr_of_outside hw (by omega) ho, advance_upd_keeps rfl rfl⟩

/-- Settles O26: by the mode alone where only a supervisor may, by R90's columns for the registers. -/
theorem userModeRaisesPriv : Obligations.UserModeRaisesPriv := by
  unfold Obligations.UserModeRaisesPriv
  intro d a b e v w n s r both reads neither hu
  refine ⟨fun ht => ⟨fun i hi => ?_, fun _ => trapsHere_of_privileged hu ht rfl,
    fun _ => trapsHere_of_privileged hu ht rfl, fun hn => ?_, fun hn => ?_⟩, fun hn => srd_completes d ?_,
    fun hn => swr_completes a hn⟩
  · simp only [List.mem_cons, List.not_mem_nil, or_false] at hi
    obtain rfl | rfl | rfl | rfl | rfl := hi <;> exact trapsHere_of_privileged hu ht rfl
  · refine trapsHere_of ht (by decide) (exec_srd_of_priv ?_ hu ?_)
    · omega
    · rw [← Bool.not_eq_true, userReads_iff]
      omega
  · refine trapsHere_of ht (by decide) (exec_swr_of_priv ?_ hu ?_)
    · omega
    · rw [← Bool.not_eq_true, userWrites_iff]
      omega
  · rw [userReads_iff]
    omega

end Sys2Proof.Machine
end

section
/-! SUPPORT. What an SRD pushes and clears, by R90's numbers (R90-R93, R216, R242, R352). -/
namespace Sys2Proof.Machine

-- Places of a block of registers.

theorem vget_block {α : Type} {n : Nat} (v : Vector α n) (b : Nat) (i : Fin n) (d : α) :
    vget v (b + i.val - b) d = v[i] := by
  rw [Nat.add_sub_cancel_left]
  exact vget_lt v i.val d i.isLt

theorem vset_block {α : Type} {n : Nat} (v : Vector α n) (b : Nat) (i : Fin n) (x : α) :
    vset v (b + i.val - b) x = v.set i x := by
  rw [Nat.add_sub_cancel_left, vset_fin]

section
variable (s : State) {n : Nat}

theorem sysRead_tq (hlo : 0x020 ≤ n) (hhi : n ≤ 0x02F) : s.sysRead n = vget s.core.trap.tq (n - 0x020) 0 := by
  interval_cases n <;> rfl
theorem sysRead_tmpc (hlo : 0x030 ≤ n) (hhi : n ≤ 0x035) : s.sysRead n = vget s.core.trap.tmpc (n - 0x030) 0 := by
  interval_cases n <;> rfl
theorem sysRead_nest (hlo : 0x038 ≤ n) (hhi : n ≤ 0x03D) :
    s.sysRead n = vget (if s.core.trap.inh then s.core.trap.nest else nestRegs s.core.me) (n - 0x038) 0 := by
  interval_cases n <;> rfl
theorem sysRead_tloop (hlo : 0x040 ≤ n) (hhi : n ≤ 0x043) : s.sysRead n = vget s.core.trap.tloop (n - 0x040) 0 := by
  interval_cases n <;> rfl
theorem sysRead_tlbody (hlo : 0x044 ≤ n) (hhi : n ≤ 0x047) : s.sysRead n = vget s.core.trap.tlbody (n - 0x044) 0 := by
  interval_cases n <;> rfl
theorem sysRead_pace (hlo : 0x100 ≤ n) (hhi : n ≤ 0x105) :
    s.sysRead n = (vget s.core.eng.paceWritten (n - 0x100) 0).setWidth 64 := by
  interval_cases n <;> rfl
theorem sysRead_phase (hlo : 0x110 ≤ n) (hhi : n ≤ 0x12F) :
    s.sysRead n = (vget s.power.phase (n - 0x110) 0).setWidth 64 := by
  interval_cases n <;> rfl
theorem sysRead_lrc (hlo : 0x161 ≤ n) (hhi : n ≤ 0x163) :
    s.sysRead n = (vget s.core.me.lrc (n - 0x161) 0).setWidth 64 := by
  interval_cases n <;> rfl
theorem sysRead_spcnt (hlo : 0x168 ≤ n) (hhi : n ≤ 0x16A) :
    s.sysRead n = (vget s.core.me.spcnt (n - 0x168) 0).setWidth 64 := by
  interval_cases n <;> rfl

theorem sysClear_lrc (hlo : 0x161 ≤ n) (hhi : n ≤ 0x163) :
    s.sysClear n = s.updMe fun m => { m with lrc := vset m.lrc (n - 0x161) 0 } := by
  interval_cases n <;> rfl
theorem sysClear_spcnt (hlo : 0x168 ≤ n) (hhi : n ≤ 0x16A) :
    s.sysClear n = s.updMe fun m => { m with spcnt := vset m.spcnt (n - 0x168) 0 } := by
  interval_cases n <;> rfl

/-- A read clears SBCNT, DRCNT, LRC, SPCONF and its neighbours, and HAZ: no other register (R352). -/
theorem sysClear_of_kept (h : n ≠ 0x003 ∧ n ≠ 0x143 ∧ ¬ (0x161 ≤ n ∧ n ≤ 0x163) ∧ ¬ (0x168 ≤ n ∧ n ≤ 0x16A) ∧ n ≠ 0x170) :
    s.sysClear n = s := by
  obtain ⟨hsb, hdr, hlrc, hsp, hhaz⟩ := h
  rw [← between_iff] at hlrc hsp
  rw [State.sysClear, if_neg hsb, if_neg hdr, if_neg hlrc, if_neg hsp, if_neg hhaz]
end

section
variable {s : State} {d : Dest} {n : Nat} {v : Word}

/-- A register that a read leaves as it is. -/
theorem reads_kept (hr : s.MayRead n) (hn : n < 0x200)
    (hc : n ≠ 0x003 ∧ n ≠ 0x143 ∧ ¬ (0x161 ≤ n ∧ n ≤ 0x163) ∧ ¬ (0x168 ≤ n ∧ n ≤ 0x16A) ∧ n ≠ 0x170)
    (hv : s.sysRead n = v) : Results (.srd d (BitVec.ofNat 16 n)) s d v :=
  (results_srd hr hn (sysClear_of_kept s hc)).congr hv

/-- A register of the core that a read clears. -/
theorem reads_clears {f : Core → Core} (hr : s.MayRead n) (hn : n < 0x200) (hc : s.sysClear n = s.upd f)
    (hv : s.sysRead n = v) (hf : (f s.core).fetch = s.core.fetch) (hg : (f s.core).regs = s.core.regs) :
    ∃ t, exec (.srd d (BitVec.ofNat 16 n)) s = .next t ∧ NextLane s t ∧ Delivers s t d v ∧ OnlyCore s t ∧
      { t.core with regs := s.core.regs, fetch := s.core.fetch } = f s.core := by
  have hcore : (s.upd f).core = f s.core := State.core_upd s f
  refine ⟨_, exec_srd_of_register hr hn, ?_, ?_, ?_, ?_⟩ <;> rw [hc, hv]
  · exact nextLane_setDest_advance d v (by rw [hcore, hf])
  · exact delivers_of_regs (by rw [State.core_advance, State.core_setDest, hcore, hg])
  · exact ((onlyCore_upd s f).trans (onlyCore_setDest _ d v)).trans (onlyCore_advance _)
  · rw [State.core_advance, State.core_setDest, hcore, ← hf, ← hg]
end

theorem modeReg_eq (c : Core) : c.modeReg = BitVec.ofNat 64 ((if c.regs.sup then 2 ^ 4 else 0) +
    4 * c.fetch.lmode.toNat + if c.regs.sbtrap then 2 ^ 0 else 0) := by
  rw [Core.modeReg, Nat.mul_comm c.fetch.lmode.toNat 4]
  rfl

theorem stat_eq (t : TrapRegs) : t.stat = BitVec.ofNat 64 ((if t.inh then 2 ^ 7 else 0) + (if t.abort then 2 ^ 6 else 0) +
    8 * t.eng.num + (if t.frz then 2 ^ 2 else 0) + if t.psup then 2 ^ 1 else 0) := by
  rw [TrapRegs.stat, Nat.mul_comm t.eng.num 8]
  rfl

theorem nestRegs_get (m : Matrix) (i : Fin 6) :
    (nestRegs m)[i] = BitVec.ofNat 64 ((m.act[i]).count.toNat * 65536 + (m.idx[i]).toNat) := by
  rw [nestRegs]
  refine (vgen_get 6 _ i.val i.isLt).trans ?_
  rw [vget_lt _ _ _ i.isLt, vget_lt _ _ _ i.isLt]
  rfl

/-- The cluster's droop count clears at its read, and no other power state changes (R352). -/
theorem reads_drcnt (d : Dest) (s : State) :
    let dr := vget s.power.droop (s.cur.val / 4) Droop.reset
    ∃ t, exec (.srd d 0x143) s = .next t ∧ NextLane s t ∧ Delivers s t d (dr.cnt.setWidth 64) ∧
      OnlyRegs { s with power := t.power } t ∧ { t.power with droop := s.power.droop } = s.power ∧
      ∀ j : Fin 32, t.power.droop[j] = if j.val = s.cur.val / 4 then { dr with cnt := 0 } else s.power.droop[j] := by
  intro dr
  have hcore : (s.updDroop s.cluster fun x => { x with cnt := 0 }).core = s.core := rfl
  have hk : s.cur.val / 4 < 32 := by omega
  refine ⟨((s.updDroop s.cluster fun x => { x with cnt := 0 }).setDest d (dr.cnt.setWidth 64)).advance,
    exec_srd_of_register (.inr rfl) (by decide), nextLane_setDest_advance d _ rfl, delivers_of_regs ?_,
    ⟨(onlyCore_setDest _ d _).trans (onlyCore_advance _), ?_⟩, rfl, fun j => ?_⟩
  · rw [State.core_advance, State.core_setDest, hcore]
  · rw [State.core_advance, State.core_setDest]
    rfl
  · refine (vset_get s.power.droop ⟨s.cur.val / 4, hk⟩ j _).trans ?_
    simp only [Fin.ext_iff]
    rfl

-- The bank-conflict counters (R256).

/-- What the counter of a requester and a bank holds. -/
def Core.bankCount (c : Core) (k : Nat) : BitVec 32 := (smapGet c.bcm k).getD 0

/-- u is s after a look at counter k: it has not fallen, and with a requester 7 it stands; nothing but the counters and
their copies has changed. -/
def LookedAt (s u : State) (k : Nat) : Prop :=
  OnlyCore { s with fresh := u.fresh } u ∧
    { u.core with bcm := s.core.bcm, bcmSnap := s.core.bcmSnap, bcmFixed := s.core.bcmFixed } = s.core ∧
    (s.core.bankCount k).toNat ≤ (u.core.bankCount k).toNat ∧ (224 ≤ k → u.core.bankCount k = s.core.bankCount k)

theorem lookedAt_refl (s : State) (k : Nat) : LookedAt s s k := ⟨⟨rfl, fun _ _ => rfl⟩, rfl, le_rfl, fun _ => rfl⟩

theorem LookedAt.trans {s u w : State} {k : Nat} (h : LookedAt s u k) (g : LookedAt u w k) : LookedAt s w k := by
  obtain ⟨ho, hc, hle, heq⟩ := h
  obtain ⟨ho', hc', hle', heq'⟩ := g
  refine ⟨⟨?_, fun i hi => ?_⟩, ?_, hle.trans hle', fun hk => (heq' hk).trans (heq hk)⟩
  · exact (congrArg (fun x : State => { x with cores := s.cores }) ho'.1).trans
      (congrArg (fun x : State => { x with fresh := w.fresh }) ho.1)
  · have hcur : u.cur = s.cur := ho.cur_eq
    exact (ho'.2 i (by rw [hcur]; exact hi)).trans (ho.2 i hi)
  · rw [← hc, ← hc']

theorem bcmNow_ge (c : Core) (k n : Nat) : (c.bankCount k).toNat ≤ (c.bcmNow k n).toNat := by
  rw [Core.bcmNow, satAdd32_toNat, Core.bankCount]
  omega

theorem bcmNow_debugger (c : Core) {k : Nat} (n : Nat) (h : 224 ≤ k) : c.bcmNow k n = c.bankCount k := by
  apply BitVec.eq_of_toNat_eq
  rw [Core.bcmNow, satAdd32_toNat, if_pos (by simp [h]), Core.bankCount]
  omega

/-- A look that stores what the counter holds now. -/
theorem lookedAt_upd (s : State) {k n : Nat} {f : Core → Core}
    (hf : { f s.core with bcm := s.core.bcm, bcmSnap := s.core.bcmSnap, bcmFixed := s.core.bcmFixed } = s.core)
    (hb : (f s.core).bcm = smapPut s.core.bcm k (s.core.bcmNow k n)) : LookedAt s (s.draw.upd f) k := by
  have hcore : (s.draw.upd f).core = f s.core := State.core_upd _ f
  have hnow : (s.draw.upd f).core.bankCount k = s.core.bcmNow k n := by
    rw [hcore, Core.bankCount, hb, smapGet_put, if_pos rfl, Option.getD_some]
  refine ⟨onlyCore_upd s.draw f, by rw [hcore]; exact hf, ?_, fun hk => ?_⟩
  · rw [hnow]
    exact bcmNow_ge s.core k n
  · rw [hnow, bcmNow_debugger s.core n hk]

theorem lookedAt_readSnap (s : State) (k : Nat) : LookedAt s (s.readSnap k).2 k := by
  unfold State.readSnap
  split
  · exact lookedAt_refl s k
  split
  · exact lookedAt_upd s rfl rfl
  · exact lookedAt_refl s k

/-- A look at a counter pushes and keeps what it finds. -/
theorem readBcm_spec (s : State) (k : Nat) : ∃ v : BitVec 32, (s.readBcm k).1 = v.setWidth 64 ∧
    LookedAt s (s.readBcm k).2 k ∧ smapGet (s.readBcm k).2.core.bcm k = some v := by
  refine ⟨(s.readSnap k).2.core.bcmNow k (Config.bankWait (s.readSnap k).2.fresh), rfl,
    (lookedAt_readSnap s k).trans (lookedAt_upd _ rfl rfl), ?_⟩
  rw [State.readBcm, State.core_upd]
  exact (smapGet_put ..).trans (if_pos rfl)

/-- SRD of a bank-conflict counter (R256). -/
theorem reads_counter (d : Dest) (s : State) (j : Fin 256) :
    ∃ t, ∃ v : BitVec 32, exec (.srd d (BitVec.ofNat 16 (0x200 + j.val))) s = .next t ∧ NextLane s t ∧
      Delivers s t d (v.setWidth 64) ∧ OnlyCore { s with fresh := t.fresh } t ∧
      ((smapGet s.core.bcm j.val).getD 0).toNat ≤ v.toNat ∧ (224 ≤ j.val → v = (smapGet s.core.bcm j.val).getD 0) ∧
      smapGet t.core.bcm j.val = some v ∧
      { t.core with regs := s.core.regs, fetch := s.core.fetch, bcm := s.core.bcm, bcmSnap := s.core.bcmSnap,
                    bcmFixed := s.core.bcmFixed } = s.core := by
  obtain ⟨v, hv, ⟨hout, hkept, hle, heq⟩, hput⟩ := readBcm_spec s j.val
  have hr : s.MayRead (0x200 + j.val) := .inr ((userReads_iff _).mpr (by omega))
  have hnow : (s.readBcm j.val).2.core.bankCount j.val = v := by rw [Core.bankCount, hput, Option.getD_some]
  have hexec := exec_srd_of_counter (d := d) hr (by omega) (by omega)
  rw [Nat.add_sub_cancel_left, hv] at hexec
  rw [hnow] at hle heq
  have hfetch : (s.readBcm j.val).2.core.fetch = s.core.fetch := (s.readBcm_keeps j.val).1
  have hregs : (s.readBcm j.val).2.core.regs = s.core.regs := (congrArg Core.regs hkept :)
  refine ⟨_, v, hexec, nextLane_setDest_advance d _ hfetch, delivers_of_regs ?_,
    (hout.trans (onlyCore_setDest _ d _)).trans (onlyCore_advance _), hle, heq, ?_, ?_⟩
  · rw [State.core_advance, State.core_setDest, hregs]
  · rw [State.core_advance, State.core_setDest]
    exact hput
  · rw [State.core_advance, State.core_setDest]
    exact (congrArg (fun c : Core => { c with regs := s.core.regs, fetch := s.core.fetch }) hkept :)

end Sys2Proof.Machine
end

section
/-! SUPPORT. SRD of every register, in the groups of R90. -/
namespace Sys2Proof.Machine

/-- The registers of the core that hold no part of an engine (R91, R216, R394). -/
theorem srd_core_registers (d : Dest) (s : State) :
    let c := s.core
    let t := c.trap
    let bit (b : Bool) (k : Nat) : Nat := if b then 2 ^ k else 0
    let reads (r : Nat) (v : Word) : Prop := Results (.srd d (BitVec.ofNat 16 r)) s d v
    (reads 0x001 (BitVec.ofNat 64 (bit c.regs.sup 4 + 4 * c.fetch.lmode.toNat + bit c.regs.sbtrap 0))) ∧
    (∀ i : Fin 6, reads (0x100 + i.val) ((c.eng.paceWritten[i]).setWidth 64)) ∧
    reads 0x160 c.me.monstat ∧
    (c.regs.sup = true →
      reads 0x010 t.tvb ∧ reads 0x011 t.tcode ∧ reads 0x012 t.tinfo ∧ reads 0x013 t.tpc ∧
      reads 0x014 (BitVec.ofNat 64 (bit t.inh 7 + bit t.abort 6 + 8 * t.eng.num + bit t.frz 2 + bit t.psup 1)) ∧
      reads 0x050 0 ∧ reads 0x051 0 ∧
      (∀ i : Fin 16, reads (0x020 + i.val) t.tq[i]) ∧
      (∀ i : Fin 6, reads (0x030 + i.val) t.tmpc[i]) ∧
      (∀ i : Fin 4, reads (0x040 + i.val) t.tloop[i] ∧ reads (0x044 + i.val) t.tlbody[i])) := by
  intro c t bit reads
  refine ⟨reads_kept (.inr rfl) (by decide) (by decide) (modeReg_eq c), fun i => ?_,
    reads_kept (.inr rfl) (by decide) (by decide) rfl, fun hs => ⟨?_, ?_, ?_, ?_, ?_, ?_, ?_, fun i => ?_, fun i => ?_,
      fun i => ⟨?_, ?_⟩⟩⟩
  · refine reads_kept (.inr ((userReads_iff _).mpr (by omega))) (by omega) (by omega) ?_
    rw [sysRead_pace s (by omega) (by omega), vget_block]
  · exact reads_kept (.inl hs) (by decide) (by decide) rfl
  · exact reads_kept (.inl hs) (by decide) (by decide) rfl
  · exact reads_kept (.inl hs) (by decide) (by decide) rfl
  · exact reads_kept (.inl hs) (by decide) (by decide) rfl
  · exact reads_kept (.inl hs) (by decide) (by decide) (stat_eq t)
  · exact reads_kept (.inl hs) (by decide) (by decide) rfl
  · exact reads_kept (.inl hs) (by decide) (by decide) rfl
  · refine reads_kept (.inl hs) (by omega) (by omega) ?_
    rw [sysRead_tq s (by omega) (by omega), vget_block]
  · refine reads_kept (.inl hs) (by omega) (by omega) ?_
    rw [sysRead_tmpc s (by omega) (by omega), vget_block]
  · refine reads_kept (.inl hs) (by omega) (by omega) ?_
    rw [sysRead_tloop s (by omega) (by omega), vget_block]
  · refine reads_kept (.inl hs) (by omega) (by omega) ?_
    rw [sysRead_tlbody s (by omega) (by omega), vget_block]

/-- The nest registers: those of the trap in a handler, those of the matrix engine outside one (R216). -/
theorem srd_nest {s : State} (d : Dest) (i : Fin 6) (hs : s.core.regs.sup = true) :
    Results (.srd d (BitVec.ofNat 16 (0x038 + i.val))) s d (if s.core.trap.inh then s.core.trap.nest[i]
      else BitVec.ofNat 64 ((s.core.me.act[i]).count.toNat * 65536 + (s.core.me.idx[i]).toNat)) := by
  refine reads_kept (.inl hs) (by omega) (by omega) ?_
  rw [sysRead_nest s (by omega) (by omega), vget_block, ← nestRegs_get]
  split <;> rfl

/-- LRC, SPCONF and its neighbours (R169, R209). -/
theorem srd_matrix_counters (d : Dest) (s : State) (i : Fin 3) :
    (∃ t, exec (.srd d (BitVec.ofNat 16 (0x161 + i.val))) s = .next t ∧ NextLane s t ∧
      Delivers s t d ((s.core.me.lrc[i]).setWidth 64) ∧ OnlyCore s t ∧
      { t.core with regs := s.core.regs, fetch := s.core.fetch } =
        { s.core with me := { s.core.me with lrc := s.core.me.lrc.set i 0 } }) ∧
    (∃ t, exec (.srd d (BitVec.ofNat 16 (0x168 + i.val))) s = .next t ∧ NextLane s t ∧
      Delivers s t d ((s.core.me.spcnt[i]).setWidth 64) ∧ OnlyCore s t ∧
      { t.core with regs := s.core.regs, fetch := s.core.fetch } =
        { s.core with me := { s.core.me with spcnt := s.core.me.spcnt.set i 0 } }) := by
  constructor
  · refine reads_clears (f := fun c => { c with me := { c.me with lrc := c.me.lrc.set i 0 } })
      (.inr ((userReads_iff _).mpr (by omega))) (by omega) ?_ ?_ rfl rfl
    · rw [sysClear_lrc s (by omega) (by omega)]
      simp only [vset_block]
      rfl
    · rw [sysRead_lrc s (by omega) (by omega), vget_block]
  · refine reads_clears (f := fun c => { c with me := { c.me with spcnt := c.me.spcnt.set i 0 } })
      (.inr ((userReads_iff _).mpr (by omega))) (by omega) ?_ ?_ rfl rfl
    · rw [sysClear_spcnt s (by omega) (by omega)]
      simp only [vset_block]
      rfl
    · rw [sysRead_spcnt s (by omega) (by omega), vget_block]

theorem srd_haz (d : Dest) (s : State) :
    ∃ t, exec (.srd d (BitVec.ofNat 16 0x170)) s = .next t ∧ NextLane s t ∧
      Delivers s t d (BitVec.ofNat 64 (s.core.cpy.hazSpace.toNat * 2 ^ 32 + s.core.cpy.hazCount.toNat)) ∧
      OnlyCore s t ∧ { t.core with regs := s.core.regs, fetch := s.core.fetch } =
        { s.core with cpy := { s.core.cpy with hazCount := 0 } } :=
  reads_clears (f := fun c => { c with cpy := { c.cpy with hazCount := 0 } }) (.inr rfl) (by decide) rfl rfl rfl rfl

end Sys2Proof.Machine
end

section
/-! SUPPORT. What an SWR writes, by R90's numbers, and when one to a register outside the core lands (R91, R216, R231,
R235, R240, R243, R274, R353, R394). -/
namespace Sys2Proof.Machine

section
variable (s : State) {n : Nat} (v : Word)

theorem sysWrite_mode : s.sysWrite 0x001 v = s.updRegs fun r => { r with sbtrap := v.getLsbD 0 } := rfl
theorem sysWrite_tvb : s.sysWrite 0x010 v = s.updTrap fun t => { t with tvb := BitVec.ofNat 64 (v.toNat / 32 * 32) } :=
  rfl
theorem sysWrite_tpc : s.sysWrite 0x013 v = s.updTrap fun t => { t with tpc := BitVec.ofNat 64 (v.toNat / 4 * 4) } := rfl
theorem sysWrite_tstat : s.sysWrite 0x014 v = s.updTrap fun t => { t with abort := v.getLsbD 6 } := rfl
theorem sysWrite_tq (hlo : 0x020 ≤ n) (hhi : n ≤ 0x02F) :
    s.sysWrite n v = s.updTrap fun t => { t with tq := vset t.tq (n - 0x020) v } := by
  interval_cases n <;> rfl
theorem sysWrite_tloop (hlo : 0x040 ≤ n) (hhi : n ≤ 0x043) :
    s.sysWrite n v = s.updTrap fun t => { t with tloop := vset t.tloop (n - 0x040) v } := by
  interval_cases n <;> rfl
theorem sysWrite_tlbody (hlo : 0x044 ≤ n) (hhi : n ≤ 0x047) :
    s.sysWrite n v = s.updTrap fun t => { t with tlbody := vset t.tlbody (n - 0x044) v } := by
  interval_cases n <;> rfl
theorem sysWrite_phase (hlo : 0x110 ≤ n) (hhi : n ≤ 0x12F) :
    s.sysWrite n v = s.updPower fun p => { p with phase := vset p.phase (n - 0x110) (BitVec.ofNat 5 v.toNat) } := by
  interval_cases n <;> rfl
end

section
variable {s : State} {a : Opnd} {n : Nat} {c : Core}

/-- A write into the core takes effect at once. -/
theorem writes_inside {f : Core → Core} (hw : s.MayWrite n) (hn : n < 2 ^ 16) (ho : outsideCore n = false)
    (hs : s.sysWrite n (s.operand a) = s.upd f) (hf : (f s.core).fetch = s.core.fetch) (hc : f s.core = c) :
    ∃ t, exec (.swr a (BitVec.ofNat 16 n)) s = .next t ∧ NextLane s t ∧ OnlyCore s t ∧
      { t.core with fetch := s.core.fetch } = c := by
  have hcore : (s.upd f).core = f s.core := State.core_upd s f
  refine ⟨_, exec_swr_of_inside hw hn ho, ?_, ?_, ?_⟩ <;> rw [hs]
  · exact nextLane_advance (by rw [hcore, hf])
  · exact (onlyCore_upd s f).trans (onlyCore_advance _)
  · rw [State.core_advance, hcore, ← hc, ← hf]

/-- A read-only register ignores it. -/
theorem writes_nothing (hw : s.MayWrite n) (hn : n < 2 ^ 16) (ho : outsideCore n = false)
    (hs : s.sysWrite n (s.operand a) = s) :
    ∃ t, exec (.swr a (BitVec.ofNat 16 n)) s = .next t ∧ NextLane s t ∧ OnlyCore s t ∧
      { t.core with fetch := s.core.fetch } = s.core :=
  writes_inside (f := fun c => c) hw hn ho (hs.trans s.upd_id.symm) rfl rfl

/-- A write to a register outside the core goes on its way (R353). -/
theorem writes_outside (hw : s.MayWrite n) (hn : n < 2 ^ 16) (ho : outsideCore n = true) :
    ∃ t, exec (.swr a (BitVec.ofNat 16 n)) s = .next t ∧ NextLane s t ∧ OnlyCore s t ∧
      { t.core with fetch := s.core.fetch } = { s.core with
        outWrites := s.core.outWrites ++ [{ reg := n, value := s.operand a, by_ := s.core.cycles + 60 }] } := by
  refine ⟨_, exec_swr_of_outside hw hn ho, ?_, (onlyCore_upd s _).trans (onlyCore_advance _), ?_⟩
  · exact nextLane_advance (by rw [State.sendWrite, State.core_upd])
  · rw [State.core_advance, State.sendWrite, State.core_upd]
end

theorem outsideCore_iff (n : Nat) : outsideCore n = true ↔ (0x110 ≤ n ∧ n ≤ 0x132) ∨ (0x140 ≤ n ∧ n ≤ 0x144) ∨
    (0x151 ≤ n ∧ n ≤ 0x152) ∨ (0x178 ≤ n ∧ n ≤ 0x179) := by
  simp only [outsideCore, Bool.or_eq_true, between_iff, or_assoc]

theorem outsideCore_of_low {n : Nat} (h : n < 0x110) : outsideCore n = false := by
  rw [← Bool.not_eq_true, outsideCore_iff]
  omega

/-- SWR, by the register that it names. -/
theorem swr_registers (a : Opnd) (s : State) :
    let v := s.operand a
    let r := s.core.trap
    let writes (n : Nat) (c : Core) : Prop :=
      ∃ t, exec (.swr a (BitVec.ofNat 16 n)) s = .next t ∧ NextLane s t ∧ OnlyCore s t ∧
        { t.core with fetch := s.core.fetch } = c
    let trap (x : TrapRegs) : Core := { s.core with trap := x }
    (∀ i : Fin 6, writes (0x100 + i.val)
      { s.core with eng := { s.core.eng with paceWritten := s.core.eng.paceWritten.set i (v.setWidth 8) } }) ∧
    (s.core.regs.sup = true →
      writes 0x001 { s.core with regs := { s.core.regs with sbtrap := v.getLsbD 0 } } ∧
      writes 0x010 (trap { r with tvb := BitVec.ofNat 64 (v.toNat / 32 * 32) }) ∧
      writes 0x013 (trap { r with tpc := BitVec.ofNat 64 (v.toNat / 4 * 4) }) ∧
      writes 0x014 (trap { r with abort := v.getLsbD 6 }) ∧
      (∀ i : Fin 16, writes (0x020 + i.val) (trap { r with tq := r.tq.set i v })) ∧
      (∀ i : Fin 4, writes (0x040 + i.val) (trap { r with tloop := r.tloop.set i v }) ∧
        writes (0x044 + i.val) (trap { r with tlbody := r.tlbody.set i v })) ∧
      (∀ n ∈ [0x000, 0x002, 0x003, 0x011, 0x012, 0x030, 0x038, 0x150, 0x160, 0x161, 0x168, 0x170, 0x171, 0x172],
        writes n s.core) ∧
      (∀ n, (0x110 ≤ n ∧ n ≤ 0x12F) ∨ n ∈ [0x130, 0x131, 0x132, 0x140, 0x141, 0x142, 0x143, 0x144, 0x151, 0x152, 0x178, 0x179] →
        writes n { s.core with outWrites := s.core.outWrites ++ [{ reg := n, value := v, by_ := s.core.cycles + 60 }] })) := by
  intro v r writes trap
  refine ⟨fun i => ?_, fun hs => ⟨?_, ?_, ?_, ?_, fun i => ?_, fun i => ⟨?_, ?_⟩, fun n hn => ?_, fun n hn => ?_⟩⟩
  · refine writes_inside (.inr ((userWrites_iff _).mpr (by omega))) (by omega) (outsideCore_of_low (by omega))
      (sysWrite_pace s (by omega) (by omega) v) rfl ?_
    dsimp only
    rw [vset_block, BitVec.ofNat_toNat]
  · exact writes_inside (.inl hs) (by decide) rfl (sysWrite_mode s v) rfl rfl
  · exact writes_inside (.inl hs) (by decide) rfl (sysWrite_tvb s v) rfl rfl
  · exact writes_inside (.inl hs) (by decide) rfl (sysWrite_tpc s v) rfl rfl
  · exact writes_inside (.inl hs) (by decide) rfl (sysWrite_tstat s v) rfl rfl
  · refine writes_inside (.inl hs) (by omega) (outsideCore_of_low (by omega))
      (sysWrite_tq s v (by omega) (by omega)) rfl ?_
    dsimp only
    rw [vset_block]
  · refine writes_inside (.inl hs) (by omega) (outsideCore_of_low (by omega))
      (sysWrite_tloop s v (by omega) (by omega)) rfl ?_
    dsimp only
    rw [vset_block]
  · refine writes_inside (.inl hs) (by omega) (outsideCore_of_low (by omega))
      (sysWrite_tlbody s v (by omega) (by omega)) rfl ?_
    dsimp only
    rw [vset_block]
  · fin_cases hn <;> exact writes_nothing (.inl hs) (by decide) rfl rfl
  · have ho : outsideCore n = true := by
      rw [outsideCore_iff]
      simp only [List.mem_cons, List.not_mem_nil, or_false] at hn
      omega
    have hlow : n < 2 ^ 16 := by
      rw [outsideCore_iff] at ho
      omega
    exact writes_outside (.inl hs) hlow ho

end Sys2Proof.Machine
end

section
/-! SUPPORT. Writes to registers outside the core land in program order (R353). -/
namespace Sys2Proof.Machine

/-- A write of v to register n makes q of the power state of s, and changes nothing else. -/
def LandsAs (s : State) (n : Nat) (v : Word) (q : Power) : Prop :=
  ∀ u : State, u.cur = s.cur → u.power = s.power → u.sysWrite n v = { u with power := q }

section
variable {s : State} {n : Nat} {v : Word}

theorem landsAs_upd {f : Power → Power} {q : Power} (h : ∀ u : State, u.sysWrite n v = u.updPower f)
    (hq : f s.power = q) : LandsAs s n v q := fun u _ hp => by
  rw [h, State.updPower, hp, hq]

/-- A write outside the register's range is ignored (R235). -/
theorem landsAs_if {P : Power → Prop} [DecidablePred P] {f : Power → Power}
    (h : ∀ u : State, u.sysWrite n v = if P u.power then u.updPower f else u) :
    LandsAs s n v (if P s.power then f s.power else s.power) := fun u _ hp => by
  rw [h, hp]
  split
  · rw [State.updPower, hp]
  · rw [← hp]

theorem landsAs_nothing (h : ∀ u : State, u.sysWrite n v = u) : LandsAs s n v s.power := fun u _ hp => by
  rw [h, ← hp]

/-- A write of a droop register goes to the cluster of its core. -/
theorem landsAs_droop {f : Droop → Droop} (h : ∀ u : State, u.sysWrite n v = u.updDroop u.cluster f) :
    let k := s.cur.val / 4
    LandsAs s n v { s.power with droop := vset s.power.droop k (f (vget s.power.droop k Droop.reset)) } := fun u hc hp => by
  rw [h, State.updDroop, State.cluster, hc, hp]

/-- The first write on its way whose time has come takes effect. -/
theorem LandsAs.lands {by_ : Nat} {ws : List OutWrite} {q : Power} (h : LandsAs s n v q)
    (ho : s.core.outWrites = { reg := n, value := v, by_ } :: ws) (hb : by_ ≤ s.core.cycles) :
    (s.landWrites 1).power = q ∧ (s.landWrites 1).core = { s.core with outWrites := ws } ∧
      { s.landWrites 1 with cores := s.cores, power := s.power, fresh := s.fresh } = s ∧
      ∀ j : Fin 128, j ≠ s.cur → (s.landWrites 1).cores[j] = s.cores[j] := by
  have hland : s.landWrites 1 = { s.draw.upd fun c => { c with outWrites := ws } with power := q } := by
    rw [State.landWrites, ho]
    dsimp only
    rw [if_pos (by simp [hb]), State.landWrites, h (s.draw.upd fun c => { c with outWrites := ws }) rfl rfl]
  rw [hland]
  exact ⟨rfl, State.core_upd s.draw fun c => { c with outWrites := ws }, rfl,
    State.other_core s.draw fun c => { c with outWrites := ws }⟩

theorem sysWrite_drth (u : State) (v : Word) : u.sysWrite 0x140 v =
    if (v.setWidth 6).toNat % 2 = 0 ∧ 4 ≤ (v.setWidth 6).toNat ∧ (v.setWidth 6).toNat ≤ 60 then
      u.updDroop u.cluster fun d => { d with thresh := v.setWidth 6 } else u := by
  rw [← BitVec.ofNat_toNat]
  rfl

theorem sysWrite_drstr (u : State) (v : Word) :
    u.sysWrite 0x141 v = u.updDroop u.cluster fun d => { d with str := v.setWidth 4 } := by
  rw [← BitVec.ofNat_toNat]
  rfl

theorem sysWrite_drhalf (u : State) (v : Word) :
    u.sysWrite 0x142 v = u.updDroop u.cluster fun d => { d with half := v.setWidth 10 } := by
  rw [← BitVec.ofNat_toNat]
  rfl

theorem sysWrite_drtest (u : State) (v : Word) :
    u.sysWrite 0x144 v = u.updDroop u.cluster fun d => { d with arm := v.getLsbD 0 } := rfl

theorem sysWrite_slew (u : State) (v : Word) : u.sysWrite 0x130 v =
    if 50 ≤ (v.setWidth 11).toNat ∧ (v.setWidth 11).toNat ≤ 2000 then u.updPower fun p => { p with slew := v.setWidth 11 } else u := by
  rw [← BitVec.ofNat_toNat]
  rfl

theorem sysWrite_splim (u : State) (v : Word) : u.sysWrite 0x151 v =
    if 0x2000 ≤ (v.setWidth 16).toNat then u.updPower fun p => { p with splim := v.setWidth 16 } else u := by
  rw [← BitVec.ofNat_toNat]
  rfl

theorem sysWrite_refrz (u : State) (v : Word) : u.sysWrite 0x152 v =
    if v.setWidth 16 ≠ 0 then u.updPower fun p => { p with refrz := v.setWidth 16 } else u := by
  rw [← BitVec.ofNat_toNat]
  rfl

theorem sysWrite_slkhi (u : State) (v : Word) : u.sysWrite 0x178 v =
    if u.power.slklo.toNat < (v.setWidth 32).toNat then u.updPower fun p => { p with slkhi := v.setWidth 32 } else u := by
  rw [← BitVec.ofNat_toNat]
  rfl

theorem sysWrite_slklo (u : State) (v : Word) : u.sysWrite 0x179 v =
    if (v.setWidth 32).toNat < u.power.slkhi.toNat then u.updPower fun p => { p with slklo := v.setWidth 32 } else u := by
  rw [← BitVec.ofNat_toNat]
  rfl

theorem landsAs_phase (i : Fin 32) :
    LandsAs s (0x110 + i.val) v { s.power with phase := s.power.phase.set i (v.setWidth 5) } := by
  refine landsAs_upd (fun u => sysWrite_phase u v (by omega) (by omega)) ?_
  rw [vset_block, BitVec.ofNat_toNat]

theorem landsAs_podstep :
    LandsAs s 0x132 v { s.power with podSlot := v.extractLsb' 16 6, podStep := v.setWidth 12 } := by
  refine landsAs_upd (f := fun p =>
    { p with podSlot := BitVec.ofNat 6 (v.toNat / 2 ^ 16), podStep := BitVec.ofNat 12 v.toNat }) (fun _ => rfl) ?_
  rw [BitVec.ofNat_toNat, BitVec.extractLsb', Nat.shiftRight_eq_div_pow]

theorem landsAs_slew : LandsAs s 0x130 v
    (if 50 ≤ (v.setWidth 11).toNat ∧ (v.setWidth 11).toNat ≤ 2000 then { s.power with slew := v.setWidth 11 } else s.power) :=
  landsAs_if (P := fun _ => 50 ≤ (v.setWidth 11).toNat ∧ (v.setWidth 11).toNat ≤ 2000) (f := fun p => { p with slew := v.setWidth 11 })
    fun u => sysWrite_slew u v

theorem landsAs_splim : LandsAs s 0x151 v
    (if 0x2000 ≤ (v.setWidth 16).toNat then { s.power with splim := v.setWidth 16 } else s.power) :=
  landsAs_if (P := fun _ => 0x2000 ≤ (v.setWidth 16).toNat) (f := fun p => { p with splim := v.setWidth 16 })
    fun u => sysWrite_splim u v

theorem landsAs_refrz : LandsAs s 0x152 v
    (if v.setWidth 16 ≠ 0 then { s.power with refrz := v.setWidth 16 } else s.power) :=
  landsAs_if (P := fun _ => v.setWidth 16 ≠ 0) (f := fun p => { p with refrz := v.setWidth 16 })
    fun u => sysWrite_refrz u v

theorem landsAs_slkhi : LandsAs s 0x178 v
    (if s.power.slklo.toNat < (v.setWidth 32).toNat then { s.power with slkhi := v.setWidth 32 } else s.power) :=
  landsAs_if (P := fun p => p.slklo.toNat < (v.setWidth 32).toNat) (f := fun p => { p with slkhi := v.setWidth 32 })
    fun u => sysWrite_slkhi u v

theorem landsAs_slklo : LandsAs s 0x179 v
    (if (v.setWidth 32).toNat < s.power.slkhi.toNat then { s.power with slklo := v.setWidth 32 } else s.power) :=
  landsAs_if (P := fun p => (v.setWidth 32).toNat < p.slkhi.toNat) (f := fun p => { p with slklo := v.setWidth 32 })
    fun u => sysWrite_slklo u v

end

theorem boolWord_bit (b : Bool) : boolWord b = BitVec.ofNat 64 (if b then 2 ^ 0 else 0) := by cases b <;> rfl

/-- Settles O28: reads by R90's groups, writes by where the register stands, landings by the power state that each
makes. -/
theorem systemRegistersReadAndWrite : Obligations.SystemRegistersReadAndWrite := by
  unfold Obligations.SystemRegistersReadAndWrite
  refine ⟨srd_core_registers, ?_, swr_registers, ?_⟩
  · intro d s c p k dr bit reads clears lease
    have kept {n : Nat} {v : Word} (hu : userReads n = true) (hn : n < 0x200)
        (hc : n ≠ 0x003 ∧ n ≠ 0x143 ∧ ¬ (0x161 ≤ n ∧ n ≤ 0x163) ∧ ¬ (0x168 ≤ n ∧ n ≤ 0x16A) ∧ n ≠ 0x170)
        (hv : s.sysRead n = v) : reads n v := reads_kept (.inr hu) hn hc hv
    refine ⟨kept rfl (by decide) (by decide) rfl, kept rfl (by decide) (by decide) rfl, fun i => ?_,
      kept rfl (by decide) (by decide) rfl, kept rfl (by decide) (by decide) rfl, kept rfl (by decide) (by decide) rfl,
      kept rfl (by decide) (by decide) rfl, kept rfl (by decide) (by decide) rfl, kept rfl (by decide) (by decide) rfl,
      kept rfl (by decide) (by decide) (boolWord_bit dr.arm), kept rfl (by decide) (by decide) rfl, kept rfl (by decide) (by decide) rfl,
      kept rfl (by decide) (by decide) rfl, kept rfl (by decide) (by decide) rfl, kept rfl (by decide) (by decide) rfl,
      kept rfl (by decide) (by decide) rfl, fun i hs => srd_nest d i hs, fun i => srd_matrix_counters d s i,
      srd_haz d s, reads_drcnt d s, fun j => reads_counter d s j⟩
    refine kept ((userReads_iff _).mpr (by omega)) (by omega) (by omega) ?_
    rw [sysRead_phase s (by omega) (by omega), vget_block]
  · intro v by_ ws s p k dr lands droops slew thresh limit ticks
    have of {n : Nat} {q : Power} (h : LandsAs s n v q) : lands n q := fun ho hb => h.lands ho hb
    refine ⟨fun i => of (landsAs_phase i), of landsAs_slew, of (landsAs_nothing fun _ => rfl), of landsAs_podstep,
      fun ht => of (landsAs_droop fun u => (sysWrite_drth u v).trans (if_pos ht)),
      fun ht => of (landsAs_nothing fun u => (sysWrite_drth u v).trans (if_neg ht)),
      of (landsAs_droop fun u => sysWrite_drstr u v), of (landsAs_droop fun u => sysWrite_drhalf u v),
      of (landsAs_nothing fun _ => rfl), of (landsAs_droop fun u => sysWrite_drtest u v), of landsAs_splim, of landsAs_refrz,
      of landsAs_slkhi, of landsAs_slklo⟩

end Sys2Proof.Machine
end

section
/-! SUPPORT. The token moves of TKPUSH and TKPOP, one engine after the other (R93). -/
namespace Sys2Proof.Machine

theorem Engines.tok_setTok (g : Engines) (i j x y : Eng) (n : Nat) :
    (g.setTok i j n).tok x y = if x = i ∧ y = j then n else g.tok x y := by
  have := Eng.num_lt i; have := Eng.num_lt j; have := Eng.num_lt x; have := Eng.num_lt y
  have hplace : (6 * x.num + y.num = 6 * i.num + j.num ∧ 6 * i.num + j.num < 36) ↔ x = i ∧ y = j := by
    rw [← Eng.num_inj, ← Eng.num_inj]
    omega
  rw [Engines.tok, Engines.setTok, vget_vset]
  simp only [hplace]
  rfl

theorem Eng.getLsbD_bit (e x : Eng) : (BitVec.ofNat 6 (2 ^ e.num)).getLsbD x.num = decide (x = e) := by
  cases e <;> cases x <;> rfl

/-- The moves of one of the two registers: the queue of an engine's move, whether it can be made, and what it makes of the
tokens and of the mark of the lane's wait. -/
structure TokenMove where
  place : Eng → Eng × Eng
  ok : Nat → Bool
  amount : Nat → Nat
  waited : Bool → Bool

namespace TokenMove

/-- TKPUSH: from the control core, up to fifteen a queue; each push's wait counts for itself. -/
def push : TokenMove :=
  { place := fun e => (.cc, e), ok := fun n => decide (n < 15), amount := (· + 1), waited := fun _ => false }

/-- TKPOP: to the control core. -/
def pop : TokenMove :=
  { place := fun e => (e, .cc), ok := fun n => decide (0 < n), amount := (· - 1), waited := id }

variable (m : TokenMove)

/-- The tokens of an engine's queue in a state. -/
def tokens (s : State) (e : Eng) : Nat := s.core.eng.tok (m.place e).1 (m.place e).2

def mark (s : State) (e : Eng) : State :=
  s.updFetch fun f => { f with moved := f.moved ||| BitVec.ofNat 6 (2 ^ e.num), waited := m.waited f.waited }

def move (g : Engines) (e : Eng) : Engines :=
  g.setTok (m.place e).1 (m.place e).2 (m.amount (g.tok (m.place e).1 (m.place e).2))

/-- One move. -/
def one (s : State) (e : Eng) : State := m.mark (s.updEng fun g => m.move g e) e

/-- The moves of a write, as the model makes them. -/
def run (es : List Eng) (s : State) : Res :=
  moveTokens (fun g e => m.ok (g.tok (m.place e).1 (m.place e).2)) m.move m.mark es s

theorem markPushed_eq : State.markPushed = push.mark := by
  funext s e
  simp only [State.markPushed, State.markMoved, mark, push, State.updFetch, State.upd_upd]

theorem exec_tkpush (a : Opnd) (s : State) : exec (.tkpushWrite a) s =
    finish (push.run (s.tokensLeft a) (s.performWhere fun p => !p.ve && p.space == .u)) := by
  rw [run, ← markPushed_eq]
  rfl

theorem exec_tkpop (a : Opnd) (s : State) : exec (.tkpopWrite a) s = finish (pop.run (s.tokensLeft a) s) := rfl

theorem run_cons (e : Eng) (es : List Eng) (s : State) :
    m.run (e :: es) s = if m.ok (m.tokens s e) then m.run es (m.one s e) else .stall s := rfl

theorem one_core (s : State) (e : Eng) : (m.one s e).core = { s.core with
    eng := m.move s.core.eng e
    fetch := { s.core.fetch with
      moved := s.core.fetch.moved ||| BitVec.ofNat 6 (2 ^ e.num), waited := m.waited s.core.fetch.waited } } := by
  rw [one, mark, State.core_updFetch, State.core_updEng]

/-- w is u after the moves of a list of engines: the tokens of their queues, the moves that the lane has made and the mark
of its wait differ, and nothing else. -/
structure Moved (es : List Eng) (u w : State) : Prop where
  only : OnlyCore u w
  core : { w.core with eng := u.core.eng, fetch := u.core.fetch } = u.core
  fetch : { w.core.fetch with moved := u.core.fetch.moved, waited := u.core.fetch.waited } = u.core.fetch
  marks : ∀ x : Eng, w.core.fetch.moved.getLsbD x.num = (u.core.fetch.moved.getLsbD x.num || decide (x ∈ es))
  tok : ∀ x y, w.core.eng.tok x y = if (x, y) ∈ es.map m.place then m.amount (u.core.eng.tok x y) else u.core.eng.tok x y

theorem tok_move (g : Engines) (e x y : Eng) :
    (m.move g e).tok x y = if (x, y) = m.place e then m.amount (g.tok x y) else g.tok x y := by
  rw [move, Engines.tok_setTok]
  simp only [Prod.ext_iff]
  split
  · rename_i h
    rw [← h.1, ← h.2]
  · rfl

theorem moved_one (s : State) (e : Eng) : m.Moved [e] s (m.one s e) := by
  have hcore := m.one_core s e
  refine ⟨(onlyCore_updEng _ _).trans (onlyCore_updFetch _ _), ?_, ?_, fun x => ?_, fun x y => ?_⟩ <;> rw [hcore]
  · simp only [BitVec.getLsbD_or, Eng.getLsbD_bit, List.mem_singleton]
  · simp only [tok_move, List.map_singleton, List.mem_singleton]

section
variable {m} {s u w : State} {es fs : List Eng}

theorem Moved.append (h : m.Moved es s u) (g : m.Moved fs u w) (hd : (es ++ fs).map m.place |>.Nodup) :
    m.Moved (es ++ fs) s w := by
  refine ⟨h.only.trans g.only, ?_, ?_, fun x => ?_, fun x y => ?_⟩
  · rw [← h.core, ← g.core]
  · rw [← h.fetch, ← g.fetch]
  · simp only [g.marks, h.marks, Bool.or_assoc, ← Bool.decide_or, ← List.mem_append]
  · rw [List.map_append, List.nodup_append] at hd
    obtain ⟨-, -, hdisj⟩ := hd
    simp only [g.tok, h.tok, List.map_append, List.mem_append]
    by_cases hf : (x, y) ∈ fs.map m.place
    · have he : (x, y) ∉ es.map m.place := fun he => hdisj _ he _ hf rfl
      simp [hf, he]
    · simp [hf]

/-- The engine's queue is as it was before the moves of others. -/
theorem Moved.tokens_of_notMem (h : m.Moved es s u) (hp : Function.Injective m.place) {e : Eng} (he : e ∉ es) :
    m.tokens u e = m.tokens s e := by
  rw [tokens, h.tok, if_neg (fun hm => he ((List.mem_map_of_injective hp).mp hm))]
  rfl

theorem Moved.tokens_of_mem (h : m.Moved es s u) {e : Eng} (he : e ∈ es) : m.tokens u e = m.amount (m.tokens s e) := by
  rw [tokens, h.tok, if_pos (List.mem_map_of_mem he)]
  rfl

theorem moved_nil (s : State) : m.Moved [] s s := ⟨⟨rfl, fun _ _ => rfl⟩, rfl, rfl, fun x => by simp, fun x y => by simp⟩

/-- The moves before the first that cannot be made are made (R93). -/
theorem run_append (hp : Function.Injective m.place) (hd : es.Nodup) (h : ∀ e ∈ es, m.ok (m.tokens s e) = true) :
    ∃ w, m.run (es ++ fs) s = m.run fs w ∧ m.Moved es s w := by
  induction es generalizing s with
  | nil => exact ⟨s, rfl, moved_nil s⟩
  | cons e es ih =>
    obtain ⟨hne, hd'⟩ := List.nodup_cons.mp hd
    have hone := m.moved_one s e
    obtain ⟨w, hw, hmoved⟩ := ih (s := m.one s e) hd' fun x hx => by
      rw [hone.tokens_of_notMem hp (by simpa using ne_of_mem_of_not_mem hx hne)]
      exact h x (.tail _ hx)
    refine ⟨w, ?_, hone.append hmoved (hd.map hp)⟩
    rw [List.cons_append, run_cons, if_pos (h e (.head _)), hw]
end

end TokenMove

end Sys2Proof.Machine
end

section
/-! SUPPORT. Writes of TKPUSH and TKPOP complete or wait (R85, R93, R302). -/
namespace Sys2Proof.Machine

theorem OnlyCore.sameMemory {s t : State} (h : OnlyCore s t) : SameMemory s t := fun l a => by
  conv_rhs => rw [← h.1]
  cases l <;> rfl

-- The engines that a write still has to serve.

theorem mem_tokensLeft {s : State} {a : Opnd} {e : Eng} : e ∈ s.tokensLeft a ↔
    e ∈ engines ∧ (s.operand a).getLsbD e.num = true ∧ s.core.fetch.moved.getLsbD e.num = false := by
  simp [State.tokensLeft]

theorem tokensLeft_ascending (s : State) (a : Opnd) : (s.tokensLeft a).Pairwise fun x y => x.num < y.num :=
  List.Pairwise.filter _ (by decide)

theorem tokensLeft_nodup (s : State) (a : Opnd) : (s.tokensLeft a).Nodup :=
  (tokensLeft_ascending s a).imp fun h he => by simp [he] at h

/-- The engines before one of them, and those from it on. -/
theorem tokensLeft_split {s : State} {a : Opnd} {e : Eng} (he : e ∈ s.tokensLeft a) :
    ∃ pre post, s.tokensLeft a = pre ++ e :: post ∧
      (∀ x, x ∈ pre ↔ x ∈ s.tokensLeft a ∧ x.num < e.num) ∧ ∀ x, x ∈ e :: post ↔ x ∈ s.tokensLeft a ∧ e.num ≤ x.num := by
  obtain ⟨pre, post, hsplit⟩ := List.append_of_mem he
  have hasc := tokensLeft_ascending s a
  rw [hsplit, List.pairwise_append, List.pairwise_cons] at hasc
  obtain ⟨-, ⟨hpost, -⟩, hpre⟩ := hasc
  have hle : ∀ x ∈ e :: post, e.num ≤ x.num := fun x hx => by
    obtain rfl | hx := List.mem_cons.mp hx
    · exact le_rfl
    · exact (hpost x hx).le
  refine ⟨pre, post, hsplit, fun x => ?_, fun x => ?_⟩ <;> rw [hsplit, List.mem_append]
  · exact ⟨fun hx => ⟨.inl hx, hpre x hx e (.head _)⟩, fun ⟨hx, hlt⟩ => hx.resolve_right fun hx =>
      absurd (hle x hx) (not_le.mpr hlt)⟩
  · exact ⟨fun hx => ⟨.inr hx, hle x hx⟩, fun ⟨hx, hge⟩ => hx.resolve_left fun hx =>
      absurd (hpre x hx e (.head _)) (not_lt.mpr hge)⟩

namespace TokenMove

variable {m : TokenMove} {s u : State}

/-- Every move can be made: they are, and the lane goes on. -/
theorem run_completes (hp : Function.Injective m.place) {es : List Eng} (hd : es.Nodup)
    (hu : u.core = { s.core with pend := u.core.pend }) (h : ∀ e ∈ es, m.ok (m.tokens s e) = true) :
    ∃ t, finish (m.run es u) = .next t ∧ NextLane s t ∧ SameRegs s t ∧ t.core.pend = u.core.pend ∧ SameMemory u t ∧
      (∀ e ∈ es, m.tokens t e = m.amount (m.tokens s e)) ∧
      ∀ x y, (x, y) ∉ es.map m.place → t.core.eng.tok x y = s.core.eng.tok x y := by
  have hfetch : u.core.fetch = s.core.fetch := by rw [hu]
  have hregs : u.core.regs = s.core.regs := by rw [hu]
  have heng : u.core.eng = s.core.eng := by rw [hu]
  have htokens (e : Eng) : m.tokens u e = m.tokens s e := by rw [tokens, tokens, heng]
  obtain ⟨w, hw, hmoved⟩ := run_append (fs := []) hp hd fun e he => (congrArg m.ok (htokens e)).trans (h e he)
  rw [List.append_nil] at hw
  refine ⟨w.advance, by rw [hw]; rfl, ?_, ?_, ?_, ?_, fun e he => ?_, fun x y hxy => ?_⟩
  · rw [NextLane, State.core_advance, ← hfetch, ← hmoved.fetch]
  · rw [SameRegs, State.core_advance, ← hregs, ← hmoved.core]
  · rw [State.core_advance]
    conv_rhs => rw [← hmoved.core]
  · exact hmoved.only.sameMemory.trans (sameMemory_upd _ _)
  · rw [tokens, State.core_advance, ← htokens e]
    exact hmoved.tokens_of_mem he
  · rw [State.core_advance, hmoved.tok, if_neg hxy, heng]

/-- Some queue makes the lane wait: the moves before its engine are made and marked, the others are left. -/
theorem run_waits (hp : Function.Injective m.place) {pre post : List Eng} {e : Eng} (hd : (pre ++ e :: post).Nodup)
    (hu : u.core = { s.core with pend := u.core.pend }) (h : ∀ x ∈ pre, m.ok (m.tokens s x) = true)
    (he : m.ok (m.tokens s e) = false) :
    ∃ t, finish (m.run (pre ++ e :: post) u) = .next t ∧
      (t.core.fetch.lane = s.core.fetch.lane ∧ t.core.fetch.line = s.core.fetch.line ∧
        (s.core.exposed = false → SameRegs s t)) ∧ t.core.pend = u.core.pend ∧ SameMemory u t ∧
      (∀ x ∈ pre, m.tokens t x = m.amount (m.tokens s x) ∧ t.core.fetch.moved.getLsbD x.num = true) ∧
      (∀ x ∈ e :: post, m.tokens t x = m.tokens s x ∧
        t.core.fetch.moved.getLsbD x.num = s.core.fetch.moved.getLsbD x.num) ∧
      ∀ x y, (x, y) ∉ pre.map m.place → t.core.eng.tok x y = s.core.eng.tok x y := by
  have hfetch : u.core.fetch = s.core.fetch := by rw [hu]
  have hregs : u.core.regs = s.core.regs := by rw [hu]
  have heng : u.core.eng = s.core.eng := by rw [hu]
  have htokens (x : Eng) : m.tokens u x = m.tokens s x := by rw [tokens, tokens, heng]
  obtain ⟨hdpre, -, hdisj⟩ := List.nodup_append.mp hd
  have hnot : ∀ x ∈ e :: post, x ∉ pre := fun x hx hpre => hdisj x hpre x hx rfl
  obtain ⟨w, hw, hmoved⟩ := run_append (fs := e :: post) hp hdpre fun x hx => (congrArg m.ok (htokens x)).trans (h x hx)
  have hstall : m.run (e :: post) w = .stall w := by
    rw [run_cons, hmoved.tokens_of_notMem hp (hnot e (.head _)), htokens, he]
    rfl
  have hcore := w.stallLane_core
  have hwfetch := hmoved.fetch
  rw [hfetch] at hwfetch
  refine ⟨w.stallLane, by rw [hw, hstall]; rfl, ⟨?_, ?_, fun hx => ?_⟩, ?_, ?_, fun x hx => ⟨?_, ?_⟩, fun x hx => ⟨?_, ?_⟩,
    fun x y hxy => ?_⟩
  · rw [hcore, ← hwfetch]
  · rw [hcore, ← hwfetch]
  · have hwx : w.core.exposed = false := by
      rw [← hx, Core.exposed, Core.exposed, ← hwfetch]
    rw [SameRegs, State.stallLane, hwx, ← hregs, ← hmoved.core]
    rfl
  · rw [hcore]
    conv_rhs => rw [← hmoved.core]
  · exact hmoved.only.sameMemory.trans w.stallLane_byteAt
  · rw [tokens, hcore, ← htokens x]
    exact hmoved.tokens_of_mem hx
  · rw [hcore]
    exact (hmoved.marks x).trans (by simp [hx])
  · rw [tokens, hcore, ← htokens x]
    exact hmoved.tokens_of_notMem hp (hnot x hx)
  · rw [hcore, ← hfetch]
    exact (hmoved.marks x).trans (by simp [hnot x hx])
  · rw [hcore]
    exact (hmoved.tok x y).trans (by rw [if_neg hxy, heng])

theorem push_place_injective : Function.Injective push.place := fun _ _ h => (Prod.ext_iff.mp h).2
theorem pop_place_injective : Function.Injective pop.place := fun _ _ h => (Prod.ext_iff.mp h).1

theorem push_notMem {es : List Eng} {x y : Eng} (h : ¬ (x = .cc ∧ y ∈ es)) : (x, y) ∉ es.map push.place := by
  intro hm
  obtain ⟨e, he, hxy⟩ := List.mem_map.mp hm
  cases hxy
  exact h ⟨rfl, he⟩

theorem pop_notMem {es : List Eng} {x y : Eng} (h : ¬ (y = .cc ∧ x ∈ es)) : (x, y) ∉ es.map pop.place := by
  intro hm
  obtain ⟨e, he, hxy⟩ := List.mem_map.mp hm
  cases hxy
  exact h ⟨rfl, he⟩

end TokenMove
end Sys2Proof.Machine
end

section
/-! SUPPORT. Parked elements of a VLDG are filled, retried and released (R132, R219, R220, R366). -/
namespace Sys2Proof.Machine

-- One lane of a register.

theorem Vec.lane_setLane (v : Vec) {r l r' l' : Nat} (x : Lane) (hl : l < 64) (hl' : l' < 64) :
    (v.setLane r l x).lane r' l' = if r' = r ∧ l' = l then x else v.lane r' l' := by
  have hplace : 64 * r' + l' = 64 * r + l ↔ r' = r ∧ l' = l := by omega
  rw [Vec.lane, Vec.setLane, smapGet_set]
  simp only [hplace]
  rfl

theorem Vec.lane_writeLanes_one (v : Vec) {r l r' l' : Nat} (x : Nat) (hl : l < 64) (hl' : l' < 64) :
    (v.writeLanes r [(l, x)]).lane r' l' = if r' = r ∧ l' = l then BitVec.ofNat 32 x else v.lane r' l' :=
  v.lane_setLane _ hl hl'

/-- One lane is no whole granule: no poison goes (R131). -/
theorem Vec.vbad_writeLanes_one (v : Vec) (r l x : Nat) : (v.writeLanes r [(l, x)]).vbad = v.vbad := by
  refine List.filter_eq_self.mpr fun g _ => ?_
  simp only [List.map_cons, List.map_nil, List.contains_cons, List.contains_nil, Bool.or_false, Bool.not_eq_true',
    Bool.and_eq_false_imp, Bool.and_eq_true, beq_iff_eq, beq_eq_false_iff_ne]
  omega

theorem Vec.parked_writeLanes_one (v : Vec) (r l x : Nat) : (v.writeLanes r [(l, x)]).parked =
    v.parked.map fun z => if z.vd = r ∧ z.lane = l then { z with live := false } else z := by
  refine List.map_congr_left fun z _ => ?_
  simp

theorem Vec.refuses_congr {v w : Vec} (h : v.vbad = w.vbad) (r : Nat) (lanes : List Nat) :
    v.refuses r lanes = w.refuses r lanes := by
  rw [Vec.refuses, Vec.refused, h]
  rfl

-- The lane of a parked element is written.

section
variable {s : State} {p : Parked}

theorem fillLane_of_dead (x : Nat) (h : p.live = false) : s.fillLane p x = s := by
  rw [State.fillLane, h]
  rfl

theorem fillLane_of_refused (x : Nat) (h : p.live = true) (hr : s.core.vec.refuses p.vd [p.lane] = true) :
    ∃ g, s.fillLane p x = (s.logGranule g p.ctx).pendTrap { code := 0x0E, eng := .ve, info := 0 } := by
  obtain ⟨g, hg⟩ := Option.isSome_iff_exists.mp hr
  exact ⟨g, by rw [State.fillLane, h, hg]; rfl⟩

theorem fillLane_of_open (x : Nat) (h : p.live = true) (hr : s.core.vec.refuses p.vd [p.lane] = false) :
    s.fillLane p x = s.updVec fun q => q.writeLanes p.vd [(p.lane, x)] := by
  have hg : s.core.vec.refused p.vd [p.lane] = none := by simpa [Vec.refuses] using hr
  rw [State.fillLane, h, hg]
  rfl
end

/-- What the filling of a lane leaves as it is: the thread's registers and position, memory, the holds and the poison. -/
structure Fills (s t : State) : Prop where
  regs : t.core.regs = s.core.regs
  fetch : t.core.fetch = s.core.fetch
  memory : SameMemory s t
  holds : t.holds = s.holds
  vbad : t.core.vec.vbad = s.core.vec.vbad

theorem fills_fillLane (s : State) (p : Parked) (x : Nat) : Fills s (s.fillLane p x) := by
  cases hl : p.live with
  | false =>
    rw [fillLane_of_dead x hl]
    exact ⟨rfl, rfl, fun _ _ => rfl, rfl, rfl⟩
  | true =>
    cases hr : s.core.vec.refuses p.vd [p.lane] with
    | true =>
      obtain ⟨g, hg⟩ := fillLane_of_refused x hl hr
      have hcore : (s.fillLane p x).core = { s.core with
          trap := { s.core.trap with pending := s.core.trap.pending ++ [⟨0x0E, 0, .ve⟩] } } := by
        rw [hg, State.pendTrap, State.core_updTrap]
        rfl
      refine ⟨by rw [hcore], by rw [hcore], ?_, by rw [hg]; rfl, by rw [hcore]⟩
      rw [hg]
      exact (sameMemory_logEvent s _ _ _ _ _ _).trans (sameMemory_upd _ _)
    | false =>
      rw [fillLane_of_open x hl hr]
      refine ⟨by rw [State.core_updVec], by rw [State.core_updVec], sameMemory_upd _ _, rfl, ?_⟩
      rw [State.core_updVec]
      exact s.core.vec.vbad_writeLanes_one ..

theorem Fills.trans {s t u : State} (h : Fills s t) (k : Fills t u) : Fills s u :=
  ⟨k.regs.trans h.regs, k.fetch.trans h.fetch, h.memory.trans k.memory, k.holds.trans h.holds, k.vbad.trans h.vbad⟩

-- RQREL action 2: zero goes to the lanes of the parked elements.

/-- An element whose lane shares a poisoned granule: nothing is written, and MEM_UNCORR is raised (R132). -/
def Vec.refusesParked (v : Vec) (p : Parked) : Bool := p.live && v.refuses p.vd [p.lane]

theorem Fills.refusesParked {s t : State} (h : Fills s t) (p : Parked) :
    t.core.vec.refusesParked p = s.core.vec.refusesParked p := by
  rw [Vec.refusesParked, Vec.refuses_congr h.vbad]
  rfl

/-- The traps and the lanes after the filling of one lane. -/
theorem fillLane_pending (s : State) (p : Parked) (x : Nat) : (s.fillLane p x).core.trap.pending =
    s.core.trap.pending ++ if s.core.vec.refusesParked p then [⟨0x0E, 0, .ve⟩] else [] := by
  cases hl : p.live with
  | false =>
    rw [fillLane_of_dead x hl, Vec.refusesParked, hl]
    simp
  | true =>
    cases hr : s.core.vec.refuses p.vd [p.lane] with
    | true =>
      obtain ⟨g, hg⟩ := fillLane_of_refused x hl hr
      rw [hg, Vec.refusesParked, hl, hr, State.pendTrap, State.core_updTrap]
      rfl
    | false =>
      rw [fillLane_of_open x hl hr, Vec.refusesParked, hl, hr, State.core_updVec]
      simp

theorem fillLane_lane (s : State) (p : Parked) (x : Nat) {r l : Nat} (hp : p.lane < 64) (hl : l < 64) :
    (s.fillLane p x).core.vec.lane r l =
      if p.live = true ∧ s.core.vec.refusesParked p = false ∧ p.vd = r ∧ p.lane = l then BitVec.ofNat 32 x
      else s.core.vec.lane r l := by
  cases hlive : p.live with
  | false => simp [fillLane_of_dead x hlive]
  | true =>
    cases hr : s.core.vec.refuses p.vd [p.lane] with
    | true =>
      obtain ⟨g, hg⟩ := fillLane_of_refused x hlive hr
      rw [hg, Vec.refusesParked, hlive, hr, State.pendTrap, State.core_updTrap]
      simp [State.logGranule]
    | false =>
      rw [fillLane_of_open x hlive hr, Vec.refusesParked, hlive, hr, State.core_updVec]
      simp only [Vec.lane_writeLanes_one _ x hp hl, Bool.true_and, true_and, eq_comm (a := r), eq_comm (a := l)]

theorem fillLane_parked_nil {s : State} (p : Parked) (x : Nat) (h : s.core.vec.parked = []) :
    (s.fillLane p x).core.vec.parked = [] := by
  cases hlive : p.live with
  | false => rw [fillLane_of_dead x hlive, h]
  | true =>
    cases hr : s.core.vec.refuses p.vd [p.lane] with
    | true =>
      obtain ⟨g, hg⟩ := fillLane_of_refused x hlive hr
      rw [hg, State.pendTrap, State.core_updTrap]
      exact h
    | false =>
      rw [fillLane_of_open x hlive hr, State.core_updVec]
      exact (s.core.vec.parked_writeLanes_one ..).trans (by rw [h]; rfl)

/-- Zero goes to the lanes of a list of elements. -/
def State.zeroLanes (s : State) (ps : List Parked) : State := ps.foldl (fun u p => u.fillLane p 0) s

section
variable (ps : List Parked) (s : State)

theorem fills_zeroLanes : Fills s (s.zeroLanes ps) := by
  induction ps generalizing s with
  | nil => exact ⟨rfl, rfl, fun _ _ => rfl, rfl, rfl⟩
  | cons p ps ih => exact (fills_fillLane s p 0).trans (ih _)

theorem zeroLanes_pending : (s.zeroLanes ps).core.trap.pending =
    s.core.trap.pending ++ (ps.filter s.core.vec.refusesParked).map fun _ => ⟨0x0E, 0, .ve⟩ := by
  induction ps generalizing s with
  | nil => simp [State.zeroLanes]
  | cons p ps ih =>
    have hcongr : (s.fillLane p 0).core.vec.refusesParked = s.core.vec.refusesParked :=
      funext (fills_fillLane s p 0).refusesParked
    refine (ih (s.fillLane p 0)).trans ?_
    rw [hcongr, fillLane_pending, List.filter_cons]
    split <;> simp

theorem zeroLanes_parked (h : s.core.vec.parked = []) : (s.zeroLanes ps).core.vec.parked = [] := by
  induction ps generalizing s with
  | nil => exact h
  | cons p ps ih => exact ih _ (fillLane_parked_nil p 0 h)

theorem zeroLanes_lane {r l : Nat} (hl : l < 64) (hps : ∀ p ∈ ps, p.lane < 64) : (s.zeroLanes ps).core.vec.lane r l =
    if ∃ p ∈ ps, p.live = true ∧ s.core.vec.refusesParked p = false ∧ p.vd = r ∧ p.lane = l then 0
    else s.core.vec.lane r l := by
  induction ps generalizing s with
  | nil => simp [State.zeroLanes]
  | cons p ps ih =>
    refine (ih (s.fillLane p 0) fun q hq => hps q (.tail _ hq)).trans ?_
    simp only [(fills_fillLane s p 0).refusesParked, fillLane_lane s p 0 (hps p (.head _)) hl, List.exists_mem_cons_iff]
    by_cases hrest : ∃ q ∈ ps, q.live = true ∧ s.core.vec.refusesParked q = false ∧ q.vd = r ∧ q.lane = l
    · simp [hrest]
    · simp only [hrest, or_false, if_false]
      rfl
end

-- RQREL action 1: each element is read again.

/-- What an element's retry reads, or how it fails. -/
def State.rereads (s : State) (p : Parked) : Except GatherBad (Word × List Nat) :=
  if p.beyond then .error { code := 0x07, addr := p.addr, kind := 2, phys := 0, refused := false, held := false }
  else s.gatherPlaces p.ctx p.addr 0 p.es

/-- The state in which a retry fills its lane or parks again: the stores before it are performed, and the element's hold
is released. -/
def State.reread (s : State) (p : Parked) : State :=
  (s.settleRead (fun _ => false) .g (gatherBytes [s.rereads p])).dropHolds p.hold.toList

theorem retryParked_of_ok {s : State} {p : Parked} {x : Nat} (h : s.gatherRead (s.rereads p) = .ok x) :
    s.retryParked p = (s.reread p).fillLane p x := by
  unfold State.rereads at h
  unfold State.retryParked
  dsimp only
  rw [h]
  rfl

theorem retryParked_of_error {s : State} {p : Parked} {e : GatherBad} (h : s.gatherRead (s.rereads p) = .error e) :
    s.retryParked p = (s.reread p).park p e := by
  unfold State.rereads at h
  unfold State.retryParked
  dsimp only
  rw [h]
  rfl

theorem reread_core (s : State) (p : Parked) :
    (s.reread p).core = { s.core with pend := (s.reread p).core.pend } := by
  rw [State.reread, State.core_dropHolds, State.settleRead, State.performWhere_core]

theorem reread_settled (s : State) (p : Parked) : SettledBut s (s.reread p) .g [] := fun l a _ => by
  rw [State.reread, byteAt_dropHolds]
  exact s.performWhere_byteAt _ l a

theorem reread_nextHold (s : State) (p : Parked) : (s.reread p).nextHold = s.nextHold := by
  rw [State.reread, State.settleRead, State.performWhere_eq]
  exact foldl_performOne_keeps State.nextHold (by simp) _ _

theorem reread_holds (s : State) (p : Parked) : ∀ h ∈ (s.reread p).holds, p.hold ≠ some h.1 := by
  intro h hm heq
  rw [State.reread, State.dropHolds, List.mem_filter, heq] at hm
  simp at hm

/-- A failed element parks at the tail: nothing else of the vector engine changes. -/
theorem park_core (s : State) (p : Parked) (e : GatherBad) : (s.park p e).core = { s.core with vec := { s.core.vec with
    parked := s.core.vec.parked ++
      [{ p with code := e.code, addr := e.addr, hold := if e.held then some s.nextHold else none }] } } := by
  rw [State.park, State.core_updVec]
  cases e.refused <;> cases e.held <;> rfl

theorem sameMemory_park (s : State) (p : Parked) (e : GatherBad) : SameMemory s (s.park p e) := by
  have hlog : SameMemory s (if e.refused then s.logEvent 4 2 e.addr e.phys p.ctx .ve else s) := by
    split
    · exact sameMemory_logEvent s _ _ _ _ _ _
    · exact fun _ _ => rfl
  refine (hlog.trans fun l a => ?_).trans (sameMemory_upd _ _)
  cases e.held <;> cases l <;> rfl

end Sys2Proof.Machine
end

section
/-! SUPPORT. A retry of a parked element, and the two actions of RQREL (R220, R366). -/
namespace Sys2Proof.Machine

section
variable {s : State} {p : Parked}

/-- An element that reads takes its value where no later instruction has written its lane, or raises MEM_UNCORR where
half of the lane's granule is poisoned (R132). -/
theorem retryParked_ok {x : Nat} (h : s.gatherRead (s.rereads p) = .ok x) :
    let t := s.retryParked p
    (∀ h ∈ t.holds, p.hold ≠ some h.1) ∧
    (p.live = true → s.core.vec.refuses p.vd [p.lane] = false → t.core.trap = s.core.trap ∧
      t.core.vec.parked = s.core.vec.parked.map (fun z =>
        if z.vd = p.vd ∧ z.lane = p.lane then { z with live := false } else z) ∧
      ∀ r l, l < 64 → p.lane < 64 → t.core.vec.lane r l =
        if r = p.vd ∧ l = p.lane then BitVec.ofNat 32 x else s.core.vec.lane r l) ∧
    (p.live = true → s.core.vec.refuses p.vd [p.lane] = true → t.core.vec = s.core.vec ∧
      t.core.trap.pending = s.core.trap.pending ++ [⟨0x0E, 0, .ve⟩]) ∧
    (p.live = false → t.core.vec = s.core.vec ∧ t.core.trap = s.core.trap) := by
  have hcore := reread_core s p
  have hvec : (s.reread p).core.vec = s.core.vec := by rw [hcore]
  have htrap : (s.reread p).core.trap = s.core.trap := by rw [hcore]
  dsimp only
  rw [retryParked_of_ok h]
  refine ⟨?_, fun hl hr => ?_, fun hl hr => ?_, fun hl => ?_⟩
  · rw [(fills_fillLane ..).holds]
    exact reread_holds s p
  · rw [fillLane_of_open x hl (by rw [hvec, hr]), State.core_updVec, hvec]
    exact ⟨htrap, Vec.parked_writeLanes_one .., fun r l hlt hp => s.core.vec.lane_writeLanes_one x hp hlt⟩
  · obtain ⟨g, hg⟩ := fillLane_of_refused (s := s.reread p) x hl (by rw [hvec, hr])
    rw [hg, State.pendTrap, State.core_updTrap, ← htrap]
    exact ⟨hvec, rfl⟩
  · rw [fillLane_of_dead x hl]
    exact ⟨hvec, htrap⟩

/-- One that fails parks again at the tail, with a hold of its own where it was translated (R123, R219). -/
theorem retryParked_error {e : GatherBad} (h : s.gatherRead (s.rereads p) = .error e) :
    let t := s.retryParked p
    t.core.vec.regs = s.core.vec.regs ∧ t.core.trap = s.core.trap ∧
      t.core.vec.parked = s.core.vec.parked ++
        [{ p with code := e.code, addr := e.addr, hold := if e.held then some s.nextHold else none }] := by
  dsimp only
  rw [retryParked_of_error h, park_core, reread_nextHold, reread_core]
  exact ⟨rfl, rfl, rfl⟩

/-- A retry keeps the registers and the position of the thread, and of memory all but what pending stores write. -/
theorem retryParked_keeps (s : State) (p : Parked) : SameRegs s (s.retryParked p) ∧
    (s.retryParked p).core.fetch = s.core.fetch ∧ SettledBut s (s.retryParked p) .g [] := by
  have hcore := reread_core s p
  have hsettled := reread_settled s p
  cases h : s.gatherRead (s.rereads p) with
  | ok x =>
    have hfills := fills_fillLane (s.reread p) p x
    rw [retryParked_of_ok h]
    refine ⟨hfills.regs.trans (by rw [hcore]), hfills.fetch.trans (by rw [hcore]), fun l a hla => ?_⟩
    rw [hfills.memory]
    exact hsettled l a hla
  | error e =>
    rw [retryParked_of_error h]
    refine ⟨by rw [SameRegs, park_core, hcore], by rw [park_core, hcore], fun l a hla => ?_⟩
    rw [sameMemory_park]
    exact hsettled l a hla
end

/-- The state after the first k elements of a list have been retried. -/
def State.retriedTo (s : State) (ps : List Parked) (k : Nat) : State := (ps.take k).foldl State.retryParked s

theorem retriedTo_succ (s : State) {ps : List Parked} {k : Nat} {p : Parked} (h : ps[k]? = some p) :
    s.retriedTo ps (k + 1) = (s.retriedTo ps k).retryParked p := by
  rw [State.retriedTo, List.take_add_one, h, List.foldl_append]
  rfl

theorem foldl_retryParked_keeps (ps : List Parked) (s : State) :
    (ps.foldl State.retryParked s).core.regs = s.core.regs ∧ (ps.foldl State.retryParked s).core.fetch = s.core.fetch := by
  induction ps generalizing s with
  | nil => exact ⟨rfl, rfl⟩
  | cons p ps ih =>
    obtain ⟨hr, hf, -⟩ := retryParked_keeps s p
    obtain ⟨hrs, hfs⟩ := ih (s.retryParked p)
    exact ⟨hrs.trans hr, hfs.trans hf⟩

-- The two actions.

/-- The core with its replay queue taken out, as both actions begin. -/
def State.unparked (s : State) : State := s.updVec fun q => { q with parked := [] }

theorem State.unparked_core (s : State) : s.unparked.core = { s.core with vec := { s.core.vec with parked := [] } } :=
  State.core_updVec _ _

section
variable {s : State} {a : Opnd}

theorem exec_rqrelRelease (hs : s.core.regs.sup = true) (h : (s.operand a).toNat % 4 = 2) :
    exec (.rqrelRelease a) s = .next ((s.unparked.zeroLanes s.core.vec.parked).dropHolds
      (s.core.vec.parked.map fun p => p.hold.toList).flatten).advance := by
  have hw : s.writeRqrel (s.operand a) = (s.unparked.zeroLanes s.core.vec.parked).dropHolds
      (s.core.vec.parked.map fun p => p.hold.toList).flatten := by
    rw [State.writeRqrel, h, if_neg (by decide), if_pos rfl]
    rfl
  rw [← hw]
  change finish (privileged s _) = _
  rw [privileged, hs, if_pos rfl, finish_done]

theorem exec_rqrelRetry (hs : s.core.regs.sup = true) (h : (s.operand a).toNat % 4 = 1) :
    exec (.rqrelRetry a) s = .next (s.unparked.retriedTo s.core.vec.parked s.core.vec.parked.length).advance := by
  have hw : s.writeRqrel (s.operand a) = s.unparked.retriedTo s.core.vec.parked s.core.vec.parked.length := by
    rw [State.writeRqrel, h, if_pos rfl, State.retriedTo, List.take_length]
    rfl
  rw [← hw]
  change finish (privileged s _) = _
  rw [privileged, hs, if_pos rfl, finish_done]

/-- Action 2 (R220). -/
theorem rqrelRelease_effect (hs : s.core.regs.sup = true) (h : (s.operand a).toNat % 4 = 2) :
    let ps := s.core.vec.parked
    ∃ t, exec (.rqrelRelease a) s = .next t ∧ NextLane s t ∧ SameRegs s t ∧ SameMemory s t ∧ t.core.vec.parked = [] ∧
      t.holds = s.holds.filter (fun x => !((ps.map fun p => p.hold.toList).flatten.contains x.1)) ∧
      t.core.trap.pending =
        s.core.trap.pending ++ (ps.filter s.core.vec.refusesParked).map (fun _ => ⟨0x0E, 0, .ve⟩) ∧
      ∀ r l, l < 64 → (∀ p ∈ ps, p.lane < 64) → t.core.vec.lane r l =
        if ∃ p ∈ ps, p.live = true ∧ s.core.vec.refusesParked p = false ∧ p.vd = r ∧ p.lane = l then 0
        else s.core.vec.lane r l := by
  intro ps
  have hcore := s.unparked_core
  have hfills := fills_zeroLanes ps s.unparked
  refine ⟨_, exec_rqrelRelease hs h, nextLane_advance ?_, ?_, fun l b => ?_, ?_, congrArg (List.filter _) hfills.holds,
    ?_, fun r l hl hps => ?_⟩
  · rw [State.core_dropHolds, hfills.fetch, hcore]
  · rw [SameRegs, State.core_advance, State.core_dropHolds, hfills.regs, hcore]
  · rw [State.advance, State.updFetch, State.byteAt_upd, byteAt_dropHolds, hfills.memory]
    exact s.byteAt_upd _ l b
  · rw [State.core_advance, State.core_dropHolds]
    exact zeroLanes_parked ps _ (by rw [hcore])
  · rw [State.core_advance, State.core_dropHolds]
    refine (zeroLanes_pending ps _).trans ?_
    rw [hcore]
    rfl
  · rw [State.core_advance, State.core_dropHolds]
    refine (zeroLanes_lane ps _ hl hps).trans ?_
    rw [hcore]
    rfl
end

/-- Settles O30: the token moves by the list of engines still to serve, RQREL by its list of parked elements. -/
theorem tokensAndReplayQueue : Obligations.TokensAndReplayQueue := by
  unfold Obligations.TokensAndReplayQueue
  refine ⟨?_, ?_⟩
  · intro a s named done waits
    have hnamed (e : Eng) : e ∈ s.tokensLeft a ↔ named e := mem_tokensLeft
    have hd := tokensLeft_nodup s a
    have hcore := s.performWhere_core fun p => !p.ve && p.space == .u
    have hpend : (s.performWhere fun p => !p.ve && p.space == .u).core.pend =
        s.core.pend.filter fun p => !(!p.ve && p.space == .u) := by rw [hcore]
    rw [← hpend] at hcore
    refine ⟨fun h => ?_, fun h => ?_, fun e he hfull h => ?_, fun e he hempty h => ?_⟩
    · obtain ⟨t, ht, hnext, hregs, hp, hmem, hmoved, hother⟩ :=
        TokenMove.run_completes TokenMove.push_place_injective hd hcore fun e he =>
          decide_eq_true (h e ((hnamed e).mp he))
      refine ⟨t, (TokenMove.exec_tkpush a s).trans ht, hnext, hregs, ⟨hp.trans hpend, hmem⟩,
        fun e he => hmoved e ((hnamed e).mpr he), fun x y hxy => hother x y (TokenMove.push_notMem ?_)⟩
      rwa [hnamed]
    · obtain ⟨t, ht, hnext, hregs, -, hmem, hmoved, hother⟩ :=
        TokenMove.run_completes (s := s) TokenMove.pop_place_injective hd rfl fun e he =>
          decide_eq_true (h e ((hnamed e).mp he))
      refine ⟨t, (TokenMove.exec_tkpop a s).trans ht, hnext, hregs, hmem,
        fun e he => hmoved e ((hnamed e).mpr he), fun x y hxy => hother x y (TokenMove.pop_notMem ?_)⟩
      rwa [hnamed]
    · obtain ⟨pre, post, hsplit, hpre, hpost⟩ := tokensLeft_split ((hnamed e).mpr he)
      rw [hsplit] at hd
      obtain ⟨t, ht, hwaits, hp, hmem, hmoved, hleft, hother⟩ :=
        TokenMove.run_waits TokenMove.push_place_injective hd hcore
          (fun x hx => decide_eq_true (h x ((hnamed x).mp ((hpre x).mp hx).1) ((hpre x).mp hx).2))
          (decide_eq_false (not_lt.mpr hfull))
      refine ⟨t, (TokenMove.exec_tkpush a s).trans (hsplit ▸ ht), hwaits, ⟨hp.trans hpend, hmem⟩,
        fun x hx hlt => hmoved x ((hpre x).mpr ⟨(hnamed x).mpr hx, hlt⟩), fun x hx hge => ?_,
        fun x y hxy => hother x y (TokenMove.push_notMem fun hm => hxy ⟨hm.1, (hnamed y).mp ((hpre y).mp hm.2).1⟩)⟩
      obtain ⟨htok, hmark⟩ := hleft x ((hpost x).mpr ⟨(hnamed x).mpr hx, hge⟩)
      exact ⟨htok, fun hdone => by simp [done, hmark, hx.2.2] at hdone⟩
    · obtain ⟨pre, post, hsplit, hpre, hpost⟩ := tokensLeft_split ((hnamed e).mpr he)
      rw [hsplit] at hd
      obtain ⟨t, ht, hwaits, -, hmem, hmoved, hleft, hother⟩ :=
        TokenMove.run_waits (s := s) TokenMove.pop_place_injective hd rfl
          (fun x hx => decide_eq_true (h x ((hnamed x).mp ((hpre x).mp hx).1) ((hpre x).mp hx).2))
          (decide_eq_false (not_lt.mpr hempty.le))
      refine ⟨t, (TokenMove.exec_tkpop a s).trans (hsplit ▸ ht), hwaits, hmem,
        fun x hx hlt => hmoved x ((hpre x).mpr ⟨(hnamed x).mpr hx, hlt⟩), fun x hx hge => ?_,
        fun x y hxy => hother x y (TokenMove.pop_notMem fun hm => hxy ⟨hm.1, (hnamed x).mp ((hpre x).mp hm.2).1⟩)⟩
      obtain ⟨htok, hmark⟩ := hleft x ((hpost x).mpr ⟨(hnamed x).mpr hx, hge⟩)
      exact ⟨htok, fun hdone => by simp [done, hmark, hx.2.2] at hdone⟩
  · intro a s v ps refused released reads retried hs
    refine ⟨fun h => rqrelRelease_effect hs h, fun h => ?_⟩
    refine ⟨_, s.unparked.retriedTo ps, exec_rqrelRetry hs h, nextLane_advance ?_, rfl, fun k p hk => ?_,
      onlyCore_advance _, by rw [State.core_advance]⟩
    · exact (foldl_retryParked_keeps _ s.unparked).2.trans (by rw [s.unparked_core])
    · rw [retriedTo_succ _ hk]
      obtain ⟨hregs, -, hsettled⟩ := retryParked_keeps (s.unparked.retriedTo ps k) p
      exact ⟨hregs, hsettled, fun x hx => retryParked_ok hx, fun e he => retryParked_error he⟩

end Sys2Proof.Machine
end
